-- ==== Sys2Proof/Word.lean ====
section
/-! DEFINITION. The word types of the Joquel J4 and their plainest arithmetic. -/

namespace Sys2Proof

/-- One byte (R374: byte 0 of a value holds bits [7:0]). -/
abbrev Byte := BitVec 8

/-- A 32-bit word of the management ring (R385) and of FP32 values. -/
abbrev Word := BitVec 32

/-- A 64-bit word: P64 partials (Table 02.5), dictionary values of up to 8 bytes (R389). -/
abbrev Word64 := BitVec 64

/-- A command descriptor, two beats of 512 bits (R256, Table 09.2). -/
abbrev Descriptor := BitVec 1024

/-- One 16-byte argument slot (Table 09.5). -/
abbrev ArgSlot := BitVec 128

/-- A link flit of 256 bytes (R321). -/
abbrev Flit := BitVec 2048

/-- A sparse table: the number of an object and the object, absent numbers at a stated default. -/
abbrev Table (α : Type) := List (Nat × α)

end Sys2Proof
end

