-- ==== Sys2Proof/Syntax.lean ====
section
/-! DEFINITION. The commands of the Joquel J4: one constructor for each row of spec/opcode_table.json. -/

namespace Sys2Proof

/-- The two transports that end at the management unit (chapter 13): DTP on the ring, and MCTP. -/
inductive Transport where
  | ring | mctp
  deriving DecidableEq, Repr

/-- What the decoders say of a received flit: of each lane, 0 to 7, the symbol errors in the codeword that carries the
flit's block on it, and whether the flit is the first of the 20 that those codewords carry (R319, R320). -/
structure Fec where
  errs : List Nat
  first : Bool
  deriving DecidableEq, Repr

/-- What a fuse load delivers (R478, R485, R486). The word layout is Weawald's own, so the fields
arrive decoded; marker words keep their 26-bit value. -/
structure FuseValues where
  /-- some word could not be corrected (failure code 2) -/
  uncorrectable : Bool
  /-- `FUSE_DISABLE` (OD 2010h.02) -/
  fuseDisable : Nat
  /-- `V_FUSE_MV` (R401) -/
  vFuseMv : Nat
  /-- `SERIAL` (OD 1018h.04) -/
  serial : Nat
  /-- `FW_KEY_HASH`, 0 while blank -/
  fwKeyHash : Nat
  /-- `OWNER_KEY_HASH`, 0 while blank -/
  ownerKeyHash : Nat
  /-- the marker words of Table 17.1 -/
  provisionedMarker : Nat
  deployedMarker : Nat
  returnedMarker : Nat
  /-- words 2017 to 2047 -/
  svnMarkers : List Nat
  /-- the margin thresholds of R402 -/
  raiseThreshold : Nat
  holdThreshold : Nat
  floorThreshold : Nat
  /-- bypassed physical (row, column) of each block (R74), in engine block order -/
  repair : List (Nat × Nat)
  deriving DecidableEq, Repr

/-- What a CTRL training flit carries (R344). The manual gives its content and no bit layout. -/
structure TrainingFlit where
  node : Nat
  dimX : Nat
  dimY : Nat
  dimZ : Nat
  /-- number of the port it was sent from -/
  port : Nat
  encrypt : Bool
  /-- the peer has acknowledged this port's own training flits -/
  acked : Bool
  deriving DecidableEq, Repr

/-- The commands. A descriptor command carries the 1024 bits of its descriptor; an event carries what
the outside world brings to it. Times are read from the state's own clocks. -/
inductive Instr where
  -- descriptors (R256 to R274)
  | gemm (d : Descriptor)
  | gemmMultipassComplex (d : Descriptor)
  | gemmMultipassFp32 (d : Descriptor)
  | attnFwd (d : Descriptor)
  | attnBwd (d : Descriptor)
  | attnCached (d : Descriptor)
  | attnMerge (d : Descriptor)
  | routePages (d : Descriptor)
  | kvAppend (d : Descriptor)
  | ptEdit (d : Descriptor)
  -- operations of a dispatched PT_EDIT (Table 07.10), for the command with that tag
  | create (tag : Nat)
  | release (tag : Nat)
  | truncate (tag : Nat)
  | unmap (tag : Nat)
  | fork (tag : Nat)
  | setAttr (tag : Nat)
  | pageDrop (d : Descriptor)
  | pageRestore (d : Descriptor)
  | scan (d : Descriptor)
  | moeRoute (d : Descriptor)
  | topk (d : Descriptor)
  | allGather (d : Descriptor)
  | reduceScatter (d : Descriptor)
  | allToAll (d : Descriptor)
  | collectiveAttnMerge (d : Descriptor)
  | permute (d : Descriptor)
  | copy (d : Descriptor)
  | siltCopy (d : Descriptor)
  | flagReleaseSet (d : Descriptor)
  | flagReleaseAdd (d : Descriptor)
  | flagAcquire (d : Descriptor)
  | fence (d : Descriptor)
  | hint (d : Descriptor)
  | nop (d : Descriptor)
  | ingressProtocolError
  -- scheduler, blocks and BVUs
  | argBlockReadDone (tag : Nat)
  | commandDispatch
  /-- the scheduler places the oldest pending work item on block `b` -/
  | workItemPlace (b : Nat)
  | psumReservationGrant (b : Nat)
  | walkRequest (region : Nat)
  | arrayStep (b : Nat)
  | stationaryLoadDone (b : Nat)
  | tileDrain (b : Nat)
  | drainEnd (b : Nat)
  | prologueTile (b : Nat)
  | epilogueTile (b : Nat)
  | packTimeout (tag : Nat)
  /-- the staging deadline of the command passed `late` FC ago (R195) -/
  | deadlineExpiry (tag late : Nat)
  | arrivalTilePresent (b entry : Nat)
  -- paged cache
  | frameAllocation (tag : Nat)
  | appendTokenCommit (tag : Nat)
  | pagePromotion (tag : Nat)
  | promotionCommit (tag : Nat)
  | pageDropAuto (pool : Nat)
  | peatRequestPost
  | retiredObjectFree
  | poolShrinkMove (pool : Nat)
  -- boundaries and completions
  | quiescentBoundary
  | profileSwitchComplete
  | completionDecided (tag : Nat)
  | completionRecordSend
  | cplCredit
  -- dictionary
  | funcDisable (mask : BitVec 16)
  /-- a write of `bytes` to entry `index`.`sub` -/
  | dictWrite (index sub : Nat) (bytes : List Byte)
  | read (tr : Transport) (frame : List Word)
  | write (tr : Transport) (frame : List Word)
  | segRead (tr : Transport) (frame : List Word)
  | segWrite (tr : Transport) (frame : List Word)
  | snapshot (tr : Transport) (frame : List Word)
  | describe (tr : Transport) (frame : List Word)
  | cancel (tr : Transport) (frame : List Word)
  | sessionTimeout (tr : Transport)
  | mctp (frame : List Word)
  | setEndpointId
  | getEndpointId
  | getMctpVersionSupport
  | getMessageTypeSupport
  | getVendorDefinedMessageSupport
  | dictionaryMessage
  | getVersion
  | getCapabilities
  | negotiateAlgorithms
  | getDigests
  | getCertificate
  | challenge
  | getMeasurements
  | spdmUnsupportedRequest
  | requestOperational
  | requestStopped
  | biasCommit (v : Nat)
  | routeCommit (v : Nat)
  | flagReset (slot : Nat)
  | portRetrain (p v : Nat)
  | errorAck (n : Nat)
  | inject (v : Word)
  | spRestored (b : Nat)
  | poolShrink (p target : Nat)
  | accSelect (v : Word)
  | accWindow
  | linkKeySlot (p slot : Nat) (bytes : List Byte)
  | txKeySlot (p v : Nat)
  | keyClear (p : Nat) (v : Nat)
  | unlockResponse (bytes : List Byte)
  | relock (v : Nat)
  | unlockHoldEnd
  | unlockDurationEnd
  -- flags
  | remoteFlagApply
  | acquireTimeout (tag : Nat)
  | acquireInvalidationEnd (tag : Nat)
  -- links: a flit received on port `p`, with what the lanes' decoders say of it (R320)
  | nullFlit (p : Nat) (f : Flit) (fec : Fec)
  | headFlit (p : Nat) (f : Flit) (fec : Fec)
  | dataFlit (p : Nat) (f : Flit) (fec : Fec)
  | smallFlit (p : Nat) (f : Flit) (fec : Fec)
  | flagFlit (p : Nat) (f : Flit) (fec : Fec)
  | ackFlit (p : Nat) (f : Flit) (fec : Fec)
  | heartbeatFlit (p : Nat) (f : Flit) (fec : Fec)
  | ctrlTraining (p : Nat) (t : TrainingFlit)
  /-- the peer asks for a resend from `seq` -/
  | ctrlRetryRequest (p seq : Nat)
  | abortFlit (p : Nat) (f : Flit) (fec : Fec)
  | flitSlot (p : Nat)
  | heartbeatSend (p : Nat)
  | retryRequestResend (p : Nat)
  | hbTimeout (p : Nat)
  | e2eTimeout (tag : Nat)
  | trainingTimeout (p : Nat)
  | phyReady (p : Nat)
  | phyLockLoss (p : Nat)
  -- memory ports
  | memRequestIssue (n : Nat)
  | memReqCredit (n : Nat)
  | memReadResponse (n : Nat) (rsp : Word) (data : BitVec 1024) (par : BitVec 16)
  | memWriteResponse (n : Nat) (rsp : BitVec 16)
  /-- the request with that identifier, a write when `wr`, has had no response in time -/
  | memRespTimeout (n : Nat) (wr : Bool) (id : Nat)
  -- power
  | droopTrip (b : Nat)
  | stretchEnd (b : Nat)
  /-- `est` is the power over the last 10 µs in W, `amps5` the core current in 5 A units -/
  | powerLoopEval (est amps5 : Nat)
  | blockGated (b : Nat)
  /-- `temp` is the hottest sensor in 1/8 °C -/
  | thermalEval (temp : Int)
  | thermalTrip (temp : Int)
  | thermalTripEnd (temp : Int)
  /-- a code sampled on MARL[23:20] in slot D of one frame -/
  | marlCapRequest (code : BitVec 4)
  | marlFrame
  /-- the smallest slack any monitor reported in the period -/
  | trimPeriodEnd (slack : Nat)
  | marginFloorReport (region slack : Nat)
  /-- the smallest slack any monitor reported during the 1 ms check -/
  | trimCheckEnd (slack : Nat)
  | avsAck
  | avsTimeout
  | rampAdmissionStep
  | rampClose
  | fallingRampStep (b : Nat)
  | preRampStep
  -- reliability
  /-- the collector of `level` (1 block, 2 region, 3 apex) and unit number -/
  | errorReportAccept (level unit : Nat)
  /-- `single` words are found with one bad bit; two bad bits are found in operands staged for the blocks of `data` and
  in the cache areas: `lines` names read-cache lines (address / 128), page-table leaves (2^46 + slot) and loam keys
  (2^47 + 64·frame + head) -/
  | scrub (region single : Nat) (data lines : List Nat)
  | inServiceTest (region : Nat)
  | blockTestDone (b : Nat) (pass : Bool)
  | blockRecovery (b : Nat)
  | revalidationDone (b : Nat) (pass : Bool)
  | regionRecovery (region : Nat)
  /-- `ok` is false when the reset itself fails -/
  | apexWarmReset (ok : Bool)
  | mireWatchExpiry (level unit : Nat)
  | correctedWindow
  -- boundary
  | pwrGoodRise
  | pwrGoodFall
  | resetNFall
  | resetNRise
  | strapSample (levels : BitVec 24)
  | pllLock
  | fuseLoadDone (f : FuseValues)
  /-- `readFailed` when a read of the image was a failed request -/
  | firmwareVerifyDone (readFailed : Bool)
  | controlCoresStarted
  /-- the blocks of the batch whose signature did not match -/
  | selfTestBatchDone (failed : List Nat)
  | pllLockLoss
  | idcode
  | bypass
  | extest
  | pllLockTimeout
  | staticBootCodeStart
  | ieee1687InstrumentAccess
  | unknownOpcode (d : Descriptor)
  | hintIntervalEnd
  | preRampExpiry (b : Nat)
  deriving DecidableEq, Repr

end Sys2Proof
end

