-- ==== Sys2Proof/WellFormed.lean ====
section
/-! DEFINITION. Which commands are well formed: their unit numbers lie in the engine's ranges and their
lists fit the frames that carry them. The machine runs on any term; a number outside its range names no
unit and its event is no event. -/

namespace Sys2Proof

/-- Engine block number (R32), region, port, memory port (R456), pool, flag slot, tag in range. -/
def blockOk (b : Nat) : Bool := b < 320
def regionOk (r : Nat) : Bool := r < 8
def linkOk (p : Nat) : Bool := p < 6
def mpOk (n : Nat) : Bool := n < 16
def poolOk (p : Nat) : Bool := p < 8
def tagOk (t : Nat) : Bool := t < 512

/-- A DTP run of words: at most 258 payload words and 3 more (Table 13.4). -/
def frameOk (f : List Word) : Bool := f.length ≤ 261

/-- The unit a collector's level names (R435). -/
def collectorOk (level unit : Nat) : Bool :=
  (level = 1 && blockOk unit) || (level = 2 && regionOk unit) || (level = 3 && unit = 0)

/-- Eight lanes; a codeword has 544 symbols (R318, R319). -/
def fecOk (x : Fec) : Bool := x.errs.length = 8 && x.errs.all (· ≤ 544)

/-- Well-formedness of a command. -/
def Instr.wf : Instr → Bool
  | .create t | .release t | .truncate t | .unmap t | .fork t | .setAttr t => tagOk t
  | .argBlockReadDone t | .packTimeout t | .frameAllocation t | .appendTokenCommit t => tagOk t
  | .pagePromotion t | .promotionCommit t | .completionDecided t | .acquireTimeout t => tagOk t
  | .acquireInvalidationEnd t | .e2eTimeout t => tagOk t
  | .deadlineExpiry t _ => tagOk t
  | .workItemPlace b | .psumReservationGrant b | .arrayStep b | .stationaryLoadDone b | .tileDrain b => blockOk b
  | .drainEnd b | .prologueTile b | .epilogueTile b | .droopTrip b | .stretchEnd b | .blockGated b => blockOk b
  | .fallingRampStep b | .blockRecovery b | .preRampExpiry b => blockOk b
  | .blockTestDone b _ | .revalidationDone b _ => blockOk b
  | .arrivalTilePresent b e => blockOk b && e < 256
  | .walkRequest r | .inServiceTest r | .regionRecovery r => regionOk r
  | .marginFloorReport r _ => regionOk r
  | .scrub r single data _ => regionOk r && single ≤ 3145728 && data.all fun b => blockOk b && b / 40 = r
  | .pageDropAuto p | .poolShrinkMove p | .poolShrink p _ => poolOk p
  | .dictWrite i sub bytes => i < 65536 && sub < 256 && bytes.length ≤ 65536
  | .read _ f | .write _ f | .segRead _ f | .segWrite _ f | .snapshot _ f | .describe _ f | .cancel _ f => frameOk f
  | .mctp f => frameOk f
  | .flagReset n => n < 65536
  | .spRestored n => n < 65536
  | .portRetrain p _ | .txKeySlot p _ | .keyClear p _ => linkOk p
  | .linkKeySlot p slot _ => linkOk p && slot < 2
  | .nullFlit p _ x | .headFlit p _ x | .dataFlit p _ x | .smallFlit p _ x | .flagFlit p _ x => linkOk p && fecOk x
  | .ackFlit p _ x | .heartbeatFlit p _ x | .abortFlit p _ x => linkOk p && fecOk x
  | .ctrlTraining p t => linkOk p && t.port < 6
  | .ctrlRetryRequest p q => linkOk p && q < 4096
  | .flitSlot p | .heartbeatSend p | .retryRequestResend p | .hbTimeout p | .trainingTimeout p => linkOk p
  | .phyReady p | .phyLockLoss p => linkOk p
  | .memRequestIssue n | .memReqCredit n => mpOk n
  | .memReadResponse n _ _ _ | .memWriteResponse n _ => mpOk n
  | .memRespTimeout n _ id => mpOk n && id < 4096
  | .errorReportAccept l u => collectorOk l u
  | .mireWatchExpiry l u => collectorOk l u
  | .selfTestBatchDone f => f.all blockOk
  | _ => true

end Sys2Proof
end

