-- ==== Sys2Proof/Decode.lean ====
section
/-! DEFINITION. The command a table word spells. No row of spec/opcode_table.json gives bits, so no word
spells a command: descriptors, frames and flits are operands of their rows. -/

namespace Sys2Proof

/-- The command whose table bits are `w`: none, since no row has table bits. -/
def decodeTableWord (_nbits _w : Nat) : Option Instr := none

end Sys2Proof
end

