-- ==== Sys2Proof/Machine/Bits.lean ====
section
/-! DEFINITION. Bit fields, byte order and check codes. -/

namespace Sys2Proof.Machine

/-- Bits [lo + w - 1 : lo] of a number. -/
def bits (n lo w : Nat) : Nat := n / 2 ^ lo % 2 ^ w

def bit (n i : Nat) : Bool := n.testBit i

/-- Bits [lo + w - 1 : lo] of a bit vector. -/
def fld {k : Nat} (d : BitVec k) (lo w : Nat) : Nat := bits d.toNat lo w

/-- `n` as `k` bytes, least significant first (R374). -/
def toBytes (k n : Nat) : List Byte := (List.range k).map fun i => BitVec.ofNat 8 (n / 2 ^ (8 * i))

/-- A number from bytes, least significant first. -/
def ofBytes : List Byte → Nat
  | [] => 0
  | b :: r => b.toNat + 256 * ofBytes r

/-- `k` bytes, most significant first. -/
def toBytesBE (k n : Nat) : List Byte := (toBytes k n).reverse

def ofBytesBE (l : List Byte) : Nat := ofBytes l.reverse

/-- Number of set bits of the low `k` bits. -/
def ones : Nat → Nat → Nat
  | 0, _ => 0
  | k + 1, n => n % 2 + ones k (n / 2)

/-- An even number of ones among the low `k` bits. -/
def evenPar (k n : Nat) : Bool := ones k n % 2 = 0

/-- One byte of a reflected CRC-32. -/
def crcByte (poly c : Nat) (b : Byte) : Nat :=
  (List.range 8).foldl (fun c _ => if c % 2 = 1 then (c / 2) ^^^ poly else c / 2) (c ^^^ b.toNat)

def crcRefl (poly : Nat) (l : List Byte) : Nat := (l.foldl (crcByte poly) 0xFFFFFFFF) ^^^ 0xFFFFFFFF

/-- CRC-32C (Castagnoli), Table 00.4. -/
def crc32c (l : List Byte) : Nat := crcRefl 0x82F63B78 l

/-- The IEEE 802.3 frame check sequence (R321). -/
def crc32 (l : List Byte) : Nat := crcRefl 0xEDB88320 l

/-- CRC-16 with polynomial 1021h and initial value FFFFh, not reflected (R215). -/
def crc16 (l : List Byte) : Nat :=
  l.foldl (fun c b =>
    (List.range 8).foldl (fun c _ => if c ≥ 32768 then (c * 2 % 65536) ^^^ 0x1021 else c * 2) (c ^^^ (b.toNat * 256)))
    0xFFFF

/-- Replace bits [lo + w - 1 : lo]. -/
def putBits (n lo w v : Nat) : Nat := n - bits n lo w * 2 ^ lo + v % 2 ^ w * 2 ^ lo

def ceilDiv (a b : Nat) : Nat := (a + b - 1) / b

/-- Pack fields from bit 0 upwards: (width, value). -/
def pack : List (Nat × Nat) → Nat
  | [] => 0
  | (w, v) :: r => v % 2 ^ w + 2 ^ w * pack r

/-- A Boolean as a bit. -/
def b2n (b : Bool) : Nat := if b then 1 else 0

/-- Saturate at the largest value of `w` bits. -/
def satN (w n : Nat) : Nat := min n (2 ^ w - 1)

/-- Serial-number order of 32 bits: `a` is at or before `b` (R451, R229). -/
def serialLe (a b : Nat) : Bool := (b + 2 ^ 32 - a % 2 ^ 32) % 2 ^ 32 < 2 ^ 31

end Sys2Proof.Machine
end

