-- ==== Sys2Proof/Machine/Crypto.lean ====
section
/-! DEFINITION. The cryptographic functions that R4 names: SHA-384 (FIPS 180-4), AES-256-GCM (FIPS 197, SP 800-38D) with a
96-bit tag (R349, R350), and the verification of ECDSA P-384 with SHA-384 (FIPS 186-5; R488, R495). -/

namespace Sys2Proof.Machine

/-! ### SHA-384 -/

/-- The greatest r with r^k ≤ n, among numbers of at most `b` bits. -/
def rootBits (k n b : Nat) : Nat :=
  (List.range b).foldl (fun r i => let c := r + 2 ^ (b - 1 - i); if c ^ k ≤ n then c else r) 0

def primes80 : List Nat :=
  ((List.range 408).foldl (fun (l : List Nat) i => if l.any (fun p => (i + 2) % p = 0) then l else l ++ [i + 2]) []).take 80

/-- Round constants: the first 64 bits of the fractions of the cube roots of the first 80 primes. -/
def shaK : List Nat := primes80.map fun p => rootBits 3 (p * 2 ^ 192) 68 % 2 ^ 64

/-- Initial value: the first 64 bits of the fractions of the square roots of the ninth to sixteenth primes. -/
def sha384Init : List Nat := ((primes80.drop 8).take 8).map fun p => rootBits 2 (p * 2 ^ 128) 68 % 2 ^ 64

def rotr64 (x n : Nat) : Nat := (x >>> n) ||| ((x <<< (64 - n)) % 2 ^ 64)

/-- One more word of the message schedule, the newest first. -/
def shaExtend (w : List Nat) : List Nat :=
  let a := w.getD 14 0
  let b := w.getD 1 0
  let s0 := rotr64 a 1 ^^^ rotr64 a 8 ^^^ (a >>> 7)
  let s1 := rotr64 b 19 ^^^ rotr64 b 61 ^^^ (b >>> 6)
  ((s1 + w.getD 6 0 + s0 + w.getD 15 0) % 2 ^ 64) :: w

/-- One round on the words a to h. -/
def shaRound (v : List Nat) (k w : Nat) : List Nat :=
  match v with
  | [a, b, c, d, e, f, g, h] =>
    let t1 := h + (rotr64 e 14 ^^^ rotr64 e 18 ^^^ rotr64 e 41) + ((e &&& f) ^^^ ((2 ^ 64 - 1 - e) &&& g)) + k + w
    let t2 := (rotr64 a 28 ^^^ rotr64 a 34 ^^^ rotr64 a 39) + ((a &&& b) ^^^ (a &&& c) ^^^ (b &&& c))
    [(t1 + t2) % 2 ^ 64, a, b, c, (d + t1) % 2 ^ 64, e, f, g]
  | v => v

/-- A block of 128 bytes enters the hash value. -/
def shaBlock (ks : List Nat) (hv : List Nat) (bs : List Byte) : List Nat :=
  let w0 := (List.range 16).map fun i => ofBytesBE ((bs.drop (8 * i)).take 8)
  let ws := ((List.range 64).foldl (fun w _ => shaExtend w) w0.reverse).reverse
  let v := (ks.zip ws).foldl (fun v p => shaRound v p.1 p.2) hv
  (hv.zip v).map fun p => (p.1 + p.2) % 2 ^ 64

/-- The message with its padding: whole blocks. -/
def shaPad (m : List Byte) : List Byte :=
  m ++ [0x80] ++ List.replicate ((239 - m.length % 128) % 128) 0 ++ toBytesBE 16 (8 * m.length)

/-- Blocks of 128 bytes. -/
def shaBlocks : Nat → List Byte → List (List Byte)
  | 0, _ => []
  | n + 1, l => if l.isEmpty then [] else l.take 128 :: shaBlocks n (l.drop 128)

/-- The 48 bytes of the digest. -/
def sha384Bytes (m : List Byte) : List Byte :=
  let ks := shaK
  let p := shaPad m
  let h := (shaBlocks (p.length / 128) p).foldl (shaBlock ks) sha384Init
  (h.take 6).flatMap (toBytesBE 8)

/-- The digest as an entry or a fuse holds it: its first byte in bits [7:0] (R374). -/
def sha384 (m : List Byte) : Nat := ofBytes (sha384Bytes m)

/-! ### AES-256 -/

/-- Multiplication by x in the field of AES. -/
def xtime (a : Nat) : Nat := if a < 128 then 2 * a else (2 * a - 256) ^^^ 0x1B

def gfMul (a b : Nat) : Nat :=
  ((List.range 8).foldl (fun (p : Nat × Nat) i => (if b.testBit i then p.1 ^^^ p.2 else p.1, xtime p.2)) (0, a)).1

/-- a^254, the inverse of a, and 0 of 0. -/
def gfInv (a : Nat) : Nat :=
  ((List.range 7).foldl (fun (p : Nat × Nat) _ => let q := gfMul p.2 p.2; (gfMul p.1 q, q)) (1, a)).1

def rotl8 (x n : Nat) : Nat := (x <<< n) % 256 ||| (x >>> (8 - n))

/-- SubBytes of one byte. -/
def sboxOf (a : Nat) : Nat := let b := gfInv a; b ^^^ rotl8 b 1 ^^^ rotl8 b 2 ^^^ rotl8 b 3 ^^^ rotl8 b 4 ^^^ 0x63

def sboxTable : List Nat := (List.range 256).map sboxOf

def xorBytes (a b : List Nat) : List Nat := (a.zip b).map fun p => p.1 ^^^ p.2

/-- The next word of the key schedule, the newest first; `i` is its number. -/
def aesNextWord (sb : List Nat) (ws : List (List Nat)) (i : Nat) : List (List Nat) :=
  let t := ws.headD []
  let sub := fun (l : List Nat) => l.map fun b => sb.getD b 0
  let t :=
    if i % 8 = 0 then
      (let r := sub (t.drop 1 ++ t.take 1)
       ((r.headD 0) ^^^ ((List.range (i / 8 - 1)).foldl (fun c _ => xtime c) 1)) :: r.drop 1)
    else if i % 8 = 4 then sub t
    else t
  xorBytes (ws.getD 7 []) t :: ws

/-- The 15 round keys of 16 bytes. -/
def aesKeys (sb : List Nat) (key : List Byte) : List (List Nat) :=
  let w0 := (List.range 8).map fun i => ((key.drop (4 * i)).take 4).map (·.toNat)
  let ws := ((List.range 52).foldl (fun ws i => aesNextWord sb ws (i + 8)) w0.reverse).reverse
  (List.range 15).map fun r => ((ws.drop (4 * r)).take 4).flatten

/-- SubBytes and ShiftRows of a block of 16 bytes, column by column. -/
def aesShift (sb : List Nat) (b : List Nat) : List Nat :=
  (List.range 16).map fun i => sb.getD (b.getD ((i + 4 * (i % 4)) % 16) 0) 0

def aesMix (b : List Nat) : List Nat :=
  (List.range 16).map fun i =>
    let at_ := fun k => b.getD (i / 4 * 4 + (i + k) % 4) 0
    xtime (at_ 0) ^^^ (xtime (at_ 1) ^^^ at_ 1) ^^^ at_ 2 ^^^ at_ 3

def aesBlock (sb : List Nat) (ks : List (List Nat)) (b : List Nat) : List Nat :=
  let s := xorBytes b (ks.headD [])
  let s := ((ks.drop 1).take 13).foldl (fun s k => xorBytes (aesMix (aesShift sb s)) k) s
  xorBytes (aesShift sb s) (ks.getD 14 [])

/-! ### GCM -/

/-- Product in the field of GHASH; bit 127 of a number is the first bit of its block. -/
def ghashMul (x y : Nat) : Nat :=
  ((List.range 128).foldl (fun (p : Nat × Nat) i =>
    (if x.testBit (127 - i) then p.1 ^^^ p.2 else p.1, if p.2 % 2 = 1 then (p.2 / 2) ^^^ (0xE1 * 2 ^ 120) else p.2 / 2)) (0, y)).1

/-- 16-byte blocks of a string, the last one filled with zeros. -/
def gcmBlocks (l : List Byte) : List Nat :=
  (List.range (ceilDiv l.length 16)).map fun i =>
    let p := (l.drop (16 * i)).take 16
    ofBytesBE (p ++ List.replicate (16 - p.length) 0)

def ghash (h : Nat) (aad c : List Byte) : Nat :=
  (gcmBlocks aad ++ gcmBlocks c ++ [8 * aad.length * 2 ^ 64 + 8 * c.length]).foldl (fun y x => ghashMul (y ^^^ x) h) 0

/-- The key stream and the tag's mask: blocks of counters 1, 2, … behind a 96-bit IV. -/
def gcmBlock (sb : List Nat) (ks : List (List Nat)) (iv : List Byte) (i : Nat) : List Byte :=
  (aesBlock sb ks ((iv ++ toBytesBE 4 i).map (·.toNat))).map (BitVec.ofNat 8)

def xorStr (a b : List Byte) : List Byte := (a.zip b).map fun p => p.1 ^^^ p.2

/-- The text under the key stream, either way. -/
def gcmCrypt (sb : List Nat) (ks : List (List Nat)) (iv text : List Byte) : List Byte :=
  xorStr text ((List.range (ceilDiv text.length 16)).flatMap fun i => gcmBlock sb ks iv (i + 2))

/-- The whole tag over the associated data and the ciphertext. -/
def gcmTag (sb : List Nat) (ks : List (List Nat)) (iv aad c : List Byte) : List Byte :=
  let h := ofBytesBE ((aesBlock sb ks (List.replicate 16 0)).map (BitVec.ofNat 8))
  xorStr (toBytesBE 16 (ghash h aad c)) (gcmBlock sb ks iv 1)

/-- R349: header and plain body of a flit give 228 bytes of ciphertext and the 96-bit tag. -/
def gcmSeal (key : BitVec 256) (iv hdr : BitVec 96) (body : BitVec 1824) : BitVec 1920 :=
  let sb := sboxTable
  let ks := aesKeys sb (toBytes 32 key.toNat)
  let c := gcmCrypt sb ks (toBytes 12 iv.toNat) (toBytes 228 body.toNat)
  BitVec.ofNat 1920 (ofBytes (c ++ (gcmTag sb ks (toBytes 12 iv.toNat) (toBytes 12 hdr.toNat) c).take 12))

/-- R350: the plain body, when the tag verifies. -/
def gcmUnseal (key : BitVec 256) (iv hdr : BitVec 96) (body : BitVec 1920) : Option (BitVec 1824) :=
  let sb := sboxTable
  let ks := aesKeys sb (toBytes 32 key.toNat)
  let c := toBytes 228 body.toNat
  let t := toBytes 12 (body.toNat / 2 ^ 1824)
  if (gcmTag sb ks (toBytes 12 iv.toNat) (toBytes 12 hdr.toNat) c).take 12 = t then
    some (BitVec.ofNat 1824 (ofBytes (gcmCrypt sb ks (toBytes 12 iv.toNat) c)))
  else none

/-! ### ECDSA P-384 -/

def ecP : Nat := 2 ^ 384 - 2 ^ 128 - 2 ^ 96 + 2 ^ 32 - 1
def ecN : Nat := 0xFFFFFFFFFFFFFFFFFFFFFFFFFFFFFFFFFFFFFFFFFFFFFFFFC7634D81F4372DDF581A0DB248B0A77AECEC196ACCC52973
def ecB : Nat := 0xB3312FA7E23EE7E4988E056BE3F82D19181D9C6EFE8141120314088F5013875AC656398D8A2ED19D2A85C8EDD3EC2AEF
def ecGx : Nat := 0xAA87CA22BE8B05378EB1C71EF320AD746E1D3B628BA79B9859F741E082542A385502F25DBF55296C3A545E3872760AB7
def ecGy : Nat := 0x3617DE4A96262C6F5D9E98BF9292DC29F8F41DBD289A147CE9DA3113B5F0B8C00A60B1CE1D7E819D7A431D7C90EA0E5F

/-- Power modulo m; the exponent has at most 384 bits. -/
def powMod (b e m : Nat) : Nat :=
  (List.range 384).foldl (fun r i => let r := r * r % m; if e.testBit (383 - i) then r * b % m else r) 1

/-- A point in Jacobian coordinates; z = 0 is the point at infinity. -/
structure EcPt where
  x : Nat
  y : Nat
  z : Nat
  deriving DecidableEq, Repr

def ecSub (a b : Nat) : Nat := (a + ecP - b) % ecP

def ecDouble (q : EcPt) : EcPt :=
  let d := q.z * q.z % ecP
  let g := q.y * q.y % ecP
  let b := q.x * g % ecP
  let a := 3 * (ecSub q.x d * ((q.x + d) % ecP)) % ecP
  let x := ecSub (a * a % ecP) (8 * b % ecP)
  { x := x, y := ecSub (a * ecSub (4 * b % ecP) x % ecP) (8 * g * g % ecP), z := 2 * q.y * q.z % ecP }

def ecAdd (p q : EcPt) : EcPt :=
  if p.z = 0 then q
  else if q.z = 0 then p
  else
    let z1 := p.z * p.z % ecP
    let z2 := q.z * q.z % ecP
    let u1 := p.x * z2 % ecP
    let u2 := q.x * z1 % ecP
    let s1 := p.y * q.z * z2 % ecP
    let s2 := q.y * p.z * z1 % ecP
    if u1 = u2 then (if s1 = s2 then ecDouble p else { x := 1, y := 1, z := 0 })
    else
      let h := ecSub u2 u1
      let r := ecSub s2 s1
      let h2 := h * h % ecP
      let h3 := h * h2 % ecP
      let v := u1 * h2 % ecP
      let x := ecSub (ecSub (r * r % ecP) h3) (2 * v % ecP)
      { x := x, y := ecSub (r * ecSub v x % ecP) (s1 * h3 % ecP), z := h * p.z * q.z % ecP }

/-- u·G + v·Q. -/
def ecMul2 (u v : Nat) (q : EcPt) : EcPt :=
  let g : EcPt := { x := ecGx, y := ecGy, z := 1 }
  let gq := ecAdd g q
  (List.range 384).foldl (fun a i =>
    let a := ecDouble a
    match u.testBit (383 - i), v.testBit (383 - i) with
    | true, true => ecAdd a gq
    | true, false => ecAdd a g
    | false, true => ecAdd a q
    | false, false => a) { x := 1, y := 1, z := 0 }

/-- Verification of a signature, r then s, by a public key, x then y, each 48 bytes, most significant first (Table 17.3). -/
def ecdsaVerify (pub msg sig : List Byte) : Bool :=
  let x := ofBytesBE (pub.take 48)
  let y := ofBytesBE ((pub.drop 48).take 48)
  let r := ofBytesBE (sig.take 48)
  let t := ofBytesBE ((sig.drop 48).take 48)
  let e := ofBytesBE (sha384Bytes msg)
  let onCurve := decide (x < ecP) && decide (y < ecP) && (y * y % ecP == (x * x * x + (ecP - 3) * x + ecB) % ecP)
  if !(onCurve && 0 < r && decide (r < ecN) && 0 < t && decide (t < ecN)) then false
  else
    let w := powMod t (ecN - 2) ecN
    let q := ecMul2 (e * w % ecN) (r * w % ecN) { x := x, y := y, z := 1 }
    if q.z = 0 then false
    else
      let i := powMod q.z (ecP - 2) ecP
      q.x * (i * i % ecP) % ecP % ecN == r

end Sys2Proof.Machine
end

