-- ==== Sys2Proof/Config.lean ====
section
/-! DEFINITION. What the manual leaves open: constants without a body. No proof can see a value of one, so
a theorem holds whatever the hardware puts there. Each is named in notes/assumptions. -/

namespace Sys2Proof.Config

/-- A byte that R9 calls undefined, drawn afresh by a counter of the state (log entry 3). -/
opaque freeByte : Nat → Byte

/-- A natural number that the manual leaves open, drawn afresh by a counter of the state (log entry 3). -/
opaque freeNat : Nat → Nat

/-- Column ranges over which a band of row statistics is spread, from M, N and `REGION_COUNT` (R57, R148: the manual
gives no procedure; log entry 62). -/
opaque statRanges : Nat → Nat → Nat → Nat

/-- The largest true magnitude for which a special function returns at most a given FP32 word, as (significand, exponent),
by function, mode and segment, before Tables 04.4 and 04.5 are imposed (R104, R105: the seed ROM is not given; log entry 4). -/
opaque sfCut : Nat → Nat → Nat × Int

/-- What exp2 returns in XF mode for an FP32 input, before its limit is imposed (R112; log entry 4). -/
opaque xfRaw : Word → BitVec 24

/-- The 34-bit unrounded result of a gate form before its multiplication, as (significand, exponent):
value significand · 2^exponent (R110; log entry 4). -/
opaque sfWide : Nat → Word → Nat × Int

/-- The 96-byte signature of the device identity key over a message (R491; log entry 5). -/
opaque deviceSign : Nat → List Byte → List Byte

/-- Public key of the device identity key, x then y (R491; log entry 5). -/
opaque devicePubKey : BitVec 768

/-- The public key of the last certificate of a chain (R491; the DER layout is not given; log entry 5). -/
opaque certPubKey : List Byte → BitVec 768

/-- SHA-384 of Weawald's test key, held in ROM (R488), and of the boot ROM (Table 17.4). -/
opaque testKeyHash : Nat
opaque bootRomHash : Nat

/-- The 48-byte nonce drawn by the random-bit generator for the n-th challenge (R494; log entry 6). -/
opaque nonce : Nat → BitVec 384

/-- Core-rail current expected 2 µs ahead in 5 A units (Table 14.4); the calibration is not given. -/
opaque iForecast : Nat → Nat

/-- What the debug selections 80h to FFh put on MARL slot D (R468); the manual does not say. -/
opaque marlDebug : Nat → Nat → BitVec 20

/-- The manufacturer code that the integrator ties `JTAG_MFR` to (R479). -/
opaque jtagMfr : BitVec 11

/-- Payload of an SPDM response whose bytes DSP0274 fixes and the manual does not (R490; log entry 7). -/
opaque spdmPayload : Nat → List Byte → List Byte

/-- Version entry of Get MCTP Version Support (R393; DSP0236 fixes it, the manual does not; log entry 7). -/
opaque mctpVersion : BitVec 32

/-- Problem and cube that the bottom cell of a stack serves, by `SHAPE` code and logical cell; none for the other
cells of the stack (R63, Table 03.2: the places of the stacks are not given; log entry 25). -/
opaque cubeOf : Nat → Nat → Option (Nat × Nat)

end Sys2Proof.Config
end

