-- ==== Sys2Proof/Machine/Numbers.lean ====
section
/-! DEFINITION. Exact values, the number formats of chapter 02, and every rounding they undergo. -/

namespace Sys2Proof.Machine

/-- A finite value with the sign kept apart: `(-1)^neg · man · 2^exp`; a zero has `man = 0`. -/
structure Fx where
  neg : Bool
  man : Nat
  exp : Int
  deriving DecidableEq, Repr

/-- A value of any format: finite, an infinity or a NaN (with its own sign bit, R54). -/
inductive Val where
  | fin (x : Fx)
  | inf (neg : Bool)
  | nan (neg : Bool)
  deriving DecidableEq, Repr

/-- The element formats of Tables 02.1 and 02.5. -/
inductive Fmt where
  | e2m1 | e4m3 | e5m2 | int8 | int4 | bf16 | fp16 | fp32 | p64
  deriving DecidableEq, Repr

/-- Number of significant bits of a natural number. -/
def bitLen (n : Nat) : Nat := if n = 0 then 0 else n.log2 + 1

/-- Number of zero bits below the lowest set bit (0 for 0). -/
def trailZ (n : Nat) : Nat := if n = 0 then 0 else (n ^^^ (n - 1)).log2

def fxZero : Fx := ⟨false, 0, 0⟩
def fxOne : Fx := ⟨false, 1, 0⟩
def vZero : Val := .fin fxZero
def vNegZero : Val := .fin ⟨true, 0, 0⟩
def vOne : Val := .fin fxOne
/-- The NaN that the engine produces (7FC0 0000h in FP32). -/
def vNan : Val := .nan false

def fxOfInt (n : Int) : Fx := ⟨decide (n < 0), n.natAbs, 0⟩

/-- Multiplication by 2^k, exact. -/
def fxScale (x : Fx) (k : Int) : Fx := if x.man = 0 then x else ⟨x.neg, x.man, x.exp + k⟩

def fxMul (a b : Fx) : Fx :=
  if a.man = 0 ∨ b.man = 0 then ⟨a.neg != b.neg, 0, 0⟩ else ⟨a.neg != b.neg, a.man * b.man, a.exp + b.exp⟩

/-- The significand at the lower exponent `e ≤ x.exp`, signed. -/
def fxAt (x : Fx) (e : Int) : Int :=
  let m : Int := (x.man * 2 ^ (x.exp - e).toNat : Nat)
  if x.neg then -m else m

/-- Exact addition; a zero sum is +0 unless both operands are -0 (R48). -/
def fxAdd (a b : Fx) : Fx :=
  if a.man = 0 then (if b.man = 0 then ⟨a.neg && b.neg, 0, 0⟩ else b)
  else if b.man = 0 then a
  else
    let e := min a.exp b.exp
    let s := fxAt a e + fxAt b e
    if s = 0 then fxZero else ⟨decide (s < 0), s.natAbs, e⟩

def fxNeg (x : Fx) : Fx := { x with neg := !x.neg }
def fxAbs (x : Fx) : Fx := { x with neg := false }
def fxSub (a b : Fx) : Fx := fxAdd a (fxNeg b)

/-- `a < b` as numbers (so -0 and +0 compare equal). -/
def fxLt (a b : Fx) : Bool :=
  let e := min a.exp b.exp
  decide (fxAt a e < fxAt b e)

def fxLe (a b : Fx) : Bool := !fxLt b a

/-- The exponent E with 2^E ≤ |x| < 2^(E+1), for a non-zero value. -/
def fxTop (x : Fx) : Int := x.exp + bitLen x.man - 1

/-- Integer quotient rounded to nearest, ties to even, of `m / 2^k`. -/
def rneShift (m k : Nat) : Nat :=
  let q := m / 2 ^ k
  let r := m % 2 ^ k
  let h := 2 ^ k
  if 2 * r > h ∨ (2 * r = h ∧ q % 2 = 1) then q + 1 else q

/-- Round to nearest even at the bit of weight 2^q. -/
def rneAt (q : Int) (x : Fx) : Fx :=
  if x.man = 0 then x
  else if x.exp ≥ q then x else ⟨x.neg, rneShift x.man (q - x.exp).toNat, q⟩

/-- Round to a significand of `p` bits, no bit below weight 2^emin (gradual underflow). -/
def rneP (p : Nat) (emin : Int) (x : Fx) : Fx := rneAt (max emin (fxTop x + 1 - p)) x

/-- Round to a significand of `p` bits with unbounded exponent. -/
def rneU (p : Nat) (x : Fx) : Fx := rneAt (fxTop x + 1 - p) x

/-- Floor of a finite value. -/
def fxFloor (x : Fx) : Int :=
  if x.exp ≥ 0 then fxAt x 0 else
    let d : Nat := 2 ^ (-x.exp).toNat
    let q : Int := (x.man / d : Nat)
    if x.neg then (if x.man % d = 0 then -q else -q - 1) else q

def fxCeil (x : Fx) : Int := -fxFloor (fxNeg x)

def valNeg : Val → Bool
  | .fin x => x.neg
  | .inf n => n
  | .nan n => n

def valIsNan : Val → Bool
  | .nan _ => true
  | _ => false

def valIsZero : Val → Bool
  | .fin x => x.man = 0
  | _ => false

/-- Exact product (R36). -/
def valMul : Val → Val → Val
  | .nan _, _ => vNan
  | _, .nan _ => vNan
  | .fin a, .fin b => .fin (fxMul a b)
  | .inf n, .fin b => if b.man = 0 then vNan else .inf (n != b.neg)
  | .fin a, .inf n => if a.man = 0 then vNan else .inf (n != a.neg)
  | .inf m, .inf n => .inf (m != n)

/-- Exact sum with the special cases of R48. -/
def valAdd : Val → Val → Val
  | .nan _, _ => vNan
  | _, .nan _ => vNan
  | .fin a, .fin b => .fin (fxAdd a b)
  | .inf n, .fin _ => .inf n
  | .fin _, .inf n => .inf n
  | .inf m, .inf n => if m = n then .inf m else vNan

/-- Scaling by 2^k (R121 before its underflow rule). -/
def valScale (v : Val) (k : Int) : Val :=
  match v with
  | .fin x => .fin (fxScale x k)
  | w => w

/-- Exact sum of a list; a zero sum is +0 unless every term is -0 (R45). -/
def valSum (ps : List Val) : Val := ps.foldl valAdd vNegZero

/-- A value with the `SAT` indication its rounding raised. -/
abbrev Sat (α : Type) := α × Bool

/-- The largest finite value with `p` significant bits and top exponent `emax`. -/
def fxMax (n : Bool) (p : Nat) (emax : Int) : Fx := ⟨n, 2 ^ p - 1, emax + 1 - p⟩

/-- AF50 rounding (R48 to R50): 40 bits, saturation at 2^512, zero below 2^-510. -/
def rneAf50 : Val → Sat Val
  | .nan _ => (vNan, false)
  | .inf n => (.inf n, false)
  | .fin x =>
    let r := rneU 40 x
    if r.man = 0 then (.fin ⟨x.neg, 0, 0⟩, false)
    else if fxTop r ≥ 512 then (.fin (fxMax x.neg 40 511), true)
    else if fxTop r < -510 then (.fin ⟨x.neg, 0, 0⟩, false)
    else (.fin r, false)

/-- Rounding to a binary format with saturation (R54, rne32 and Table 02.7). -/
def rneSat (p : Nat) (emin emax : Int) : Val → Sat Val
  | .nan n => (.nan n, false)
  | .inf n => (.inf n, false)
  | .fin x =>
    let r := rneP p emin x
    if r.man ≠ 0 ∧ fxTop r > emax then (.fin (fxMax x.neg p emax), true) else (.fin r, false)

/-- rne32 of R54. -/
def rne32 : Val → Sat Val := rneSat 24 (-149) 127

/-- FP32 rounding of the special-function unit: overflow gives the infinity (R106, R110). -/
def rne32Inf : Val → Val
  | .fin x =>
    let r := rneP 24 (-149) x
    if r.man ≠ 0 ∧ fxTop r > 127 then .inf x.neg else .fin r
  | v => v

/-- One AF50 addition. -/
def afAdd (a b : Val) : Sat Val := rneAf50 (valAdd a b)

/-- Exact scaling of an AF50 value by 2^k; a non-zero result below 2^-510 becomes zero (R121). -/
def afScale (v : Val) (k : Int) : Val := (rneAf50 (valScale v k)).1

/-! ### Encodings -/

/-- An element of a small binary format with `e` exponent bits and `m` fraction bits. -/
def decBin (e m : Nat) (w : Nat) : Fx :=
  let neg : Bool := w / 2 ^ (e + m) % 2 = 1
  let x : Nat := w / 2 ^ m % 2 ^ e
  let f : Nat := w % 2 ^ m
  let bias : Int := 2 ^ (e - 1) - 1
  if x = 0 then ⟨neg, f, 1 - bias - m⟩ else ⟨neg, 2 ^ m + f, (x : Int) - bias - m⟩

/-- IEEE 754 interpretation: all-ones exponent is infinity or NaN. -/
def decIeee (e m : Nat) (w : Nat) : Val :=
  if w / 2 ^ m % 2 ^ e = 2 ^ e - 1 then
    (if w % 2 ^ m = 0 then .inf (w / 2 ^ (e + m) % 2 = 1) else .nan (w / 2 ^ (e + m) % 2 = 1))
  else .fin (decBin e m w)

def decInt (n : Nat) (w : Nat) : Val :=
  let v := w % 2 ^ n
  .fin (fxOfInt (if v ≥ 2 ^ (n - 1) then (v : Int) - (2 ^ n : Nat) else v))

/-- A P64 word (R46, R47). A word R52 calls poisoned reads as a NaN here; `p64Bad` tells it apart. -/
def decP64 (w : Nat) : Val :=
  let neg : Bool := w / 2 ^ 49 % 2 = 1
  let x : Nat := w / 2 ^ 39 % 2 ^ 10
  let f : Nat := w % 2 ^ 39
  if x = 0 then .fin ⟨neg, 0, 0⟩
  else if x = 1023 then (if f = 0 then .inf neg else .nan neg)
  else .fin ⟨neg, 2 ^ 39 + f, (x : Int) - 511 - 39⟩

/-- R52: non-zero bits [63:50], or `EXP` 000h with a non-zero fraction. -/
def p64Bad (w : Nat) : Bool :=
  w / 2 ^ 50 ≠ 0 || (w / 2 ^ 39 % 2 ^ 10 = 0 && w % 2 ^ 39 ≠ 0)

/-- Decode an element (Table 02.1). -/
def decode : Fmt → Nat → Val
  | .e2m1, w => .fin (decBin 2 1 w)
  | .e4m3, w => if w % 128 = 127 then .nan (w / 128 % 2 = 1) else .fin (decBin 4 3 w)
  | .e5m2, w => decIeee 5 2 w
  | .int8, w => decInt 8 w
  | .int4, w => decInt 4 w
  | .bf16, w => decIeee 8 7 w
  | .fp16, w => decIeee 5 10 w
  | .fp32, w => decIeee 8 23 w
  | .p64, w => decP64 w

/-- Bits of one element. -/
def fmtBits : Fmt → Nat
  | .e2m1 => 4 | .int4 => 4 | .e4m3 => 8 | .e5m2 => 8 | .int8 => 8
  | .bf16 => 16 | .fp16 => 16 | .fp32 => 32 | .p64 => 64

/-- Encode a finite value already rounded to the format. -/
def encBin (e m : Nat) (x : Fx) : Nat :=
  let s := if x.neg then 2 ^ (e + m) else 0
  let bias : Int := 2 ^ (e - 1) - 1
  if x.man = 0 then s
  else
    let emin : Int := 1 - bias - m
    let q := max emin (fxTop x - m)
    let f := (x.man * 2 ^ (x.exp - q).toNat) / 2 ^ (q - x.exp).toNat
    if f < 2 ^ m then s + f else s + ((q - emin + 1).toNat * 2 ^ m) + (f - 2 ^ m)

/-- Conversion into an IEEE format (FP32, BF16, FP16 rows of Table 02.7). -/
def cvtIeee (e m : Nat) (v : Val) : Sat Nat :=
  let bias : Int := 2 ^ (e - 1) - 1
  let ones := (2 ^ e - 1) * 2 ^ m
  match rneSat (m + 1) (1 - bias - m) bias v with
  | (.fin x, s) => (encBin e m x, s)
  | (.inf n, _) => ((if n then 2 ^ (e + m) else 0) + ones, false)
  | (.nan _, _) => (ones + 2 ^ (m - 1), false)

/-- Nearest integer of a finite value, ties to even. -/
def rneInt (x : Fx) : Int :=
  let r := rneAt 0 x
  fxAt r (min r.exp 0) / 2 ^ (-(min r.exp 0)).toNat

/-- INT8 and INT4 rows of Table 02.7. -/
def cvtInt (n : Nat) (v : Val) : Sat Nat :=
  let top : Int := (2 ^ (n - 1) : Nat) - 1
  let enc (i : Int) : Nat := (i % (2 ^ n : Nat)).toNat
  match v with
  | .nan _ => (0, true)
  | .inf s => (enc (if s then -top else top), true)
  | .fin x =>
    let i := rneInt x
    if i > top then (enc top, true) else if i < -top then (enc (-top), true) else (enc i, false)

/-- P64 word of an AF50 value (R46; exact for a rounded value, R52). -/
def encP64 : Val → Nat
  | .nan _ => 0x1FFC000000000
  | .inf n => (if n then 2 ^ 49 else 0) + 1023 * 2 ^ 39
  | .fin x =>
    let s := if x.neg then 2 ^ 49 else 0
    if x.man = 0 then s
    else
      let q := fxTop x - 39
      let f := (x.man * 2 ^ (x.exp - q).toNat) / 2 ^ (q - x.exp).toNat
      s + (fxTop x + 511).toNat * 2 ^ 39 + (f - 2 ^ 39)

/-- Conversion into a format with `SAT` (R54, Table 02.7). For E2M1 a NaN gives 0; its scale becomes FFh
at the caller. -/
def encode : Fmt → Val → Sat Nat
  | .fp32, v => cvtIeee 8 23 v
  | .bf16, v => cvtIeee 8 7 v
  | .fp16, v => cvtIeee 5 10 v
  | .p64, v => let (r, s) := rneAf50 v; (encP64 r, s)
  | .int8, v => cvtInt 8 v
  | .int4, v => cvtInt 4 v
  | .e5m2, v =>
    match rneSat 3 (-16) 15 v with
    | (.fin x, s) => (encBin 5 2 x, s)
    | (.inf n, _) => ((if n then 128 else 0) + 0x7C, false)
    | (.nan n, _) => ((if n then 128 else 0) + 0x7E, false)
  | .e4m3, v =>
    match v with
    | .nan n => ((if n then 128 else 0) + 0x7F, false)
    | .inf n => ((if n then 128 else 0) + 0x7E, true)
    | .fin x =>
      let r := rneP 4 (-9) x
      if fxLt ⟨false, 448, 0⟩ (fxAbs r) then ((if x.neg then 128 else 0) + 0x7E, true) else (encBin 4 3 r, false)
  | .e2m1, v =>
    match v with
    | .nan _ => (0, true)
    | .inf n => ((if n then 8 else 0) + 7, true)
    | .fin x =>
      let r := rneP 2 (-1) x
      if fxLt ⟨false, 6, 0⟩ (fxAbs r) then ((if x.neg then 8 else 0) + 7, true) else (encBin 2 1 r, false)

/-- The value an element stored from `v` has. -/
def stored (f : Fmt) (v : Val) : Sat Val := let (w, s) := encode f v; (decode f w, s)

/-- An FP32 word and its value. -/
def w32 (w : Word) : Val := decode .fp32 w.toNat
def toW32 (v : Val) : Word := BitVec.ofNat 32 (encode .fp32 v).1

/-- An E8M0 scale byte (R35). -/
def e8m0 (b : Nat) : Val := if b % 256 = 255 then vNan else .fin ⟨false, 1, ((b % 256 : Nat) : Int) - 127⟩

/-- An FP16 group scale; an infinity makes every product of its group NaN (R39). -/
def fp16Scale (w : Nat) : Val :=
  match decode .fp16 w with
  | .fin x => .fin x
  | _ => vNan

/-! ### One step of the array (R43 to R50) -/

/-- Lowest and highest set bit positions of the non-zero finite products, if any. -/
def spanEnds (ps : List Val) : Option (Int × Int) :=
  ps.foldl (fun a p =>
    match p with
    | .fin x =>
      if x.man = 0 then a
      else
        let lo := x.exp + trailZ x.man
        let hi := fxTop x
        match a with
        | none => some (lo, hi)
        | some (l, h) => some (min l lo, max h hi)
    | _ => a) none

/-- The span of a group of scaled products (R45). -/
def span (ps : List Val) : Nat :=
  match spanEnds ps with
  | none => 0
  | some (l, h) => (h - l + 1).toNat

/-- R44: one rounding of the exact group sum into the accumulator. -/
def stepWhole (acc : Val) (ps : List Val) : Sat Val := rneAf50 (valAdd acc (valSum ps))

/-- R45: single-product roundings in reduction order. -/
def stepSplit (acc : Val) (ps : List Val) : Sat Val :=
  ps.foldl (fun a p => let (v, s) := rneAf50 (valAdd a.1 p); (v, a.2 || s)) (acc, false)

/-- R126: FP32 accumulation after every product, saturating. -/
def stepKaolin (acc : Val) (ps : List Val) : Sat Val :=
  ps.foldl (fun a p => let (v, s) := rne32 (valAdd a.1 p); (v, a.2 || s)) (acc, false)

/-- Pad a step's products with +0 to the group width (R45). -/
def padStep (g : Nat) (ps : List Val) : List Val := ps ++ List.replicate (g - ps.length) vZero

/-- The three words of the six-pass split (R42): hi, mid, lo; none for an infinity or NaN. -/
def split3 : Val → Option (Val × Val × Val)
  | .fin x =>
    let hi := rneU 8 x
    let r1 := fxSub x hi
    let mid := rneU 8 r1
    some (.fin hi, .fin mid, .fin (fxSub r1 mid))
  | _ => none

/-- The word (0 hi, 1 mid, 2 lo) that each operand gives in pass `p` of the six (R42). -/
def pass6 : Nat → Nat × Nat
  | 0 => (1, 1) | 1 => (0, 2) | 2 => (2, 0) | 3 => (0, 1) | 4 => (1, 0) | _ => (0, 0)

/-- The product that a pair of FP32 values enters in pass `p` (R42). -/
def prod6 (p : Nat) (a b : Val) : Val :=
  match split3 a, split3 b with
  | some (ah, am, al), some (bh, bm, bl) =>
    let pick (i : Nat) (h m l : Val) : Val := if i = 0 then h else if i = 1 then m else l
    valMul (pick (pass6 p).1 ah am al) (pick (pass6 p).2 bh bm bl)
  | _, _ => if p = 5 then valMul a b else vZero

/-! ### Fixed-order reductions -/

/-- One AF50 addition of values that carry their `SAT` indications. -/
def satAdd (a b : Sat Val) : Sat Val :=
  let r := afAdd a.1 b.1
  (r.1, r.2 || a.2 || b.2)

/-- The reduction of `combine`'s stack while the top two sizes agree (R61). -/
def combinePush (fuel : Nat) (v : Sat Val) (n : Nat) (st : List (Sat Val × Nat)) : List (Sat Val × Nat) :=
  match fuel, st with
  | 0, st => (v, n) :: st
  | _ + 1, [] => [(v, n)]
  | k + 1, (u, m) :: rest => if m = n then combinePush k (satAdd u v) (2 * n) rest else (v, n) :: (u, m) :: rest

/-- `combine` of R61 over the parts in order. -/
def combine (parts : List (Sat Val)) : Sat Val :=
  match parts.foldl (fun st v => combinePush 64 v 1 st) [] with
  | [] => (vZero, false)
  | (v, _) :: rest => rest.foldl (fun a u => satAdd u.1 a) v

/-- Adjacent pairs of one level of the pairwise tree (R117). -/
def pairLevel : List (Sat Val) → List (Sat Val)
  | a :: b :: r => satAdd a b :: pairLevel r
  | l => l

/-- Smallest power of two that is at least `n`. -/
def pow2ceil (n : Nat) : Nat := if n ≤ 1 then 1 else 2 ^ ((n - 1).log2 + 1)

/-- The pairwise tree of R117, padded at the end with +0 to at least `least` values. -/
def pairTree (least : Nat) (vs : List Val) : Sat Val :=
  let n := pow2ceil (max least vs.length)
  let l : List (Sat Val) := vs.map fun v => (v, false)
  let r := (List.range n.log2).foldl (fun l _ => pairLevel l) (l ++ List.replicate (n - vs.length) (vZero, false))
  r.headD (vZero, false)

/-! ### Top-k (R67, R68) -/

/-- `a` ranks strictly above `b` by value: NaN lowest, zeros equal. -/
def valGt : Val → Val → Bool
  | .nan _, _ => false
  | _, .nan _ => true
  | .inf n, .inf m => !n && m
  | .inf n, .fin _ => !n
  | .fin _, .inf m => m
  | .fin a, .fin b => fxLt b a

/-- A top-k entry: the FP32 value and its position. -/
abbrev TopE := Word × Nat

/-- R67: descending value, ties by ascending position. -/
def topBefore (a b : TopE) : Bool :=
  valGt (w32 a.1) (w32 b.1) || (!valGt (w32 b.1) (w32 a.1) && decide (a.2 < b.2))

def topInsert (e : TopE) : List TopE → List TopE
  | [] => [e]
  | x :: r => if topBefore e x then e :: x :: r else x :: topInsert e r

/-- The k largest in the order of R67, padded as R68 says. -/
def topK (k : Nat) (xs : List TopE) : List TopE :=
  let l := (xs.foldl (fun a e => (topInsert e a).take k) []).take k
  l ++ List.replicate (k - l.length) (0xFF800000#32, 0xFFFFFFFF)

end Sys2Proof.Machine
end

