-- ==== Sys2Proof/Machine/State.lean ====
section
/-! DEFINITION. The state of the Joquel J4 as plain data, the state after power-up, faults and refusals.
Objects that exist in numbers (blocks, ports, groups, flag slots, dictionary values) are held in tables:
a number that a table does not list is at the default named beside the field. -/

namespace Sys2Proof.Machine

/-- Bytes at addresses in one canonical form: addresses strictly rising, no byte equal to 0, which is what an
unlisted address reads as (log entry 9). -/
abbrev Memory := List Host.Cell

/-! ### Commands -/

/-- A tile of accumulator values as P64 words, row by row, with its `SAT` bits and its poison marks, one bit of each
for every problem of a packed item (R46, R49, R78, R430). -/
structure TileV where
  vals : List Word64
  sat : Nat
  poison : Nat
  deriving DecidableEq, Repr

/-- An accumulation group: the values of its open segment, and the roundings of that segment and of the whole output
(R58, R61). -/
structure Acc where
  tile : TileV
  rounds : Nat
  total : Nat
  deriving DecidableEq, Repr

/-- A reading pin or a PT_EDIT source pin: number and root snapshot (R217, R220). -/
structure Pin where
  num : Nat
  seq : Nat
  layer : Nat
  epoch : Nat
  pages : Nat
  dir : Nat
  openFrame : Nat
  openUsed : Nat
  openValid : Bool
  kvh : Nat
  headDim : Nat
  deriving DecidableEq, Repr

/-- A page descriptor (Table 07.13) as the walk emitted it. -/
structure PageDesc where
  frameAddr : Nat
  fmt : Nat
  used : Nat
  dropped : Bool
  hole : Bool
  pos0 : Nat
  pageIdx : Nat
  frame : Nat
  /-- the frame lies in no enabled pool (R504) -/
  noPool : Bool
  /-- the open page's header check failed at the walk (R207) -/
  bad : Bool
  deriving DecidableEq, Repr

/-- One walk request: pages `first` to `last` of the command's table, or the listed pages. -/
structure WalkReq where
  uid : Nat
  next : Nat
  last : Nat
  deriving DecidableEq, Repr

/-- Progress of a KV_APPEND or PAGE_RESTORE (R201, R205, R233). -/
structure AppendWork where
  /-- tokens committed, pages promoted or restored -/
  tokens : Nat
  pages : Nat
  /-- frames obtained from the sealed and open pools, and leaf slots (R205) -/
  sealed : List Nat
  opens : List Nat
  leaves : List Nat
  ready : Bool
  /-- a promotion is written and waits for its commit: new frame -/
  promoted : Option Nat
  /-- next page of a restore or of a drop -/
  page : Nat
  deriving DecidableEq, Repr

/-- The edited copy of a page table (R219). -/
structure EditWork where
  started : Bool
  op : Nat
  sources : List Pin
  /-- the root as found, and as edited -/
  old : Nat
  root : Nat
  /-- the edited root comes from a CREATE of this command -/
  created : Bool
  /-- entries of the old table at and above this index are gone -/
  cut : Nat
  /-- edited leaf entries below the edited `PAGES`: page index to entry without its check -/
  entries : List (Nat × Nat)
  /-- frames whose `REFS` the commit raises (with the entry's page) and lowers -/
  raise : List (Nat × Nat)
  lower : List Nat
  /-- open frames to retire -/
  opens : List Nat
  deriving DecidableEq, Repr

/-- Progress of a COLLECTIVE, PERMUTE or routed exchange (R358 to R365). -/
structure CollWork where
  /-- 0 first round, 1 second round or staging barrier, 2 data -/
  round : Nat
  exchanged : Bool
  /-- sends still to be made: (member, source row, destination row, rows, arrival) -/
  sends : List (Nat × Nat × Nat × Nat × Bool)
  /-- bytes expected from and received from each member, in member order -/
  expect : List Nat
  got : List Nat
  /-- first byte each member's part lands at -/
  base : List Nat
  deriving DecidableEq, Repr

/-- An accepted command (R258 to R285), from acceptance until the egress port takes its record. -/
structure Cmd where
  /-- acceptance number before it wraps (R258) -/
  uid : Nat
  desc : Descriptor
  acceptFc : Nat
  dispatchFc : Nat
  /-- commands waited on, resolved at acceptance (R277) -/
  waits : List Nat
  /-- argument lines not yet read; read failed; poisoned (R264, R433) -/
  argWait : List Nat
  argFail : Bool
  argPoison : Bool
  argDone : Bool
  slots : List ArgSlot
  /-- status and `DETAIL` of a failed check: the command is rejected (R261) -/
  reject : Option (Nat × Nat)
  dispatched : Bool
  /-- status and `DETAIL` of an early end (R285) -/
  ending : Option (Nat × Nat)
  decided : Bool
  decidedFc : Nat
  /-- first FC in which its decided waits let it be dispatched (R280); of a dispatched flag command, first FC in which its
  completion may be decided (R306, R309) -/
  readyFc : Nat
  /-- its request's place in the allocator's order of arrival, 0 before it asks (R210) -/
  asked : Nat
  status : Nat
  detail : Nat
  flags : BitVec 16
  countA : Nat
  countB : Nat
  /-- keys of the output units written poisoned, each once, rising (R503) -/
  marked : List Nat
  deadlineOver : Nat
  /-- banks and softmax default latched at acceptance (R114, R160, R247) -/
  biasBank : Nat
  routeBank : Nat
  softmaxDef : Nat
  pin : Option Pin
  /-- the first failed table check has been met (R223, R505) -/
  retried : Bool
  /-- page descriptors emitted, in page order -/
  pages : List PageDesc
  walked : Bool
  /-- work items: split from the command so far, and of how many -/
  itemNext : Nat
  itemTotal : Nat
  /-- completed units, each once: tiles of a matrix product, row blocks of a forward pass, else work items -/
  done : List Nat
  /-- group results waiting for the rest of their reduction or band -/
  partials : List (Nat × TileV)
  held : List (Nat × TileV)
  /-- blocks that placement has fixed: of each row band (R145), of each range of a row (R255), and the regions of each
  key/value head (R168) -/
  bands : List (Nat × Nat)
  /-- work given to each block so far (R171) -/
  loads : List (Nat × Nat)
  /-- writes not yet coherence-acknowledged and link units not yet acknowledged (R299) -/
  writesOut : Nat
  acksOut : Nat
  /-- the condition of an acquire is met; FC in which its invalidation ends, 0 for none (R308, R309) -/
  met : Bool
  invEnd : Nat
  append : Option AppendWork
  edit : Option EditWork
  coll : Option CollWork
  /-- packing of ATTN_CACHED has released it, and it shared a packed range (R181) -/
  packGo : Bool
  packed : Bool
  /-- the packing set it has joined, named by its first member, and that set's timeout (R181) -/
  packSet : Nat
  packT : Nat
  /-- its walk waits on a page marked DROPPED (R183) -/
  stalled : Bool
  deriving DecidableEq, Repr

/-! ### Memory requests -/

/-- On whose behalf a request was made. -/
inductive MemOwner where
  | engine
  /-- a command, with the block whose write queue holds the request, 320 for the apex -/
  | cmd (uid blk : Nat)
  | args (uid : Nat)
  /-- a block's product of a command; `kv` for keys and values, which go through the staging area (R168) -/
  | feed (region block uid : Nat) (kv : Bool)
  /-- a write carried in for a peer node, with its place in the order of arrivals (R306) -/
  | peer (node arr : Nat)
  /-- a Peat ring entry and its number (R231) -/
  | peat (n : Nat)
  deriving DecidableEq, Repr

/-- A JMPP request (Table 16.6). In a read, `wbe` marks the bytes of its line that the engine has written since:
its response holds older ones (R295, R472). -/
structure MemReq where
  write : Bool
  addr : Nat
  wbe : BitVec 128
  data : BitVec 1024
  poison : BitVec 2
  prio : Bool
  owner : MemOwner
  deriving DecidableEq, Repr

/-! ### Blocks and regions -/

/-- An accumulator bank (R63): 0 free, 1 open, 2 closed, 3 draining. -/
structure Bank where
  st : Nat
  uid : Nat
  item : Nat
  /-- which group of the item it is -/
  group : Nat
  /-- where its drain goes: 0 the epilogue, 1 parked as a partial (R100, R165), 2 a `SPLIT_LONG` segment (R61) -/
  way : Nat
  /-- the drain took the bypass to the BVU (R91) -/
  bypass : Bool
  /-- place in the order in which the block closed groups (R89) -/
  order : Nat
  acc : Acc
  /-- what the bank takes up when its segment has drained: state, way and values (R61) -/
  next : Option (Nat × Nat × Acc)
  deriving DecidableEq, Repr

/-- Softmax state of a row: m (none is -∞) and l (R117, R120). -/
structure RowSt where
  m : Option Int
  l : Word64
  /-- Kaolin: m and l as FP32 values (R128) -/
  mF : Val
  lF : Val
  /-- an unmasked score was NaN or +∞ (R124) -/
  bad : Bool
  deriving DecidableEq, Repr

/-- An operand buffer formed by the BVU: values row by row, and poison marks per problem. -/
structure Buf where
  vals : List Val
  poison : Nat
  deriving DecidableEq, Repr

/-- What the BVU has formed from the first products of a tile for its second products: operands (R116, R150), and for
each row the exponent and the factor by which the open output is still to be scaled (R121, R128). -/
structure PBuf where
  tile : Nat
  bufs : List Buf
  scale : List (Int × Val)
  deriving DecidableEq, Repr

/-- A prologue's result in one slot of `PRO_BUF` (R136): of a part of its work item, 0 where it has one part. -/
structure ProRes where
  uid : Nat
  item : Nat
  part : Nat
  bufs : List Buf
  deriving DecidableEq, Repr

/-- A row buffer of the BVU: a head's bias row of 512 FP16 values (R160). -/
structure BiasRow where
  uid : Nat
  head : Nat
  row : Nat
  poison : Bool
  deriving DecidableEq, Repr

/-- A stationary register of the block's cells: the slice it holds, by name, line by line along the reduction axis, each
element beside the scale of its side field, and the places whose parity bit does not match (R72, R86). -/
structure StatReg where
  /-- the held slice: command, item, product and slice, or the operand's own place; empty while it holds none -/
  key : List Nat
  elems : List (Val × Val)
  badParity : List Nat
  deriving DecidableEq, Repr

/-- The work item that the block's array is running. Its first products belong to pairs (a row block of the item and
one of its tiles, as 2^20·row + tile); the second products of a pair follow once the BVU has treated it. -/
structure Job where
  uid : Nat
  item : Nat
  /-- pairs whose first products are not all done, in feed order (R140, R167) -/
  todo : List Nat
  /-- first products of the pair in front that are done -/
  firsts : Nat
  /-- pairs that the BVU has still to treat, in order (R151) -/
  flight : List Nat
  /-- operands of the pairs it has treated, in order -/
  pq : List PBuf
  /-- second products done: of the pair in front; of the item when it has no first products -/
  seconds : Nat
  /-- the product in progress is a second one -/
  second : Bool
  step : Nat
  /-- lines of host memory awaited by the current product (R94) -/
  wait : List Nat
  fetched : Bool
  /-- groups that stay open across products, while no bank holds them: their values of R53, or parked (R100, R165, R166) -/
  outs : List Acc
  /-- groups parked in the drain area, by number -/
  parked : List Nat
  bufs : List Buf
  rows : List RowSt
  /-- rescale mode in force for each row block, by choice or after a guard failure (R119) -/
  rescale : List Bool
  /-- problems that a detector has poisoned in the current product (R72, R423, R426) -/
  hurt : Nat
  deriving DecidableEq, Repr

/-- An epilogue-queue entry: a drained tile awaiting the BVU (Table 01.8). -/
structure Epi where
  uid : Nat
  item : Nat
  group : Nat
  acc : Acc
  deriving DecidableEq, Repr

/-- An arrival-scoreboard entry that is not empty (R152). -/
structure Arrival where
  /-- false arriving, true present -/
  present : Bool
  /-- bytes landed so far and expected -/
  got : Nat
  want : Nat
  poison : Bool
  deriving DecidableEq, Repr

/-- A block (level 1). Default: idle, in service, all banks free. -/
structure Block where
  /-- work items in feed order, as (command, item) (Table 01.8) -/
  feed : List (Nat × Nat)
  job : Option Job
  banks : List Bank
  epi : List Epi
  /-- a drained tile that took the bypass, at the BVU (R91) -/
  bvu : Option Epi
  /-- results of prologues that wait for their item or serve it (R136, R137) -/
  pro : List ProRes
  /-- the two bias-row buffers of the BVU (R160) -/
  bias : List BiasRow
  /-- writes that wait at the BVU until the write queue has room (R25) -/
  stall : List MemReq
  /-- crossbar weight (R17) -/
  weight : Nat
  arrivals : List (Nat × Arrival)
  /-- software half lost and not restored (R444) -/
  spLost : Bool
  retired : Bool
  inReset : Bool
  testing : Bool
  stretching : Bool
  /-- clock gated by a throttle step, a trip or the start-up self-test (R407, R412, R482) -/
  gated : Bool
  /-- held by the ramp governor, and the filler level it keeps meanwhile, in percent (R417) -/
  ramp : Bool
  filler : Nat
  /-- eighths left of a falling ramp and the MC of its last step (R415) -/
  fall : Nat
  fallMc : Nat
  /-- consecutive idle AC (R416) -/
  idleRun : Nat
  /-- the two stationary registers, the one that the current pass tag names, and the tag (R72, R87) -/
  stat : List StatReg
  active : Nat
  passTag : Nat
  /-- pre-ramp filler of a hint, in steps (R419) -/
  preRamp : Nat
  /-- groups closed so far -/
  closes : Nat
  busyAc : Nat
  idleAc : List Nat
  splitSteps : Nat
  /-- Mire watch count, in slots of Clocks (R450) -/
  mire : Nat
  deriving DecidableEq, Repr

/-- A 128-byte line of a read cache with the poison of its two units (R297, R431). -/
structure Line where
  data : BitVec 1024
  poison : BitVec 2
  deriving DecidableEq, Repr

/-- A region (level 2). -/
structure Region where
  walks : List WalkReq
  /-- read-cache lines and fills to be discarded on arrival (R309) -/
  lines : List (Nat × Line)
  discard : List Nat
  /-- lines of the page-staging area (R168) -/
  staged : List (Nat × Line)
  /-- page-table leaves by slot, and loam keys with their scales by frame and head, as read from memory (R226, R228) -/
  leaves : List (Nat × Nat)
  loam : List (Nat × Nat)
  /-- partial-sum reservations: command, item, P64 words (R62) -/
  psum : List (Nat × Nat × Nat)
  /-- segments and ranges in the partial-sum area: command, item, group, and the stack of sums with their sizes (R61) -/
  parts : List (Nat × Nat × Nat × List (TileV × Nat))
  inReset : Bool
  /-- reference-clock times of the last in-service test and scrub, and the block whose test is next (R427, R437) -/
  lastTest : Nat
  lastScrub : Nat
  testNext : Nat
  /-- Mire watch count (R450) -/
  mire : Nat
  deriving DecidableEq, Repr

/-! ### Memory ports -/

/-- An outstanding request: its identifier and the reference-clock time of its issue. -/
structure Outst where
  id : Nat
  req : MemReq
  refAt : Nat
  /-- kept reserved by an apex warm reset: its response is discarded (R473) -/
  drop : Bool
  deriving DecidableEq, Repr

structure MemPort where
  credits : Nat
  /-- region served last (R18) -/
  lastRegion : Nat
  queue : List MemReq
  reads : List Outst
  writes : List Outst
  deriving DecidableEq, Repr

/-! ### Flags -/

/-- A managed flag slot (Table 10.4). Default: value 0, scope 7, source 0. -/
structure Flag where
  value : Nat
  scope : Nat
  src : Nat
  remote : Bool
  /-- FC in which its last update was applied (R306) -/
  setFc : Nat
  deriving DecidableEq, Repr

/-- A received remote release awaiting application (R306). -/
structure RemoteRel where
  port : Nat
  num : Nat
  src : Nat
  slot : Nat
  add : Bool
  val : Nat
  scope : Nat
  /-- its place in the order of arrivals, and the FC of its arrival -/
  arr : Nat
  fc : Nat
  deriving DecidableEq, Repr

/-- A dispatched local release, applied in the FC after that of its dispatch (R306). -/
structure LocalRel where
  uid : Nat
  slot : Nat
  add : Bool
  val : Nat
  scope : Nat
  /-- FC of its dispatch -/
  fc : Nat
  deriving DecidableEq, Repr

/-! ### Management unit -/

/-- A segmented session (R390, R391). -/
structure Session where
  write : Bool
  key : Nat
  next : Nat
  total : Nat
  data : List Byte
  lastMc : Nat
  /-- idle too long: the next segment request is told so -/
  expired : Bool
  deriving DecidableEq, Repr

/-- An accepted RWQ write waiting for a quiescent boundary (R378). -/
structure RwqWrite where
  key : Nat
  value : Nat
  deriving DecidableEq, Repr

/-- A received MCTP message waiting to be served. -/
structure McMsg where
  src : Nat
  tag : Nat
  body : List Byte
  deriving DecidableEq, Repr

structure Mgmt where
  /-- `STATE` (Table 13.3) -/
  st : Nat
  stopPending : Bool
  recovering : Bool
  rwq : List RwqWrite
  ring : Option Session
  mctp : Option Session
  /-- DTP response frames, oldest first, with the transport -/
  replies : List (Transport × List Word)
  /-- abort code of the last dictionary request, 0 when it succeeded -/
  lastAbort : Nat
  /-- MCTP endpoint: id (0 while unset), packets of a message being assembled, messages to serve, packets sent -/
  eid : Nat
  asmSrc : Nat
  asmTag : Nat
  asmSeq : Nat
  asmBody : List Byte
  asmOn : Bool
  inbox : List McMsg
  outbox : List (List Byte)
  /-- SPDM: version agreed, capabilities exchanged, algorithms agreed (R490) -/
  spdm : Nat
  deriving DecidableEq, Repr

/-! ### Links -/

/-- A sequenced flit waiting to be sent, before `SEQ`, credits and encryption are filled in (R321). -/
structure TxFlit where
  ftype : Nat
  vc : Nat
  dclass : Nat
  tail : Bool
  dst : Nat
  src : Nat
  body : BitVec 1920
  /-- number of the forwarding input port, 6 for local traffic -/
  from_ : Nat
  /-- the receive buffer it leaves, as 2·VC + class -/
  inIdx : Nat
  /-- identifier of its packet -/
  pkt : Nat
  deriving DecidableEq, Repr

/-- A sequenced flit as sent, in the retry buffer (R323). -/
structure SentFlit where
  seq : Nat
  tx : TxFlit
  flit : Flit
  deriving DecidableEq, Repr

/-- A packet being received at its destination (R336), or one passing through, whose `kind` is then its class on
the output and whose `addr` its destination node. -/
structure RxPacket where
  kind : Nat
  src : Nat
  addr : Nat
  len : Nat
  got : Nat
  poison : Bool
  pktId : Nat
  /-- output port while the packet is forwarded; 7 at the destination -/
  outPort : Nat
  /-- the rest is discarded (R347) -/
  drop : Bool
  deriving DecidableEq, Repr

/-- One direction's key, salt and counter (R349, R492). -/
structure KeyMat where
  key : BitVec 256
  salt : BitVec 32
  ctr : Nat
  deriving DecidableEq, Repr

structure KeySlot where
  tx : KeyMat
  rx : KeyMat
  deriving DecidableEq, Repr

/-- A link port (R343). Default: DISABLED, empty. -/
structure LinkPort where
  st : Nat
  phyReady : Bool
  txSeq : Nat
  /-- retry buffer: sent flits not covered by a received `ACK_SEQ`, oldest first (R323) -/
  retry : List SentFlit
  /-- flits to send again from the retry buffer -/
  resend : List SentFlit
  /-- the `SEQ` the peer last asked for and how often in a row (R325) -/
  askedSeq : Nat
  askedRun : Nat
  /-- output queue, per virtual channel in order of arrival -/
  txq : List TxFlit
  /-- per virtual channel: the source of the packet being sent (R333) and the last source served (R334) -/
  lock : List (Nat × Nat)
  turn : List (Nat × Nat)
  /-- the last bulk flit was of VC3 -/
  bulk3 : Bool
  /-- credits used per 2·VC + class, and credits to return -/
  used : List (Nat × Nat)
  owed : List (Nat × Nat)
  /-- a retry request to send, and heartbeats due -/
  retryReq : Bool
  hbDue : Bool
  hbNum : Nat
  hbFc : Nat
  hbRef : Nat
  rxSeq : Nat
  rxAny : Bool
  /-- discarding until `rxSeq` arrives; consecutive failures of that number; flit times since the request -/
  refetch : Bool
  fails : Nat
  reqAge : Nat
  packets : List (Nat × RxPacket)
  /-- VC3 flits held in the receive buffer (R153), oldest first -/
  hold : List TxFlit
  /-- training: consecutive good flits, peer's acknowledgement, start time -/
  good : Nat
  acked : Bool
  trainRef : Nat
  slots : List (Nat × KeySlot)
  /-- the last flit sent -/
  sent : Option Flit
  deriving DecidableEq, Repr

/-- A packet, unit or release awaiting its end-to-end acknowledgement (R338, R347). -/
structure E2e where
  pktId : Nat
  uid : Nat
  port : Nat
  refAt : Nat
  deriving DecidableEq, Repr

/-- An acknowledgement to send: destination node, packet, kind (Table 11.6). -/
structure AckOut where
  dst : Nat
  pktId : Nat
  kind : Nat
  deriving DecidableEq, Repr

/-- A collective group (R352). Default: disabled. -/
structure Group where
  st : Nat
  members : List Nat
  rank : Nat
  seqNo : Nat
  lastMember : Nat
  waitFc : Nat
  sync : Nat
  xchg : Nat
  /-- running targets T₁ and T₂ (R358) -/
  t1 : Nat
  t2 : Nat
  deriving DecidableEq, Repr

/-! ### Power -/

/-- A recorded phase hint (R419). -/
structure Hint where
  phase : Nat
  startFc : Nat
  lenFc : Nat
  leadFc : Nat
  /-- pre-ramp steps taken, 0 to 8 -/
  steps : Nat
  deriving DecidableEq, Repr

structure Power where
  /-- cap step, thermal step, thermal trip in force (R410 to R412) -/
  cap : Nat
  therm : Nat
  trip : Bool
  /-- last time the estimate was above 0.95 of the cap, or a change under rule 4; reference clock (R410) -/
  calmRef : Nat
  /-- last time `TEMP_MAX` was above the limit less 3 °C, and of the last thermal change (R411) -/
  coolRef : Nat
  thermRef : Nat
  estimate : Nat
  amps5 : Nat
  /-- energy in nanojoules (W times the 1 µs of each evaluation, times 1000) -/
  energyNj : Nat
  tempMax : Int
  filler : Nat
  /-- Marl: code in force, last code sampled, and how often in a row (R409) -/
  code : Nat
  lastCode : Nat
  codeRun : Nat
  /-- trim, its period's smallest slack floor handling, period start in operating time (R402) -/
  trim : Nat
  trimCheck : Bool
  /-- when that check began (R403) -/
  trimRef : Nat
  periodOp : Nat
  vFuse : Nat
  raiseTh : Nat
  holdTh : Nat
  floorTh : Nat
  /-- `AVS_VID` driven, last acknowledged, request outstanding since, target (R476) -/
  vid : Nat
  vidAck : Nat
  avsReq : Bool
  avsWait : Bool
  avsRef : Nat
  /-- the request's timeout has been counted (R477) -/
  avsLate : Bool
  vidTarget : Nat
  /-- rising ramp: open, opening time in MC, steps admitted (R417) -/
  rampOpen : Bool
  rampMc : Nat
  rampStep : Nat
  rampLevel : Nat
  hint : Option Hint
  deriving DecidableEq, Repr

/-! ### Reliability -/

/-- A report queued at a collector (R434, R435). -/
structure Report where
  code : Nat
  severity : Nat
  unit : Nat
  cell : Nat
  action : Nat
  injected : Bool
  addr : Nat
  tag : Option Nat
  /-- level named by a recovery report, 0 otherwise; entry it follows from, 0 when independent -/
  level : Nat
  dep : Nat
  deriving DecidableEq, Repr

/-- A recovery in progress: level (1 block, 2 region, 3 apex), unit, number of its log entry, whether the units
have been reset, and the batches of blocks still to be re-validated, the first one running (R441 to R448). -/
structure Recovery where
  level : Nat
  unit : Nat
  entry : Nat
  begun : Bool
  batches : List (List Nat)
  deriving DecidableEq, Repr

structure Rel where
  /-- log entries as 512-bit words by number, acknowledged up to `acked` (R451) -/
  log : List (Nat × BitVec 512)
  count : Nat
  acked : Nat
  /-- report queues by collector: 1000·level + unit -/
  queues : List (Nat × List Report)
  /-- armed injection points: code and unit (R454) -/
  armed : List (Nat × Nat × Bool)
  recov : List Recovery
  /-- corrected reports per kind and unit in the current hour of operating time (R452) -/
  corrected : List (Nat × Nat)
  windowOp : Nat
  /-- unit-fault times per block in operating time (R442) -/
  faults : List (Nat × Nat)
  /-- FAULT was entered by `APEX_NO_AUTO`; by a fatal fault (R447) -/
  noAuto : Bool
  fatal : Bool
  /-- parity reports of a cell within the last second: (block·256 + cell, time) -/
  parity : List (Nat × Nat)
  /-- Mire watch count of the apex (R450) -/
  mire : Nat
  deriving DecidableEq, Repr

/-! ### Boundary, boot, security -/

structure Boot where
  pwrGood : Bool
  resetN : Bool
  /-- every clock gated after loss of lock (R461) -/
  dead : Bool
  stage : Nat
  failure : Nat
  /-- a failure of step 1 waits for steps 2 to 4 (R480) -/
  strapBad : Bool
  fallback : Bool
  straps : BitVec 24
  strapDone : Bool
  pll : Bool
  fuseDone : Bool
  fuseBad : Bool
  frames : Bool
  resetRef : Nat
  /-- the 1 MiB image memory of the security unit (R481), and the location in use: 0 primary, 1 secondary -/
  image : List Byte
  location : Nat
  verified : Bool
  /-- self-test batch (R482) -/
  batch : Nat
  present : BitVec 8
  fuseDisable : BitVec 8
  staticCode : Bool
  deriving DecidableEq, Repr

structure Sec where
  lifecycle : Nat
  serial : Nat
  fwKeyHash : Nat
  ownerKeyHash : Nat
  minSvn : Nat
  repair : List (Nat × Nat)
  fwVersion : Nat
  svn : Nat
  meas : List (Nat × List Byte)
  grant : Nat
  grantRef : Nat
  duration : Nat
  unlocks : Nat
  unionGrant : Nat
  nonce : BitVec 384
  attempts : Nat
  failRow : Nat
  holdUntil : Nat
  cert : List Byte
  ownerPub : List Byte
  /-- instruction of the test access port: 0 BYPASS, 1 IDCODE, 2 EXTEST, 3 IEEE 1687 -/
  tapIr : Nat
  tapOut : BitVec 32
  /-- lifecycle and test strap make boundary scan and the instruments available (R479; kept through RESET_N, log entry 12) -/
  tapOk : Bool
  deriving DecidableEq, Repr

/-- The last Marl frame driven: slots A, B, C, T1, D, T2 (R465), and its number. -/
structure Marl where
  num : Nat
  frame : List (BitVec 24)
  /-- each block's busy and idle AC counts when the previous frame was driven -/
  last : List (Nat × List Nat)
  deriving DecidableEq, Repr

structure Clocks where
  /-- nominal apex FC slots of 0.667 ns since power-up; 15 make one reference cycle, 4 one MC -/
  slot : Nat
  /-- apex FC counted since reset: throttled pulses are left out (R7, R406) -/
  fc : Nat
  /-- slots spent in OPERATIONAL or STOPPED (R402) -/
  opSlot : Nat
  deriving DecidableEq, Repr

/-- Front end, scheduler and paged-cache bookkeeping at the apex. -/
structure Front where
  /-- descriptor credits the host chip holds (R383); egress credits the engine holds (R257) -/
  credits : Nat
  egress : Nat
  nextUid : Nat
  cmds : List Cmd
  /-- refusal records, each with the FC of its refusal (R260, R281) -/
  refusals : List (Nat × BitVec 256)
  /-- records sent on the egress port, oldest first -/
  sent : List (BitVec 256)
  /-- stream last dispatched from (R18) -/
  lastStream : Nat
  /-- pending work items: (command, item) (R286) -/
  items : List (Nat × Nat)
  /-- a profile switch is in progress to that profile; dispatch waits (R29) -/
  switching : Option Nat
  /-- bias tables written while a bank that names them was current or latched, as 16·bank + table (R160), and routing
  tables likewise, as 32 + 8·bank + table (R247) -/
  spoiled : List Nat
  deriving DecidableEq, Repr

/-- A dropped page on the Peat list: table, page, number of its drop, whether its request has fallen due (R232), and the
header of the page without its segment ids, with which a restore forms it again (R234). -/
structure Dropped where
  seq : Nat
  layer : Nat
  page : Nat
  num : Nat
  asked : Bool
  head : Nat
  deriving DecidableEq, Repr

structure Paged where
  pinCtr : Nat
  /-- retired objects: (kind 0 frame 1 leaf, number, pin counter) (R222) -/
  retired : List (Nat × Nat × Nat)
  /-- first free frame of each pool, first free leaf slot; FF FFFFh and FFFF FFFF FFFF FFFFh end the stacks -/
  heads : List (Nat × Nat)
  leafHead : Nat
  leafFree : Nat
  free : List (Nat × Nat)
  /-- dropped pages not yet restored or unmapped (R232) -/
  peat : List Dropped
  /-- request entries waiting for a slot of the ring (R232), as 128-bit entries without `PHASE` and CRC -/
  held : List (Nat × Nat × Nat)
  dropNum : Nat
  /-- pools whose dropping has started and not yet reached `HIGH` (R213) -/
  dropping : List Nat
  /-- tables whose root is LIVE, as 256·sequence + layer -/
  live : List Nat
  /-- Peat entries whose write is not yet acknowledged, by number -/
  peatOut : List Nat
  /-- requests that have reached the allocator (R210) -/
  asks : Nat
  deriving DecidableEq, Repr

/-- The machine. -/
structure State where
  /-- commands waiting, first in first out -/
  pending : List Instr
  clocks : Clocks
  boot : Boot
  mgmt : Mgmt
  /-- dictionary values stored as numbers, by 256·index + subindex; absent entries are at their defaults -/
  od : List (Nat × Nat)
  front : Front
  /-- host memory as the engine and its peers have written it or read it, and its poisoned 64-byte units (R431) -/
  mem : Memory
  memPoison : List Nat
  /-- scratchpads: block · 2^20 + address, and poisoned 64-bit words -/
  sp : Memory
  spPoison : List Nat
  ports : List (Nat × MemPort)
  blocks : List (Nat × Block)
  regions : List (Nat × Region)
  flags : List (Nat × Flag)
  /-- releases to apply: local ones in order of dispatch, received ones in order of arrival (R305) -/
  localRels : List LocalRel
  remoteRels : List RemoteRel
  paged : Paged
  links : List (Nat × LinkPort)
  e2e : List E2e
  acks : List AckOut
  nextPkt : Nat
  /-- arrivals from links so far -/
  arrNo : Nat
  groups : List (Nat × Group)
  power : Power
  rel : Rel
  sec : Sec
  marl : Marl
  /-- the MODEL's own field: how many free values have been drawn (log entry 3) -/
  fresh : Nat
  deriving DecidableEq, Repr

/-! ### After reset -/

def Boot.atReset : Boot :=
  { pwrGood := true, resetN := false, dead := false, stage := 0, failure := 0, strapBad := false,
    fallback := false, straps := 0, strapDone := false, pll := false, fuseDone := false, fuseBad := false, frames := false,
    resetRef := 0, image := [], location := 0, verified := false, batch := 0, present := 0,
    fuseDisable := 0, staticCode := false }

def Mgmt.atReset : Mgmt :=
  { st := 0, stopPending := false, recovering := false, rwq := [], ring := none, mctp := none, replies := [],
    lastAbort := 0, eid := 0, asmSrc := 0, asmTag := 0, asmSeq := 0, asmBody := [], asmOn := false, inbox := [],
    outbox := [], spdm := 0 }

def Front.atReset : Front :=
  { credits := 0, egress := 0, nextUid := 1, cmds := [], refusals := [], sent := [], lastStream := 63,
    items := [], switching := none, spoiled := [] }

def Paged.atReset : Paged :=
  { pinCtr := 0, retired := [], heads := [], leafHead := 0xFFFFFFFFFFFFFFFF, leafFree := 0, free := [], peat := [],
    held := [], dropNum := 0, dropping := [], live := [], peatOut := [], asks := 0 }

def Power.atReset : Power :=
  { cap := 0, therm := 0, trip := false, calmRef := 0, coolRef := 0, thermRef := 0, estimate := 0, amps5 := 0,
    energyNj := 0, tempMax := 0, filler := 60, code := 0, lastCode := 0, codeRun := 0, trim := 0,
    trimCheck := false, trimRef := 0, periodOp := 0, vFuse := 0, raiseTh := 0, holdTh := 0, floorTh := 0, vid := 30, vidAck := 30,
    avsReq := false, avsWait := false, avsRef := 0, avsLate := false, vidTarget := 30, rampOpen := false, rampMc := 0, rampStep := 0,
    rampLevel := 0, hint := none }

def Rel.atReset : Rel :=
  { log := [], count := 0, acked := 0, queues := [], armed := [], recov := [], corrected := [], windowOp := 0,
    faults := [], noAuto := false, fatal := false, parity := [], mire := 0 }

def Sec.atReset : Sec :=
  { lifecycle := 0, serial := 0, fwKeyHash := 0, ownerKeyHash := 0, minSvn := 0, repair := [], fwVersion := 0,
    svn := 0, meas := [], grant := 0, grantRef := 0, duration := 0, unlocks := 0, unionGrant := 0, nonce := 0,
    attempts := 0, failRow := 0, holdUntil := 0, cert := [], ownerPub := [], tapIr := 1, tapOut := 0, tapOk := false }

def Marl.atReset : Marl := { num := 0, frame := [], last := [] }

def Clocks.atReset : Clocks := { slot := 0, fc := 0, opSlot := 0 }

/-- The machine with `PWR_GOOD` high and `RESET_N` low (R459): every field at the value the manual gives for
reset or, where it gives none, at the value log entry 1 names. The queue is empty. -/
def State.reset : State :=
  { pending := [], clocks := Clocks.atReset, boot := Boot.atReset, mgmt := Mgmt.atReset, od := [],
    front := Front.atReset, mem := [], memPoison := [], sp := [], spPoison := [], ports := [], blocks := [],
    regions := [], flags := [], localRels := [], remoteRels := [], paged := Paged.atReset, links := [], e2e := [], acks := [],
    nextPkt := 0, arrNo := 0, groups := [], power := Power.atReset, rel := Rel.atReset, sec := Sec.atReset,
    marl := Marl.atReset, fresh := 0 }

/-! ### Stops -/

/-- Faults. No command of the block stops it: errors are reports, poison, statuses and abort codes. -/
inductive Fault where
  /-- raised by nobody; kept so that the type is inhabited (safe) -/
  | none
  deriving DecidableEq, Repr

/-- Refusals. -/
inductive Refusal where
  /-- the command's arm has no meaning yet (safe: nothing is claimed of it) -/
  | notModelled (mnemonic : String)
  deriving DecidableEq, Repr

end Sys2Proof.Machine
end

