-- ==== Sys2Proof/Machine/Ops.lean ====
section
/-! DEFINITION. The named operations over tables, memory, scratchpads, memory ports, units and commands. -/

namespace Sys2Proof.Machine

/-! ### Tables -/

/-- The object of a number, `d` when the table does not list it. -/
def tget {α : Type} (d : α) : List (Nat × α) → Nat → α
  | [], _ => d
  | (k, v) :: r, n => if k = n then v else tget d r n

/-- List an object under its number, numbers rising. -/
def tput {α : Type} (n : Nat) (v : α) : List (Nat × α) → List (Nat × α)
  | [] => [(n, v)]
  | (k, w) :: r => if n = k then (n, v) :: r else if n < k then (n, v) :: (k, w) :: r else (k, w) :: tput n v r

def tdel {α : Type} (n : Nat) (t : List (Nat × α)) : List (Nat × α) := t.filter fun e => e.1 != n

def thas {α : Type} (n : Nat) (t : List (Nat × α)) : Bool := t.any fun e => e.1 == n

/-- Insert into a rising list of numbers. -/
def setIns (n : Nat) : List Nat → List Nat
  | [] => [n]
  | k :: r => if n = k then k :: r else if n < k then n :: k :: r else k :: setIns n r

def setDel (n : Nat) (l : List Nat) : List Nat := l.filter (· != n)

/-! ### Memory in canonical form -/

/-- The byte at an address; an unlisted address reads 0. -/
def memGet (m : Memory) (a : Nat) : Byte := tget 0 m a

/-- Store a byte; storing 0 removes the entry, so that equal memories are equal lists. -/
def memSet (a : Nat) (b : Byte) (m : Memory) : Memory := if b = 0 then tdel a m else tput a b m

/-- Store bytes at consecutive addresses. -/
def memWrite : Nat → List Byte → Memory → Memory
  | _, [], m => m
  | a, b :: r, m => memWrite (a + 1) r (memSet a b m)

def memRead (m : Memory) (a n : Nat) : List Byte := (List.range n).map fun i => memGet m (a + i)

/-- The canonical form: addresses strictly rising, no byte 0. -/
def Memory.wf : Memory → Bool
  | [] => true
  | [(_, b)] => b != 0
  | (a, b) :: (a', b') :: r => decide (a < a') && b != 0 && Memory.wf ((a', b') :: r)

/-! ### Defaults of tabled objects -/

def tile0 : TileV := { vals := [], sat := 0, poison := 0 }

def acc0 : Acc := { tile := tile0, rounds := 0, total := 0 }

def bank0 : Bank :=
  { st := 0, uid := 0, item := 0, group := 0, way := 0, bypass := false, order := 0, acc := acc0, next := none }

def stat0 : StatReg := { key := [], elems := [], badParity := [] }

def block0 : Block :=
  { feed := [], job := none, banks := List.replicate 4 bank0, epi := [], bvu := none, pro := [], bias := [], stall := [], weight := 1, arrivals := [],
    spLost := false, retired := false, inReset := false, testing := false, stretching := false, gated := false,
    ramp := false, filler := 0, fall := 0, fallMc := 0, idleRun := 0, stat := [stat0, stat0], active := 0, passTag := 0, preRamp := 0, closes := 0,
    busyAc := 0, idleAc := List.replicate 13 0, splitSteps := 0, mire := 0 }

def region0 : Region :=
  { walks := [], lines := [], discard := [], staged := [], leaves := [], loam := [], psum := [], parts := [], inReset := false,
    lastTest := 0, lastScrub := 0, testNext := 0, mire := 0 }

def mport0 : MemPort := { credits := 0, lastRegion := 7, queue := [], reads := [], writes := [] }

/-- Reset of a flag slot (Table 10.4). -/
def flag0 : Flag := { value := 0, scope := 7, src := 0, remote := false, setFc := 0 }

def link0 : LinkPort :=
  { st := 0, phyReady := false, txSeq := 0, retry := [], resend := [], askedSeq := 0, askedRun := 0, txq := [], lock := [], turn := [],
    bulk3 := false, used := [], owed := [], retryReq := false, hbDue := false, hbNum := 0, hbFc := 0, hbRef := 0,
    rxSeq := 0, rxAny := false, refetch := false, fails := 0, reqAge := 0, packets := [], hold := [], good := 0,
    acked := false, trainRef := 0, slots := [], sent := none }

def group0 : Group :=
  { st := 0, members := [], rank := 0xFFFF, seqNo := 0, lastMember := 0xFFFF, waitFc := 0, sync := 0, xchg := 0,
    t1 := 0, t2 := 0 }

/-! ### Units -/

def blockAt (s : State) (b : Nat) : Block := tget block0 s.blocks b
def putBlock (b : Nat) (x : Block) (s : State) : State := { s with blocks := tput b x s.blocks }
def modBlock (b : Nat) (f : Block → Block) (s : State) : State := putBlock b (f (blockAt s b)) s
def regionAt (s : State) (r : Nat) : Region := tget region0 s.regions r
def putRegion (r : Nat) (x : Region) (s : State) : State := { s with regions := tput r x s.regions }
def modRegion (r : Nat) (f : Region → Region) (s : State) : State := putRegion r (f (regionAt s r)) s
/-- A progress event clears the count of a Mire watch (R450). -/
def blockProgress (b : Nat) (s : State) : State := modBlock b (fun x => { x with mire := 0 }) s
def regionProgress (r : Nat) (s : State) : State := modRegion r (fun x => { x with mire := 0 }) s
def apexProgress (s : State) : State := { s with rel := { s.rel with mire := 0 } }
def mportAt (s : State) (n : Nat) : MemPort := tget mport0 s.ports n
def putMport (n : Nat) (x : MemPort) (s : State) : State := { s with ports := tput n x s.ports }
def linkAt (s : State) (p : Nat) : LinkPort := tget link0 s.links p
def putLink (p : Nat) (x : LinkPort) (s : State) : State := { s with links := tput p x s.links }
def modLink (p : Nat) (f : LinkPort → LinkPort) (s : State) : State := putLink p (f (linkAt s p)) s
def flagAt (s : State) (i : Nat) : Flag := tget flag0 s.flags i
def putFlag (i : Nat) (x : Flag) (s : State) : State := { s with flags := tput i x s.flags }
def groupAt (s : State) (g : Nat) : Group := tget group0 s.groups g
def putGroup (g : Nat) (x : Group) (s : State) : State := { s with groups := tput g x s.groups }

/-- The block without the queued and running work that `gone` names by command and item: feed and epilogue queues, job,
banks, bypass and prologue results. -/
def blockForget (gone : Nat → Nat → Bool) (x : Block) : Block :=
  { x with
    feed := x.feed.filter fun i => !gone i.1 i.2
    job := if x.job.any (fun j => gone j.uid j.item) then none else x.job
    banks := x.banks.map fun k => if k.st != 0 && gone k.uid k.item then bank0 else k
    epi := x.epi.filter fun e => !gone e.uid e.item
    bvu := x.bvu.filter fun e => !gone e.uid e.item
    pro := x.pro.filter fun p => !gone p.uid p.item }

/-- The region's partial-sum area without the entries of such work (R62, R285). -/
def regionForget (gone : Nat → Nat → Bool) (r : Region) : Region :=
  { r with psum := r.psum.filter (fun e => !gone e.1 e.2.1), parts := r.parts.filter fun e => !gone e.1 e.2.1 }

/-- Reference-clock cycles and management-clock cycles since power-up (R7: 15 and 4 apex FC slots). -/
def refNow (s : State) : Nat := s.clocks.slot / 15
def mcNow (s : State) : Nat := s.clocks.slot / 4
/-- Operating time in reference cycles (R402). -/
def opRef (s : State) : Nat := s.clocks.opSlot / 15

/-- Present regions, ascending (R31, R32). -/
def presentRegions (s : State) : List Nat := (List.range 8).filter fun r => s.boot.present.toNat.testBit r
def regionCount (s : State) : Nat := (presentRegions s).length
def regionPresent (s : State) (r : Nat) : Bool := r < 8 && s.boot.present.toNat.testBit r
def blockPresent (s : State) (b : Nat) : Bool := b < 320 && regionPresent s (b / 40)
/-- Blocks of present regions, ascending. -/
def presentBlocks (s : State) : List Nat := (presentRegions s).flatMap fun r => (List.range 40).map fun i => 40 * r + i

/-- The next free value of the model's counter. -/
def drawn (s : State) : State := { s with fresh := s.fresh + 1 }

/-! ### Host memory (R294, R295, R431) -/

/-- The memory port of a host address (R294). -/
def portOf (a : Nat) : Nat := bits a 7 4 ^^^ bits a 11 4 ^^^ bits a 15 4 ^^^ bits a 19 4

def addr52 (a : Nat) : Nat := a % 2 ^ 52

/-- A byte of host memory; addresses have 52 bits (Table 16.6, log entry 10). -/
def hostByte (s : State) (a : Nat) : Byte := memGet s.mem (addr52 a)
def hostBytes (s : State) (a n : Nat) : List Byte := (List.range n).map fun i => hostByte s (a + i)
def hostNat (s : State) (a n : Nat) : Nat := ofBytes (hostBytes s a n)

/-- Some 64-byte unit of the range is poisoned. -/
def hostPoison (s : State) (a n : Nat) : Bool :=
  n != 0 && s.memPoison.any fun u => addr52 a / 64 ≤ u && u ≤ (addr52 a + n - 1) / 64

/-- Poison marks after a write of `n` bytes at `a` (R431, R472). -/
def poisonWrite (a n : Nat) (bad : Bool) (l : List Nat) : List Nat :=
  if n = 0 then l
  else
    (List.range ((a + n - 1) / 64 - a / 64 + 1)).foldl (fun l i =>
      let u := a / 64 + i
      if bad then setIns u l
      else if a ≤ 64 * u ∧ 64 * u + 64 ≤ a + n then setDel u l else l) l

/-- The requests that carry a write, one per 128-byte line (R470). -/
def lineWrites (a : Nat) (bs : List Byte) (bad : Bool) (o : MemOwner) (prio : Bool) : List MemReq :=
  if bs = [] then []
  else
    (List.range ((a + bs.length - 1) / 128 - a / 128 + 1)).map fun i =>
      let l := a / 128 + i
      let lo := max a (128 * l)
      let hi := min (a + bs.length) (128 * l + 128)
      let part := (bs.drop (lo - a)).take (hi - lo)
      { write := true, addr := 128 * l, wbe := BitVec.ofNat 128 ((2 ^ (hi - lo) - 1) * 2 ^ (lo - 128 * l)),
        data := BitVec.ofNat 1024 (ofBytes part * 2 ^ (8 * (lo - 128 * l))),
        poison := if bad then BitVec.ofNat 2 ((if lo < 128 * l + 64 then 1 else 0) + (if hi > 128 * l + 64 then 2 else 0))
          else 0,
        prio := prio, owner := o }

/-- A read that a later write of the same line overtakes in part. -/
def overtaken (q r : MemReq) : MemReq := if q.write ∧ !r.write ∧ r.addr = q.addr then { r with wbe := r.wbe ||| q.wbe } else r

/-- Hand a request to its port (R294). -/
def enqueue (q : MemReq) (s : State) : State :=
  let n := portOf q.addr
  let p := mportAt s n
  putMport n { p with queue := p.queue.map (overtaken q) ++ [q]
                      reads := p.reads.map fun o => { o with req := overtaken q o.req } } s

/-- Every region's read cache drops the line (R295). -/
def dropLine (l : Nat) (rs : List (Nat × Region)) : List (Nat × Region) :=
  rs.map fun e => (e.1, { e.2 with lines := tdel l e.2.lines, staged := tdel l e.2.staged, discard := e.2.discard })

def dropLines (a n : Nat) (rs : List (Nat × Region)) : List (Nat × Region) :=
  if n = 0 then rs
  else (List.range ((a + n - 1) / 128 - a / 128 + 1)).foldl (fun rs i => dropLine (a / 128 + i) rs) rs

/-- Replace the command with the same number; a command's number and descriptor never change. -/
def putCmd (c : Cmd) (s : State) : State :=
  { s with front := { s.front with cmds := s.front.cmds.map fun x => if x.uid = c.uid then { c with desc := x.desc } else x } }

def cmdOf (s : State) (uid : Nat) : Option Cmd := s.front.cmds.find? fun c => c.uid = uid

def modCmd (uid : Nat) (f : Cmd → Cmd) (s : State) : State :=
  { s with front := { s.front with cmds := s.front.cmds.map fun x => if x.uid = uid then f x else x } }

/-- The bytes of a poisoned output are undefined (R430): free values (log entry 3). -/
def freeBytes (s : State) (n : Nat) : List Byte := (List.range n).map fun i => Config.freeByte (s.fresh * 2 ^ 20 + i)

/-- Writes of a block that no port has taken yet: its write queue (Table 01.8). -/
def writeQueue (s : State) (b : Nat) : Nat :=
  (s.ports.map fun e => (e.2.queue.filter fun q => match q.owner with | .cmd _ k => k == b | _ => false).length).sum

/-- A request goes to its port; of a block whose write queue is full, it waits at the BVU (R25). -/
def present (q : MemReq) (s : State) : State :=
  match q.owner with
  | .cmd _ b =>
    if b < 320 ∧ (!(blockAt s b).stall.isEmpty ∨ writeQueue s b ≥ 64) then modBlock b (fun x => { x with stall := x.stall ++ [q] }) s
    else enqueue q s
  | _ => enqueue q s

/-- Writes that waited at the BVU enter the write queue as it has room. -/
def unstall (b : Nat) (s : State) : State :=
  let n := 64 - writeQueue s b
  let qs := (blockAt s b).stall
  if qs.isEmpty then s
  else (qs.take n).foldl (fun s q => enqueue q s) (modBlock b (fun x => { x with stall := qs.drop n }) s)

/-- A write the engine makes to host memory: the bytes stand, caches drop the lines, and the requests wait at
their ports. A write of a command counts as outstanding until its coherence acknowledgement (R295, R299). -/
def hostWriteAs (a : Nat) (bs : List Byte) (bad : Bool) (o : MemOwner) (prio : Bool) (s : State) : State :=
  let a := addr52 a
  let qs := lineWrites a bs bad o prio
  let s := { s with mem := memWrite a bs s.mem, memPoison := poisonWrite a bs.length bad s.memPoison,
                    regions := dropLines a bs.length s.regions }
  let s := qs.foldl (fun s q => present q s) s
  match o with
  | .cmd uid _ => modCmd uid (fun c => { c with writesOut := c.writesOut + qs.length }) s
  | _ => s

/-- As `hostWriteAs`; the bytes of a poisoned write are undefined. -/
def hostWrite (a : Nat) (bs : List Byte) (bad : Bool) (o : MemOwner) (prio : Bool) (s : State) : State :=
  if bad then hostWriteAs a (freeBytes s bs.length) true o prio (drawn s) else hostWriteAs a bs false o prio s

/-- A 128-byte read request (R470). -/
def lineRead (l : Nat) (o : MemOwner) (prio : Bool) : MemReq :=
  { write := false, addr := 128 * l, wbe := 0, data := 0, poison := 0, prio := prio, owner := o }

/-! ### The region store (R27) -/

/-- MiB of an area of the region store in the profile in effect (Tables 01.9, 01.10): 0 read cache, 2 partial sums,
3 page staging, 4 page-table cache, 5 loam summaries. -/
def storeMiB (profile area : Nat) : Nat :=
  match area, profile with
  | 0, _ => 2
  | 2, 0 => 8
  | 2, 1 => 5
  | 2, _ => 2
  | 3, 0 => 4
  | 3, 1 => 7
  | 3, _ => 10
  | 4, 0 => 2
  | 4, 1 => 3
  | 4, _ => 4
  | _, 0 => 1
  | _, 1 => 2
  | _, _ => 3

/-- An object enters an area that holds `cap` of them: the one that has been there longest leaves (log entry 65). -/
def areaPut {α : Type} (cap n : Nat) (v : α) (l : List (Nat × α)) : List (Nat × α) :=
  let l := tdel n l ++ [(n, v)]
  l.drop (l.length - cap)

/-- The line that a region's read cache or its staging area holds (R168, R297). -/
def cached (s : State) (r l : Nat) : Option Line := ((regionAt s r).lines ++ (regionAt s r).staged).find? (fun e => e.1 = l) |>.map (·.2)

/-- A non-volatile byte: from the region's read cache when it holds the line (R297). -/
def nvByte (s : State) (r a : Nat) : Byte :=
  match cached s r (addr52 a / 128) with
  | some x => BitVec.ofNat 8 (x.data.toNat / 2 ^ (8 * (addr52 a % 128)))
  | none => hostByte s a

def nvBytes (s : State) (r a n : Nat) : List Byte := (List.range n).map fun i => nvByte s r (a + i)
def nvNat (s : State) (r a n : Nat) : Nat := ofBytes (nvBytes s r a n)

/-- The region whose bulk mover carries a transfer: the manual does not say which; a free value (log entry 27). -/
def moverRegion (s : State) : Nat := (presentRegions s).getD (Config.freeNat s.fresh % max 1 (regionCount s)) 0

/-- Poison of a non-volatile range. -/
def nvPoison (s : State) (r a n : Nat) : Bool :=
  (List.range n).any fun i =>
    match cached s r (addr52 (a + i) / 128) with
    | some x => bit x.poison.toNat (addr52 (a + i) % 128 / 64)
    | none => s.memPoison.contains (addr52 (a + i) / 64)

/-! ### Scratchpads (R292, R423) -/

def spKey (b a : Nat) : Nat := b * 2 ^ 20 + a
def spByte (s : State) (b a : Nat) : Byte := memGet s.sp (spKey b a)
def spNat (s : State) (b a n : Nat) : Nat := ofBytes ((List.range n).map fun i => spByte s b (a + i))
def spPoisoned (s : State) (b a n : Nat) : Bool :=
  n != 0 && s.spPoison.any fun w => spKey b a / 8 ≤ w && w ≤ (spKey b a + n - 1) / 8

/-- Poison marks of 64-bit words: a poisoned write marks every word it touches, a clean one clears the words it
fills. -/
def spPoisonWrite (k n : Nat) (bad : Bool) (l : List Nat) : List Nat :=
  if n = 0 then l
  else
    (List.range ((k + n - 1) / 8 - k / 8 + 1)).foldl (fun l i =>
      let u := k / 8 + i
      if bad then setIns u l else if k ≤ 8 * u ∧ 8 * u + 8 ≤ k + n then setDel u l else l) l

def spWrite (b a : Nat) (bs : List Byte) (bad : Bool) (s : State) : State :=
  let s1 := if bad then drawn s else s
  { s1 with sp := memWrite (spKey b a) (if bad then freeBytes s bs.length else bs) s.sp
          , spPoison := spPoisonWrite (spKey b a) bs.length bad s.spPoison }

/-- Free bytes where an undefined value stands in host memory or in a scratchpad; no request is made for them. -/
def spoil (b : Option Nat) (a n : Nat) (s : State) : State :=
  let bs := freeBytes s n
  match b with
  | none => { s with mem := memWrite (addr52 a) bs s.mem, regions := dropLines (addr52 a) n s.regions, fresh := s.fresh + n / 2 ^ 20 + 1 }
  | some b => { s with sp := memWrite (spKey b a) bs s.sp, fresh := s.fresh + n / 2 ^ 20 + 1 }

/-- A whole scratchpad written to zero with good check bits (R441, step 3). -/
def spClear (b : Nat) (s : State) : State :=
  { s with sp := s.sp.filter fun c => c.1 / 2 ^ 20 != b, spPoison := s.spPoison.filter fun w => w / 2 ^ 17 != b }

end Sys2Proof.Machine
end

