-- ==== Sys2Proof/Machine/Dict.lean ====
section
/-! DEFINITION. The object dictionary as a table of rows (Tables 13.9, 13.10 and the tables they extend), its
stored values, and the queues of reports and trace records that many operations feed. -/

namespace Sys2Proof.Machine

/-- A row of the dictionary: `n` subindices from `sub` on. Types and access codes as in Tables 13.1 and 13.2.
`al` is the multiple a value must be of, `gap` the least value above 0 where 0 is allowed apart, `mask` the bits
the entry defines. For DOMAIN and VSTR, `lo` and `hi` are sizes. -/
structure OdRow where
  idx : Nat
  sub : Nat
  n : Nat
  ty : Nat
  acc : Nat
  dflt : Nat
  lo : Nat
  hi : Nat
  al : Nat
  gap : Nat
  mask : Nat
  deriving DecidableEq, Repr

/-- Size in bytes of a type (Table 13.1); 0 for VSTR and DOMAIN. -/
def tySize : Nat → Nat
  | 1 | 2 | 9 => 1
  | 3 | 6 | 10 => 2
  | 4 | 7 | 8 | 11 => 4
  | 5 | 12 => 8
  | _ => 0

def odRow (idx sub n ty acc dflt lo hi : Nat) : OdRow :=
  { idx := idx, sub := sub, n := n, ty := ty, acc := acc, dflt := dflt, lo := lo, hi := hi, al := 1, gap := 0,
    mask := 2 ^ 64 - 1 }

/-- A row whose range is full. -/
def odFull (idx sub n ty acc dflt : Nat) : OdRow := odRow idx sub n ty acc dflt 0 (2 ^ (8 * tySize ty) - 1)
def odRo (idx sub n ty : Nat) : OdRow := odFull idx sub n ty 1 0
def odDom (idx sub n acc lo hi : Nat) : OdRow := odRow idx sub n 14 acc 0 lo hi
def OdRow.aligned (r : OdRow) (al : Nat) : OdRow := { r with al := al }
def OdRow.gapped (r : OdRow) (g : Nat) : OdRow := { r with gap := g }
def OdRow.masked (r : OdRow) (m : Nat) : OdRow := { r with mask := m }

def odRowsA : List OdRow :=
  [odFull 0x1000 0 1 4 0 0x00044A34, odRo 0x1001 0 1 9, odRow 0x1008 0 1 13 0 0 9 9, odRow 0x1009 0 1 13 0 0 2 2,
   odFull 0x1018 1 1 4 0 0x0F4A2C11, odFull 0x1018 2 1 4 0 0x4A34, odFull 0x1018 3 1 4 0 0x00020001,
   odRo 0x1018 4 1 5, odRo 0x1018 5 1 4,
   odRow 0x1F80 1 1 2 1 0 0 4, odRow 0x1F80 2 1 2 4 0 1 3, odRow 0x1F80 3 1 1 1 0 0 1, odRo 0x1F80 4 1 4,
   odRo 0x1F80 5 1 3, odRow 0x1F81 1 1 3 1 0 0 1024, odRo 0x1F81 2 1 4,
   odRow 0x2000 1 1 2 3 1 0 2, odRow 0x2000 2 1 2 1 1 0 2, odRo 0x2000 3 1 4,
   odRo 0x2010 1 3 9, odRow 0x2010 4 1 2 1 0 0 8,
   (odRow 0x2100 1 1 10 2 0x01FF 0 0x1FF).masked 0x1FF, (odRow 0x2100 2 1 10 2 0 0 0x1FF).masked 0x1FF,
   odRow 0x2100 0x10 9 2 1 1 0 2,
   odFull 0x2200 1 1 12 3 (2 ^ 64 - 1), odFull 0x2200 2 1 12 3 0, odRow 0x2200 3 1 3 1 0 0 512, odRo 0x2200 4 2 4,
   odRow 0x2200 6 1 2 3 8 2 16]

def odRowsB : List OdRow :=
  [odRow 0x2300 1 1 1 1 0 0 1, odRow 0x2300 2 1 2 1 0 0 15, odRo 0x2300 3 1 5, odRow 0x2300 4 1 2 1 30 0 40,
   odRo 0x2300 5 1 4,
   (odFull 0x2400 1 1 5 3 0).aligned 4096, odRow 0x2400 2 1 3 1 0 0 512, odRo 0x2400 3 1 4, odRow 0x2400 4 1 3 4 0 0 4095,
   odRo 0x2400 5 1 4, odDom 0x2410 1 1 1 32768 32768,
   odRow 0x3000 1 1 2 2 1 1 2, odRo 0x3000 2 2 4, odRo 0x3000 4 1 5,
   odRow 0x3010 1 1 4 2 3000 0 1500000, odRo 0x3010 2 1 5, odRo 0x3010 3 1 4, odRo 0x3010 4 1 5, odRo 0x3010 5 1 4,
   odRow 0x3100 1 1 2 1 0 0 1, odRow 0x3100 2 1 2 4 0 1 1, odRow 0x3100 3 1 3 1 0 0 512,
   ((odFull 0x3100 0x10 32 5 2 0).aligned 1024).masked (2 ^ 64 - 1 - 7 * 2 ^ 60),
   (odFull 0x3200 1 1 5 3 0).aligned 64, (odFull 0x3200 2 1 5 3 0).aligned 4096, odRow 0x3200 3 1 4 3 0 0 (2 ^ 24),
   odRow 0x3200 4 1 4 1 0 0 (2 ^ 24), (odFull 0x3200 0x10 8 5 3 0).aligned 256,
   ((odRow 0x3200 0x20 8 4 3 0 0 2097152).aligned 256).gapped 1024,
   (odFull 0x3200 0x30 8 5 3 0).masked (2 ^ 49 - 1), odRow 0x3200 0x40 8 4 1 0 0 (2 ^ 24),
   odRow 0x3200 0x50 8 4 1 0 0 (2 ^ 24), odRow 0x3200 0x60 8 4 2 0 0 (2 ^ 24), odRow 0x3200 0x70 8 2 1 0 0 3,
   odRow 0x3210 0x10 8 4 2 0 0 (2 ^ 24), odRow 0x3210 0x20 8 4 2 0 0 (2 ^ 24)]

def odRowsC : List OdRow :=
  [odRow 0x3220 1 1 2 2 0 0 2, (odFull 0x3220 2 1 5 3 0).aligned 64, odRow 0x3220 3 1 2 3 8 8 16, odRo 0x3220 4 1 4,
   odFull 0x3220 5 1 4 2 0, odRo 0x3220 6 2 5, odRo 0x3220 8 1 4,
   odRow 0x3300 1 1 3 3 16384 1 16384, odRow 0x3300 2 1 3 3 256 1 256, (odFull 0x3300 3 1 5 3 0).aligned 4096,
   odRow 0x3300 4 1 3 1 0 0 576, odRo 0x3300 5 2 4, odRow 0x3300 7 1 4 1 0 0 4194304, odRo 0x3300 8 1 4,
   odRow 0x3400 1 1 1 3 0 0 1, odFull 0x3400 2 1 4 0 0x5A3C91E7, odRo 0x3400 3 1 4,
   odRow 0x4000 1 1 3 3 0 0 32767, odRow 0x4000 2 3 3 3 1 1 32768, odRo 0x4000 5 1 5,
   odRow 0x4000 6 1 4 2 4000 400 1000000, odRow 0x4000 7 1 4 2 100000 1000 10000000, odRow 0x4000 8 1 2 2 16 4 64,
   odRow 0x4010 0x10 6 1 3 0 0 1, odRow 0x4010 0x20 6 2 1 0 0 5, odRow 0x4010 0x30 6 2 4 0 1 1,
   odRow 0x4010 0x40 6 1 3 0 0 1, odRow 0x4010 0x50 6 3 1 0 0 32767, odRow 0x4010 0x60 6 2 1 0 0 15,
   odRo 0x4010 0x70 6 4, odRo 0x4010 0x80 6 4, odRo 0x4010 0x90 6 4, odRo 0x4010 0xA0 6 5, odRo 0x4010 0xB0 6 4,
   odRo 0x4010 0xC0 6 4, odRo 0x4010 0xD0 6 4, odRo 0x4010 0xE0 6 5,
   ((odFull 0x4100 0 256 5 3 0).aligned 64).masked (2 ^ 52 - 1), odRow 0x4101 0 256 3 3 0 0 32768,
   odRow 0x4102 0 256 3 3 0 0 4094, (odFull 0x4103 0 256 5 3 0).aligned 64, odFull 0x4104 0 256 3 1 0xFFFF,
   odRow 0x4105 0 256 2 1 0 0 3, odRo 0x4106 0 256 4, odFull 0x4107 0 256 3 1 0xFFFF, odRo 0x4108 0 256 5,
   (odRow 0x4110 1 1 4 3 0 0 0x7FFC0).aligned 64, (odRow 0x4110 2 1 3 3 4352 256 16896).aligned 64,
   odRow 0x4110 3 1 3 3 0 0 256]

def odRowsD : List OdRow :=
  [odRow 0x4200 1 1 2 3 0 0 255, odRow 0x4200 2 1 2 3 1 1 8, odRow 0x4200 3 1 2 3 1 1 128, odRow 0x4200 4 1 3 3 0 0 4095,
   odRow 0x4200 5 1 1 3 0 0 1, odFull 0x4200 0x10 8 3 3 0, odRow 0x4200 0x20 8 3 1 0 0 511,
   odRow 0x4300 1 1 2 1 0 0 1, odRow 0x4300 2 1 2 4 0 1 1, odRow 0x4300 3 1 3 1 0 0 512,
   ((odFull 0x4300 0x10 8 5 2 0).aligned 32).masked (2 ^ 64 - 1 - 7 * 2 ^ 60),
   ((odFull 0x4300 0x20 8 5 2 0).aligned 32).masked (2 ^ 64 - 1 - 7 * 2 ^ 60), odRo 0x4300 0x30 1 5,
   odRow 0x5000 1 1 3 2 880 200 880, odRow 0x5000 2 1 3 1 880 200 880, odRow 0x5000 3 1 3 1 0 0 2000,
   odRow 0x5000 4 1 2 1 0 0 15, odRo 0x5000 5 1 5, odRow 0x5010 1 1 2 2 60 0 90,
   (odRow 0x5010 2 1 10 2 0x00E4 0 0x07FE).masked 0x07FE, odRow 0x5010 3 1 2 1 60 0 90, odRo 0x5010 4 1 5,
   odRow 0x5020 1 1 4 2 4000 500 64000, odRow 0x5020 2 1 3 2 64 8 320, odRow 0x5020 3 1 1 2 1 0 1, odRo 0x5020 4 1 4,
   (odRow 0x5100 1 1 2 1 0 0 60).aligned 5, odRow 0x5100 2 1 3 1 0 760 800, (odRow 0x5100 3 1 2 3 0 0 60).aligned 5,
   odRow 0x5100 4 1 2 2 30 15 60, odRow 0x5100 5 1 3 1 0 650 850, odRo 0x5100 6 1 4, odRo 0x5100 7 1 5,
   odRow 0x5200 1 1 2 1 0 0 15, odRo 0x5200 2 1 4, odRow 0x5200 3 1 2 2 8 0 8, odRow 0x5200 4 1 2 2 95 75 105,
   odRow 0x5200 5 1 6 1 0 0xFEC0 1200, odFull 0x5200 6 1 2 0 110, odRow 0x5200 7 1 9 1 0 0 7]

def odRowsE : List OdRow :=
  [odDom 0x6000 1 1 1 65536 65536, odRo 0x6000 2 1 4, odFull 0x6000 3 1 4 4 0, odRo 0x6000 4 1 4, odRo 0x6000 5 2 5,
   (odFull 0x6100 1 1 4 4 0).masked (2 ^ 18 - 1), odDom 0x6100 2 1 1 32 32, odRo 0x6100 3 1 4,
   (odRow 0x6200 1 1 9 2 0 0 0xFF).masked 7, odDom 0x6200 2 1 1 40 40, odDom 0x6200 3 1 3 40 40,
   odRow 0x6200 4 1 2 2 3 1 16, odDom 0x6200 5 1 1 40 40, odRow 0x6200 6 1 3 4 0 0 319,
   (odRow 0x6200 7 1 4 2 25 0 3600000).gapped 5, odRow 0x6200 8 1 4 2 100 10 10000, odRow 0x6200 9 1 1 2 1 0 1,
   odRow 0x6200 10 1 4 2 20000 1000 10000000, odRo 0x6200 11 4 4,
   odRow 0x6300 1 1 4 2 1000 100 100000, odRow 0x6300 2 1 4 2 10000 1000 1000000,
   odRow 0x6300 3 1 4 2 100000 10000 10000000, odRo 0x6300 4 1 4,
   odRo 0x7000 1 13 5, odRo 0x7100 1 1 5, odDom 0x7110 1 1 1 40960 40960, odRow 0x7200 1 1 1 2 0 0 1,
   (odFull 0x7200 2 1 5 3 0).aligned 4096, ((odRow 0x7200 3 1 4 3 0 0 (2 ^ 31)).aligned 4096).gapped 4096,
   odFull 0x7200 4 1 2 2 0, (odRow 0x7200 5 1 9 2 1 0 3).masked 3, odRo 0x7200 6 1 5, odRo 0x7200 7 1 4,
   odRow 0x8000 1 1 2 1 0 0 3, odRow 0x8100 1 1 2 1 6 1 32, odDom 0x8100 2 1 1 96 96, odDom 0x8100 3 1 2 1 4096,
   odDom 0x8200 0x10 6 5 72 72, odDom 0x8200 0x20 6 5 72 72, odRow 0x8200 0x30 6 2 2 0 0 1, odRow 0x8200 0x40 6 9 1 0 0 3,
   (odRow 0x8200 0x50 6 9 4 0 1 3).masked 3,
   odDom 0x8300 1 1 1 64 64, odDom 0x8300 2 1 4 96 128, odRow 0x8300 3 1 2 1 0 0 1, odDom 0x8300 4 1 2 96 96,
   odRow 0x8300 5 1 2 4 0 1 1, odRow 0x8300 6 1 9 1 0 0 15, odRo 0x8300 7 2 4,
   (odFull 0x9000 1 1 4 2 0).masked (2 ^ 19 - 1), odDom 0x9000 2 1 1 128 128]

/-- Every row of the dictionary (R396). -/
def odRows : List OdRow := odRowsA ++ odRowsB ++ odRowsC ++ odRowsD ++ odRowsE

/-- The row of an entry. -/
def odFind (idx sub : Nat) : Option OdRow :=
  odRows.find? fun r => r.idx == idx && decide (r.sub ≤ sub) && decide (sub < r.sub + r.n)

def odIndexExists (idx : Nat) : Bool := odRows.any fun r => r.idx == idx

/-- Key of an entry in the stored values. -/
def odKey (idx sub : Nat) : Nat := 256 * idx + sub

def odDefault (k : Nat) : Nat :=
  match odFind (k / 256) (k % 256) with
  | some r => r.dflt
  | none => 0

/-- The stored value of an entry: its default while nothing has changed it (R373). -/
def odv (s : State) (idx sub : Nat) : Nat :=
  match s.od.find? (fun e => e.1 = odKey idx sub) with
  | some e => e.2
  | none => odDefault (odKey idx sub)

def odPut (idx sub v : Nat) (s : State) : State := { s with od := tput (odKey idx sub) v s.od }

/-- Raise a counter, wrapping at its type's size (R398). -/
def odBump (idx sub n : Nat) (s : State) : State :=
  let w := match odFind idx sub with
    | some r => 8 * tySize r.ty
    | none => 64
  odPut idx sub ((odv s idx sub + n) % 2 ^ w) s

/-! ### Trace records (R499) -/

/-- The trace unit writes a record of its class while trace is active. -/
def trace (kind cls unit payload : Nat) (s : State) : State :=
  if odv s 0x7200 1 = 1 ∧ odv s 0x7200 3 ≠ 0 ∧ bit (odv s 0x7200 5) cls
      ∧ (cls = 0 ∨ s.sec.lifecycle ≠ 2 ∨ bit s.sec.grant 2) then
    let n := odv s 0x7200 6
    let rec_ := pack [(8, kind), (1, cls), (7, 0), (16, unit), (48, s.clocks.fc), (16, 0), (160, payload)]
    let s := hostWrite (odv s 0x7200 2 + 32 * n % odv s 0x7200 3) (toBytes 32 rec_) false .engine false s
    odBump 0x7200 6 1 s
  else s

/-! ### Reports (R434 to R436) -/

/-- Class, severity, level of the collector and injectability of a report kind (Table 15.4). 100h is the security event
of R495, which Table 15.4 gives no code: it is logged with kind 00h and class 5 (log entry 13). -/
def kindInfo : Nat → Option (Nat × Nat × Nat × Bool)
  | 0x01 => some (1, 1, 1, true) | 0x02 => some (1, 1, 1, true) | 0x03 => some (0, 3, 1, false)
  | 0x04 => some (0, 3, 1, true) | 0x05 => some (0, 3, 1, true) | 0x06 => some (1, 0, 1, true)
  | 0x07 => some (1, 1, 1, true) | 0x08 => some (1, 1, 1, true) | 0x09 => some (0, 3, 1, true)
  | 0x0A => some (0, 3, 1, true) | 0x10 => some (1, 0, 2, true) | 0x11 => some (1, 1, 2, true)
  | 0x12 => some (1, 0, 2, true) | 0x13 => some (1, 0, 2, true) | 0x14 => some (1, 3, 2, false)
  | 0x15 => some (0, 3, 2, true) | 0x16 => some (0, 3, 2, true) | 0x17 => some (1, 1, 2, true)
  | 0x18 => some (4, 5, 2, false) | 0x20 => some (0, 3, 3, true) | 0x21 => some (0, 3, 3, true)
  | 0x22 => some (0, 3, 3, true) | 0x23 => some (3, 2, 3, true) | 0x24 => some (3, 2, 3, true)
  | 0x25 => some (3, 2, 3, false) | 0x26 => some (3, 2, 3, true) | 0x28 => some (1, 1, 3, true)
  | 0x29 => some (1, 1, 3, true) | 0x30 => some (2, 0, 3, true) | 0x31 => some (2, 0, 3, true)
  | 0x32 => some (2, 5, 3, true) | 0x33 => some (5, 5, 3, true) | 0x34 => some (4, 5, 3, false)
  | 0x40 => some (0, 5, 3, false) | 0x41 => some (0, 5, 3, false) | 0x42 => some (0, 5, 1, false)
  | 0x43 => some (0, 4, 3, false) | 0x100 => some (5, 5, 3, false)
  | _ => none

/-- The collector a report of the kind goes to, for the unit it names. -/
def collectorOf (code unit : Nat) : Nat :=
  match kindInfo code with
  | some (_, _, 1, _) => 1000 + unit
  | some (_, _, 2, _) => 2000 + unit
  | _ => 3000

/-- A detector reports: into its collector's queue of 16, a unit fault always (R435). -/
def reportAs (k level dep code unit cell action : Nat) (addr : Nat) (tag : Option Nat) (inj : Bool) (s : State) : State :=
  let q := tget [] s.rel.queues k
  let sev := match kindInfo code with
    | some (_, v, _, _) => v
    | none => 5
  let r : Report := { code := code, severity := sev, unit := unit, cell := cell, action := action, injected := inj,
                      addr := addr, tag := tag, level := level, dep := dep }
  if q.length ≥ 16 ∧ sev ≠ 3 ∧ sev ≠ 4 then odBump 0x6000 4 1 s
  else { s with rel := { s.rel with queues := tput k (q ++ [r]) s.rel.queues } }

/-- A report to the collector of its kind. -/
def report (code unit cell action : Nat) (addr : Nat) (tag : Option Nat) (inj : Bool) (s : State) : State :=
  reportAs (collectorOf code unit) 0 0 code unit cell action addr tag inj s

/-- An armed point fires at the next use of its detector and disarms (R454): whether it was armed, and with two
bits. -/
def fires (code unit : Nat) (s : State) : Option Bool :=
  (s.rel.armed.find? fun a => a.1 == code && a.2.1 == unit).map (·.2.2)

def disarm (code unit : Nat) (s : State) : State :=
  odBump 0x6100 3 1
    { s with rel := { s.rel with armed := s.rel.armed.filter fun a => !(a.1 == code && a.2.1 == unit) } }

/-- A block whose unit fault is detected and not yet recovered is frozen (R435, R441). -/
def blockFrozen (s : State) (b : Nat) : Bool :=
  (blockAt s b).inReset || (blockAt s b).retired || (regionAt s (b / 40)).inReset
  || (tget [] s.rel.queues (1000 + b)).any (fun r => r.severity == 3)
  || s.rel.recov.any (fun r => (r.level == 1 && r.unit == b) || (r.level == 2 && r.unit == b / 40) || r.level == 3)

/-- A region's control cores are frozen (R435, R445). -/
def regionFrozen (s : State) (r : Nat) : Bool :=
  (regionAt s r).inReset || (tget [] s.rel.queues (2000 + r)).any (fun q => q.severity == 3)
  || s.rel.recov.any fun q => (q.level == 2 && q.unit == r) || q.level == 3

/-- The dictionary enters a state (R380); `STATE_CHANGES` counts the changes. -/
def setSt (n : Nat) (s : State) : State :=
  if s.mgmt.st = n then s else odBump 0x1F80 4 1 { s with mgmt := { s.mgmt with st := n } }

end Sys2Proof.Machine
end

