-- ==== Sys2Proof/Machine/Descriptor.lean ====
section
/-! DEFINITION. Descriptor fields (Tables 09.2 to 09.12) and the checks of R261 steps 1 to 4, with the
`DETAIL` of R503: each check lists the bit it reports when it fails, and the lowest listed bit is reported. -/

namespace Sys2Proof.Machine

/-! ### Common fields -/

def dOp (d : Descriptor) : Nat := fld d 0 8
def dTag (d : Descriptor) : Nat := fld d 8 9
def dStream (d : Descriptor) : Nat := fld d 17 6
def dFence (d : Descriptor) : Bool := fld d 23 1 = 1
def dPhase (d : Descriptor) : Nat := fld d 24 3
def dKaolin (d : Descriptor) : Bool := fld d 27 1 = 1
def dSplitLong (d : Descriptor) : Bool := fld d 28 1 = 1
def dStrict (d : Descriptor) : Bool := fld d 29 1 = 1
def dWaitTag (d : Descriptor) (i : Nat) : Nat := fld d (32 + 16 * i) 9
def dWaitValid (d : Descriptor) (i : Nat) : Bool := fld d (32 + 16 * i + 15) 1 = 1
def dUser (d : Descriptor) : Nat := fld d 96 32
def dArgAddr (d : Descriptor) : Nat := fld d 128 52
def dArgSlots (d : Descriptor) : Nat := fld d 180 5
def dDeadline (d : Descriptor) : Nat := fld d 192 32
def dArgCrc (d : Descriptor) : Nat := fld d 224 32

/-- The descriptor's check of bytes 0 to 123 (R259). -/
def dCrcOk (d : Descriptor) : Bool := fld d 992 32 = crc32c (toBytes 124 (bits d.toNat 0 992))

/-- Function class of an opcode: none when unknown, 9 for the control opcodes (Table 09.4). -/
def opClass : Nat → Option Nat
  | 0x01 | 0x02 => some 0
  | 0x10 | 0x11 | 0x12 | 0x13 => some 1
  | 0x18 => some 2
  | 0x20 | 0x21 | 0x22 | 0x23 => some 3
  | 0x30 => some 4
  | 0x31 => some 5
  | 0x32 => some 6
  | 0x40 | 0x41 => some 7
  | 0x50 | 0x51 => some 8
  | 0x60 | 0x61 | 0x62 | 0x70 | 0x7F => some 9
  | _ => none

/-- The fields of the body tables as (low bit, width), in order. -/
def gemmFields : List (Nat × Nat) :=
  [(256, 32), (288, 32), (320, 32), (352, 16), (368, 4), (372, 4), (376, 4), (380, 4), (384, 4), (388, 2), (390, 1),
   (391, 1), (392, 2), (394, 1), (395, 1), (396, 4), (400, 1), (401, 1), (402, 1), (403, 1), (404, 2), (408, 24),
   (432, 12), (444, 12), (480, 32), (512, 32), (544, 20), (564, 20), (584, 32), (616, 32), (648, 32), (680, 32),
   (712, 16), (728, 20)]

def attnCommon : List (Nat × Nat) :=
  [(256, 3), (259, 4), (263, 2), (265, 3), (268, 1), (269, 2), (271, 2), (273, 1), (276, 4), (280, 5), (290, 4),
   (298, 2), (304, 12), (320, 24), (344, 8), (352, 6), (384, 32), (416, 32), (448, 20), (468, 20), (512, 32),
   (576, 16), (592, 8), (640, 20), (660, 20)]

/-- The fields each opcode uses; every other body bit is reserved in it (R259, R269, R271, R273, R274). -/
def usedFields (d : Descriptor) : List (Nat × Nat) :=
  match dOp d with
  | 0x01 => gemmFields
  | 0x02 => gemmFields ++ [(752, 32)]
  | 0x10 => attnCommon ++ [(274, 1), (294, 4), (303, 1), (488, 20), (544, 32)]
  | 0x11 => attnCommon ++ [(275, 1), (294, 4), (303, 1), (488, 20), (544, 32)]
  | 0x12 => attnCommon ++ [(274, 1), (285, 5), (600, 16), (616, 17)]
  | 0x13 => [(256, 3), (276, 4), (320, 24), (344, 8), (372, 7), (416, 32), (512, 32)]
  | 0x18 => [(256, 3), (259, 4), (290, 4), (298, 2), (300, 3), (344, 8), (352, 6), (358, 7), (365, 7), (468, 20),
             (512, 32), (576, 16), (592, 8)]
  | 0x20 => [(256, 16), (272, 8), (280, 17), (297, 20), (350, 1), (351, 4)]
  | 0x21 => [(256, 16), (272, 8), (355, 13)]
  | 0x22 => [(256, 16), (272, 8), (317, 16), (333, 17)]
  | 0x23 => [(256, 16), (272, 8), (317, 16), (333, 17), (350, 1), (351, 4)]
  | 0x30 => [(256, 3), (259, 2), (261, 1), (262, 4), (266, 24), (290, 17), (307, 21), (328, 20), (352, 32), (384, 4)]
  | 0x31 => [(256, 25), (281, 9), (290, 4), (294, 2), (296, 1), (297, 1), (298, 4), (302, 8), (310, 25), (352, 32)]
  | 0x32 => [(256, 25), (281, 32), (313, 7), (320, 2), (322, 1), (323, 1), (352, 32)]
  | 0x40 => [(256, 4), (260, 8), (268, 4)]
  | 0x41 => [(260, 8), (268, 4)]
  | 0x50 => [(256, 40)]
  | 0x51 => [(256, 9), (265, 1), (266, 1), (267, 15), (320, 52), (384, 52), (480, 512)]
  | 0x60 => [(256, 12), (268, 3), (271, 1), (272, 15), (287, 2), (320, 32)]
  | 0x61 => [(256, 12), (268, 3), (287, 2), (320, 32), (352, 32)]
  | 0x62 => [(256, 64)]
  | 0x70 => [(256, 3), (288, 32), (320, 32)]
  | _ => []

/-- The fields that the opcode's body table names for any of its opcodes, where they do not overlap: each is a field of its
own for `DETAIL` (R259, R503). In Tables 09.10 and 09.11 the opcodes' fields overlap, and bits unnamed for the opcode are
one reserved run (DEDUCED). -/
def namedFields (op : Nat) : List (Nat × Nat) :=
  if op = 1 ∨ op = 2 then gemmFields ++ [(752, 32)]
  else if 0x10 ≤ op ∧ op ≤ 0x18 then
    attnCommon ++ [(274, 1), (275, 1), (285, 5), (294, 4), (300, 3), (303, 1), (358, 7), (365, 7), (372, 7), (488, 20), (544, 32),
      (600, 16), (616, 17)]
  else if 0x20 ≤ op ∧ op ≤ 0x23 then
    [(256, 16), (272, 8), (280, 17), (297, 20), (317, 16), (333, 17), (350, 1), (351, 4), (355, 13)]
  else if op = 0x60 ∨ op = 0x61 then [(256, 12), (268, 3), (271, 1), (272, 15), (287, 2), (320, 32), (352, 32)]
  else []

/-- Runs of reserved body bits between named fields, each with its low end (R259). -/
def reservedRuns (from_ : Nat) : List (Nat × Nat) → List (Nat × Nat)
  | [] => if from_ < 992 then [(from_, 992 - from_)] else []
  | (lo, w) :: r => (if from_ < lo then [(from_, lo - from_)] else []) ++ reservedRuns (lo + w) r

/-- Used fields in rising order. -/
def sortFields (l : List (Nat × Nat)) : List (Nat × Nat) := l.foldl (fun t f => tput f.1 f.2 t) []

def failIf (b : Bool) (at_ : Nat) : List Nat := if b then [at_] else []

/-- Steps of an epilogue or prologue list before its first code 0h (R132, R135). -/
def stepCodes : Nat → Nat → List Nat
  | 0, _ => []
  | k + 1, v => if v % 16 = 0 then [] else v % 16 :: stepCodes k (v / 16)

def epiOf (d : Descriptor) (lo : Nat) : List Nat := stepCodes 6 (fld d lo 24)
def proOf (d : Descriptor) (lo : Nat) : List Nat := stepCodes 3 (fld d lo 12)

def hasDup : List Nat → Bool
  | [] => false
  | a :: r => r.contains a || hasDup r

/-- The checks of R132 on a list alone. -/
def epiBad (v : Nat) : Bool :=
  let l := stepCodes 6 v
  let q := l.filter fun c => 7 ≤ c && c ≤ 10
  v / 16 ^ l.length != 0 || l.any (· > 10) || hasDup l || (l.contains 5 && l.contains 6) || decide (q.length > 1)
  || (q.length == 1 && !(l.getLast? == q.head?))

/-- The checks of R135 on a list: reserved, repeated, or not of the allowed codes. -/
def proBad (v : Nat) (allowed : List Nat) : Bool :=
  let l := stepCodes 3 v
  v / 16 ^ l.length != 0 || hasDup l || l.any fun c => !allowed.contains c

/-- R268: does the output format match the list's last step? -/
def outFmtOk (l : List Nat) (f : Nat) : Bool :=
  match l.getLast? with
  | some 7 => f = 3 || f = 4 || f = 5
  | some 8 => f = 6 || f = 7
  | some 9 => 6 ≤ f && f ≤ 9
  | some 10 => f = 0 || f = 1 || f = 2 || f = 8 || f = 9
  | _ => f = 0

/-- Head dimension of a code (Table 06.1). -/
def headDim : Nat → Nat
  | 0 => 32 | 1 => 64 | 2 => 96 | 3 => 128 | 4 => 192 | 5 => 256 | _ => 0

/-- Rate class of an operand format: 0 for 4-bit, 1 for 8-bit, 2 for 16-bit, 3 for FP32 (R41). -/
def fmtClass : Nat → Nat
  | 5 | 7 => 0
  | 3 | 4 | 6 => 1
  | 0 => 3
  | _ => 2

/-- Group width g of Table 02.3: shape 1 S64, 2 S32, 3 S16 and the packed shapes (R77). -/
def groupWidth (cls shape : Nat) : Nat :=
  let g64 := if cls = 0 then 8 else if cls = 1 then 4 else 2
  match shape with
  | 2 => 4 * g64
  | 3 => 16 * g64
  | 6 => 4 * g64
  | _ => g64

/-- A fraction n / d compared with another. -/
def fracLt (a b : Nat × Nat) : Bool := a.1 * b.2 < b.1 * a.2

/-- AUTO of R93: the shape and whether the item runs B-stationary (2), A-stationary (1) or output-stationary (0). -/
def autoShape (m n k64 : Nat) (sparse kaolin : Bool) (stat : Nat) : Nat × Nat :=
  if sparse then (1, 0)
  else if kaolin then (1, 2)
  else
    let cand (shape mode : Nat) : Option (Nat × Nat) :=
      if (stat = 1 ∧ mode ≠ 0) ∨ (stat = 2 ∧ mode ≠ 1) ∨ (stat = 3 ∧ mode ≠ 2) ∨ (mode = 1 ∧ stat ≠ 2) then none
      else if mode = 0 then
        let e := if shape = 1 then 64 else 32
        let dr := if shape = 1 then 16 else 4
        let s4 := if shape = 1 then 4 * k64 else k64
        some (m * n * min s4 (4 * dr), e * ceilDiv m e * (e * ceilDiv n e) * (4 * dr))
      else
        let mm := if mode = 2 then m else n
        let nn := if mode = 2 then n else m
        some (mm * nn * min (min mm 256) 64, 4 * ceilDiv mm 4 * (64 * ceilDiv nn 64) * 64)
    let r := [(1, 0), (2, 0), (3, 2), (3, 1)].foldl (fun (b : Option ((Nat × Nat) × (Nat × Nat))) c =>
      match cand c.1 c.2, b with
      | none, b => b
      | some f, none => some (c, f)
      | some f, some (c0, f0) => if fracLt f0 f then some (c, f) else some (c0, f0)) none
    match r with
    | some (c, _) => c
    | none => (1, 0)

/-! ### GEMM -/

def gM (d : Descriptor) : Nat := fld d 256 32
def gN (d : Descriptor) : Nat := fld d 288 32
def gK (d : Descriptor) : Nat := fld d 320 32
def gBatch (d : Descriptor) : Nat := fld d 352 16 + 1
def gA (d : Descriptor) : Nat := fld d 368 4
def gB (d : Descriptor) : Nat := fld d 372 4
def gD (d : Descriptor) : Nat := fld d 380 4
def gSparse (d : Descriptor) : Nat := fld d 392 2
def gChain (d : Descriptor) : Bool := fld d 394 1 = 1
def gEpi (d : Descriptor) : List Nat := epiOf d 408
def gHidden (d : Descriptor) : Nat := fld d 680 32
def gSplit (d : Descriptor) : Nat := fld d 712 16
/-- Passes of a product: 1, four for complex, six for FP32 (R42, R98). -/
def gPasses (d : Descriptor) : Nat := if dOp d = 1 then 1 else if fld d 404 2 = 0 then 4 else 6
def gClass (d : Descriptor) : Nat := let c := max (fmtClass (gA d)) (fmtClass (gB d)); if c = 3 then 2 else c

/-- Steps per tile in S64 of one pass (R60, R93). -/
def gSteps64 (d : Descriptor) : Nat := ceilDiv (gK d) (groupWidth (gClass d) 1 * (if gSparse d = 0 then 1 else 2))

/-- Shape in force (1 to 6) and stationarity (0 output, 1 A, 2 B) of a product (R79, R80, R84, R93). -/
def gShape (d : Descriptor) : Nat × Nat :=
  if dKaolin d then (1, 2)
  else if fld d 384 4 = 0 then autoShape (gM d) (gN d) (gSteps64 d) (gSparse d != 0) false (fld d 388 2)
  else
    let st := fld d 388 2
    (fld d 384 4, if st = 0 then (if fld d 384 4 = 3 then 2 else 0) else if st = 1 then 0 else st - 1)

def gWidth (d : Descriptor) : Nat := groupWidth (gClass d) (gShape d).1

/-- Nominal steps of one pass in the shape in force (R60). -/
def gSteps (d : Descriptor) : Nat := ceilDiv (gK d) (gWidth d * (if gSparse d = 0 then 1 else 2))

def mxFmt (f : Nat) : Bool := f = 3 || f = 4 || f = 5

/-- Bits of an element of a format code that an operand may have (Table 09.3). -/
def fmtWidth (f : Nat) : Nat := if f = 5 ∨ f = 7 then 4 else if f = 3 ∨ f = 4 ∨ f = 6 then 8 else if f = 0 then 32 else 16

/-- Bytes of `PRO_BUF`: two operand tiles of 4 096 elements for each operand with a prologue (R136). A buffer that runs
past the software half is a failed relation (R90, log entry 71). -/
def gProSize (d : Descriptor) : Nat :=
  let area := fun f steps => if steps = [] then 0 else 2 * 4096 * fmtWidth f / 8
  area (gA d) (proOf d 432) + area (gB d) (proOf d 444)

/-- Step 3 for GEMM and GEMM_MULTIPASS (R40, R41, R79, R80, R84, R110, R125, R132, R135, R146, R150, R267, R268).
A chain of GEMM_MULTIPASS fails (log entry 72). -/
def gemmFaults (d : Descriptor) : List Nat :=
  let multi := dOp d = 2
  let fp32 := multi && fld d 404 2 = 1
  let e := gEpi d
  let n := if gChain d then gHidden d else gN d
  let proA := proOf d 432
  let proB := proOf d 444
  failIf (dKaolin d && (dSplitLong d || gSparse d != 0 || multi || fld d 388 2 = 1 || fld d 388 2 = 2
    || !((gA d = 1 || gA d = 2 || gA d = 6) && (gB d = 1 || gB d = 2 || gB d = 6)))) 27
  ++ failIf (gM d = 0) 256 ++ failIf (gN d = 0) 288 ++ failIf (gK d = 0) 320
  ++ failIf (gChain d && gN d > 128) 288
  ++ failIf (e.contains 3 && n % 128 != 0) 288
  ++ failIf (e.contains 9 && fld d 584 32 < 256 * gN d) 288
  ++ failIf (gK d % 2 = 1 && (proA.contains 2 || proB.contains 2)) 320
  ++ failIf (gA d > 7 || (!fp32 && gA d = 0) || (fp32 && gA d != 0) || (proA != [] && (gA d = 0 || gA d > 4))) 368
  ++ failIf (gB d > 7 || (!fp32 && gB d = 0) || (fp32 && gB d != 0) || (proB != [] && (gB d = 0 || gB d > 4))) 372
  ++ failIf (gSparse d != 0 && (gA d = 0 || gB d = 0)) 368
  ++ failIf (!outFmtOk e (gD d)) 380
  ++ failIf (fld d 384 4 > 6) 384
  ++ failIf (4 ≤ fld d 384 4 && fld d 388 2 ≥ 2) 384
  ++ failIf (gSparse d != 0 && fld d 384 4 > 1) 384
  ++ failIf (gSparse d != 0 && fld d 388 2 ≥ 2) 388
  ++ failIf (gSparse d = 3) 392
  ++ failIf (gChain d && e.any fun c => c > 3) 394
  ++ failIf (gChain d && (gHidden d = 0 || multi)) 394
  ++ failIf (fld d 396 4 > 11) 396
  ++ failIf (fld d 400 1 = 1 && fld d 396 4 < 7) 396
  ++ failIf ((fld d 400 1 = 1) != e.contains 3) 400
  ++ failIf (if multi then fld d 404 2 > 1 else fld d 404 2 != 0) 404
  ++ failIf (epiBad (fld d 408 24)) 408
  ++ failIf (proBad (fld d 432 12) [1, 2, 3, 5]) 432
  ++ failIf (proBad (fld d 444 12) [1, 2, 3, 5]) 444
  ++ failIf (fld d 544 20 ≥ 0x80000) 544
  ++ failIf (fld d 544 20 < 0x80000 && fld d 544 20 + gProSize d > 0x80000) (if proA = [] then 372 else 368)
  ++ failIf (fld d 564 20 ≥ 0x80000 || (e.contains 9 && fld d 402 1 = 0 && fld d 564 20 + fld d 584 32 > 0x80000)) 564

def gemmLimits (d : Descriptor) : List Nat :=
  failIf (gM d > 2 ^ 24) 256 ++ failIf (gN d > 2 ^ 24) 288
  ++ failIf (gK d > 2 ^ 31 || gPasses d * gSteps d > 2 ^ 24) 320 ++ failIf (gSplit d > 4096) 712

/-! ### Attention -/

def aD (d : Descriptor) : Nat := headDim (fld d 256 3)
def aGroup (d : Descriptor) : Nat := fld d 259 4 + 1
def aKvSrc (d : Descriptor) : Nat := fld d 263 2
def aMask (d : Descriptor) : Nat := fld d 265 3
def aPFmt (d : Descriptor) : Nat := fld d 268 1
def aMode (d : Descriptor) : Nat := fld d 269 2
def aDrop (d : Descriptor) : Nat := fld d 271 2
def aRoute (d : Descriptor) : Bool := fld d 273 1 = 1
def aEmit (d : Descriptor) : Bool := fld d 274 1 = 1
def aBias (d : Descriptor) : Nat := fld d 280 5
def aRange (d : Descriptor) : Nat := fld d 285 5
def aQFmt (d : Descriptor) : Nat := fld d 290 4
def aKvFmt (d : Descriptor) : Nat := fld d 294 4
def aBlock (d : Descriptor) : Nat := 64 * 2 ^ fld d 298 2
def aEpi (d : Descriptor) : List Nat := epiOf d 320
/-- Format code of O, dQ, dK and dV: no field names it, so FP32 without a quantising or converting step and
otherwise the code that R268 allows nearest to `Q_FMT` (log entry 23). -/
def aOFmt (d : Descriptor) : Nat :=
  let q := fld d 290 4
  match (epiOf d 320).filter (· ≥ 7) with
  | [] => 0
  | 7 :: _ => if q = 3 ∨ q = 4 ∨ q = 5 then q else 3
  | 8 :: _ => if q = 6 ∨ q = 7 then q else 6
  | _ => if q ≤ 2 then q else if q = 3 then 8 else if q = 4 then 9 else 1
def aQHeads (d : Descriptor) : Nat := fld d 344 8 + 1
def aKvHeads (d : Descriptor) : Nat := fld d 352 6 + 1
def aSigma (d : Descriptor) : Word := BitVec.ofNat 32 (fld d 384 32)
def aWindow (d : Descriptor) : Nat := fld d 448 20
def aQPos0 (d : Descriptor) : Nat := fld d 468 20
def aKPos0 (d : Descriptor) : Nat := fld d 488 20
def aRows (d : Descriptor) : Nat := fld d 512 32
def aKLen (d : Descriptor) : Nat := fld d 544 32
def cSeq (d : Descriptor) : Nat := if fld d 0 8 < 0x20 then fld d 576 16 else fld d 256 16
def cLayer (d : Descriptor) : Nat := if fld d 0 8 < 0x20 then fld d 592 8 else fld d 272 8

/-- Bytes of one key tile of K and V at a key element width in bits (R167, R173). -/
def kvTileBytes (dim bitsPer : Nat) : Nat := 2 * 64 * dim * bitsPer / 8

/-- n_s of R167 for a tile size: the largest power of two at most 8 that fits 128 KiB. -/
def spanTiles (b : Nat) : Nat := if 8 * b ≤ 131072 then 8 else if 4 * b ≤ 131072 then 4 else if 2 * b ≤ 131072 then 2 else 1

/-- Bytes of `PRO_BUF` of an attention command: two operand tiles of 4 096 elements of Q (R136; log entry 71). -/
def aProSize (d : Descriptor) : Nat := if proOf d 304 = [] then 0 else 2 * 4096 * fmtWidth (aQFmt d) / 8

/-- Query tiles of a command; those that read the same keys (R186). -/
def qTiles (d : Descriptor) : Nat := ceilDiv (aRows d) 64
def aSame (d : Descriptor) : Nat := if aRoute d then min (qTiles d) (aBlock d / 64) else qTiles d

/-- n_g of R166, with the row blocks that read one key/value head over the same keys; a request's rows are one row
block (R177). -/
def rowGroup (d : Descriptor) : Nat :=
  if dOp d = 0x12 then 1 else max 1 (min (min 8 (1 + 28 / (2 * ceilDiv (aD d) 64))) (aGroup d * aSame d))

/-- Element width of the keys that a key tile may hold: dense ones in `KV_FMT`; paged ones count 8 bits (log entry 74). -/
def kvWidth (d : Descriptor) : Nat :=
  if aKvSrc d = 0 then fmtWidth (aKvFmt d) else if aKvSrc d = 2 then max 8 (fmtWidth (aKvFmt d)) else 8

/-- n_s of R167. -/
def keySpan (d : Descriptor) : Nat := spanTiles (kvTileBytes (aD d) (kvWidth d))

/-- Size that `WORK_BUF` must have at least (R173). -/
def workBufSize (d : Descriptor) : Nat :=
  2 * keySpan d * kvTileBytes (aD d) (kvWidth d) + rowGroup d * (64 * aD d * fmtWidth (aQFmt d) / 8) + 16384

/-- Step 3 for the five attention opcodes (R110, R114, R125, R132, R135, R156, R157, R158, R172, R173, R262). -/
def attnFaults (d : Descriptor) : List Nat :=
  let op := dOp d
  let pass := op = 0x10 || op = 0x11 || op = 0x12
  let e := aEpi d
  let dense := aKvSrc d != 1
  failIf (dKaolin d && (op = 0x12 || op = 0x13 || op = 0x18 || dSplitLong d || aMode d = 2 || aRoute d
    || !(aQFmt d = 1 || aQFmt d = 2 || aQFmt d = 6)
    || (dense && !(aKvFmt d = 1 || aKvFmt d = 2 || aKvFmt d = 6)))) 27
  ++ failIf (fld d 256 3 > 5) 256
  ++ failIf (op != 0x13 && aQHeads d != aGroup d * aKvHeads d) 259
  ++ (if pass then
    failIf (aKvSrc d = 3 || (op = 0x12 && aKvSrc d != 1)) 263
    ++ failIf (aMode d = 3) 269 ++ failIf (aDrop d = 3) 271
    ++ failIf (aRoute d && aKvSrc d = 0) 263
    ++ failIf (aBias d > 16) 280
    ++ failIf (op != 0x12 && dense && (aKvFmt d = 0 || aKvFmt d > 7)) 294
    ++ failIf (proBad (fld d 304 12) [2]) 304
    ++ failIf (fld d 276 4 > 11) 276
    ++ failIf (bit (aMask d) 1 && aWindow d = 0) 265
    ++ failIf (fld d 640 20 ≥ 0x80000) 640
    ++ failIf (fld d 640 20 < 0x80000 && fld d 640 20 + workBufSize d > 0x80000) 256
    ++ failIf (fld d 660 20 ≥ 0x80000) 660
    ++ failIf (fld d 660 20 < 0x80000 && fld d 660 20 + aProSize d > 0x80000) 256
   else [])
  ++ failIf (op = 0x12 && !(aRange d = 0 || (4 ≤ aRange d && aRange d ≤ 16))) 285
  ++ failIf (op = 0x12 && fld d 616 17 > 65536) 616
  ++ failIf (op != 0x13 && (aQFmt d = 0 || aQFmt d > 7)) 290
  ++ failIf (op != 0x18 && (epiBad (fld d 320 24) || e.contains 3 || e.contains 9)) 320
  ++ failIf (op = 0x11 && e.contains 4) 320
  ++ failIf (op = 0x13 && fld d 276 4 > 11) 276
  ++ failIf (op = 0x18 && fld d 300 3 > 4) 300
  ++ failIf (op = 0x18 && fld d 358 7 = 0) 358
  ++ failIf (op = 0x13 && fld d 372 7 = 0) 372
  ++ failIf (aRows d = 0) 512

/-- Count limits (R157, R177, R178 is checked when N is known). -/
def attnLimits (d : Descriptor) : List Nat :=
  let op := dOp d
  failIf (op != 0x13 && aKvHeads d > 64) 352
  ++ failIf (op = 0x18 && fld d 358 7 > 64) 358 ++ failIf (op = 0x18 && fld d 365 7 > 64) 365
  ++ failIf (op = 0x13 && fld d 372 7 > 64) 372
  ++ failIf (op != 0x13 && aRows d ≤ 2 ^ 20 && aQPos0 d + aRows d > 2 ^ 20) 468
  ++ failIf ((op = 0x10 || op = 0x11) && aKvSrc d != 1 && aKLen d ≤ 2 ^ 20 && aKPos0 d + aKLen d > 2 ^ 20) 488
  ++ failIf (aRows d > 2 ^ 20) 512
  ++ failIf (op = 0x12 && aRows d ≤ 2 ^ 20 && aGroup d * aRows d > 64) 259
  ++ failIf ((op = 0x10 || op = 0x11) && aKLen d > 2 ^ 20) 544

/-! ### Cache, sequence, movement and control -/

/-- N and P of SCAN (Table 08.1). -/
def sN (d : Descriptor) : Nat := 16 * 2 ^ fld d 256 3
def sP (d : Descriptor) : Nat := 32 * 2 ^ fld d 259 2
def sLanes (d : Descriptor) : Nat := fld d 290 17
def sT (d : Descriptor) : Nat := fld d 307 21
/-- Lanes of a lane group (R244). -/
def laneGroup (d : Descriptor) : Nat := max 1 (min 4 (24 / (2 * (ceilDiv (sN d) 64 * ceilDiv (sP d) 64))))
def scanWork (d : Descriptor) : Nat :=
  min (laneGroup d) (max 1 (sLanes d)) * (2 * sN d * sP d + 256 * sN d + 128 * sP d) + 8192

/-- The stage map's layer check (R370). -/
def stageBad (s : State) (layer : Nat) : Bool :=
  odv s 0x4200 5 = 1 && !(List.range (odv s 0x4200 2)).any fun k =>
    let v := odv s 0x4200 (0x10 + k)
    v % 256 ≤ layer && layer ≤ v / 256

def seqFaults (d : Descriptor) : List Nat :=
  match dOp d with
  | 0x20 | 0x23 =>
    failIf (fld d 351 4 != 0 && fld d 351 4 != 2) 351 ++ failIf (dOp d = 0x20 && fld d 280 17 = 0) 280
    ++ failIf (dOp d = 0x23 && fld d 333 17 = 0) 333
  | 0x21 => failIf (fld d 355 13 = 0) 355
  | 0x22 => failIf (fld d 333 17 = 0) 333
  | 0x30 =>
    let e := epiOf d 266
    failIf (dSplitLong d) 28 ++ failIf (fld d 256 3 > 4) 256 ++ failIf (fld d 262 4 > 11) 262
    ++ failIf (epiBad (fld d 266 24) || e.contains 3 || e.contains 9) 266
    ++ failIf (!outFmtOk e (fld d 384 4)) 266
    ++ failIf (sLanes d = 0) 290 ++ failIf (sT d = 0) 307
    ++ failIf (fld d 328 20 ≥ 0x80000) 328
    ++ failIf (fld d 328 20 < 0x80000 && fld d 328 20 + scanWork d > 0x80000) 256
  | 0x31 =>
    failIf (fld d 256 25 = 0) 256 ++ failIf (fld d 281 9 = 0) 281 ++ failIf (fld d 290 4 = 0) 290
    ++ failIf (fld d 294 2 = 3) 294 ++ failIf (fld d 298 4 > 8) 298 ++ failIf (fld d 310 25 > 2 ^ 24) 310
  | 0x32 =>
    failIf (fld d 256 25 = 0) 256 ++ failIf (fld d 281 32 = 0) 281 ++ failIf (fld d 313 7 = 0) 313
    ++ failIf (fld d 320 2 = 3) 320 ++ failIf (fld d 352 32 = 0xFFFFFFFF) 352
  | 0x40 =>
    failIf (fld d 256 4 > 3) 256
    ++ failIf ((fld d 256 4 = 1 && fld d 268 4 != 10) || (fld d 256 4 = 3 && fld d 268 4 != 0)) 256
    ++ failIf (fld d 268 4 > 10) 268
  | 0x41 => failIf (fld d 268 4 > 10) 268
  | 0x50 => failIf (fld d 256 40 = 0) 256
  | 0x51 =>
    failIf (fld d 256 9 = 0) 256 ++ failIf (fld d 265 1 = 1 && fld d 256 9 > 64) 256
    ++ failIf (fld d 265 1 = 1 && fld d 384 52 != 0) 384
  | 0x60 => failIf (fld d 268 3 > 4) 268 ++ failIf (fld d 287 2 > 1) 287
  | 0x61 => failIf (fld d 268 3 > 4) 268 ++ failIf (fld d 271 1 = 1) 271 ++ failIf (fld d 287 2 > 1) 287
  | _ => []

def seqLimits (d : Descriptor) : List Nat :=
  match dOp d with
  | 0x20 => failIf (fld d 280 17 > 65536) 280
  | 0x21 => failIf (fld d 355 13 > 4096) 355
  | 0x22 => failIf (fld d 333 17 > 65536) 333
  | 0x23 => failIf (fld d 333 17 > 64) 333
  | 0x30 =>
    failIf (sN d * sP d > 16384) 256 ++ failIf (sLanes d > 65536) 290 ++ failIf (sT d > 2 ^ 20) 307
  | 0x31 =>
    failIf (fld d 256 25 > 2 ^ 24) 256 ++ failIf (fld d 281 9 > 256) 281
    ++ failIf (fld d 290 4 ≤ 8 && fld d 290 4 > fld d 281 9) 281 ++ failIf (fld d 290 4 > 8) 290
  | 0x32 => failIf (fld d 256 25 > 2 ^ 24) 256 ++ failIf (fld d 281 32 > 2 ^ 31) 281 ++ failIf (fld d 313 7 > 64) 313
  | 0x51 => failIf (fld d 256 9 > 256) 256
  | _ => []

/-- Slots an opcode needs at least, as the control opcodes and those without slots must name none (Table 09.6). -/
def noSlots (op : Nat) : Bool := op = 0x22 || op = 0x51 || op ≥ 0x60

/-- Step 3: every failing bit of the common fields and the body, and the relations to the state that a chapter
applies before work starts (R161, R236, R248, R353, R370). -/
def stepThree (s : State) (biasBank routeBank : Nat) (d : Descriptor) : List Nat :=
  let op := dOp d
  let cacheOp := op = 0x12 || op = 0x18 || (0x20 ≤ op && op ≤ 0x23) || ((op = 0x10 || op = 0x11) && aKvSrc d != 0)
  let seqAt := if op < 0x20 then 576 else 256
  let layerAt := if op < 0x20 then 592 else 272
  failIf (dKaolin d && !(op = 1 || op = 0x10 || op = 0x11)) 27
  ++ failIf (fld d 30 2 != 0) 30
  ++ ((List.range 4).flatMap fun i =>
    failIf (dWaitValid d i && dWaitTag d i = dTag d) (32 + 16 * i) ++ failIf (fld d (41 + 16 * i) 6 != 0) (41 + 16 * i))
  ++ failIf (if dArgSlots d = 0 then dArgAddr d != 0 else dArgAddr d % 64 != 0) 128
  ++ failIf (dArgSlots d > 16 || (noSlots op && dArgSlots d != 0)) 180
  ++ failIf (fld d 185 7 != 0) 185
  ++ failIf (dDeadline d != 0 && !(op = 0x10 || op = 0x11 || op = 0x12 || op = 0x18)) 192
  ++ failIf (dArgSlots d = 0 && dArgCrc d != 0) 224
  ++ ((reservedRuns 256 (sortFields (usedFields d ++ namedFields op))
      ++ (namedFields op).filter fun f => !(usedFields d).contains f).flatMap fun f => failIf (fld d f.1 f.2 != 0) f.1)
  ++ (if op = 1 ∨ op = 2 then gemmFaults d else if 0x10 ≤ op ∧ op ≤ 0x18 then attnFaults d else seqFaults d)
  ++ (if (op = 0x10 ∨ op = 0x11 ∨ op = 0x12) ∧ 1 ≤ aBias d ∧ aBias d ≤ 16 then
      let v := odv s 0x3100 (0x10 + 16 * biasBank + (aBias d - 1))
      failIf (!bit v 63 || bits v 52 8 + 1 < aQHeads d) 280
     else [])
  ++ (if op = 0x31 then
      (if 1 ≤ fld d 298 4 ∧ fld d 298 4 ≤ 8 then
        let v := odv s 0x4300 (0x10 + 16 * routeBank + (fld d 298 4 - 1))
        failIf (!bit v 63) 298 ++ failIf (bit v 63 && bits v 52 8 + 1 < fld d 281 9) 281
       else [])
      ++ failIf ((groupAt s (fld d 302 8)).st != 1 && (groupAt s (fld d 302 8)).st != 2) 302
     else [])
  ++ (if op = 0x40 ∨ op = 0x41 then
      failIf ((groupAt s (fld d 260 8)).st != 1 && (groupAt s (fld d 260 8)).st != 2) 260
     else [])
  ++ (if cacheOp then
      failIf (cSeq d ≥ odv s 0x3300 1) seqAt ++ failIf (cLayer d ≥ odv s 0x3300 2 || stageBad s (cLayer d)) layerAt
     else [])

/-- Step 4: count limits. -/
def stepFour (d : Descriptor) : List Nat :=
  let op := dOp d
  if op = 1 ∨ op = 2 then gemmLimits d else if 0x10 ≤ op ∧ op ≤ 0x18 then attnLimits d else seqLimits d

def least (l : List Nat) : Option Nat := l.foldl (fun m n => some (match m with | none => n | some k => min k n)) none

/-- The front-end checks of R261 in order: status and `DETAIL` of the first failure. -/
def frontCheck (s : State) (biasBank routeBank : Nat) (d : Descriptor) : Option (Nat × Nat) :=
  match opClass (dOp d) with
  | none => some (0x0100, 0)
  | some c =>
    if s.mgmt.st = 3 ∨ s.mgmt.st = 4 ∨ s.mgmt.stopPending ∨ (c < 9 ∧ !bit (odv s 0x2100 1) c)
      ∨ (dKaolin d ∧ (dOp d = 1 ∨ dOp d = 0x10 ∨ dOp d = 0x11) ∧ odv s 0x3400 1 = 0) then some (0x0101, 0xFFFF)
    else
      match least (stepThree s biasBank routeBank d), least (stepFour d) with
      | some b, _ => some (0x0100, b)
      | none, some b => some (0x0102, b)
      | none, none => none

end Sys2Proof.Machine
end

