-- ==== Sys2Proof/Machine/Operands.lean ====
section
/-! DEFINITION. Operand forms: argument slots (Table 09.5), where an element of a stored tensor lies, and
its value with the scale that governs it (R35 to R40). Row layout, scale arrays and metadata: log entry 20. -/

namespace Sys2Proof.Machine

/-! ### Argument slots (Table 09.5) -/

def slAddr (x : ArgSlot) : Nat := fld x 0 52
def slLoc (x : ArgSlot) : Nat := fld x 52 2
def slStride (x : ArgSlot) : Nat := fld x 64 32
def slScale (x : ArgSlot) : Nat := fld x 96 32

/-- R265: `ADDR` 0 with `LOC` 00b is absent. -/
def slAbsent (x : ArgSlot) : Bool := slAddr x = 0 && slLoc x = 0

/-- Slot `i` of a command; one at or beyond `ARG_SLOTS` is absent. -/
def cSlot (c : Cmd) (i : Nat) : ArgSlot := c.slots.getD i 0

def hasSlot (c : Cmd) (i : Nat) : Bool := !slAbsent (cSlot c i)

/-! ### Format codes (Table 09.3) -/

def fmtOf : Nat → Fmt
  | 0 => .fp32 | 1 => .bf16 | 2 => .fp16 | 3 => .e4m3 | 4 => .e5m2 | 5 => .e2m1 | 6 => .int8 | 7 => .int4
  | 8 => .e4m3 | 9 => .e5m2 | _ => .p64

/-- Bytes of `n` elements of a format code. -/
def rowBytes (f n : Nat) : Nat := ceilDiv (n * fmtBits (fmtOf f)) 8

/-- Bytes between rows: `STRIDE`, or packed (R265). -/
def strideOf (x : ArgSlot) (packed : Nat) : Nat := if slStride x = 0 then packed else slStride x

/-- First byte of the tensor: its address, or its arrival landing area (R367). -/
def slBase (s : State) (x : ArgSlot) : Nat :=
  if slLoc x = 2 then odv s 0x4110 1 + slAddr x % 256 * odv s 0x4110 2 else slAddr x

/-- Little-endian number of `n` bytes at offset `off` of a slot, as block `b` reads it (R297, R501). -/
def slNat (s : State) (b : Nat) (x : ArgSlot) (off n : Nat) : Nat :=
  if slLoc x = 0 then nvNat s (b / 40) (slAddr x + off) n else spNat s b (slBase s x + off) n

def slPoison (s : State) (b : Nat) (x : ArgSlot) (off n : Nat) : Bool :=
  if slLoc x = 0 then nvPoison s (b / 40) (slAddr x + off) n else spPoisoned s b (slBase s x + off) n

/-! ### Stored matrices -/

/-- A stored matrix: rows of `cols` elements at the slot's stride. `im` shifts every address (complex products). -/
def elemOff (x : ArgSlot) (f cols im r k : Nat) : Nat :=
  im + r * strideOf x (rowBytes f cols) + k * fmtBits (fmtOf f) / 8

/-- Element (r, k), its scale apart; a P64 word that R52 calls poisoned reads as NaN. -/
def elemAt (s : State) (b : Nat) (x : ArgSlot) (f cols im r k : Nat) : Val :=
  let w := fmtBits (fmtOf f)
  let n := slNat s b x (elemOff x f cols im r k) (max 1 (w / 8))
  decode (fmtOf f) (if w = 4 then (if k % 2 = 0 then n % 16 else n / 16) else n)

/-- Byte of a 4-bit matrix whose rows 2r and 2r + 1 share bytes, the even row low (R35). -/
def pairOff (x : ArgSlot) (cols im r k : Nat) : Nat := im + r * strideOf x cols + k

/-- The 4-bit element in the half of a byte that the parity of its reduction index names (R35). -/
def nibbleAt (s : State) (b : Nat) (x : ArgSlot) (f off k : Nat) : Val :=
  let n := slNat s b x off 1
  decode (fmtOf f) (if k % 2 = 0 then n % 16 else n / 16)

/-- Bytes of one scale: E8M0 for MX codes, FP16 for INT codes. -/
def scaleBytes (f : Nat) : Nat := if mxFmt f then 1 else 2

/-- Scale `i` of the tensor's scale array; 1 for an unscaled tensor (R39). -/
def scaleAt (s : State) (b : Nat) (x : ArgSlot) (f im i : Nat) : Val :=
  if mxFmt f then e8m0 (slNat s b x (slScale x + im + i) 1)
  else if (f = 6 ∨ f = 7) ∧ slScale x ≠ 0 then fp16Scale (slNat s b x (slScale x + im + 2 * i) 2)
  else vOne

/-- Is scale `i` of the tensor's scale array poisoned? -/
def scalePoison (s : State) (b : Nat) (x : ArgSlot) (f im i : Nat) : Bool :=
  (mxFmt f || ((f = 6 || f = 7) && slScale x != 0)) && slPoison s b x (slScale x + im + i * scaleBytes f) (scaleBytes f)

/-- End of a matrix's bytes relative to its address. -/
def matEnd (x : ArgSlot) (f rows cols : Nat) : Nat :=
  if rows = 0 then 0 else (rows - 1) * strideOf x (rowBytes f cols) + rowBytes f cols

/-- As `matEnd`, of an operand whose reduction index counts `rows` rows of each of `n` problems: 4-bit rows share bytes in
pairs (R35). -/
def tallEnd (x : ArgSlot) (f n rows cols : Nat) : Nat :=
  if f = 5 ∨ f = 7 then (let r := n * ceilDiv rows 2; if r = 0 then 0 else (r - 1) * strideOf x cols + cols) else matEnd x f (n * rows) cols

/-- End of a packed array of scales. -/
def scaleEnd (x : ArgSlot) (f n : Nat) : Nat :=
  if mxFmt f ∨ ((f = 6 ∨ f = 7) ∧ slScale x ≠ 0) then slScale x + n * scaleBytes f else 0

/-! ### The argument block's checks (R264 to R266, R501, R506) -/

/-- Slots of Table 09.6 as (slot, used, required when used), with the conditions of Table 09.19. -/
def slotUse (d : Descriptor) : List (Nat × Bool × Bool) :=
  let op := dOp d
  let kv := aKvSrc d != 1
  let seg := bit (aMask d) 2
  match op with
  | 0x01 | 0x02 =>
    let e := gEpi d
    let p := proOf d 432 ++ proOf d 444
    [(0, true, true), (1, true, true), (2, true, false), (3, true, true), (4, e.contains 1, false),
     (5, e.contains 4, true), (6, e.contains 5 || e.contains 6, true), (7, p.contains 3, true),
     (8, p.contains 3, false), (9, p.contains 3, false), (10, p.contains 2, true),
     (11, e.contains 9 && fld d 402 1 = 1, true), (12, e.contains 9, true), (13, gChain d, true), (14, gSparse d != 0, true)]
  | 0x10 =>
    [(0, true, true), (1, kv, true), (2, kv, true), (3, true, true), (4, !aEmit d, false), (5, seg, true),
     (6, seg && kv, true), (7, (proOf d 304).contains 2, true), (8, aRoute d, true),
     (10, (aEpi d).contains 1, false), (11, (aEpi d).contains 4, true)]
  | 0x11 =>
    [(0, true, true), (1, kv, true), (2, kv, true), (3, true, true), (4, true, true), (5, seg, true),
     (6, seg && kv, true), (7, (proOf d 304).contains 2, true), (8, aRoute d, true), (9, true, true), (10, true, true),
     (11, true, true), (12, kv, true), (13, kv, true)]
  | 0x12 =>
    [(0, true, true), (3, true, true), (4, !aEmit d, false), (5, seg, true), (7, (proOf d 304).contains 2, true),
     (8, aRoute d, true), (10, (aEpi d).contains 1, false), (11, (aEpi d).contains 4, true)]
  | 0x13 =>
    [(0, true, true), (3, true, true), (4, true, false), (10, (aEpi d).contains 1, false), (11, (aEpi d).contains 4, true)]
  | 0x18 => [(0, true, true), (8, true, true)]
  | 0x20 | 0x23 => [(0, true, true), (1, true, true), (2, true, false), (3, fld d 351 4 = 2, true)]
  | 0x21 => [(0, true, true)]
  | 0x30 =>
    [(0, true, true), (1, true, true), (2, true, true), (3, true, true), (4, true, false), (5, true, false),
     (6, true, false), (7, true, true), (8, (epiOf d 266).contains 1, false)]
  | 0x31 => [(0, true, true), (1, true, true), (2, true, true), (3, true, true), (4, true, true), (5, true, true), (6, true, false)]
  | 0x32 => [(0, true, true), (1, true, false), (2, true, true), (3, true, true)]
  | 0x40 => [(0, true, true), (1, true, true), (2, true, true), (3, fld d 256 4 = 2, false)]
  | 0x41 | 0x50 => [(0, true, true), (1, true, true)]
  | _ => []

/-- Slots that may name the scratchpad (Table 09.18) and an arrival entry (R265). -/
def spSlots (op : Nat) : List Nat :=
  match op with
  | 0x01 | 0x02 => [0, 1, 2, 3, 4, 5, 6, 7, 8, 9, 10, 12, 13, 14]
  | 0x10 | 0x12 => [7, 10, 11]
  | 0x11 => [7]
  | 0x13 => [10, 11]
  | 0x30 => [8]
  | 0x50 => [1]
  | _ => []

def arrSlots (op : Nat) : List Nat :=
  match op with
  | 0x01 | 0x02 => [0, 1, 13]
  | 0x10 | 0x11 => [0, 1, 2]
  | _ => []

/-- Format code that an operand or output slot holds, where it can be an MX code (R262). -/
def slotFmt (d : Descriptor) (i : Nat) : Option Nat :=
  match dOp d, i with
  | 0x01, 0 | 0x02, 0 => some (gA d)
  | 0x01, 1 | 0x02, 1 | 0x01, 13 | 0x02, 13 => some (gB d)
  | 0x01, 3 | 0x02, 3 => some (gD d)
  | 0x10, 0 | 0x11, 0 | 0x12, 0 | 0x18, 0 | 0x11, 9 => some (aQFmt d)
  | 0x10, 1 | 0x10, 2 | 0x11, 1 | 0x11, 2 => some (aKvFmt d)
  | 0x10, 3 | 0x12, 3 => if aEmit d then none else some (aOFmt d)
  | 0x13, 3 | 0x11, 3 | 0x11, 11 | 0x11, 12 | 0x11, 13 => some (aOFmt d)
  | 0x30, 7 => some (fld d 384 4)
  | 0x40, 0 | 0x40, 1 | 0x41, 0 => some (fld d 268 4)
  | _, _ => none

/-- Output columns of a GEMM before and after a `GATE` step. -/
def gCols (d : Descriptor) : Nat := if (gEpi d).contains 3 ∧ !gChain d then gN d / 2 else gN d

/-- Columns of the `RESID` tensor: all n before a `GATE` step (R133). -/
def gResCols (d : Descriptor) : Nat :=
  if ((gEpi d).takeWhile (· != 3)).contains 4 then gN d else gCols d

/-- Hidden width after a `GATE` step of a chain (R150). -/
def gHid2 (d : Descriptor) : Nat := if (gEpi d).contains 3 then gHidden d / 2 else gHidden d

/-- Kept values along the reduction axis of a sparse operand of logical length k (R40). -/
def keptLen (k : Nat) : Nat := 2 * ceilDiv k 4

/-- End of `n` records of `u` bytes at the slot's stride. -/
def strEnd (x : ArgSlot) (u n : Nat) : Nat := if n = 0 then 0 else (n - 1) * strideOf x u + u

/-- Rotary row bytes (R502). -/
def rotEnd (x : ArgSlot) (pos w : Nat) : Nat := pos * (if slStride x = 0 then 8 * w else slStride x)

/-- End, relative to its address, of what slot `i` names, where the scratchpad may be named (R501). -/
def slotEnd (d : Descriptor) (i : Nat) (x : ArgSlot) : Nat :=
  let op := dOp d
  let bt := gBatch d
  let n1 := if gChain d then gHidden d else gN d
  let im := if op = 2 ∧ fld d 404 2 = 0 then fld d 752 32 else 0
  match op, i with
  | 0x01, i | 0x02, i =>
    let ka := if gSparse d = 1 then keptLen (gK d) else gK d
    let kb := if gSparse d = 2 then keptLen (gK d) else gK d
    match i with
    | 0 =>
      im + max (if fld d 390 1 = 1 then tallEnd x (gA d) bt ka (gM d) else matEnd x (gA d) (bt * gM d) ka) (scaleEnd x (gA d) (bt * gM d * ceilDiv (gK d) 32))
    | 1 =>
      im + max (if fld d 391 1 = 1 then matEnd x (gB d) (bt * n1) kb else tallEnd x (gB d) bt kb n1) (scaleEnd x (gB d) (bt * n1 * ceilDiv (gK d) 32))
    | 2 => im + matEnd x (fld d 376 4) (bt * gM d) (gN d)
    | 3 =>
      im + max (matEnd x (gD d) (bt * gM d) (gCols d))
        (scaleEnd x (gD d) (if (gEpi d).contains 9 then 0
          else if fld d 401 1 = 0 then bt * gM d * ceilDiv (gCols d) 32 else bt * ceilDiv (gM d) 32 * gCols d))
    | 4 => 4 * n1
    | 5 => matEnd x (if gD d ≤ 2 then gD d else 0) (bt * gM d) (gResCols d)
    | 6 => strEnd x 16 (bt * gM d)
    | 7 => strEnd x 16 (bt * max (if (proOf d 432).contains 3 then gM d else 0) (if (proOf d 444).contains 3 then n1 else 0))
    | 8 | 9 => 4 * gK d
    | 10 => rotEnd x (fld d 728 20 + max (gM d) n1) (gK d / 2)
    | 12 => strEnd x 4 (bt * gM d)
    | 13 => max (tallEnd x (gB d) bt (gHid2 d) (gN d)) (scaleEnd x (gB d) (bt * gN d * ceilDiv (gHid2 d) 32))
    | 14 =>
      let g := bt * ceilDiv (gK d) 4
      let tall := if gSparse d = 1 then fld d 390 1 = 1 else fld d 391 1 = 0
      let w := if gSparse d = 1 then gM d else n1
      if tall then matEnd x 7 g w else matEnd x 7 (bt * w) (ceilDiv (gK d) 4)
    | _ => 0
  | 0x50, _ => fld d 256 40
  | 0x30, _ => 4 * sP d
  | _, 7 => rotEnd x (aQPos0 d + aRows d) (aD d / 2)
  | _, 10 => 4 * aD d
  | _, 11 => matEnd x (if aOFmt d ≤ 2 then aOFmt d else 0) (aRows d) (aQHeads d * aD d)
  | _, _ => 0

/-- Every failing `DETAIL` of the slots (R503). -/
def slotFaults (s : State) (d : Descriptor) (slots : List ArgSlot) : List Nat :=
  let op := dOp d
  (List.range 16).flatMap fun i =>
    let x := slots.getD i 0
    let at_ := 0x400 + 128 * i
    match (slotUse d).find? (fun u => u.1 = i) with
    | none => failIf (!slAbsent x) at_ ++ failIf (fld x 54 10 != 0) (at_ + 54)
    | some (_, used, req) =>
      if !used then failIf (!slAbsent x) at_
      else if slAbsent x then failIf req at_ ++ failIf (fld x 54 10 != 0) (at_ + 54)
      else
        failIf (slLoc x = 1 && slBase s x + slotEnd d i x > 0x80000) at_
        ++ failIf (slLoc x = 2 && slAddr x % 256 ≥ odv s 0x4110 3) at_
        ++ failIf (slLoc x = 3 || (slLoc x = 1 && !(spSlots op).contains i) || (slLoc x = 2 && !(arrSlots op).contains i)) (at_ + 52)
        ++ failIf (fld x 54 10 != 0) (at_ + 54)
        ++ failIf (((op = 0x40 || op = 0x41) && i = 0 && (slStride x = 0 || slStride x % 16 != 0
            || (fld d 256 4 = 3 && op = 0x40 && !(([32, 64, 96, 128, 192, 256].any fun dd => slStride x = 16 + 8 * dd)))))
            || (op = 0x40 && i = 1 && slStride x != 0 && slStride x != slStride (slots.getD 0 0))) (at_ + 64)
        ++ (match slotFmt d i with
            | some f => failIf (mxFmt f && slScale x = 0) (at_ + 96)
            | none => [])
        ++ failIf (dKaolin d && (match slotFmt d i with | some 6 => (i < 3 || i = 9 || i = 13) && slScale x != 0 | _ => false)) (at_ + 96)

/-- Slot faults, and the descriptor fields that a present slot brings into play. -/
def argFaults (s : State) (d : Descriptor) (slots : List ArgSlot) : List Nat :=
  let op := dOp d
  let c := fld d 376 4
  failIf ((op = 1 || op = 2) && !slAbsent (slots.getD 2 0) && !(c = 0 || c = 1 || c = 2 || c = 10)) 376
  ++ slotFaults s d slots

/-! ### Tables that software must leave alone (R160, R247) -/

/-- Bias and routing tables of the banks that are current or latched: number, first byte, length. -/
def liveTables (s : State) : List (Nat × Nat × Nat) :=
  let held := fun (p : Cmd → Bool) => s.front.cmds.any fun c => !c.decided && p c
  (List.range 2).flatMap fun k =>
    (if odv s 0x3100 1 = k || held (fun c => (dOp c.desc = 0x10 || dOp c.desc = 0x11 || dOp c.desc = 0x12) && c.biasBank == k) then
      (List.range 16).filterMap fun t =>
        let v := odv s 0x3100 (0x10 + 16 * k + t)
        if bit v 63 then some (16 * k + t, v % 2 ^ 52, 1024 * (bits v 52 8 + 1)) else none
     else [])
    ++ (if odv s 0x4300 1 = k || held (fun c => dOp c.desc = 0x31 && c.routeBank == k) then
      (List.range 8).filterMap fun t =>
        let v := odv s 0x4300 (0x10 + 16 * k + t)
        if bit v 63 then some (32 + 8 * k + t, v % 2 ^ 52, 32 * (bits v 52 8 + 1)) else none
     else [])

/-- A write by a command or a peer into such a table: what is read of it is undefined until its descriptor is written anew. -/
def noteTables (a n : Nat) (s : State) : State :=
  let hit := (liveTables s).filter fun t => decide (t.2.1 < addr52 a + n) && decide (addr52 a < t.2.1 + t.2.2)
  if n = 0 ∨ hit = [] then s
  else { s with front := { s.front with spoiled := hit.foldl (fun l t => setIns t.1 l) s.front.spoiled } }

/-- A table's descriptor is written. -/
def renewTable (idx sub : Nat) (s : State) : State :=
  let k := (sub - 0x10) / 16
  let t := (sub - 0x10) % 16
  if sub < 0x10 then s
  else { s with front := { s.front with spoiled := setDel (if idx = 0x3100 then 16 * k + t else 32 + 8 * k + t) s.front.spoiled } }

end Sys2Proof.Machine
end

