-- ==== Sys2Proof/Machine/Front.lean ====
section
/-! DEFINITION. The command ports (chapter 09): acceptance, refusal, the argument block, early ends, records. -/

namespace Sys2Proof.Machine

/-- What a meaning answers. -/
abbrev Out := Host.Outcome State Fault Refusal

/-- The event's effect when its enabling condition holds; otherwise the event is no event and nothing changes
(log entry 11). No command reaches the queue: it stands as it was. -/
@[inline] def event (ok : Bool) (s t : State) : Out := .next (if ok then { t with pending := s.pending } else s)

/-- The engine's logic runs: power good, out of reset, root clock locked (R457 to R464). -/
def live (s : State) : Bool := s.boot.pwrGood && s.boot.resetN && !s.boot.dead && s.boot.pll

/-- The region's control cores work. -/
def regionRuns (s : State) (r : Nat) : Bool := live s && regionPresent s r && !regionFrozen s r

/-- The allocator region works (R210, R445). -/
def allocRuns (s : State) : Bool := regionRuns s ((presentRegions s).headD 0)

/-- The command is still to act, or acting. -/
def acting (c : Cmd) : Bool := !c.decided && c.ending.isNone && c.reject.isNone

/-- The command in flight that holds a tag (R277, R280). -/
def byTag (s : State) (tag : Nat) : Option Cmd := s.front.cmds.find? fun c => dTag c.desc = tag

/-! ### Status (Table 09.16) -/

/-- Precedence of a status (Table 09.16). -/
def statusPrec : Nat → Nat
  | 0x0103 | 0x0104 => 1
  | 0x0101 => 2
  | 0x0100 | 0x0105 => 3
  | 0x0102 => 4
  | 0x0401 => 5
  | 0x0402 => 6
  | 0x0400 => 7
  | 0x0500 => 8
  | 0x0501 => 9
  | 0x0301 => 10
  | 0x0201 => 11
  | 0x0200 => 12
  | 0x0403 => 13
  | 0x0300 => 15
  | 0x0001 => 16
  | _ => 17

def stDescInvalid : Nat := 0x0100
def stFuncDisabled : Nat := 0x0101
def stLimit : Nat := 0x0102
def stArgInvalid : Nat := 0x0105
def stPageDropped : Nat := 0x0200
def stPtTorn : Nat := 0x0201
def stMemFault : Nat := 0x0301
def stAborted : Nat := 0x0400
def stDepFailed : Nat := 0x0401
def stResetAbort : Nat := 0x0402
def stTimeout : Nat := 0x0403
def stLinkLost : Nat := 0x0500
def stPeerFailed : Nat := 0x0501

/-- The status the command's waiters take as success (R278). -/
def statusOk (v : Nat) : Bool := v = 0 || v = 1 || v = 0x0300

/-- `DETAIL` when no field is named (R503). -/
def noDetail : Nat := 0xFFFF

/-! ### Records (R282, Table 09.14) -/

/-- A record with its check. -/
def record (fields : List (Nat × Nat)) : BitVec 256 :=
  let v := pack fields
  BitVec.ofNat 256 (v + crc16 (toBytes 30 v) * 2 ^ 240)

/-- The record of a refusal: the descriptor's bits as received, every other field zero (R260). -/
def refusalRecord (d : Descriptor) (status : Nat) : BitVec 256 :=
  record [(9, dTag d), (6, dStream d), (1, 1), (8, dOp d), (8, 0), (16, status), (16, 0), (32, dUser d)]

/-- The record of a decided command. -/
def cmdRecord (c : Cmd) : BitVec 256 :=
  record [(9, dTag c.desc), (6, dStream c.desc), (1, 0), (8, dOp c.desc), (8, 0), (16, c.status), (16, c.flags.toNat),
    (32, dUser c.desc), (32, satN 32 c.countA), (32, satN 32 c.countB), (16, satN 16 c.marked.length),
    (16, satN 16 c.deadlineOver), (32, satN 32 (c.decidedFc - c.acceptFc)), (16, c.detail)]

/-! ### Ingress (R256 to R261, R277, R281, R383) -/

/-- R383, R281: credits granted until the host chip holds `INGRESS_CREDITS`; none while the refusal entries are
full. -/
def topUp (s : State) : State :=
  if s.mgmt.st ≥ 2 ∧ s.front.refusals.length < 16 then
    { s with front := { s.front with credits := max s.front.credits (odv s 0x2200 6) } }
  else s

/-- R260: a refused descriptor leaves a record, and a `DESC_CRC` refusal a report. -/
def refuse (d : Descriptor) (status : Nat) (inj : Bool) (s : State) : State :=
  let s := odBump 0x2200 5 1 { s with front := { s.front with refusals := s.front.refusals ++ [(s.clocks.fc, refusalRecord d status)] } }
  let s := if status = 0x0103 then report 0x23 0 0 0 0 none inj s else s
  topUp s

/-- The commands that hold the waited tags in flight at acceptance (R277). -/
def waited (s : State) (d : Descriptor) : List Cmd :=
  (List.range 4).filterMap fun i => if dWaitValid d i then byTag s (dWaitTag d i) else none

/-- A command just accepted, before its checks. -/
def newCmd (s : State) (d : Descriptor) : Cmd :=
  { uid := s.front.nextUid, desc := d, acceptFc := s.clocks.fc, dispatchFc := 0,
    waits := (waited s d).filterMap fun c => if c.decided then none else some c.uid,
    argWait := [], argFail := false, argPoison := false, argDone := false, slots := [], reject := none,
    dispatched := false, ending := none, decided := false, decidedFc := 0
    readyFc := if (waited s d).any (fun c => c.decided && c.decidedFc == s.clocks.fc) then s.clocks.fc + 1 else 0
    asked := 0, status := 0, detail := noDetail, flags := 0,
    countA := 0, countB := 0, marked := [], deadlineOver := 0, biasBank := odv s 0x3100 1,
    routeBank := odv s 0x4300 1, softmaxDef := odv s 0x3000 1, pin := none, retried := false, pages := [],
    walked := false, itemNext := 0, itemTotal := 0, done := [], partials := [], held := [], bands := [], loads := [],
    writesOut := 0, acksOut := 0, met := false, invEnd := 0, append := none, edit := none, coll := none,
    packGo := false, packed := false, packSet := 0, packT := 0, stalled := false }

/-- A later check's failure counts when no earlier status has a lower or equal precedence number (R261, R284). -/
def addReject (c : Cmd) (r : Nat × Nat) : Cmd :=
  match c.reject with
  | some (v, _) => if statusPrec r.1 < statusPrec v then { c with reject := some r } else c
  | none => { c with reject := some r }

/-- Check the slots of a command whose block is read, or which has none (R264, R266, R506). -/
def checkArgs (s : State) (c : Cmd) : Cmd :=
  let c := { c with argDone := true }
  match least (argFaults s c.desc c.slots) with
  | some b => addReject c (stDescInvalid, b)
  | none => c

/-- The command is rejected with a status that nothing in its argument block can change (R284). -/
def rejectedEarly (c : Cmd) : Bool :=
  match c.reject with
  | some (v, _) => decide (statusPrec v ≤ 3)
  | none => false

/-- R258, R261, R264: the command is accepted, whatever its checks say, and its argument block is read once. -/
def accept (d : Descriptor) (s : State) : State :=
  let c := newCmd s d
  let c := { c with reject := frontCheck s c.biasBank c.routeBank d }
  -- a waited command that has completed without success, its record not yet sent (R278)
  let c := if dStrict d && (waited s d).any (fun x => x.decided && !statusOk x.status) then addReject c (stDepFailed, noDetail) else c
  let n := dArgSlots d
  let lines := if n = 0 then [] else
    (List.range ((dArgAddr d + 16 * n - 1) / 128 - dArgAddr d / 128 + 1)).map fun i => dArgAddr d / 128 + i
  let c := if n = 0 then checkArgs s c else { c with argWait := lines }
  let s := { s with front := { s.front with cmds := s.front.cmds ++ [c], nextUid := s.front.nextUid + 1 } }
  let s := lines.foldl (fun s l => enqueue (lineRead (l % 2 ^ 45) (.args c.uid) false) s) s
  let s := trace 1 0 0 (pack [(9, dTag d), (6, dStream d), (8, dOp d), (32, c.uid)]) s
  topUp s

/-- R256: beats without a credit are ignored and logged. -/
def ingressError (s : State) : State := report 0x25 0 0 0 0 none false s

/-- A descriptor on the command ingress port. -/
def submit (d : Descriptor) (s : State) : State :=
  if s.front.credits = 0 then ingressError s
  else
    let s := { s with front := { s.front with credits := s.front.credits - 1 } }
    let inj := fires 0x23 0 s
    let s := if inj.isSome then disarm 0x23 0 s else s
    if !dCrcOk d || inj.isSome then refuse d 0x0103 inj.isSome s
    else if (byTag s (dTag d)).isSome then refuse d 0x0104 false s
    else accept d s

/-! ### Early ends (R285) -/

/-- Nothing of the command remains in schedulers, walkers, blocks, partial-sum areas, end-to-end lists or the flag unit. -/
def purge (uid : Nat) (s : State) : State :=
  let mine := fun u (_ : Nat) => u == uid
  { s with
    front := { s.front with items := s.front.items.filter (fun i => i.1 != uid) }
    blocks := s.blocks.map fun e => (e.1, blockForget mine e.2)
    regions := s.regions.map fun e => (e.1, regionForget mine { e.2 with walks := e.2.walks.filter fun w => w.uid != uid })
    e2e := s.e2e.filter fun x => x.uid != uid
    localRels := s.localRels.filter fun x => x.uid != uid }

/-- Arrival entries that a command with `ARR_RELEASE` names return to empty in every block (R153, R285). -/
def releaseArrivals (c : Cmd) (s : State) : State :=
  if (dOp c.desc = 1 ∨ dOp c.desc = 2) ∧ fld c.desc 403 1 = 1 ∨ (dOp c.desc = 0x10 ∨ dOp c.desc = 0x11) ∧ fld c.desc 303 1 = 1 then
    let es := (c.slots.filter fun x => slLoc x = 2).map fun x => slAddr x % 256
    { s with blocks := s.blocks.map fun e => (e.1, { e.2 with arrivals := e.2.arrivals.filter fun a => !es.contains a.1 }) }
  else s

/-- End a command early: the first end stands, a rejected command keeps the status of its rejection, whose
precedence number is lower (R284); its pins, reservations and work go (R285). -/
def endCmd (uid status detail : Nat) (s : State) : State :=
  match cmdOf s uid with
  | none => s
  | some c =>
    if c.decided || c.ending.isSome then s
    else
      let c' := { c with ending := some (c.reject.getD (status, detail)), pin := none, acksOut := 0, pages := [] }
      purge uid (releaseArrivals c (putCmd c' s))

/-- Raise a completion flag (Table 09.15). -/
def flagCmd (uid i : Nat) (s : State) : State :=
  modCmd uid (fun c => { c with flags := c.flags ||| BitVec.ofNat 16 (2 ^ i) }) s

/-! ### Egress (R257, R280, R281) -/

/-- The decided command whose record goes next: decision order, ascending tag within one FC. -/
def nextRecord (s : State) : Option Cmd :=
  s.front.cmds.foldl (fun b c =>
    if !c.decided then b
    else
      match b with
      | none => some c
      | some x =>
        if c.decidedFc < x.decidedFc || (c.decidedFc == x.decidedFc && dTag c.desc < dTag x.desc) then some c else b) none

/-- R280, R281: the next record is that of the earlier decision or refusal, of the lower tag within one FC. -/
def refusalNext (s : State) : Option (Nat × BitVec 256) :=
  match s.front.refusals.head?, nextRecord s with
  | some r, some c =>
    if r.1 < c.decidedFc || (r.1 == c.decidedFc && bits r.2.toNat 0 9 < dTag c.desc) then some r else none
  | r, _ => r

/-- R281: one record leaves, and its place is free. -/
def sendRecord (s : State) : State :=
  let f := s.front
  match refusalNext s, nextRecord s with
  | some r, _ => topUp { s with front := { f with refusals := f.refusals.tail, sent := f.sent ++ [r.2], egress := f.egress - 1 } }
  | none, some c =>
    { s with front := { f with cmds := f.cmds.filter (fun x => x.uid != c.uid), sent := f.sent ++ [cmdRecord c],
                               egress := f.egress - 1 } }
  | none, none => s

def recordWaiting (s : State) : Bool := !s.front.refusals.isEmpty || (nextRecord s).isSome

/-! ### The rows -/

/-- R256: a descriptor started without a credit. -/
def execIngressProtocolError (s : State) : Out := event (live s) s (ingressError s)

/-- R264: the argument block has been read; its check and the slots are examined. A failed check raises `POISON_SEEN`
(R283). -/
def argBlockDone (c : Cmd) (s : State) : State :=
  let n := dArgSlots c.desc
  let bs := hostBytes s (dArgAddr c.desc) (16 * n)
  let slots := (List.range n).map fun i => BitVec.ofNat 128 (ofBytes ((bs.drop (16 * i)).take 16))
  let inj := fires 0x24 0 s
  let s := if inj.isSome then disarm 0x24 0 s else s
  let c := { c with slots := slots, argDone := true }
  let seen : Cmd := { c with flags := c.flags ||| 8 }
  if c.argFail || c.argPoison then
    putCmd (addReject seen (stArgInvalid, 128)) (report 0x24 0 0 0 (dArgAddr c.desc) (some (dTag c.desc)) false s)
  else if crc32c bs ≠ dArgCrc c.desc ∨ inj.isSome then
    putCmd (addReject seen (stArgInvalid, 224)) (report 0x24 0 0 0 (dArgAddr c.desc) (some (dTag c.desc)) inj.isSome s)
  else putCmd (checkArgs s c) s

def execArgBlockReadDone (tag : Nat) (s : State) : Out :=
  match byTag s tag with
  | some c => event (live s && !c.argDone && c.argWait.isEmpty && c.ending.isNone && !c.decided) s (argBlockDone c s)
  | none => .next s

/-- R257: one record leaves on the egress port. -/
def execCompletionRecordSend (s : State) : Out :=
  event (live s && decide (s.front.egress > 0) && recordWaiting s) s (apexProgress (sendRecord s))

/-- R257: the host chip returns one egress credit. -/
def execCplCredit (s : State) : Out :=
  event (live s) s { s with front := { s.front with egress := s.front.egress + 1 } }

/-! ### Deadlines (R194, R195) -/

/-- A paced command with a deadline. -/
def paced (s : State) (c : Cmd) : Bool := bit (odv s 0x2200 2) (dStream c.desc) && dDeadline c.desc != 0

def deadlineAt (c : Cmd) : Nat := c.acceptFc + dDeadline c.desc

/-- R195: a page or line staged for a command that has missed its deadline: by how many FC staging overran so far. -/
def stagedNow (uid : Nat) (s : State) : State :=
  modCmd uid (fun c => if bit c.flags.toNat 4 then { c with deadlineOver := satN 16 (s.clocks.fc - deadlineAt c) } else c) s

end Sys2Proof.Machine
end

