-- ==== Sys2Proof/Machine/Power.lean ====
section
/-! DEFINITION. Power, droop and thermal control (chapter 14): steps, caps, the filler, the ramp governor,
hints, the voltage trim and its request. -/

namespace Sys2Proof.Machine

/-! ### Steps (R406 to R409) -/

/-- The Marl cap of a code (R409). -/
def marlCap (code : Nat) : Nat := 880 - 40 * code
/-- `CAP_IN_FORCE`. -/
def capInForce (s : State) : Nat := min (odv s 0x5000 1) (marlCap s.power.code)
/-- The step in force (R411). -/
def stepInForce (s : State) : Nat := max s.power.cap s.power.therm
/-- The apex step; a trip sets the apex factor of step 8 (Table 14.2, R412). -/
def apexStep (s : State) : Nat := min (if s.power.trip then max 8 (stepInForce s) else stepInForce s) (odv s 0x5200 3)
/-- `STEP_CAUSE` (OD 5200h.07). -/
def stepCause (s : State) : Nat :=
  (if s.power.cap > 0 ∧ odv s 0x5000 1 ≤ marlCap s.power.code then 1 else 0)
  + (if s.power.cap > 0 ∧ marlCap s.power.code ≤ odv s 0x5000 1 ∧ s.power.code ≠ 0 then 2 else 0)
  + (if s.power.therm > 0 ∨ s.power.trip then 4 else 0)

/-- Blocks that a step marks for gating (Table 14.2). -/
def marked (step b : Nat) : Bool := step ≥ 9 && b % 40 ≥ 40 - 5 * (step - 8)

/-- A block does no work and is asked for none. -/
def blockIdle (x : Block) : Bool := x.feed.isEmpty && x.job.isNone && x.banks.all fun k => k.st = 0

/-- Nor does its BVU hold any: every work item has ended. -/
def blockFree (x : Block) : Bool := blockIdle x && x.epi.isEmpty && x.bvu.isNone && x.stall.isEmpty

/-- What keeps a block's clock gated: retirement (R442), a self-test batch that is not its own (R482), a trip (R412), or a
step that marks it, once its work has ended (R407). -/
def staysGated (s : State) (b : Nat) (x : Block) : Bool :=
  x.retired || (s.boot.stage = 8 && b % 40 / 4 != s.boot.batch) || s.power.trip
  || (marked (stepInForce s) b && blockFree x && !x.testing)

/-- Clocks that nothing keeps gated any more run again. -/
def ungate (s : State) : State :=
  { s with blocks := s.blocks.map fun e => (e.1, if e.2.gated && !staysGated s e.1 e.2 then { e.2 with gated := false } else e.2) }

/-! ### The ramp governor (R416, R417) -/

/-- ⌊3W/64⌋ MC, the interval of ramp steps; the window in MC. -/
def rampInterval (s : State) : Nat := 3 * odv s 0x5020 1 / 64
def rampWindow (s : State) : Nat := 3 * odv s 0x5020 1 / 8

/-- A block is low: idle for 256 AC and not held by a completed pre-ramp. -/
def blockLow (s : State) (b : Nat) : Bool :=
  let x := blockAt s b
  x.idleRun ≥ 256 && x.preRamp < 8 && !x.retired

def lowBlocks (s : State) : List Nat := (presentBlocks s).filter (blockLow s)

/-- A wake event (R416): the ramp opens, step 0 is admitted at once and the other low blocks are held. -/
def wake (always : Bool) (s : State) : State :=
  let low := lowBlocks s
  if odv s 0x5020 3 = 1 ∧ !s.power.rampOpen ∧ (always ∨ low.length ≥ odv s 0x5020 2) then
    let s := { s with power := { s.power with rampOpen := true, rampMc := mcNow s, rampStep := 0,
                                              rampLevel := s.power.filler } }
    let s := odBump 0x5020 4 1 s
    let s := low.foldl (fun s b =>
      if b % 40 / 5 = 0 then s else modBlock b (fun x => { x with ramp := true, filler := s.power.filler }) s) s
    trace 5 0 0 (pack [(4, stepInForce s), (8, stepCause s), (1, 1)]) s
  else s

/-- What follows a change of step (R407, R408, R416). -/
def afterStep (old : Nat) (s : State) : State :=
  let new := stepInForce s
  if new = old then s
  else
    let s := if old = 0 then odBump 0x5200 2 1 s else s
    let s := trace 5 0 0 (pack [(4, new), (8, stepCause s), (1, b2n s.power.rampOpen)]) s
    if new < old ∧ old ≥ 9 then wake true (ungate s) else s

/-! ### Rows -/

/-- R404: the block's clock stretches. -/
def execDroopTrip (b : Nat) (s : State) : Out :=
  event (live s && blockPresent s b && !(blockAt s b).stretching && !(blockAt s b).gated && !(blockAt s b).retired) s
    (odBump 0x2300 3 1 (modBlock b (fun x => { x with stretching := true }) s))

/-- R404: every detector clear for 32 root cycles. -/
def execStretchEnd (b : Nat) (s : State) : Out :=
  event (live s && (blockAt s b).stretching) s (modBlock b (fun x => { x with stretching := false }) s)

/-- The rules of R410 in their order. -/
def powerLoop (est amps5 : Nat) (s : State) : State :=
  let p := s.power
  let cap := capInForce s
  let over95 : Bool := est * 100 > 95 * cap
  let nj := p.energyNj + est * 1000
  let p := { p with estimate := min est 2000, amps5 := amps5, energyNj := nj,
                    calmRef := if over95 then refNow s else p.calmRef }
  let calm : Bool := !over95 && decide (refNow s ≥ p.calmRef + 10000)
  if est * 100 > 125 * cap then { s with power := { p with filler := 0, cap := min 15 (p.cap + 4) } }
  else if est > cap ∧ p.filler > 0 then { s with power := { p with filler := p.filler - 10 } }
  else if est > cap then { s with power := { p with cap := min 15 (p.cap + 1) } }
  else if calm ∧ p.cap > 0 then { s with power := { p with cap := p.cap - 1, calmRef := refNow s } }
  else if calm then
    { s with power := { p with filler := max p.filler (min (p.filler + 10) (odv s 0x5010 1)) } }
  else { s with power := p }

/-- R410: one evaluation of the control loop. -/
def execPowerLoopEval (est amps5 : Nat) (s : State) : Out :=
  event (live s) s (afterStep (stepInForce s) (powerLoop est amps5 s))

/-- R407: a block that the step marks has finished its feed queue and is gated. -/
def execBlockGated (b : Nat) (s : State) : Out :=
  event (live s && blockPresent s b && marked (stepInForce s) b && blockFree (blockAt s b) && !(blockAt s b).testing && !(blockAt s b).gated) s
    (modBlock b (fun x => { x with gated := true }) s)

/-- R411: the thermal step, every 10 µs. -/
def thermalStep (temp : Int) (s : State) : State :=
  let p := s.power
  let lim : Int := odv s 0x5200 4 * 8
  let p := { p with tempMax := temp, coolRef := if temp > lim - 24 then refNow s else p.coolRef }
  if temp ≥ lim then { s with power := { p with therm := min 15 (p.therm + 1), thermRef := refNow s } }
  else if p.therm > 0 ∧ temp ≤ lim - 24 ∧ refNow s ≥ max p.coolRef p.thermRef + 100000 then
    { s with power := { p with therm := p.therm - 1, thermRef := refNow s } }
  else { s with power := p }

def execThermalEval (temp : Int) (s : State) : Out :=
  event (live s) s (afterStep (stepInForce s) (thermalStep temp s))

/-- R412: every present block gated, the event logged. -/
def thermalTrip (temp : Int) (s : State) : State :=
  let s := { s with power := { s.power with trip := true, tempMax := temp } }
  let s := (presentBlocks s).foldl (fun s b => modBlock b (fun x => { x with gated := true }) s) s
  report 0x34 0 0 0 0 none false s

def execThermalTrip (temp : Int) (s : State) : Out :=
  event (live s && decide (temp ≥ odDefault (odKey 0x5200 6) * 8) && !s.power.trip) s (thermalTrip temp s)

/-- R412, R416: the trip ends with the thermal step at 15. -/
def thermalTripEnd (temp : Int) (s : State) : State :=
  let old := stepInForce s
  let s := { s with power := { s.power with trip := false, tempMax := temp, therm := 15, thermRef := refNow s } }
  wake true (afterStep old (ungate s))

def execThermalTripEnd (temp : Int) (s : State) : Out :=
  event (live s && s.power.trip && decide (temp ≤ odv s 0x5200 4 * 8)) s (thermalTripEnd temp s)

/-- R409: a code counts when two consecutive frames carry it. -/
def execMarlCapRequest (code : BitVec 4) (s : State) : Out :=
  let p := s.power
  let run := if code.toNat = p.lastCode then p.codeRun + 1 else 1
  event (live s && s.boot.frames) s
    { s with power := { p with lastCode := code.toNat, codeRun := run, code := if run ≥ 2 then code.toNat else p.code } }

/-! ### The voltage request (R401 to R403, R476, R477) -/

/-- `AVS_VID` for a trim. -/
def vidFor (s : State) (trim : Nat) : Nat := (s.power.vFuse - trim - 650) / 5

/-- Make the next request when none is outstanding: at most two codes nearer the target. -/
def avsRequest (s : State) : State :=
  let p := s.power
  if p.avsWait ∨ p.vid = p.vidTarget then s
  else
    let v := if p.vid < p.vidTarget then min p.vidTarget (p.vid + 2) else max p.vidTarget (p.vid - 2)
    { s with power := { p with vid := min v 40, avsReq := !p.avsReq, avsWait := true, avsRef := refNow s, avsLate := false } }

/-- Set the trim and request its voltage. -/
def setTrim (t : Nat) (s : State) : State :=
  avsRequest { s with power := { s.power with trim := t, vidTarget := vidFor s t } }

/-- R402: the end of a 24 h period of operating time. -/
def execTrimPeriodEnd (slack : Nat) (s : State) : Out :=
  let p := s.power
  let t := if slack ≥ p.raiseTh then min 60 (p.trim + 5) else if slack < p.holdTh then p.trim - 5 else p.trim
  event (live s && decide (opRef s ≥ p.periodOp + 8640000000000)) s
    (odBump 0x5100 6 1 (setTrim t { s with power := { p with periodOp := opRef s } }))

/-- R402: a report below the fused floor. -/
def execMarginFloorReport (region slack : Nat) (s : State) : Out :=
  event (live s && regionPresent s region && decide (slack < s.power.floorTh)) s
    (report 0x18 region 0 0 0 none false
      (setTrim (s.power.trim - 10) { s with power := { s.power with periodOp := opRef s } }))

/-- R403: the 1 ms monitor check after OPERATIONAL; a failed one is logged with kind 00h (log entry 13). -/
def execTrimCheckEnd (slack : Nat) (s : State) : Out :=
  let s1 := { s with power := { s.power with trimCheck := false } }
  event (live s && s.power.trimCheck && decide (refNow s ≥ s.power.trimRef + 100000)) s
    (if slack ≥ s.power.holdTh then s1 else report 0 0 0 0 0 none false (setTrim 0 s1))

/-! ### Ramps, falling ramps and hints (R415 to R419) -/

/-- R417: the next admission step. -/
def execRampAdmissionStep (s : State) : Out :=
  let k := s.power.rampStep + 1
  event (live s && s.power.rampOpen && decide (k ≤ 7) && decide (mcNow s ≥ s.power.rampMc + k * rampInterval s)) s
    { s with power := { s.power with rampStep := k }
             blocks := s.blocks.map fun e => (e.1, if e.1 % 40 / 5 ≤ k then { e.2 with ramp := false } else e.2) }

/-- R417: the ramp closes at W. -/
def execRampClose (s : State) : Out :=
  event (live s && s.power.rampOpen && decide (mcNow s ≥ s.power.rampMc + rampWindow s)) s
    { s with power := { s.power with rampOpen := false, rampStep := 0 }
             blocks := s.blocks.map fun e => (e.1, { e.2 with ramp := false }) }

/-- R415: filler falls by an eighth. -/
def execFallingRampStep (b : Nat) (s : State) : Out :=
  let x := blockAt s b
  event (live s && decide (x.fall > 0) && !x.gated && decide (mcNow s ≥ x.fallMc + rampInterval s)) s
    (modBlock b (fun x => { x with fall := x.fall - 1, fallMc := mcNow s }) s)

/-- Start a falling ramp (R415, R419). -/
def startFall (b : Nat) (s : State) : State := modBlock b (fun x => { x with fall := 8, fallMc := mcNow s, preRamp := 0 }) s

/-- R419: a phase 7 hint's interval is now. -/
def hintHolds (s : State) : Bool :=
  match s.power.hint with
  | some h => h.phase = 7 && decide (h.startFc + h.leadFc ≤ s.clocks.fc) && decide (s.clocks.fc ≤ h.startFc + h.leadFc + h.lenFc)
  | none => false

/-- R419: a block that became idle inside that interval, whose filler therefore stays (`idleRun` counts AC, two per FC). -/
def hintKeeps (s : State) (x : Block) : Bool :=
  match s.power.hint with
  | some h => hintHolds s && decide (x.idleRun ≤ 2 * (s.clocks.fc - (h.startFc + h.leadFc)))
  | none => false

/-- W in apex FC. -/
def rampFc (s : State) : Nat := 3 * odv s 0x5020 1 / 2

/-- R419: the next of the eight filler steps before a hinted phase. -/
def execPreRampStep (s : State) : Out :=
  match s.power.hint with
  | none => .next s
  | some h =>
    let n := min h.leadFc (rampFc s)
    let k := h.steps + 1
    event (live s && decide (2 ≤ h.phase ∧ h.phase ≤ 6 ∧ h.leadFc ≥ 64 ∧ k ≤ 8)
        && decide (s.clocks.fc ≥ h.startFc + h.leadFc - n + n * k / 8)) s
      { s with power := { s.power with hint := some { h with steps := k } }
               , blocks := (presentBlocks s).foldl (fun t b =>
                 let x := tget block0 t b
                 if blockIdle x && !x.gated && !x.retired then tput b { x with preRamp := k } t else t) s.blocks }

/-- R419: a completed pre-ramp with no work by L + W falls. -/
def execPreRampExpiry (b : Nat) (s : State) : Out :=
  let due : Bool := match s.power.hint with
    | some h => s.clocks.fc ≥ h.startFc + h.leadFc + rampFc s
    | none => true
  event (live s && decide ((blockAt s b).preRamp = 8) && blockIdle (blockAt s b) && due) s (startFall b s)

/-- R419: the power manager records a hint; phase 0 cancels. -/
def recordHint (d : Descriptor) (s : State) : State :=
  let p := fld d 256 3
  let h : Hint := { phase := p, startFc := s.clocks.fc, lenFc := fld d 320 32, leadFc := fld d 288 32, steps := 0 }
  { s with power := { s.power with hint := if p = 0 then none else some h } }

/-- Percent of I_ref of a phase (Table 14.3). -/
def phasePct : Nat → Nat
  | 1 => 5 | 2 => 45 | 3 => 70 | 4 => 85 | 5 => 100 | 6 => 65 | _ => 0

/-- The phase a command counts as (R418). -/
def cmdPhase (d : Descriptor) : Nat :=
  if dPhase d ≠ 0 then dPhase d
  else
    match dOp d with
    | 0x01 | 0x02 => if gSparse d ≠ 0 ∨ gClass d = 0 then 5 else if gClass d = 1 then 4 else 3
    | 0x30 | 0x31 | 0x32 | 0x11 => 2
    | 0x10 | 0x12 | 0x13 | 0x18 => 6
    | _ => 1

/-- `PHASE_NOW` (Table 14.4). -/
def phaseNow (s : State) : Nat :=
  let ps := (s.front.cmds.filter fun c => !c.decided).map (fun c => cmdPhase c.desc)
    ++ (match s.power.hint with | some h => [h.phase] | none => [])
  ps.foldl (fun b p => if phasePct p > phasePct b ∨ (b = 0 ∧ p ≠ 0) then p else b) 0

end Sys2Proof.Machine
end

