-- ==== Sys2Proof/Machine/Boot.lean ====
section
/-! DEFINITION. Boundary, reset and start-up (chapter 16): power and reset pins, straps, the start-up sequence,
the voltage steps, the Marl frame and the test access port. -/

namespace Sys2Proof.Machine

/-! ### Reset (R459 to R461) -/

/-- All state outside the always-on domain is lost. The command queue, host memory, time and the test port's
own domain are not the macro's to lose. -/
def lostState (s : State) : State :=
  { State.reset with
    pending := s.pending
    clocks := { slot := s.clocks.slot, fc := 0, opSlot := 0 }
    mem := s.mem
    memPoison := s.memPoison
    fresh := s.fresh
    power := { Power.atReset with vid := s.power.vid, vidAck := s.power.vid, vidTarget := s.power.vid, avsReq := s.power.avsReq }
    sec := { Sec.atReset with tapIr := s.sec.tapIr, tapOut := s.sec.tapOut, tapOk := s.sec.tapOk } }

/-- R459: `RESET_N` falls. -/
def execResetNFall (s : State) : Out :=
  event s.boot.resetN s
    { lostState s with boot := { Boot.atReset with pwrGood := s.boot.pwrGood } }

/-- R460: `PWR_GOOD` falls; every clock is gated and the engine behaves as in reset. -/
def execPwrGoodFall (s : State) : Out :=
  event s.boot.pwrGood s
    { lostState s with boot := { Boot.atReset with pwrGood := false, resetN := s.boot.resetN } }

/-- R459: after `PWR_GOOD` rises, `AVS_VID` is driven to 30. -/
def execPwrGoodRise (s : State) : Out :=
  let t := lostState s
  event (!s.boot.pwrGood) s
    { t with boot := { Boot.atReset with pwrGood := true, resetN := s.boot.resetN }
             power := { t.power with vid := 30, vidAck := 30, vidTarget := 30 } }

/-- R480, R494: `RESET_N` rises; start-up begins and the security unit draws a nonce. -/
def execResetNRise (s : State) : Out :=
  event (s.boot.pwrGood && !s.boot.resetN) s
    (drawn { s with boot := { s.boot with resetN := true, resetRef := refNow s }
                    sec := { s.sec with nonce := Config.nonce s.fresh } })

/-! ### Failures and FAULT (R382, R480, Table 16.9) -/

/-- Every command in flight ends with `RESET_ABORT`, and the dictionary enters FAULT (R382). -/
def enterFault (s : State) : State :=
  let s := s.front.cmds.foldl (fun s c => endCmd c.uid stResetAbort noDetail s) s
  setSt 4 { s with mgmt := { s.mgmt with stopPending := false } }

/-- Start-up ends in FAULT with a failure code. -/
def bootFail (code : Nat) (s : State) : State :=
  enterFault { s with boot := { s.boot with failure := code } }

/-- Address of a boot image location (Table 16.2). -/
def imageBase (location : Nat) : Nat := if location = 0 then 0x100000000 else 0x200000000

/-- Step 7 of Table 16.8 begins. -/
def startImage (s : State) : State :=
  let l := if fld s.boot.straps 0 2 = 1 then 1 else 0
  { s with boot := { s.boot with location := l, stage := 4 + l } }

/-- Step 6: from the held `AVS_VID` to `V_FUSE_MV`. -/
def startVoltage (s : State) : State :=
  if s.power.vid = s.power.vidTarget then startImage s else avsRequest s

/-- What follows the end of steps 2 to 4: the lowest-numbered failing step, then steps 5 and 6. -/
def bootAdvance (s : State) : State :=
  if !(s.boot.pll && s.boot.fuseDone && s.boot.stage ≤ 2 && s.boot.failure = 0) then s
  else if s.boot.strapBad then bootFail 3 s
  else if s.boot.fuseBad then bootFail 2 s
  else
    let present := BitVec.ofNat 8 (fld s.boot.straps 3 8) &&& ~~~ s.boot.fuseDisable
    if present = 0 then bootFail 4 s
    else
      startVoltage { s with boot := { s.boot with present := present, stage := 3 }
                            power := { s.power with vidTarget := vidFor s 0 } }

/-! ### Start-up rows -/

/-- R462, R463: the straps as sampled at cycle 16. -/
def execStrapSample (levels : BitVec 24) (s : State) : Out :=
  event (s.boot.pwrGood && s.boot.resetN && !s.boot.dead && !s.boot.strapDone) s
    { s with boot := { s.boot with straps := levels, strapDone := true, stage := 1,
                                   strapBad := fld levels 11 13 != 0 || fld levels 0 2 = 3 } }

/-- R464: the static boot code. -/
def execStaticBootCodeStart (s : State) : Out :=
  event (s.boot.pwrGood && s.boot.resetN && !s.boot.frames && !s.boot.staticCode) s
    { s with boot := { s.boot with staticCode := true } }

/-- R480 steps 2 and 4: the PLL locks, the management unit starts and frames begin. -/
def execPllLock (s : State) : Out :=
  event (s.boot.pwrGood && s.boot.resetN && !s.boot.dead && s.boot.strapDone && !s.boot.pll && s.boot.failure = 0) s
    (bootAdvance { s with boot := { s.boot with pll := true, frames := true, staticCode := false, stage := 2 } })

/-- Failure code 1: no frames run, and the static code stays. -/
def execPllLockTimeout (s : State) : Out :=
  event (s.boot.pwrGood && s.boot.resetN && !s.boot.dead && s.boot.strapDone && !s.boot.pll && s.boot.failure = 0) s
    (setSt 4 { s with boot := { s.boot with failure := 1, staticCode := true } })

/-- The marker value of R485. -/
def marker : Nat := 0x2A5A5A5

/-- R478, R485: what fuse load delivers. -/
def loadFuses (f : FuseValues) (s : State) : State :=
  let ms := f.provisionedMarker :: f.deployedMarker :: f.returnedMarker :: f.svnMarkers
  let life := if f.returnedMarker = marker then 3 else if f.deployedMarker = marker then 2
    else if f.provisionedMarker = marker then 1 else 0
  { s with
    boot := { s.boot with fuseDone := true, fuseBad := f.uncorrectable || ms.any (fun m => m != 0 && m != marker),
                          fuseDisable := BitVec.ofNat 8 f.fuseDisable }
    power := { s.power with vFuse := f.vFuseMv, raiseTh := f.raiseThreshold, holdTh := f.holdThreshold,
                            floorTh := f.floorThreshold }
    sec := { s.sec with lifecycle := life, serial := f.serial, fwKeyHash := f.fwKeyHash, ownerKeyHash := f.ownerKeyHash,
                        minSvn := (f.svnMarkers.filter (· = marker)).length, repair := f.repair,
                        tapOk := life != 2 && fld s.boot.straps 2 1 = 1 } }

/-- R74: the physical row and column that a block bypasses. -/
def bypassed (s : State) (b : Nat) : Nat × Nat := s.sec.repair.getD b (16, 16)

/-- R74: the physical row of a logical row of a block, and the physical column of a logical column. -/
def physRow (s : State) (b i : Nat) : Nat := if i < (bypassed s b).1 then i else i + 1
def physCol (s : State) (b j : Nat) : Nat := if j < (bypassed s b).2 then j else j + 1

def execFuseLoadDone (f : FuseValues) (s : State) : Out :=
  event (s.boot.pwrGood && s.boot.resetN && !s.boot.dead && s.boot.strapDone && !s.boot.fuseDone) s
    (bootAdvance (loadFuses f s))

/-- R476: the rail has reached the requested value; the next request, or step 7 of start-up. -/
def avsAck (s : State) : State :=
  let s := { s with power := { s.power with vidAck := s.power.vid, avsWait := false } }
  if s.boot.stage = 3 ∧ s.boot.failure = 0 then startVoltage s else avsRequest s

def execAvsAck (s : State) : Out := event (live s && s.power.avsWait) s (avsAck s)

/-- R477: no acknowledgement within 1 ms of a request. -/
def execAvsTimeout (s : State) : Out :=
  let t := odBump 0x2300 5 1 { s with power := { s.power with avsLate := true } }
  event (live s && s.power.avsWait && !s.power.avsLate && decide (refNow s ≥ s.power.avsRef + 100000)) s
    (if s.boot.stage = 3 ∧ s.boot.failure = 0 then bootFail 7 t else t)

/-- R488: the checks of an image at an address: the failure code, or the image. -/
def checkImage (s : State) (readFailed : Bool) (base : Nat) : Sum Nat (List Byte) :=
  let hdr := hostBytes s base 512
  let len := ofBytes ((hdr.drop 8).take 4)
  if readFailed || ofBytes (hdr.take 4) != 0x5746514A || ofBytes ((hdr.drop 4).take 2) != 1 || len = 0
      || decide (512 + len > 2 ^ 20) then .inl 5
  else
    let body := hostBytes s (base + 512) len
    let pub := (hdr.drop 64).take 96
    let keyOk : Bool := sha384 pub = s.sec.fwKeyHash && s.sec.fwKeyHash != 0
      || (s.sec.lifecycle = 0 && s.sec.fwKeyHash = 0 && sha384 pub = Config.testKeyHash)
    if keyOk && ecdsaVerify pub (hdr.take 416 ++ body) ((hdr.drop 416).take 96)
        && decide (ofBytes ((hdr.drop 6).take 2) ≥ s.sec.minSvn) then .inr (hdr ++ body)
    else .inl 6

/-- R481: the image at the location in use has been read and checked. -/
def firmwareDone (readFailed : Bool) (s : State) : State :=
  match checkImage s readFailed (imageBase s.boot.location) with
  | .inr img =>
    { s with boot := { s.boot with image := img, verified := true, stage := 7 }
             sec := { s.sec with svn := ofBytes ((img.drop 6).take 2), fwVersion := ofBytes ((img.drop 12).take 4) } }
  | .inl code =>
    if fld s.boot.straps 0 2 = 2 ∧ s.boot.location = 0 then
      { s with boot := { s.boot with location := 1, fallback := true, stage := 5 } }
    else bootFail code s

def execFirmwareVerifyDone (readFailed : Bool) (s : State) : Out :=
  event (live s && (s.boot.stage = 4 || s.boot.stage = 5) && s.boot.failure = 0) s (firmwareDone readFailed s)

/-- The present, unretired blocks of self-test batch `k` run their test; the others stay gated, and a trip gates them all
(R412, R482). -/
def selfTestGate (k : Nat) (s : State) : State :=
  (presentBlocks s).foldl (fun s b =>
    let inBatch : Bool := b % 40 / 4 = k
    if (blockAt s b).retired then s
    else modBlock b (fun x => { x with gated := !inBatch || s.power.trip, testing := inBatch }) s) s

def execControlCoresStarted (s : State) : Out :=
  event (live s && s.boot.stage = 7 && s.boot.failure = 0) s
    (selfTestGate 0 { s with boot := { s.boot with stage := 8, batch := 0 } })

/-- R442: a block leaves service until `RESET_N`, with an entry of code 42h that follows from entry `dep`. -/
def retireBlock (b dep : Nat) (s : State) : State :=
  reportAs (1000 + b) 0 dep 0x42 b 0 4 0 none false
    (modBlock b (fun x => { block0 with
      retired := true, gated := true, weight := x.weight, spLost := x.spLost, busyAc := x.busyAc, idleAc := x.idleAc
      splitSteps := x.splitSteps }) s)

/-- Every present block is retired. -/
def allRetired (s : State) : Bool := (presentBlocks s).all fun b => (blockAt s b).retired

/-- R480 step 10: PREOP. -/
def enterPreop (s : State) : State :=
  setSt 1 { s with boot := { s.boot with stage := 15 } }

/-- R482: a batch has run; blocks whose signature differs are retired, and after the tenth the stores are zero. -/
def batchDone (failed : List Nat) (s : State) : State :=
  let s := (presentBlocks s).foldl (fun s b =>
    if b % 40 / 4 = s.boot.batch ∧ (failed.contains b ∨ (fires 9 b s).isSome) then
      let s := if (fires 9 b s).isSome then disarm 9 b s else s
      retireBlock b 0 s
    else s) s
  if s.boot.batch < 9 then
    selfTestGate (s.boot.batch + 1) { s with boot := { s.boot with batch := s.boot.batch + 1 } }
  else if allRetired s then bootFail 8 s
  else
    let s := (presentBlocks s).foldl (fun s b =>
      if (blockAt s b).retired then s else modBlock b (fun x => { x with gated := marked (stepInForce s) b, testing := false }) s) s
    enterPreop { s with sp := [], spPoison := [] }

def execSelfTestBatchDone (failed : List Nat) (s : State) : Out :=
  event (live s && s.boot.stage = 8 && s.boot.failure = 0 && !s.power.trip) s (batchDone failed s)

/-- R461: loss of lock after start-up. Every other clock is gated and the static code shows Ah until `RESET_N`. -/
def execPllLockLoss (s : State) : Out :=
  event (live s) s { s with boot := { s.boot with dead := true, failure := 10, frames := false, staticCode := true } }

/-! ### The Marl frame (R465 to R468) -/

/-- Busy and idle AC of a block as one list: busy, then causes 1 to 12. -/
def acCounts (x : Block) : List Nat := x.busyAc :: (x.idleAc.drop 1)

/-- AC counted since the previous frame, per present, unretired block. -/
def frameCounts (s : State) : List (List Nat) :=
  ((presentBlocks s).filter fun b => !(blockAt s b).retired).map fun b =>
    List.zipWith (· - ·) (acCounts (blockAt s b)) (tget (List.replicate 13 0) s.marl.last b)

/-- `ERROR_REGISTER` (R397): classes of unacknowledged entries. -/
def errorRegister (s : State) : Nat :=
  s.rel.log.foldl (fun r e => if serialLe e.1 s.rel.acked then r else r ||| 2 ^ (fld e.2 40 3)) 0
  ||| (if s.rel.recov.isEmpty then 0 else 64) ||| (if s.mgmt.st = 4 then 128 else 0)

/-- Unacknowledged entries (R451). -/
def unacked (s : State) : Nat := (s.rel.log.filter fun e => !serialLe e.1 s.rel.acked).length

/-- Pins held (R217): reading commands that hold one. -/
def pinsHeld (s : State) : Nat := (s.front.cmds.filter fun c => c.pin.isSome).length

/-- Slot D [19:0] (Table 16.5, R468, R487). -/
def marlDebugBits (s : State) : Nat :=
  let sel := odv s 0x7200 4
  if sel = 1 then pack [(10, s.front.cmds.length), (10, pinsHeld s)]
  else if sel = 2 then pack [(11, s.power.estimate), (9, (min 511 (max 0 (s.power.tempMax / 8))).toNat)]
  else if sel = 3 then pack ((List.range 6).map fun p => (3, (linkAt s p).st))
  else if sel ≥ 0x80 ∧ (s.sec.lifecycle ≠ 2 ∨ bit s.sec.grant 2) then (Config.marlDebug sel s.fresh).toNat
  else 0

/-- The six slots of the next frame. -/
def marlSlots (s : State) : List (BitVec 24) :=
  let cs := frameCounts s
  let a := pack [(8, min 255 (Config.iForecast s.fresh)), (8, min 255 s.power.amps5), (4, stepInForce s), (3, phaseNow s),
    (1, b2n s.power.rampOpen)]
  let b := pack [(8, errorRegister s), (8, min 255 (unacked s)), (4, s.boot.stage), (4, s.mgmt.st)]
  let busy := (cs.map fun l => l.headD 0).sum
  let all := (cs.map List.sum).sum
  let map_ := (List.range 12).foldl (fun m i =>
    if cs.length ≠ 0 ∧ 8 * (cs.filter fun l => l.getD (i + 1) 0 > 0).length ≥ cs.length then m + 2 ^ i else m) 0
  let c := pack [(12, map_), (4, stepInForce s), (8, if all = 0 then 0 else busy * 255 / all)]
  let crc := crc16 (toBytes 3 a ++ toBytes 3 b ++ toBytes 3 c)
  [BitVec.ofNat 24 a, BitVec.ofNat 24 b, BitVec.ofNat 24 c, BitVec.ofNat 24 (pack [(16, s.marl.num), (4, 10)]),
   BitVec.ofNat 24 (pack [(20, marlDebugBits s), (4, s.power.lastCode)]), BitVec.ofNat 24 (pack [(16, crc), (4, 5)])]

def execMarlFrame (s : State) : Out :=
  event (s.boot.frames && live s) s
    (drawn { s with marl := { num := s.marl.num + 1, frame := marlSlots s,
                              last := s.blocks.map fun e => (e.1, acCounts e.2) } })

/-! ### Test access (R479) -/

/-- The instruments are reachable (R479, R487). -/
def tapInstruments (s : State) : Bool := s.sec.tapOk || (s.sec.lifecycle = 2 && bit s.sec.grant 3)

/-- `IDCODE`. -/
def idcode : BitVec 32 := BitVec.ofNat 32 (pack [(1, 1), (11, Config.jtagMfr.toNat), (16, 0x4A34), (4, 2)])

def execIdcode (s : State) : Out := event s.boot.pwrGood s { s with sec := { s.sec with tapIr := 1, tapOut := idcode } }
def execBypass (s : State) : Out := event s.boot.pwrGood s { s with sec := { s.sec with tapIr := 0, tapOut := 0 } }

/-- `EXTEST` acts only while `RESET_N` is low; where it is not offered, the port stays in bypass. -/
def execExtest (s : State) : Out :=
  event s.boot.pwrGood s
    { s with sec := { s.sec with tapIr := if s.sec.tapOk && !s.boot.resetN then 2 else 0, tapOut := 0 } }

def execIeee1687InstrumentAccess (s : State) : Out :=
  event s.boot.pwrGood s { s with sec := { s.sec with tapIr := if tapInstruments s then 3 else 0, tapOut := 0 } }

end Sys2Proof.Machine
end

