-- ==== Sys2Proof/Machine/Routes.lean ====
section
/-! DEFINITION. Routes (R330 to R332), flit layout (R321), and the queueing of packets, units, releases and
acknowledgements for the links (R336 to R338). -/

namespace Sys2Proof.Machine

/-! ### Nodes and routes -/

def myNode (s : State) : Nat := odv s 0x4000 1
def dimX (s : State) : Nat := odv s 0x4000 2
def dimY (s : State) : Nat := odv s 0x4000 3
def dimZ (s : State) : Nat := odv s 0x4000 4
def nodeCount (s : State) : Nat := dimX s * dimY s * dimZ s

/-- Coordinate of a node in dimension 0, 1 or 2 (R330). -/
def coordOf (s : State) (n dim : Nat) : Nat :=
  if dim = 0 then n % dimX s else if dim = 1 then n / dimX s % dimY s else n / (dimX s * dimY s)

def dimSize (s : State) (dim : Nat) : Nat := if dim = 0 then dimX s else if dim = 1 then dimY s else dimZ s

/-- The direction taken in a dimension: 0 for +, 1 for − (R331). -/
def direction (size here there src dst : Nat) : Nat :=
  let up := (there + size - here) % size
  let down := (here + size - there) % size
  if size = 2 then (src + dst) % 2 else if down < up then 1 else 0

/-- The port by which a packet leaves this node; none at its destination (R331). -/
def routePort (s : State) (src dst : Nat) : Option Nat :=
  (List.range 3).findSome? fun dim =>
    let here := coordOf s (myNode s) dim
    let there := coordOf s dst dim
    if here = there then none else some (2 * dim + direction (dimSize s dim) here there src dst)

/-- Dateline class on leaving by a port; `same` is the class it came with in the same dimension (R332). -/
def nextClass (s : State) (port : Nat) (same : Option Nat) : Nat :=
  let dim := port / 2
  let c := coordOf s (myNode s) dim
  if (port % 2 = 0 ∧ c + 1 = dimSize s dim) ∨ (port % 2 = 1 ∧ c = 0) then 1 else same.getD 0

/-- The node that a port reaches (R330). -/
def neighbour (s : State) (port : Nat) : Nat :=
  let dim := port / 2
  let n := dimSize s dim
  let c := coordOf s (myNode s) dim
  let c' := if port % 2 = 0 then (c + 1) % n else (c + n - 1) % n
  let step := if dim = 0 then 1 else if dim = 1 then dimX s else dimX s * dimY s
  myNode s - c * step + c' * step

/-! ### Flits (Table 11.1) -/

def fType (f : Flit) : Nat := fld f 0 4
def fVc (f : Flit) : Nat := fld f 4 2
def fClass (f : Flit) : Nat := fld f 6 1
def fTail (f : Flit) : Bool := fld f 7 1 = 1
def fSeq (f : Flit) : Nat := fld f 8 12
def fDst (f : Flit) : Nat := fld f 40 15
def fSrc (f : Flit) : Nat := fld f 56 15
def fBody (f : Flit) : BitVec 1920 := BitVec.ofNat 1920 (fld f 96 1920)

/-- A header with its fields (Table 11.1). -/
def flitHeader (x : TxFlit) (seq ackSeq : Nat) (ackValid : Bool) (slot cretIdx cretCnt ivLo : Nat) : Nat :=
  pack [(4, x.ftype), (2, x.vc), (1, x.dclass), (1, b2n x.tail), (12, seq), (12, ackSeq), (1, b2n ackValid), (1, slot),
    (6, 0), (15, x.dst), (1, 0), (15, x.src), (1, 0), (3, cretIdx), (5, cretCnt), (16, ivLo)]

/-- The flit of a header and a body, with its CRC-32 (R321). -/
def flitOf (hdr : Nat) (body : BitVec 1920) : Flit :=
  let v := hdr + body.toNat * 2 ^ 96
  BitVec.ofNat 2048 (v + crc32 (toBytes 252 v) * 2 ^ 2016)

/-- The data of the flit's block on lane i: bytes 32i to 32i + 31 (R319). -/
def laneOf (f : Flit) (i : Nat) : BitVec 256 := BitVec.ofNat 256 (fld f (256 * i) 256)

/-- The flit that the 8 lanes carry (R319). -/
def ofLanes (ls : List (BitVec 256)) : Flit := BitVec.ofNat 2048 (pack (ls.map fun b => (256, b.toNat)))

/-- R321: CRC good and no reserved value in the header. -/
def flitGood (f : Flit) : Bool :=
  crc32 (toBytes 252 (bits f.toNat 0 2016)) = fld f 2016 32 && fType f ≤ 8 && fld f 34 6 = 0 && fld f 55 1 = 0 && fld f 71 1 = 0

def encrypted (s : State) (p : Nat) : Bool := odv s 0x4010 (0x40 + p) = 1

/-- Body bytes that carry packet data (R349: 12 of 240 are the tag with encryption). -/
def bodyBytes (s : State) (p : Nat) : Nat := if encrypted s p then 228 else 240

/-! ### Output queues -/

/-- A port that cannot carry traffic and is not on its way to: disabled, down or mismatched. -/
def portDead (s : State) (p : Nat) : Bool := (linkAt s p).st = 0 || (linkAt s p).st = 3 || (linkAt s p).st = 4

def pushTx (p : Nat) (fs : List TxFlit) (s : State) : State := modLink p (fun l => { l with txq := l.txq ++ fs }) s

/-- Queue an acknowledgement (R338). -/
def pushAck (dst pktId kind : Nat) (s : State) : State := { s with acks := s.acks ++ [{ dst := dst, pktId := pktId, kind := kind }] }

/-- Next packet identifier. -/
def pktNo (s : State) : Nat := s.nextPkt % 65536

/-- Await the acknowledgement of packet `pktNo` for a command; 0 is nobody. -/
def awaitAck (uid port : Nat) (s : State) : State :=
  let s1 := { s with nextPkt := s.nextPkt + 1 }
  if uid = 0 then s1
  else
    modCmd uid (fun c => { c with acksOut := c.acksOut + 1 })
      { s1 with e2e := s1.e2e ++ [{ pktId := pktNo s, uid := uid, port := port, refAt := refNow s }] }

/-- Local flits to a destination by its route; over a dead port the command loses its link (log entry 15). -/
def sendLocal (uid dst : Nat) (mk : Nat → Nat → List TxFlit) (s : State) : State :=
  match routePort s (myNode s) dst with
  | none => s
  | some p =>
    if portDead s p ∨ nodeCount s ≤ dst then endCmd uid stLinkLost noDetail s
    else awaitAck uid p (pushTx p (mk p (nextClass s p none)) s)

/-- One small-write, release or abort flit from this node. -/
def localFlit (s : State) (ftype vc dclass dst : Nat) (tail : Bool) (body : Nat) : TxFlit :=
  { ftype := ftype, vc := vc, dclass := dclass, tail := tail, dst := dst, src := myNode s, body := BitVec.ofNat 1920 body,
    from_ := 6, inIdx := 0, pkt := pktNo s }

/-- R337: one Silt unit to a node. -/
def sendSmall (uid tag dst addr : Nat) (bs : List Byte) (bad : Bool) (s : State) : State :=
  let body := pack [(52, addr), (7, bs.length), (1, b2n bad), (4, 0), (16, pktNo s), (9, tag), (39, 0), (512, ofBytes bs)]
  sendLocal uid dst (fun _ c => [localFlit s 3 1 c dst true body]) s

/-- R337: one remote release. -/
def sendRelease (uid tag dst slot scope : Nat) (add : Bool) (val : Nat) (s : State) : State :=
  let body := pack [(12, slot), (3, scope), (2, b2n add), (15, 0), (32, val), (16, pktNo s), (9, tag), (39, 0)]
  sendLocal uid dst (fun _ c => [localFlit s 4 1 c dst true body]) s

/-- R336: the flits of one packet of at most 16 900 bytes. -/
def packetFlits (s : State) (kind dst addr tag : Nat) (bs : List Byte) (bad : Bool) (p c : Nat) : List TxFlit :=
  let w := bodyBytes s p
  let vc := if kind = 0 then 0 else 3
  let hdr := pack [(4, kind), (1, b2n bad), (3, 0), (15, bs.length), (9, 0), (52, addr), (44, 0), (16, pktNo s), (9, tag), (103, 0)]
  let n := ceilDiv (bs.length - (w - 32)) w
  localFlit s 1 vc c dst (n = 0) (hdr + ofBytes (bs.take (w - 32)) * 2 ^ 256)
    :: (List.range n).map fun i => localFlit s 2 vc c dst (i + 1 = n) (ofBytes ((bs.drop (w - 32 + w * i)).take w))

/-- A packet that writes host memory (kind 0) or an arrival tile (kind 1) of another node. -/
def sendPacket (uid tag kind dst addr : Nat) (bs : List Byte) (bad : Bool) (s : State) : State :=
  sendLocal uid dst (packetFlits s kind dst addr tag bs bad) s

/-- Bytes of a long write, cut into packets of 16 KiB (log entry 15). -/
def sendBytes (uid tag dst addr : Nat) (bs : List Byte) (bad : Nat → Nat → Bool) (s : State) : State :=
  (List.range (ceilDiv bs.length 16384)).foldl (fun s i =>
    let part := (bs.drop (16384 * i)).take 16384
    sendPacket uid tag 0 dst (addr + 16384 * i) part (bad (16384 * i) part.length) s) s

end Sys2Proof.Machine
end

