-- ==== Sys2Proof/Machine/Arrivals.lean ====
section
/-! DEFINITION. Arrival entries (R152, R153, R367): VC3 flits waiting in receive buffers and the landing of tiles. -/

namespace Sys2Proof.Machine

/-- The sender gets its credit back: the flit has left the receive buffer. -/
def freeBuffer (p idx : Nat) (s : State) : State :=
  modLink p (fun l => { l with owed := tput idx (tget 0 l.owed idx + 1) l.owed }) s

/-- Packet header of a HEAD body (Table 11.4). -/
def headerPacket (b : BitVec 1920) (src : Nat) : RxPacket :=
  { kind := fld b 0 4, src := src, addr := fld b 32 52, len := fld b 8 15, got := 0, poison := fld b 4 1 = 1,
    pktId := fld b 128 16, outPort := 7, drop := false }

/-- Bytes of a packet that a flit carries, from body byte `at_` on. -/
def flitBytes (w at_ : Nat) (x : RxPacket) (b : BitVec 1920) : List Byte :=
  toBytes (min (w - at_) (x.len - x.got)) (bits b.toNat (8 * at_) (8 * (w - at_)))

/-- Landing address of an entry (R367). -/
def landingAt (s : State) (e : Nat) : Nat := odv s 0x4110 1 + e * odv s 0x4110 2

/-- End a packet that was arriving at this node: an arriving entry returns to empty, what has landed is undefined (R347). -/
def abortArrival (p : Nat) (k : Nat) (s : State) : State :=
  match (linkAt s p).packets.find? (fun e => e.1 = k) with
  | none => s
  | some (_, x) =>
    let s := modLink p (fun l => { l with packets := tdel k l.packets }) s
    if k ≥ 8 ∧ !x.drop then
      spoil (some (bits x.addr 0 9)) (landingAt s (bits x.addr 9 8)) (min x.got (odv s 0x4110 2))
        (modBlock (bits x.addr 0 9) (fun b => { b with arrivals := tdel (bits x.addr 9 8) b.arrivals }) s)
    else s

/-- Packet bytes landed in an arrival entry, up to `ARR_SLOT` (R367). -/
def landTile (x : RxPacket) (bs : List Byte) (s : State) : State :=
  let b := bits x.addr 0 9
  let e := bits x.addr 9 8
  let slot := odv s 0x4110 2
  let a := landingAt s e + x.got
  let part := bs.take (slot - x.got)
  let s := spWrite b a part (x.poison || decide (x.len > slot)) s
  modBlock b (fun y => { y with arrivals := y.arrivals.map fun v =>
    if v.1 = e then (e, { v.2 with got := v.2.got + bs.length }) else v }) s

/-- One VC3 flit leaves the receive buffer: none while its packet must wait for an empty entry (R153). Key of the
landing packet: 8 + class. -/
def landFlit (p : Nat) (x : TxFlit) (s : State) : Option State :=
  let w := bodyBytes s p
  let k := 8 + x.dclass
  let l := linkAt s p
  if x.ftype = 1 then
    let h := headerPacket x.body x.src
    let b := bits h.addr 0 9
    let e := bits h.addr 9 8
    let dead : Bool := !blockPresent s b || (blockAt s b).retired || e ≥ odv s 0x4110 3 || h.kind != 1 || h.len = 0 || h.len > 16900
    if !dead && thas e (blockAt s b).arrivals then none
    else
      let bs := flitBytes w 32 h x.body
      let a : Arrival := { present := false, got := 0, want := h.len, poison := h.poison || decide (h.len > odv s 0x4110 2) }
      let s1 := if dead then s else
        landTile h bs (modBlock b (fun y => { y with arrivals := tput e a y.arrivals }) s)
      let h' : RxPacket := { h with got := bs.length, drop := dead }
      some (modLink p (fun l => { l with packets := if x.tail then l.packets else tput k h' l.packets }) s1)
  else
    match l.packets.find? (fun e => e.1 = k) with
    | none => some s
    | some (_, h) =>
      if x.ftype = 8 then some (abortArrival p k s)
      else
        let bs := flitBytes w 0 h x.body
        let s1 := if h.drop then s else landTile h bs s
        let h' : RxPacket := { h with got := h.got + bs.length }
        some (modLink p (fun l => { l with packets := if x.tail then tdel k l.packets else tput k h' l.packets }) s1)

/-- Flits held in a port's VC3 buffers go on as far as they can, in order within a class. -/
def drainHold (p : Nat) (s : State) : State :=
  let r := (linkAt s p).hold.foldl (fun (a : State × List TxFlit × List Nat) x =>
    let (s, keep, stuck) := a
    if stuck.contains x.dclass then (s, keep ++ [x], stuck)
    else
      match landFlit p x s with
      | some t => (if p < 6 then freeBuffer p (6 + x.dclass) t else t, keep, stuck)
      | none => (s, keep ++ [x], x.dclass :: stuck)) (s, [], [])
  modLink p (fun l => { l with hold := r.2.1 }) r.1

/-- Every port's held flits, after an entry has become empty. -/
def drainHolds (s : State) : State := (List.range 7).foldl (fun s p => drainHold p s) s

end Sys2Proof.Machine
end

