-- ==== Sys2Proof/Machine/Coll.lean ====
section
/-! DEFINITION. Collectives and PERMUTE (chapter 12) up to the combine work: count arrays, the readiness
exchange, sending, attribution of what arrives, and the failure of a group. -/

namespace Sys2Proof.Machine

/-! ### Writes that carry poison unit by unit (R431) -/

/-- The source units of 64 destination-aligned bytes that are poisoned, counted. -/
def badUnits (dst n : Nat) (bad : Nat → Nat → Bool) : List (Nat × Nat) :=
  if n = 0 then []
  else
    (List.range ((dst + n - 1) / 64 - dst / 64 + 1)).filterMap fun i =>
      let lo := max dst (64 * (dst / 64 + i))
      let hi := min (dst + n) (64 * (dst / 64 + i) + 64)
      if bad (lo - dst) (hi - lo) then some (lo - dst, hi - lo) else none

/-- Keys of output units: 64-byte units of host memory, of a block's scratchpad and of a peer's memory or landing
area; output tiles of problem `p` of group `g` of a work item. -/
def hostUnit (a : Nat) : Nat := 4 * (addr52 a / 64)
def spUnit (b a : Nat) : Nat := 4 * (b * 2 ^ 14 + a / 64) + 1
def tileUnit (item g p : Nat) : Nat := 4 * ((item * 2 ^ 24 + g % 2 ^ 24) * 16 + p) + 2
def peerUnit (node a : Nat) : Nat := 4 * (node * 2 ^ 46 + addr52 a / 64) + 3

/-- The units that `n` bytes at `a` touch, by key. -/
def unitsOf (key : Nat → Nat) (a n : Nat) : List Nat :=
  if n = 0 then [] else (List.range ((a + n - 1) / 64 - a / 64 + 1)).map fun i => key (64 * (a / 64 + i))

/-- Count poisoned output units, each once (R503); a command that read poison says so (R433). -/
def countPoison (uid : Nat) (ks : List Nat) (s : State) : State :=
  if ks = [] then s
  else modCmd uid (fun c => { c with marked := ks.foldl (fun l k => setIns k l) c.marked, flags := c.flags ||| 8 }) s

/-- A local write of a command: clean units together, each poisoned 64-byte unit with its mark. -/
def writeBad (uid blk a : Nat) (bs : List Byte) (bad : Nat → Nat → Bool) (prio : Bool) (s : State) : State :=
  (badUnits a bs.length bad).foldl (fun s u => hostWrite (a + u.1) ((bs.drop u.1).take u.2) true (.cmd uid blk) prio s)
    (hostWrite a bs false (.cmd uid blk) prio (noteTables a bs.length s))

/-- As `writeBad`, the poisoned units counted. -/
def writeMarked (uid blk a : Nat) (bs : List Byte) (bad : Nat → Nat → Bool) (prio : Bool) (s : State) : State :=
  countPoison uid ((badUnits a bs.length bad).map fun u => hostUnit (a + u.1)) (writeBad uid blk a bs bad prio s)

/-! ### The commands (R355 to R357) -/

def isColl (d : Descriptor) : Bool := dOp d = 0x40 || dOp d = 0x41
def collG (d : Descriptor) : Nat := fld d 260 8
/-- `COLL_KIND`; 4 for PERMUTE. -/
def collKind (d : Descriptor) : Nat := if dOp d = 0x41 then 4 else fld d 256 4
/-- The row size R. -/
def collR (c : Cmd) : Nat := slStride (cSlot c 0)
/-- Scale bytes that travel with a row (R361). -/
def collSc (c : Cmd) : Nat :=
  let f := fld c.desc 268 4
  if dOp c.desc = 0x40 ∧ mxFmt f then collR c * 8 / fmtBits (fmtOf f) / 32 else 0

/-- Entry j of a count array: rows and offset (R357). -/
def countRows (s : State) (x : ArgSlot) (j : Nat) : Nat := hostNat s (slAddr x + 8 * j) 4
def countOff (s : State) (x : ArgSlot) (j : Nat) : Nat := hostNat s (slAddr x + 8 * j + 4) 4

def sumTo (n : Nat) (f : Nat → Nat) : Nat := ((List.range n).map f).sum

/-- Members after this one in rank order, wrapping (R359). -/
def others (g : Group) : List Nat := (List.range (g.members.length - 1)).map fun i => (g.rank + 1 + i) % g.members.length

/-- Node of a member. -/
def memberNode (g : Group) (j : Nat) : Nat := g.members.getD j 0

/-- The running collective command of a group. -/
def collOf (s : State) (g : Nat) : Option Cmd :=
  s.front.cmds.find? fun c => isColl c.desc && collG c.desc = g && c.dispatched && !c.decided && c.ending.isNone

/-! ### Failure (R360) -/

/-- Mark a group FAILED and end its collectives in flight. -/
def failGroup (g : Nat) (s : State) : State :=
  let s := if (groupAt s g).st = 1 then putGroup g { groupAt s g with st := 2 } s else s
  s.front.cmds.foldl (fun s c => if isColl c.desc && collG c.desc = g then endCmd c.uid stPeerFailed noDetail s else s) s

/-- The failure signal to every other member (its scope: log entry 21). -/
def signalFailure (g : Nat) (s : State) : State :=
  let x := groupAt s g
  (others x).foldl (fun s j => sendRelease 0 0 (memberNode x j) x.sync 4 false 0xFFFFFFFF s) s

/-! ### PERMUTE mapping (Tables 12.3, 12.4) -/

def mapMoves (s : State) (c : Cmd) : Nat := hostNat s (slAddr (cSlot c 1)) 4
def mapStage (s : State) (c : Cmd) : Nat := hostNat s (slAddr (cSlot c 1) + 8) 8 % 2 ^ 52

structure Move where
  src : Nat
  dst : Nat
  rows : Nat
  member : Nat
  toArr : Bool
  deriving DecidableEq, Repr

def moveAt (s : State) (c : Cmd) (i : Nat) : Move :=
  let v := hostNat s (slAddr (cSlot c 1) + 16 + 16 * i) 16
  { src := bits v 0 32, dst := bits v 32 32, rows := bits v 64 24, member := bits v 88 16, toArr := bit v 104 }

def moves (s : State) (c : Cmd) : List Move := (List.range (mapMoves s c)).map (moveAt s c)

/-- R364: an invalid mapping. -/
def mapBad (s : State) (c : Cmd) (g : Group) : Bool :=
  let n := mapMoves s c
  decide (n = 0 ∨ n > 65536) || (moves s c).any fun m =>
    m.member ≥ g.members.length || m.rows = 0 || (m.toArr && m.rows * collR c + 4 > 16896)
    || (!m.toArr && (mapStage s c = 0 || g.xchg = 0))

/-! ### Sending (R359, R361, R365, R367) -/

/-- One part to a member: rows from local memory at `src` to row `dstRow` of the destination. -/
def sendRows (c : Cmd) (g : Group) (j src srcRow base dstRow rows : Nat) (s : State) : State :=
  let r := collR c
  let sc := collSc c
  let parts : List (Nat × Nat × Nat) :=
    [(src + srcRow * r, base + dstRow * r, rows * r)]
    ++ (if sc = 0 then [] else
      [(src + slScale (cSlot c 0) + srcRow * sc, base + slScale (cSlot c 1) + dstRow * sc, rows * sc)])
  let rg := moverRegion s
  parts.foldl (fun s p =>
    let bs := nvBytes s rg p.1 p.2.2
    let bad := fun o n => nvPoison s rg (p.1 + o) n
    if j = g.rank then writeMarked c.uid 320 p.2.1 bs bad false s
    else
      let s := countPoison c.uid ((badUnits p.2.1 bs.length bad).map fun u => peerUnit (memberNode g j) (p.2.1 + u.1)) s
      sendBytes c.uid (dTag c.desc) (memberNode g j) p.2.1 bs bad s) (drawn s)

/-- First byte of the destination of a collective's data: slot 1, or the buffer itself for PERMUTE. -/
def collDst (c : Cmd) : Nat := slAddr (cSlot c (if dOp c.desc = 0x41 then 0 else 1))

/-- A part's bytes count as received from this member itself. -/
def gotOwn (uid j n : Nat) (s : State) : State :=
  modCmd uid (fun c => { c with coll := c.coll.map fun k => { k with got := k.got.set j (k.got.getD j 0 + n) } }) s

/-- An arrival move (R367): to this member itself it passes through the local loop, port 6 of the links table. -/
def sendArrival (c : Cmd) (g : Group) (j srcRow dst rows : Nat) (s : State) : State :=
  let rg := moverRegion s
  let bs := nvBytes s rg (slAddr (cSlot c 0) + srcRow * collR c) (rows * collR c)
  let bad := nvPoison s rg (slAddr (cSlot c 0) + srcRow * collR c) (rows * collR c)
  let s := drawn s
  -- an arrival counts its bytes' units in the landing area that the destination names
  let s := if bad then countPoison c.uid (unitsOf (fun a => peerUnit (memberNode g j) (2 ^ 51 + dst * 16896 + a)) 0 bs.length) s else s
  let bs := bs ++ toBytes 4 (crc32c bs)
  if memberNode g j = myNode s then
    drainHold 6 (modLink 6 (fun l => { l with hold := l.hold ++ packetFlits s 1 (myNode s) dst (dTag c.desc) bs bad 6 0 }) s)
  else sendPacket c.uid (dTag c.desc) 1 (memberNode g j) dst bs bad s

/-- The exchange, or its last round, is complete: the parts go to the members in turn, this member's last. -/
def sendData (c : Cmd) (s : State) : State :=
  match c.coll with
  | none => s
  | some k =>
    let g := groupAt s (collG c.desc)
    let kind := collKind c.desc
    let base := collDst c
    let s := modCmd c.uid (fun c => { c with coll := c.coll.map fun k => { k with round := 2, exchanged := true, sends := [] } }) s
    k.sends.foldl (fun s p =>
      let (j, srcRow, dstRow, rows, _) := p
      let src := if kind = 4 then mapStage s c else slAddr (cSlot c 0)
      let dstRow := if kind = 2 then (if j = g.rank then k.base.getD g.rank 0
        else hostNat s (g.xchg + 8 * g.members.length + 8 * j) 8) else dstRow
      let s := sendRows c g j src srcRow base dstRow rows s
      if j = g.rank then gotOwn c.uid j (rows * (collR c + collSc c)) s else s) s

/-! ### The readiness exchange (R358) -/

/-- Raise a target and release its slot on every other member; each release follows the member's small write. -/
def startRound (c : Cmd) (second : Bool) (word : Option (Nat × (Nat → Nat))) (s : State) : State :=
  let gi := collG c.desc
  let g := groupAt s gi
  let n := g.members.length
  let s := putGroup gi (if second then { g with t2 := (g.t2 + (n - 1)) % 2 ^ 32 } else { g with t1 := (g.t1 + (n - 1)) % 2 ^ 32 }) s
  (others g).foldl (fun s j =>
    let s := match word with
      | some (at_, f) => sendSmall c.uid (dTag c.desc) (memberNode g j) (at_ + 8 * g.rank) (toBytes 8 (f j)) false s
      | none => s
    sendRelease c.uid (dTag c.desc) (memberNode g j) (g.sync + b2n second) 4 true 1 s) s

/-- Has the slot of a round reached its target? -/
def roundMet (s : State) (gi : Nat) (second : Bool) : Bool :=
  let g := groupAt s gi
  let v := (flagAt s (g.sync + b2n second)).value
  (v + 2 ^ 32 - (if second then g.t2 else g.t1)) % 2 ^ 32 < 2 ^ 31

/-- R372, R416: who completed a round, the wait counted when the exchange is over, and the wake event. -/
def roundOver (c : Cmd) (second counts : Bool) (s : State) : State :=
  let gi := collG c.desc
  let g := groupAt s gi
  let src := (flagAt s (g.sync + b2n second)).src
  let g := { g with
    lastMember := if g.members.length ≤ 1 then g.lastMember else (g.members.findIdx? (· = src)).getD g.lastMember
    waitFc := if counts then (g.waitFc + (s.clocks.fc - c.dispatchFc)) % 2 ^ 64 else g.waitFc }
  wake false (putGroup gi g s)

/-- The results that an all-to-all with a slot 3 reports: rows received and where they landed (R361). -/
def writeCounts (c : Cmd) (s : State) : State :=
  match c.coll with
  | some k =>
    if collKind c.desc = 2 ∧ hasSlot c 3 then
      let w := collR c + collSc c
      let bs := (k.expect.zip k.base).flatMap fun p => toBytes 4 (p.1 / w) ++ toBytes 4 p.2
      hostWrite (slAddr (cSlot c 3)) bs false (.cmd c.uid 320) false s
    else s
  | none => s

/-- The second round of an all-to-all: what each member sends is known, and where it lands goes back (R358). -/
def secondRound (c : Cmd) (s : State) : State :=
  let g := groupAt s (collG c.desc)
  let n := g.members.length
  let rows := fun k => if k = g.rank then countRows s (cSlot c 2) k else hostNat s (g.xchg + 8 * k) 4
  let base := (List.range n).map fun k => sumTo k rows
  let w := collR c + collSc c
  let s := modCmd c.uid (fun c => { c with coll := c.coll.map fun k =>
    { k with round := 1, base := base, expect := (List.range n).map fun j => rows j * w } }) s
  let s := match cmdOf s c.uid with
    | some c => writeCounts c s
    | none => s
  startRound c true (some (g.xchg + 8 * n, fun k => base.getD k 0)) s

/-- The stage phase and the staging barrier of PERMUTE (R365). -/
def stagePhase (c : Cmd) (s : State) : State :=
  let g := groupAt s (collG c.desc)
  let n := g.members.length
  let r := collR c
  let ms := moves s c
  let hosts := ms.filter fun m => !m.toArr
  let s := (hosts.foldl (fun (a : State × Nat) m =>
    let src := slAddr (cSlot c 0) + m.src * r
    let rg := moverRegion a.1
    (writeBad c.uid 320 (mapStage s c + a.2) (nvBytes a.1 rg src (m.rows * r)) (fun o k => nvPoison s rg (src + o) k) false (drawn a.1),
      a.2 + m.rows * r)) (s, 0)).1
  let s := ms.foldl (fun s m => if m.toArr then sendArrival c g m.member m.src (m.dst) m.rows s else s) s
  let sends := (hosts.foldl (fun (a : List (Nat × Nat × Nat × Nat × Bool) × Nat) m =>
    (a.1 ++ [(m.member, a.2, m.dst, m.rows, false)], a.2 + m.rows)) ([], 0)).1
  let toward := fun j => ((hosts.filter fun m => m.member = j).map fun m => m.rows * r).sum
  let s := modCmd c.uid (fun c => { c with coll := c.coll.map fun k =>
    { k with round := 1, sends := sends, exchanged := g.xchg = 0
           , expect := if g.xchg = 0 then List.replicate n 0 else [] } }) s
  if g.xchg = 0 then s
  else
    startRound c true (some (g.xchg + 8 * n, toward))
      (hostWrite (g.xchg + 8 * n + 8 * g.rank) (toBytes 8 (toward g.rank)) false (.cmd c.uid 320) false s)

/-- More bytes than expected have come from some member (R359). -/
def overRun (k : CollWork) : Bool := !k.expect.isEmpty && (k.got.zip k.expect).any fun p => p.1 > p.2

/-- A round that is not yet over is examined (R358, R360, R365). -/
def examineRound (gi : Nat) (s : State) : State :=
  match collOf s gi with
  | none => s
  | some c =>
    match c.coll with
    | none => s
    | some k =>
      let kind := collKind c.desc
      if k.exchanged then s
      else if k.round = 0 then
        if roundMet s gi false then
          let s := roundOver c false (kind != 2) s
          if kind = 2 then secondRound c s else if kind = 4 then stagePhase c s else sendData c s
        else s
      else if roundMet s gi true then
        let s := roundOver c true (kind = 2) s
        let g := groupAt s gi
        let s := if kind = 4 then
            modCmd c.uid (fun c => { c with coll := c.coll.map fun k =>
              { k with expect := (List.range g.members.length).map fun j => hostNat s (g.xchg + 8 * g.members.length + 8 * j) 8 } }) s
          else s
        match collOf s gi with
        | some c =>
          match c.coll with
          | some k => if overRun k then failGroup gi s else sendData c s
          | none => s
        | none => s
      else s

/-- Examine a group's exchange: at most two rounds end at once. -/
def examine (gi : Nat) (s : State) : State := examineRound gi (examineRound gi s)

/-! ### Dispatch (R355, R357, R360, R364) -/

/-- Some buffer that a count array describes would pass 2^40 bytes. -/
def countsTooLong (s : State) (c : Cmd) (g : Group) : Bool :=
  let r := collR c
  let n := g.members.length
  let x := cSlot c 2
  (List.range n).any (fun j => (countOff s x j + countRows s x j) * r > 2 ^ 40)
  || ((collKind c.desc = 1 || collKind c.desc = 3) && decide (n * countRows s x g.rank * r > 2 ^ 40))

/-- The parts of a COLLECTIVE in sending order: (member, source row, destination row, rows). -/
def collSends (s : State) (c : Cmd) (g : Group) : List (Nat × Nat × Nat × Nat × Bool) :=
  let x := cSlot c 2
  let me := g.rank
  (others g ++ [me]).map fun j =>
    match collKind c.desc with
    | 0 => (j, 0, countOff s x me, countRows s x me, false)
    | 2 => (j, countOff s x j, 0, countRows s x j, false)
    | _ => (j, countOff s x j, me * countRows s x j, countRows s x j, false)

/-- The work of a collective command at its dispatch. -/
def startColl (c : Cmd) (s : State) : State :=
  let gi := collG c.desc
  let g := groupAt s gi
  let n := g.members.length
  let x := cSlot c 2
  let w := collR c + collSc c
  let kind := collKind c.desc
  let s := putGroup gi { g with seqNo := (g.seqNo + 1) % 2 ^ 32 } s
  if g.st = 2 then endCmd c.uid stPeerFailed noDetail s
  else if kind = 4 ∧ hostPoison s (slAddr (cSlot c 1)) (16 + 16 * min 65536 (mapMoves s c)) then
    endCmd c.uid stDescInvalid 0x480 (flagCmd c.uid 3 s)
  else if kind = 4 ∧ mapBad s c g then endCmd c.uid stDescInvalid 0x480 s
  else if kind ≠ 4 ∧ hostPoison s (slAddr x) (8 * n) then endCmd c.uid stDescInvalid 0x500 (flagCmd c.uid 3 s)
  else if kind = 2 ∧ g.xchg = 0 then endCmd c.uid stDescInvalid 256 s
  else if kind ≠ 4 ∧ countsTooLong s c g then endCmd c.uid stLimit noDetail s
  else
    let (expect, base) : List Nat × List Nat :=
      match kind with
      | 0 => ((List.range n).map fun j => countRows s x j * w, (List.range n).map fun j => countOff s x j)
      | 1 | 3 => ((List.range n).map fun _ => countRows s x g.rank * w, (List.range n).map fun j => j * countRows s x g.rank)
      | _ => ([], [])
    let k : CollWork := { round := 0, exchanged := false, sends := if kind = 4 then [] else collSends s c g,
                          expect := expect, got := List.replicate n 0, base := base }
    let s := modCmd c.uid (fun c => { c with coll := some k, itemTotal := if kind = 1 ∨ kind = 3 then countRows s x g.rank else 0 }) s
    let own := fun j => countRows s x j + countOff s x j * 2 ^ 32
    examine gi (startRound c false (if kind = 2 then some (g.xchg, own) else none) s)

/-! ### What arrives (R359) -/

/-- Do the bytes lie in the range that the command expects from member j? -/
def collRange (c : Cmd) (k : CollWork) (j a n : Nat) : Bool :=
  if collKind c.desc = 4 then slAddr (cSlot c 0) ≤ a
  else
    let r := collR c
    let sc := collSc c
    let rows := k.expect.getD j 0 / (r + sc)
    let lo := collDst c + k.base.getD j 0 * r
    let ls := collDst c + slScale (cSlot c 1) + k.base.getD j 0 * sc
    decide (lo ≤ a ∧ a + n ≤ lo + rows * r) || (sc != 0 && decide (ls ≤ a ∧ a + n ≤ ls + rows * sc))

/-- Count bytes carried in for a member's part. -/
def collReceive (src a n : Nat) (s : State) : State :=
  let hit := s.front.cmds.findSome? fun c =>
    match c.coll with
    | some k =>
      if isColl c.desc && c.dispatched && !c.decided && c.ending.isNone then
        match (groupAt s (collG c.desc)).members.findIdx? (· = src) with
        | some j => if collRange c k j a n then some (c, k, j) else none
        | none => none
      else none
    | none => none
  match hit with
  | none => s
  | some (c, k, j) =>
    let k := { k with got := k.got.set j (k.got.getD j 0 + n) }
    let s := modCmd c.uid (fun c => { c with coll := some k }) s
    if overRun k then failGroup (collG c.desc) s else s

/-- All expected bytes are here and coherence-acknowledged (R360). -/
def collDone (s : State) (c : Cmd) : Bool :=
  match c.coll with
  | none => true
  | some k =>
    let g := groupAt s (collG c.desc)
    let from_ := fun (q : MemReq) =>
      match q.owner with
      | .peer n _ => g.members.contains n && (decide (collDst c ≤ q.addr + 127))
      | _ => false
    k.exchanged && k.sends.isEmpty && (k.got.zip k.expect).all (fun p => p.1 ≥ p.2)
    && !(s.ports.any fun e => e.2.queue.any from_ || e.2.writes.any fun o => from_ o.req)

end Sys2Proof.Machine
end

