-- ==== Sys2Proof/Machine/Flags.lean ====
section
/-! DEFINITION. The managed flags (R302 to R313): updates, acquires, the mirror; and the Silt path (R289 to R291). -/

namespace Sys2Proof.Machine

/-! ### Fields (Table 09.12) -/

def fIdx (d : Descriptor) : Nat := fld d 256 12
def fScope (d : Descriptor) : Nat := fld d 268 3
def fRemote (d : Descriptor) : Bool := fld d 271 1 = 1
def fNode (d : Descriptor) : Nat := fld d 272 15
def fAdd (d : Descriptor) : Bool := fld d 287 2 = 1
def fVal (d : Descriptor) : Nat := fld d 320 32
def fTimeout (d : Descriptor) : Nat := fld d 352 32

/-- A slot as 8 bytes (Table 10.4). -/
def flagWord (f : Flag) : Nat := pack [(32, f.value), (3, f.scope), (1, 0), (15, f.src), (1, b2n f.remote)]

/-! ### Acquires (R308 to R311) -/

/-- The condition of an acquire on its slot. -/
def acquireHolds (f : Flag) (d : Descriptor) : Bool :=
  if fAdd d then decide (f.value ≥ fVal d) else f.value = fVal d

/-- R309: every line of every read cache is invalid, and lines being filled are discarded on arrival. -/
def invalidateCaches (s : State) : State :=
  let filling := fun r => s.ports.flatMap fun e =>
    ((e.2.queue ++ e.2.reads.map (·.req)).filter fun q =>
      !q.write && (match q.owner with | .feed r' _ _ _ => r' == r | _ => false)).map fun q => q.addr / 128
  { s with regions := s.regions.map fun e =>
      (e.1, { e.2 with lines := [], staged := [], discard := (filling e.1).foldl (fun l x => setIns x l) e.2.discard }) }

/-- R311: no release covers the slot's writers at the acquire's scope. -/
def scopeMismatch (f : Flag) (d : Descriptor) : Bool := f.scope = 7 || decide (f.scope < fScope d)

/-- The acquire's condition is met in FC `fc` (R308, R309, R311, R416). -/
def meetAcquire (uid fc : Nat) (s : State) : State :=
  match cmdOf s uid with
  | none => s
  | some c =>
    let mis := scopeMismatch (flagAt s (fIdx c.desc)) c.desc
    let inv := decide (fScope c.desc ≥ 3)
    let s := if mis then odBump 0x2400 3 1 (flagCmd uid 6 s) else s
    let s := modCmd uid (fun c => { c with
      met := true, countA := fc - c.dispatchFc, invEnd := if inv then fc + 32 else 0 }) s
    wake false (if inv then invalidateCaches s else s)

/-- The timeout of an acquire has not run out by FC `fc`; updates come before timeouts within one FC (R310). -/
def inTime (c : Cmd) (fc : Nat) : Bool := fTimeout c.desc = 0 || decide (fc ≤ c.dispatchFc + fTimeout c.desc)

/-- Evaluate an acquire that waits, in FC `fc`. -/
def evalAcquire (fc : Nat) (s : State) (c : Cmd) : State :=
  if dOp c.desc = 0x61 && c.dispatched && !c.met && !c.decided && c.ending.isNone && inTime c fc
      && acquireHolds (flagAt s (fIdx c.desc)) c.desc then meetAcquire c.uid fc s else s

/-- The evaluation of an acquire at its dispatch (R308). -/
def firstEval (c : Cmd) (s : State) : State := evalAcquire s.clocks.fc s c

/-! ### Updates (R304, R305, R312) -/

/-- After an update of a slot: acquires are evaluated again, the mirror is written, exchanges are examined and an
armed parity fault fires. -/
def afterUpdate (i : Nat) (s : State) : State :=
  let inj := fires 0x21 0 s
  let s := if inj.isSome then report 0x21 0 i 0 0 none true (disarm 0x21 0 s) else s
  let base := odv s 0x2400 1
  let s := if base = 0 then s else hostWrite (base + 8 * i) (toBytes 8 (flagWord (flagAt s i))) false .engine true s
  let s := s.front.cmds.foldl (fun s c => if fIdx c.desc = i then evalAcquire (flagAt s i).setFc s c else s) s
  s.groups.foldl (fun s e => if e.2.st = 1 && (e.2.sync == i || e.2.sync + 1 == i) then examine e.1 s else s) s

/-- R304: one release applied to a slot in FC `fc`; a set on a group's first slot is its failure signal (R360). -/
def applyRelease (i : Nat) (add : Bool) (val scope src : Nat) (remote : Bool) (fc : Nat) (s : State) : State :=
  let f := flagAt s i
  let f' : Flag := { value := if add then (f.value + val) % 2 ^ 32 else val % 2 ^ 32
                     scope := if add then min f.scope scope else scope
                     src := src, remote := remote, setFc := fc }
  let s := putFlag i f' s
  let s := if add then s else
    s.groups.foldl (fun s e => if e.2.st = 1 && e.2.sync == i then failGroup e.1 s else s) s
  afterUpdate i s

/-- R313: a slot at its reset value. -/
def resetFlag (i : Nat) (s : State) : State := afterUpdate i (putFlag i { flag0 with setFc := s.clocks.fc } s)

/-- Every earlier write from the sender is coherence-acknowledged (R306). -/
def peerWritesDone (s : State) (src arr : Nat) : Bool :=
  let mine := fun (q : MemReq) => match q.owner with
    | .peer n a => n == src && decide (a < arr)
    | _ => false
  !(s.ports.any fun e => e.2.queue.any mine || e.2.writes.any fun o => mine o.req)

/-- A received release may be applied now. -/
def relReady (s : State) (r : RemoteRel) : Bool := r.scope != 4 || peerWritesDone s r.src r.arr

/-- Of two received releases, the one applied first: by arrival, and by port within one FC (R305). -/
def relBefore (x y : RemoteRel) : Bool :=
  decide (x.fc < y.fc ∨ (x.fc = y.fc ∧ (x.port < y.port ∨ (x.port = y.port ∧ x.arr < y.arr))))

/-- The received release that is applied next. -/
def nextRel (s : State) : Option RemoteRel :=
  (s.remoteRels.filter (relReady s)).foldl (fun m r =>
    match m with
    | none => some r
    | some x => if relBefore r x then some r else some x) none

/-- R306: the first applicable received release is applied and acknowledged. -/
def execRemoteFlagApply (s : State) : Out :=
  match nextRel s with
  | none => .next s
  | some r =>
    let s1 := { s with remoteRels := s.remoteRels.filter fun x => x.arr != r.arr }
    let s1 := applyRelease r.slot r.add r.val r.scope r.src true s1.clocks.fc s1
    event (live s) s (apexProgress (if r.src = myNode s then modCmd r.num (fun c => { c with acksOut := c.acksOut - 1 }) s1
      else pushAck r.src r.num 1 s1))

/-- R310: the timeout of a waiting acquire. -/
def execAcquireTimeout (tag : Nat) (s : State) : Out :=
  match byTag s tag with
  | none => .next s
  | some c =>
    event (live s && dOp c.desc = 0x61 && c.dispatched && !c.met && !c.decided && c.ending.isNone && fTimeout c.desc != 0
        && decide (s.clocks.fc ≥ c.dispatchFc + fTimeout c.desc)) s
      (odBump 0x2400 5 1 (modCmd c.uid (fun c => { c with countA := fTimeout c.desc }) (endCmd c.uid stTimeout noDetail s)))

/-- R309: the 32 FC of an invalidation are over. -/
def execAcquireInvalidationEnd (tag : Nat) (s : State) : Out :=
  match byTag s tag with
  | none => .next s
  | some c =>
    event (live s && c.met && c.invEnd != 0 && decide (s.clocks.fc ≥ c.invEnd)) s
      (modCmd c.uid (fun c => { c with invEnd := 0, readyFc := s.clocks.fc + 1 }) s)

/-! ### Dispatch of the control commands and of the movers -/

/-- A local release is applied in the next FC and decided in the FC after that; a remote one leaves as one flit (R306). -/
def startRelease (c : Cmd) (s : State) : State :=
  let d := c.desc
  if !fRemote d then
    let r : LocalRel := { uid := c.uid, slot := fIdx d, add := fAdd d, val := fVal d, scope := fScope d, fc := s.clocks.fc }
    modCmd c.uid (fun c => { c with readyFc := s.clocks.fc + 2 }) { s with localRels := s.localRels ++ [r] }
  else if fNode d = myNode s then
    let r : RemoteRel := { port := 6, num := c.uid, src := myNode s, slot := fIdx d, add := fAdd d, val := fVal d,
                           scope := fScope d, arr := s.arrNo, fc := s.clocks.fc }
    modCmd c.uid (fun c => { c with acksOut := c.acksOut + 1 }) { s with remoteRels := s.remoteRels ++ [r], arrNo := s.arrNo + 1 }
  else sendRelease c.uid (dTag d) (fNode d) (fIdx d) (fScope d) (fAdd d) (fVal d) s

/-- A new FC: local releases dispatched in an earlier one are applied, in order of dispatch, after the dictionary writes that
took effect before it and before any received release (R305, R306). -/
def applyLocal (s : State) : State :=
  (s.localRels.filter fun r => r.fc < s.clocks.fc).foldl (fun s r =>
    applyRelease r.slot r.add r.val r.scope (myNode s) false s.clocks.fc s)
    { s with localRels := s.localRels.filter fun r => !(r.fc < s.clocks.fc) }

/-- R289, R290: a Silt transfer in units that end at 64-byte boundaries, in ascending order. -/
def startSilt (c : Cmd) (s : State) : State :=
  let d := c.desc
  let n := fld d 256 9
  let inl := fld d 265 1 = 1
  let dst := fld d 320 52
  let src := fld d 384 52
  let bs := if inl then toBytes n (fld d 480 512) else hostBytes s src n
  let remote := fld d 266 1 = 1 && fld d 267 15 != myNode s
  (List.range ((dst + n - 1) / 64 - dst / 64 + 1)).foldl (fun s i =>
    let lo := max dst (64 * (dst / 64 + i))
    let hi := min (dst + n) (64 * (dst / 64 + i) + 64)
    let part := (bs.drop (lo - dst)).take (hi - lo)
    let bad := !inl && hostPoison s (src + (lo - dst)) (hi - lo)
    let s := if bad then countPoison c.uid [if remote then peerUnit (fld d 267 15) lo else hostUnit lo] s else s
    if remote then sendSmall c.uid (dTag d) (fld d 267 15) lo part bad s
    else hostWrite lo part bad (.cmd c.uid 320) true (noteTables lo part.length s)) s

/-- R293, R297: COPY, to host memory or by broadcast to every present block's scratchpad; a poisoned unit of the
broadcast counts once. -/
def startCopy (c : Cmd) (s : State) : State :=
  let n := fld c.desc 256 40
  let a := slAddr (cSlot c 0)
  let t := cSlot c 1
  let r := moverRegion s
  let bs := nvBytes s r a n
  let bad := fun o k => nvPoison s r (a + o) k
  let s := drawn s
  if slLoc t = 0 then writeMarked c.uid 320 (slAddr t) bs bad false s
  else
    let us := badUnits (slAddr t) n bad
    let s := (presentBlocks s).foldl (fun s b =>
      us.foldl (fun s u => spWrite b (slAddr t + u.1) ((bs.drop u.1).take u.2) true s) (spWrite b (slAddr t) bs false s)) s
    countPoison c.uid (us.map fun u => spUnit 0 (slAddr t + u.1)) s

end Sys2Proof.Machine
end

