-- ==== Sys2Proof/Machine/Special.lean ====
section
/-! DEFINITION. The special-function unit (R103 to R112, R127). The seed ROM is not given, so a result is free within the
limits of Tables 04.4 and 04.5 and the monotonicity of R108 and R109, about the true value, which a reference of about 128
bits computes (log entry 4). -/

namespace Sys2Proof.Machine

/-! ### True values, to about 128 bits -/

/-- ln 2 and √(2/π) times 2^128. -/
def ln2Fix : Nat := 235865763225513294137944142764154484399
def ln2Fx : Fx := ⟨false, ln2Fix, -128⟩
def gateFx : Fx := ⟨false, 271506046879672464325182014351570923903, -128⟩

/-- log₂e and ln 2 held to 48 bits (R113, R123): the nearest 48-bit values (log entry 8). -/
def log2e48 : Val := .fin ⟨false, 203041276517400, -47⟩
def ln2w48 : Val := .fin ⟨false, 195103586505167, -48⟩

/-- Quotient to about 136 bits, rounded towards zero. -/
def fxDiv (a b : Fx) : Fx :=
  let k : Nat := 136 + bitLen b.man - bitLen a.man
  ⟨a.neg != b.neg, a.man * 2 ^ k / b.man, a.exp - b.exp - k⟩

def fxTrim (x : Fx) : Fx := rneU 136 x

/-- Floor of `x · 2^128`. -/
def fxFix (x : Fx) : Int := fxFloor (fxScale x 128)

/-- e^(y·2^-128) · 2^128 for 0 ≤ y < 2^128, by its series. -/
def expSeries (y : Nat) : Nat :=
  ((List.range 40).foldl (fun (a : Nat × Nat) k => let t := a.1 * y / 2 ^ 128 / (k + 1); (t, a.2 + t))
    (2 ^ 128, 2 ^ 128)).2

/-- 2^x. -/
def exp2Ref (x : Fx) : Fx :=
  let n := fxFloor x
  let f := (fxFix x - n * 2 ^ 128).toNat
  ⟨false, expSeries (f * ln2Fix / 2 ^ 128), n - 128⟩

/-- e^x for x ≤ 200; far below, a value that rounds away. -/
def expRef (x : Fx) : Fx :=
  if x.man = 0 then fxOne
  else if fxLt x ⟨true, 200, 0⟩ then ⟨false, 1, -300⟩ else exp2Ref (fxDiv x ln2Fx)

/-- 2·atanh z for 0 ≤ z ≤ 1/3. -/
def atanh2 (z : Fx) : Fx :=
  let z2 := (fxFix (fxMul z z)).toNat
  let s := (List.range 45).foldl (fun s k => 2 ^ 128 / (2 * (44 - k) + 1) + z2 * s / 2 ^ 128) 0
  fxTrim (fxMul z ⟨false, s, -127⟩)

/-- log₂ of a positive value. -/
def log2Ref (x : Fx) : Fx :=
  let m := fxScale x (-fxTop x)
  fxAdd (fxOfInt (fxTop x)) (fxDiv (atanh2 (fxDiv (fxSub m fxOne) (fxAdd m fxOne))) ln2Fx)

/-- 1/(1 + e^-x). -/
def sigmoidRef (x : Fx) : Fx :=
  let u := expRef ⟨true, x.man, x.exp⟩
  fxDiv (if x.neg then u else fxOne) (fxAdd fxOne u)

/-- Integer square root by bits. -/
def sqrtBits (n : Nat) : Nat :=
  let k := (bitLen n + 1) / 2
  (List.range k).foldl (fun r i => let c := r + 2 ^ (k - 1 - i); if c * c ≤ n then c else r) 0

/-- √x of a non-negative value to more than 128 bits, with a sticky bit. -/
def sqrtRef (x : Fx) : Fx :=
  let k : Nat := 280 + (if (x.exp - 280) % 2 = 0 then 0 else 1)
  let n := x.man * 2 ^ k
  let r := sqrtBits n
  ⟨false, 2 * r + (if r * r = n then 0 else 1), (x.exp - k) / 2 - 1⟩

/-- The true value of function `f` of Table 04.1 at a finite argument of its domain. -/
def sfTrue (f : Nat) (x : Fx) : Fx :=
  match f with
  | 1 => exp2Ref x
  | 2 => expRef x
  | 3 => log2Ref x
  | 4 => fxDiv fxOne x
  | 5 => fxDiv fxOne (sqrtRef x)
  | 6 => sqrtRef x
  | 7 => sigmoidRef x
  | 8 =>
    if fxTop x < -20 then fxSub x (fxDiv (fxMul x (fxMul x x)) ⟨false, 3, 0⟩)
    else
      let u := expRef ⟨true, x.man, x.exp + 1⟩
      let r := fxDiv (fxSub fxOne u) (fxAdd fxOne u)
      { r with neg := x.neg }
  | 9 => fxTrim (fxMul x (sigmoidRef x))
  | 10 =>
    let c := fxDiv ⟨false, 44715, 0⟩ ⟨false, 1000000, 0⟩
    let z := fxTrim (fxMul gateFx (fxAdd x (fxMul c (fxMul x (fxMul x x)))))
    fxTrim (fxMul x (sigmoidRef (fxScale z 1)))
  | _ =>
    let u := expRef ⟨true, x.man, x.exp⟩
    let l := atanh2 (fxDiv u (fxAdd ⟨false, 2, 0⟩ u))
    if x.neg then l else fxAdd x l

/-! ### Limits -/

/-- A limit of Table 04.4: an exact result, the nearest result (R105), an error in ulp of the true value, an absolute error
2^e, or +0 or the nearest subnormal. -/
inductive Lim where
  | exact (v : Val)
  | near
  | ulp (n : Nat)
  | abs (e : Int)
  | low
  deriving DecidableEq, Repr

/-- `n / d` as a bound to compare with: x < n/d. -/
def ltRat (x : Fx) (n : Int) (d : Nat) : Bool := fxLt (fxMul x (fxOfInt d)) (fxOfInt n)
def gtRat (x : Fx) (n : Int) (d : Nat) : Bool := fxLt (fxOfInt n) (fxMul x (fxOfInt d))

/-- Result at a zero of either sign (Table 04.5), where it is finite and not zero. -/
def sfAtZero (f : Nat) : Val :=
  match f with
  | 1 | 2 => vOne
  | 7 => .fin ⟨false, 1, -1⟩
  | 11 => .fin ⟨false, 0xB17218, -24⟩
  | _ => vZero

/-- Table 04.4 for a finite argument of the function's domain; `k` selects the Kaolin column. The residuals of reciprocal,
rsqrt and sqrt are exact, so that the correction step selects the nearest result (R105, log entry 4). The exact results
hold in Kaolin mode too, log2 of 1 among them (R127, log entry 70). -/
def sfLim (k : Bool) (f : Nat) (x : Fx) : Lim :=
  let u (a b : Nat) : Lim := .ulp (if k then b else a)
  if x.man = 0 then .exact (sfAtZero f)
  else
    match f with
    | 1 =>
      if !ltRat x 128 1 then .exact (.inf false) else if ltRat x (-150) 1 then .exact vZero
      else if ltRat x (-149) 1 then .ulp 1 else u 1 2
    | 2 =>
      if gtRat x 8872284 100000 then .exact (.inf false) else if ltRat x (-10328) 100 then .exact vZero else u 2 3
    | 3 => if (fxSub x fxOne).man = 0 then .exact vZero else u 2 3
    | 4 => if k then .ulp 2 else .near
    | 5 => if k then .ulp 2 else .near
    | 6 => if k then .ulp 1 else .near
    | 7 =>
      if !ltRat x 9 1 then .ulp (if k then 2 else 1)
      else if gtRat x (-9) 1 then u 2 4 else if ltRat x (-103) 1 then .low else u 4 6
    | 8 => if ltRat (fxAbs x) 9 1 then u 2 4 else .exact (.fin ⟨x.neg, 1, 0⟩)
    | 9 =>
      if ltRat x (-103) 1 then .exact vNegZero else if ltRat x (-87) 1 then .abs (-126) else u 3 6
    | 10 => if ltRat x (-10) 1 then .abs (if k then -29 else -30) else u 3 6
    | _ => if gtRat x 20 1 then .exact (.fin x) else if ltRat x (-87) 1 then u 2 3 else u 2 4

/-- Does a finite candidate for the 34-bit result of a gate form meet the limit about the true value `y`? -/
def limOk (l : Lim) (y c : Fx) : Bool :=
  let d := fxAbs (fxSub c y)
  match l with
  | .exact _ => false
  | .near | .low => fxLe d ⟨false, 1, max (fxTop y - 23) (-149)⟩
  | .ulp n => fxLe d ⟨false, n, max (fxTop y - 23) (-149)⟩
  | .abs e => fxLe d ⟨false, 1, e⟩

/-! ### FP32 words as ordinals
FP32 words of one sign, as numbers, stand in the order of their values; the ordinal of a negative value is negative. -/

def infWord : Nat := 0x7F800000
def maxWord : Nat := 0x7F7FFFFF

def ordOf (w : Word) : Int := if w.toNat < 2 ^ 31 then (w.toNat : Int) else -((w.toNat - 2 ^ 31 : Nat) : Int)

/-- The value of an ordinal; ordinal 0 is the zero of the sign that `neg` gives. -/
def ordVal (neg : Bool) (o : Int) : Val := w32 (BitVec.ofNat 32 (o.natAbs + (if o < 0 ∨ (o = 0 ∧ neg) then 2 ^ 31 else 0)))

def ordFx (o : Int) : Fx :=
  match ordVal false o with
  | .fin x => x
  | _ => fxZero

/-- Greatest FP32 word not above a non-negative value, and least one not below it. -/
def floorWord (x : Fx) : Nat :=
  let e := max (fxTop x - 23) (-149)
  if x.man = 0 then 0 else min infWord (((e + 149).toNat * 2 ^ 23) + (fxFloor (fxScale x (-e))).toNat)

def ceilWord (x : Fx) : Nat :=
  let e := max (fxTop x - 23) (-149)
  if x.man = 0 then 0 else min infWord (((e + 149).toNat * 2 ^ 23) + (fxCeil (fxScale x (-e))).toNat)

/-- Least and greatest word that a limit allows about a true magnitude `a` below 2^128 (R106). At the foot of a binade the
bound of the smaller ulp below it holds, so that both ends rise with `a`. -/
def limWords (l : Lim) (a : Fx) : Nat × Nat :=
  let huge := floorWord a ≥ maxWord && ceilWord a > maxWord
  if huge then (maxWord, infWord)
  else
    match l with
    | .ulp n =>
      let t := fxTop a
      let u : Fx := ⟨false, n, max (t - 23) (-149)⟩
      let lo := fxSub a u
      let foot := if t > -126 then fxSub ⟨false, 1, t⟩ ⟨false, n, t - 24⟩ else lo
      let lo := if fxLt lo foot then foot else lo
      (if lo.neg then 0 else ceilWord lo, min maxWord (floorWord (fxAdd a u)))
    | .low => (if fxLe a ⟨false, 1, -149⟩ then 0 else 1, 1)
    | _ => let w := floorWord (rneP 24 (-149) a); (w, w)

/-- The result for a true magnitude among the words that a limit allows: the first whose cut is not below it. The cut of a
word is a free value, and whatever the cuts are, the result rises with the true magnitude (R108, R109). -/
def pickWord (code lo hi : Nat) (a : Fx) : Nat :=
  (((List.range (hi - lo)).map (lo + ·)).find? fun v =>
    let c := Config.sfCut code v
    fxLe a ⟨false, c.1, c.2⟩).getD hi

/-- A monotone result within 2^e of its true magnitude `a`, by halving the words from `lo` to `hi`; `al` and `ah` bound the
true magnitudes that lead here. The free cut between two words lies where both keep the limit. -/
def halve (code : Nat) (e : Int) (a : Fx) : Nat → Nat → Nat → Fx → Fx → Nat
  | 0, lo, _, _, _ => lo
  | n + 1, lo, hi, al, ah =>
    if hi ≤ lo then lo
    else
      let mid := (lo + hi + 1) / 2
      let least := fxSub (ordFx mid) ⟨false, 1, e⟩
      let most := fxAdd (ordFx ((mid : Int) - 1)) ⟨false, 1, e⟩
      let c0 := if fxLt al least then least else al
      let c1 := if fxLt most ah then most else ah
      let part : Fx := ⟨false, (Config.sfCut code mid).1 % 2 ^ 64, -64⟩
      let c := fxTrim (fxAdd c0 (fxTrim (fxMul (fxSub c1 c0) part)))
      if fxLe c a then halve code e a n mid hi c ah else halve code e a n lo (mid - 1) al c

/-- The result for a true value, as an ordinal, before the segments of a function are held together. Absolute limits occur
below -87 of silu and below -10 of gelu_tanh; results there do not pass beyond what the limit at that end allows. -/
def rawOrd (k : Bool) (f code : Nat) (l : Lim) (y : Fx) : Int :=
  let a := fxAbs y
  let w : Nat :=
    match l with
    | .exact v => (ordOf (toW32 v)).natAbs
    | .abs e =>
      let ah := fxAbs (sfTrue f ⟨true, if f = 9 then 87 else 10, 0⟩)
      halve code e a 33 0 (limWords (.ulp (if k then 6 else 3)) ah).2 fxZero ah
    | l => if fxTop a ≥ 128 then infWord else (fun p => pickWord code p.1 p.2 a) (limWords l a)
  if y.neg then -(w : Int) else w

/-! ### Segments (R108, R109, Table 04.6) -/

/-- A stretch of the arguments of a function, from the ordinal `start` up to the next one's: how many ulp its first result may
lie against the direction of the true function, whether that falls, and whether the direction turns at the start. -/
structure Seg where
  start : Int
  slack : Nat
  down : Bool
  turn : Bool
  deriving DecidableEq, Repr

def segLow : Int := -0x7F800000

/-- Segments in falling order of their starts: the seams of Table 04.6, the ranges of Table 04.4, and the exact point 0. Of
silu and gelu_tanh in Kaolin mode no direction is stated (R127). -/
def sfSegs (k : Bool) (f : Nat) : List Seg :=
  let up (o : Int) (slack : Nat) : Seg := { start := o, slack := slack, down := false, turn := false }
  let dn (o : Int) (slack : Nat) : Seg := { start := o, slack := slack, down := true, turn := false }
  let seam (o : Int) : List Seg := if k then [] else [up o 1]
  let first := up segLow 0
  match f with
  | 1 | 2 => [up 1 0, up 0 0, first]
  | 7 =>
    [up 0x41100000 (if k then 0 else 1)] ++ seam 0x40800000 ++ seam 0x3F800000 ++ [up 1 0, up 0 0] ++ seam (-0x3F800000)
    ++ [up (-0x410FFFFF) 0] ++ seam (-0x41100000) ++ seam (-0x41800000) ++ [up (-0x42CE0000) 0, first]
  | 8 =>
    [up 0x41100000 0] ++ seam 0x40900000 ++ seam 0x40200000 ++ seam 0x3F800000 ++ seam 0x3E800000 ++ seam (-0x3E800000)
    ++ seam (-0x3F800000) ++ seam (-0x40200000) ++ seam (-0x40900000) ++ [up (-0x410FFFFF) 0, first]
  | 9 =>
    if k then [first]
    else [up 0x40800000 1, up (-0x3F800000) 1, { start := -0x3FA3A5E3, slack := 0, down := false, turn := true },
      dn (-0x41100000) 1, dn (-0x42AE0000) 0, dn (-0x42CE0000) 0, dn segLow 0]
  | 10 =>
    if k then [first]
    else [up 0x40000000 1, up (-0x3F000000) 1, { start := -0x3F4075F7, slack := 0, down := false, turn := true },
      dn (-0x40400000) 1, dn (-0x41200000) 0, dn segLow 0]
  | 11 => [up 0x41A00001 0, up 1 0, up 0 0, up (-0x42AE0000) 0, first]
  | _ => [first]

/-- How far the results of a segment may go towards the next one's: to the limit at its start, and its slack. -/
def capOrd (k : Bool) (f : Nat) (g : Seg) (o : Int) (next : Option Seg) : Int :=
  match next with
  | none => o
  | some n =>
    if n.turn then o
    else
      let x := ordFx n.start
      let e : Int × Int :=
        match sfLim k f x with
        | .exact v => let w := ordOf (toW32 v); (w, w)
        | .abs _ => (o, o)
        | l =>
          let y := sfTrue f x
          let p := limWords l (fxAbs y)
          if y.neg then (-(p.2 : Int), -(p.1 : Int)) else ((p.1 : Int), (p.2 : Int))
      if g.down then max o (e.1 - n.slack) else min o (e.2 + n.slack)

/-- The result, as an ordinal, at the argument of ordinal `x`: that of its segment, held to the last result of the segment
before it, from which it steps back by the slack at most. -/
def segOrd (k : Bool) (f : Nat) : List Seg → Option Seg → Int → Int
  | [], _, _ => 0
  | g :: before, next, x =>
    if x < g.start then segOrd k f before (some g) x
    else
      match sfLim k f (ordFx x) with
      | .exact v => ordOf (toW32 v)
      | l =>
        let o := capOrd k f g (rawOrd k f (f + 16 * b2n k + 32 * before.length) l (sfTrue f (ordFx x))) next
        if g.turn || before.isEmpty then o
        else
          let p := segOrd k f before (some g) (g.start - 1)
          if g.down then min o (p + g.slack) else max o (p - g.slack)

/-- Table 04.5: special inputs and negative arguments outside the domain; none for the rest. -/
def sfSpecial (f : Nat) (v : Val) : Option Val :=
  match v with
  | .nan _ => some vNan
  | .inf n =>
    match f, n with
    | 1, false | 2, false => some (.inf false)
    | 1, true | 2, true => some vZero
    | 3, false => some (.inf false)
    | 4, n => some (.fin ⟨n, 0, 0⟩)
    | 5, false => some vZero
    | 6, false => some (.inf false)
    | 7, false => some vOne
    | 7, true => some vZero
    | 8, n => some (.fin ⟨n, 1, 0⟩)
    | 9, false | 10, false => some (.inf false)
    | 9, true | 10, true => some vNegZero
    | 11, false => some (.inf false)
    | 11, true => some vZero
    | _, _ => some vNan
  | .fin x =>
    if x.man = 0 then
      match f with
      | 3 => some (.inf true)
      | 4 | 5 => some (.inf x.neg)
      | 1 | 2 | 7 | 11 => some (sfAtZero f)
      | _ => some (.fin x)
    else if x.neg ∧ (f = 3 ∨ f = 5 ∨ f = 6) then some vNan
    else none

/-- Function `f` of Table 04.1 at an FP32 value; `k` in Kaolin mode (R127). Code 0 passes the value. -/
def sf (k : Bool) (f : Nat) (v : Val) : Val :=
  if f = 0 then v
  else
    match sfSpecial f v, v with
    | some r, _ => r
    | none, .fin x =>
      match sfLim k f x with
      | .exact r => r
      | l =>
        let y := sfTrue f x
        if f = 4 then ordVal y.neg (rawOrd k f (f + 16 * b2n k + 32 * b2n x.neg) l y)
        else ordVal y.neg (segOrd k f (sfSegs k f) none (ordOf (toW32 v)))
    | none, _ => vNan

/-- The gate form f(a) · b (R110): the 34-bit result times b, one rounding, overflow to the infinity. -/
def sfGate (k : Bool) (f : Nat) (a b : Val) : Val :=
  match sfSpecial f a, a with
  | some r, _ => rne32Inf (valMul r b)
  | none, .fin x =>
    let y := sfTrue f x
    match sfLim k f x with
    | .exact v => rne32Inf (valMul v b)
    | l =>
      let w := Config.sfWide (f + (if k then 16 else 0)) (toW32 a)
      let c : Fx := ⟨y.neg, w.1 % 2 ^ 34, w.2⟩
      rne32Inf (valMul (.fin (if limOk l y c then c else rneU 34 y)) b)
  | none, _ => vNan

/-- An XF word (R111). -/
def decXf (w : BitVec 24) : Val := decIeee 10 13 w.toNat

/-- exp2 in XF mode (R112): within 1 ulp of XF for |t| ≤ 511; wider arguments fail the guard of R119, which
discards them. -/
def exp2Xf (v : Val) : Val :=
  match v with
  | .nan _ => vNan
  | .inf n => if n then vZero else .inf false
  | .fin t =>
    if fxLt ⟨false, 511, 0⟩ (fxAbs t) then (if t.neg then vZero else .inf false)
    else
      let y := exp2Ref t
      match decXf (Config.xfRaw (toW32 v)) with
      | .fin c => if fxLe (fxAbs (fxSub c y)) ⟨false, 1, fxTop y - 13⟩ then .fin c else .fin (rneU 14 y)
      | _ => .fin (rneU 14 y)

end Sys2Proof.Machine
end

