-- ==== Sys2Proof/Machine/Tile.lean ====
section
/-! DEFINITION. Accumulation groups, exact quotients, and the quantisers of the BVU (R55, R61, R116, R142 to R145). -/

namespace Sys2Proof.Machine

/-! ### Accumulation groups (R53, R55, R58 to R61) -/

/-- The values of a tile. -/
def tileVals (t : TileV) : List Val := t.vals.map fun w => decP64 w.toNat

def w64 (v : Val) : Word64 := BitVec.ofNat 64 (encP64 v)

/-- A tile of values. -/
def tileOf (vs : List Val) (sat poison : Nat) : TileV := { vals := vs.map w64, sat := sat, poison := poison }

/-- A group that opens with the values of R53. -/
def accOf (vs : List Val) : Acc := { tile := tileOf vs 0 0, rounds := 0, total := 0 }

/-- A mask of the problems that hold for `bad`. -/
def maskOf (np : Nat) (bad : Nat → Bool) : Nat := ((List.range np).map fun p => if bad p then 2 ^ p else 0).sum

/-- One rounding has taken place in every output. -/
def roundDone (a : Acc) : Acc := { a with rounds := a.rounds + 1, total := a.total + 1 }

/-- A segment of 65 536 roundings is complete: the group closes (R61). -/
def segFull (long : Bool) (a : Acc) : Bool := long && decide (a.rounds ≥ 65536)

/-- The group that begins after a segment: +0 in every output, the roundings of the output run on (R61). -/
def nextSeg (a : Acc) : Acc :=
  { a with rounds := 0, tile := { vals := a.tile.vals.map fun _ => 0#64, sat := 0, poison := 0 } }

/-- Put new values into a group of `np` problems, each with its own `SAT` bit (R49, R78). -/
def accPut (np : Nat) (a : Acc) (rs : List (Sat Val)) : Acc :=
  let size := rs.length / max np 1
  { a with tile := { a.tile with vals := rs.map fun r => w64 r.1
                               , sat := a.tile.sat ||| maskOf np fun p => ((rs.drop (p * size)).take size).any (·.2) } }

/-- What a step leaves: the group, a segment that it closed, and whether it split (R45, R61). -/
structure StepRes where
  acc : Acc
  seg : Option Acc
  split : Bool
  deriving DecidableEq, Repr

/-- A rounding may complete a segment; the roundings that follow begin the next one. -/
def roundInto (long : Bool) (r : StepRes) (f : Acc → Acc) : StepRes :=
  let a := roundDone (f (if segFull long r.acc then nextSeg r.acc else r.acc))
  { r with acc := a, seg := if segFull long r.acc then some r.acc else r.seg }

/-- One step over every output of a group (R44, R45): `ps` holds each output's g products. The flag tells that the
step split. -/
def accStep (long : Bool) (np g : Nat) (ps : List (List Val)) (a : Acc) : StepRes :=
  if ps.all fun p => span p ≤ 96 then
    roundInto long { acc := a, seg := none, split := false } fun a => accPut np a (List.zipWith stepWhole (tileVals a.tile) ps)
  else
    (List.range g).foldl (fun r i =>
      roundInto long r fun a => accPut np a (List.zipWith (fun v p => rneAf50 (valAdd v (p.getD i vZero))) (tileVals a.tile) ps))
      { acc := a, seg := none, split := true }

/-- One step of Kaolin mode (R126). -/
def accKaolin (np : Nat) (ps : List (List Val)) (a : Acc) : Acc := accPut np a (List.zipWith stepKaolin (tileVals a.tile) ps)

/-- The sum of two tiles, output by output, one AF50 rounding each (R61, R66). -/
def tileAdd (np : Nat) (t u : TileV) : TileV :=
  let a := accPut np { acc0 with tile := t } (List.zipWith (fun a b => rneAf50 (valAdd a b)) (tileVals t) (tileVals u))
  { a.tile with sat := a.tile.sat ||| u.sat, poison := t.poison ||| u.poison }

/-- `combine` of R61 as it runs: a part meets the sums of its own size on top of the stack (newest first). -/
def stackPush (np : Nat) : List (TileV × Nat) → TileV → Nat → List (TileV × Nat)
  | [], t, n => [(t, n)]
  | (u, k) :: rest, t, n => if k = n then stackPush np rest (tileAdd np u t) (2 * n) else (t, n) :: (u, k) :: rest

/-- The end of `combine`: the sums left on the stack, newest first. -/
def stackEnd (np : Nat) : List (TileV × Nat) → TileV
  | [] => tile0
  | (t, _) :: rest => rest.foldl (fun v e => tileAdd np e.1 v) t

/-- `combine` over tiles in order (R61). -/
def combineTiles (np : Nat) (ts : List TileV) : TileV := stackEnd np (ts.foldl (fun l t => stackPush np l t 1) [])

/-! ### Products -/

/-- An operand held in the stationary registers (R81 to R87): `width` lines of the tile, `span` positions a slice. -/
structure Held where
  /-- the slice's name in the registers -/
  key : Nat → List Nat
  width : Nat
  span : Nat
  /-- element and scale of a line at a position -/
  elem : Nat → Nat → Val × Val
  /-- the product of an output at a position, given the held operand -/
  term : (Nat → Nat → Val × Val) → Nat → Nat → Val

/-- A product that the array runs: `outs` outputs, each a reduction of `len` positions in steps of `g`. It is computed
from the state and never held in it. -/
structure Prod where
  outs : Nat
  /-- problems that share the bank (R78) -/
  np : Nat
  /-- first step and number of steps (R65) -/
  lo : Nat
  steps : Nat
  g : Nat
  len : Nat
  /-- product of an output and a reduction position -/
  term : Nat → Nat → Val
  init : List Val
  /-- lines of host memory that it reads, and those of them that hold keys or values; arrival entries -/
  lines : List Nat
  kv : List Nat := []
  entries : List Nat
  /-- poison that reaches its outputs -/
  poison : Nat
  /-- what the BVU's choice does to the open group before the first step (R121, R128, R241) -/
  scale : Option (Acc → Acc)
  /-- the open group that it continues; none when it has a group of its own -/
  target : Option Nat
  /-- the number of its group -/
  group : Nat
  /-- the bank that the group is bound to; none for any free one (R165) -/
  bank : Option Nat
  /-- what becomes of the group at the product's end: 0 it stays open, 1 it is parked, 2 it closes -/
  ends : Nat
  /-- streamed rows and the operand that stands in the registers (R84) -/
  rows : Nat
  held : Option Held
  kaolin : Bool
  long : Bool

/-- The g products of an output in a step (R45). -/
def stepProducts (p : Prod) (term : Nat → Nat → Val) (k o : Nat) : List Val :=
  padStep p.g (((List.range p.g).map fun i => k * p.g + i).filterMap fun i => if i < p.len then some (term o i) else none)

/-- Steps of a product that read one held slice (R82). -/
def sliceSteps (p : Prod) : Nat :=
  match p.held with
  | some h => max 1 (h.span / max p.g 1)
  | none => max p.steps 1

/-- The held slice that step `k` reads. -/
def sliceAt (p : Prod) (k : Nat) : Nat := (p.lo + k) / sliceSteps p

/-- The contents of a slice as the feeder delivers them (R86). -/
def sliceLoad (h : Held) (len n : Nat) : List (Val × Val) :=
  (List.range h.width).flatMap fun i => (List.range h.span).map fun k =>
    if n * h.span + k < len then h.elem i (n * h.span + k) else (vZero, vOne)

/-- The held operand as a register holds it (R87). -/
def regElem (r : StatReg) (h : Held) (n i k : Nat) : Val × Val :=
  r.elems.getD (i * h.span + (k - n * h.span)) (vZero, vOne)

/-- Step `k` of a product, with the held operand from register `r`. -/
def prodStep (p : Prod) (r : StatReg) (k : Nat) (a : Acc) : StepRes :=
  let term := match p.held with
    | some h => h.term (regElem r h (sliceAt p k))
    | none => p.term
  let ps := (List.range p.outs).map (stepProducts p term (p.lo + k))
  if p.kaolin then { acc := accKaolin p.np ps a, seg := none, split := false } else accStep p.long p.np p.g ps a

/-! ### Exact quotients and scales -/

/-- The quotient with a sticky bit below at least 200 exact bits: every later rounding of it is exact. -/
def fxQuot (a b : Fx) : Fx :=
  let k : Nat := 300 + bitLen b.man + (a.exp - b.exp).toNat
  let n := a.man * 2 ^ k
  ⟨a.neg != b.neg, 2 * (n / b.man) + (if n % b.man = 0 then 0 else 1), a.exp - b.exp - k - 1⟩

/-- Round a positive value up to `p` bits, no bit below weight 2^emin. -/
def roundUp (p : Nat) (emin : Int) (x : Fx) : Fx :=
  let q := max emin (fxTop x + 1 - p)
  if x.man = 0 ∨ x.exp ≥ q then x else ⟨x.neg, ceilDiv x.man (2 ^ (q - x.exp).toNat), q⟩

/-- Largest magnitude among the finite values (R142). -/
def amax (vs : List Val) : Fx :=
  vs.foldl (fun a v =>
    match v with
    | .fin x => if fxLt a (fxAbs x) then fxAbs x else a
    | _ => a) fxZero

/-- Largest element of a target (Table 05.6). -/
def largestElem : Fmt → Nat
  | .e2m1 => 6
  | .e4m3 => 448
  | .e5m2 => 57344
  | .int8 => 127
  | _ => 7

def fxNat (n : Nat) : Fx := ⟨false, n, 0⟩

/-- The largest finite FP32 value. -/
def fx32Max : Fx := ⟨false, 2 ^ 24 - 1, 104⟩

/-- Two's complement code of `n` bits. -/
def intCode (n : Nat) (i : Int) : Nat := (i % (2 ^ n : Nat)).toNat

/-- An integer element: the exact quotient to nearest even, clamped (R144, R145, R202). -/
def intElem (f : Fmt) (s : Fx) (v : Val) : Sat Nat :=
  let q : Int := largestElem f
  let n := fmtBits f
  match v with
  | .nan _ => (0, true)
  | .inf neg => (intCode n (if neg then -q else q), true)
  | .fin x => if s.man = 0 ∨ x.man = 0 then (0, false) else (intCode n (max (-q) (min q (rneInt (fxQuot x s)))), false)

/-- `Q_MX` of one group: element codes, scale byte, `SAT` (R143). -/
def mxGroup (f : Fmt) (vs : List Val) : List Nat × Nat × Bool :=
  if vs.any valIsNan then (vs.map fun _ => 0, 255, true)
  else
    let a := amax vs
    let q := fxNat (largestElem f)
    let x0 := fxTop a - fxTop q
    let x1 : Int := if a.man = 0 then 0 else if fxLe (fxScale a (-x0)) q then x0 else x0 + 1
    let x := max (-127) (min 127 x1)
    let rs := vs.map fun v => encode f (valScale v (-x))
    (rs.map (·.1), (x + 127).toNat, rs.any (·.2))

/-- An FP16 scale rounded up, at most 65 504 (R144, R202). -/
def scaleUp16 (f : Fmt) (a : Fx) : Fx × Bool :=
  if a.man = 0 then (fxZero, false)
  else
    let s := roundUp 11 (-24) (fxQuot a (fxNat (largestElem f)))
    if fxLt (fxNat 65504) s then (fxNat 65504, true) else (s, false)

/-- `Q_GROUP` of one group: element codes, scale, `SAT` (R144). -/
def intGroup (f : Fmt) (vs : List Val) : List Nat × Nat × Bool :=
  let (s, sat) := scaleUp16 f (amax vs)
  let rs := vs.map (intElem f s)
  (rs.map (·.1), (encode .fp16 (.fin s)).1, sat || rs.any (·.2))

/-- `Q_ROW` of one row: element codes, FP32 scale, `SAT` (R145). -/
def rowQuant (f : Fmt) (vs : List Val) : List Nat × Nat × Bool :=
  let a := amax vs
  let s0 := if a.man = 0 then fxZero else roundUp 24 (-149) (fxQuot a (fxNat (largestElem f)))
  -- a scale above the largest finite FP32 value takes that value (Table 02.7, log entry 59)
  let over_ := fxLt fx32Max s0
  let s := if over_ then fx32Max else s0
  let elem (v : Val) : Sat Nat :=
    match f, v with
    | .int8, v | .int4, v => intElem f s v
    | f, .fin x => if s.man = 0 then (0, false) else if x.man = 0 then ((encode f (.fin ⟨x.neg, 0, 0⟩)).1, false) else encode f (.fin (fxQuot x s))
    | f, v => ((encode f v).1, true)
  let rs := vs.map elem
  (rs.map (·.1), (encode .fp32 (.fin s)).1, over_ || rs.any (·.2))

/-- Lists of at most `n` consecutive elements. -/
def chunks {α : Type} (n : Nat) (l : List α) : List (List α) :=
  (List.range (ceilDiv l.length (max n 1))).map fun i => (l.drop (n * i)).take n

/-- One block of the P operand (R116): the values p̂ and `SAT`. -/
def pBlock (bf : Bool) (vs : List Val) : List Val × Bool :=
  let a := amax vs
  let v0 : Int := if a.man = 0 then 0 else if bf then fxTop a else fxTop a - 7
  let v := max (-510) (min 510 v0)
  let rs := vs.map fun p => stored (if bf then .bf16 else .e4m3) (valScale p (-v))
  (rs.map fun r => valScale r.1 v, rs.any (·.2))

/-- A row of the P operand in blocks of 32 key positions. -/
def pRow (bf : Bool) (vs : List Val) : List Val × Bool :=
  let bs := (chunks 32 vs).map (pBlock bf)
  (bs.flatMap (·.1), bs.any (·.2))

/-! ### Values whose bits R9 leaves undefined -/

/-- A staging area of a block's scratchpad after use: its layout is not given, so its bytes are free (log entry 3). -/
def scramble (b a n : Nat) (s : State) : State :=
  drawn (spWrite b a ((List.range n).map fun i => Config.freeByte (s.fresh * 2 ^ 20 + i)) false s)

end Sys2Proof.Machine
end

