-- ==== Sys2Proof/Machine/Vector.lean ====
section
/-! DEFINITION. The block vector unit: epilogue steps (R132 to R134, R142 to R147), prologue steps (R135, R149,
R502), and the writing of results. -/

namespace Sys2Proof.Machine

/-- Rows of values. -/
abbrev Mat := List (List Val)

/-- What an epilogue reads apart from its values. -/
structure EpCtx where
  kaolin : Bool
  steps : List Nat
  /-- `SF_FUNC` -/
  f : Nat
  alpha : Val
  /-- β of an `AFFINE` column, when a vector is given -/
  beta : Option (Nat → Val)
  /-- the `RESID` element of a row and column -/
  resid : Nat → Nat → Val
  /-- output format code -/
  fmt : Nat
  /-- `Q_AXIS`: scale groups run along columns -/
  qcol : Bool
  /-- columns of a tile, for the row statistics -/
  width : Nat

/-- What it yields: element codes row by row, scales (row by row; with `qcol`, by group of rows), records. -/
structure EpRes where
  codes : List (List Nat)
  scales : List (List Nat)
  stats : List (Nat × Nat)
  sat : Bool
  deriving DecidableEq, Repr

/-- FP32 by rne32 for every element. -/
def mat32 (m : Mat) : Mat × Bool :=
  let rs := m.map fun r => r.map rne32
  (rs.map fun r => r.map (·.1), rs.any fun r => r.any (·.2))

/-- The row statistics of one row (R147): S2 and S1 with `SAT`. -/
def rowStats (ln : Bool) (width : Nat) (r : List Val) : Sat Val × Sat Val :=
  (chunks width r).foldl (fun a t =>
    let sq := t.map fun x => rneAf50 (valMul x x)
    let s2 := pairTree 64 (sq.map (·.1))
    let s1 := pairTree 64 t
    let a2 := satAdd a.1 (s2.1, s2.2 || sq.any (·.2))
    (a2, if ln then satAdd a.2 s1 else a.2)) ((vZero, false), (vZero, false))

/-- One elementwise, gating or statistics step (Table 05.2, codes 1h to 6h). -/
def epStep (x : EpCtx) (a : Mat × Bool × List (Nat × Nat)) (code : Nat) : Mat × Bool × List (Nat × Nat) :=
  let (m, sat, st) := a
  match code with
  | 1 =>
    let rs := m.map fun r => (List.range r.length).map fun j =>
      let p := valMul (r.getD j vZero) x.alpha
      rne32 (match x.beta with | some β => valAdd p (β j) | none => p)
    (rs.map fun r => r.map (·.1), sat || rs.any (fun r => r.any (·.2)), st)
  | 2 => (m.map fun r => r.map (sf x.kaolin x.f), sat, st)
  | 3 =>
    (m.map fun r => let h := r.length / 2
      (List.range h).map fun j => sfGate x.kaolin x.f (r.getD j vZero) (r.getD (j + h) vZero), sat, st)
  | 4 =>
    let rs := (List.range m.length).map fun i => let r := m.getD i []
      (List.range r.length).map fun j => rne32 (valAdd (r.getD j vZero) (x.resid i j))
    (rs.map fun r => r.map (·.1), sat || rs.any (fun r => r.any (·.2)), st)
  | 5 | 6 =>
    let rs := m.map (rowStats (code = 5) x.width)
    (m, sat || rs.any (fun r => r.1.2 || r.2.2), rs.map fun r => (encP64 r.1.1, encP64 r.2.1))
  | _ => a

/-- Rows and columns exchanged. -/
def transpose (m : Mat) : Mat :=
  (List.range ((m.headD []).length)).map fun j => m.map fun r => r.getD j vZero

def transposeN (m : List (List Nat)) : List (List Nat) :=
  (List.range ((m.headD []).length)).map fun j => m.map fun r => r.getD j 0

/-- The last step: quantisation or conversion (codes 7h to Ah; FP32 without one). -/
def epLast (x : EpCtx) (code : Nat) (m : Mat) : List (List Nat) × List (List Nat) × Bool :=
  let f := fmtOf x.fmt
  let grouped (q : Fmt → List Val → List Nat × Nat × Bool) : List (List Nat) × List (List Nat) × Bool :=
    let rows := if x.qcol then transpose m else m
    let rs := rows.map fun r => (chunks 32 r).map (q f)
    let codes := rs.map fun r => r.flatMap (·.1)
    let scales := rs.map fun r => r.map fun g => g.2.1
    (if x.qcol then transposeN codes else codes, if x.qcol then transposeN scales else scales,
      rs.any fun r => r.any fun g => g.2.2)
  match code with
  | 7 => grouped mxGroup
  | 8 => grouped intGroup
  | 9 =>
    let rs := m.map (rowQuant f)
    (rs.map (·.1), rs.map fun r => [r.2.1], rs.any fun r => r.2.2)
  | _ =>
    let rs := m.map fun r => r.map (encode f)
    (rs.map fun r => r.map (·.1), [], rs.any fun r => r.any (·.2))

/-- The values that the last step reads, `SAT` and the records (R133). A list that begins with its last step reads AF50:
R133 names codes 7h to Ah, `Q_ROW` among them, beside R145's FP32 tiles (log entry 59). -/
def epMid (x : EpCtx) (m : Mat) : Mat × Bool × List (Nat × Nat) :=
  let mids := x.steps.filter (· < 7)
  let m1 := if mids = [] ∧ x.steps.any (· ≥ 7) then (m, false) else mat32 m
  mids.foldl (epStep x) (m1.1, m1.2, [])

/-- An epilogue over a matrix of accumulator values (R133). -/
def epilogue (x : EpCtx) (m : Mat) : EpRes :=
  let last := (x.steps.filter (· ≥ 7)).headD 0
  let (m2, sat2, st) := epMid x m
  let (codes, scales, sat3) := epLast x last m2
  { codes := codes, scales := scales, stats := st, sat := sat2 || sat3 }

/-! ### Writing (R293, R299, R431, R501) -/

/-- Element codes of a row as bytes; two 4-bit elements share a byte, the lower index low (R35). -/
def packCodes (w : Nat) (l : List Nat) : List Byte :=
  if w = 4 then (chunks 2 l).map fun p => BitVec.ofNat 8 (p.getD 0 0 + 16 * p.getD 1 0)
  else l.flatMap (toBytes (w / 8))

/-- Bytes of a block's result at an offset of a slot. -/
def slotWrite (uid b : Nat) (x : ArgSlot) (off : Nat) (bs : List Byte) (bad : Bool) (s : State) : State :=
  if bs = [] then s
  else if slLoc x = 1 then spWrite b (slAddr x + off) bs bad s
  else hostWrite (slAddr x + off) bs bad (.cmd uid b) false (noteTables (slAddr x + off) bs.length s)

/-- As `slotWrite`, each poisoned 64-byte unit counted (R503). -/
def slotUnits (uid b : Nat) (x : ArgSlot) (off : Nat) (bs : List Byte) (bad : Bool) (s : State) : State :=
  if bs = [] then s
  else if slLoc x = 1 then
    countPoison uid (if bad then unitsOf (spUnit b) (slAddr x + off) bs.length else []) (spWrite b (slAddr x + off) bs bad s)
  else writeMarked uid b (slAddr x + off) bs (fun _ _ => bad) false s

/-- Raise `SAT` of a command. -/
def markSat (uid : Nat) (sat : Bool) (s : State) : State := if sat then flagCmd uid 0 s else s

/-! ### Prologues -/

/-- A stored FP32 value of a slot. -/
def slF32 (s : State) (b : Nat) (x : ArgSlot) (i : Nat) : Val := decode .fp32 (slNat s b x (4 * i) 4)

/-- `ROTARY` (R502): the pair at channels 2j and 2j + 1, at position p. -/
def rotPair (s : State) (b : Nat) (x : ArgSlot) (w p j : Nat) (x0 x1 : Val) : Sat Val × Sat Val :=
  let u := if slStride x = 0 then 8 * w else slStride x
  let c := decode .fp32 (slNat s b x (p * u + 8 * j) 4)
  let sn := decode .fp32 (slNat s b x (p * u + 8 * j + 4) 4)
  let neg : Val → Val
    | .fin v => .fin (fxNeg v)
    | .inf n => .inf !n
    | .nan n => .nan n
  (rne32 (valAdd (valMul x0 c) (neg (valMul x1 sn))), rne32 (valAdd (valMul x0 sn) (valMul x1 c)))

/-- `ROTARY` over a row of channels. -/
def rotRow (s : State) (b : Nat) (x : ArgSlot) (p : Nat) (r : List Val) : List Val × Bool :=
  let w := r.length / 2
  let ps := (List.range w).map fun j => rotPair s b x w p j (r.getD (2 * j) vZero) (r.getD (2 * j + 1) vZero)
  (ps.flatMap fun q => [q.1.1, q.2.1], ps.any fun q => q.1.2 || q.2.2)

/-- Poison of the rotary table's entries for a row. -/
def rotPoison (s : State) (b : Nat) (x : ArgSlot) (w p : Nat) : Bool :=
  slPoison s b x (p * (if slStride x = 0 then 8 * w else slStride x)) (8 * w)

/-- The quotient of a finite value by a positive number, ready for one rounding; others pass. -/
def valQuot (v : Val) (n : Nat) : Val :=
  match v with
  | .fin x => if x.man = 0 then v else .fin (fxQuot x (fxNat n))
  | w => w

/-- The row constants of `NORM` (R149): a, b, and whether a rounding of them saturated (R54). The record holds S1 in its
low word. -/
def normRow (s2 s1 : Val) (n : Nat) (eps : Val) (rms : Bool) : Val × Val × Bool :=
  let neg : Val → Val
    | .fin v => .fin (fxNeg v)
    | .inf k => .inf !k
    | .nan k => .nan k
  let mu : Sat Val := if rms then (vZero, false) else rne32 (valQuot s1 n)
  -- S2 / N − μ·μ from exact operands, with one rounding
  let var0 : Sat Val := match s2, neg (valMul mu.1 mu.1) with
    | .fin x, .fin y => rne32 (.fin (fxQuot (fxAdd x (fxMul y (fxNat n))) (fxNat n)))
    | v, w => rne32 (valAdd v w)
  let var := match var0.1 with
    | .fin x => if x.neg then vZero else var0.1
    | .inf true => vZero
    | v => v
  let e := rne32 (valAdd var eps)
  let a := sf false 5 e.1
  let bb : Sat Val := if rms then (vZero, false) else rne32 (neg (valMul mu.1 a))
  (a, bb.1, mu.2 || var0.2 || e.2 || bb.2)

end Sys2Proof.Machine
end

