-- ==== Sys2Proof/Machine/Gemm.lean ====
section
/-! DEFINITION. Matrix products (R37 to R42, R53, R65, R78, R85, R98 to R100, R267): tiles, operands, products,
prologues, epilogues and chains. -/

namespace Sys2Proof.Machine

def buf0 : Buf := { vals := [], poison := 0 }

/-- Operand `i` that the BVU has formed for the second products of tile `t`. -/
def pBuf (j : Job) (t i : Nat) : Buf :=
  match j.pq.find? fun x => x.tile = t with
  | some x => x.bufs.getD i buf0
  | none => buf0

/-- The results of the prologue of part `part` of a job's item (R136). -/
def proBufs (s : State) (b : Nat) (j : Job) (part : Nat) : List Buf :=
  match (blockAt s b).pro.find? fun x => x.uid = j.uid && x.item = j.item && x.part = part with
  | some x => x.bufs
  | none => []

/-- Poison of a job's prologue results. -/
def proPoison (s : State) (b : Nat) (j : Job) : Nat := (proBufs s b j 0).foldl (fun m x => m ||| x.poison) 0

/-- Pairs that the job has still to finish after the first `m` that the BVU has treated, in order. -/
def pairsLeft (j : Job) (m : Nat) : List Nat := ((j.pq.map (·.tile)).drop m) ++ j.flight ++ j.todo

/-- What becomes of group `q` at the end of a second product: it closes when its member has no further pair, it is parked
when another member's pair comes next, and otherwise it stays open (R165, R167). -/
def endsOf (left : List Nat) (r : Nat) : Nat :=
  if !left.any (fun p => p / 2 ^ 20 == r) then 2 else if left.headD 0 / 2 ^ 20 = r then 0 else 1

/-- Put an operand buffer in its place. -/
def putBuf (i : Nat) (x : Buf) (l : List Buf) : List Buf := (l ++ List.replicate (i + 1 - l.length) buf0).set i x

/-! ### Tiles -/

/-- Edge of a tile and problems of a packed item (Table 03.2). -/
def shapeEdge (shape : Nat) : Nat := if shape = 1 then 64 else if shape = 2 ∨ shape = 4 then 32 else 16
def shapePack (shape : Nat) : Nat := if shape = 5 then 16 else if shape = 4 ∨ shape = 6 then 4 else 1

/-- The tile of a work item: problems, rows, columns and K-range. -/
structure GTile where
  p0 : Nat
  np : Nat
  r0 : Nat
  nr : Nat
  c0 : Nat
  nc : Nat
  lo : Nat
  steps : Nat
  range : Nat
  /-- number of the tile, ranges apart -/
  tile : Nat
  deriving DecidableEq, Repr

/-- Does the product stream past a held slice (R81, R84)? -/
def gHeld (d : Descriptor) : Bool := (gShape d).2 != 0

/-- Edge of the tile that a group holds: in the stationary modes 64 whatever the rounding points (R81), and in a chain,
whose hidden tiles and output groups are 64 columns wide (R150, log entry 73). -/
def gEdge (d : Descriptor) : Nat := if gHeld d || (gChain d && (gShape d).1 ≤ 3) then 64 else shapeEdge (gShape d).1
def gPack (d : Descriptor) : Nat := shapePack (gShape d).1
def gRowTiles (d : Descriptor) : Nat := ceilDiv (gM d) (gEdge d)
/-- Column tiles; a chain's item spans all columns of D. -/
def gColTiles (d : Descriptor) : Nat := if gChain d then 1 else ceilDiv (gN d) (gEdge d)
/-- K-ranges formed (R65; the engine's own choice is one range, and a chain, whose hidden dimension is no K-range, is
never cut: log entry 22). -/
def gRanges (d : Descriptor) : Nat := if gChain d then 1 else max 1 (min (gSplit d) (gSteps d))
/-- Tiles of the product. -/
def gTiles (d : Descriptor) : Nat := ceilDiv (gBatch d) (gPack d) * gRowTiles d * gColTiles d

/-- Row tiles and column tiles of a work item: a held slice serves up to four groups (R81, Table 03.4). -/
def gRun (d : Descriptor) : Nat × Nat :=
  if gChain d then (1, 1) else if (gShape d).2 = 2 then (4, 1) else if (gShape d).2 = 1 then (1, 4) else (1, 1)

def gRowRuns (d : Descriptor) : Nat := ceilDiv (gRowTiles d) (gRun d).1
def gColRuns (d : Descriptor) : Nat := ceilDiv (gColTiles d) (gRun d).2
def gItems (d : Descriptor) : Nat := ceilDiv (gBatch d) (gPack d) * gRowRuns d * gColRuns d * gRanges d

/-- First step and length of K-range `i` (R65). -/
def rangeOf (total n i : Nat) : Nat × Nat :=
  let q := total / n
  let m := total % n
  (i * q + min i m, q + (if i < m then 1 else 0))

/-- The column tile in place `q` of a band: with `GATE`, partners are consecutive (R134). -/
def gColAt (d : Descriptor) (q : Nat) : Nat :=
  if (gEpi d).contains 3 ∧ !gChain d then (if q % 2 = 0 then q / 2 else q / 2 + gColTiles d / 2) else q

/-- Tile number `t` in K-range `range`. -/
def gTileAt (d : Descriptor) (t range : Nat) : GTile :=
  let e := gEdge d
  let col := gColAt d (t % gColTiles d)
  let row := t / gColTiles d % gRowTiles d
  let p0 := t / (gColTiles d * gRowTiles d) * gPack d
  let r := rangeOf (gSteps d) (gRanges d) range
  { p0 := p0, np := min (gPack d) (gBatch d - p0), r0 := e * row, nr := min e (gM d - e * row)
    c0 := if gChain d then 0 else e * col, nc := if gChain d then gN d else min e (gN d - e * col)
    lo := r.1, steps := r.2, range := range, tile := t }

/-- The K-range of an item. -/
def itemRange (d : Descriptor) (item : Nat) : Nat := item % gRanges d

/-- The tiles of an item, in order. -/
def itemTiles (d : Descriptor) (item : Nat) : List Nat :=
  let t := item / gRanges d
  let col := t % gColRuns d * (gRun d).2
  let row := t / gColRuns d % gRowRuns d * (gRun d).1
  let pg := t / (gColRuns d * gRowRuns d)
  (List.range (min (gRun d).1 (gRowTiles d - row))).flatMap fun i =>
    (List.range (min (gRun d).2 (gColTiles d - col))).map fun j => (pg * gRowTiles d + row + i) * gColTiles d + col + j

/-- The item that runs a tile's first K-range. -/
def tileItem (d : Descriptor) (tile : Nat) : Nat :=
  let place := tile % gColTiles d
  let row := tile / gColTiles d % gRowTiles d
  ((tile / (gColTiles d * gRowTiles d) * gRowRuns d + row / (gRun d).1) * gColRuns d + place / (gRun d).2) * gRanges d

/-- Tile `q` of an item. -/
def itemTile (d : Descriptor) (item q : Nat) : GTile := gTileAt d ((itemTiles d item).getD q 0) (itemRange d item)

/-- The first tile of an item. -/
def gTile (d : Descriptor) (item : Nat) : GTile := itemTile d item 0

/-! ### Operands -/

/-- Where an operand's element of (problem, row or column i, position k) is stored: row and column of its matrix. -/
def gPlace (trans : Bool) (len width p i k : Nat) : Nat × Nat :=
  if trans then (p * len + k, i) else (p * width + i, k)

/-- Elements of a matrix row as stored. -/
def gRowLen (trans : Bool) (len width : Nat) : Nat := if trans then width else len

/-- An operand of a product: its slot, format, orientation, stored length along the reduction axis, number of its
rows (columns for B), logical length and whether it is compressed. -/
structure Opnd where
  slot : ArgSlot
  fmt : Nat
  /-- the reduction index counts matrix rows -/
  kRows : Bool
  len : Nat
  width : Nat
  logical : Nat
  sparse : Bool
  deriving DecidableEq, Repr

def gOpA (c : Cmd) : Opnd :=
  let d := c.desc
  let sp := gSparse d = 1
  { slot := cSlot c 0, fmt := gA d, kRows := fld d 390 1 = 1, len := if sp then keptLen (gK d) else gK d
    width := gM d, logical := gK d, sparse := sp }

def gOpB (c : Cmd) : Opnd :=
  let d := c.desc
  let sp := gSparse d = 2
  { slot := cSlot c 1, fmt := gB d, kRows := fld d 391 1 = 0, len := if sp then keptLen (gK d) else gK d
    width := if gChain d then gHidden d else gN d, logical := gK d, sparse := sp }

/-- B₂ of a chain: rows over the hidden dimension. -/
def gOpB2 (c : Cmd) : Opnd :=
  let d := c.desc
  { slot := cSlot c 13, fmt := gB d, kRows := true, len := gHid2 d, width := gN d, logical := gHid2 d, sparse := false }

/-- Byte of the metadata nibble of stored position `k`, and whether it is the byte's high half: a matrix of 4-bit
elements oriented as the compressed operand (log entry 20). -/
def gMeta (x : ArgSlot) (o : Opnd) (p i k : Nat) : Nat × Bool :=
  let n := ceilDiv o.logical 4
  let w := gPlace o.kRows n o.width p i (k / 2)
  (elemOff x 7 (gRowLen o.kRows n o.width) 0 w.1 w.2, w.2 % 2 = 1)

/-- Logical position of the stored position `k` (R40): the metadata nibble of its group of four names it. -/
def gLogical (s : State) (b : Nat) (c : Cmd) (o : Opnd) (p i k : Nat) : Nat :=
  if !o.sparse then k
  else
    let q := gMeta (cSlot c 14) o p i k
    let byte := slNat s b (cSlot c 14) q.1 1
    let m := if q.2 then byte / 16 else byte % 16
    4 * (k / 2) + (if k % 2 = 0 then m % 4 else m / 4)

/-- The kept value that comes `k`-th in reduction order: of each pair, the one at the lower logical position comes first
(R40, R45). -/
def keptAt (s : State) (b : Nat) (c : Cmd) (o : Opnd) (p i k : Nat) : Nat :=
  let q := 2 * (k / 2)
  if gLogical s b c o p i (q + 1) < gLogical s b c o p i q then q + 1 - k % 2 else k

/-- Index of the scale of group `g` of 32 positions: the scale array is the matrix with its grouped axis shortened
(log entry 20). -/
def scaleIdx (o : Opnd) (p i g : Nat) : Nat :=
  let n := ceilDiv o.logical 32
  if o.kRows then (p * n + g) * o.width + i else (p * o.width + i) * n + g

/-- Two positions of a 4-bit operand share a byte although the reduction index counts matrix rows (R35). -/
def pairedRows (o : Opnd) : Bool := o.kRows && (o.fmt = 5 || o.fmt = 7)

/-- Byte of the element at stored position `k`, relative to the slot's address, and the bytes that hold it. -/
def opOff (o : Opnd) (im p i k : Nat) : Nat × Nat :=
  let w := gPlace o.kRows o.len o.width p i k
  if pairedRows o then (pairOff o.slot o.width im (p * ceilDiv o.len 2 + k / 2) i, 1)
  else (elemOff o.slot o.fmt (gRowLen o.kRows o.len o.width) im w.1 w.2, max 1 (fmtBits (fmtOf o.fmt) / 8))

/-- The stored element at stored position `k`, without its scale. -/
def opElem (s : State) (b : Nat) (o : Opnd) (im p i k : Nat) : Val :=
  let w := gPlace o.kRows o.len o.width p i k
  if pairedRows o then nibbleAt s b o.slot o.fmt (opOff o im p i k).1 k
  else elemAt s b o.slot o.fmt (gRowLen o.kRows o.len o.width) im w.1 w.2

/-- The scale at logical position `k`. -/
def opScale (s : State) (b : Nat) (o : Opnd) (im p i k : Nat) : Val :=
  scaleAt s b o.slot o.fmt im (scaleIdx o p i (k / 32))

def opPoison (s : State) (b : Nat) (o : Opnd) (im p i k lk : Nat) : Bool :=
  slPoison s b o.slot (opOff o im p i k).1 (opOff o im p i k).2 || scalePoison s b o.slot o.fmt im (scaleIdx o p i (lk / 32))

/-- The host lines of one element and its scale. -/
def opLines (o : Opnd) (im p i k lk : Nat) : List Nat :=
  if slLoc o.slot ≠ 0 then []
  else
    let a := slAddr o.slot + (opOff o im p i k).1
    let sc := slAddr o.slot + slScale o.slot + im + scaleBytes o.fmt * scaleIdx o p i (lk / 32)
    [addr52 a / 128, addr52 (a + (opOff o im p i k).2 - 1) / 128] ++ (if slScale o.slot = 0 then [] else [addr52 sc / 128])

/-- Members of a list of numbers, each once, rising. -/
def numSet (l : List Nat) : List Nat := l.foldl (fun t n => setIns n t) []

/-! ### The products of an item -/

/-- Operand value at stored position `k`: its place in the prologue's buffer, or the stored element and its scale. -/
structure Side where
  elem : Nat → Nat → Nat → Nat → Val
  scale : Nat → Nat → Nat → Nat → Val

def gIm (d : Descriptor) : Nat := fld d 752 32

/-- Rows (columns of B) of the operand that an item reads: the first and how many. -/
def proRows (d : Descriptor) (item : Nat) (isB : Bool) : Nat × Nat :=
  let ts := (itemTiles d item).map fun t => gTileAt d t 0
  if isB then
    if gChain d then (0, gHidden d)
    else
      let lo := ts.foldl (fun m t => min m t.c0) (gTile d item).c0
      (lo, ts.foldl (fun m t => max m (t.c0 + t.nc)) 0 - lo)
  else
    let lo := ts.foldl (fun m t => min m t.r0) (gTile d item).r0
    (lo, ts.foldl (fun m t => max m (t.r0 + t.nr)) 0 - lo)

/-- Arguments: imaginary part (0 or 1), problem in the tile, row in the tile, stored position. A prologue's buffer holds
the rows of the whole item. -/
def gSide (s : State) (b : Nat) (c : Cmd) (j : Job) (t : GTile) (isB : Bool) : Side :=
  let o := if isB then gOpB c else gOpA c
  let w := proRows c.desc j.item isB
  let i0 := if isB then (if gChain c.desc then 0 else t.c0) else t.r0
  let n := w.2
  let pro := if isB then proOf c.desc 444 else proOf c.desc 432
  if pro = [] then
    { elem := fun im p i k => opElem s b o (im * gIm c.desc) (t.p0 + p) (i0 + i) k
      scale := fun im p i k => opScale s b o (im * gIm c.desc) (t.p0 + p) (i0 + i) (gLogical s b c o (t.p0 + p) (i0 + i) k) }
  else
    let buf := (proBufs s b j 0).getD (if isB then 1 else 0) buf0
    { elem := fun im p i k => buf.vals.getD (((im * t.np + p) * n + (i0 + i - w.1)) * o.len + k) vZero
      scale := fun _ _ _ _ => vOne }

/-- Negation of an operand by its sign bit (R98). -/
def valNegate : Val → Val
  | .fin x => .fin (fxNeg x)
  | .inf n => .inf !n
  | .nan n => .nan !n

/-- The scaled product of two elements (R36, R39). -/
def scaledProd (a b sa sb : Val) : Val := valMul (valMul a b) (valMul sa sb)

/-- Coordinates of output `o`: problem, row, column. -/
def outAt (nr nc o : Nat) : Nat × Nat × Nat := (o / (nr * nc), o / nc % nr, o % nc)

/-- Stored positions that meet at place `k` of the reduction, and whether both exist: the k-th kept value of a compressed
operand, or position `k` of both. -/
def gMeet (s : State) (b : Nat) (c : Cmd) (t : GTile) (p r col k : Nat) : Nat × Nat × Bool :=
  let d := c.desc
  let c0 := if gChain d then 0 else t.c0
  let k := if gSparse d = 1 then keptAt s b c (gOpA c) (t.p0 + p) (t.r0 + r) k
    else if gSparse d = 2 then keptAt s b c (gOpB c) (t.p0 + p) (c0 + col) k else k
  let lkA := gLogical s b c (gOpA c) (t.p0 + p) (t.r0 + r) k
  let lkB := gLogical s b c (gOpB c) (t.p0 + p) (c0 + col) k
  (if gSparse d = 2 then lkB else k, if gSparse d = 1 then lkA else k,
    !((gSparse d = 2 && decide (lkB ≥ gK d)) || (gSparse d = 1 && decide (lkA ≥ gK d))))

/-- Part of each operand that pass `pass` of group `grp` (0 real or only, 1 imaginary) reads (R98). -/
def gParts (d : Descriptor) (grp pass : Nat) : Nat × Nat :=
  if gPasses d = 4 then (pass, if grp = 0 then pass else 1 - pass) else (0, 0)

/-- The product of two elements in a pass (R39, R42, R98). -/
def gMul (d : Descriptor) (grp pass : Nat) (a b : Val × Val) : Val :=
  let bv := if gPasses d = 4 ∧ grp = 0 ∧ pass = 1 then valNegate b.1 else b.1
  if gPasses d = 6 then prod6 pass a.1 bv else scaledProd a.1 bv a.2 b.2

/-- The product at place `k` of the reduction, given one operand's elements where it is held: `hA` and `hB` answer line
and position. -/
def gTermOf (s : State) (b : Nat) (c : Cmd) (j : Job) (t : GTile) (grp pass : Nat) (hA hB : Option (Nat → Nat → Val × Val))
    (p r col k : Nat) : Val :=
  let d := c.desc
  let sa := gSide s b c j t false
  let sb := gSide s b c j t true
  let m := gMeet s b c t p r col k
  let im := gParts d grp pass
  if !m.2.2 then vZero
  else
    gMul d grp pass
      (match hA with | some f => f r m.1 | none => (sa.elem im.1 p r m.1, sa.scale im.1 p r m.1))
      (match hB with | some f => f col m.2.1 | none => (sb.elem im.2 p col m.2.1, sb.scale im.2 p col m.2.1))

def gTerm (s : State) (b : Nat) (c : Cmd) (j : Job) (t : GTile) (grp pass p r col k : Nat) : Val :=
  gTermOf s b c j t grp pass none none p r col k

/-- Reduction positions of a held slice: 16 cubes of a stack, each with the S64 group (R71, R81). -/
def heldSpan (cls : Nat) : Nat := 16 * groupWidth cls 1

/-- The operand that a stationary GEMM holds (R81, R84, R85): B's columns or A's rows. Its slices are named by the bytes
that the command holds in them, so that a slice stays when the command's next item or pass reads the same ones. -/
def gHeldOf (s : State) (b : Nat) (c : Cmd) (j : Job) (t : GTile) (grp pass c0 nc : Nat) : Option Held :=
  let d := c.desc
  let isB := (gShape d).2 = 2
  if !gHeld d then none
  else
    let o := if isB then gOpB c else gOpA c
    let sd := gSide s b c j { t with c0 := c0 } isB
    let im := if isB then (gParts d grp pass).2 else (gParts d grp pass).1
    let pro := if isB then proOf d 444 else proOf d 432
    let i0 := if isB then c0 else t.r0
    let own := if pro = [] then [0, c.uid, slAddr o.slot + im * gIm d, slLoc o.slot, o.fmt, slScale o.slot, b2n o.kRows]
      else [1, c.uid, j.item, im]
    some
      { key := fun n => own ++ [b2n isB, t.p0, i0, n, if gPasses d = 6 then pass else 0]
        width := if isB then nc else t.nr, span := heldSpan (gClass d)
        elem := fun i k => (sd.elem im 0 i k, sd.scale im 0 i k)
        term := fun h out k =>
          let x := outAt t.nr nc out
          if isB then gTermOf s b c j { t with c0 := c0 } grp pass none (some h) x.1 x.2.1 x.2.2 k
          else gTermOf s b c j { t with c0 := c0 } grp pass (some h) none x.1 x.2.1 x.2.2 k }

/-- Element of the C input; a P64 word that R52 calls poisoned is reported by `gCPoison`. -/
def gCElem (s : State) (b : Nat) (c : Cmd) (im p r col : Nat) : Val :=
  let d := c.desc
  elemAt s b (cSlot c 2) (fld d 376 4) (gN d) (im * gIm d) (p * gM d + r) col

def gCPoison (s : State) (b : Nat) (c : Cmd) (im p r col : Nat) : Bool :=
  let d := c.desc
  let off := elemOff (cSlot c 2) (fld d 376 4) (gN d) (im * gIm d) (p * gM d + r) col
  slPoison s b (cSlot c 2) off (fmtBits (fmtOf (fld d 376 4)) / 8)
  || (fld d 376 4 = 10 && p64Bad (slNat s b (cSlot c 2) off 8))

/-- Stored positions of the products of one pass. -/
def gLen (d : Descriptor) : Nat := if gSparse d = 0 then gK d else keptLen (gK d)

/-- Arrival entries that slots name (R152). -/
def entriesOf (l : List ArgSlot) : List Nat := numSet ((l.filter fun x => slLoc x = 2).map fun x => slAddr x % 256)

/-- The CRC-32C of the tile that an entry landed does not match, or the tile is poisoned (R154, R367). -/
def arrivalBad (s : State) (b : Nat) (e : Nat) (a : Arrival) : Bool :=
  a.poison || decide (a.want < 4) ||
    (let base := odv s 0x4110 1 + e * odv s 0x4110 2
     crc32c ((List.range (a.want - 4)).map fun i => spByte s b (base + i)) != spNat s b (base + a.want - 4) 4)

/-- An entry that the feeder reads holds a tile whose check fails (R154). -/
def entryPoison (s : State) (b : Nat) (es : List Nat) : Bool :=
  es.any fun e => (blockAt s b).arrivals.any fun a => a.1 == e && arrivalBad s b e a.2

/-- Poison of an operand's rows `i0` to `i0 + n - 1` over the tile's positions, for problem p. -/
def gOpndPoison (s : State) (b : Nat) (c : Cmd) (o : Opnd) (im p i0 n lo len : Nat) : Bool :=
  (List.range n).any fun i => (List.range len).any fun k =>
    let lk := gLogical s b c o p (i0 + i) (lo + k)
    decide (lo + k < o.len) && (opPoison s b o im p (i0 + i) (lo + k) lk
      || (o.sparse && slPoison s b (cSlot c 14) (gMeta (cSlot c 14) o p (i0 + i) (lo + k)).1 1))

/-- Positions of an operand that steps `lo` to `lo + n - 1` cover; the dense operand of a sparse pair covers twice as
many as the compressed one. -/
def gSpanOf (d : Descriptor) (lo n : Nat) (o : Opnd) : Nat × Nat :=
  let g := gWidth d * (if gSparse d ≠ 0 ∧ !o.sparse then 2 else 1)
  (lo * g, n * g)

/-- Host lines of an operand's part. -/
def gOpndLines (s : State) (b : Nat) (c : Cmd) (t : GTile) (o : Opnd) (lo steps i0 n : Nat) (ims : List Nat) : List Nat :=
  let sp := gSpanOf c.desc lo steps o
  numSet (ims.flatMap fun im => (List.range t.np).flatMap fun p => (List.range n).flatMap fun i =>
    (List.range (min sp.2 (o.len - sp.1))).flatMap fun k =>
      opLines o (im * gIm c.desc) (t.p0 + p) (i0 + i) (sp.1 + k) (gLogical s b c o (t.p0 + p) (i0 + i) (sp.1 + k)))

/-- Parts of the operands that a product of the item reads: 0 and 1 for complex products. -/
def gIms (d : Descriptor) : List Nat := if gPasses d = 4 then [0, 1] else [0]

/-- Passes of one output (R42, R98). -/
def outPasses (d : Descriptor) : Nat := if gPasses d = 4 then 2 else gPasses d

/-- Slices that a pass streams past: the first one and how many. -/
def gSlices (d : Descriptor) (t : GTile) : Nat × Nat :=
  if !gHeld d then (0, 1)
  else
    let n := heldSpan (gClass d) / gWidth d
    (t.lo / n, ceilDiv (t.lo + t.steps) n - t.lo / n)

/-- The `i`-th product of an item that is no chain: real and imaginary groups, passes, held slices and the groups that
each slice serves, in that order (R81, R98, R99). -/
def gProduct (s : State) (b : Nat) (c : Cmd) (j : Job) (i : Nat) : Option Prod :=
  let d := c.desc
  let tn := (itemTiles d j.item).length
  let t0 := gTile d j.item
  let sl := gSlices d t0
  let q := i % tn
  let slice := i / tn % sl.2
  let pass := i / (tn * sl.2) % outPasses d
  let grp := i / (tn * sl.2 * outPasses d)
  if grp ≥ (gIms d).length then none
  else
    let t := itemTile d j.item q
    let n := heldSpan (gClass d) / gWidth d
    let lo := if gHeld d then max t.lo ((sl.1 + slice) * n) else t.lo
    let hi := if gHeld d then min (t.lo + t.steps) ((sl.1 + slice + 1) * n) else t.lo + t.steps
    let co := fun o => outAt t.nr t.nc o
    let es := entriesOf [cSlot c 0, cSlot c 1]
    let ims := numSet [(gParts d grp pass).1]
    let imsB := numSet [(gParts d grp pass).2]
    let span := fun o => gSpanOf d lo (hi - lo) o
    let bad := fun p =>
      entryPoison s b es
      || (proOf d 432 = [] && ims.any fun im => gOpndPoison s b c (gOpA c) (im * gIm d) (t.p0 + p) t.r0 t.nr (span (gOpA c)).1 (span (gOpA c)).2)
      || (proOf d 444 = [] && imsB.any fun im => gOpndPoison s b c (gOpB c) (im * gIm d) (t.p0 + p) t.c0 t.nc (span (gOpB c)).1 (span (gOpB c)).2)
    some
      { outs := t.np * t.nr * t.nc, np := t.np, lo := lo, steps := hi - lo, g := gWidth d, len := gLen d
        term := fun o k => gTerm s b c j t grp pass (co o).1 (co o).2.1 (co o).2.2 k
        init := []
        lines := if proOf d 432 = [] ∨ proOf d 444 = [] then
            numSet ((if proOf d 432 = [] then gOpndLines s b c t (gOpA c) lo (hi - lo) t.r0 t.nr ims else [])
              ++ (if proOf d 444 = [] then gOpndLines s b c t (gOpB c) lo (hi - lo) t.c0 t.nc imsB else []))
          else []
        entries := es
        poison := maskOf t.np bad ||| proPoison s b j
        scale := none, target := some (grp * tn + q), group := 2 ^ 32 + grp * tn + q, bank := none
        ends := if slice + 1 < sl.2 then 0 else if pass + 1 < outPasses d then 1 else 2
        rows := if (gShape d).2 = 1 then t.nc else t.nr
        held := gHeldOf s b c j t grp pass t.c0 t.nc, kaolin := dKaolin d, long := dSplitLong d }

/-- The groups of an item that is no chain, with the values of R53: range 0 alone starts from the C input (R65). -/
def gInit (s : State) (b : Nat) (c : Cmd) (item : Nat) : List Acc :=
  let d := c.desc
  (gIms d).flatMap fun grp => (List.range (itemTiles d item).length).map fun q =>
    let t := itemTile d item q
    let use := hasSlot c 2 && decide (t.range = 0)
    let a := accOf ((List.range (t.np * t.nr * t.nc)).map fun o =>
      let x := outAt t.nr t.nc o
      if use then gCElem s b c grp (t.p0 + x.1) (t.r0 + x.2.1) (t.c0 + x.2.2) else vZero)
    let bad := maskOf t.np fun p => use && (List.range (t.nr * t.nc)).any fun o =>
      gCPoison s b c grp (t.p0 + p) (t.r0 + o / t.nc) (t.c0 + o % t.nc)
    { a with tile := { a.tile with poison := bad } }

/-! ### Chains (R150, R151) -/

/-- Hidden tiles; first products per hidden tile; output groups of 64 columns. -/
def chainTiles (d : Descriptor) : Nat := ceilDiv (gHid2 d) 64
def chainFirst (d : Descriptor) : Nat := if (gEpi d).contains 3 then 2 else 1
def chainOuts (d : Descriptor) : Nat := ceilDiv (gN d) 64

/-- First hidden column and width of the first product `i` of hidden tile `h`. -/
def chainCols (d : Descriptor) (h i : Nat) : Nat × Nat :=
  let c0 := 64 * h + i * gHid2 d
  (c0, min 64 (gHid2 d - 64 * h))

/-- Class of the second product's pair: P against B (R41). -/
def chainWidth (d : Descriptor) : Nat :=
  groupWidth (max (if fld d 395 1 = 1 then 2 else 1) (fmtClass (gB d))) (gShape d).1

/-- First product `i` of hidden tile `h`: A · B₁ for the tile's columns, or for its partner's (R150). -/
def chainFirstProd (s : State) (b : Nat) (c : Cmd) (j : Job) (h i : Nat) : Option Prod :=
  let d := c.desc
  let t := gTile d j.item
  let es := entriesOf [cSlot c 0, cSlot c 1]
  if h ≥ chainTiles d then none
  else
    let (c0, nc) := chainCols d h i
    let co := fun o => outAt t.nr nc o
    let bad := fun p => entryPoison s b es
      || (proOf d 432 = [] && gOpndPoison s b c (gOpA c) 0 (t.p0 + p) t.r0 t.nr 0 (gOpA c).len)
      || (proOf d 444 = [] && gOpndPoison s b c (gOpB c) 0 (t.p0 + p) c0 nc 0 (gOpB c).len)
    some { outs := t.np * t.nr * nc, np := t.np, lo := 0, steps := gSteps d, g := gWidth d, len := gLen d
           term := fun o k => gTerm s b c j t 0 0 (co o).1 (co o).2.1 (c0 + (co o).2.2) k
           init := List.replicate (t.np * t.nr * nc) vZero
           lines := numSet ((if proOf d 432 = [] then gOpndLines s b c t (gOpA c) 0 (gSteps d) t.r0 t.nr [0] else [])
             ++ (if proOf d 444 = [] then gOpndLines s b c t (gOpB c) 0 (gSteps d) c0 nc [0] else []))
           entries := es, poison := maskOf t.np bad ||| proPoison s b j
           scale := none, target := none, group := 4 * h + i, bank := none, ends := 2, rows := if (gShape d).2 = 1 then nc else t.nr
           held := gHeldOf s b c j t 0 0 c0 nc, kaolin := dKaolin d, long := dSplitLong d }

/-- The operand that the second product of a chain holds: B₂'s columns or P's rows. -/
def chainHeld (s : State) (b : Nat) (c : Cmd) (j : Job) (t : GTile) (h q nc w : Nat) (p : Buf) : Option Held :=
  let d := c.desc
  let o2 := gOpB2 c
  let pv := fun r k => (p.vals.getD (r * w + k) vZero, vOne)
  let bv := fun i k => (opElem s b o2 0 t.p0 (64 * q + i) (64 * h + k), opScale s b o2 0 t.p0 (64 * q + i) (64 * h + k))
  let mul := fun (x y : Val × Val) => scaledProd x.1 y.1 x.2 y.2
  let span := heldSpan (max (if fld d 395 1 = 1 then 2 else 1) (fmtClass (gB d)))
  if !gHeld d then none
  else if (gShape d).2 = 2 then
    some { key := fun n => [2, c.uid, slAddr o2.slot, slLoc o2.slot, t.p0, 64 * q, h, n], width := nc, span := span, elem := bv
           term := fun f o k => let x := outAt t.nr nc o; mul (pv x.2.1 k) (f x.2.2 k) }
  else
    some { key := fun n => [3, c.uid, j.item, h, n], width := t.nr, span := span, elem := pv
           term := fun f o k => let x := outAt t.nr nc o; mul (f x.2.1 k) (bv x.2.2 k) }

/-- Second product of hidden tile `h`: P · B₂ into output group `q`, once P is formed (R150, R151). -/
def chainSecond (s : State) (b : Nat) (c : Cmd) (j : Job) (h q : Nat) : Option Prod :=
  let d := c.desc
  let t := gTile d j.item
  let es := entriesOf [cSlot c 13]
  if h ≥ chainTiles d then none
  else
    let nc := min 64 (gN d - 64 * q)
    let o2 := gOpB2 c
    let w := min 64 (gHid2 d - 64 * h)
    let co := fun o => outAt t.nr nc o
    let p := pBuf j h 0
    let bad := fun pr => entryPoison s b es
      || (List.range nc).any fun i => (List.range w).any fun k => opPoison s b o2 0 (t.p0 + pr) (64 * q + i) (64 * h + k) (64 * h + k)
    some { outs := t.np * t.nr * nc, np := t.np, lo := 0, steps := ceilDiv w (chainWidth d), g := chainWidth d, len := w
           term := fun o k => let x := co o
             scaledProd (p.vals.getD ((x.1 * t.nr + x.2.1) * w + k) vZero) (opElem s b o2 0 (t.p0 + x.1) (64 * q + x.2.2) (64 * h + k))
               vOne (opScale s b o2 0 (t.p0 + x.1) (64 * q + x.2.2) (64 * h + k))
           init := []
           lines := numSet ((List.range t.np).flatMap fun pr => (List.range nc).flatMap fun i => (List.range w).flatMap fun k =>
             opLines o2 0 (t.p0 + pr) (64 * q + i) (64 * h + k) (64 * h + k))
           entries := es, poison := maskOf t.np bad ||| p.poison, scale := none, target := some q, group := 2 ^ 32 + q, bank := none
           ends := if h + 1 < chainTiles d then 0 else 2, rows := if (gShape d).2 = 1 then nc else t.nr
           held := chainHeld s b c j t h q nc w p, kaolin := dKaolin d, long := dSplitLong d }

/-- The open output groups of a chain, with the values of R53. -/
def chainInit (s : State) (b : Nat) (c : Cmd) (item : Nat) : List Acc :=
  let d := c.desc
  let t := gTile d item
  (List.range (chainOuts d)).map fun q =>
    let nc := min 64 (gN d - 64 * q)
    let a := accOf ((List.range (t.np * t.nr * nc)).map fun o =>
      let x := outAt t.nr nc o
      if hasSlot c 2 then gCElem s b c 0 (t.p0 + x.1) (t.r0 + x.2.1) (64 * q + x.2.2) else vZero)
    let bad := maskOf t.np fun p => hasSlot c 2 && (List.range (t.nr * nc)).any fun o =>
      gCPoison s b c 0 (t.p0 + p) (t.r0 + o / nc) (64 * q + o % nc)
    { a with tile := { a.tile with poison := bad } }

/-! ### Prologues (R135, R136, R149, R502) -/

/-- The steps of a list over one operand row: `sc k` is the scale at position k, `row` the record and table row. -/
def proRow (s : State) (b : Nat) (c : Cmd) (steps : List Nat) (record pos : Nat) (sc : Nat → Val) (r : List Val) : List Val × Bool :=
  let d := c.desc
  let r := if steps.contains 1 then r else (List.range r.length).map fun k => valMul (r.getD k vZero) (sc k)
  let all := fun (rs : List (Sat Val)) => (rs.map (·.1), rs.any (·.2))
  steps.foldl (fun (a : List Val × Bool) code =>
    let v := a.1
    let res : List Val × Bool :=
      match code with
      | 1 => all ((List.range v.length).map fun k => rne32 (valMul (v.getD k vZero) (sc k)))
      | 2 => rotRow s b (cSlot c 10) pos v
      | 3 =>
        let s1 := slNat s b (cSlot c 7) (strideOf (cSlot c 7) 16 * record) 8
        let s2 := slNat s b (cSlot c 7) (strideOf (cSlot c 7) 16 * record + 8) 8
        let n := fld d 616 32
        let rms := s1 % 2 ^ 50 = 0
        -- with N = 0 the quotients have no stated value (log entry 3)
        let ab : Val × Val × Bool := if n = 0 then (w32 (BitVec.ofNat 32 (Config.freeNat (2 ^ 64 + 2 * c.uid))), w32 (BitVec.ofNat 32 (Config.freeNat (2 ^ 64 + 2 * c.uid + 1))), false)
          else normRow (decP64 s2) (decP64 s1) n (w32 (BitVec.ofNat 32 (fld d 648 32))) rms
        let r := all ((List.range v.length).map fun k =>
          let y := rne32 (if rms then valMul (v.getD k vZero) ab.1 else valAdd (valMul (v.getD k vZero) ab.1) ab.2.1)
          let g := hasSlot c 8
          let h := hasSlot c 9
          let p := if g then valMul y.1 (slF32 s b (cSlot c 8) k) else y.1
          let z := if g || h then rne32 (if h then valAdd p (slF32 s b (cSlot c 9) k) else p) else (y.1, false)
          (z.1, y.2 || z.2))
        (r.1, r.2 || ab.2.2)
      | _ => all (v.map fun x => rne32 (valMul x (w32 (BitVec.ofNat 32 (fld d 512 32)))))
    (res.1, a.2 || res.2)) (r, false)

/-- The implied conversion to the operand format (R135): values with their scales. -/
def proConvert (f : Nat) (r : List Val) : List Val × Bool :=
  if mxFmt f then
    let gs := (chunks 32 r).map (mxGroup (fmtOf f))
    (gs.flatMap fun g => g.1.map fun w => valMul (decode (fmtOf f) w) (e8m0 g.2.1), gs.any fun g => g.2.2)
  else
    let rs := r.map (stored (fmtOf f))
    (rs.map (·.1), rs.any (·.2))

/-- The scale that `DEQUANT` multiplies by (R135): E8M0 for MX codes; for BF16 and FP16 an FP16 scale array where the
slot names one. No field chooses an axis: the groups run along the reduction (log entry 61). -/
def dequantScale (s : State) (b : Nat) (o : Opnd) (im p i k : Nat) : Val :=
  if (o.fmt = 1 ∨ o.fmt = 2) ∧ slScale o.slot ≠ 0 then
    fp16Scale (slNat s b o.slot (slScale o.slot + im + 2 * scaleIdx o p i (k / 32)) 2)
  else opScale s b o im p i k

/-- The prologue of one operand of an item: every row that the item reads, once (R136). It is stored in the
operand format, which is also that of the implied conversion (R135, log entry 61). -/
def proOperand (s : State) (b : Nat) (c : Cmd) (item : Nat) (isB : Bool) : Buf × Bool :=
  let d := c.desc
  let t := gTile d item
  let o := if isB then gOpB c else gOpA c
  let steps := if isB then proOf d 444 else proOf d 432
  let i0 := (proRows d item isB).1
  let n := (proRows d item isB).2
  if steps = [] then (buf0, false)
  else
    let row := fun im p i =>
      let q := t.p0 + p
      let r := (List.range o.len).map fun k => opElem s b o (im * gIm d) q (i0 + i) k
      let x := proRow s b c steps (q * o.width + i0 + i) (fld d 728 20 + i0 + i)
        (fun k => dequantScale s b o (im * gIm d) q (i0 + i) (gLogical s b c o q (i0 + i) k)) r
      let y := proConvert o.fmt x.1
      (y.1, x.2 || y.2)
    let rows := (gIms d).flatMap fun im => (List.range t.np).flatMap fun p => (List.range n).map fun i => row im p i
    let bad := fun p =>
      entryPoison s b (entriesOf [o.slot])
      || (gIms d).any (fun im => gOpndPoison s b c o (im * gIm d) (t.p0 + p) i0 n 0 o.len)
      || (steps.contains 2 && (List.range n).any fun i => rotPoison s b (cSlot c 10) (o.len / 2) (fld d 728 20 + i0 + i))
      || (steps.contains 3 && ((List.range n).any (fun i =>
          let a := strideOf (cSlot c 7) 16 * ((t.p0 + p) * o.width + i0 + i)
          slPoison s b (cSlot c 7) a 16 || p64Bad (slNat s b (cSlot c 7) a 8) || p64Bad (slNat s b (cSlot c 7) (a + 8) 8))
        || (hasSlot c 8 && slPoison s b (cSlot c 8) 0 (4 * o.len)) || (hasSlot c 9 && slPoison s b (cSlot c 9) 0 (4 * o.len))))
    ({ vals := rows.flatMap (·.1), poison := maskOf t.np bad }, rows.any (·.2))

/-- Both prologues of an item; its results go to `PRO_BUF`, whose layout is not given (R136, log entry 3). -/
def gemmPrologue (b : Nat) (c : Cmd) (item : Nat) (s : State) : List Buf × State :=
  let a := proOperand s b c item false
  let bb := proOperand s b c item true
  ([a.1, bb.1], markSat c.uid (a.2 || bb.2) (scramble b (fld c.desc 544 20) (gProSize c.desc) s))

/-! ### Epilogues -/

/-- The step list's reading of its operands for an output part that starts at (problem row, column); with `GATE`, the
part's second half holds the partner columns, n/2 further on, until the step (R133, R134). -/
def gemmCtx (s : State) (b : Nat) (c : Cmd) (p r0 c0 half : Nat) : EpCtx :=
  let d := c.desc
  let rf := if gD d ≤ 2 then gD d else 0
  let col := fun k => if (gEpi d).contains 3 && decide (k ≥ half) then c0 + gN d / 2 + (k - half) else c0 + k
  { kaolin := dKaolin d, steps := gEpi d, f := fld d 396 4, alpha := w32 (BitVec.ofNat 32 (fld d 480 32))
    beta := if hasSlot c 4 then some fun j => slF32 s b (cSlot c 4) (col j) else none
    resid := fun i j => elemAt s b (cSlot c 5) rf (gResCols d) 0 (p * gM d + r0 + i) (col j)
    fmt := gD d, qcol := fld d 401 1 = 1, width := gEdge d }

/-- Column ranges over which the engine spreads a band of row statistics (R148): its own choice from the descriptor and
`REGION_COUNT` alone (R57, log entry 62). A band with a `GATE` or a `Q_ROW` step stays whole (R134, R145). -/
def statCut (s : State) (d : Descriptor) : Nat :=
  let e := gEpi d
  if (e.contains 5 || e.contains 6) && !e.contains 3 && !e.contains 9 && decide (gColTiles d > 1) then
    max 1 (min (gColTiles d) (Config.statRanges (gM d) (gN d) (regionCount s)))
  else 1

/-- The column range, of `n`, that holds the column tile in place `q`: its number, first place and length. -/
def rangeWith (total n q : Nat) : Nat × Nat × Nat :=
  match (List.range n).find? fun i => decide (q < (rangeOf total n i).1 + (rangeOf total n i).2) with
  | some i => (i, (rangeOf total n i).1, (rangeOf total n i).2)
  | none => (0, 0, total)

/-- Row tiles and column places that an epilogue finishes together: the band of 64 rows for statistics and `Q_ROW`
(R145, R147), the pair of a `GATE` (R134), the tiles that a scale group spans. -/
def gemmPart (d : Descriptor) : Nat × Nat :=
  let e := gEpi d
  let narrow := gEdge d < 32 && (e.contains 7 || e.contains 8)
  if e.contains 5 ∨ e.contains 6 ∨ e.contains 9 then (64 / gEdge d, gColTiles d)
  else if e.contains 3 then (if narrow && fld d 401 1 = 1 then (2, 2) else if narrow then (1, 4) else (1, 2))
  else if narrow then (if fld d 401 1 = 1 then (2, 1) else (1, 2))
  else (1, 1)

/-- The part of a tile, with statistics over `n` column ranges: first row tile, row tiles, first column place, column
places. -/
def partOf (d : Descriptor) (n tile : Nat) : Nat × Nat × Nat × Nat :=
  let pr := (gemmPart d).1
  let pc := (gemmPart d).2
  let row := tile / gColTiles d % gRowTiles d / pr * pr
  let place := tile % gColTiles d
  let col := if n > 1 then (rangeWith (gColTiles d) n place).2.1 else place / pc * pc
  let w := if n > 1 then (rangeWith (gColTiles d) n place).2.2 else min pc (gColTiles d - col)
  (row, min pr (gRowTiles d - row), col, w)

/-- Numbers of the tiles of a part. -/
def partTiles (d : Descriptor) (n tile : Nat) : List Nat :=
  let (r, nr, c, nc) := partOf d n tile
  let pg := tile / (gColTiles d * gRowTiles d)
  (List.range nr).flatMap fun i => (List.range nc).map fun q => (pg * gRowTiles d + r + i) * gColTiles d + c + q

/-- Values of a part for problem p, row by row in column order, from its held tiles. -/
def partMat (d : Descriptor) (held : List (Nat × TileV)) (ts : List Nat) (p : Nat) : Mat :=
  let rows := numSet (ts.map fun t => t / gColTiles d % gRowTiles d)
  rows.flatMap fun rt =>
    let row := ts.filter fun t => t / gColTiles d % gRowTiles d = rt
    let cols := numSet (row.map fun t => gColAt d (t % gColTiles d))
    let find := fun col => row.find? fun t => gColAt d (t % gColTiles d) = col
    (List.range (gTileAt d (row.headD 0) 0).nr).map fun rr => cols.flatMap fun col =>
      match find col with
      | some t =>
        let g := gTileAt d t 0
        (tileVals (tget tile0 held t)).drop ((p * g.nr + rr) * g.nc) |>.take g.nc
      | none => []

/-- Does step `code` come before a `GATE` step, so that it sees both tiles of a pair (R133)? -/
def beforeGate (d : Descriptor) (code : Nat) : Bool := ((gEpi d).takeWhile (· != 3)).contains code && (gEpi d).contains 3

/-- Poison that an epilogue's own operands bring to an output tile: rows `r0` on, columns `c0` on. -/
def epiPoison (s : State) (b : Nat) (c : Cmd) (p r0 c0 rows cols : Nat) : Bool :=
  let d := c.desc
  let rf := if gD d ≤ 2 then gD d else 0
  let at_ := fun code => if beforeGate d code then [c0, c0 + gN d / 2] else [c0]
  ((gEpi d).contains 1 && hasSlot c 4 && (at_ 1).any fun k => slPoison s b (cSlot c 4) (4 * k) (4 * cols))
  || ((gEpi d).contains 4 && (at_ 4).any fun k => (List.range rows).any fun i =>
    slPoison s b (cSlot c 5) (elemOff (cSlot c 5) rf (gResCols d) 0 (p * gM d + r0 + i) k) (rowBytes rf cols))

/-- The output tiles of a part of `h` rows and `w` output columns: rows and columns in the part, from and how many. -/
def outTiles (d : Descriptor) (h w : Nat) : List (Nat × Nat × Nat × Nat) :=
  let e := gEdge d
  (List.range (ceilDiv h e)).flatMap fun i => (List.range (ceilDiv w e)).map fun j =>
    (e * i, min e (h - e * i), e * j, min e (w - e * j))

/-- Does poison of the output tile at (i', j') of a part reach the one at (i, j) (Table 15.3)? A statistics or
`Q_ROW` step couples the band, a scale group wider than a tile the tiles it spans. -/
def reaches (d : Descriptor) (i' j' i j : Nat) : Bool :=
  let e := gEpi d
  let g := fun (a : Nat) => a / 32
  if e.contains 5 || e.contains 6 || e.contains 9 then true
  else if e.contains 7 || e.contains 8 then
    (if fld d 401 1 = 1 then g i' = g i || i' = i else i' = i) && (if fld d 401 1 = 0 then g j' = g j || j' = j else j' = j)
  else i' = i && j' = j

/-- Write one output tile of problem p: its elements of D and, where it holds a group's first element, the scales. -/
def gemmTile (b : Nat) (c : Cmd) (im p r0 c0 : Nat) (res : EpRes) (t : Nat × Nat × Nat × Nat) (bad : Bool) (s : State) : State :=
  let d := c.desc
  let (i0, h, j0, w) := t
  let cols := gCols d
  let x := cSlot c 3
  let off := im * gIm d
  let s := (List.range h).foldl (fun s i =>
    slotWrite c.uid b x (elemOff x (gD d) cols off (p * gM d + r0 + i0 + i) (c0 + j0))
      (packCodes (fmtBits (fmtOf (gD d))) (((res.codes.getD (i0 + i) []).drop j0).take w)) bad s) s
  let last := (gEpi d).getLast?.getD 0
  let sb := scaleBytes (gD d)
  if last ≠ 7 ∧ last ≠ 8 then s
  else if fld d 401 1 = 1 then
    if i0 % 32 ≠ 0 then s
    else
      (List.range (ceilDiv h 32)).foldl (fun s g =>
        slotWrite c.uid b x (slScale x + off + sb * ((p * ceilDiv (gM d) 32 + (r0 + i0) / 32 + g) * cols + c0 + j0))
          (((res.scales.getD (i0 / 32 + g) []).drop j0).take w |>.flatMap (toBytes sb)) bad s) s
  else if j0 % 32 ≠ 0 then s
  else
    (List.range h).foldl (fun s i =>
      slotWrite c.uid b x (slScale x + off + sb * ((p * gM d + r0 + i0 + i) * ceilDiv cols 32 + (c0 + j0) / 32))
        (((res.scales.getD (i0 + i) []).drop (j0 / 32)).take (ceilDiv w 32) |>.flatMap (toBytes sb)) bad s) s

/-- Write one problem's finished part: D and its scales tile by tile, and the row scales of the band; `bad` tells which
output tiles are poisoned. -/
def gemmWrite (b : Nat) (c : Cmd) (im p r0 c0 : Nat) (res : EpRes) (bad : Nat → Nat → Bool) (s : State) : State :=
  let d := c.desc
  let s := (outTiles d res.codes.length ((res.codes.headD []).length)).foldl (fun s t =>
    gemmTile b c im p r0 c0 res t (bad t.1 t.2.2.1) s) s
  if (gEpi d).getLast? = some 9 then
    (List.range res.codes.length).foldl (fun s r =>
      slotUnits c.uid b (cSlot c 12) ((p * gM d + r0 + r) * strideOf (cSlot c 12) 4) ((res.scales.getD r []).flatMap (toBytes 4)) (bad 0 0) s) s
  else s

/-- The row-statistics records of rows `r0` on of problem p (Table 05.7). -/
def writeStats (b : Nat) (c : Cmd) (p r0 : Nat) (st : List (Nat × Nat)) (bad : Bool) (s : State) : State :=
  (List.range st.length).foldl (fun s r =>
    slotUnits c.uid b (cSlot c 6) ((p * gM c.desc + r0 + r) * strideOf (cSlot c 6) 16)
      (toBytes 8 (st.getD r (0, 0)).2 ++ toBytes 8 (st.getD r (0, 0)).1) bad s) s

/-- A column range's partial records as a tile: S2 and S1 of each row. -/
def statTile (st : List (Nat × Nat)) (bad : Bool) : TileV :=
  { vals := st.flatMap fun x => [BitVec.ofNat 64 x.1, BitVec.ofNat 64 x.2], sat := 0, poison := b2n bad }

/-- The place of partial records among a command's held tiles: band row, problem, range. -/
def statKey (r0 p i : Nat) : Nat := 2 ^ 48 + (r0 * 2 ^ 24 + p) * 4096 + i

/-- R148: partial records of all column ranges are added by `combine` in range order; a band in one range is written as
it is. -/
def bandStats (b : Nat) (c : Cmd) (n i p r0 : Nat) (st : List (Nat × Nat)) (bad : Bool) (s : State) : State :=
  if st = [] then s
  else if n ≤ 1 then writeStats b c p r0 st bad s
  else
    match cmdOf s c.uid with
    | none => s
    | some c1 =>
      let held := tput (statKey r0 p i) (statTile st bad) c1.held
      if (List.range n).all fun k => thas (statKey r0 p k) held then
        let t := combineTiles 1 ((List.range n).map fun k => tget tile0 held (statKey r0 p k))
        let s := modCmd c.uid (fun c => { c with held := (List.range n).foldl (fun l k => tdel (statKey r0 p k) l) held }) s
        let rec_ := (List.range st.length).map fun r => ((t.vals.getD (2 * r) 0#64).toNat, (t.vals.getD (2 * r + 1) 0#64).toNat)
        writeStats b c p r0 rec_ (t.poison != 0) (markSat c.uid (t.sat != 0) s)
      else modCmd c.uid (fun c => { c with held := held }) s

/-- The hold area of a band (R145, R146): its tiles in FP32, row by row; where two bands fit, bands take turns. -/
def holdBand (b : Nat) (c : Cmd) (p r0 : Nat) (m : Mat) (s : State) : State :=
  let d := c.desc
  let size := 256 * gN d
  let at_ := if fld d 584 32 ≥ 2 * size then (p * ceilDiv (gM d) 64 + r0 / 64) % 2 * size else 0
  let bs := m.flatMap fun r => r.flatMap fun v => toBytes 4 (encode .fp32 (rne32 v).1).1
  if fld d 402 1 = 1 then hostWrite (slAddr (cSlot c 11) + at_) bs false (.cmd c.uid b) false s
  else spWrite b (fld d 564 20 + at_) bs false s

/-- Poison that the drained tiles of a part bring to the output tile at row `i`, output column `j` of the part. -/
def heldPoison (d : Descriptor) (held : List (Nat × TileV)) (ts : List Nat) (r0 c0 p i j : Nat) : Bool :=
  let half := if (gEpi d).contains 3 then [j, j + gN d / 2] else [j]
  ts.any fun t =>
    let g := gTileAt d t 0
    decide (g.r0 = r0 + i) && half.any (fun k => g.c0 == c0 + k) && bit (tget tile0 held t).poison p

/-- Finish a part whose tiles `ts` are all held, statistics being spread over `n` ranges; `im` is 1 for the imaginary
group. -/
def finishPart (b : Nat) (c : Cmd) (im n : Nat) (ts : List Nat) (held : List (Nat × TileV)) (s : State) : State :=
  let d := c.desc
  let gs := ts.map fun t => gTileAt d t 0
  let g0 := gs.headD (gTile d 0)
  let r0 := (gs.map (·.r0)).foldl min g0.r0
  let c0 := (gs.map (·.c0)).foldl min g0.c0
  let i := (rangeWith (gColTiles d) n (ts.headD 0 % gColTiles d)).1
  let s := markSat c.uid (ts.any fun t => (tget tile0 held t).sat != 0) s
  (List.range g0.np).foldl (fun s p =>
    let q := g0.p0 + p
    let m := partMat d held ts p
    let half := (m.headD []).length / 2
    let ctx := gemmCtx s b c q r0 c0 half
    let res := epilogue ctx m
    let os := outTiles d res.codes.length ((res.codes.headD []).length)
    let hit := os.filter fun o => heldPoison d held ts r0 c0 p o.1 o.2.2.1 || epiPoison s b c q (r0 + o.1) (c0 + o.2.2.1) o.2.1 o.2.2.2
    let bad := fun i j => hit.any fun o => reaches d o.1 o.2.2.1 i j
    let s := if (gEpi d).contains 9 then holdBand b c q r0 (epMid ctx m).1 s else s
    let s := gemmWrite b c im q r0 c0 res bad (markSat c.uid res.sat s)
    let s := bandStats b c n i q r0 res.stats (bad 0 0) s
    let key := fun (o : Nat × Nat × Nat × Nat) =>
      tileUnit (tileItem d (ts.headD 0)) ((im + 2 * ((r0 + o.1) / gEdge d % 4)) * 2 ^ 20 + (c0 + o.2.2.1) / gEdge d) p
    countPoison c.uid ((os.filter fun o => bad o.1 o.2.2.1).map key) s) s

/-- `LONGSUM` of a group (R59), with `SPLIT_LONG` as without: R59 names every command that has such a tile (log entry
33). -/
def markLong (c : Cmd) (a : Acc) (s : State) : State :=
  if a.total > 65536 ∧ !dKaolin c.desc then flagCmd c.uid 1 s else s

/-! ### The partial-sum area (R61, R62, R178) -/

/-- The sums of a group's segments that stand in the area of a block's region. -/
def psumStack (s : State) (b uid item group : Nat) : List (TileV × Nat) :=
  match (regionAt s (b / 40)).parts.find? fun e => e.1 = uid && e.2.1 = item && e.2.2.1 = group with
  | some e => e.2.2.2
  | none => []

/-- A segment reaches the area and is added by `combine` (R61). -/
def psumPut (b uid item group np : Nat) (t : TileV) (s : State) : State :=
  let st := stackPush np (psumStack s b uid item group) t 1
  modRegion (b / 40) (fun r => { r with parts :=
    (r.parts.filter fun e => !(e.1 == uid && e.2.1 == item && e.2.2.1 == group)) ++ [(uid, item, group, st)] }) s

/-- The value of a drained group: its last segment added to the others. -/
def finTile (s : State) (b np : Nat) (x : Epi) : TileV :=
  match psumStack s b x.uid x.item x.group with
  | [] => x.acc.tile
  | st => if x.acc.rounds = 0 then stackEnd np st else stackEnd np (stackPush np st x.acc.tile 1)

/-- An item's entries of the area are returned as its result is written (R62). -/
def freePsum (b uid item : Nat) (s : State) : State :=
  modRegion (b / 40) (fun r => { r with
    psum := r.psum.filter fun e => !(e.1 == uid && e.2.1 == item)
    parts := r.parts.filter fun e => !(e.1 == uid && e.2.1 == item) }) s

/-! ### The BVU on a chain -/

/-- Operands formed for a pair of the job of a block: the pair's turn with the BVU is over. -/
def putP (b : Nat) (x : PBuf) (s : State) : State :=
  modBlock b (fun k => { k with job := k.job.map fun (j : Job) =>
    { j with pq := j.pq ++ [x], flight := j.flight.filter (· != x.tile) } }) s

/-- The chain's BVU work on a first product: the row function and P (R150). -/
def chainRow (b : Nat) (c : Cmd) (x : Epi) (s : State) : State :=
  let d := c.desc
  let t := gTile d x.item
  let h := x.group / 4
  let i := x.group % 4
  let (c0, nc) := chainCols d h i
  let fin := finTile s b t.np x
  match (blockAt s b).job with
  | none => s
  | some j =>
    if i + 1 < chainFirst d then
      let hold : Buf := { vals := tileVals fin, poison := fin.poison }
      modBlock b (fun k => { k with job := some { j with bufs := putBuf 3 hold j.bufs } }) (markSat c.uid (fin.sat != 0) s)
    else
      let first := j.bufs.getD 3 buf0
      let rows := t.np * t.nr
      let m : Mat := (List.range rows).map fun r =>
        (if chainFirst d = 2 then (first.vals.drop (r * nc)).take nc else []) ++ ((tileVals fin).drop (r * nc)).take nc
      let hid := fun k => if chainFirst d = 2 then (if k < nc then 64 * h + k else c0 + (k - nc)) else c0 + k
      let ctx := gemmCtx s b c t.p0 t.r0 0 nc
      let ctx : EpCtx := { ctx with beta := if hasSlot c 4 then some fun k => slF32 s b (cSlot c 4) (hid k) else none }
      let m1 := mat32 m
      let r := (gEpi d).foldl (epStep ctx) (m1.1, m1.2, [])
      let qs := r.1.map (pRow (fld d 395 1 = 1))
      let epiBad : Bool := hasSlot c 4 && (gEpi d).contains 1 && (slPoison s b (cSlot c 4) (4 * c0) (4 * nc)
        || (chainFirst d = 2 && slPoison s b (cSlot c 4) (4 * 64 * h) (4 * nc)))
      let p : Buf := { vals := qs.flatMap (·.1), poison := fin.poison ||| (if chainFirst d = 2 then first.poison else 0) ||| (if epiBad then 2 ^ t.np - 1 else 0) }
      let sat := fin.sat != 0 || r.2.1 || qs.any (·.2)
      putP b { tile := h, bufs := [p], scale := [] } (markSat c.uid sat s)

/-- Write an output group of a chain in FP32. -/
def chainOut (b : Nat) (c : Cmd) (x : Epi) (s : State) : State :=
  let d := c.desc
  let t := gTile d x.item
  let q := x.group - 2 ^ 32
  let nc := min 64 (gN d - 64 * q)
  let fin := finTile s b t.np x
  let vs := (tileVals fin).map rne32
  let s := markSat c.uid (fin.sat != 0 || vs.any (·.2)) s
  (List.range t.np).foldl (fun s p =>
    let res : EpRes := { codes := (List.range t.nr).map fun r => (((vs.drop ((p * t.nr + r) * nc)).take nc).map fun v => (encode .fp32 v.1).1)
                         scales := [], stats := [], sat := false }
    let bad := bit fin.poison p
    let s := (List.range t.nr).foldl (fun s r =>
      slotWrite c.uid b (cSlot c 3) (elemOff (cSlot c 3) (gD d) (gN d) 0 ((t.p0 + p) * gM d + t.r0 + r) (64 * q)) (packCodes 32 (res.codes.getD r [])) bad s) s
    countPoison c.uid (if bad then (List.range (ceilDiv nc (gEdge d))).map fun k => tileUnit x.item (4 * q + k) p else []) s) s

/-- Units of a command have been written. -/
def itemDone (uid : Nat) (ids : List Nat) (s : State) : State :=
  modCmd uid (fun c => { c with done := ids.foldl (fun l i => setIns i l) c.done }) s

/-- Units that a matrix product completes. -/
def gUnits (d : Descriptor) : Nat := if gChain d then gItems d else gTiles d

/-- The tile of an epilogue-queue entry of an item that is no chain, and whether it is the imaginary group's. -/
def epiTile (d : Descriptor) (x : Epi) : Nat × Nat :=
  let ts := itemTiles d x.item
  (ts.getD ((x.group - 2 ^ 32) % max 1 ts.length) 0, (x.group - 2 ^ 32) / max 1 ts.length)

/-- The last group of its item. -/
def lastGroup (d : Descriptor) (x : Epi) : Bool := x.group - 2 ^ 32 + 1 = (gIms d).length * (itemTiles d x.item).length

/-- `EPILOGUE_TILE` for a matrix product. -/
def gemmEpi (b : Nat) (c : Cmd) (x : Epi) (s : State) : State :=
  let d := c.desc
  let s := markLong c x.acc s
  if gChain d then
    if x.group < 2 ^ 32 then chainRow b c x s
    else
      let s := chainOut b c x s
      if x.group - 2 ^ 32 + 1 = chainOuts d then freePsum b c.uid x.item (itemDone c.uid [x.item] s) else s
  else
    let (tile, grp) := epiTile d x
    let range := itemRange d x.item
    let np := (gTileAt d tile range).np
    let fin := finTile s b np x
    let n := gRanges d
    let key := fun i => 2 * (tile * n + i) + grp
    let free := fun s => if lastGroup d x then freePsum b c.uid x.item s else s
    -- ranges wait for the others of their output, and are added in range order (R65)
    let parts := if n = 1 then [] else tput (key range) fin c.partials
    let have_ := n = 1 || (List.range n).all fun i => thas (key i) parts
    if !have_ then free (modCmd c.uid (fun c => { c with partials := parts }) s)
    else
      let full := if n = 1 then fin else combineTiles np ((List.range n).map fun i => tget tile0 parts (key i))
      let parts := if n = 1 then c.partials else (List.range n).foldl (fun l i => tdel (key i) l) parts
      -- tiles wait for the rest of their part (R134, R145, R147); the imaginary group is kept apart
      let hk := fun t => 2 * t + grp
      let held := tput (hk tile) full c.held
      let cut := statCut s d
      let ts := partTiles d cut tile
      if ts.all fun k => thas (hk k) held then
        let view := ts.map fun k => (k, tget tile0 held (hk k))
        let s := modCmd c.uid (fun c => { c with partials := parts, held := ts.foldl (fun l k => tdel (hk k) l) held }) s
        let s := finishPart b c grp cut ts view s
        free (if grp + 1 = (gIms d).length then itemDone c.uid ts s else s)
      else free (modCmd c.uid (fun c => { c with partials := parts, held := held }) s)

/-- R134: the first tile of a `GATE` pair waits in the drain area for its partner, the tile in the neighbouring place;
the pair leaves together. Answers the partner's entry, none when it has not drained. -/
def gatePartner (d : Descriptor) (x : Epi) (q : List Epi) : Option Epi :=
  let place := fun t => if t % gColTiles d % 2 = 0 then t + 1 else t - 1
  q.find? fun y => y.uid = x.uid && (epiTile d y).2 = (epiTile d x).2 && (epiTile d y).1 = place (epiTile d x).1

/-- Does the tile wait for a partner? -/
def gatePairs (d : Descriptor) : Bool := (dOp d = 1 || dOp d = 2) && (gEpi d).contains 3 && !gChain d && gRanges d = 1

end Sys2Proof.Machine
end

