-- ==== Sys2Proof/Machine/Pages.lean ====
section
/-! DEFINITION. Pages of the paged cache as readers meet them (R197 to R199, R206, R207, R215, R226, R504):
sections, elements, scales, loam keys, checks, and the words of page tables. -/

namespace Sys2Proof.Machine

/-! ### Sections (R198, Table 07.2) -/

/-- Element width in bits of a page format. -/
def pageBits (fmt : Nat) : Nat := if fmt = 3 then 8 else if fmt = 4 then 4 else 16

def pageFmt (fmt : Nat) : Fmt := if fmt = 3 then .int8 else if fmt = 4 then .int4 else .bf16

/-- σ of R198: bytes of the K and V scales. -/
def pageSig (fmt d : Nat) : Nat := if fmt = 3 ∨ fmt = 4 then d / 8 else 0

/-- Bytes of K and V of a section. -/
def pageData (fmt d : Nat) : Nat := 32 * d * pageBits fmt / 8

/-- Z: the section's side area holds scales, loam key, loam scales and two CRCs, padded to 64 bytes (Table 07.2). -/
def pageZ (fmt d : Nat) : Nat :=
  pageData fmt d + ceilDiv (pageSig fmt d + d + d / 16 + 8) 64 * 64

/-- Bytes of a page of H heads. -/
def pageSize (fmt d h : Nat) : Nat := 64 + h * pageZ fmt d

/-- First byte of the section of head `h`. -/
def secAt (frame fmt d h : Nat) : Nat := frame + 64 + h * pageZ fmt d

/-- Address of the element of token t, channel c; `v` for V. -/
def pageElemAt (frame fmt d h : Nat) (v : Bool) (t ch : Nat) : Nat :=
  secAt frame fmt d h + (if v then pageData fmt d / 2 else 0) + (t * d + ch) * pageBits fmt / 8

/-- The element, without its scale. -/
def pageElem (s : State) (r frame fmt d h : Nat) (v : Bool) (t ch : Nat) : Val :=
  let n := nvNat s r (pageElemAt frame fmt d h v t ch) (max 1 (pageBits fmt / 8))
  decode (pageFmt fmt) (if fmt = 4 then (if ch % 2 = 0 then n % 16 else n / 16) else n)

/-- The group scale that governs it (R206). -/
def pageScale (s : State) (r frame fmt d h : Nat) (v : Bool) (ch : Nat) : Val :=
  if fmt = 3 ∨ fmt = 4 then
    fp16Scale (nvNat s r (secAt frame fmt d h + pageData fmt d + (if v then d / 16 else 0) + 2 * (ch / 32)) 2)
  else vOne

/-- Address of a loam key with its scales: d + d/16 bytes of a sealed page's side area (R198). -/
def loamAt (frame fmt d h : Nat) : Nat := secAt frame fmt d h + pageData fmt d + pageSig fmt d

/-- The loam key of a frame and head: from the region's loam summaries, or on a miss from the side area (R228). -/
def loamBytes (s : State) (r num frame fmt d h : Nat) : List Byte :=
  match (regionAt s r).loam.find? fun e => e.1 = num * 64 + h with
  | some e => toBytes (d + d / 16) e.2
  | none => nvBytes s r (loamAt frame fmt d h) (d + d / 16)

/-- Loam key element and group scale (R198, R203). -/
def loamElem (bs : List Byte) (ch : Nat) : Val := decode .int8 (bs.getD ch 0).toNat

def loamScale (bs : List Byte) (d ch : Nat) : Val :=
  fp16Scale ((bs.getD (d + 2 * (ch / 32)) 0).toNat + 256 * (bs.getD (d + 2 * (ch / 32) + 1) 0).toNat)

/-! ### Checks (R207) -/

/-- The header's own check and its agreement with the page descriptor. -/
def headerOk (s : State) (r : Nat) (c : Cmd) (p : PageDesc) : Bool :=
  let bs := nvBytes s r p.frameAddr 64
  let v := ofBytes bs
  decide (bits v 480 32 = crc32c (bs.take 60)) && decide (bits v 16 8 = cLayer c.desc) && decide (bits v 80 16 = p.pageIdx % 65536)
  && decide (bits v 96 20 = p.pos0) && decide (bits v 0 8 = p.fmt) && !nvPoison s r p.frameAddr 64

/-- `DATA_CRC` of a sealed section, or the row CRCs of the tokens read of an open one. -/
def sectionOk (s : State) (r d : Nat) (p : PageDesc) (h : Nat) : Bool :=
  let a := secAt p.frameAddr p.fmt d h
  if p.fmt = 1 then
    (List.range p.used).all fun t =>
      let row := nvBytes s r (a + t * 2 * d) (2 * d) ++ nvBytes s r (a + pageData 1 d / 2 + t * 2 * d) (2 * d)
      decide (nvNat s r (a + pageData 1 d + 4 * t) 4 = crc32c row)
  else
    decide (nvNat s r (a + pageZ p.fmt d - 8) 4 = crc32c (nvBytes s r a (pageData p.fmt d + pageSig p.fmt d)))

def loamOk (s : State) (r d : Nat) (p : PageDesc) (h : Nat) : Bool :=
  let a := secAt p.frameAddr p.fmt d h
  decide (nvNat s r (a + pageZ p.fmt d - 4) 4
    = crc32c (nvBytes s r (a + pageData p.fmt d + pageSig p.fmt d) (d + d / 16)))

/-- Poisoned bytes in the section read. -/
def sectionPoison (s : State) (r d : Nat) (p : PageDesc) (h : Nat) : Bool :=
  nvPoison s r (secAt p.frameAddr p.fmt d h) (pageZ p.fmt d)

/-- A page whose keys are read: it has a frame and tokens. -/
def pageLive (p : PageDesc) : Bool := !p.hole && !p.dropped && p.used != 0

/-- A page fails its checks for a head. -/
def pageFails (s : State) (r : Nat) (c : Cmd) (p : PageDesc) (h : Nat) : Bool :=
  p.noPool || p.bad || !headerOk s r c p || !sectionOk s r (aD c.desc) p h

/-! ### Words of page tables (Tables 07.7 to 07.9) -/

/-- The address of a root (R214). -/
def rootAddr (s : State) (seq layer : Nat) : Nat := odv s 0x3300 3 + (seq * odv s 0x3300 2 + layer) * 64

def leafAddr (s : State) (slot : Nat) : Nat := odv s 0x3200 2 + 4096 * slot

/-- Check of a directory or leaf entry (R215). -/
def entryCrcOk (e : Nat) : Bool := decide (bits e 112 16 = crc16 (toBytes 14 e))

/-- An entry with its check. -/
def sealEntry (e : Nat) : Nat := e % 2 ^ 112 + crc16 (toBytes 14 e) * 2 ^ 112

/-- A root, or a header, with the CRC over its first 60 bytes. -/
def sealRoot (v : Nat) : Nat := v % 2 ^ 480 + crc32c (toBytes 60 v) * 2 ^ 480

/-- The pool of a frame: the enabled pool whose range holds it (R208, R504). -/
def poolOf (s : State) (f : Nat) : Option Nat :=
  (List.range 8).find? fun p =>
    odv s 0x3200 (0x20 + p) != 0
    && decide (bits (odv s 0x3200 (0x30 + p)) 0 24 ≤ f)
    && decide (f < bits (odv s 0x3200 (0x30 + p)) 0 24 + bits (odv s 0x3200 (0x30 + p)) 24 25)

def frameAddr (s : State) (f : Nat) : Nat :=
  match poolOf s f with
  | some p => odv s 0x3200 (0x10 + p) + (f - bits (odv s 0x3200 (0x30 + p)) 0 24) * odv s 0x3200 (0x20 + p)
  | none => 0

/-- What a read of an entry of the page table gives: the entry, or a failed check (R223, R433). -/
def dirEntry (s : State) (dir i : Nat) : Nat := hostNat s (leafAddr s dir + 16 * i) 16
def leafEntry (s : State) (leaf i : Nat) : Nat := hostNat s (leafAddr s leaf + 16 * i) 16

def dirBad (s : State) (dir i epoch : Nat) : Bool :=
  let e := dirEntry s dir i
  !entryCrcOk e || bits e 0 2 != 1 || decide (bits e 64 32 > epoch) || hostPoison s (leafAddr s dir + 16 * i) 16

def leafBad (s : State) (leaf i epoch : Nat) : Bool :=
  let e := leafEntry s leaf i
  !entryCrcOk e || bits e 0 2 = 3 || decide (bits e 64 32 > epoch) || hostPoison s (leafAddr s leaf + 16 * i) 16

/-! ### Roots (R214, R218) -/

def rootNat (s : State) (seq layer : Nat) : Nat := hostNat s (rootAddr s seq layer) 64

/-- FREE under R218. -/
def rootFree (v : Nat) : Bool := v = 0 || (bits v 0 2 = 0 && bits v 480 32 = crc32c (toBytes 60 v))

/-- A failed check of the root (R218, R223, R433). -/
def rootBad (s : State) (seq layer : Nat) : Bool :=
  let v := rootNat s seq layer
  hostPoison s (rootAddr s seq layer) 64 || (!rootFree v && (bits v 480 32 != crc32c (toBytes 60 v) || bits v 0 2 != 1))

end Sys2Proof.Machine
end

