-- ==== Sys2Proof/Machine/Attn.lean ====
section
/-! DEFINITION. Attention on a block (R113 to R124, R128, R156 to R177, R206): row blocks, key tiles, scores,
masks, the softmax step, finished rows and partial records. -/

namespace Sys2Proof.Machine

/-! ### Rows -/

/-- The rows of a row block: head of the keys, number of rows, and row number and query head of each. -/
structure RowSet where
  kh : Nat
  n : Nat
  row : Nat → Nat
  head : Nat → Nat

/-- Rows of a row block: 64 query positions of one head (R115). -/
def rowBlock (d : Descriptor) (i h : Nat) : RowSet :=
  { kh := h / aGroup d, n := min 64 (aRows d - 64 * i), row := fun r => 64 * i + r, head := fun _ => h }

/-- Rows of a request for one key/value head: by query head, then token (R177). -/
def cachedRows (d : Descriptor) (kh : Nat) : RowSet :=
  { kh := kh, n := aGroup d * aRows d, row := fun r => r % aRows d, head := fun r => kh * aGroup d + r / aRows d }

/-! ### Row groups (R166) -/

/-- Row groups of the query tiles of one query block, and of `n` query tiles. -/
def groupsOf (d : Descriptor) (n : Nat) : Nat := ceilDiv (aGroup d * n) (rowGroup d)

/-- Query blocks: stretches of query tiles that read the same keys. -/
def aBlocks (d : Descriptor) : Nat := ceilDiv (qTiles d) (max 1 (aSame d))

/-- Query tiles of a query block. -/
def tilesIn (d : Descriptor) (qb : Nat) : Nat := min (aSame d) (qTiles d - qb * aSame d)

/-- Row groups of one key/value head. -/
def headGroups (d : Descriptor) : Nat := ((List.range (aBlocks d)).map fun qb => groupsOf d (tilesIn d qb)).sum

/-- Row groups of a command. -/
def groupItems (d : Descriptor) : Nat := headGroups d * aKvHeads d

/-- A row group: its query block, its place in it, and its key/value head. -/
def groupAtItem (d : Descriptor) (i : Nat) : Nat × Nat × Nat :=
  let g := i / aKvHeads d
  let per := max 1 (groupsOf d (aSame d))
  let qb := min (g / per) (aBlocks d - 1)
  (qb, g - qb * per, i % aKvHeads d)

/-- Row blocks of a row group, as (query tile, query head): the heads of a query tile first (R166). -/
def groupRows (d : Descriptor) (i : Nat) : List (Nat × Nat) :=
  let (qb, k, kh) := groupAtItem d i
  let n := rowGroup d
  (List.range (min n (aGroup d * tilesIn d qb - k * n))).map fun r =>
    (qb * aSame d + (k * n + r) / aGroup d, kh * aGroup d + (k * n + r) % aGroup d)

/-- Row blocks of a work item of a forward pass: those of a row group, or the rows of a request (R177). -/
def rowsOfItem (d : Descriptor) (item : Nat) : Nat := if dOp d = 0x12 then 1 else (groupRows d item).length

/-- Row block `r` of a work item. -/
def attnRows (d : Descriptor) (item r : Nat) : RowSet :=
  if dOp d = 0x12 then cachedRows d (item % aKvHeads d)
  else let x := (groupRows d item).getD r (0, 0); rowBlock d x.1 x.2

/-- The number that names a row block among a command's finished units. -/
def rowUnit (d : Descriptor) (item r : Nat) : Nat :=
  if dOp d = 0x12 then item else let x := (groupRows d item).getD r (0, 0); x.1 * aQHeads d + x.2

/-- A pair of a member of a work item and a tile, and back (R167). -/
def pairOf (r t : Nat) : Nat := r * 2 ^ 20 + t
def pairRow (p : Nat) : Nat := p / 2 ^ 20
def pairTile (p : Nat) : Nat := p % 2 ^ 20

/-! ### Keys -/

/-- A key position of a tile. -/
inductive KRef where
  | dense (k : Nat)
  | page (p : PageDesc) (t : Nat)
  /-- past the end of the keys, or a position without a frame (R163) -/
  | past
  deriving DecidableEq, Repr

/-- A key tile: 64 dense keys, or up to four pages. -/
inductive KTile where
  | dense (j : Nat)
  | pages (l : List PageDesc)
  deriving DecidableEq, Repr

def kRef (d : Descriptor) (t : KTile) (i : Nat) : KRef :=
  match t with
  | .dense j => if 64 * j + i < aKLen d then .dense (64 * j + i) else .past
  | .pages l =>
    match l[i / 16]? with
    | some p => if pageLive p && decide (i % 16 < p.used) then .page p (i % 16) else .past
    | none => .past

def kPos (d : Descriptor) : KRef → Nat
  | .dense k => aKPos0 d + k
  | .page p t => p.pos0 + t
  | .past => 0

/-- Segment id of a key (R162, R199). -/
def kSeg (s : State) (b : Nat) (c : Cmd) : KRef → Nat
  | .dense k => slNat s b (cSlot c 6) (strideOf (cSlot c 6) 2 * k) 2
  | .page p t =>
    -- nothing is read of a page that has no frame address (R504)
    let v := if p.noPool then 0 else nvNat s (b / 40) p.frameAddr 64
    if bits v 36 1 = 1 then bits v (224 + 16 * t) 16 else 0
  | .past => 0

def qSeg (s : State) (b : Nat) (c : Cmd) (row : Nat) : Nat := slNat s b (cSlot c 5) (strideOf (cSlot c 5) 2 * row) 2

def qPos (d : Descriptor) (row : Nat) : Nat := aQPos0 d + row

/-- The selection list of a query block and head (Table 06.6): its entries. -/
def selList (s : State) (d : Descriptor) (x : ArgSlot) (qb kh : Nat) : List Nat :=
  let a := slAddr x + (qb * aKvHeads d + kh) * 544
  (List.range (min 134 (hostNat s a 1))).map fun i => hostNat s (a + 8 + 4 * i) 4

/-- Pages per range of ATTN_CACHED for N pages (R178). -/
def rangePages (d : Descriptor) (n : Nat) : Nat :=
  if aRange d = 0 then max 16 (pow2ceil n / 64) else 2 ^ aRange d

/-- Pages that the key head of a query row reads, in key order: those listed, or those of the table. -/
def keyPages (s : State) (c : Cmd) (row kh : Nat) : List PageDesc :=
  let d := c.desc
  if aRoute d then
    let qb := if dOp d = 0x12 then 0 else row / aBlock d
    (selList s d (cSlot c 8) qb kh).filterMap fun i => c.pages.find? fun p => p.pageIdx = i
  else c.pages

/-- N of R178: pages up to the one that holds the last new token, or the entries of the list. -/
def cachedN (s : State) (c : Cmd) (kh : Nat) : Nat :=
  let d := c.desc
  let l := keyPages s c 0 kh
  if aRoute d then l.length
  else
    let lastPos := aQPos0 d + aRows d - 1
    match l.findIdx? fun p => !p.hole && decide (p.pos0 ≤ lastPos ∧ lastPos < p.pos0 + 16) with
    | some i => i + 1
    | none => l.length

/-- Key tiles of a row block, in key order (R162, R178, R186). -/
def keyTiles (s : State) (c : Cmd) (item : Nat) : List KTile :=
  let d := c.desc
  let rs := attnRows d item 0
  if dOp d = 0x12 then
    let l := (keyPages s c 0 rs.kh).take (cachedN s c rs.kh)
    let p := rangePages d (cachedN s c rs.kh)
    let range := item / aKvHeads d
    (chunks 4 ((l.drop (range * p)).take p)).map .pages
  else
    (if aKvSrc d = 0 then [] else (chunks 4 (keyPages s c (rs.row 0) rs.kh)).map .pages)
    ++ (if aKvSrc d = 1 then [] else (List.range (ceilDiv (aKLen d) 64)).map .dense)

/-! ### Skipping and masks (R162, R164) -/

def listMin (l : List Nat) : Nat := l.foldl min (l.headD 0)
def listMax (l : List Nat) : Nat := l.foldl max 0

/-- R164 for rows with positions and segment ids. -/
def tileSkipped (s : State) (b : Nat) (c : Cmd) (rs : RowSet) (t : KTile) : Bool :=
  let d := c.desc
  let ks := ((List.range 64).map (kRef d t)).filter (· != .past)
  let rows := (List.range rs.n).map rs.row
  let kp := ks.map (kPos d)
  let qp := rows.map (qPos d)
  let klo := listMin kp
  let khi := listMax kp
  let qlo := listMin qp
  let qhi := listMax qp
  let w := aWindow d
  let causal := bit (aMask d) 0
  let win := bit (aMask d) 1
  ks.isEmpty
  || (causal && decide (klo > qhi))
  || (causal && win && decide (qlo ≥ khi + w))
  || (!causal && win && (decide (qlo ≥ khi + w) || decide (klo ≥ qhi + w)))
  || (bit (aMask d) 2 &&
      (let sk := ks.map (kSeg s b c)
       let sq := rows.map (qSeg s b c)
       -- the ids of a page without a frame address are unknown: its tile is fed and meets the failed check (R504)
       !(ks.any fun k => match k with | .page p _ => p.noPool | _ => false)
       && (decide (listMax sk < listMin sq) || decide (listMax sq < listMin sk))))

/-- Numbers of the key tiles that the scheduler feeds to row block `r` of an item. -/
def fedTiles (s : State) (b : Nat) (c : Cmd) (item r : Nat) : List Nat :=
  let ts := keyTiles s c item
  (List.range ts.length).filter fun i => !tileSkipped s b c (attnRows c.desc item r) (ts.getD i (.dense 0))

/-- Key tile `t` of an item. -/
def itemTileAt (s : State) (c : Cmd) (item t : Nat) : KTile := (keyTiles s c item).getD t (.dense 0)

/-- The pairs of a set of members with the tiles fed to each, in spans of `n` tiles: for each span every member in turn
(R167). -/
def spanPairs (n members tiles : Nat) (fed : Nat → List Nat) : List Nat :=
  let n := max 1 n
  (List.range (ceilDiv tiles n)).flatMap fun k => (List.range members).flatMap fun r =>
    ((fed r).filter fun t => t / n = k).map (pairOf r)

/-- The pairs of a forward item, in order (R167, R169). -/
def fwdPairs (s : State) (b : Nat) (c : Cmd) (item : Nat) : List Nat :=
  spanPairs (keySpan c.desc) (rowsOfItem c.desc item) (keyTiles s c item).length (fedTiles s b c item)

/-- R162: is the element unmasked? -/
def unmasked (s : State) (b : Nat) (c : Cmd) (row : Nat) (k : KRef) : Bool :=
  let d := c.desc
  let q := qPos d row
  let p := kPos d k
  let w := aWindow d
  k != .past
  && (!bit (aMask d) 0 || decide (p ≤ q))
  && (!bit (aMask d) 1 || (if bit (aMask d) 0 then decide (q < p + w) else decide (q < p + w ∧ p < q + w)))
  && (!bit (aMask d) 2 || qSeg s b c row = kSeg s b c k)

/-! ### Bias (R159, R160) -/

def bucket (neg : Bool) (a : Nat) : Nat :=
  let u := if a < 16 then a else let e := a.log2; 16 + 15 * (e - 4) + (a - 2 ^ e) * 15 / 2 ^ e
  if neg then 256 + u else u

/-- The table of the command in the bank that it latched: bank and number. -/
def biasTable (c : Cmd) : Nat × Nat := (c.biasBank, aBias c.desc - 1)

def biasBase (s : State) (c : Cmd) : Nat :=
  odv s 0x3100 ((if c.biasBank = 0 then 0x10 else 0x20) + aBias c.desc - 1) % 2 ^ 52

/-- A head's bias row as the block reads it from memory, volatile: 1 KiB (R160, R297). -/
def biasFetch (s : State) (c : Cmd) (head : Nat) : BiasRow :=
  { uid := c.uid, head := head, row := hostNat s (biasBase s c + 1024 * head) 1024
    poison := hostPoison s (biasBase s c + 1024 * head) 1024 }

/-- The bias row of a head: from the row buffer of the block's BVU. -/
def biasRow (s : State) (b : Nat) (c : Cmd) (head : Nat) : BiasRow :=
  ((blockAt s b).bias.find? fun x => x.uid = c.uid && x.head = head).getD (biasFetch s c head)

/-- The bias of a query and key position. Values of a table written while a bank that names it was current or latched
are undefined (R160): free values. -/
def biasAt (s : State) (b : Nat) (c : Cmd) (head q k : Nat) : Val :=
  if aBias c.desc = 0 then vZero
  else
    let i := bucket (decide (q < k)) (if q < k then k - q else q - k)
    if s.front.spoiled.contains (16 * c.biasBank + (aBias c.desc - 1)) then
      decode .fp16 (Config.freeNat (2 ^ 80 + (c.uid * 256 + head) * 512 + i) % 65536)
    else decode .fp16 (bits (biasRow s b c head).row (16 * i) 16)

def biasPoison (s : State) (b : Nat) (c : Cmd) (head : Nat) : Bool := aBias c.desc != 0 && (biasRow s b c head).poison

/-- When a row block starts, its block fetches the head's bias row into one of the two row buffers (R160). -/
def biasLoad (b : Nat) (c : Cmd) (head : Nat) (s : State) : State :=
  if aBias c.desc = 0 || (blockAt s b).bias.any (fun x => x.uid = c.uid && x.head = head) then s
  else
    let x := biasFetch s c head
    modBlock b (fun k => { k with bias := (k.bias ++ [x]).drop ((k.bias.length + 1) - 2) }) s

/-! ### Operands of the products (R158, R206) -/

/-- A row of Q, or of a tensor laid out like it: element and scale of channel `ch`. -/
def headElem (s : State) (b : Nat) (x : ArgSlot) (f heads dim row head ch : Nat) : Val × Val :=
  (elemAt s b x f (heads * dim) 0 row (head * dim + ch), scaleAt s b x f 0 ((row * heads + head) * ceilDiv dim 32 + ch / 32))

/-- Element and scale of a key (R206). -/
def keyElem (s : State) (b : Nat) (c : Cmd) (kh : Nat) (k : KRef) (ch : Nat) : Val × Val :=
  let d := c.desc
  match k with
  | .dense k => headElem s b (cSlot c 1) (aKvFmt d) (aKvHeads d) (aD d) k kh ch
  | .page p t =>
    if p.noPool then (vZero, vOne)
    else (pageElem s (b / 40) p.frameAddr p.fmt (aD d) kh false t ch, pageScale s (b / 40) p.frameAddr p.fmt (aD d) kh false ch)
  | .past => (vZero, vOne)

/-- First scale of a key's values: scale groups of dense V run along the key axis (log entry 20). -/
def vScaleAt (d : Descriptor) (kh k : Nat) : Nat := k / 32 * (aKvHeads d * aD d) + kh * aD d

/-- Byte of a dense value relative to its slot, and the bytes that hold it: 4-bit values of two keys share bytes, since
the value product reduces over keys (R35). -/
def valOff (c : Cmd) (kh k ch : Nat) : Nat :=
  let d := c.desc
  let x := cSlot c 2
  let f := aKvFmt d
  if f = 5 ∨ f = 7 then pairOff x (aKvHeads d * aD d) 0 (k / 2) (kh * aD d + ch)
  else elemOff x f (aKvHeads d * aD d) 0 k (kh * aD d + ch)

/-- Bytes of one key's channels of V in a head. -/
def valBytes (d : Descriptor) : Nat := if aKvFmt d = 5 ∨ aKvFmt d = 7 then aD d else rowBytes (aKvFmt d) (aD d)

/-- Element and scale of a value. -/
def valElem (s : State) (b : Nat) (c : Cmd) (kh : Nat) (k : KRef) (ch : Nat) : Val × Val :=
  let d := c.desc
  match k with
  | .dense k =>
    (if aKvFmt d = 5 ∨ aKvFmt d = 7 then nibbleAt s b (cSlot c 2) (aKvFmt d) (valOff c kh k ch) k
     else elemAt s b (cSlot c 2) (aKvFmt d) (aKvHeads d * aD d) 0 k (kh * aD d + ch),
     scaleAt s b (cSlot c 2) (aKvFmt d) 0 (vScaleAt d kh k + ch))
  | .page p t =>
    if p.noPool then (vZero, vOne)
    else (pageElem s (b / 40) p.frameAddr p.fmt (aD d) kh true t ch, pageScale s (b / 40) p.frameAddr p.fmt (aD d) kh true ch)
  | .past => (vZero, vOne)

/-- The query element of row `i` of row block `r`: from the rotary prologue's buffer when one is named. -/
def qElem (s : State) (b : Nat) (c : Cmd) (j : Job) (rs : RowSet) (r i ch : Nat) : Val × Val :=
  let d := c.desc
  if (proOf d 304) = [] then headElem s b (cSlot c 0) (aQFmt d) (aQHeads d) (aD d) (rs.row i) (rs.head i) ch
  else (((proBufs s b j 0).getD 0 buf0).vals.getD ((64 * r + i) * aD d + ch) vZero, vOne)

/-- Rate class of a key tile: its widest page format (R206). -/
def tileClass (d : Descriptor) : KTile → Nat
  | .dense _ => fmtClass (aKvFmt d)
  | .pages l => l.foldl (fun m p => max m (if !pageLive p then 0 else if p.fmt = 3 then 1 else if p.fmt = 4 then 0 else 2)) 0

def pClass (d : Descriptor) : Nat := if dKaolin d ∨ aPFmt d = 1 then 2 else 1

/-- Host lines of `n` bytes at an address. -/
def lineSpan (a n : Nat) : List Nat :=
  if n = 0 then [] else (List.range ((a + n - 1) / 128 - a / 128 + 1)).map fun i => addr52 (128 * (a / 128 + i)) / 128

/-- Lines of a row of a head's channels in a stored tensor. -/
def headLines (x : ArgSlot) (f heads dim row head : Nat) : List Nat :=
  if slLoc x ≠ 0 then []
  else lineSpan (slAddr x + elemOff x f (heads * dim) 0 row (head * dim)) (rowBytes f dim)
    ++ (if slScale x = 0 then [] else lineSpan (slAddr x + slScale x + scaleBytes f * ((row * heads + head) * ceilDiv dim 32)) (scaleBytes f * ceilDiv dim 32))

def keyLines (c : Cmd) (kh : Nat) (v : Bool) (ks : List KRef) : List Nat :=
  let d := c.desc
  numSet (ks.flatMap fun k =>
    match k with
    | .dense k =>
      let x := cSlot c 2
      if !v then headLines (cSlot c 1) (aKvFmt d) (aKvHeads d) (aD d) k kh
      else if slLoc x ≠ 0 then []
      else lineSpan (slAddr x + valOff c kh k 0) (valBytes d)
        ++ (if slScale x = 0 then [] else
          lineSpan (slAddr x + slScale x + scaleBytes (aKvFmt d) * vScaleAt d kh k) (scaleBytes (aKvFmt d) * aD d))
    | .page p _ => if p.noPool then [] else lineSpan p.frameAddr 64 ++ lineSpan (secAt p.frameAddr p.fmt (aD d) kh) (pageZ p.fmt (aD d))
    | .past => [])

/-- Poison of a row of channels of a stored tensor. -/
def headPoison (s : State) (b : Nat) (x : ArgSlot) (f heads dim row head : Nat) : Bool :=
  slPoison s b x (elemOff x f (heads * dim) 0 row (head * dim)) (rowBytes f dim)
  || (slScale x != 0 && slPoison s b x (slScale x + scaleBytes f * ((row * heads + head) * ceilDiv dim 32)) (scaleBytes f * ceilDiv dim 32))

def vScalePoison (s : State) (b : Nat) (c : Cmd) (kh k : Nat) : Bool :=
  let d := c.desc
  let x := cSlot c 2
  slScale x != 0 && slPoison s b x (slScale x + scaleBytes (aKvFmt d) * vScaleAt d kh k) (scaleBytes (aKvFmt d) * aD d)

/-- Pages of a tile. -/
def tilePages : KTile → List PageDesc
  | .dense _ => []
  | .pages l => l.filter pageLive

/-- Poison that a key tile brings to a row block: bad units, failed page checks, segment ids (R207, R430). -/
def tilePoison (s : State) (b : Nat) (c : Cmd) (kh : Nat) (t : KTile) : Bool :=
  let d := c.desc
  let ks := (List.range 64).map (kRef d t)
  entryPoison s b (entriesOf [cSlot c 1, cSlot c 2])
  || (tilePages t).any (fun p => pageFails s (b / 40) c p kh || (!p.noPool && sectionPoison s (b / 40) (aD d) p kh))
  || ks.any fun k => match k with
    | .dense k =>
      headPoison s b (cSlot c 1) (aKvFmt d) (aKvHeads d) (aD d) k kh
      || slPoison s b (cSlot c 2) (valOff c kh k 0) (valBytes d)
      || vScalePoison s b c kh k || (bit (aMask d) 2 && slPoison s b (cSlot c 6) (strideOf (cSlot c 6) 2 * k) 2)
    | _ => false

/-- Poison that the rows of row block `r` bring. -/
def rowsPoison (s : State) (b : Nat) (c : Cmd) (j : Job) (rs : RowSet) (r : Nat) : Bool :=
  let d := c.desc
  bit ((proBufs s b j 0).getD 0 buf0).poison r || entryPoison s b (entriesOf [cSlot c 0])
  || (List.range rs.n).any fun i =>
    headPoison s b (cSlot c 0) (aQFmt d) (aQHeads d) (aD d) (rs.row i) (rs.head i)
    || biasPoison s b c (rs.head i) || (bit (aMask d) 2 && slPoison s b (cSlot c 5) (strideOf (cSlot c 5) 2 * rs.row i) 2)

/-! ### Products of a forward row block (R165) -/

def chGroups (d : Descriptor) : Nat := ceilDiv (aD d) 64

/-- A held operand of Kaolin mode (R84): `width` columns over a reduction of a class, S64 rounding points. -/
def kaolinHeld (d : Descriptor) (cls width : Nat) (key : List Nat) (elem : Nat → Nat → Val × Val)
    (term : (Nat → Nat → Val × Val) → Nat → Nat → Val) : Option Held :=
  if dKaolin d then some { key := fun n => key ++ [n], width := width, span := heldSpan cls, elem := elem, term := term } else none

/-- Score product of a tile: rows by 64 keys over the channels. With d up to 128 score tiles alternate between banks 2
and 3, above that they use bank 3 (R165). -/
def scoreProd (s : State) (b : Nat) (c : Cmd) (j : Job) (pair : Nat) : Prod :=
  let d := c.desc
  let rs := attnRows d j.item (pairRow pair)
  let t := itemTileAt s c j.item (pairTile pair)
  let cls := max (fmtClass (aQFmt d)) (tileClass d t)
  let g := groupWidth cls 1
  let ks := (List.range 64).map (kRef d t)
  let ke := fun i ch => keyElem s b c rs.kh (kRef d t i) ch
  let mul := fun (k : Nat → Nat → Val × Val) o ch =>
    let q := qElem s b c j rs (pairRow pair) (o / 64) ch
    let k := k (o % 64) ch
    scaledProd q.1 k.1 q.2 k.2
  { outs := rs.n * 64, np := 1, lo := 0, steps := ceilDiv (aD d) g, g := g, len := aD d
    term := mul ke
    init := List.replicate (rs.n * 64) vZero
    lines := numSet ((if proOf d 304 = [] then (List.range rs.n).flatMap fun r =>
        headLines (cSlot c 0) (aQFmt d) (aQHeads d) (aD d) (rs.row r) (rs.head r) else []) ++ keyLines c rs.kh false ks
        ++ (if aBias d = 0 then [] else (numSet ((List.range rs.n).map rs.head)).flatMap fun h => lineSpan (biasBase s c + 1024 * h) 1024))
    kv := keyLines c rs.kh false ks, entries := entriesOf [cSlot c 0, cSlot c 1]
    poison := b2n (rowsPoison s b c j rs (pairRow pair) || tilePoison s b c rs.kh t)
    scale := none, target := none, group := 4 * pair
    bank := some (if chGroups d ≤ 2 then 2 + pairTile pair % 2 else 3), ends := 2, rows := rs.n
    held := kaolinHeld d cls 64 [4, c.uid, j.item, pairTile pair] ke mul, kaolin := dKaolin d, long := false }

/-- Open O groups of an item, row block by row block. -/
def fwdInit (d : Descriptor) (item : Nat) : List Acc :=
  (List.range (rowsOfItem d item)).flatMap fun r => (List.range (chGroups d)).map fun q =>
    accOf (List.replicate ((attnRows d item r).n * min 64 (aD d - 64 * q)) vZero)

def row0 : RowSt := { m := none, l := 0#64, mF := .inf true, lF := vZero, bad := false }

/-! ### Softmax (R113 to R121, R128) -/

/-- The guard bound of R119: the FP32 value nearest 340 · log₂e. -/
def guardG : Fx := ⟨false, 16073239, -15⟩

/-- Base-2 score of a drained score (R113). -/
def base2 (c sv bias : Val) : Sat Val :=
  let b2 := rne32 (valMul bias log2e48)
  let t := rne32 (valAdd (valMul sv c) b2.1)
  (t.1, b2.2 || t.2)

/-- The scores t of one row over a tile's 64 positions; none where masked. -/
def rowT (s : State) (b : Nat) (c : Cmd) (rs : RowSet) (t : KTile) (r : Nat) (sv : List Val) : List (Option (Sat Val)) :=
  let d := c.desc
  let cs := rne32 (valMul (w32 (aSigma d)) log2e48)
  (List.range 64).map fun i =>
    let k := kRef d t i
    if unmasked s b c (rs.row r) k then
      let v := base2 cs.1 (sv.getD i vZero) (biasAt s b c (rs.head r) (qPos d (rs.row r)) (kPos d k))
      some (v.1, v.2 || cs.2)
    else none

/-- NaN or +∞ among the unmasked scores (R124). -/
def badScore : Val → Bool
  | .nan _ => true
  | .inf n => !n
  | .fin _ => false

/-- The largest score of a row; none for −∞. -/
def maxT (ts : List (Option Val)) : Option Fx :=
  ts.foldl (fun m t =>
    match m, t with
    | none, some (.fin x) => some x
    | some y, some (.fin x) => if fxLt y x then some x else some y
    | m, _ => m) none

/-- The element fails the guard (R119). -/
def guardFails : Option Val → Bool
  | some (.fin x) => fxLt guardG (fxAbs x)
  | some (.inf n) => !n
  | some (.nan _) => true
  | none => false

/-- What a row's softmax step yields: p̂ in key order, the row's new state, the exponent by which O is scaled, and
`SAT`. -/
structure RowOut where
  p : List Val
  st : RowSt
  scale : Int
  /-- Kaolin: the factor f of R128 -/
  f : Val
  rescaled : Bool
  sat : Bool
  deriving DecidableEq, Repr

/-- Add a tile's p̂ to l (R117). -/
def addL (l : Word64) (p : List Val) : Word64 × Bool :=
  let t := pairTree 64 p
  let r := afAdd (decP64 l.toNat) t.1
  (w64 r.1, t.2 || r.2)

/-- Range mode (R118). -/
def stepRange (bf : Bool) (st : RowSt) (ts : List (Option Val)) : RowOut :=
  let p := ts.map fun t => match t with | some v => exp2Xf v | none => vZero
  let q := pRow bf p
  let l := addL st.l q.1
  { p := q.1, st := { st with l := l.1 }, scale := 0, f := vOne, rescaled := false, sat := q.2 || l.2 }

/-- Rescale mode (R120). -/
def stepRescale (bf : Bool) (st : RowSt) (ts : List (Option Val)) : RowOut :=
  if st.bad || ts.any (fun t => match t with | some v => badScore v | none => false) then
    { p := List.replicate 64 vZero, st := { st with bad := true }, scale := 0, f := vOne, rescaled := false, sat := false }
  else
    let (m, k, res) : Option Int × Int × Bool :=
      match maxT ts, st.m with
      | some x, none => (some (fxCeil x), 0, false)
      | some x, some m => if fxLt (fxOfInt (m + 8)) x then (some (fxCeil x), m - fxCeil x, true) else (some m, 0, false)
      | none, m => (m, 0, false)
    let p := ts.map fun t =>
      match t, m with
      | some v, some m => sf false 1 (rne32 (valAdd v (.fin (fxOfInt (-m))))).1
      | _, _ => vZero
    let q := pRow bf p
    let l0 := w64 (afScale (decP64 st.l.toNat) k)
    let l := addL l0 q.1
    { p := q.1, st := { st with m := m, l := l.1 }, scale := k, f := vOne, rescaled := res, sat := q.2 || l.2 }

/-- Kaolin softmax (R128). -/
def stepFelcor (st : RowSt) (ts : List (Option Val)) : RowOut :=
  if st.bad || ts.any (fun t => match t with | some v => badScore v | none => false) then
    { p := List.replicate 64 vZero, st := { st with bad := true }, scale := 0, f := vOne, rescaled := false, sat := false }
  else
    let m : Val := match maxT ts with
      | some x => if valGt st.mF (.fin x) then st.mF else .fin x
      | none => st.mF
    let none_ := fun v : Val => v == .inf true
    let sub := fun a b' : Val => match b' with
      | .fin y => (rne32 (valAdd a (.fin (fxNeg y)))).1
      | _ => vNan
    let f := if none_ st.mF then vZero else sf true 1 (sub st.mF m)
    let l0 := rne32 (valMul st.lF f)
    let ps := ts.map fun t => match t with
      | some v => if none_ m then (vZero, false) else stored .bf16 (sf true 1 (sub v m))
      | none => (vZero, false)
    let l := ps.foldl (fun (a : Sat Val) p => let r := rne32 (valAdd a.1 p.1); (r.1, a.2 || r.2)) l0
    { p := ps.map (·.1), st := { st with mF := m, lF := l.1 }, scale := 0, f := f, rescaled := false, sat := l.2 || ps.any (·.2) }

/-- Softmax mode of a row block: 1 rescale, 2 range, 3 Kaolin (R114, R128). -/
def jobMode (c : Cmd) (j : Job) (r : Nat) : Nat :=
  if dKaolin c.desc then 3 else if j.rescale.getD r true then 1 else 2

/-- Scale a group's rows: row r by `f r`. -/
def scaleRows (nc : Nat) (f : Nat → Val → Sat Val) (a : Acc) : Acc :=
  let vs := tileVals a.tile
  accPut 1 a ((List.range vs.length).map fun o => f (o / max nc 1) (vs.getD o vZero))

/-- The pending correction of an O group of `nc` columns before the first value step of the tile that caused it: factor
2^k of R121, or f of R128. -/
def scaleO (kaolin : Bool) (nc : Nat) (l : List (Int × Val)) : Option (Acc → Acc) :=
  if kaolin then
    if l.all (fun x => x.2 == vOne) then none
    else some (scaleRows nc fun r v => rne32 (valMul v ((l.getD r (0, vOne)).2)))
  else if l.all (fun x => x.1 = 0) then none
  else some (scaleRows nc fun r v => (afScale v ((l.getD r (0, vOne)).1), false))

/-- Value product of channel group `q` of a treated pair: rows by channels over the 64 key positions. -/
def valueProd (s : State) (b : Nat) (c : Cmd) (j : Job) (x : PBuf) (q ends : Nat) : Prod :=
  let d := c.desc
  let r := pairRow x.tile
  let rs := attnRows d j.item r
  let t := itemTileAt s c j.item (pairTile x.tile)
  let nc := min 64 (aD d - 64 * q)
  let cls := max (pClass d) (tileClass d t)
  let g := groupWidth cls 1
  let p := x.bufs.getD 0 buf0
  let ve := fun i k => valElem s b c rs.kh (kRef d t k) (64 * q + i)
  let mul := fun (v : Nat → Nat → Val × Val) o k =>
    let y := v (o % nc) k
    scaledProd (p.vals.getD (o / nc * 64 + k) vZero) y.1 vOne y.2
  { outs := rs.n * nc, np := 1, lo := 0, steps := 64 / g, g := g, len := 64
    term := mul ve
    init := []
    lines := keyLines c rs.kh true ((List.range 64).map (kRef d t))
    kv := keyLines c rs.kh true ((List.range 64).map (kRef d t))
    entries := entriesOf [cSlot c 2]
    poison := p.poison
    scale := scaleO (dKaolin d) nc x.scale
    target := some (r * chGroups d + q), group := 2 ^ 32 + r * chGroups d + q, bank := some (min q 3), ends := ends, rows := rs.n
    held := kaolinHeld d cls nc [5, c.uid, j.item, pairTile x.tile, q] ve mul, kaolin := dKaolin d, long := dSplitLong d }

/-- Treated pairs whose value products run together: at d = 256 the O group of channels 192 to 255 is unparked once every
two key tiles (R165). -/
def headRun (c : Cmd) (j : Job) : Nat :=
  match pairsLeft j 0 with
  | p :: p' :: _ => if chGroups c.desc = 4 && pairRow p = pairRow p' then 2 else 1
  | _ => 1

/-- Value products of the pairs in front. -/
def fwdSeconds (c : Cmd) (j : Job) : Nat := headRun c j * chGroups c.desc

/-- The value product that a forward job stands before, once P̂ is formed (R151, R165). -/
def fwdSecond (s : State) (b : Nat) (c : Cmd) (j : Job) : Option Prod :=
  let m := headRun c j
  let n := chGroups c.desc
  let e := if n < 4 then 0 else if j.seconds < 3 * m then j.seconds / 3 else j.seconds - 3 * m
  let q := if n < 4 then j.seconds else if j.seconds < 3 * m then j.seconds % 3 else 3
  (j.pq[e]?).map fun x =>
    let k := endsOf (pairsLeft j m) (pairRow x.tile)
    valueProd s b c j x q (if e + 1 < m then 0 else if q = 3 && k = 0 then 1 else k)

/-- The pair that a first product's group belongs to, and the product's place among the pair's. -/
def groupPair (g : Nat) : Nat := g / 4
def groupSub (g : Nat) : Nat := g % 4

/-- R119: the row block's work is discarded, and it runs again from its first key tile in rescale mode. -/
def rerun (b : Nat) (c : Cmd) (j : Job) (r : Nat) (s : State) : State :=
  let d := c.desc
  let n := chGroups d
  let mine := fun p => pairRow p == r
  let ours := fun (g : Nat) => if g < 2 ^ 32 then mine (groupPair g) else (g - 2 ^ 32) / n == r
  let stale := fun u i g => u == j.uid && i == j.item && ours g
  let rs := attnRows d j.item r
  -- flags of the discarded work stay (R283)
  let s := (List.range n).foldl (fun s q =>
    let a := (((blockAt s b).banks.find? fun k => k.st != 0 && stale k.uid k.item k.group && k.group = 2 ^ 32 + r * n + q).map fun k => (k.next.map (·.2.2)).getD k.acc).getD (j.outs.getD (r * n + q) acc0)
    let s := if psumStack s b j.uid j.item (2 ^ 32 + r * n + q) = [] then s
      else markSat c.uid ((psumStack s b j.uid j.item (2 ^ 32 + r * n + q)).any fun e => e.1.sat != 0) s
    markLong c a (markSat c.uid (a.tile.sat != 0) s)) s
  let aborted : Bool := (j.second && (j.pq.head?.any fun x => mine x.tile)) || (!j.second && (j.todo.head?.any mine))
  let j1 : Job := { j with
    todo := j.todo.filter (fun p => !mine p) ++ (fedTiles s b c j.item r).map (pairOf r)
    firsts := if j.todo.head?.any mine then 0 else j.firsts
    flight := j.flight.filter fun p => !mine p
    seconds := if j.pq.head?.any (fun x => mine x.tile) then 0 else j.seconds
    pq := j.pq.filter fun x => !mine x.tile
    step := if aborted then 0 else j.step, wait := if aborted then [] else j.wait, fetched := j.fetched && !aborted
    outs := (List.range n).foldl (fun l q => l.set (r * n + q) (accOf (List.replicate (rs.n * min 64 (aD d - 64 * q)) vZero))) j.outs
    parked := j.parked.filter fun g => g / n != r
    rows := (List.range 64).foldl (fun l i => l.set (64 * r + i) row0) j.rows
    rescale := j.rescale.set r true }
  let s := modBlock b (fun k => { k with
    job := some j1
    banks := k.banks.map fun x => if x.st != 0 && stale x.uid x.item x.group then bank0 else x
    epi := k.epi.filter fun x => !stale x.uid x.item x.group
    bvu := k.bvu.filter fun x => !stale x.uid x.item x.group }) s
  let s := modRegion (b / 40) (fun k => { k with parts := k.parts.filter fun e => !stale e.1 e.2.1 e.2.2.1 }) s
  odBump 0x3000 2 1 (flagCmd c.uid 2 (modCmd c.uid (fun c => { c with countB := c.countB + 1 }) s))

/-- The BVU's softmax step on a score tile (R118 to R121, R128), with the guard of R119. -/
def softmaxTile (b : Nat) (c : Cmd) (x : Epi) (s : State) : State :=
  let d := c.desc
  match (blockAt s b).job with
  | none => s
  | some j =>
    let pair := groupPair x.group
    let r := pairRow pair
    let rs := attnRows d x.item r
    let t := itemTileAt s c x.item (pairTile pair)
    let fin := finTile s b 1 x
    let sv := (tileVals fin).map rne32
    let s := markSat c.uid (fin.sat != 0 || sv.any (·.2)) s
    let ts := (List.range rs.n).map fun i => rowT s b c rs t i (((sv.drop (64 * i)).take 64).map (·.1))
    let tv := ts.map fun l => l.map fun e => e.map (·.1)
    let mode := jobMode c j r
    if mode = 2 && tv.any (fun l => l.any guardFails) then rerun b c j r s
    else
      let bf := aPFmt d = 1
      let outs := (List.range rs.n).map fun i =>
        let st := j.rows.getD (64 * r + i) row0
        let tr := tv.getD i []
        if mode = 3 then stepFelcor st tr else if mode = 2 then stepRange bf st tr else stepRescale bf st tr
      let n := (outs.filter (·.rescaled)).length
      let p : Buf := { vals := outs.flatMap (·.p), poison := fin.poison }
      let rows := (List.range rs.n).foldl (fun l i => l.set (64 * r + i) ((outs.map (·.st)).getD i row0)) j.rows
      let sat := ts.any (fun l => l.any fun e => e.any (·.2)) || outs.any (·.sat)
      let s := modBlock b (fun k => { k with job := k.job.map fun (j : Job) => { j with rows := rows } }) s
      odBump 0x3000 4 n (markSat c.uid sat (putP b { tile := pair, bufs := [p], scale := outs.map fun o => (o.scale, o.f) } s))

/-! ### Finished rows (R122 to R124, R128, R172) -/

/-- A partial triple of a row: m, l and o (R174); `bad` for a row of NaN. -/
structure Part where
  m : Option Int
  l : Val
  o : List Val
  bad : Bool
  deriving DecidableEq, Repr

/-- R122: a row divided by l; also λ of R123. -/
def finalise (m : Int) (l : Val) (o : List Val) : List (Sat Val) × Sat Val :=
  match l with
  | .fin x =>
    if x.man = 0 then (o.map fun _ => (vZero, false), (.inf true, false))
    else
      let e := fxTop x
      let mu := rne32 (valScale l (-e))
      let r := sf false 4 mu.1
      let u := rne32 (valAdd (.fin (fxOfInt (m + e))) (sf false 3 mu.1))
      let lam := rne32 (valMul u.1 ln2w48)
      (o.map fun v => rne32 (valMul (valScale v (-e)) r), (lam.1, u.2 || lam.2))
  | _ => (o.map fun _ => (vNan, false), (vNan, false))

/-- R128: the end of a row in Kaolin mode. -/
def finaliseFelcor (m l : Val) (o : List Val) : List (Sat Val) × Sat Val :=
  if valIsZero l then (o.map fun _ => (vZero, false), (.inf true, false))
  else
    let r := sf true 4 l
    let u := rne32 (valAdd m (sf true 3 l))
    let lam := rne32 (valMul ln2w48 u.1)
    (o.map fun v => rne32 (valMul v r), (lam.1, u.2 || lam.2))

/-- A part's end as row outputs and λ. -/
def partEnd (p : Part) : List (Sat Val) × Sat Val :=
  if p.bad then (p.o.map fun _ => (vNan, false), (vNan, false))
  else
    match p.m with
    | none => (p.o.map fun _ => (vZero, false), (.inf true, false))
    | some m => finalise m p.l p.o

/-- R175: the parts of a row merged; the result is a part again, and `SAT`. -/
def mergeParts (ps : List Part) : Part × Bool :=
  let live := ps.filter fun p => p.m.isSome || p.bad
  let width := ((ps.headD { m := none, l := vZero, o := [], bad := false }).o).length
  if live.isEmpty then ({ m := none, l := vZero, o := List.replicate width vZero, bad := false }, false)
  else if live.any (·.bad) then ({ m := some 0, l := vNan, o := List.replicate width vNan, bad := true }, false)
  else
    let ms := live.filterMap (·.m)
    let mm := ms.foldl max (ms.headD 0)
    let sc := fun (p : Part) (v : Val) =>
      match p.m with
      | some m => ((afScale v (m - mm), false) : Sat Val)
      | none => (vZero, false)
    let l := combine (ps.map fun p => sc p p.l)
    let o := (List.range width).map fun ch => combine (ps.map fun p => sc p (p.o.getD ch vZero))
    ({ m := some mm, l := l.1, o := o.map (·.1), bad := false }, l.2 || o.any (·.2))

/-- A record of Table 06.4. -/
def partBytes (p : Part) : List Byte :=
  let m : Val := if p.bad then vZero else match p.m with
    | some m => .fin (fxOfInt m)
    | none => .inf true
  toBytes 4 (encode .fp32 m).1 ++ toBytes 4 0 ++ toBytes 8 (encP64 p.l) ++ p.o.flatMap fun v => toBytes 8 (encP64 v)

/-- A row of the job as a part (R123, R124, R174): a row of range mode has m = 0, one with l = +0 is empty. -/
def rowPart (mode : Nat) (st : RowSt) (o : List Val) : Part :=
  if st.bad then { m := some 0, l := vNan, o := o.map fun _ => vNan, bad := true }
  else
    let l := decP64 st.l.toNat
    { m := if valIsZero l then none else if mode = 2 then some 0 else st.m, l := l, o := o, bad := false }

/-- A tile that holds a row's part: m as an integer word (all ones for −∞, all ones less one for a bad row), l, o. -/
def partTile (ps : List Part) (poison : Nat) : TileV :=
  { vals := ps.flatMap fun p =>
      (if p.bad then BitVec.ofNat 64 (2 ^ 64 - 2) else match p.m with
        | some m => BitVec.ofNat 64 (m + 2 ^ 40).toNat
        | none => BitVec.ofNat 64 (2 ^ 64 - 1)) :: w64 p.l :: p.o.map w64
    sat := 0, poison := poison }

/-- The parts a tile holds, each of `d` channels. -/
def tileParts (d : Nat) (t : TileV) : List Part :=
  (chunks (d + 2) t.vals).map fun r =>
    let m := (r.headD 0#64).toNat
    let vs := (r.drop 1).map fun w => decP64 w.toNat
    if m = 2 ^ 64 - 2 then { m := some 0, l := vNan, o := vs.drop 1, bad := true }
    else { m := if m = 2 ^ 64 - 1 then none else some ((m : Int) - 2 ^ 40), l := vs.headD vZero, o := vs.drop 1, bad := false }

/-! ### Writing -/

/-- Reading of an attention epilogue's operands for one row's part that starts at channel c0 (R132, R172). -/
def attnCtx (s : State) (b : Nat) (c : Cmd) (row : Nat → Nat) (head : Nat → Nat) (c0 : Nat) : EpCtx :=
  let d := c.desc
  let rf := if aOFmt d ≤ 2 then aOFmt d else 0
  { kaolin := dKaolin d, steps := aEpi d, f := fld d 276 4, alpha := w32 (BitVec.ofNat 32 (fld d 416 32))
    beta := if hasSlot c 10 && dOp d != 0x11 then some fun j => slF32 s b (cSlot c 10) (c0 + j) else none
    resid := fun i j => elemAt s b (cSlot c 11) rf (aQHeads d * aD d) 0 (row i) (head i * aD d + c0 + j)
    fmt := aOFmt d, qcol := false, width := 64 }

def attnEpiPoison (s : State) (b : Nat) (c : Cmd) (row head c0 nc : Nat) : Bool :=
  let d := c.desc
  let rf := if aOFmt d ≤ 2 then aOFmt d else 0
  dOp d != 0x11 &&
  (((aEpi d).contains 1 && hasSlot c 10 && slPoison s b (cSlot c 10) (4 * c0) (4 * nc))
   || ((aEpi d).contains 4 && slPoison s b (cSlot c 11) (elemOff (cSlot c 11) rf (aQHeads d * aD d) 0 row (head * aD d + c0)) (rowBytes rf nc)))

/-- Write rows of channels [c0, c0 + nc) to a tensor laid out (row, head, channel), with their scales (R172). -/
def writeHeads (b : Nat) (c : Cmd) (x : ArgSlot) (heads : Nat) (row head : Nat → Nat) (c0 : Nat) (res : EpRes) (bad : Nat → Bool)
    (s : State) : State :=
  let d := c.desc
  let f := aOFmt d
  let sb := scaleBytes f
  (List.range res.codes.length).foldl (fun s i =>
    let s := slotWrite c.uid b x (elemOff x f (heads * aD d) 0 (row i) (head i * aD d + c0)) (packCodes (fmtBits (fmtOf f)) (res.codes.getD i [])) (bad i) s
    if res.scales = [] then s
    else slotWrite c.uid b x (slScale x + sb * ((row i * heads + head i) * ceilDiv (aD d) 32 + c0 / 32)) ((res.scales.getD i []).flatMap (toBytes sb)) (bad i) s) s

/-- λ of a row: one FP32 value per (query head, row), head by head (log entry 24). -/
def lamOff (c : Cmd) (x : ArgSlot) (head row : Nat) : Nat := head * strideOf x (4 * aRows c.desc) + 4 * row

/-- Bytes of partial records: one per (query head, row), head by head (log entry 24). -/
def recOff (d : Descriptor) (x : ArgSlot) (head row : Nat) : Nat :=
  head * strideOf x ((16 + 8 * aD d) * aRows d) + (16 + 8 * aD d) * row

/-- The rows of an item, finished: O through the epilogue, and λ. `tiled` counts poison by output tiles (R503). -/
def writeRows (b : Nat) (c : Cmd) (rs : RowSet) (outs : List (List (Sat Val) × Sat Val)) (bad : Nat → Bool) (tiled : Bool)
    (item r : Nat) (s : State) : State :=
  let d := c.desc
  let s := markSat c.uid (outs.any fun o => o.2.2 || o.1.any (·.2)) s
  let s := (List.range (chGroups d)).foldl (fun s q =>
    let nc := min 64 (aD d - 64 * q)
    let m : Mat := outs.map fun o => ((o.1.drop (64 * q)).take nc).map (·.1)
    let res := epilogue (attnCtx s b c rs.row rs.head (64 * q)) m
    let bd := fun i => bad i || attnEpiPoison s b c (rs.row i) (rs.head i) (64 * q) nc
    let any := (List.range rs.n).any bd
    let s := writeHeads b c (cSlot c 3) (aQHeads d) rs.row rs.head (64 * q) res (fun i => if tiled then any else bd i) (markSat c.uid res.sat s)
    let f := aOFmt d
    let units := if tiled then (if any then [tileUnit item (q + 4 * r) 0] else [])
      else ((List.range rs.n).filter bd).flatMap fun i =>
        unitsOf hostUnit (slAddr (cSlot c 3) + elemOff (cSlot c 3) f (aQHeads d * aD d) 0 (rs.row i) (rs.head i * aD d + 64 * q)) (rowBytes f nc)
    countPoison c.uid units s) s
  if hasSlot c 4 then
    (List.range rs.n).foldl (fun s i =>
      slotUnits c.uid b (cSlot c 4) (lamOff c (cSlot c 4) (rs.head i) (rs.row i))
        (toBytes 4 (encode .fp32 ((outs.getD i ([], (vNan, false))).2.1)).1) (bad i) s) s
  else s

/-- The rows of an item as partial records. -/
def writeParts (b : Nat) (c : Cmd) (rs : RowSet) (ps : List Part) (bad : Bool) (s : State) : State :=
  (List.range rs.n).foldl (fun s i =>
    slotUnits c.uid b (cSlot c 3) (recOff c.desc (cSlot c 3) (rs.head i) (rs.row i))
      (partBytes (ps.getD i { m := none, l := vZero, o := [], bad := false })) bad s) s

/-- The O values of each row, from the closed groups in channel order. -/
def rowsOf (d : Descriptor) (n : Nat) (ts : List TileV) : List (List Val) :=
  let vs := ts.map tileVals
  (List.range n).map fun r => (List.range vs.length).flatMap fun q =>
    let nc := min 64 (aD d - 64 * q)
    ((vs.getD q []).drop (r * nc)).take nc

/-- Ranges of a request's head (R178). -/
def rangeCount (s : State) (c : Cmd) (kh : Nat) : Nat :=
  max 1 (ceilDiv (cachedN s c kh) (rangePages c.desc (cachedN s c kh)))

/-- The partial triple of a range in the partial-sum area of its block's region (R178). -/
def putTriple (b uid item : Nat) (t : TileV) (s : State) : State :=
  modRegion (b / 40) (fun r => { r with parts :=
    (r.parts.filter fun e => !(e.1 == uid && e.2.1 == item && e.2.2.1 == 2 ^ 40)) ++ [(uid, item, 2 ^ 40, [(t, 1)])] }) s

/-- The triple of a range, wherever its region. -/
def tripleOf (s : State) (uid item : Nat) : Option TileV :=
  s.regions.findSome? fun e => (e.2.parts.find? fun p => p.1 = uid && p.2.1 = item && p.2.2.1 = 2 ^ 40).bind fun p => p.2.2.2.head?.map (·.1)

/-- The merge returns the entries of its ranges (R62, R178). -/
def freeTriples (uid : Nat) (ids : List Nat) (s : State) : State :=
  { s with regions := s.regions.map fun e => (e.1, regionForget (fun u i => u == uid && ids.contains i) e.2) }

/-- A row block is complete: its groups `ts` are closed (R172 to R175, R178). -/
def fwdEnd (b : Nat) (c : Cmd) (j : Job) (r : Nat) (ts : List TileV) (s : State) : State :=
  let d := c.desc
  let rs := attnRows d j.item r
  let mode := jobMode c j r
  let os := rowsOf d rs.n ts
  let poison := ts.any (fun t => t.poison != 0)
  let s := markSat c.uid (ts.any fun t => t.sat != 0) s
  let st := fun i => j.rows.getD (64 * r + i) row0
  let unit := rowUnit d j.item r
  if mode = 3 then
    let outs := (List.range rs.n).map fun i =>
      if (st i).bad then ((os.getD i []).map fun _ => (vNan, false), (vNan, false)) else finaliseFelcor (st i).mF (st i).lF (os.getD i [])
    if aEmit d then
      -- m of Kaolin mode is no integer; it stands as it is (R174)
      let s := (List.range rs.n).foldl (fun s i =>
        let m := if (st i).bad then vZero else if valIsZero (st i).lF then .inf true else (st i).mF
        let l := if (st i).bad then vNan else (st i).lF
        let o := if (st i).bad then (os.getD i []).map fun _ => vNan else os.getD i []
        slotUnits c.uid b (cSlot c 3) (recOff d (cSlot c 3) (rs.head i) (rs.row i))
          (toBytes 4 (encode .fp32 m).1 ++ toBytes 4 0 ++ toBytes 8 (encP64 l) ++ o.flatMap fun v => toBytes 8 (encP64 v)) poison s) s
      itemDone c.uid [unit] s
    else itemDone c.uid [unit] (writeRows b c rs outs (fun _ => poison) true j.item r s)
  else
    let ps := (List.range rs.n).map fun i => rowPart mode (st i) (os.getD i [])
    if dOp d = 0x12 then
      let s := putTriple b c.uid j.item (partTile ps (if poison then 1 else 0)) s
      let n := rangeCount s c rs.kh
      let ids := (List.range n).map fun i => i * aKvHeads d + rs.kh
      if ids.all fun i => (tripleOf s c.uid i).isSome then
        let tl := ids.map fun i => (tripleOf s c.uid i).getD tile0
        let bad := tl.any fun t => t.poison != 0
        let pss := tl.map (tileParts (aD d))
        let none_ : Part := { m := none, l := vZero, o := [], bad := false }
        let ms := (List.range rs.n).map fun i => mergeParts (pss.map fun l => l.getD i none_)
        let s := freeTriples c.uid ids (markSat c.uid (ms.any (·.2)) s)
        let s := if aEmit d then writeParts b c rs (ms.map (·.1)) bad s
          else writeRows b c rs (ms.map fun m => partEnd m.1) (fun _ => bad) true rs.kh 0 s
        itemDone c.uid ids s
      else s
    else if aEmit d then itemDone c.uid [unit] (writeParts b c rs ps poison s)
    else itemDone c.uid [unit] (writeRows b c rs (ps.map partEnd) (fun _ => poison) true j.item r s)

/-- Some group of the item is still in a bank, at the BVU or in the epilogue queue of the block. -/
def groupsLeft (x : Block) (uid item : Nat) : Bool :=
  x.banks.any (fun k => k.st != 0 && k.uid == uid && k.item == item)
  || x.epi.any (fun e => e.uid == uid && e.item == item) || x.bvu.any (fun e => e.uid == uid && e.item == item)

/-- The job has fed and treated all its pairs. -/
def pairsDone (j : Job) : Bool := j.todo.isEmpty && j.flight.isEmpty && j.pq.isEmpty

/-- Row blocks of an item without a fed tile (R124): finished without a product. -/
def fwdBare (b : Nat) (c : Cmd) (j : Job) (s : State) : State :=
  (List.range (rowsOfItem c.desc j.item)).foldl (fun s r =>
    if (fedTiles s b c j.item r).isEmpty then
      let n := chGroups c.desc
      let c := (cmdOf s c.uid).getD c
      fwdEnd b c j r (((fwdInit c.desc j.item).drop (r * n)).take n |>.map (·.tile)) s
    else s) s

/-- R62, R178: an item that ends frees its partial-sum entries; ATTN_CACHED keeps them for the merge of its ranges. -/
def endPsum (b : Nat) (c : Cmd) (item : Nat) (s : State) : State :=
  if dOp c.desc = 0x12 then s else freePsum b c.uid item s

/-- One closed O group of a row block has drained; the last one finishes the block, and the last block the item. Groups
wait in the job's buffers 8 and up. -/
def fwdGroup (b : Nat) (c : Cmd) (x : Epi) (s : State) : State :=
  match (blockAt s b).job with
  | none => s
  | some j =>
    let fin := finTile s b 1 x
    let n := chGroups c.desc
    let q := (x.group - 2 ^ 32) % n
    let r := (x.group - 2 ^ 32) / n
    let s := markLong c x.acc (markSat c.uid (fin.sat != 0) s)
    if q + 1 < n then
      modBlock b (fun k => { k with job := some { j with bufs := putBuf (8 + q) { vals := tileVals fin, poison := fin.poison } j.bufs } }) s
    else
      let ts := ((List.range q).map fun i =>
        let y := j.bufs.getD (8 + i) buf0
        tileOf y.vals 0 y.poison) ++ [fin]
      let s := fwdEnd b c j r ts s
      if pairsDone j && !groupsLeft (blockAt s b) j.uid j.item then
        let s := fwdBare b ((cmdOf s c.uid).getD c) j s
        endPsum b c j.item (modBlock b (fun k =>
          { k with job := none, pro := k.pro.filter fun p => !(p.uid == j.uid && p.item == j.item) }) s)
      else s

/-- An item of which no row block has a fed tile. -/
def fwdEmpty (b : Nat) (c : Cmd) (j : Job) (s : State) : State :=
  modBlock b (fun k => { k with job := none }) (fwdBare b c j s)

/-- Mode in which a row block starts (R114, R115): range mode only up to 8 192 fed positions. -/
def startsRescale (s : State) (b : Nat) (c : Cmd) (item r : Nat) : Bool × Bool :=
  let d := c.desc
  let m := if aMode d = 0 then c.softmaxDef else aMode d
  let n := ((fedTiles s b c item r).map fun t => (((List.range 64).map (kRef d (itemTileAt s c item t))).filter (· != .past)).length).sum
  if m = 2 then (if n > 8192 then (true, true) else (false, false)) else (true, false)

/-- A row of Q through the rotary prologue and its conversion (R135, R502): values, and a saturation. -/
def rotQ (s : State) (b : Nat) (c : Cmd) (rs : RowSet) (i : Nat) : List Val × Bool :=
  let d := c.desc
  let xs := (List.range (aD d)).map fun ch =>
    let q := headElem s b (cSlot c 0) (aQFmt d) (aQHeads d) (aD d) (rs.row i) (rs.head i) ch
    valMul q.1 q.2
  let x := rotRow s b (cSlot c 7) (aQPos0 d + rs.row i) xs
  let y := proConvert (aQFmt d) x.1
  (y.1, x.2 || y.2)

/-- The rotary prologue over row blocks: each at 64 rows of the buffer, with a poison mark of its own. A
conversion to the format of Q follows, whichever it is (log entry 61). Its result goes to `PRO_BUF`, whose layout is not
given (R136, log entry 3). -/
def attnPrologue (b : Nat) (c : Cmd) (rss : List RowSet) (s : State) : Buf × State :=
  let d := c.desc
  let rows := rss.flatMap fun rs => (List.range 64).map fun i => if i < rs.n then rotQ s b c rs i else (List.replicate (aD d) vZero, false)
  let bad := fun r => match rss[r]? with
    | none => false
    | some rs => (List.range rs.n).any fun i =>
      headPoison s b (cSlot c 0) (aQFmt d) (aQHeads d) (aD d) (rs.row i) (rs.head i) || rotPoison s b (cSlot c 7) (aD d / 2) (aQPos0 d + rs.row i)
  ({ vals := rows.flatMap (·.1), poison := maskOf rss.length bad },
    markSat c.uid (rows.any (·.2)) (scramble b (fld d 660 20) (aProSize d) s))

end Sys2Proof.Machine
end

