-- ==== Sys2Proof/Machine/AttnBwd.lean ====
section
/-! DEFINITION. Backward attention (R187 to R191): the D phase, the sweeps of Table 06.7 and their gradients. -/

namespace Sys2Proof.Machine

/-! ### Work items -/

/-- A work item: kind 0 the D phase of a row block, 1 dK and dV, 2 dV, 3 dK of key tiles, 4 dQ of row blocks; the half of
the output channels; and its members, key tiles or query tiles, each with its head (R166, R190). -/
structure BItem where
  kind : Nat
  half : Nat
  index : Nat
  members : List (Nat × Nat)
  deriving DecidableEq, Repr

/-- The sweeps in order, as (kind, half) (Table 06.7). -/
def bSweeps (d : Descriptor) : List (Nat × Nat) :=
  if aD d ≤ 64 then [(1, 0), (4, 0)]
  else if aD d < 256 then [(2, 0), (3, 0), (4, 0)]
  else [(2, 0), (3, 0), (4, 0), (2, 1), (3, 1), (4, 1)]

def bKeyTiles (d : Descriptor) : Nat := if aKvSrc d = 1 then 0 else ceilDiv (aKLen d) 64

/-- Key tiles that an item of a key-outer sweep holds (R166, R190). -/
def keyGroup (d : Descriptor) : Nat := max 1 (min (min 8 (1 + 28 / (2 * chGroups d))) (bKeyTiles d))

def bDItems (d : Descriptor) : Nat := if fld d 275 1 = 1 then 0 else qTiles d * aQHeads d
def sweepItems (d : Descriptor) (k : Nat) : Nat := if k = 4 then groupItems d else ceilDiv (bKeyTiles d) (keyGroup d) * aKvHeads d
def bwdItems (d : Descriptor) : Nat := bDItems d + ((bSweeps d).map fun x => sweepItems d x.1).sum

def findSweep (d : Descriptor) : Nat → List (Nat × Nat) → BItem
  | i, (k, h) :: r =>
    if i < sweepItems d k then
      { kind := k, half := h, index := i
        members := if k = 4 then groupRows d i
          else (List.range (min (keyGroup d) (bKeyTiles d - i / aKvHeads d * keyGroup d))).map fun m =>
            (i / aKvHeads d * keyGroup d + m, i % aKvHeads d) }
    else findSweep d (i - sweepItems d k) r
  | _, [] => { kind := 4, half := 0, index := 0, members := [] }

def bItem (d : Descriptor) (i : Nat) : BItem :=
  if i < bDItems d then { kind := 0, half := 0, index := i, members := [(i / aQHeads d, i % aQHeads d)] }
  else findSweep d (i - bDItems d) (bSweeps d)

/-- Member `r` of an item. -/
def bMember (x : BItem) (r : Nat) : Nat × Nat := x.members.getD r (0, 0)

/-- Channel groups of an item's outputs. -/
def bGroups (d : Descriptor) (x : BItem) : List Nat :=
  if aD d = 256 then [2 * x.half, 2 * x.half + 1] else List.range (chGroups d)

/-- Open groups of a member: dV then dK for kind 1, else the one gradient. -/
def bOuts (d : Descriptor) (x : BItem) : Nat := (bGroups d x).length * (if x.kind = 1 then 2 else 1)

/-- Key tiles of a query-outer item, in key order. -/
def bKeyList (s : State) (c : Cmd) (x : BItem) : List KTile :=
  let d := c.desc
  (if aKvSrc d = 0 then [] else (chunks 4 (keyPages s c (64 * (bMember x 0).1) ((bMember x 0).2 / aGroup d))).map KTile.pages)
  ++ (if aKvSrc d = 1 then [] else (List.range (ceilDiv (aKLen d) 64)).map KTile.dense)

/-- Tiles that an item streams past: key tiles, or the query tiles of each head in turn (R190). -/
def bTiles (s : State) (c : Cmd) (x : BItem) : Nat :=
  if x.kind = 4 then (bKeyList s c x).length else aGroup c.desc * qTiles c.desc

/-- Rows and key tile of member `r` and tile `u`. -/
def bMeet (s : State) (c : Cmd) (x : BItem) (r u : Nat) : RowSet × KTile :=
  let d := c.desc
  if x.kind = 4 then (rowBlock d (bMember x r).1 (bMember x r).2, (bKeyList s c x).getD u (.dense 0))
  else (rowBlock d (u % max 1 (qTiles d)) ((bMember x r).2 * aGroup d + u / max 1 (qTiles d)), .dense (bMember x r).1)

/-- Tiles fed to member `r` (R164). -/
def bFed (s : State) (b : Nat) (c : Cmd) (x : BItem) (r : Nat) : List Nat :=
  (List.range (bTiles s c x)).filter fun u => let m := bMeet s c x r u; !tileSkipped s b c m.1 m.2

/-- The pairs of an item, in order; query and dO tiles take the delivered role in key-outer sweeps (R190). -/
def bPairs (s : State) (b : Nat) (c : Cmd) (x : BItem) : List Nat :=
  let d := c.desc
  spanPairs (if x.kind = 4 then keySpan d else spanTiles (kvTileBytes (aD d) (fmtWidth (aQFmt d)))) x.members.length (bTiles s c x)
    (bFed s b c x)

/-- First products of a pair: S, and dP unless only dV is formed. -/
def bwdFirsts (x : BItem) : Nat := if x.kind = 2 then 1 else 2

/-- Rows of a member's outputs. -/
def bRows (d : Descriptor) (x : BItem) (r : Nat) : Nat :=
  if x.kind = 4 then (rowBlock d (bMember x r).1 (bMember x r).2).n else min 64 (aKLen d - 64 * (bMember x r).1)

/-- The open groups of an item, member by member; keys or rows by channels. -/
def bwdInit (d : Descriptor) (x : BItem) : List Acc :=
  (List.range x.members.length).flatMap fun r =>
    let one := (bGroups d x).map fun q => accOf (List.replicate (bRows d x r * min 64 (aD d - 64 * q)) vZero)
    if x.kind = 1 then one ++ one else one

/-! ### Products -/

/-- dO: laid out like O, in the format of Q (Table 09.8). -/
def doElem (s : State) (b : Nat) (c : Cmd) (rs : RowSet) (r ch : Nat) : Val × Val :=
  let d := c.desc
  headElem s b (cSlot c 9) (aQFmt d) (aQHeads d) (aD d) (rs.row r) (rs.head r) ch

/-- Lines of the rows of Q and dO. -/
def bRowLines (c : Cmd) (rs : RowSet) : List Nat :=
  let d := c.desc
  numSet ((List.range rs.n).flatMap fun r =>
    (if proOf d 304 = [] then headLines (cSlot c 0) (aQFmt d) (aQHeads d) (aD d) (rs.row r) (rs.head r) else [])
    ++ headLines (cSlot c 9) (aQFmt d) (aQHeads d) (aD d) (rs.row r) (rs.head r))

/-- λ and D of a row. -/
def lamAt (s : State) (b : Nat) (c : Cmd) (rs : RowSet) (r : Nat) : Val :=
  decode .fp32 (slNat s b (cSlot c 4) (lamOff c (cSlot c 4) (rs.head r) (rs.row r)) 4)

def dAt (s : State) (b : Nat) (c : Cmd) (rs : RowSet) (r : Nat) : Val :=
  decode .fp32 (slNat s b (cSlot c 10) (lamOff c (cSlot c 10) (rs.head r) (rs.row r)) 4)

def bRowPoison (s : State) (b : Nat) (c : Cmd) (rs : RowSet) : Bool :=
  let d := c.desc
  (List.range rs.n).any fun r =>
    headPoison s b (cSlot c 9) (aQFmt d) (aQHeads d) (aD d) (rs.row r) (rs.head r)
    || slPoison s b (cSlot c 4) (lamOff c (cSlot c 4) (rs.head r) (rs.row r)) 4
    || slPoison s b (cSlot c 10) (lamOff c (cSlot c 10) (rs.head r) (rs.row r)) 4

/-- The part of the prologue that forms a pair's Q rows, and the row block's place in it: a query-outer item's row blocks
make one part, a key-outer item's query tiles one part each (R136). -/
def bProPart (x : BItem) (pair : Nat) : Nat × Nat := if x.kind = 4 then (0, pairRow pair) else (pairTile pair + 1, 0)

/-- The query element in a backward product: through the rotary prologue when one is named. -/
def bqElem (s : State) (b : Nat) (c : Cmd) (j : Job) (x : BItem) (pair : Nat) (rs : RowSet) (r ch : Nat) : Val × Val :=
  let d := c.desc
  if proOf d 304 = [] then headElem s b (cSlot c 0) (aQFmt d) (aQHeads d) (aD d) (rs.row r) (rs.head r) ch
  else (((proBufs s b j (bProPart x pair).1).getD 0 buf0).vals.getD ((64 * (bProPart x pair).2 + r) * aD d + ch) vZero, vOne)

/-- Poison that a pair's rows and key tile bring. -/
def bPairPoison (s : State) (b : Nat) (c : Cmd) (j : Job) (x : BItem) (pair : Nat) : Nat :=
  let m := bMeet s c x (pairRow pair) (pairTile pair)
  b2n (rowsPoison s b c j m.1 64 || bit (((proBufs s b j (bProPart x pair).1).getD 0 buf0).poison) (bProPart x pair).2
    || bRowPoison s b c m.1 || tilePoison s b c m.1.kh m.2)

/-- First product `i` of a pair: S, then dP; their groups share the bank left over (R190). -/
def bwdFirst (s : State) (b : Nat) (c : Cmd) (j : Job) (pair i : Nat) : Option Prod :=
  let d := c.desc
  let x := bItem d j.item
  let (rs, t) := bMeet s c x (pairRow pair) (pairTile pair)
  let cls := max (fmtClass (aQFmt d)) (tileClass d t)
  let g := groupWidth cls 1
  let held := fun k ch => if i = 0 then keyElem s b c rs.kh (kRef d t k) ch else valElem s b c rs.kh (kRef d t k) ch
  let mul := fun (f : Nat → Nat → Val × Val) o ch =>
    let q := if i = 0 then bqElem s b c j x pair rs (o / 64) ch else doElem s b c rs (o / 64) ch
    let y := f (o % 64) ch
    scaledProd q.1 y.1 q.2 y.2
  some { outs := rs.n * 64, np := 1, lo := 0, steps := ceilDiv (aD d) g, g := g, len := aD d, term := mul held
         init := List.replicate (rs.n * 64) vZero
         lines := numSet (bRowLines c rs ++ keyLines c rs.kh (i != 0) ((List.range 64).map (kRef d t)))
         kv := keyLines c rs.kh (i != 0) ((List.range 64).map (kRef d t))
         entries := entriesOf (if i = 0 then [cSlot c 0, cSlot c 1] else [cSlot c 2]), poison := bPairPoison s b c j x pair
         scale := none, target := none, group := 4 * pair + i, bank := some 3, ends := 2, rows := rs.n
         held := kaolinHeld d cls 64 [6, c.uid, if x.kind = 4 then pairTile pair else 2 ^ 20 + (bMember x (pairRow pair)).1, rs.kh, i] held mul
         kaolin := dKaolin d, long := false }

/-- Second product `i` of the treated pair in front: an output group of its member. The scales of K, Q and dO lie along the
channels, as the score product reads them, here too (R38, log entry 60). -/
def bwdSecond (s : State) (b : Nat) (c : Cmd) (j : Job) (i : Nat) : Option Prod :=
  let d := c.desc
  let x := bItem d j.item
  match j.pq with
  | [] => none
  | z :: _ =>
    let pair := z.tile
    let r := pairRow pair
    let (rs, t) := bMeet s c x r (pairTile pair)
    let gs := bGroups d x
    let isK := x.kind = 3 || (x.kind = 1 && decide (i ≥ gs.length))
    let q := gs.getD (i % gs.length) 0
    let nc := min 64 (aD d - 64 * q)
    let p := z.bufs.getD (if x.kind = 4 ∨ isK then 1 else 0) buf0
    let cls := max (pClass d) (if x.kind = 4 then tileClass d t else fmtClass (aQFmt d))
    let g := groupWidth cls 1
    let n := bRows d x r
    let el := fun col k =>
      if x.kind = 4 then keyElem s b c rs.kh (kRef d t k) (64 * q + col)
      else if k ≥ rs.n then (vZero, vOne)
      else if isK then bqElem s b c j x pair rs k (64 * q + col) else doElem s b c rs k (64 * q + col)
    let mul := fun (f : Nat → Nat → Val × Val) o k =>
      if x.kind != 4 && decide (k ≥ rs.n) then vZero
      else
        let y := f (o % nc) k
        scaledProd (p.vals.getD (if x.kind = 4 then o / nc * 64 + k else k * 64 + o / nc) vZero) y.1 vOne y.2
    some { outs := n * nc, np := 1, lo := 0, steps := 64 / g, g := g, len := 64, term := mul el
           init := []
           lines := numSet (if x.kind = 4 then keyLines c rs.kh false ((List.range 64).map (kRef d t)) else bRowLines c rs)
           kv := if x.kind = 4 then keyLines c rs.kh false ((List.range 64).map (kRef d t)) else []
           entries := entriesOf (if x.kind = 4 then [cSlot c 1] else if isK then [cSlot c 0] else [])
           poison := bPairPoison s b c j x pair ||| p.poison
           scale := none, target := some (r * bOuts d x + i), group := 2 ^ 32 + r * bOuts d x + i, bank := some i
           ends := endsOf (pairsLeft j 1) r, rows := n
           held := kaolinHeld d cls nc [7, c.uid, j.item, pair, i] el mul
           kaolin := dKaolin d, long := dSplitLong d }

/-! ### The BVU's part (R187, R189, Table 05.4) -/

/-- Rounding of P̂ and dŜ: blocks of R116, or plain BF16 in Kaolin mode (R128). -/
def pQuant (d : Descriptor) (vs : List Val) : List Val × Bool :=
  if dKaolin d then (let rs := vs.map (stored .bf16); (rs.map (·.1), rs.any (·.2))) else pRow (aPFmt d = 1) vs

/-- p of an element (R189); masked elements and rows with λ = −∞ give 0. -/
def bProb (k : Bool) (lam2 : Val) (t : Option Val) : Val :=
  match lam2, t with
  | .nan _, _ => vNan
  | .inf true, _ => vZero
  | l, some v =>
    let neg : Val := match l with | .fin x => .fin (fxNeg x) | .inf n => .inf !n | w => w
    sf k 1 (rne32 (valAdd v neg)).1
  | _, none => vZero

/-- The BVU's step on a drained S or dP tile. -/
def bwdTile (b : Nat) (c : Cmd) (x : Epi) (s : State) : State :=
  let d := c.desc
  let it := bItem d x.item
  match (blockAt s b).job with
  | none => s
  | some j =>
    let pair := groupPair x.group
    let (rs, t) := bMeet s c it (pairRow pair) (pairTile pair)
    let fin := finTile s b 1 x
    let sv := (tileVals fin).map rne32
    let s := markSat c.uid (fin.sat != 0 || sv.any (·.2)) s
    if groupSub x.group = 0 then
      let rows := (List.range rs.n).map fun r =>
        let ts := rowT s b c rs t r (((sv.drop (64 * r)).take 64).map (·.1))
        let lam2 := rne32 (valMul (lamAt s b c rs r) log2e48)
        (ts.map fun e => bProb (dKaolin d) lam2.1 (e.map (·.1)), lam2.2 || ts.any fun e => e.any (·.2))
      let q := rows.map fun r => pQuant d r.1
      let pb : Buf := { vals := q.flatMap (·.1), poison := fin.poison }
      let s := markSat c.uid (rows.any (·.2) || q.any (·.2)) s
      if it.kind = 2 then putP b { tile := pair, bufs := [pb], scale := [] } s
      else
        -- P̂ waits in place 2 and p in FP32 in place 4 for the pair's dP
        let hold : Buf := { vals := rows.flatMap (·.1), poison := fin.poison }
        modBlock b (fun k => { k with job := some { j with bufs := putBuf 4 hold (putBuf 2 pb j.bufs) } }) s
    else
      let pb := j.bufs.getD 2 buf0
      let p := (j.bufs.getD 4 buf0).vals
      let rows := (List.range rs.n).map fun r =>
        let dd := match dAt s b c rs r with | .fin v => Val.fin (fxNeg v) | .inf n => .inf !n | v => v
        let dead : Bool := lamAt s b c rs r == .inf true
        (List.range 64).map fun i =>
          if dead || (!valIsNan (p.getD (64 * r + i) vZero) && !unmasked s b c (rs.row r) (kRef d t i)) then (vZero, false)
          else
            let a := rne32 (valAdd ((sv.getD (64 * r + i) (vZero, false)).1) dd)
            let y := rne32 (valMul a.1 (p.getD (64 * r + i) vZero))
            (y.1, a.2 || y.2)
      let q := rows.map fun r => pQuant d (r.map (·.1))
      let ds : Buf := { vals := q.flatMap (·.1), poison := fin.poison ||| pb.poison }
      markSat c.uid (rows.any (fun r => r.any (·.2)) || q.any (·.2)) (putP b { tile := pair, bufs := [pb, ds], scale := [] } s)

/-- `ROWDOT` (Table 05.3, R188): D of a row block. -/
def bwdD (b : Nat) (c : Cmd) (item : Nat) (s : State) : State :=
  let d := c.desc
  let x := bItem d item
  let rs := rowBlock d (bMember x 0).1 (bMember x 0).2
  let o := fun r ch => headElem s b (cSlot c 3) (aOFmt d) (aQHeads d) (aD d) (rs.row r) (rs.head r) ch
  let ds := (List.range rs.n).map fun r =>
    let ps := (List.range (aD d)).map fun ch =>
      let a := doElem s b c rs r ch
      let y := o r ch
      rneAf50 (scaledProd a.1 y.1 a.2 y.2)
    let t := pairTree 1 (ps.map (·.1))
    let v := rne32 t.1
    (v.1, ps.any (·.2) || t.2 || v.2)
  let bad := fun r => headPoison s b (cSlot c 9) (aQFmt d) (aQHeads d) (aD d) (rs.row r) (rs.head r)
    || headPoison s b (cSlot c 3) (aOFmt d) (aQHeads d) (aD d) (rs.row r) (rs.head r)
  let any := (List.range rs.n).any bad
  let s' := (List.range rs.n).foldl (fun s r =>
    slotUnits c.uid b (cSlot c 10) (lamOff c (cSlot c 10) (rs.head r) (rs.row r)) (toBytes 4 (encode .fp32 ((ds.getD r (vZero, false)).1)).1) any s) s
  itemDone c.uid [item] (markSat c.uid (ds.any (·.2)) s')

/-- A finished gradient group: σ for dQ and dK, the command's own steps, and the write (R187). A list that begins with its
last step reads dV in AF50 (R133). -/
def bwdWrite (b : Nat) (c : Cmd) (x : Epi) (s : State) : State :=
  let d := c.desc
  let it := bItem d x.item
  let gs := bGroups d it
  let n := bOuts d it
  let r := (x.group - 2 ^ 32) / n
  let e := (x.group - 2 ^ 32) % n
  let q := gs.getD (e % gs.length) 0
  let nc := min 64 (aD d - 64 * q)
  let isV := it.kind = 2 || (it.kind = 1 && decide (e < gs.length))
  let fin := finTile s b 1 x
  let m0 : Mat := (List.range (bRows d it r)).map fun i => ((tileVals fin).drop (i * nc)).take nc
  let sg := w32 (aSigma d)
  let m1 := (mat32 m0).1.map fun l => l.map fun v => rne32 (valMul v sg)
  let m : Mat := if isV then m0 else m1.map fun l => l.map (·.1)
  let sat := !isV && ((mat32 m0).2 || m1.any fun l => l.any (·.2))
  let row := fun i => 64 * (bMember it r).1 + i
  let head := fun _ : Nat => (bMember it r).2
  let res := epilogue (attnCtx s b c row head (64 * q)) m
  let bad : Bool := fin.poison != 0
  let slot := if it.kind = 4 then 11 else if isV then 13 else 12
  let heads := if it.kind = 4 then aQHeads d else aKvHeads d
  let s := markLong c x.acc (markSat c.uid (fin.sat != 0 || sat || res.sat) s)
  let s := writeHeads b c (cSlot c slot) heads row head (64 * q) res (fun _ => bad) s
  countPoison c.uid (if bad then [tileUnit x.item (x.group - 2 ^ 32) 0] else []) s

/-- Members that no pair reaches: their groups leave as they opened (R190); a dQ row with a NaN λ is NaN (R189). -/
def bwdBare (b : Nat) (c : Cmd) (item : Nat) (s : State) : State :=
  let d := c.desc
  let it := bItem d item
  let n := bOuts d it
  let accs := bwdInit d it
  let bare := (List.range it.members.length).filter fun r => (bFed s b c it r).isEmpty
  (List.range accs.length).foldl (fun s g =>
    if bare.contains (g / n) then
      let q := (bGroups d it).getD (g % n % (bGroups d it).length) 0
      let nc := min 64 (aD d - 64 * q)
      let rs := rowBlock d (bMember it (g / n)).1 (bMember it (g / n)).2
      let a := accs.getD g acc0
      let a := if it.kind = 4 then
          accOf ((List.range a.tile.vals.length).map fun o => if valIsNan (lamAt s b c rs (o / nc)) then vNan else vZero)
        else a
      bwdWrite b c { uid := c.uid, item := item, group := 2 ^ 32 + g, acc := a } s
    else s) s

/-- A gradient group is written; with the last one of its item the item is done. -/
def bwdOut (b : Nat) (c : Cmd) (x : Epi) (s : State) : State :=
  let s := bwdWrite b c x s
  let k := blockAt s b
  if k.job.any (fun j => j.uid == x.uid && j.item == x.item) || groupsLeft k x.uid x.item then s
  else freePsum b c.uid x.item (itemDone c.uid [x.item] (bwdBare b c x.item s))

end Sys2Proof.Machine
end

