-- ==== Sys2Proof/Machine/Scan.lean ====
section
/-! DEFINITION. SCAN (R239 to R243) and ROUTE_PAGES (R184 to R186) on a block. -/

namespace Sys2Proof.Machine

/-! ### SCAN: shapes -/

def sFmt (d : Descriptor) : Nat := if fld d 261 1 = 0 then 1 else 2
def sChunks (d : Descriptor) : Nat := ceilDiv (sT d) 64
def sPt (d : Descriptor) : Nat := ceilDiv (sP d) 64
def sNt (d : Descriptor) : Nat := ceilDiv (sN d) 64
/-- State tiles of a lane. -/
def sTau (d : Descriptor) : Nat := sNt d * sPt d

/-! ### Lane groups (R244) -/

/-- Lane groups of the command. -/
def scanItems (d : Descriptor) : Nat := ceilDiv (sLanes d) (laneGroup d)
/-- Lanes of an item. -/
def lanesOf (d : Descriptor) (item : Nat) : Nat := min (laneGroup d) (sLanes d - item * laneGroup d)
/-- Lane `r` of an item. -/
def laneAt (d : Descriptor) (item r : Nat) : Nat := item * laneGroup d + r

/-- The pairs of an item, lane and chunk: chunk by chunk, in lane order within each (R244). -/
def scanPairs (d : Descriptor) (item : Nat) : List Nat :=
  (List.range (sChunks d)).flatMap fun k => (List.range (lanesOf d item)).map fun r => r * 2 ^ 20 + k

/-! ### The inputs of a chunk -/

/-- Element of x, b or c (slots 0 to 2): row (lane, token); a missing token reads zero. -/
def sElem (s : State) (b : Nat) (c : Cmd) (slot lane t k : Nat) : Val :=
  let d := c.desc
  if t ≥ sT d then vZero
  else elemAt s b (cSlot c slot) (sFmt d) (if slot = 0 then sP d else sN d) 0 (lane * sT d + t) k

/-- R239: the clamped gate. -/
def sGate (s : State) (b : Nat) (c : Cmd) (lane t : Nat) : Val :=
  let d := c.desc
  if t ≥ sT d then vZero
  else
    let x := cSlot c 3
    match decode .fp32 (slNat s b x (lane * strideOf x (4 * sT d) + 4 * t) 4) with
    | .fin v => if fxLt v ⟨true, 64, 0⟩ then .fin ⟨true, 64, 0⟩ else if !v.neg && v.man != 0 then vZero else .fin v
    | .inf n => if n then .fin ⟨true, 64, 0⟩ else vZero
    | v => v

def sSeg (s : State) (b : Nat) (c : Cmd) (lane t : Nat) : Nat :=
  let x := cSlot c 4
  if hasSlot c 4 ∧ t < sT c.desc then slNat s b x (lane * strideOf x (2 * sT c.desc) + 2 * t) 2 else 0

/-- R240: token t starts a segment. -/
def sReset (s : State) (b : Nat) (c : Cmd) (lane t : Nat) : Bool :=
  hasSlot c 4 && decide (0 < t ∧ t < sT c.desc) && sSeg s b c lane t != sSeg s b c lane (t - 1)

def sStateAt (s : State) (b : Nat) (c : Cmd) (slot lane n p : Nat) : Nat :=
  slNat s b (cSlot c slot) ((lane * sN c.desc + n) * strideOf (cSlot c slot) (8 * sP c.desc) + 8 * p) 8

/-- Tokens of a chunk that exist. -/
def sReal (d : Descriptor) (k : Nat) : Nat := min 64 (sT d - 64 * k)

/-- Poison of a chunk's inputs. -/
def sPoison (s : State) (b : Nat) (c : Cmd) (lane k : Nat) : Bool :=
  let d := c.desc
  (List.range (sReal d k)).any fun i =>
    let t := 64 * k + i
    let row := lane * sT d + t
    let bad := fun slot cols => slPoison s b (cSlot c slot) (elemOff (cSlot c slot) (sFmt d) cols 0 row 0) (2 * cols)
    bad 0 (sP d) || bad 1 (sN d) || bad 2 (sN d)
    || slPoison s b (cSlot c 3) (lane * strideOf (cSlot c 3) (4 * sT d) + 4 * t) 4
    || (hasSlot c 4 && slPoison s b (cSlot c 4) (lane * strideOf (cSlot c 4) (2 * sT d) + 2 * t) 2)

def sLines (c : Cmd) (lane k : Nat) : List Nat :=
  let d := c.desc
  numSet ((List.range (sReal d k)).flatMap fun i =>
    let t := 64 * k + i
    let row := lane * sT d + t
    let at_ := fun slot off n => if slLoc (cSlot c slot) ≠ 0 then [] else lineSpan (slAddr (cSlot c slot) + off) n
    let l := fun slot cols => at_ slot (elemOff (cSlot c slot) (sFmt d) cols 0 row 0) (2 * cols)
    l 0 (sP d) ++ l 1 (sN d) ++ l 2 (sN d) ++ at_ 3 (lane * strideOf (cSlot c 3) (4 * sT d) + 4 * t) 4
      ++ (if hasSlot c 4 then at_ 4 (lane * strideOf (cSlot c 4) (2 * sT d) + 2 * t) 2 else []))

/-- Rows and columns of state tile `i`: the first and how many. -/
def sTileAt (d : Descriptor) (i : Nat) : Nat × Nat × Nat × Nat :=
  let n0 := 64 * (i / sPt d)
  let p0 := 64 * (i % sPt d)
  (n0, min 64 (sN d - n0), p0, min 64 (sP d - p0))

/-- The open state groups of a lane: STATE_IN or +0. -/
def laneInit (s : State) (b : Nat) (c : Cmd) (lane : Nat) : List Acc :=
  let d := c.desc
  (List.range (sTau d)).map fun i =>
    let (n0, nn, p0, pp) := sTileAt d i
    let ws := (List.range (nn * pp)).map fun o => if hasSlot c 5 then sStateAt s b c 5 lane (n0 + o / pp) (p0 + o % pp) else 0
    let bad := hasSlot c 5 && (ws.any p64Bad || (List.range nn).any fun r =>
      slPoison s b (cSlot c 5) ((lane * sN d + n0 + r) * strideOf (cSlot c 5) (8 * sP d) + 8 * p0) (8 * pp))
    let a := accOf (ws.map decP64)
    { a with tile := { a.tile with poison := b2n bad } }

/-- The state groups of an item, lane by lane. -/
def scanInit (s : State) (b : Nat) (c : Cmd) (item : Nat) : List Acc :=
  (List.range (lanesOf c.desc item)).flatMap fun r => laneInit s b c (laneAt c.desc item r)

/-- An FP32 result rounded to the operand format. -/
def sOper (d : Descriptor) (v : Sat Val) : Sat Val :=
  let y := stored (fmtOf (sFmt d)) v.1
  (y.1, y.2 || v.2)

/-- `convert` of a state element (R241). -/
def sConvert (d : Descriptor) (v : Val) : Sat Val := sOper d (rne32 v)

/-- Does the conversion of a state tile saturate (R243)? -/
def convertSat (d : Descriptor) (t : TileV) : Bool := (tileVals t).any fun v => (sConvert d v).2

/-! ### SCAN: products (R241) -/

/-- m of a pair: c by b over the state elements. -/
def scanFirst (s : State) (b : Nat) (c : Cmd) (j : Job) (pair : Nat) : Prod :=
  let d := c.desc
  let k := pairTile pair
  let lane := laneAt d j.item (pairRow pair)
  { outs := 4096, np := 1, lo := 0, steps := sN d / 2, g := 2, len := sN d
    term := fun o n => valMul (sElem s b c 2 lane (64 * k + o / 64) n) (sElem s b c 1 lane (64 * k + o % 64) n)
    init := List.replicate 4096 vZero, lines := sLines c lane k, entries := [], poison := b2n (sPoison s b c lane k)
    scale := none, target := none, group := 4 * pair, bank := none, ends := 2, rows := 64, held := none
    kaolin := false, long := false }

/-- Second products of a pair: the y tiles, then the state tiles. -/
def scanSeconds (d : Descriptor) : Nat := sPt d + sTau d

/-- Element (n, p) of a lane's parked state as an operand: ŝ. -/
def sHat (d : Descriptor) (j : Job) (r n p : Nat) : Val :=
  let pp := (sTileAt d (n / 64 * sPt d + p / 64)).2.2.2
  let a := j.outs.getD (r * sTau d + n / 64 * sPt d + p / 64) acc0
  (sConvert d (decP64 ((a.tile.vals.getD (n % 64 * pp + p % 64) 0#64).toNat))).1

/-- The decay of a state tile: one rounding per element, +0 for a decay of +0 (R241). -/
def scanDecay (a : Val) (o : Acc) : Acc :=
  roundDone (accPut 1 o ((tileVals o.tile).map fun y => if valIsZero a then (vZero, false) else rneAf50 (valMul y a)))

/-- The y tile `q` of the treated pair in front: c̃ · ŝ, then ŵ · x, in one group. -/
def scanY (s : State) (b : Nat) (c : Cmd) (j : Job) (x : PBuf) (q : Nat) : Prod :=
  let d := c.desc
  let k := pairTile x.tile
  let r := pairRow x.tile
  let lane := laneAt d j.item r
  let p0 := 64 * q
  let pc := min 64 (sP d - p0)
  let n := if k = 0 ∧ !hasSlot c 5 then 0 else sN d
  let w := x.bufs.getD 0 buf0
  let ct := x.bufs.getD 1 buf0
  let bad := (List.range (sTau d)).foldl (fun m i => m ||| (j.outs.getD (r * sTau d + i) acc0).tile.poison) 0
  { outs := 64 * pc, np := 1, lo := 0, steps := (n + 64) / 2, g := 2, len := n + 64
    term := fun o i =>
      if i < n then valMul (ct.vals.getD (o / pc * sN d + i) vZero) (sHat d j r i (p0 + o % pc))
      else valMul (w.vals.getD (o / pc * 64 + (i - n)) vZero) (sElem s b c 0 lane (64 * k + (i - n)) (p0 + o % pc))
    init := List.replicate (64 * pc) vZero, lines := sLines c lane k, entries := [], poison := w.poison ||| bad
    scale := none, target := none, group := 2 ^ 40 + 4 * x.tile + q, bank := none, ends := 2, rows := 64, held := none
    kaolin := false, long := false }

/-- State tile `i` of the treated pair in front: its decay, then b̃ᵀ · x; it is parked between chunks (R244). -/
def scanS (s : State) (b : Nat) (c : Cmd) (j : Job) (x : PBuf) (i : Nat) : Prod :=
  let d := c.desc
  let k := pairTile x.tile
  let r := pairRow x.tile
  let lane := laneAt d j.item r
  let (n0, nn, p0, pp) := sTileAt d i
  let bt := x.bufs.getD 2 buf0
  { outs := nn * pp, np := 1, lo := 0, steps := 32, g := 2, len := 64
    term := fun o t => valMul (bt.vals.getD (t * sN d + n0 + o / pp) vZero) (sElem s b c 0 lane (64 * k + t) (p0 + o % pp))
    init := [], lines := sLines c lane k, entries := [], poison := bt.poison
    scale := some (scanDecay ((x.scale.headD (0, vOne)).2)), target := some (r * sTau d + i), group := 2 ^ 32 + r * sTau d + i
    bank := none, ends := if k + 1 < sChunks d then 1 else 2, rows := nn, held := none, kaolin := false, long := false }

/-- The second product that a lane group stands before. -/
def scanSecond (s : State) (b : Nat) (c : Cmd) (j : Job) : Option Prod :=
  (j.pq.head?).map fun x => if j.seconds < sPt c.desc then scanY s b c j x j.seconds else scanS s b c j x (j.seconds - sPt c.desc)

/-! ### SCAN: the BVU (R241) -/

/-- G of a chunk: the prefix sums of the clamped gates, with a saturation. -/
def sPrefix (s : State) (b : Nat) (c : Cmd) (lane c0 : Nat) : List Val × Bool :=
  let r := (List.range 64).foldl (fun (a : List Val × Val × Bool) i =>
    let g := rne32 (valAdd a.2.1 (sGate s b c lane (c0 + i)))
    (a.1 ++ [g.1], g.1, a.2.2 || g.2)) (([], vZero, false) : List Val × Val × Bool)
  (r.1, r.2.2)

/-- The BVU's work on a chunk, after its score group m: ŵ, c̃, b̃ and the decay. A token pair counts for w when no token
between them starts a segment (R240: ids may come back). -/
def scanTile (b : Nat) (c : Cmd) (x : Epi) (s : State) : State :=
  let d := c.desc
  let pair := groupPair x.group
  let lane := laneAt d x.item (pairRow pair)
  let c0 := 64 * pairTile pair
  let fin := finTile s b 1 x
  let mv := (tileVals fin).map rne32
  let gs := sPrefix s b c lane c0
  let G := fun i => gs.1.getD i vZero
  let neg := fun v : Val => match v with | .fin y => Val.fin (fxNeg y) | .inf n => .inf !n | w => w
  let ex := fun v : Val => sf false 1 v
  let reset := fun lo hi => (List.range (hi + 1 - lo)).any fun i => sReset s b c lane (c0 + lo + i)
  let w := (List.range 64).map fun t => (List.range 64).map fun i =>
    if i ≤ t ∧ !(decide (i < t) && reset (i + 1) t) then
      let dlt := rne32 (valAdd (G t) (neg (G i)))
      let y := rne32 (valMul ((mv.getD (64 * t + i) (vZero, false)).1) (ex dlt.1))
      (y.1, y.2 || dlt.2)
    else ((vZero, false) : Sat Val)
  let wq := w.map fun r => pRow true (r.map (·.1))
  let ct := (List.range 64).flatMap fun t => (List.range (sN d)).map fun n =>
    if reset 0 t then ((vZero, false) : Sat Val) else sOper d (rne32 (valMul (sElem s b c 2 lane (c0 + t) n) (ex (G t))))
  let bt := (List.range 64).flatMap fun i => (List.range (sN d)).map fun n =>
    if i < 63 ∧ reset (i + 1) 63 then ((vZero, false) : Sat Val)
    else sOper d (rne32 (valMul (sElem s b c 1 lane (c0 + i) n) (ex (rne32 (valAdd (G 63) (neg (G i)))).1)))
  let a := if reset 0 63 then vZero else ex (G 63)
  let mkb := fun (l : List (Sat Val)) => ({ vals := l.map (·.1), poison := fin.poison } : Buf)
  let sat := fin.sat != 0 || mv.any (·.2) || gs.2 || w.any (fun r => r.any (·.2)) || wq.any (·.2) || ct.any (·.2) || bt.any (·.2)
  markSat c.uid sat (putP b { tile := pair, bufs := [{ vals := wq.flatMap (·.1), poison := fin.poison }, mkb ct, mkb bt], scale := [(0, a)] } s)

/-- A y tile of a chunk: real tokens only, from FP32 whatever step comes first (R241). No slot gives `RESID` an operand
here and none takes the records of `STATS_LN` and `STATS_RMS`: r is a free value and the records go nowhere
(log entry 63). -/
def scanOut (b : Nat) (c : Cmd) (x : Epi) (s : State) : State :=
  let d := c.desc
  let g := x.group - 2 ^ 40
  let k := pairTile (g / 4)
  let q := g % 4
  let lane := laneAt d x.item (pairRow (g / 4))
  let pc := min 64 (sP d - 64 * q)
  let fin := finTile s b 1 x
  let row := fun t => lane * sT d + 64 * k + t
  let m := mat32 ((List.range (sReal d k)).map fun t => ((tileVals fin).drop (t * pc)).take pc)
  let ctx : EpCtx :=
    { kaolin := false, steps := epiOf d 266, f := fld d 262 4, alpha := w32 (BitVec.ofNat 32 (fld d 352 32))
      beta := if hasSlot c 8 then some fun j => slF32 s b (cSlot c 8) (64 * q + j) else none
      resid := fun i j => w32 (BitVec.ofNat 32 (Config.freeNat (2 ^ 96 + (c.uid * 2 ^ 36 + row i) * 256 + 64 * q + j)))
      fmt := fld d 384 4, qcol := false, width := 64 }
  let res := epilogue ctx m.1
  let y := cSlot c 7
  let f := fld d 384 4
  let bad := fin.poison != 0 || (hasSlot c 8 && (epiOf d 266).contains 1 && slPoison s b (cSlot c 8) (256 * q) (4 * pc))
  let s := markSat c.uid (fin.sat != 0 || m.2 || res.sat) s
  let s := (List.range res.codes.length).foldl (fun s t =>
    let s := slotWrite c.uid b y (elemOff y f (sP d) 0 (row t) (64 * q)) (packCodes (fmtBits (fmtOf f)) (res.codes.getD t [])) bad s
    if res.scales = [] then s
    else slotWrite c.uid b y (slScale y + scaleBytes f * (row t * ceilDiv (sP d) 32 + 2 * q)) ((res.scales.getD t []).flatMap (toBytes (scaleBytes f))) bad s) s
  countPoison c.uid (if bad then [tileUnit lane (k * 256 + q) 0] else []) s

/-- `LONGSUM` of a lane, counted once (R243). -/
def laneLong (c : Cmd) (lane : Nat) (a : Acc) (s : State) : State :=
  let key := 2 ^ 40 + lane
  if a.total ≤ 65536 || (cmdOf s c.uid).any (fun c => thas key c.held) then s
  else flagCmd c.uid 1 (modCmd c.uid (fun c => { c with countA := c.countA + 1, held := tput key tile0 c.held }) s)

/-- A final state tile (R241, R243): P64 words to `STATE_OUT`, and the last conversion's `SAT`; the last one ends the
lane. -/
def scanState (b : Nat) (c : Cmd) (x : Epi) (s : State) : State :=
  let d := c.desc
  let q := x.group - 2 ^ 32
  let i := q % sTau d
  let lane := laneAt d x.item (q / sTau d)
  let (n0, nn, p0, pp) := sTileAt d i
  let fin := finTile s b 1 x
  let o := cSlot c 6
  let s := markSat c.uid (fin.sat != 0 || convertSat d fin) s
  let s := if hasSlot c 6 then
      (List.range nn).foldl (fun s r =>
        slotUnits c.uid b o ((lane * sN d + n0 + r) * strideOf o (8 * sP d) + 8 * p0)
          (((fin.vals.drop (r * pp)).take pp).flatMap fun w => toBytes 8 w.toNat) (fin.poison != 0) s) s
    else s
  let s := laneLong c lane x.acc s
  if i + 1 = sTau d then itemDone c.uid [lane] s else s

/-! ### ROUTE_PAGES -/

def rBlocks (d : Descriptor) : Nat := ceilDiv (aRows d) (aBlock d)
/-- First and last position of a query block. -/
def rFirst (d : Descriptor) (qb : Nat) : Nat := aQPos0 d + qb * aBlock d
def rCount (d : Descriptor) (qb : Nat) : Nat := min (aBlock d) (aRows d - qb * aBlock d)
def rLast (d : Descriptor) (qb : Nat) : Nat := rFirst d qb + rCount d qb - 1

/-- Forced pages (R185). -/
def rForced (d : Descriptor) (qb : Nat) (p : PageDesc) (pages : Nat) : Bool :=
  let f := rFirst d qb
  let w := fld d 365 7
  (p.pageIdx = pages && pageLive p)
  || (w != 0 && !p.hole && decide (p.pos0 < f ∧ f < p.pos0 + (if p.dropped then 16 else p.used) + 16 * w))
  || decide (p.pageIdx < fld d 300 3 ∧ p.pageIdx < pages)

def snapPages (c : Cmd) : Nat := match c.pin with | some p => p.pages | none => 0

/-- Full pages that may be chosen, dropped ones among them. -/
def rEligible (c : Cmd) (qb : Nat) : List PageDesc :=
  c.pages.filter fun p => decide (p.pageIdx < snapPages c) && !p.hole && decide (p.pos0 ≤ rLast c.desc qb) && !rForced c.desc qb p (snapPages c)

def rCands (c : Cmd) (qb : Nat) : List PageDesc := (rEligible c qb).filter fun p => !p.dropped

/-- Dropped pages that R185 excludes, over all query blocks. -/
def rExcluded (c : Cmd) : Nat :=
  (numSet ((List.range (rBlocks c.desc)).flatMap fun qb => ((rEligible c qb).filter (·.dropped)).map (·.pageIdx))).length

/-- q̄ of the heads of an item (R184): quantised values, head by head. -/
def routePrologue (b : Nat) (c : Cmd) (item : Nat) (s : State) : Buf × State :=
  let d := c.desc
  let qb := item / aKvHeads d
  let kh := item % aKvHeads d
  let f := aQFmt d
  let row := fun i => qb * aBlock d + i
  let vs := (List.range (aGroup d)).map fun h =>
    let ms := (List.range (aD d)).map fun ch =>
      let t := pairTree 1 ((List.range (rCount d qb)).map fun i =>
        let e := headElem s b (cSlot c 0) f (aQHeads d) (aD d) (row i) (kh * aGroup d + h) ch
        valMul e.1 e.2)
      let m := rne32 (valQuot t.1 (rCount d qb))
      (m.1, t.2 || m.2)
    let q : List Val × Bool :=
      if (f = 6 ∨ f = 7) ∧ slScale (cSlot c 0) ≠ 0 then
        (let gs := (chunks 32 (ms.map (·.1))).map (intGroup (fmtOf f))
         (gs.flatMap fun g => g.1.map fun w => valMul (decode (fmtOf f) w) (fp16Scale g.2.1), gs.any fun g => g.2.2))
      else proConvert f (ms.map (·.1))
    (q.1, q.2 || ms.any (·.2))
  let bad := (List.range (rCount d qb)).any fun i => (List.range (aGroup d)).any fun h =>
    headPoison s b (cSlot c 0) f (aQHeads d) (aD d) (row i) (kh * aGroup d + h)
  ({ vals := vs.flatMap (·.1), poison := b2n bad }, markSat c.uid (vs.any (·.2)) s)

def loamLines (d : Descriptor) (p : PageDesc) (kh : Nat) : List Nat :=
  if p.noPool then []
  else lineSpan (secAt p.frameAddr p.fmt (aD d) kh + pageData p.fmt (aD d) + pageSig p.fmt (aD d)) (aD d + aD d / 16)
    ++ lineSpan (secAt p.frameAddr p.fmt (aD d) kh + pageZ p.fmt (aD d) - 8) 8

/-- A loam key that is among the region's loam summaries was checked when it came in (R228). -/
def loamBad (s : State) (b : Nat) (c : Cmd) (p : PageDesc) (kh : Nat) : Bool :=
  p.noPool || (!thas (p.frame * 64 + kh) (regionAt s (b / 40)).loam && !loamOk s (b / 40) (aD c.desc) p kh)

/-- Candidates of part `i` of an item. -/
def routePart (c : Cmd) (item i : Nat) : List PageDesc := ((rCands c (item / aKvHeads c.desc)).drop (64 * i)).take 64

/-- Parts of an item. -/
def routePairs (c : Cmd) (item : Nat) : List Nat := List.range (ceilDiv (rCands c (item / aKvHeads c.desc)).length 64)

/-- The route scores of part `i`: the heads' means by the parts' loam keys (R184). -/
def routeProd (s : State) (b : Nat) (c : Cmd) (j : Job) (i : Nat) : Prod :=
  let d := c.desc
  let kh := j.item % aKvHeads d
  let ps := routePart c j.item i
  let n := ps.length
  let g := groupWidth (max (fmtClass (aQFmt d)) 1) 1
  let q := (proBufs s b j 0).getD 0 buf0
  { outs := aGroup d * n, np := 1, lo := 0, steps := ceilDiv (aD d) g, g := g, len := aD d
    term := fun o ch =>
      match ps[o % n]? with
      | some p => if p.noPool then vZero else
        (let bs := loamBytes s (b / 40) p.frame p.frameAddr p.fmt (aD d) kh
         scaledProd (q.vals.getD (o / n * aD d + ch) vZero) (loamElem bs ch) vOne (loamScale bs (aD d) ch))
      | none => vZero
    init := List.replicate (aGroup d * n) vZero, lines := numSet (ps.flatMap fun p => if thas (p.frame * 64 + kh) (regionAt s (b / 40)).loam then [] else loamLines d p kh), entries := []
    poison := if q.poison != 0 || ps.any (fun p => loamBad s b c p kh
      || (!p.noPool && !thas (p.frame * 64 + kh) (regionAt s (b / 40)).loam && nvPoison s (b / 40) (secAt p.frameAddr p.fmt (aD d) kh + pageData p.fmt (aD d) + pageSig p.fmt (aD d)) (aD d + aD d / 16))) then 1 else 0
    scale := none, target := none, group := 4 * i, bank := none, ends := 2, rows := aGroup d, held := none, kaolin := false, long := false }

/-- The list of a query block and head: the best candidates, the forced pages, in page order (R185, Table 06.6). -/
def routeWrite (b : Nat) (c : Cmd) (item : Nat) (scores : List Val) (bad : Bool) (s : State) : State :=
  let d := c.desc
  let qb := item / aKvHeads d
  let cs := rCands c qb
  let picks := (topK (fld d 358 7) ((List.range cs.length).map fun i =>
    ((toW32 (scores.getD i vZero), (cs.map (·.pageIdx)).getD i 0) : TopE))).filter fun e => e.2 != 0xFFFFFFFF
  let forced := (c.pages.filter fun p => rForced d qb p (snapPages c)).map (·.pageIdx)
  let all := numSet (picks.map (·.2) ++ forced)
  let bs := toBytes 1 all.length ++ toBytes 1 picks.length ++ toBytes 6 0
    ++ (List.range 134).flatMap fun i => toBytes 4 (all.getD i 0xFFFFFFFF)
  let s := slotUnits c.uid b (cSlot c 8) (item * 544) bs bad s
  let n := rExcluded c
  let s := if n = 0 then s else flagCmd c.uid 5 (modCmd c.uid (fun c => { c with countA := n }) s)
  itemDone c.uid [item] s

/-- The route scores of a part: the largest over the heads, in FP32; the last part ends the item. -/
def routeTile (b : Nat) (c : Cmd) (x : Epi) (s : State) : State :=
  let d := c.desc
  let i := groupPair x.group
  match (blockAt s b).job with
  | none => s
  | some j =>
    let n := (routePart c x.item i).length
    let fin := finTile s b 1 x
    let vs := (tileVals fin).map rne32
    let sc := (List.range n).map fun i =>
      (List.range (aGroup d - 1)).foldl (fun m h =>
        let v := (vs.getD ((h + 1) * n + i) (vZero, false)).1
        if valGt v m then v else m) ((vs.getD i (vZero, false)).1)
    let old := j.bufs.getD 3 buf0
    let buf : Buf := { vals := old.vals ++ sc, poison := old.poison ||| fin.poison }
    let s := markSat c.uid (fin.sat != 0 || vs.any (·.2)) s
    if j.todo.isEmpty ∧ j.flight.all (· == i) then
      modBlock b (fun k => { k with job := none, pro := k.pro.filter fun p => !(p.uid == j.uid && p.item == j.item) })
        (routeWrite b c x.item buf.vals (buf.poison != 0) s)
    else modBlock b (fun k => { k with job := some { j with flight := j.flight.filter (· != i), bufs := putBuf 3 buf j.bufs } }) s

end Sys2Proof.Machine
end

