-- ==== Sys2Proof/Machine/Seq.lean ====
section
/-! DEFINITION. Work that only the BVU does (R175, R176, R246 to R255, R362, R363): merges of partial records, combining
of collectives, MOE_ROUTE and TOPK. -/

namespace Sys2Proof.Machine

/-! ### Partial records (R175, R176) -/

/-- A stored partial record as region `rg` reads it: the part, and whether it counts as a poisoned input. -/
def readPart (s : State) (rg d a : Nat) : Part × Bool :=
  let w := nvNat s rg a (16 + 8 * d)
  let m := decode .fp32 (bits w 0 32)
  let mi : Option (Option Int) := match m with
    | .inf true => some none
    | .fin x => if x.man = 0 ∨ x.exp ≥ 0 ∨ (fxFloor x : Int) = fxCeil x then some (some (fxFloor x)) else none
    | _ => none
  let lw := bits w 64 64
  let os := (List.range d).map fun c => bits w (128 + 64 * c) 64
  let bad := mi.isNone || bits w 32 32 != 0 || p64Bad lw || os.any p64Bad || nvPoison s rg a (16 + 8 * d)
  ({ m := mi.getD none, l := decP64 lw, o := os.map decP64, bad := false }, bad)

/-- Merge of the records of one row. -/
def mergeAt (s : State) (rg d : Nat) (as_ : List Nat) : Part × Bool × Bool :=
  let ps := as_.map (readPart s rg d)
  let m := mergeParts (ps.map (·.1))
  (m.1, m.2, ps.any (·.2))

/-- Items of ATTN_MERGE: row blocks. -/
def mergeItem (b : Nat) (c : Cmd) (item : Nat) (s : State) : State :=
  let d := c.desc
  let rs := rowBlock d (item / aQHeads d) (item % aQHeads d)
  let base := (List.range (fld d 372 7)).map fun i => nvNat s (b / 40) (slAddr (cSlot c 0) + 8 * i) 8 % 2 ^ 52
  let ms := (List.range rs.n).map fun r =>
    mergeAt s (b / 40) (aD d) (base.map fun a => a + recOff d 0 (rs.head r) (rs.row r))
  let bad := fun i => ((ms.getD i ({ m := none, l := vZero, o := [], bad := false }, false, false)).2).2
  let any := (List.range rs.n).any bad
  let s := writeRows b c rs (ms.map fun m => partEnd m.1) bad false item 0 (markSat c.uid (ms.any fun m => m.2.1) s)
  itemDone c.uid [item] (if any then flagCmd c.uid 3 s else s)

/-! ### Collectives (R362, R363) -/

/-- One owned row of a reduce-scatter: contributions added in member order. -/
def reduceRow (b : Nat) (c : Cmd) (row : Nat) (s : State) : State :=
  let g := groupAt s (collG c.desc)
  let n := g.members.length
  let me := countRows s (cSlot c 2) g.rank
  let r := collR c
  let at_ := fun k i => collDst c + (k * me + row) * r + 8 * i
  let vs := (List.range (r / 8)).map fun i =>
    let ws := (List.range n).map fun k => nvNat s (b / 40) (at_ k i) 8
    let v := combine (ws.map fun w => (decP64 w, false))
    (v, ws.any p64Bad || (List.range n).any fun k => nvPoison s (b / 40) (at_ k i) 8)
  let bs := vs.flatMap fun v => toBytes 8 (encP64 v.1.1)
  let bad := fun o k => (List.range (ceilDiv (o + k) 8)).any fun i => decide (8 * i + 8 > o) && ((vs.getD i ((vZero, false), false)).2)
  itemDone c.uid [row] (writeMarked c.uid b (at_ 0 0) bs bad false (markSat c.uid (vs.any fun v => v.1.2) s))

/-- One owned row of a merging collective: O and λ in FP32, packed behind the records. -/
def mergeRow (b : Nat) (c : Cmd) (row : Nat) (s : State) : State :=
  let g := groupAt s (collG c.desc)
  let n := g.members.length
  let me := countRows s (cSlot c 2) g.rank
  let r := collR c
  let d := (r - 16) / 8
  let m := mergeAt s (b / 40) d ((List.range n).map fun k => collDst c + (k * me + row) * r)
  let e := partEnd m.1
  let bs := e.1.flatMap (fun v => toBytes 4 (encode .fp32 v.1).1) ++ toBytes 4 (encode .fp32 e.2.1).1
  let s := markSat c.uid (m.2.1 || e.2.2 || e.1.any (·.2)) s
  itemDone c.uid [row] (writeMarked c.uid b (collDst c + n * me * r + row * (4 * d + 4)) bs (fun _ _ => m.2.2) false s)

/-! ### TOPK (R254, R255) -/

def tRows (d : Descriptor) : Nat := fld d 256 25
def tLen (d : Descriptor) : Nat := fld d 281 32
def tK (d : Descriptor) : Nat := fld d 313 7
def tRanges (d : Descriptor) : Nat := ceilDiv (tLen d) 65536
def tBytes (d : Descriptor) : Nat := if fld d 320 2 = 0 then 4 else 2

/-- A row's own length. -/
def tRowLen (s : State) (b : Nat) (c : Cmd) (r : Nat) : Nat :=
  if hasSlot c 1 then min (tLen c.desc) (slNat s b (cSlot c 1) (strideOf (cSlot c 1) 4 * r) 4) else tLen c.desc

/-- Ranges of a row: its own length decides (R255). -/
def rowRanges (s : State) (b : Nat) (c : Cmd) (r : Nat) : Nat := max 1 (ceilDiv (tRowLen s b c r) 65536)

def tOff (c : Cmd) (r i : Nat) : Nat := r * strideOf (cSlot c 0) (tLen c.desc * tBytes c.desc) + i * tBytes c.desc

/-- An element widened to FP32. -/
def tElem (s : State) (b : Nat) (c : Cmd) (r i : Nat) : Word :=
  let n := slNat s b (cSlot c 0) (tOff c r i) (tBytes c.desc)
  match fld c.desc 320 2 with
  | 0 => BitVec.ofNat 32 n
  | 1 => BitVec.ofNat 32 (n * 2 ^ 16)
  | _ => toW32 (decode .fp16 n)

/-- The ranking key: |x| before the sign of `ORDER`. -/
def tKey (d : Descriptor) (w : Word) : Word :=
  let a := if fld d 323 1 = 1 then w &&& 0x7FFFFFFF#32 else w
  if fld d 322 1 = 1 then a ^^^ 0x80000000#32 else a

/-- An entry of a list: ranked, or a filler of R68. -/
def tFill : TopE := (0xFF800000#32, 0xFFFFFFFF)

/-- One range of one row; the last range to come in writes the row. -/
def topkItem (b : Nat) (c : Cmd) (item : Nat) (s : State) : State :=
  let d := c.desc
  let r := item / tRanges d
  let k := tK d
  let n := tRowLen s b c r
  let lo := 65536 * (item % tRanges d)
  let es : List TopE := (List.range (min 65536 (n - lo))).map fun i => (tKey d (tElem s b c r (lo + i)), lo + i)
  let bad := slPoison s b (cSlot c 0) (tOff c r lo) (min 65536 (n - lo) * tBytes d)
  let l := topK k es
  let t : TileV := { vals := l.map fun e => BitVec.ofNat 64 (e.1.toNat + 2 ^ 32 * e.2), sat := 0, poison := b2n bad }
  let parts := tput item t c.partials
  let ids := (List.range (rowRanges s b c r)).map fun i => r * tRanges d + i
  if ids.all fun i => thas i parts then
    let ts := ids.map fun i => tget tile0 parts i
    let all : List TopE := ts.flatMap fun t => (t.vals.map fun w => ((BitVec.ofNat 32 w.toNat, w.toNat / 2 ^ 32) : TopE)).filter (· != tFill)
    let out := topK k all
    let bad := ts.any fun t => t.poison != 0
    let vs := out.flatMap fun e => toBytes 4 (if e.2 = 0xFFFFFFFF then 0xFF800000 else (tElem s b c r e.2).toNat)
    let is_ := out.flatMap fun e => toBytes 4 (if e.2 = 0xFFFFFFFF then 0xFFFFFFFF else min 0xFFFFFFFE (e.2 + fld d 352 32))
    let s := slotUnits c.uid b (cSlot c 2) (r * strideOf (cSlot c 2) (4 * k)) vs bad s
    let s := slotUnits c.uid b (cSlot c 3) (r * strideOf (cSlot c 3) (4 * k)) is_ bad s
    itemDone c.uid ids (modCmd c.uid (fun c => { c with partials := ids.foldl (fun l i => tdel i l) parts, bands := c.bands.filter fun e => !ids.contains e.1 }) s)
  else modCmd c.uid (fun c => { c with partials := parts }) s

/-! ### MOE_ROUTE (R246 to R252) -/

def mT (d : Descriptor) : Nat := fld d 256 25
def mE (d : Descriptor) : Nat := fld d 281 9
def mK (d : Descriptor) : Nat := fld d 290 4
def mFn (d : Descriptor) : Nat := fld d 294 2
def mTable (d : Descriptor) : Nat := fld d 298 4
def mCap (d : Descriptor) : Nat := fld d 310 25

/-- Token ranges, from the descriptor and `REGION_COUNT` alone (R57, log entry 22). -/
def mRanges (s : State) (d : Descriptor) : Nat := max 1 (min (mT d) (40 * regionCount s))

def mMembers (s : State) (c : Cmd) : Nat := max 1 (groupAt s (fld c.desc 302 8)).members.length

/-- Entry e of the routing table as it stands in memory (Table 08.4). -/
def mStored (s : State) (c : Cmd) (e : Nat) : Nat :=
  let base := odv s 0x4300 ((if c.routeBank = 0 then 0x10 else 0x20) + mTable c.desc - 1) % 2 ^ 52
  hostNat s (base + 32 * e) 32

/-- Entry e as the routes read it: undefined once the table has been written while a bank that names it was current or
latched (R247), a free value. -/
def mEntry (s : State) (c : Cmd) (e : Nat) : Nat :=
  if s.front.spoiled.contains (32 + 8 * c.routeBank + (mTable c.desc - 1)) then Config.freeNat (2 ^ 88 + c.uid * 256 + e)
  else mStored s c e

def mValid (s : State) (c : Cmd) (e : Nat) : Bool := mTable c.desc = 0 || bit (mEntry s c e) 35
def mBias (s : State) (c : Cmd) (e : Nat) : Val := if mTable c.desc = 0 then vZero else w32 (BitVec.ofNat 32 (mEntry s c e))
def mReps (s : State) (c : Cmd) (e : Nat) : Nat := if mTable c.desc = 0 then 1 else bits (mEntry s c e) 32 3 + 1

/-- Member and slot of replica q. -/
def mPlace (s : State) (c : Cmd) (e q : Nat) : Nat × Nat :=
  if mTable c.desc = 0 then (0, e) else (bits (mEntry s c e) (64 + 24 * q) 15, bits (mEntry s c e) (79 + 24 * q) 9)

/-- Replicas of the valid experts. -/
def mReplicas (s : State) (c : Cmd) : List (Nat × Nat) :=
  (List.range (mE c.desc)).flatMap fun e => if mValid s c e then (List.range (mReps s c e)).map fun q => (e, q) else []

/-- R247: a bad table, every entry counting, the reserved bits of a valid expert; R433: a poisoned one. -/
def mTableBad (s : State) (c : Cmd) : Bool :=
  mTable c.desc != 0 &&
  (let ps := (List.range (mE c.desc)).flatMap fun e => (List.range (bits (mStored s c e) 32 3 + 1)).map fun q =>
     (bits (mStored s c e) (64 + 24 * q) 15, bits (mStored s c e) (79 + 24 * q) 9)
   ps.any (fun p => p.1 ≥ mMembers s c)
   || (List.range ps.length).any (fun i => (ps.drop (i + 1)).contains (ps.getD i (0, 0)))
   || (List.range (mE c.desc)).any fun e => bit (mStored s c e) 35 && bits (mStored s c e) 36 28 != 0)

def mTablePoison (s : State) (c : Cmd) : Bool :=
  mTable c.desc != 0
  && hostPoison s (odv s 0x4300 ((if c.routeBank = 0 then 0x10 else 0x20) + mTable c.desc - 1) % 2 ^ 52) (32 * mE c.desc)

/-- Softmax of R249 over a list of logits; μ is the largest of those in `ok`, −∞ if there is none (log entry 64). -/
def mSoftmax (zs : List Val) (ok : List Nat) : List Val × Bool :=
  let z := zs.map fun v => rne32 (valMul v log2e48)
  let mu := ok.foldl (fun m i => let v := (z.getD i (vZero, false)).1; if valGt v m then v else m) (.inf true)
  let neg := match mu with | .fin x => Val.fin (fxNeg x) | .inf n => .inf !n | v => v
  let w := z.map fun v => rne32 (valAdd v.1 neg)
  let u := w.map fun v => sf false 1 v.1
  let t := pairTree 1 u
  let l := rne32 t.1
  let r := sf false 4 l.1
  let p := u.map fun v => rne32 (valMul v r)
  (p.map (·.1), z.any (·.2) || w.any (·.2) || t.2 || l.2 || p.any (·.2))

/-- A token's choices: experts and weights in rank order, p of every expert, `SAT`. -/
def mToken (s : State) (b : Nat) (c : Cmd) (t : Nat) : List Nat × List Val × List Val × Bool :=
  let d := c.desc
  let w := if fld d 297 1 = 0 then 4 else 2
  let x := cSlot c 0
  let z := (List.range (mE d)).map fun e =>
    decode (if w = 4 then .fp32 else .bf16) (slNat s b x (t * strideOf x (mE d * w) + e * w) w)
  let ok := (List.range (mE d)).filter (mValid s c)
  let (p0, sat0) : List Val × Bool :=
    match mFn d with
    | 0 => mSoftmax z ok
    | 1 => (z.map (sf false 7), false)
    | _ => ([], false)
  let keys := ok.map fun e => rne32 (valAdd (if mFn d = 2 then z.getD e vZero else p0.getD e vZero) (mBias s c e))
  let picks := ((topK (mK d) ((ok.zip keys).map fun q => ((toW32 q.2.1, q.1) : TopE))).filter (· != tFill)).map (·.2)
  let soft := mSoftmax (picks.map fun e => z.getD e vZero) (List.range picks.length)
  let chosen := if mFn d = 2 then soft.1 else picks.map fun e => p0.getD e vZero
  let p := if mFn d = 2 then (List.range (mE d)).map fun e =>
      match picks.findIdx? (· = e) with | some i => chosen.getD i vZero | none => vZero else p0
  let sum := (chosen.drop 1).foldl (fun (a : Sat Val) v => let r := rne32 (valAdd a.1 v); (r.1, a.2 || r.2)) (chosen.headD vZero, false)
  let norm := if fld d 296 1 = 1 ∧ mFn d ≠ 2 then chosen.map fun v => rne32 (valMul v (sf false 4 sum.1)) else chosen.map fun v => (v, false)
  let wt := norm.map fun v => rne32 (valMul v.1 (w32 (BitVec.ofNat 32 (fld d 352 32))))
  (picks, wt.map (·.1), p,
    sat0 || keys.any (·.2) || (mFn d = 2 && soft.2) || (fld d 296 1 = 1 && mFn d != 2 && sum.2) || norm.any (·.2) || wt.any (·.2))

/-- R250: kept assignments as (token, rank, expert, replica), and the number dropped. -/
def mKeep (s : State) (c : Cmd) (assign : Nat → Nat → Option Nat) : List (Nat × Nat × Nat × Nat) × Nat :=
  let d := c.desc
  let r := (List.range (mK d)).foldl (fun a rk => (List.range (mT d)).foldl (fun (a : List (Nat × Nat × Nat × Nat) × Nat × List (Nat × Nat)) t =>
    match assign t rk with
    | none => a
    | some e =>
      let q := t % mReps s c e
      let n := tget 0 a.2.2 (8 * e + q)
      if mCap d ≠ 0 ∧ n = mCap d then (a.1, a.2.1 + 1, a.2.2)
      else (a.1 ++ [(t, rk, e, q)], a.2.1, tput (8 * e + q) (n + 1) a.2.2)) a)
    (([], 0, []) : List (Nat × Nat × Nat × Nat) × Nat × List (Nat × Nat))
  (r.1, r.2.1)

/-- Replicas of a member by ascending slot. -/
def mSlots (s : State) (c : Cmd) (m : Nat) : List (Nat × Nat) :=
  let rs := (mReplicas s c).filter fun r => (mPlace s c r.1 r.2).1 = m
  (List.range 512).flatMap fun k => rs.filter fun r => (mPlace s c r.1 r.2).2 = k

/-- One token range; the last one decides capacity and writes every array (R250 to R252). Choices and weights
wait in `held`, sums of p in `partials`. -/
def moeItem (b : Nat) (c : Cmd) (item : Nat) (s : State) : State :=
  let d := c.desc
  let n := mRanges s d
  let rg := rangeOf (mT d) n item
  let toks := (List.range rg.2).map fun i => mToken s b c (rg.1 + i)
  let w := if fld d 297 1 = 0 then 4 else 2
  let x := cSlot c 0
  let badTok := fun t => slPoison s b x (t * strideOf x (mE d * w)) (mE d * w)
  let sums := (List.range (mE d)).map fun e => pairTree 1 (toks.map fun t => t.2.2.1.getD e vZero)
  let enc := toks.flatMap fun t => (List.range (mK d)).map fun r =>
    BitVec.ofNat 64 ((match t.1[r]? with | some e => e | none => 0xFFFF) + 2 ^ 16 * (match t.2.1[r]? with | some v => (toW32 v).toNat | none => 0))
  let held := tput item { vals := enc, sat := b2n (toks.any fun t => t.2.2.2), poison := 0 } c.held
  let parts := tput item (tileOf (sums.map (·.1)) (b2n (sums.any (·.2))) 0) c.partials
  let s := modCmd c.uid (fun c => { c with held := held, partials := parts }) s
  if !((List.range n).all fun i => thas i held) then s
  else
    let all := (List.range n).flatMap fun i => (tget tile0 held i).vals
    let expert := fun t r => (all.getD (t * mK d + r) 0xFFFF#64).toNat % 2 ^ 16
    let weight := fun t r => (all.getD (t * mK d + r) 0#64).toNat / 2 ^ 16
    let kept := mKeep s c fun t r => if expert t r = 0xFFFF then none else some (expert t r)
    let lists := (List.range (mMembers s c)).map fun m =>
      (mSlots s c m).flatMap fun q => (List.range (mT d)).flatMap fun t => kept.1.filter fun k => k.1 = t && (k.2.2.1, k.2.2.2) = q
    let off := fun m => ((lists.take m).map (·.length)).sum
    let place := fun t r => (List.range lists.length).findSome? fun m =>
      ((lists.getD m []).findIdx? fun k => k.1 = t && k.2.1 = r).map fun i => (m, i)
    let anyBad := (List.range (mT d)).any badTok
    let ts := List.range (mT d)
    let s := ts.foldl (fun s t =>
      let ids := (List.range (mK d)).flatMap fun r => toBytes 2 (expert t r)
      let ws := (List.range (mK d)).flatMap fun r => toBytes 4 (if (place t r).isSome then weight t r else 0)
      let ps := (List.range (mK d)).flatMap fun r => toBytes 8 (match place t r with
        | some p => p.2 + p.1 * 2 ^ 24
        | none => if expert t r = 0xFFFF then 0 else 2 ^ 63)
      let s := slotUnits c.uid b (cSlot c 1) (t * strideOf (cSlot c 1) (2 * mK d)) ids (badTok t) s
      let s := slotUnits c.uid b (cSlot c 2) (t * strideOf (cSlot c 2) (4 * mK d)) ws (badTok t) s
      slotUnits c.uid b (cSlot c 3) (t * strideOf (cSlot c 3) (8 * mK d)) ps anyBad s) s
    let disp := lists.flatMap fun l => l.flatMap fun k => toBytes 4 (k.1 + k.2.1 * 2 ^ 24)
    let cnt := (List.range lists.length).flatMap fun m => toBytes 4 (lists.getD m []).length ++ toBytes 4 (off m)
    let s := slotUnits c.uid b (cSlot c 4) 0 disp anyBad s
    let s := slotUnits c.uid b (cSlot c 5) 0 cnt anyBad s
    let sums := (List.range (mE d)).map fun e => combine ((List.range n).map fun i => ((tileVals (tget tile0 parts i)).getD e vZero, false))
    let aux := (List.range (mE d)).flatMap fun e =>
      toBytes 4 ((ts.flatMap fun t => (List.range (mK d)).filter fun r => expert t r = e).length)
      ++ toBytes 4 ((kept.1.filter fun k => k.2.2.1 = e).length) ++ toBytes 8 (encP64 (sums.getD e (vZero, false)).1)
    let s := if hasSlot c 6 then slotUnits c.uid b (cSlot c 6) 0 aux anyBad s else s
    let sat := (List.range n).any (fun i => (tget tile0 held i).sat != 0 || (hasSlot c 6 && (tget tile0 parts i).sat != 0)) || (hasSlot c 6 && sums.any (·.2))
    let s := odBump 0x4300 0x30 kept.2 (markSat c.uid sat s)
    itemDone c.uid (List.range n) (modCmd c.uid (fun c => { c with countA := kept.2, held := [], partials := [] }) s)

end Sys2Proof.Machine
end

