-- ==== Sys2Proof/Machine/Pipe.lean ====
section
/-! DEFINITION. What a block's pipeline has before it (R14 to R16, R62, R84, R94, R100, R136, R140, R151, R152, R165): the
item at the head of the feed queue, its products in order, prologue parts, reservations and readiness. -/

namespace Sys2Proof.Machine

/-! ### The products of an item -/

/-- Commands that read a paged table (R217, R226). -/
def needsWalk (d : Descriptor) : Bool :=
  dOp d = 0x12 || dOp d = 0x18 || ((dOp d = 0x10 || dOp d = 0x11) && aKvSrc d != 0)

/-- The pairs of an item in feed order; none of a plain matrix product. -/
def itemPairs (s : State) (b : Nat) (c : Cmd) (item : Nat) : List Nat :=
  match dOp c.desc with
  | 0x01 | 0x02 => if gChain c.desc then List.range (chainTiles c.desc) else []
  | 0x10 | 0x12 => fwdPairs s b c item
  | 0x11 => bPairs s b c (bItem c.desc item)
  | 0x30 => scanPairs c.desc item
  | 0x18 => routePairs c item
  | _ => []

/-- First products of a pair. -/
def firstsPer (c : Cmd) (item : Nat) : Nat :=
  match dOp c.desc with
  | 0x01 | 0x02 => chainFirst c.desc
  | 0x11 => bwdFirsts (bItem c.desc item)
  | _ => 1

/-- First product `i` of a pair. -/
def firstProd (s : State) (b : Nat) (c : Cmd) (j : Job) (pair i : Nat) : Option Prod :=
  match dOp c.desc with
  | 0x01 | 0x02 => if gChain c.desc then chainFirstProd s b c j pair i else none
  | 0x10 | 0x12 => some (scoreProd s b c j pair)
  | 0x11 => bwdFirst s b c j pair i
  | 0x30 => some (scanFirst s b c j pair)
  | 0x18 => some (routeProd s b c j pair)
  | _ => none

/-- Treated pairs whose second products run together, and how many those are; 0 when they are simply counted. -/
def runPairs (c : Cmd) (j : Job) : Nat := if dOp c.desc = 0x10 ∨ dOp c.desc = 0x12 then headRun c j else 1

def secondsPer (c : Cmd) (j : Job) : Nat :=
  match dOp c.desc with
  | 0x01 | 0x02 => if gChain c.desc then chainOuts c.desc else 0
  | 0x10 | 0x12 => fwdSeconds c j
  | 0x11 => bOuts c.desc (bItem c.desc j.item)
  | 0x30 => scanSeconds c.desc
  | _ => 0

/-- The second product that the job stands before; of a plain matrix product, its next product. -/
def secondProd (s : State) (b : Nat) (c : Cmd) (j : Job) : Option Prod :=
  match dOp c.desc with
  | 0x01 | 0x02 =>
    if gChain c.desc then j.pq.head?.bind fun x => chainSecond s b c j x.tile j.seconds else gProduct s b c j j.seconds
  | 0x10 | 0x12 => fwdSecond s b c j
  | 0x11 => bwdSecond s b c j j.seconds
  | 0x30 => scanSecond s b c j
  | _ => none

/-- The first product that the job stands before. -/
def firstNext (s : State) (b : Nat) (c : Cmd) (j : Job) : Option Prod :=
  j.todo.head?.bind fun p => firstProd s b c j p j.firsts

/-- All products of the job have run. -/
def allRun (s : State) (b : Nat) (c : Cmd) (j : Job) : Bool :=
  pairsDone j && (secondProd s b c j).isNone

/-! ### Prologues (R135 to R137, R184) -/

/-- Does the item run a prologue on the BVU? -/
def hasPrologue (d : Descriptor) : Bool :=
  match dOp d with
  | 0x01 | 0x02 => proOf d 432 != [] || proOf d 444 != []
  | 0x10 | 0x11 | 0x12 => proOf d 304 != []
  | 0x18 => true
  | _ => false

/-- The parts of an item's prologue, in the order in which its products read them: the query tiles of a key-outer sweep
one by one, else one part (R136). -/
def proParts (s : State) (b : Nat) (c : Cmd) (item : Nat) : List Nat :=
  if !hasPrologue c.desc then []
  else if dOp c.desc ≠ 0x11 then [0]
  else
    let x := bItem c.desc item
    if x.kind = 0 then [] else if x.kind = 4 then [0] else ((bPairs s b c x).map fun p => pairTile p + 1).eraseDups

/-- A part's result stands. -/
def proDone (s : State) (b uid item part : Nat) : Bool :=
  (blockAt s b).pro.any fun p => p.uid == uid && p.item == item && p.part == part

/-- The part that a product of a pair reads has been formed. -/
def proReady (s : State) (b : Nat) (c : Cmd) (j : Job) (pair : Nat) : Bool :=
  !hasPrologue c.desc || proDone s b j.uid j.item (if dOp c.desc = 0x11 then (bProPart (bItem c.desc j.item) pair).1 else 0)

/-! ### What comes next (R94, R140, R151, R152) -/

/-- The arrival entries of a product are all present (R152). -/
def entriesHere (s : State) (b : Nat) (es : List Nat) : Bool :=
  es.all fun e => (blockAt s b).arrivals.any fun a => a.1 == e && a.2.present

/-- A lane's state groups are parked: its next chunk may read them (R241, R244). -/
def laneParked (s : State) (b : Nat) (c : Cmd) (j : Job) (r : Nat) : Bool :=
  !(blockAt s b).banks.any fun k => k.st != 0 && k.uid == j.uid && k.item == j.item
    && decide (2 ^ 32 + r * sTau c.desc ≤ k.group ∧ k.group < 2 ^ 32 + (r + 1) * sTau c.desc)

/-- The second product may start: its operands are formed. -/
def secondStarts (s : State) (b : Nat) (c : Cmd) (j : Job) (p : Prod) : Bool :=
  entriesHere s b p.entries
  && (match j.pq with
      | x :: _ => proReady s b c j x.tile && (dOp c.desc != 0x30 || p.target.isSome || laneParked s b c j (pairRow x.tile))
      | [] => proReady s b c j 0)

/-- The first product in front may start. At most four treated or waiting key tiles of an attention item have their P
buffers (log entry 36). -/
def firstStarts (s : State) (b : Nat) (c : Cmd) (j : Job) (p : Prod) : Bool :=
  let attn : Bool := dOp c.desc = 0x10 || dOp c.desc = 0x11 || dOp c.desc = 0x12
  entriesHere s b p.entries && proReady s b c j (j.todo.headD 0)
  && (!attn || j.pq.isEmpty || decide (j.flight.length + j.pq.length < 4))

/-- The product in progress, or the next to start: a second product before a first one; tells which. -/
def nextProd (s : State) (b : Nat) (c : Cmd) (j : Job) : Option (Bool × Prod) :=
  if j.fetched then (if j.second then secondProd s b c j else firstNext s b c j).map fun p => (j.second, p)
  else
    match (secondProd s b c j).filter (secondStarts s b c j) with
    | some p => some (true, p)
    | none => ((firstNext s b c j).filter (firstStarts s b c j)).map fun p => (false, p)

/-! ### Banks (R16, R63, R100, R165) -/

/-- The group in a bank is the product's. -/
def bankIs (j : Job) (p : Prod) (k : Bank) : Bool := k.st != 0 && k.uid == j.uid && k.item == j.item && k.group == p.group

/-- The bank that holds or will hold the product's group: the one where it is open, else a free bank. A group that is
draining is waited for, and a parked one is loaded through the drain port while no group drains (R100). -/
def bankFor (x : Block) (j : Job) (p : Prod) : Option Nat :=
  match (List.range 4).find? fun i => bankIs j p (x.banks.getD i bank0) with
  | some i => if (x.banks.getD i bank0).st = 1 then some i else none
  | none =>
    if p.target.any (fun q => j.parked.contains q) && x.banks.any (fun k => k.st = 3) then none
    else
      match p.bank with
      | some i => if (x.banks.getD i bank0).st = 0 then some i else none
      | none => (List.range 4).find? fun i => (x.banks.getD i bank0).st = 0

/-! ### Held slices (R85 to R88) -/

/-- The register that holds a slice. -/
def regOf (x : Block) (key : List Nat) : Option Nat :=
  (List.range 2).find? fun i => (x.stat.getD i stat0).key == key

/-- The slice of step `k` stands in a register. -/
def sliceHere (x : Block) (p : Prod) (k : Nat) : Bool :=
  match p.held with
  | none => true
  | some h => (regOf x (h.key (sliceAt p k))).isSome

/-- The slice that the feeder of the held operand loads next: the one that the next step reads, else the one after it. -/
def sliceDue (x : Block) (p : Prod) (k : Nat) : Option Nat :=
  match p.held with
  | none => none
  | some h =>
    let n := sliceAt p k
    if (regOf x (h.key n)).isNone then some n
    else if decide ((n + 1) * sliceSteps p < p.lo + p.steps) && (regOf x (h.key (n + 1))).isNone then some (n + 1)
    else none

/-- AC of a step's feed: two where a feeder's bus carries more than 512 bytes a step (R92). -/
def stepAc (d : Descriptor) : Nat :=
  if (dOp d = 0x01 ∨ dOp d = 0x02) ∧ ((gShape d).1 = 5 ∨ (gShape d).1 = 6 ∨ ((gShape d).1 = 3 ∧ (gShape d).2 = 0)) then 2 else 1

/-- Busy AC of a step that does not split: of a held slice, one for each row-group that streams past it, four in Kaolin
mode, counted at its first step (R84, R88); else one. -/
def stepBusy (p : Prod) (k : Nat) : Nat :=
  if p.held.isSome then (if k = 0 ∨ (p.lo + k) % sliceSteps p = 0 then ceilDiv p.rows 4 * (if p.kaolin then 4 else 1) else 0)
  else 1

/-! ### Reservations -/

/-- Everything an item waits for before any product: walk, packing, the collective's rows, the D phase (R180, R181,
R188, R362). -/
def itemReady (s : State) (c : Cmd) (item : Nat) : Bool :=
  let d := c.desc
  (!needsWalk d || c.walked)
  && (dOp d != 0x12 || c.packGo)
  && (dOp d != 0x40 || collDone s c)
  && (dOp d != 0x11 || item < bDItems d || decide ((c.done.filter fun i => decide (i < bDItems d)).length ≥ bDItems d))

/-- Items for which the array has no product. -/
def bvuOnly (s : State) (b : Nat) (c : Cmd) (item : Nat) : Bool :=
  match dOp c.desc with
  | 0x13 | 0x31 | 0x32 | 0x40 => true
  | 0x10 | 0x11 | 0x12 | 0x18 => (itemPairs s b c item).isEmpty
  | _ => false

/-- Drain-area entries that the item's parked groups need, reserved when its first group opens (R100, R166, R244): two
for a 64 by 64 partial, else one. -/
def itemReserve (d : Descriptor) (item : Nat) : Nat :=
  match dOp d with
  | 0x01 | 0x02 => if gChain d ∨ outPasses d = 1 then 0 else (itemTiles d item).length * (if gEdge d = 64 then 2 else 1)
  | 0x10 | 0x12 => (rowsOfItem d item - 1) * (2 * chGroups d) + (if chGroups d = 4 then 2 else 0)
  | 0x11 => (((bItem d item).members).length - 1) * (2 * bOuts d (bItem d item))
  | 0x30 => 2 * sTau d * lanesOf d item
  | _ => 0

/-- Entries reserved by the running job. -/
def reserved (s : State) (b : Nat) : Nat :=
  match (blockAt s b).job with
  | some j => match cmdOf s j.uid with
    | some c => itemReserve c.desc j.item
    | none => 0
  | none => 0

/-- The block's epilogue queue, and its write queue, are full (R25). -/
def epiFull (s : State) (b : Nat) : Bool := (blockAt s b).epi.length + reserved s b ≥ 32
def writeFull (s : State) (b : Nat) : Bool := !(blockAt s b).stall.isEmpty || decide (writeQueue s b ≥ 64)

/-- Nominal roundings of an output of the item, splits under R45 left out (log entry 33). -/
def itemRounds (s : State) (b : Nat) (c : Cmd) (item : Nat) : Nat :=
  let d := c.desc
  match dOp d with
  | 0x01 | 0x02 =>
    if gChain d then max (gSteps d) (ceilDiv (gHid2 d) (chainWidth d)) else outPasses d * (gTile d item).steps
  | 0x10 | 0x12 =>
    listMax ((List.range (rowsOfItem d item)).map fun r =>
      ((fedTiles s b c item r).map fun t => 64 / groupWidth (max (pClass d) (tileClass d (itemTileAt s c item t))) 1).sum)
  | 0x11 =>
    let x := bItem d item
    listMax ((List.range x.members.length).map fun r =>
      ((bFed s b c x r).map fun u =>
        64 / groupWidth (max (pClass d) (if x.kind = 4 then tileClass d (bMeet s c x r u).2 else fmtClass (aQFmt d))) 1).sum)
  | _ => 0

/-- Words of a tile-sized entry (R62). -/
def psumEntry (d : Descriptor) : Nat :=
  if dOp d = 1 ∨ dOp d = 2 then gPack d * (gEdge d * gEdge d) else 4096

/-- Words of the partial-sum area that an item reserves before it enters the feed stage: with `SPLIT_LONG` ⌊log₂ m⌋ + 1
entries (R62), and a range of a request its triples (R178). -/
def psumNeed (s : State) (b : Nat) (c : Cmd) (item : Nat) : Nat :=
  let d := c.desc
  let m := max 1 (ceilDiv (itemRounds s b c item) 65536)
  let products : Bool := dOp d = 1 || dOp d = 2 || dOp d = 0x10 || dOp d = 0x12 || (dOp d = 0x11 && (bItem d item).kind != 0)
  (if dSplitLong d && products then (m.log2 + 1) * psumEntry d else 0)
  + (if dOp d = 0x12 then (attnRows d item 0).n * (aD d + 2) else 0)

/-- Words of a region's partial-sum area in the profile in effect (Tables 01.9, 01.10). -/
def psumArea (s : State) : Nat := 131072 * storeMiB (odv s 0x2000 2) 2

/-- The item at the head of a block's feed queue. -/
def feedHead (s : State) (b : Nat) : Option (Cmd × Nat) :=
  match (blockAt s b).feed with
  | [] => none
  | (uid, item) :: _ => (cmdOf s uid).map fun c => (c, item)

/-- The region holds the reservation that its block's item needs. -/
def psumHeld (s : State) (b : Nat) (c : Cmd) (item : Nat) : Bool :=
  psumNeed s b c item = 0 || (regionAt s (b / 40)).psum.any fun e => e.1 == c.uid && e.2.1 == item

def psumGrant (b : Nat) (c : Cmd) (item : Nat) (s : State) : State :=
  let n := psumNeed s b c item
  modRegion (b / 40) (fun r => { r with psum := r.psum ++ [(c.uid, item, n)] }) s

/-! ### The job -/

/-- The block's logic may act: in service, with a running clock. -/
def blockRuns (s : State) (b : Nat) : Bool :=
  let x := blockAt s b
  live s && blockPresent s b && !x.retired && !x.inReset && !x.gated && !x.ramp && !blockFrozen s b

/-- The working area that an item of the command uses: first byte and length in the scratchpad (R173, R244). -/
def workArea (d : Descriptor) : Nat × Nat :=
  match dOp d with
  | 0x10 | 0x11 | 0x12 => (fld d 640 20, workBufSize d)
  | 0x30 => (fld d 328 20, scanWork d)
  | _ => (0, 0)

/-- The area's bytes while and after the item runs are undefined: free bytes (log entry 3). -/
def useAreas (b : Nat) (c : Cmd) (s : State) : State :=
  let w := workArea c.desc
  let n := min w.2 (0x80000 - w.1)
  if n = 0 then s else scramble b w.1 n s

/-- Groups that stay open across the products of the item. -/
def itemOuts (s : State) (b : Nat) (c : Cmd) (item : Nat) : List Acc :=
  match dOp c.desc with
  | 0x01 | 0x02 => if gChain c.desc then chainInit s b c item else gInit s b c item
  | 0x10 | 0x12 => fwdInit c.desc item
  | 0x11 => bwdInit c.desc (bItem c.desc item)
  | 0x30 => scanInit s b c item
  | _ => []

/-- Pairs of row block and key tile that R164 skips, counted in every sweep that meets them (log entry 66). -/
def skippedTiles (s : State) (b : Nat) (c : Cmd) (item : Nat) : Nat :=
  let d := c.desc
  match dOp d with
  | 0x10 | 0x12 =>
    ((List.range (rowsOfItem d item)).map fun r => (keyTiles s c item).length - (fedTiles s b c item r).length).sum
  | 0x11 =>
    let x := bItem d item
    if x.kind = 0 then 0 else ((List.range x.members.length).map fun r => bTiles s c x - (bFed s b c x r).length).sum
  | _ => 0

/-- The job of the item at the head of the feed queue, at its beginning, with the counts that fall due then. -/
def startJob (b : Nat) (c : Cmd) (item : Nat) (s : State) : Job × State :=
  let fwd : Bool := dOp c.desc = 0x10 || dOp c.desc = 0x12
  let n := if fwd then rowsOfItem c.desc item else 0
  let modes := (List.range n).map fun r => if dKaolin c.desc then (true, false) else startsRescale s b c item r
  let outs := itemOuts s b c item
  let j : Job :=
    { uid := c.uid, item := item, todo := itemPairs s b c item, firsts := 0, flight := [], pq := [], seconds := 0, second := false
      step := 0, wait := [], fetched := false, outs := outs, parked := [], bufs := []
      rows := List.replicate (64 * n) row0, rescale := modes.map (·.1), hurt := 0 }
  let over_ := (modes.filter (·.2)).length
  let s := if over_ = 0 then s else odBump 0x3000 3 over_ s
  let k := skippedTiles s b c item
  let s := if k = 0 then s else odBump 0x3010 4 k s
  let s := if dOp c.desc = 0x30 && (outs.any fun a => convertSat c.desc a.tile) then markSat c.uid true s else s
  (j, useAreas b c (modBlock b (fun x => { x with job := some j, feed := x.feed.drop 1 }) s))

/-- The block's job, begun from the head of the feed queue where there is none and the item can start: it holds its
reservations in the partial-sum area and the drain area (R62, R100). -/
def jobOf (b : Nat) (s : State) : Option (Cmd × Job × State) :=
  match (blockAt s b).job with
  | some j => (cmdOf s j.uid).map fun c => (c, j, s)
  | none =>
    match feedHead s b with
    | none => none
    | some (c, item) =>
      if itemReady s c item && psumHeld s b c item && !bvuOnly s b c item
          && decide ((blockAt s b).epi.length + itemReserve c.desc item ≤ 32) then
        let r := startJob b c item s
        some (c, r.1, r.2)
      else none

def setJob (b : Nat) (j : Option Job) (s : State) : State := modBlock b (fun x => { x with job := j }) s

/-- A finished item leaves the block: its job and its prologue results. -/
def dropJob (b : Nat) (j : Job) (s : State) : State :=
  modBlock b (fun x => { x with job := none, pro := x.pro.filter fun p => !(p.uid == j.uid && p.item == j.item) }) s

/-! ### The drain port (R89, R91, R94) -/

/-- The earliest-closed group that waits for the drain port. -/
def drainNext (x : Block) : Option Nat :=
  ((List.range 4).filter fun i => (x.banks.getD i bank0).st = 2).foldl (fun m i =>
    match m with
    | none => some i
    | some k => if (x.banks.getD i bank0).order < (x.banks.getD k bank0).order then some i else some k) none

/-- The BVU takes the tile straight from the drain (R91). -/
def bypassOpen (x : Block) : Bool := x.epi.isEmpty && x.bvu.isNone

/-- A closed group can take the bypass or obtain an epilogue-queue entry; one that is parked has its entries reserved, and
a segment goes on to the region store (R61, R91, R94, R100). -/
def drainRoom (s : State) (b : Nat) (k : Bank) : Bool := k.way != 0 || bypassOpen (blockAt s b) || !epiFull s b

/-- The drain holds a tile that can go nowhere: the array freezes (R94). -/
def drainStuck (s : State) (b : Nat) : Bool :=
  let x := blockAt s b
  !(x.banks.any fun k => k.st = 3) && (drainNext x).any fun i => !drainRoom s b (x.banks.getD i bank0)

/-- The array is frozen because the next step's operands are not complete: the drain and the stationary loads stop with it.
A wait for a bank does not stop the drain that frees it (R94, log entry 67). -/
def feedFrozen (x : Block) : Bool := x.job.any fun j => !j.wait.isEmpty

/-- Can the step that the job stands before be issued (R94)? -/
def stepReady (s : State) (b : Nat) (j : Job) (p : Prod) : Bool :=
  let x := blockAt s b
  j.wait.isEmpty && sliceHere x p j.step && (bankFor x j p).isSome && !drainStuck s b

end Sys2Proof.Machine
end

