-- ==== Sys2Proof/Machine/Clock.lean ====
section
/-! DEFINITION. Time and idle accounting: the idle causes of R26 and what one nominal apex FC slot does on an
empty command queue (log entry 14). -/

namespace Sys2Proof.Machine

/-- An accepted command waits on an acquire that is not met (R308, R310). -/
def acquireWaits (s : State) : Bool :=
  s.front.cmds.any fun c => dOp c.desc = 0x61 && c.dispatched && !c.met && !c.decided

/-- An accepted command waits on a tag, a fence or a profile switch (R26, R276, R277): a fence holds the command that
carries it and the later commands of its stream. -/
def commandWaits (s : State) : Bool :=
  s.front.switching.isSome || s.front.cmds.any fun c =>
    let before := s.front.cmds.filter fun x => x.uid < c.uid && !x.decided && dStream x.desc == dStream c.desc
    !c.dispatched && !c.decided
      && (!c.waits.isEmpty || (dFence c.desc && !before.isEmpty) || before.any fun x => dFence x.desc)

/-- A throttle step holds the block gated, and not its start-up test (R26, R407, R482). -/
def throttled (s : State) (b : Nat) : Bool := (blockAt s b).gated && (s.power.trip || marked (stepInForce s) b)

/-- The oldest work item assigned to a block that is not yet fully fed: its command, and the job if it is running. -/
def unfed (s : State) (b : Nat) : Option (Nat × Option Job) :=
  let x := blockAt s b
  let head := x.feed.head?.map fun i => (i.1, (none : Option Job))
  match x.job with
  | some j => match cmdOf s j.uid with
    | some c => if allRun s b c j then head else some (j.uid, some j)
    | none => head
  | none => head

/-- Arrival entries that a job's next product lacks, or an item's operands. -/
def lacking (s : State) (b : Nat) (c : Cmd) (j : Option Job) : List Nat :=
  match j with
  | some j =>
    if j.fetched then []
    else
      let ps := [secondProd s b c j, firstNext s b c j].filterMap id
      if ps.any (fun p => entriesHere s b p.entries) then [] else (ps.flatMap fun p => p.entries).filter fun e => !entriesHere s b [e]
  | none => (entriesOf c.slots).filter fun e => !entriesHere s b [e]

/-- The idle cause of a block, by the procedure of R26. -/
def idleCause (s : State) (b : Nat) : Nat :=
  let x := blockAt s b
  if x.ramp then 12
  else if throttled s b then 11
  else if epiFull s b then (if writeFull s b then 4 else 10)
  else if drainStuck s b && writeFull s b then 4
  else
    match unfed s b with
    | none => if acquireWaits s then 6 else if commandWaits s then 2 else 1
    | some (uid, j) =>
      match cmdOf s uid with
      | none => 1
      | some c =>
        let es := lacking s b c j
        let barrier : Bool := match c.coll with
          | some k => dOp c.desc = 0x41 && k.round = 1 && !k.exchanged
          | none => false
        let parts : List (Nat × Nat) := match c.coll with
          | some k => k.got.zip k.expect
          | none => []
        if barrier then 6
        else if es.any (fun e => !thas e x.arrivals) || parts.any (fun p => p.1 = 0 && p.2 != 0) then 5
        else if !es.isEmpty || parts.any (fun p => p.1 < p.2) then 7
        else if c.stalled then 9
        else if needsWalk c.desc && !c.walked then 8
        else if feedFrozen x then 3
        else 2

/-- Pulses of `rate` in 16 that fall in slot `n`, spread evenly (R406). -/
def pulses (rate n : Nat) : Nat := (n + 1) * rate / 16 - n * rate / 16

/-- AC of a block in one slot: two, or one while stretched, less the pulses its step removes (R404, R406). -/
def blockAcs (s : State) (x : Block) : Nat :=
  let k := if s.power.trip then 8 else min 8 (stepInForce s)
  pulses (if x.stretching then 16 - k else 2 * (16 - k)) s.clocks.slot

/-- One slot of idle time for one block. -/
def idleBlock (s : State) (b : Nat) : Block :=
  let x := blockAt s b
  let n := blockAcs s x
  let c := idleCause s b
  { x with idleAc := x.idleAc.set c (x.idleAc.getD c 0 + n), idleRun := x.idleRun + n }

/-- Blocks that count AC: present and not retired (R442). -/
def countingBlocks (s : State) : List Nat := (presentBlocks s).filter fun b => !(blockAt s b).retired

/-- R419: the announced interval is over; blocks whose filler a phase 7 held, and which keep none by their idle cause, take
the falling ramp of R415. -/
def execHintIntervalEnd (s : State) : Out :=
  match s.power.hint with
  | none => .next s
  | some h =>
    let held := if h.phase = 7 then (countingBlocks s).filter fun b =>
        !(blockAt s b).gated && blockIdle (blockAt s b) && !bit (odv s 0x5010 2) (idleCause s b)
          && decide ((blockAt s b).idleRun ≤ 2 * (s.clocks.fc - (h.startFc + h.leadFc)) ∧ (blockAt s b).fall = 0)
      else []
    event (live s && decide (s.clocks.fc ≥ h.startFc + h.leadFc + h.lenFc)) s
      (held.foldl (fun t b => startFall b t) { s with power := { s.power with hint := none } })

/-- AC in which filler may run (R413). -/
def fillerAcs (s : State) : Nat :=
  ((countingBlocks s).map fun b =>
    if !(blockAt s b).gated && (bit (odv s 0x5010 2) (idleCause s b) || hintKeeps s (blockAt s b) || (blockAt s b).ramp || (blockAt s b).fall > 0
        || (blockAt s b).preRamp > 0) then blockAcs s (blockAt s b) else 0).sum

/-- R7, R26, R305, R402, R404: one nominal apex FC slot passes with no command. How many of the eligible AC carry filler
follows currents the manual does not give: a free value (log entry 3). -/
def tick (s : State) : State :=
  let c := s.clocks
  if !live s then { s with clocks := { c with slot := c.slot + 1 } }
  else
    let bs := countingBlocks s
    let blocks := bs.foldl (fun t b => tput b (idleBlock s b) t) s.blocks
    let lengthened := ((bs.filter fun b => (blockAt s b).stretching).map fun b => blockAcs s (blockAt s b)).sum
    let fill := if fillerAcs s = 0 then 0 else Config.freeNat s.fresh % (fillerAcs s + 1)
    let s := odBump 0x5010 4 fill (odBump 0x5100 7 lengthened s)
    applyLocal <| drawn { s with
      blocks := blocks
      clocks := { slot := c.slot + 1, fc := c.fc + pulses (16 - apexStep s) c.slot
                  opSlot := c.opSlot + (if s.mgmt.st = 2 ∨ s.mgmt.st = 3 then 1 else 0) } }

end Sys2Proof.Machine
end

