-- ==== Sys2Proof/Machine/Array.lean ====
section
/-! DEFINITION. The block's pipeline at work (R14 to R16, R44, R61 to R64, R86 to R100, R136, R137, R152, R153): array steps,
stationary loads, drains, prologues and epilogues, reservations and missed deadlines. -/

namespace Sys2Proof.Machine

/-- R62: the reservation of the item at the head of the feed queue. -/
def execPsumReservationGrant (b : Nat) (s : State) : Out :=
  match feedHead s b with
  | none => .next s
  | some (c, item) =>
    event (live s && blockPresent s b && !(blockAt s b).retired && itemReady s c item && !psumHeld s b c item
        && decide (((regionAt s (b / 40)).psum.map (·.2.2)).sum + psumNeed s b c item ≤ psumArea s)) s
      (psumGrant b c item s)

/-! ### Detectors (Table 15.1, R426, R454) -/

/-- R435 code 03h: more than four parity reports of a cell within a second. -/
def parityReport (b code : Nat) (s : State) : State :=
  let s := report code b 0 1 0 none true s
  let l := (s.rel.parity.filter fun p => decide (refNow s ≤ p.2 + 100000000)) ++ [(256 * b, refNow s)]
  let s := { s with rel := { s.rel with parity := l } }
  if (l.filter fun p => p.1 == 256 * b).length > 4 then report 0x03 b 0 3 0 none false s else s

/-- Injected faults of a step: operand latches, stationary registers, tile CRC, residue. Answers whether the group is
poisoned. -/
def stepFaults (b : Nat) (held : Bool) (s : State) : Bool × State :=
  let fire := fun (a : Bool × State) (code : Nat) (use : Bool) (f : State → State) =>
    if use && (fires code b a.2).isSome then (true, f (disarm code b a.2)) else a
  let a := fire (false, s) 1 held fun s =>
    parityReport b 1 (modBlock b (fun x => { x with stat := x.stat.set x.active { (x.stat.getD x.active stat0) with badParity := [0] } }) s)
  let a := fire a 2 true (parityReport b 2)
  let a := fire a 8 true (report 8 b 0 1 0 none true)
  fire a 4 (odv s 0x6200 9 = 1) (report 4 b 0 3 0 none true)

/-- Pages whose keys or values a product reads, with the key head. -/
def prodPages (s : State) (c : Cmd) (j : Job) (p : Prod) : List (PageDesc × Nat) :=
  let d := c.desc
  let pair := groupPair p.group
  match dOp d with
  | 0x10 | 0x12 =>
    if p.target.isSome then [] else (tilePages (itemTileAt s c j.item (pairTile pair))).map fun q => (q, (attnRows d j.item (pairRow pair)).kh)
  | 0x11 =>
    if p.target.isSome ∨ groupSub p.group ≠ 0 then []
    else
      let m := bMeet s c (bItem d j.item) (pairRow pair) (pairTile pair)
      (tilePages m.2).map fun q => (q, m.1.kh)
  | 0x18 => (routePart c j.item pair).map fun q => (q, j.item % aKvHeads d)
  | _ => []

/-- The loam keys of pages enter the region's summaries; their area is measured in bytes (R27, R228). -/
def keepLoam (r d : Nat) (ps : List (PageDesc × Nat)) (s : State) : State :=
  let cap := 1048576 * storeMiB (odv s 0x2000 2) 5 / (d + d / 16)
  modRegion r (fun x => { x with loam := ps.foldl (fun l p =>
    if p.1.noPool || thas (p.1.frame * 64 + p.2) l then l
    else areaPut cap (p.1.frame * 64 + p.2) (ofBytes (nvBytes s r (loamAt p.1.frameAddr p.1.fmt d p.2) (d + d / 16))) l) x.loam }) s

/-- The feeder's checks as a product begins (R154, R207, R228): pages and arrived tiles, counted and reported, and the
region's page-check injection; answers whether an injected failure poisons the product. Each page that the feeder finds
bad counts, also one whose header failed at the walk (log entry 58). -/
def noteReads (b : Nat) (c : Cmd) (j : Job) (p : Prod) (s : State) : Bool × State :=
  let d := c.desc
  let r := b / 40
  let ps := prodPages s c j p
  let failed := ps.filter fun q => if dOp d = 0x18 then loamBad s b c q.1 q.2 else pageFails s r c q.1 q.2
  let inj := !ps.isEmpty && (fires 0x17 r s).isSome
  let torn := p.entries.filter fun e => (blockAt s b).arrivals.any fun a => a.1 == e && !a.2.poison && arrivalBad s b e a.2
  let s := failed.foldl (fun s q =>
    odBump 0x3300 8 1 (report 0x17 r 0 1 q.1.frameAddr (some (dTag d)) false s)) s
  let s := if inj then odBump 0x3300 8 1 (report 0x17 r 0 1 0 (some (dTag d)) true (disarm 0x17 r s)) else s
  let s := torn.foldl (fun s e =>
    report 8 b e 1 0 (some (dTag d)) false (modBlock b (fun x => { x with arrivals := x.arrivals.map fun a =>
      if a.1 = e then (e, { a.2 with poison := true }) else a }) s)) s
  let s := if dOp d = 0x18 then keepLoam r (aD d) (ps.filter fun q => !failed.contains q) s else s
  (inj, if failed.isEmpty && !inj && torn.isEmpty then s else flagCmd c.uid 3 s)

/-! ### Array steps -/

/-- The feeders ask for the lines of a product that the region does not hold (R94, R168, R297). -/
def fetchProd (b : Nat) (c : Cmd) (second : Bool) (p : Prod) (j : Job) (s : State) : Job × State :=
  let r := b / 40
  let miss := p.lines.filter fun l => (cached s r l).isNone
  let s := miss.foldl (fun s l => enqueue (lineRead l (.feed r b c.uid (p.kv.contains l)) false) s) s
  let s := if miss.isEmpty then stagedNow c.uid s else s
  let j := { j with fetched := true, second := second, wait := miss }
  (j, setJob b (some j) s)

/-- Poison marks into a group. -/
def hurtAcc (m : Nat) (a : Acc) : Acc := { a with tile := { a.tile with poison := a.tile.poison ||| m } }

/-- The item's last read of its arrival entries is made (R153). -/
def arrDone (b : Nat) (c : Cmd) (s : State) : State :=
  let d := c.desc
  if ((dOp d = 1 ∨ dOp d = 2) ∧ fld d 403 1 = 1) ∨ ((dOp d = 0x10 ∨ dOp d = 0x11) ∧ fld d 303 1 = 1) then
    let es := entriesOf c.slots
    if es = [] then s else drainHolds (modBlock b (fun x => { x with arrivals := x.arrivals.filter fun a => !es.contains a.1 }) s)
  else s

/-- The job after a product: the pair in front has had its first products, or its second ones. -/
def jobAfter (c : Cmd) (j : Job) : Job :=
  let j := { j with step := 0, wait := [], fetched := false, hurt := 0 }
  if j.second then
    let n := secondsPer c j
    if n = 0 ∨ j.seconds + 1 < n then { j with seconds := j.seconds + 1 }
    else { j with seconds := 0, pq := j.pq.drop (runPairs c j) }
  else if j.firsts + 1 < firstsPer c j.item then { j with firsts := j.firsts + 1 }
  else { j with firsts := 0, todo := j.todo.tail, flight := j.flight ++ j.todo.take 1 }

/-- The bank after the last step of a product: the group stays open, is parked or closes; after a segment it takes that
up once the segment has drained (R61, R63). -/
def bankEnd (p : Prod) (bad closes : Nat) (k : Bank) : Bank :=
  let way := if p.ends = 1 then 1 else 0
  let st := if p.ends = 0 then 1 else 2
  match k.next with
  | some (_, _, a) => { k with next := some (st, way, hurtAcc bad a) }
  | none => { k with st := st, way := way, order := if st = 2 then closes else 0, acc := hurtAcc bad k.acc }

/-- What the last step of a product does. -/
def productEnd (b i : Nat) (c : Cmd) (j : Job) (p : Prod) (s : State) : State :=
  let bad := p.poison ||| j.hurt
  let s := if bad = 0 then s else flagCmd c.uid 3 s
  let j1 := jobAfter c j
  let s := modBlock b (fun x => { x with
    banks := x.banks.set i (bankEnd p bad x.closes (x.banks.getD i bank0))
    closes := x.closes + (if p.ends = 0 then 0 else 1), job := some j1 }) s
  if !allRun s b c j1 then s
  else
    let keep : Bool := dOp c.desc = 0x10 || dOp c.desc = 0x12 || dOp c.desc = 0x18
    arrDone b c (if keep then s else dropJob b j1 s)

/-- The scale of a pending correction reaches the segments that the group has drained (R61, R121). -/
def scaleParts (b : Nat) (j : Job) (p : Prod) (f : Acc → Acc) (s : State) : State :=
  modRegion (b / 40) (fun r => { r with parts := r.parts.map fun e =>
    if e.1 = j.uid ∧ e.2.1 = j.item ∧ e.2.2.1 = p.group then
      (e.1, e.2.1, e.2.2.1, e.2.2.2.map fun t => ((f { acc0 with tile := t.1 }).tile, t.2))
    else e }) s

/-- The group as the step finds it: in its bank, in the values of R53, or parked; a correction that is due comes first. -/
def openAcc (x : Block) (i : Nat) (j : Job) (p : Prod) : Acc :=
  let k := x.banks.getD i bank0
  let a := if k.st = 1 then k.acc else match p.target with
    | some q => j.outs.getD q acc0
    | none => accOf p.init
  match p.scale with
  | some f => if j.step = 0 then f a else a
  | none => a

/-- The bank after a step. -/
def bankStep (j : Job) (p : Prod) (r : StepRes) (closes : Nat) : Bank :=
  let k : Bank := { st := 1, uid := j.uid, item := j.item, group := p.group, way := 0, bypass := false, order := 0, acc := r.acc, next := none }
  match r.seg with
  | some sg => { k with st := 2, way := 2, order := closes, acc := sg, next := some (1, 0, r.acc) }
  | none => k

/-- The register that the step reads, and whether the pass tag moves on to it (R87). -/
def stepReg (x : Block) (p : Prod) (k : Nat) : Nat × Bool :=
  match p.held with
  | none => (x.active, false)
  | some h => let i := (regOf x (h.key (sliceAt p k))).getD x.active; (i, i != x.active)

/-- One step of the array: the group sum is rounded once into each accumulator, or the step splits (R44, R45). Of a step
that takes two AC for its feed, one is idle (R92). -/
def arrayStep (b : Nat) (c : Cmd) (j : Job) (p : Prod) (s : State) : State :=
  match bankFor (blockAt s b) j p with
  | none => s
  | some i =>
    let n : Bool × State := if j.step = 0 then noteReads b c j p s else (false, s)
    let f := stepFaults b p.held.isSome n.2
    let s := f.2
    let j := if f.1 || n.1 then { j with hurt := j.hurt ||| (2 ^ 16 - 1) } else j
    let s := match p.scale with
      | some g => if j.step = 0 ∧ p.long then scaleParts b j p g s else s
      | none => s
    let x := blockAt s b
    let reg := stepReg x p j.step
    let r := prodStep p (x.stat.getD reg.1 stat0) j.step (openAcc x i j p)
    let busy := stepBusy p j.step + (if r.split then p.g - 1 else 0)
    let idle := if p.held.isSome then 0 else stepAc c.desc - 1
    let cause := idleCause s b
    let j1 : Job := { j with step := j.step + 1, parked := match p.target with | some q => j.parked.filter (· != q) | none => j.parked }
    let s := putBlock b { x with
      banks := x.banks.set i (bankStep j p r x.closes), closes := x.closes + b2n r.seg.isSome
      active := reg.1, passTag := if reg.2 then (x.passTag + 1) % 4 else x.passTag
      busyAc := x.busyAc + busy, idleAc := if idle = 0 then x.idleAc else x.idleAc.set cause (x.idleAc.getD cause 0 + idle)
      splitSteps := x.splitSteps + b2n r.split, idleRun := 0, fall := 0, preRamp := 0, mire := 0, job := some j1 } s
    let s := if r.split then odBump 0x7100 1 1 s else s
    let s := if r.split ∧ (dOp c.desc = 1 ∨ dOp c.desc = 2) then modCmd c.uid (fun c => { c with countA := c.countA + 1 }) s else s
    -- the block keeps the heads' bias rows at hand (R160)
    let s := if (dOp c.desc = 0x10 ∨ dOp c.desc = 0x11 ∨ dOp c.desc = 0x12) ∧ p.target.isNone ∧ j.step = 0 then
        (let rs := if dOp c.desc = 0x11 then (bMeet s c (bItem c.desc j.item) (pairRow (groupPair p.group)) (pairTile (groupPair p.group))).1
            else attnRows c.desc j.item (pairRow (groupPair p.group))
         (numSet ((List.range rs.n).map rs.head)).foldl (fun s h => biasLoad b c h s) s)
      else s
    if j1.step < p.steps then s else productEnd b i c j1 p s

/-- R94: an event of the array. Where the product's operands have not been asked for, the feeders ask, and the step
is issued if they are all at hand. -/
def arrayEvent (b : Nat) (s : State) : Option State :=
  match jobOf b s with
  | none => none
  | some (c, j, s) =>
    match nextProd s b c j with
    | none => none
    | some (second, p) =>
      let r : Job × State := if j.fetched then (j, s) else fetchProd b c second p j s
      if stepReady r.2 b r.1 p then some (arrayStep b c r.1 p r.2)
      else if j.fetched then none else some r.2

/-- R44: the block's array issues one step. -/
def execArrayStep (b : Nat) (s : State) : Out :=
  match arrayEvent b s with
  | none => .next s
  | some t => event (blockRuns s b) s t

/-- The held slice that is to be loaded into the idle register, and its contents (R86). -/
def loadDue (b : Nat) (s : State) : Option (List Nat × List (Val × Val)) :=
  let x := blockAt s b
  match x.job with
  | none => none
  | some j =>
    match cmdOf s j.uid with
    | none => none
    | some c =>
      if !j.fetched then none
      else
        match nextProd s b c j with
        | none => none
        | some (_, p) =>
          match p.held, sliceDue x p j.step with
          | some h, some n => some (h.key n, sliceLoad h p.len n)
          | _, _ => none

/-- R86: the next held slice has been loaded into the idle register. -/
def execStationaryLoadDone (b : Nat) (s : State) : Out :=
  match loadDue b s with
  | none => .next s
  | some l =>
    event (blockRuns s b && !feedFrozen (blockAt s b) && !drainStuck s b) s
      (modBlock b (fun x => { x with stat := x.stat.set (1 - x.active) { key := l.1, elems := l.2, badParity := [] } }) s)

/-! ### Drains (R89, R91, R100) -/

/-- R89: the drain of the earliest-closed group starts, by the bypass where it is open (R91). -/
def execTileDrain (b : Nat) (s : State) : Out :=
  let x := blockAt s b
  match drainNext x with
  | none => .next s
  | some i =>
    let k := x.banks.getD i bank0
    event (blockRuns s b && !(x.banks.any fun k => k.st = 3) && !feedFrozen x && drainRoom s b k) s
      (modBlock b (fun x => { x with banks := x.banks.set i { k with st := 3, bypass := k.way = 0 && bypassOpen x } }) s)

/-- Where a drained tile goes: the BVU or the epilogue queue, its place among the job's parked groups, or the partial-sum
area (R61, R91, R100). A parked state tile of SCAN is converted to an operand (R243). -/
def drainTo (b : Nat) (k : Bank) (s : State) : State :=
  if k.way = 1 then
    let q := k.group - 2 ^ 32
    let s := modBlock b (fun x => { x with job := x.job.map fun (j : Job) =>
      { j with outs := j.outs.set q k.acc, parked := q :: j.parked.filter (· != q) } }) s
    match cmdOf s k.uid with
    | some c => if dOp c.desc = 0x30 && convertSat c.desc k.acc.tile then markSat c.uid true s else s
    | none => s
  else if k.way = 2 then
    let np := match cmdOf s k.uid with
      | some c => if dOp c.desc = 1 ∨ dOp c.desc = 2 then (gTile c.desc k.item).np else 1
      | none => 1
    psumPut b k.uid k.item k.group np k.acc.tile s
  else
    let e : Epi := { uid := k.uid, item := k.item, group := k.group, acc := k.acc }
    modBlock b (fun x => if k.bypass then { x with bvu := some e } else { x with epi := x.epi ++ [e] }) s

/-- R89: the drain ends; the bank is free, or goes on with the segment that follows. -/
def drainEnd (b i : Nat) (s : State) : State :=
  let k := (blockAt s b).banks.getD i bank0
  let after : Bank := match k.next with
    | some (st, way, a) => { k with st := st, way := way, bypass := false, order := (blockAt s b).closes, acc := a, next := none }
    | none => bank0
  let s := drainTo b k (modBlock b (fun x => { x with banks := x.banks.set i after, closes := x.closes + b2n k.next.isSome }) s)
  if blockIdle (blockAt s b) && !bit (odv s 0x5010 2) (idleCause s b) && !hintHolds s then startFall b s else s

def execDrainEnd (b : Nat) (s : State) : Out :=
  let x := blockAt s b
  match (List.range 4).find? fun i => (x.banks.getD i bank0).st = 3 with
  | none => .next s
  | some i => event (blockRuns s b && !feedFrozen x) s (blockProgress b (drainEnd b i s))

/-! ### The BVU's turns -/

/-- Items whose prologue may run, oldest first: the running one and those in the feed queue. -/
def proItems (x : Block) : List (Nat × Nat) := (x.job.map fun (j : Job) => (j.uid, j.item)).toList ++ x.feed

/-- Arrival entries that an item's prologue reads. -/
def proEntries (c : Cmd) : List Nat :=
  match dOp c.desc with
  | 0x01 | 0x02 => entriesOf ((if proOf c.desc 432 = [] then [] else [cSlot c 0]) ++ (if proOf c.desc 444 = [] then [] else [cSlot c 1]))
  | _ => entriesOf [cSlot c 0]

/-- The prologue that the BVU runs next (R137): of the oldest item that has a part to form, a slot of `PRO_BUF`, which two
items share, and its operands. -/
def proNext (s : State) (b : Nat) : Option (Cmd × Nat × Nat) :=
  let x := blockAt s b
  let slots := (x.pro.map fun p => (p.uid, p.item)).eraseDups
  (proItems x).findSome? fun i =>
    match cmdOf s i.1 with
    | none => none
    | some c =>
      if (slots.contains i || decide (slots.length < 2)) && entriesHere s b (proEntries c) && (dOp c.desc != 0x18 || c.walked) then
        ((proParts s b c i.2).find? fun k => !proDone s b i.1 i.2 k).map fun k => (c, i.2, k)
      else none

/-- The operand tiles that the prologue of a part of an item forms (R135, R136), and the state after their reads. -/
def formedTiles (b : Nat) (c : Cmd) (item part : Nat) (s : State) : List Buf × State :=
  let d := c.desc
  match dOp d with
  | 0x01 | 0x02 => gemmPrologue b c item s
  | 0x18 => let r := routePrologue b c item s; ([r.1], r.2)
  | 0x11 =>
    let x := bItem d item
    let r := attnPrologue b c (if x.kind = 4 then x.members.map fun m => rowBlock d m.1 m.2 else [(bMeet s c x 0 (part - 1)).1]) s
    ([r.1], r.2)
  | _ =>
    let r := attnPrologue b c ((List.range (rowsOfItem d item)).map fun k => attnRows d item k) s
    ([r.1], r.2)

/-- R136: the prologue of an operand tile. -/
def prologueTile (b : Nat) (s : State) : Option State :=
  (proNext s b).map fun (c, item, part) =>
    let r := formedTiles b c item part s
    let s := if r.1.any (fun x => x.poison != 0) then flagCmd c.uid 3 r.2 else r.2
    modBlock b (fun x => { x with pro := x.pro ++ [{ uid := c.uid, item := item, part := part, bufs := r.1 }] }) s

def execPrologueTile (b : Nat) (s : State) : Out :=
  match prologueTile b s with
  | none => .next s
  | some t => event (blockRuns s b) s (blockProgress b t)

/-- Detectors on the BVU's input and datapath: injected scratchpad errors and residue mismatch (Table 15.1, R426).
Errors of the drain area strike a tile that is read from there, not one that
took the bypass (R91). Answers the tile's poison. An injected 07h without `DOUBLE` is a single-bit error. -/
def bvuFaults (b : Nat) (read : Bool) (s : State) : Bool × State :=
  let fire := fun (a : Bool × State) (code : Nat) (use : Bool) (f : Bool → Bool × (State → State)) =>
    match (if use then fires code b a.2 else none) with
    | some dbl => (a.1 || (f dbl).1, (f dbl).2 (disarm code b a.2))
    | none => a
  let a := fire (false, s) 6 read fun _ => (false, report 6 b 0 2 0 none true)
  let a := fire a 7 read fun dbl => if dbl then (true, report 7 b 0 1 0 none true) else (false, report 6 b 0 2 0 none true)
  fire a 5 (odv s 0x6200 9 = 1) fun _ => (true, report 5 b 0 3 0 none true)

/-- The BVU's work on a drained tile. -/
def tileWork (b : Nat) (c : Cmd) (x : Epi) (s : State) : State :=
  match dOp c.desc with
  | 0x01 | 0x02 => gemmEpi b c x s
  | 0x10 | 0x12 => if x.group < 2 ^ 32 then softmaxTile b c x s else fwdGroup b c x s
  | 0x11 => if x.group < 2 ^ 32 then bwdTile b c x s else bwdOut b c x s
  | 0x30 => if x.group < 2 ^ 32 then scanTile b c x s else if x.group < 2 ^ 40 then scanState b c x s else scanOut b c x s
  | 0x18 => routeTile b c x s
  | _ => s

/-- A sweep item that no pair reaches: its groups leave as they opened (R190). -/
def bwdEmpty (b : Nat) (c : Cmd) (item : Nat) (s : State) : State :=
  itemDone c.uid [item] (bwdBare b c item s)

/-- A work item that only the BVU runs. -/
def bvuWork (b : Nat) (c : Cmd) (item : Nat) (s : State) : State :=
  match dOp c.desc with
  | 0x13 => mergeItem b c item s
  | 0x31 => moeItem b c item s
  | 0x32 => topkItem b c item s
  | 0x40 => if collKind c.desc = 1 then reduceRow b c item s else mergeRow b c item s
  | 0x11 =>
    let x := bItem c.desc item
    if x.kind = 0 then bwdD b c item s
    else
      let k := skippedTiles s b c item
      freePsum b c.uid item (bwdEmpty b c item (if k = 0 then s else odBump 0x3010 4 k s))
  | 0x18 => routeWrite b c item [] false s
  | _ =>
    let r := startJob b c item s
    endPsum b c item (fwdEmpty b c r.1 r.2)

/-- The BVU works on a tile; with what it finds bad (R426). -/
def workOn (b : Nat) (read : Bool) (e : Epi) (s : State) : State :=
  match cmdOf s e.uid with
  | none => s
  | some c =>
    let f := bvuFaults b read s
    let e := if f.1 then { e with acc := hurtAcc (2 ^ 16 - 1) e.acc } else e
    tileWork b c e (if f.1 then flagCmd c.uid 3 f.2 else f.2)

/-- Does a drained tile have to wait: the P buffers of its job are taken? -/
def tileWaits (x : Block) (c : Cmd) (e : Epi) : Bool :=
  (dOp c.desc = 0x10 || dOp c.desc = 0x11 || dOp c.desc = 0x12) && decide (e.group < 2 ^ 32)
    && x.job.any fun j => j.uid == e.uid && j.item == e.item && decide (j.pq.length ≥ 4)

/-- R133, R134, R137: the tile at the head of the epilogue queue, or the one handed over on the bypass; the tiles of a
`GATE` pair leave together once both have drained. -/
def nextTiles (s : State) (b : Nat) : Option (Bool × List Epi × Block) :=
  let x := blockAt s b
  match x.bvu, x.epi with
  | some e, rest =>
    match cmdOf s e.uid with
    | some c =>
      if gatePairs c.desc then
        -- a tile that must wait for its partner goes to the drain area
        some (false, [], { x with bvu := none, epi := e :: rest })
      else if tileWaits x c e then none else some (false, [e], { x with bvu := none })
    | none => some (false, [], { x with bvu := none })
  | none, es =>
    (es.findSome? fun e =>
      match cmdOf s e.uid with
      | none => some (true, [], { x with epi := es.erase e })
      | some c =>
        if gatePairs c.desc then
          (gatePartner c.desc e (es.erase e)).map fun y => (true, [e, y], { x with epi := (es.erase e).erase y })
        else if tileWaits x c e then none
        else if es.head? == some e || (es.takeWhile (· != e)).all (fun h => (cmdOf s h.uid).any fun c => gatePairs c.desc)
        then some (true, [e], { x with epi := es.erase e }) else none)

/-- The BVU's next turn on a tile, or the next item that only the BVU runs. A prologue that can run goes first (R137). -/
def epilogueTile (b : Nat) (s : State) : Option State :=
  let x := blockAt s b
  if (proNext s b).isSome then none
  else
    match nextTiles s b with
    | some (read, es, x1) => some (es.foldl (fun s e => workOn b read e s) (putBlock b x1 s))
    | none =>
      match x.job, feedHead s b with
      | none, some (c, item) =>
        if x.epi.isEmpty && x.bvu.isNone && itemReady s c item && bvuOnly s b c item && psumHeld s b c item then
          let t := bvuWork b c item s
          let fwd : Bool := dOp c.desc = 0x10 || dOp c.desc = 0x12
          some (if fwd then t else modBlock b (fun x => { x with
            feed := x.feed.drop 1, pro := x.pro.filter (fun p => !(p.uid == c.uid && p.item == item)), idleRun := 0, preRamp := 0 }) t)
        else none
      | _, _ => none

def execEpilogueTile (b : Nat) (s : State) : Out :=
  match epilogueTile b s with
  | none => .next s
  | some t => event (blockRuns s b && !writeFull s b) s (blockProgress b t)

/-! ### Missed deadlines (R194, R195) -/

/-- Every page and key tile that the command reads is staged: nothing of it is left to walk, to place, to feed or to
fetch. -/
def allStaged (s : State) (c : Cmd) : Bool :=
  (!needsWalk c.desc || c.walked) && decide (c.itemNext ≥ c.itemTotal) && !s.front.items.any (fun i => i.1 == c.uid)
  && s.blocks.all fun e =>
    !e.2.feed.any (fun i => i.1 == c.uid)
    && !e.2.job.any fun j => j.uid == c.uid && !(j.todo.isEmpty && j.flight.isEmpty && decide (j.pq.length ≤ 1) && j.wait.isEmpty
        && (j.pq.isEmpty || (j.second && j.fetched && decide (j.seconds + 1 ≥ secondsPer c j))))

/-- R195: the deadline of a paced command passed `late` FC ago, before its pages and key tiles were staged. -/
def execDeadlineExpiry (tag late : Nat) (s : State) : Out :=
  match byTag s tag with
  | none => .next s
  | some c =>
    let attn : Bool := dOp c.desc = 0x10 || dOp c.desc = 0x11 || dOp c.desc = 0x12 || dOp c.desc = 0x18
    event (live s && attn && paced s c && acting c && !bit c.flags.toNat 4 && decide (s.clocks.fc = deadlineAt c + late) && !allStaged s c) s
      (odBump 0x3010 5 1 (flagCmd c.uid 4 (modCmd c.uid (fun c => { c with deadlineOver := satN 16 late }) s)))

end Sys2Proof.Machine
end

