-- ==== Sys2Proof/Machine/Tables.lean ====
section
/-! DEFINITION. Page tables, pools and the Peat ring as their writers see them (R208 to R222, R229 to R232, R505):
roots, entries, free stacks, retired objects, drops. -/

namespace Sys2Proof.Machine

/-! ### Fields of a root (Table 07.7) -/

def rLive (v : Nat) : Bool := bits v 0 2 = 1 && !rootFree v
def rPri (v : Nat) : Nat := bits v 2 2
def rKvh (v : Nat) : Nat := bits v 8 6
def rDim (v : Nat) : Nat := bits v 14 3
def rFmt (v : Nat) : Nat := bits v 17 3
def rOpenPool (v : Nat) : Nat := bits v 20 3
def rSealedPool (v : Nat) : Nat := bits v 23 3
def rSinks (v : Nat) : Nat := bits v 26 3
def rEpoch (v : Nat) : Nat := bits v 32 32
def rPages (v : Nat) : Nat := bits v 64 17
def rWindow (v : Nat) : Nat := bits v 81 7
def rDir (v : Nat) : Nat := bits v 96 24
def rOpenFrame (v : Nat) : Nat := bits v 128 24
def rUsed (v : Nat) : Nat := bits v 152 5
def rOpen (v : Nat) : Bool := bits v 157 1 = 1
def rNext (v : Nat) : Nat := bits v 160 21
def rUse (v : Nat) : Nat := bits v 192 32

/-- The home region of a sequence (R216). -/
def homeRegion (s : State) (seq : Nat) : Nat := (presentRegions s).getD (seq % max 1 (regionCount s)) 0

/-- The home core of a sequence works. -/
def homeRuns (s : State) (seq : Nat) : Bool := regionRuns s (homeRegion s seq)

/-- A block of the home region, whose region serves the reads of the home core. -/
def homeBlock (s : State) (seq : Nat) : Nat := 40 * homeRegion s seq

/-! ### Writes of the home core -/

/-- A write of the root with its check. -/
def writeRoot (seq layer v : Nat) (o : MemOwner) (s : State) : State :=
  hostWrite (rootAddr s seq layer) (toBytes 64 (sealRoot v)) false o false s

/-- The page-table caches of every region drop a leaf (R221). -/
def dropLeaf (l : Nat) (s : State) : State :=
  { s with regions := s.regions.map fun e => (e.1, { e.2 with leaves := tdel l e.2.leaves }) }

/-- One aligned 16-byte write of an entry of a directory or leaf (R221). -/
def writeEntry (slot i e : Nat) (o : MemOwner) (s : State) : State :=
  dropLeaf slot (hostWrite (leafAddr s slot + 16 * i) (toBytes 16 (sealEntry e)) false o false s)

/-- A leaf or directory written whole: 256 entries. -/
def writeSlot (slot : Nat) (e : Nat → Nat) (o : MemOwner) (s : State) : State :=
  dropLeaf slot (hostWrite (leafAddr s slot) ((List.range 256).flatMap fun i => toBytes 16 (sealEntry (e i))) false o false s)

/-- A leaf entry (Table 07.9). -/
def mkLeaf (st fmt frame pos0 epoch : Nat) : Nat := pack [(2, st), (3, fmt), (3, 0), (24, frame), (20, pos0), (12, 0), (32, epoch)]

/-- A directory entry (Table 07.8). -/
def mkDir (st leaf epoch : Nat) : Nat := pack [(2, st), (6, 0), (24, leaf), (32, 0), (32, epoch)]

/-- The leaf of a page of a table whose directory is `dir`. -/
def leafOf (s : State) (dir page : Nat) : Nat := bits (dirEntry s dir (page / 256)) 8 24

/-- The entry of a page. -/
def pageEntry (s : State) (dir page : Nat) : Nat := leafEntry s (leafOf s dir page) (page % 256)

/-- A failed check on the way to a page's entry (R223, R505). -/
def entryBad (s : State) (dir page epoch : Nat) : Bool :=
  dirBad s dir (page / 256) epoch || leafBad s (leafOf s dir page) (page % 256) epoch

/-! ### Frame metadata and free stacks (R209, R210) -/

def metaAddr (s : State) (f : Nat) : Nat := odv s 0x3200 1 + 16 * f
def metaOf (s : State) (f : Nat) : Nat := hostNat s (metaAddr s f) 16
def refsOf (s : State) (f : Nat) : Nat := bits (metaOf s f) 0 16
def nextFree (s : State) (f : Nat) : Nat := bits (metaOf s f) 16 24

def writeMeta (f v : Nat) (s : State) : State := hostWrite (metaAddr s f) (toBytes 16 v) false .engine false s

/-- Owner fields for a frame that one entry names (Table 07.5). -/
def ownMeta (v refs seq layer page : Nat) : Nat :=
  putBits (putBits (putBits (putBits v 0 16 refs) 40 16 seq) 56 8 layer) 64 16 page

def poolFirst (s : State) (p : Nat) : Nat := bits (odv s 0x3200 (0x30 + p)) 0 24
def poolCount (s : State) (p : Nat) : Nat := bits (odv s 0x3200 (0x30 + p)) 24 25
def poolOn (s : State) (p : Nat) : Bool := odv s 0x3200 (0x20 + p) != 0

/-- Frames numbered below this are handed out (R212). -/
def poolLimit (s : State) (p : Nat) : Nat := poolFirst s p + odv s 0x3200 (0x60 + p)

def noFrame : Nat := 0xFFFFFF
def noLeaf : Nat := 0xFFFFFFFFFFFFFFFF

/-- The free stack of a pool, top first. -/
def stackFrom (s : State) : Nat → Nat → List Nat
  | 0, _ => []
  | k + 1, f => if f = noFrame then [] else f :: stackFrom s k (nextFree s f)

def poolStack (s : State) (p : Nat) : List Nat := stackFrom s (tget 0 s.paged.free p) (tget noFrame s.paged.heads p)

/-- Frames that may be handed out, in the order in which they are. -/
def usable (s : State) (p : Nat) : List Nat := (poolStack s p).filter fun f => decide (f < poolLimit s p)

/-- Link a frame's predecessor, or the stack's head, to `n`. -/
def linkTo (p : Nat) (prev : Option Nat) (n : Nat) (s : State) : State :=
  match prev with
  | none => { s with paged := { s.paged with heads := tput p n s.paged.heads } }
  | some f => writeMeta f (putBits (metaOf s f) 16 24 n) s

/-- `POOL_DEFERRED`. -/
def deferred (s : State) (p : Nat) : Nat := (s.paged.retired.filter fun r => r.1 == 0 && poolOf s r.2.1 == some p).length
def leafDeferred (s : State) : Nat := (s.paged.retired.filter fun r => r.1 == 1).length

/-- R213: dropping from a pool starts when its free count falls below `LOW`, and goes on until free and deferred frames
together reach `HIGH`. -/
def dropNote (p : Nat) (s : State) : State :=
  let free := tget 0 s.paged.free p
  if free + deferred s p ≥ odv s 0x3210 (0x20 + p) then { s with paged := { s.paged with dropping := setDel p s.paged.dropping } }
  else if free < odv s 0x3210 (0x10 + p) then { s with paged := { s.paged with dropping := setIns p s.paged.dropping } }
  else s

/-- The pool of a frame takes note. -/
def dropNoteOf (f : Nat) (s : State) : State :=
  match poolOf s f with
  | some p => dropNote p s
  | none => s

/-- Take one frame out of its pool's stack. -/
def takeFrame (p f : Nat) (s : State) : State :=
  let l := poolStack s p
  let i := l.findIdx fun x => x = f
  let prev := if i = 0 then none else some (l.getD (i - 1) 0)
  let s1 := linkTo p prev (nextFree s f) s
  dropNote p { s1 with paged := { s1.paged with free := tput p (tget 0 s.paged.free p - 1) s1.paged.free } }

/-- Take `n` frames of a pool, last freed first. -/
def takeFrames (p n : Nat) (s : State) : List Nat × State :=
  let fs := (usable s p).take n
  (fs, fs.foldl (fun s f => takeFrame p f s) s)

/-- A frame returns to its pool's stack with no reference. -/
def pushFrame (f : Nat) (s : State) : State :=
  match poolOf s f with
  | none => s
  | some p =>
    let s := writeMeta f (putBits (putBits (metaOf s f) 0 16 0) 16 24 (tget noFrame s.paged.heads p)) s
    dropNote p { s with paged := { s.paged with heads := tput p f s.paged.heads, free := tput p (tget 0 s.paged.free p + 1) s.paged.free } }

/-- Take a leaf slot; none are left when the stack is empty. -/
def takeLeaf (s : State) : Nat × State :=
  let n := s.paged.leafHead
  (n, { s with paged := { s.paged with leafHead := hostNat s (leafAddr s n) 8, leafFree := s.paged.leafFree - 1 } })

def takeLeaves : Nat → State → List Nat × State
  | 0, s => ([], s)
  | k + 1, s =>
    let a := takeLeaf s
    let r := takeLeaves k a.2
    (a.1 :: r.1, r.2)

def pushLeaf (n : Nat) (s : State) : State :=
  let s := hostWrite (leafAddr s n) (toBytes 8 s.paged.leafHead) false .engine false s
  { s with paged := { s.paged with leafHead := n, leafFree := s.paged.leafFree + 1 } }

/-- Write a stack over objects in order, the first on top. -/
def chain (link : Nat → Nat → State → State) (end_ : Nat) : List Nat → State → State
  | [], s => s
  | f :: r, s => chain link end_ r (link f (r.headD end_) s)

/-- The first 8 bytes of the metadata of free frames with their links, written as 64-byte writes, which hold four frames
each (R225). -/
def metaLinks (ls : List (Nat × Nat)) (s : State) : State :=
  let at_ := fun (f : Nat) => addr52 (metaAddr s f)
  let us := (ls.map fun x => at_ x.1 / 64).eraseDups
  us.foldl (fun s u =>
    let here := ls.filter fun x => at_ x.1 / 64 == u
    let bytes := fun (x : Nat × Nat) => toBytes 8 (pack [(16, 0), (24, x.2)])
    let q : MemReq :=
      { write := true, addr := 128 * (u / 2), wbe := BitVec.ofNat 128 (here.map fun x => 255 * 2 ^ (at_ x.1 % 128)).sum
        data := BitVec.ofNat 1024 (here.map fun x => ofBytes (bytes x) * 2 ^ (8 * (at_ x.1 % 128))).sum, poison := 0, prio := false, owner := .engine }
    enqueue q { s with mem := here.foldl (fun m x => memWrite (at_ x.1) (bytes x) m) s.mem, regions := dropLine (u / 2) s.regions }) s

/-- R225: the metadata and free stack of a pool, lowest frame on top. With `keep`, frames in use stay. -/
def initPool (p : Nat) (keep : Bool) (s : State) : State :=
  if !poolOn s p then
    { s with paged := { s.paged with heads := tdel p s.paged.heads, free := tdel p s.paged.free } }
  else
    let all := (List.range (poolCount s p)).map fun i => poolFirst s p + i
    let fs := if keep then all.filter fun f => refsOf s f = 0 && !s.paged.retired.any (fun r => r.1 == 0 && r.2.1 == f) else all
    let s := metaLinks (fs.zip (fs.drop 1 ++ [noFrame])) s
    dropNote p { s with paged := { s.paged with heads := tput p (fs.headD noFrame) s.paged.heads, free := tput p fs.length s.paged.free } }

/-- The stack of leaf slots, linked through their own first 8 bytes. -/
def initLeaves (s : State) : State :=
  let n := odv s 0x3200 3
  let s := chain (fun f m s => hostWrite (leafAddr s f) (toBytes 8 m) false .engine false s) noLeaf (List.range n) s
  { s with paged := { s.paged with leafHead := if n = 0 then noLeaf else 0, leafFree := n } }

/-! ### Retired objects (R222) -/

def retireFrame (f : Nat) (s : State) : State :=
  let s := writeMeta f (putBits (metaOf s f) 0 16 0) s
  dropNoteOf f { s with paged := { s.paged with retired := s.paged.retired ++ [(0, f, s.paged.pinCtr)] } }

def retireLeaf (n : Nat) (s : State) : State :=
  { s with paged := { s.paged with retired := s.paged.retired ++ [(1, n, s.paged.pinCtr)] } }

/-- Numbers of the pins held: reading pins and source pins. -/
def pinNums (s : State) : List Nat :=
  s.front.cmds.flatMap fun c =>
    (match c.pin with | some p => [p.num] | none => []) ++ (match c.edit with | some e => e.sources.map (·.num) | none => [])

/-- Pin numbers are 32 bits and wrap: `a` is at or before `b`. -/
def pinLe (a b : Nat) : Bool := serialLe a b

def freeable (s : State) (r : Nat × Nat × Nat) : Bool := !(pinNums s).any fun n => pinLe n r.2.2

/-- A retired object returns to its free stack; the loam cache forgets a frame (R228). -/
def freeObject (r : Nat × Nat × Nat) (s : State) : State :=
  let s := { s with paged := { s.paged with retired := s.paged.retired.filter fun x => !(x.1 == r.1 && x.2.1 == r.2.1) } }
  if r.1 = 0 then
    pushFrame r.2.1 { s with regions := s.regions.map fun e => (e.1, { e.2 with loam := e.2.loam.filter fun k => k.1 / 64 != r.2.1 }) }
  else pushLeaf r.2.1 s

/-- R222. -/
def execRetiredObjectFree (s : State) : Out :=
  match s.paged.retired.find? (freeable s) with
  | none => .next s
  | some r => event (allocRuns s) s (regionProgress ((presentRegions s).headD 0) (freeObject r s))

/-- The entry that names a frame, for the owner fields of its metadata. -/
def findOwner (s : State) (f : Nat) : Option (Nat × Nat × Nat) :=
  s.paged.live.findSome? fun t =>
    let v := rootNat s (t / 256) (t % 256)
    ((List.range (rPages v)).find? fun i =>
      let e := pageEntry s (rDir v) i
      bits e 0 2 = 1 && bits e 8 24 = f).map fun i => (t / 256, t % 256, i)

/-- One more entry names the frame. -/
def raiseRefs (f seq layer page : Nat) (s : State) : State :=
  let m := metaOf s f
  let n := bits m 0 16 + 1
  writeMeta f (if n = 1 then ownMeta m 1 seq layer page else putBits m 0 16 n) s

/-- One entry fewer names it; the last one retires it (R222). -/
def lowerRefs (f : Nat) (s : State) : State :=
  let m := metaOf s f
  let n := bits m 0 16 - 1
  if n = 0 then retireFrame f s
  else
    match (if n = 1 then findOwner s f else none) with
    | some o => writeMeta f (ownMeta m 1 o.1 o.2.1 o.2.2) s
    | none => writeMeta f (putBits m 0 16 n) s

/-! ### Order of root-writer actions (R216) -/

/-- Commands that act on a table in order of acceptance. -/
def rootWriter (d : Descriptor) : Bool := dOp d = 0x20 || dOp d = 0x21 || dOp d = 0x23

def cTable (d : Descriptor) : Nat := 256 * cSeq d + cLayer d

/-- The command's action is over although its completion is not decided: every token is committed, or the edit is. -/
def actionOver (c : Cmd) : Bool :=
  (match c.append with
   | some w => dOp c.desc == 0x20 && w.ready && w.promoted.isNone && w.tokens == fld c.desc 280 17
   | none => false)
  || (match c.edit with | some e => e.started && decide (e.op ≥ fld c.desc 355 13) | none => false)

/-- No earlier root-writer command of the table remains. -/
def rootTurn (s : State) (c : Cmd) : Bool :=
  !s.front.cmds.any fun x => x.uid < c.uid && rootWriter x.desc && cTable x.desc == cTable c.desc && acting x && !actionOver x

/-- Inside an action of the table: drops and moves wait. -/
def tableBusy (s : State) (table : Nat) : Bool :=
  s.front.cmds.any fun c => rootWriter c.desc && cTable c.desc == table && acting c && !actionOver c
    && ((match c.append with | some a => a.ready | none => false) || (match c.edit with | some e => e.started | none => false))

/-- R505: the first failed check of an action counts a retry, the second ends its command; the command has seen a failed
check (R283). Run again, it asks the allocator afresh. -/
def actionTorn (uid : Nat) (s : State) : State :=
  match cmdOf s uid with
  | none => s
  | some c =>
    let s := flagCmd uid 3 s
    if c.retried then odBump 0x3300 6 1 (endCmd uid stPtTorn noDetail s)
    else odBump 0x3300 5 1 (modCmd uid (fun c => { c with retried := true, asked := 0 }) s)

/-! ### Peat ring (R230 to R232) -/

def peatSize (s : State) : Nat := 2 ^ odv s 0x3220 3
/-- Entries written to the ring so far. -/
def peatPosted (s : State) : Nat := odv s 0x3220 4
/-- No entry can be posted: the ring is full or disabled. -/
def peatFull (s : State) : Bool :=
  odv s 0x3220 2 = 0 || decide ((peatPosted s + 2 ^ 32 - odv s 0x3220 5) % 2 ^ 32 ≥ peatSize s)

/-- Write an entry at the next slot. -/
def peatPost (seq layer page pos0 fmt num : Nat) (req : Bool) (s : State) : State :=
  let n := peatPosted s
  let e := pack [(16, seq), (8, layer), (16, page), (20, pos0), (3, fmt), (1, b2n req), (32, num), (15, 0),
    (1, if n / peatSize s % 2 = 0 then 1 else 0)]
  let a := odv s 0x3220 2 + 16 * (n % peatSize s)
  let s := hostWrite a (toBytes 16 (sealEntry e)) false (.peat n) false s
  odPut 0x3220 4 ((n + 1) % 2 ^ 32) { s with paged := { s.paged with peatOut := s.paged.peatOut ++ [n] } }

/-- The request entry of a dropped page: `FMT` and `POS0` stand in its entry. -/
def postRequest (table page num : Nat) (s : State) : State :=
  let v := rootNat s (table / 256) (table % 256)
  let e := pageEntry s (rDir v) page
  peatPost (table / 256) (table % 256) page (bits e 32 20) (bits e 2 3) num true s

/-- The dropped page is page `page` of the table. -/
def Dropped.of_ (x : Dropped) (table page : Nat) : Bool := 256 * x.seq + x.layer == table && x.page == page

/-- The Peat list's entry of a page. -/
def droppedOf (s : State) (table page : Nat) : Option Dropped := s.paged.peat.find? fun x => x.of_ table page

/-- R232: the first stall on a drop posts its request, or holds it while the ring is full. -/
def requestPage (table page : Nat) (s : State) : State :=
  match droppedOf s table page with
  | some x =>
    if x.asked then s
    else
      let s := { s with paged := { s.paged with peat := s.paged.peat.map fun y => if y.of_ table page then { y with asked := true } else y } }
      if peatFull s || !s.paged.held.isEmpty then { s with paged := { s.paged with held := s.paged.held ++ [(table, page, x.num)] } }
      else postRequest table page x.num s
  | none => s

/-- R232: a held request goes first when a slot frees. -/
def execPeatRequestPost (s : State) : Out :=
  match s.paged.held with
  | [] => .next s
  | (t, p, n) :: rest =>
    event (allocRuns s && !peatFull s) s (postRequest t p n { s with paged := { s.paged with held := rest } })

/-- A page is restored or unmapped: the Peat list forgets it. -/
def peatForget (table page : Nat) (s : State) : State :=
  { s with paged := { s.paged with
    peat := s.paged.peat.filter fun x => !x.of_ table page
    held := s.paged.held.filter fun x => !(x.1 == table && x.2.1 == page) } }

/-! ### Drops (R213, R229, R230, R272) -/

/-- R229, without the pool: the page may be dropped. -/
def droppable (s : State) (v page : Nat) : Bool :=
  let e := pageEntry s (rDir v) page
  bits e 0 2 = 1 && refsOf s (bits e 8 24) = 1 && decide (page ≥ rSinks v) && decide (page + rWindow v < rPages v)

/-- A drop is held back while an entry cannot be posted. -/
def dropHeld (s : State) : Bool := peatFull s || !s.paged.held.isEmpty

/-- R230: mark the entry, retire the frame, post the entry; the Peat list keeps the page's header (R234). -/
def dropPage (table page : Nat) (o : MemOwner) (s : State) : State :=
  let v := rootNat s (table / 256) (table % 256)
  let e := pageEntry s (rDir v) page
  let n := s.paged.dropNum
  let f := bits e 8 24
  let x : Dropped :=
    { seq := table / 256, layer := table % 256, page := page, num := n, asked := false
      head := if (poolOf s f).isSome then hostNat s (frameAddr s f) 28 else 0 }
  let s := writeEntry (leafOf s (rDir v) page) (page % 256) (mkLeaf 2 (bits e 2 3) 0 (bits e 32 20) (bits e 64 32)) o s
  let s := retireFrame f s
  let s := { s with paged := { s.paged with dropNum := (n + 1) % 2 ^ 32, peat := s.paged.peat ++ [x] } }
  odBump 0x3220 6 1 (peatPost (table / 256) (table % 256) page (bits e 32 20) (bits e 2 3) n false s)

/-- First eligible page of a table for a pool; a failed check passes on to the next table (R505). -/
def victimIn (s : State) (pool table : Nat) : Option Nat :=
  let v := rootNat s (table / 256) (table % 256)
  if rootBad s (table / 256) (table % 256) || !rLive v then none
  else
    match (List.range (rPages v)).find? fun i =>
        entryBad s (rDir v) i (rEpoch v) || (droppable s v i && poolOf s (bits (pageEntry s (rDir v) i) 8 24) == some pool) with
    | some i => if entryBad s (rDir v) i (rEpoch v) then none else some i
    | none => none

/-- Order in which tables give up pages: lowest `DROP_PRI` under policy 02h, oldest `LAST_USE`, lower sequence and
layer. -/
def dropBefore (s : State) (a b : Nat) : Bool :=
  let va := rootNat s (a / 256) (a % 256)
  let vb := rootNat s (b / 256) (b % 256)
  if odv s 0x3220 1 = 2 ∧ rPri va ≠ rPri vb then rPri va < rPri vb
  else if rUse va ≠ rUse vb then serialLe (rUse va) (rUse vb)
  else a < b

/-- The table and page that the next drop of a pool takes. -/
def victim (s : State) (pool : Nat) : Option (Nat × Nat) :=
  s.paged.live.foldl (fun m t =>
    match victimIn s pool t with
    | none => m
    | some i =>
      match m with
      | some (t', _) => if dropBefore s t t' then some (t, i) else m
      | none => some (t, i)) none

/-- R213: dropping from a pool is under way. Frames that were short when `LOW` was written count as well. -/
def dropActive (s : State) (p : Nat) : Bool :=
  poolOn s p && odv s 0x3220 1 != 0 && odv s 0x3210 (0x10 + p) != 0
  && (s.paged.dropping.contains p || decide (tget 0 s.paged.free p < odv s 0x3210 (0x10 + p)))
  && decide (tget 0 s.paged.free p + deferred s p < odv s 0x3210 (0x20 + p))

/-- R216, R229, R230: one automatic drop; inside an action of the table that is chosen it waits for the action's end. -/
def execPageDropAuto (pool : Nat) (s : State) : Out :=
  match victim s pool with
  | none => .next s
  | some (t, i) =>
    event (allocRuns s && decide (pool < 8) && dropActive s pool && !tableBusy s t) s
      (regionProgress ((presentRegions s).headD 0) (if dropHeld s then odBump 0x3220 8 1 s else dropPage t i .engine s))

/-- R272: the pages of a PAGE_DROP in ascending order, until one is held back. -/
def dropRange (table : Nat) (o : MemOwner) : List Nat → Nat → State → Nat × State
  | [], n, s => (n, s)
  | i :: r, n, s =>
    let v := rootNat s (table / 256) (table % 256)
    if !droppable s v i then dropRange table o r n s
    else if dropHeld s then (n, odBump 0x3220 8 1 s)
    else dropRange table o r (n + 1) (dropPage table i o s)

/-- The effect of a PAGE_DROP; after a failed check it runs again at once and meets the same table (R223). -/
def pageDrop (c : Cmd) (s : State) : State :=
  let q := cSeq c.desc
  let l := cLayer c.desc
  let v := rootNat s q l
  let first := fld c.desc 317 16
  let is := (List.range (fld c.desc 333 17)).filterMap fun i => if first + i < rPages v then some (first + i) else none
  if rootBad s q l then actionTorn c.uid (actionTorn c.uid s)
  else if !rLive v then endCmd c.uid stDescInvalid 256 s
  else if is.any fun i => entryBad s (rDir v) i (rEpoch v) then actionTorn c.uid (actionTorn c.uid s)
  else
    let r := dropRange (cTable c.desc) (.cmd c.uid 320) is 0 s
    modCmd c.uid (fun c => { c with countA := r.1 }) r.2

/-! ### Shrinking a pool (R212) -/

/-- Frames at or above the shrink target. -/
def aboveTarget (s : State) (p : Nat) : List Nat :=
  ((List.range (poolCount s p)).map fun i => poolFirst s p + i).filter fun f => decide (f ≥ poolLimit s p)

/-- In use: named by an entry or a root, retired, or taken by an append. -/
def frameUsed (s : State) (f : Nat) : Bool :=
  refsOf s f != 0 || s.paged.retired.any (fun r => r.1 == 0 && r.2.1 == f)
  || s.front.cmds.any fun c => match c.append with
    | some a => a.sealed.contains f || a.opens.contains f || a.promoted == some f
    | none => false

/-- `POOL_SHRINK_STATE`. -/
def shrinkState (s : State) (p : Nat) : Nat :=
  if odv s 0x3200 (0x60 + p) ≥ poolCount s p then 0
  else
    let fs := (aboveTarget s p).filter (frameUsed s)
    if fs.isEmpty then 3 else if fs.any (fun f => refsOf s f > 1) then 2 else 1

/-- A commit that copies the directory and these leaves of a table reads an entry that fails its check (R505). -/
def tableTorn (s : State) (v : Nat) (leaves : List Nat) : Bool :=
  ((List.range (ceilDiv (rPages v) 256)).any fun l => dirBad s (rDir v) l (rEpoch v))
  || leaves.any fun l => (List.range (min 256 (rPages v - 256 * l))).any fun k => entryBad s (rDir v) (256 * l + k) (rEpoch v)

/-- A sealed page that can be moved: frame, table and page. -/
def movable (s : State) (p : Nat) : Option (Nat × Nat × Nat) :=
  (aboveTarget s p).findSome? fun f =>
    let m := metaOf s f
    let t := 256 * bits m 40 16 + bits m 56 8
    let i := bits m 64 16
    let v := rootNat s (t / 256) (t % 256)
    if bits m 0 16 = 1 && s.paged.live.contains t && !rootBad s (t / 256) (t % 256) && !tableBusy s t && decide (i < rPages v)
        && !tableTorn s v [i / 256] && bits (pageEntry s (rDir v) i) 0 2 = 1
        && bits (pageEntry s (rDir v) i) 8 24 = f && decide (rEpoch v < 0xFFFFFFFF) then some (f, t, i) else none

/-- R212: one copy-on-write commit on the owner's table. -/
def movePage (f g t i : Nat) (s : State) : State :=
  let q := t / 256
  let l := t % 256
  let v := rootNat s q l
  let e := pageEntry s (rDir v) i
  let ep := rEpoch v + 1
  let n := pageSize (bits e 2 3) (headDim (rDim v)) (rKvh v + 1)
  let src := frameAddr s f
  let dst := frameAddr s g
  let bs := hostBytes s src n
  let us := (List.range (ceilDiv n 64)).filter fun u => hostPoison s (src + 64 * u) 64
  let s1 := hostWrite dst bs false .engine false s
  let s1 := us.foldl (fun s u => hostWrite (dst + 64 * u) ((bs.drop (64 * u)).take 64) true .engine false s) s1
  let oldLeaf := leafOf s (rDir v) i
  let oldEntries := fun k => leafEntry s oldLeaf k
  let oldDir := fun k => dirEntry s (rDir v) k
  let a := takeLeaf s1
  let d := takeLeaf a.2
  let s2 := writeSlot a.1 (fun k => if k = i % 256 then mkLeaf 1 (bits e 2 3) g (bits e 32 20) ep else oldEntries k) .engine d.2
  let s2 := writeSlot d.1 (fun k => if k = i / 256 then mkDir 1 a.1 ep else oldDir k) .engine s2
  let s2 := writeRoot q l (putBits (putBits v 32 32 ep) 96 24 d.1) .engine s2
  let s2 := raiseRefs g q l i s2
  retireLeaf (rDir v) (retireLeaf oldLeaf (retireFrame f s2))

def execPoolShrinkMove (pool : Nat) (s : State) : Out :=
  match movable s pool, usable s pool with
  | some (f, t, i), g :: _ =>
    event (allocRuns s && decide (pool < 8) && poolOn s pool && decide (s.paged.leafFree ≥ 2)) s
      (regionProgress ((presentRegions s).headD 0) (movePage f g t i (takeFrame pool g s)))
  | _, _ => .next s

end Sys2Proof.Machine
end

