-- ==== Sys2Proof/Machine/Append.lean ====
section
/-! DEFINITION. KV_APPEND and PAGE_RESTORE (R197 to R205, R221, R232 to R234, R432): frames, tokens, promotion. -/

namespace Sys2Proof.Machine

/-! ### Source tokens (R201, R233, R235) -/

def nTok (d : Descriptor) : Nat := fld d 280 17
def tokPos (d : Descriptor) : Nat := fld d 297 20
def firstPage (d : Descriptor) : Nat := fld d 317 16
def pageCount (d : Descriptor) : Nat := fld d 333 17
/-- Format code of the source: BF16 or FP32. -/
def srcFmt (d : Descriptor) : Nat := if fld d 350 1 = 0 then 1 else 0
def srcRotary (d : Descriptor) : Bool := fld d 351 4 = 2

/-- BF16 codes of a row of source elements: head `h` of token `t`. FP32 is rounded once, after `ROTARY`. -/
def srcRow (s : State) (b : Nat) (c : Cmd) (v : Bool) (dim heads t h pos : Nat) : List Nat × Bool :=
  let x := cSlot c (if v then 1 else 0)
  let f := srcFmt c.desc
  let cols := heads * dim
  if f = 1 ∧ (v ∨ !srcRotary c.desc) then
    ((List.range dim).map fun k => slNat s b x (elemOff x f cols 0 t (h * dim + k)) 2, false)
  else
    let r := (List.range dim).map fun k => elemAt s b x f cols 0 t (h * dim + k)
    let y := if v ∨ !srcRotary c.desc then (r, false) else rotRow s b (cSlot c 3) pos r
    let e := y.1.map (encode .bf16)
    (e.map (·.1), y.2 || e.any (·.2))

/-- A token: K and V rows of every head, `SAT`, poison. -/
structure Token where
  k : List (List Nat)
  v : List (List Nat)
  sat : Bool
  poison : Bool

/-- Free BF16 codes in place of a poisoned token's row (R430; log entry 3). -/
def freeRow (seed dim h : Nat) (v : Bool) : List Nat :=
  (List.range dim).map fun k =>
    let i := seed * 2 ^ 20 + 2 * (b2n v * 16384 + h * 256 + k)
    (Config.freeByte i).toNat + 256 * (Config.freeByte (i + 1)).toNat

def token (s : State) (seed b : Nat) (c : Cmd) (dim heads t pos : Nat) : Token :=
  let n := rowBytes (srcFmt c.desc) (heads * dim)
  let at_ := fun x => t * strideOf x n
  let bad := slPoison s b (cSlot c 0) (at_ (cSlot c 0)) n || slPoison s b (cSlot c 1) (at_ (cSlot c 1)) n
    || (hasSlot c 2 && slPoison s b (cSlot c 2) (strideOf (cSlot c 2) 2 * t) 2) || (srcRotary c.desc && rotPoison s b (cSlot c 3) (dim / 2) pos)
  if bad then
    { k := (List.range heads).map fun h => freeRow seed dim h false, v := (List.range heads).map fun h => freeRow seed dim h true
      sat := false, poison := true }
  else
    let ks := (List.range heads).map fun h => srcRow s b c false dim heads t h pos
    let vs := (List.range heads).map fun h => srcRow s b c true dim heads t h pos
    { k := ks.map (·.1), v := vs.map (·.1), sat := ks.any (·.2) || vs.any (·.2), poison := false }

/-- Draw `n` free values. -/
def drawnN (n : Nat) (s : State) : State := { s with fresh := s.fresh + n }

/-- Segment id of a source token: 0 without `SEG_ADDR`. -/
def tokSeg (s : State) (b : Nat) (c : Cmd) (t : Nat) : Nat := if hasSlot c 2 then slNat s b (cSlot c 2) (strideOf (cSlot c 2) 2 * t) 2 else 0

def rowB (l : List Nat) : List Byte := l.flatMap (toBytes 2)

/-! ### Sealed sections (R198, R202, R203, R432) -/

/-- A check as written: complemented when a poisoned token reached what it covers. -/
def markCrc (bad : Bool) (n : Nat) : Nat := if bad then n ^^^ 0xFFFFFFFF else n

/-- Quantised K or V of a head: element codes token by token, group scales, `SAT`. -/
def sealHalf (fmt dim : Nat) (rows : List (List Nat)) : List Nat × List Nat × Bool :=
  if fmt = 2 then (rows.flatten, [], false)
  else
    let gs := (List.range (dim / 32)).map fun g =>
      intGroup (pageFmt fmt) (rows.flatMap fun r => ((r.drop (32 * g)).take 32).map (decode .bf16))
    ((List.range 16).flatMap fun t => gs.flatMap fun g => (g.1.drop (32 * t)).take 32, gs.map fun g => g.2.1, gs.any fun g => g.2.2)

/-- Loam key and scales of a head, from its BF16 keys. -/
def loamKey (dim : Nat) (rows : List (List Nat)) : List Nat × List Nat × Bool :=
  let ms := (List.range dim).map fun ch =>
    let t := pairTree 16 (rows.map fun r => decode .bf16 (r.getD ch 0))
    let m := rne32 (valScale t.1 (-4))
    (m.1, t.2 || m.2)
  let gs := (chunks 32 (ms.map (·.1))).map (intGroup .int8)
  (gs.flatMap (·.1), gs.map fun g => g.2.1, gs.any (fun g => g.2.2) || ms.any (·.2))

/-- One head's section of a sealed page. -/
def sealSection (fmt dim : Nat) (k v : List (List Nat)) (bad : Bool) : List Byte × Bool :=
  let a := sealHalf fmt dim k
  let b := sealHalf fmt dim v
  let l := loamKey dim k
  let data := packCodes (pageBits fmt) (a.1 ++ b.1) ++ (a.2.1 ++ b.2.1).flatMap (toBytes 2)
  let loam := l.1.flatMap (toBytes 1) ++ l.2.1.flatMap (toBytes 2)
  let pad := pageZ fmt dim - 8 - data.length - loam.length
  (data ++ loam ++ List.replicate pad 0 ++ toBytes 4 (markCrc bad (crc32c data)) ++ toBytes 4 (markCrc bad (crc32c loam)),
    a.2.2 || b.2.2 || l.2.2)

/-- A header (Table 07.3) from its fields. -/
def mkHeader (fmt used layer heads dimCode : Nat) (rot seg : Bool) (seq page pos0 : Nat) (segs : List Nat) : Nat :=
  sealRoot (pack ([(8, fmt), (5, used), (3, 0), (8, layer), (6, heads - 1), (2, 0), (3, dimCode), (1, b2n rot), (1, b2n seg), (27, 0),
    (16, seq), (16, page), (20, pos0), (108, 0)] ++ segs.map fun x => (16, x)))

/-- Write a sealed page: the header, then its sections; a poisoned token marks the whole page (R430, R432). -/
def writeSealed (uid frame fmt dim header : Nat) (k v : List (List (List Nat))) (bad : Bool) (s : State) : State :=
  let secs := (List.range k.length).map fun h => sealSection fmt dim (k.getD h []) (v.getD h []) bad
  let a := frameAddr s frame
  let s := markSat uid (secs.any (·.2)) s
  let bs := toBytes 64 header ++ secs.flatMap (·.1)
  let s := hostWriteAs a bs bad (.cmd uid 320) false s
  countPoison uid (if bad then unitsOf hostUnit a bs.length else []) s

/-! ### Frame allocation (R200, R205, R233) -/

/-- The DROPPED pages of a PAGE_RESTORE's range below `PAGES`. -/
def restorePages (s : State) (v : Nat) (d : Descriptor) : List Nat :=
  ((List.range (pageCount d)).map fun i => firstPage d + i).filter fun i =>
    decide (i < rPages v) && bits (pageEntry s (rDir v) i) 0 2 = 2

/-- What a command needs: sealed frames, open frames, leaf slots. -/
def frameNeed (s : State) (v : Nat) (d : Descriptor) : Nat × Nat × Nat :=
  if dOp d = 0x23 then ((restorePages s v d).length, 0, 0)
  else
    let t := rUsed v + nTok d
    let f := t / 16
    (f, ceilDiv t 16 - (if rOpen v then 1 else 0), ((List.range f).filter fun k => (rPages v + k) % 256 = 0).length)

/-- A run-time check of R200, R233 and R236 that fails: status and `DETAIL`. -/
def appendFault (v : Nat) (d : Descriptor) : Option (Nat × Nat) :=
  if !rLive v then some (stDescInvalid, 256)
  else if dOp d = 0x23 then none
  else if rUsed v ≠ 0 ∧ tokPos d ≠ rNext v then some (stDescInvalid, 297)
  else if tokPos d + nTok d > 2 ^ 20 ∨ rNext v ≥ 2 ^ 20 ∨ rPages v + (rUsed v + nTok d) / 16 > 65536
      ∨ 16 * rPages v + rUsed v + nTok d > 2 ^ 20 then some (stLimit, 280)
  else none

/-- Some page of the pool may still be dropped, if only after an action of its table (R205, R216). -/
def canDrop (s : State) (p : Nat) : Bool :=
  poolOn s p && odv s 0x3220 1 != 0 && odv s 0x3210 (0x10 + p) != 0 && odv s 0x3220 2 != 0 && (victim s p).isSome

/-- A pool of which `n` frames are needed can give none, now or later (R205). -/
def poolSpent (s : State) (p n : Nat) : Bool := n != 0 && (usable s p).isEmpty && decide (deferred s p = 0) && !canDrop s p

/-- The command's request stands before the allocator. -/
def frameWaits (c : Cmd) : Bool := c.dispatched && acting c && (match c.append with | some a => !a.ready | none => false)

/-- A request reaches the allocator when its command's action begins; requests are served in order of arrival (R210). -/
def askFrames (c : Cmd) (s : State) : State :=
  if c.asked ≠ 0 then s
  else
    let n := s.paged.asks + 1
    modCmd c.uid (fun c => { c with asked := n }) { s with paged := { s.paged with asks := n } }

/-- No request that came before waits at the allocator (R210). -/
def allocTurn (s : State) (c : Cmd) : Bool :=
  !s.front.cmds.any fun x => x.asked != 0 && decide (x.asked < c.asked) && frameWaits x

/-- Write the rows, row checks and header of the next token into the open frame (R199, R201, R432). -/
def writeToken (uid : Nat) (s : State) : State :=
  match cmdOf s uid with
  | none => s
  | some c =>
    match c.append with
    | none => s
    | some w =>
      let d := c.desc
      let v := rootNat s (cSeq d) (cLayer d)
      let b := homeBlock s (cSeq d)
      let dim := headDim (rDim v)
      let heads := rKvh v + 1
      let first := !rOpen v
      let frame := if first then w.opens.headD 0 else rOpenFrame v
      let t := if first then 0 else rUsed v
      let a := frameAddr s frame
      let pos := tokPos d + w.tokens
      let x := token s s.fresh b c dim heads w.tokens pos
      let s := if x.poison then drawn s else s
      let old := hostNat s a 64
      let s := markSat uid x.sat s
      -- the side areas of a new open page
      let s := if first then (List.range heads).foldl (fun s h =>
          hostWrite (secAt a 1 dim h + pageData 1 dim) (List.replicate (pageZ 1 dim - pageData 1 dim) 0) false (.cmd uid 320) false s) s else s
      let s := (List.range heads).foldl (fun (s : State) h =>
        let kb := rowB (x.k.getD h [])
        let vb := rowB (x.v.getD h [])
        let sa := secAt a 1 dim h
        let s := hostWriteAs (sa + 2 * dim * t) kb x.poison (.cmd uid 320) false s
        let s := hostWriteAs (sa + pageData 1 dim / 2 + 2 * dim * t) vb x.poison (.cmd uid 320) false s
        hostWrite (sa + pageData 1 dim + 4 * t) (toBytes 4 (markCrc x.poison (crc32c (kb ++ vb)))) false (.cmd uid 320) false s) s
      let s := countPoison uid (if x.poison then (List.range heads).flatMap fun h =>
          unitsOf hostUnit (secAt a 1 dim h + 2 * dim * t) (2 * dim) ++ unitsOf hostUnit (secAt a 1 dim h + pageData 1 dim / 2 + 2 * dim * t) (2 * dim)
        else []) s
      let seg := tokSeg s b c w.tokens
      let hd := if first then
          mkHeader 1 1 (cLayer d) heads (rDim v) (srcRotary d) (hasSlot c 2) (cSeq d) (rPages v % 65536) pos [seg]
        else sealRoot (putBits (putBits old 8 5 (t + 1)) (224 + 16 * t) 16 seg)
      hostWrite a (toBytes 64 hd) false (.cmd uid 320) false s

/-- R205: everything the command needs is there. -/
def allocReady (s : State) (v : Nat) (d : Descriptor) : Bool :=
  let n := frameNeed s v d
  (if rOpenPool v = rSealedPool v then decide ((usable s (rSealedPool v)).length ≥ n.1 + n.2.1)
   else decide ((usable s (rSealedPool v)).length ≥ n.1) && decide ((usable s (rOpenPool v)).length ≥ n.2.1))
  && decide (s.paged.leafFree ≥ n.2.2)

/-- R200, R205, R233, R505: the request is answered: an end, a retry, or the frames. -/
def allocate (c : Cmd) (s : State) : Option State :=
  let d := c.desc
  let v := rootNat s (cSeq d) (cLayer d)
  if rootBad s (cSeq d) (cLayer d) then some (actionTorn c.uid s)
  else
    match appendFault v d with
    | some f => some (endCmd c.uid f.1 f.2 s)
    | none =>
      if dOp d = 0x23 && (List.range (pageCount d)).any fun i =>
          decide (firstPage d + i < rPages v) && entryBad s (rDir v) (firstPage d + i) (rEpoch v) then some (actionTorn c.uid s)
      else
        let n := frameNeed s v d
        if poolSpent s (rSealedPool v) n.1 || poolSpent s (rOpenPool v) n.2.1
            || decide (s.paged.leafFree + leafDeferred s < n.2.2) then some (endCmd c.uid stLimit noDetail s)
        else if !allocReady s v d then none
        else
          let a := takeFrames (rSealedPool v) n.1 s
          let o := takeFrames (rOpenPool v) n.2.1 a.2
          let l := takeLeaves n.2.2 o.2
          let w : AppendWork := { tokens := 0, pages := 0, sealed := a.1, opens := o.1, leaves := l.1, ready := true, promoted := none,
                                  page := firstPage d }
          let s := modCmd c.uid (fun c => { c with append := some w }) l.2
          some (if dOp d = 0x20 then writeToken c.uid s else s)

/-- The request of a waiting command is made, and granted if it is its turn and everything is there. -/
def allocEvent (c : Cmd) (s : State) : State :=
  let s := askFrames c s
  match cmdOf s c.uid with
  | none => s
  | some c => if allocTurn s c then (allocate c s).getD s else s

/-- R205: the frames and leaf slots of a waiting KV_APPEND or PAGE_RESTORE. -/
def execFrameAllocation (tag : Nat) (s : State) : Out :=
  match byTag s tag with
  | none => .next s
  | some c =>
    event (allocRuns s && homeRuns s (cSeq c.desc) && frameWaits c && rootTurn s c
        && (c.asked = 0 || (allocTurn s c && (allocate c s).isSome))) s
      (regionProgress ((presentRegions s).headD 0) (regionProgress (homeRegion s (cSeq c.desc)) (allocEvent c s)))

/-! ### Tokens (R201) -/

/-- The open frame of a table receives its owner when its first token counts (Table 07.5). -/
def ownFrame (f : Nat) (d : Descriptor) (page : Nat) (s : State) : State := raiseRefs f (cSeq d) (cLayer d) page s

/-- The token just written counts: `OPEN_USED` rises, and the next token is written. -/
def commitToken (c : Cmd) (w : AppendWork) (v : Nat) (s : State) : State :=
  let d := c.desc
  let first := !rOpen v
  let frame := if first then w.opens.headD 0 else rOpenFrame v
  let v1 := if first then putBits (putBits v 128 24 frame) 157 1 1 else v
  let v2 := putBits (putBits v1 152 5 ((if first then 0 else rUsed v) + 1)) 160 21 (tokPos d + w.tokens + 1)
  let s := if first then ownFrame frame d (rPages v % 65536) s else s
  let s := writeRoot (cSeq d) (cLayer d) v2 (.cmd c.uid 320) s
  let w := { w with tokens := w.tokens + 1, opens := if first then w.opens.drop 1 else w.opens }
  let s := modCmd c.uid (fun c => { c with append := some w, countA := c.countA + 1 }) s
  if w.tokens < nTok d then writeToken c.uid s else s

def execAppendTokenCommit (tag : Nat) (s : State) : Out :=
  match byTag s tag with
  | none => .next s
  | some c =>
    match c.append with
    | none => .next s
    | some w =>
      let v := rootNat s (cSeq c.desc) (cLayer c.desc)
      let used := if rOpen v then rUsed v else 0
      event (homeRuns s (cSeq c.desc) && decide (dOp c.desc = 0x20) && acting c && w.ready && decide (w.tokens < nTok c.desc) && decide (c.writesOut = 0)
          && w.promoted.isNone && decide (used < 15)) s
        (regionProgress (homeRegion s (cSeq c.desc)) (if rootBad s (cSeq c.desc) (cLayer c.desc) then actionTorn c.uid s else commitToken c w v s))

/-! ### Promotion (R202 to R204) and restore (R233) -/

/-- BF16 codes of the open page: rows of head h, and whether a token fails its row check. -/
def openRows (s : State) (a dim h : Nat) (v : Bool) : List (List Nat) :=
  (List.range 16).map fun t => (List.range dim).map fun ch => hostNat s (pageElemAt a 1 dim h v t ch) 2

def openPoison (s : State) (a dim heads : Nat) : Bool :=
  (List.range heads).any fun h => (List.range 16).any fun t =>
    let sa := secAt a 1 dim h
    let row := hostBytes s (sa + 2 * dim * t) (2 * dim) ++ hostBytes s (sa + pageData 1 dim / 2 + 2 * dim * t) (2 * dim)
    hostNat s (sa + pageData 1 dim + 4 * t) 4 != crc32c row || hostPoison s (sa + 2 * dim * t) (2 * dim)
    || hostPoison s (sa + pageData 1 dim / 2 + 2 * dim * t) (2 * dim)

/-- The full open page into a new sealed frame. -/
def promote (c : Cmd) (w : AppendWork) (v : Nat) (s : State) : State :=
  let dim := headDim (rDim v)
  let heads := rKvh v + 1
  let frame := if rOpen v then rOpenFrame v else w.opens.headD 0
  let a := frameAddr s frame
  let f := w.sealed.headD 0
  let bad := openPoison s a dim heads
  let ks := (List.range heads).map fun h => openRows s a dim h false
  let vs := (List.range heads).map fun h => openRows s a dim h true
  let hd := sealRoot (putBits (hostNat s a 64) 0 8 (rFmt v))
  let s := writeSealed c.uid f (rFmt v) dim hd ks vs bad s
  let s := if bad then flagCmd c.uid 3 s else s
  modCmd c.uid (fun c => { c with append := some { w with promoted := some f, sealed := w.sealed.drop 1 } }) s

/-- The next DROPPED page of a PAGE_RESTORE. -/
def nextRestore (s : State) (v : Nat) (c : Cmd) (w : AppendWork) : Option Nat :=
  (restorePages s v c.desc).find? fun i => decide (i ≥ w.page)

/-- The header of a dropped page formed again: that of the page as it was dropped, with the segment ids of the source tokens
(R234); without a header to go by, the fields of the table and the command. -/
def restoredHeader (s : State) (c : Cmd) (v i : Nat) (segs : List Nat) : Nat :=
  let d := c.desc
  let e := pageEntry s (rDir v) i
  match (droppedOf s (cTable d) i).filter fun x => x.head != 0 with
  | some x =>
    let h := bits x.head 0 224
    sealRoot ((if segs.any (· != 0) then putBits h 36 1 1 else h) + pack (segs.map fun g => (16, g)) * 2 ^ 224)
  | none => mkHeader (bits e 2 3) 16 (cLayer d) (rKvh v + 1) (rDim v) (srcRotary d) (hasSlot c 2) (cSeq d) i (bits e 32 20) segs

/-- A dropped page formed again from its source tokens. -/
def rebuild (c : Cmd) (w : AppendWork) (v i : Nat) (s : State) : State :=
  let d := c.desc
  let b := homeBlock s (cSeq d)
  let dim := headDim (rDim v)
  let heads := rKvh v + 1
  let e := pageEntry s (rDir v) i
  let pos0 := bits e 32 20
  let fmt := bits e 2 3
  let t0 := 16 * (i - firstPage d)
  let ts := (List.range 16).map fun t => token s (s.fresh + t) b c dim heads (t0 + t) (pos0 + t)
  let segs := (List.range 16).map fun t => tokSeg s b c (t0 + t)
  let bad := ts.any (·.poison)
  let f := w.sealed.headD 0
  let hd := restoredHeader s c v i segs
  let rows := fun (g : Token → List (List Nat)) => (List.range heads).map fun h => ts.map fun t => (g t).getD h []
  let s := markSat c.uid (ts.any (·.sat)) s
  let s := writeSealed c.uid f fmt dim hd (rows (·.k)) (rows (·.v)) bad (if bad then drawnN 16 s else s)
  modCmd c.uid (fun c => { c with append := some { w with promoted := some f, sealed := w.sealed.drop 1, page := i } }) s

/-- R202, R233: the page that is due is formed and written. -/
def execPagePromotion (tag : Nat) (s : State) : Out :=
  match byTag s tag with
  | none => .next s
  | some c =>
    match c.append with
    | none => .next s
    | some w =>
      let d := c.desc
      let v := rootNat s (cSeq d) (cLayer d)
      let ok : Bool := homeRuns s (cSeq c.desc) && acting c && w.ready && w.promoted.isNone && decide (c.writesOut = 0)
      if rootBad s (cSeq d) (cLayer d) then event ok s (actionTorn c.uid s)
      else if dOp d = 0x20 then
        event (ok && decide (w.tokens < nTok d) && rOpen v && decide (rUsed v = 15)) s (regionProgress (homeRegion s (cSeq c.desc)) (promote c w v s))
      else
        match nextRestore s v c w with
        | none => .next s
        | some i => event (ok && decide (dOp d = 0x23)) s (regionProgress (homeRegion s (cSeq c.desc)) (rebuild c w v i s))

/-- The leaf that takes entry `PAGES`: its slot, whether new, and the slots left. -/
def appendLeaf (s : State) (v : Nat) (w : AppendWork) : Nat × Bool × List Nat :=
  if rPages v % 256 = 0 then (w.leaves.headD 0, true, w.leaves.drop 1) else (leafOf s (rDir v) (rPages v), false, w.leaves)

/-- R204: the leaf entry, then the root; the open frame is retired. -/
def commitPage (c : Cmd) (w : AppendWork) (v f : Nat) (s : State) : State :=
  let d := c.desc
  let o : MemOwner := .cmd c.uid 320
  let i := rPages v
  let pos0 := bits (hostNat s (frameAddr s (rOpenFrame v)) 64) 96 20
  let e := mkLeaf 1 (rFmt v) f pos0 (rEpoch v)
  let l := appendLeaf s v w
  let s := if l.2.1 then
      writeEntry (rDir v) (i / 256) (mkDir 1 l.1 (rEpoch v)) o
        (writeSlot l.1 (fun k => if k = 0 then e else mkLeaf 0 0 0 0 (rEpoch v)) o s)
    else writeEntry l.1 (i % 256) e o s
  let s := raiseRefs f (cSeq d) (cLayer d) i s
  let v1 := putBits (putBits (putBits (putBits v 64 17 (i + 1)) 157 1 0) 152 5 0) 128 24 0
  let s := writeRoot (cSeq d) (cLayer d) (putBits v1 160 21 (tokPos d + w.tokens + 1)) o s
  let s := retireFrame (rOpenFrame v) s
  let w := { w with tokens := w.tokens + 1, pages := w.pages + 1, promoted := none, leaves := l.2.2 }
  let s := modCmd c.uid (fun c => { c with append := some w, countA := c.countA + 1, countB := c.countB + 1 }) s
  if w.tokens < nTok d then writeToken c.uid s else s

/-- R233: the restored entry is VALID again. -/
def commitRestore (c : Cmd) (w : AppendWork) (v f : Nat) (s : State) : State :=
  let d := c.desc
  let i := w.page
  let e := pageEntry s (rDir v) i
  let s := writeEntry (leafOf s (rDir v) i) (i % 256) (mkLeaf 1 (bits e 2 3) f (bits e 32 20) (bits e 64 32)) (.cmd c.uid 320) s
  let s := raiseRefs f (cSeq d) (cLayer d) i s
  let s := peatForget (cTable d) i s
  let w := { w with pages := w.pages + 1, promoted := none, page := i + 1 }
  odBump 0x3220 7 1 (modCmd c.uid (fun c => { c with append := some w, countA := c.countA + 1 }) s)

/-- A check that the commit of the page makes of the table fails (R505). -/
def commitBad (s : State) (v : Nat) (c : Cmd) (w : AppendWork) : Bool :=
  rootBad s (cSeq c.desc) (cLayer c.desc)
  || (if dOp c.desc = 0x20 then rPages v % 256 != 0 && dirBad s (rDir v) (rPages v / 256) (rEpoch v)
      else entryBad s (rDir v) w.page (rEpoch v))

def execPromotionCommit (tag : Nat) (s : State) : Out :=
  match byTag s tag with
  | none => .next s
  | some c =>
    match c.append with
    | none => .next s
    | some w =>
      match w.promoted with
      | none => .next s
      | some f =>
        let v := rootNat s (cSeq c.desc) (cLayer c.desc)
        event (homeRuns s (cSeq c.desc) && acting c && w.ready && decide (c.writesOut = 0)) s
          (regionProgress (homeRegion s (cSeq c.desc)) (if commitBad s v c w then actionTorn c.uid s
            else if dOp c.desc = 0x20 then commitPage c w v f s
            else commitRestore c w v f s))

/-- Everything is appended or restored. -/
def appendDone (s : State) (c : Cmd) : Bool :=
  match c.append with
  | none => false
  | some w =>
    w.ready && w.promoted.isNone
    && (if dOp c.desc = 0x20 then decide (w.tokens = nTok c.desc)
        else (nextRestore s (rootNat s (cSeq c.desc) (cLayer c.desc)) c w).isNone)

/-- Frames and leaf slots that an ended command took and did not use return (R285). -/
def returnFrames (c : Cmd) (s : State) : State :=
  match c.append with
  | none => s
  | some w =>
    let fs := w.sealed ++ w.opens ++ (match w.promoted with | some f => [f] | none => [])
    w.leaves.foldl (fun s n => pushLeaf n s) (fs.foldl (fun s f => pushFrame f s) s)

end Sys2Proof.Machine
end

