-- ==== Sys2Proof/Machine/Links.lean ====
section
/-! DEFINITION. Link ports (chapter 11): what a received flit does, what a flit slot sends, training, loss. -/

namespace Sys2Proof.Machine

/-! ### Keys (R349, R350) -/

/-- The slot that `TX_KEY_SLOT` names. -/
def txSlotNo (s : State) (p : Nat) : Nat := odv s 0x8200 (0x30 + p)

def keyOk (s : State) (p : Nat) : Bool := thas (txSlotNo s p) (linkAt s p).slots

def keySlot0 : KeySlot := { tx := { key := 0, salt := 0, ctr := 0 }, rx := { key := 0, salt := 0, ctr := 0 } }

/-- The IV: salt, then the 64-bit counter, least significant byte first (R349; log entry 5). -/
def ivOf (salt : BitVec 32) (ctr : Nat) : BitVec 96 := BitVec.ofNat 96 (salt.toNat + ctr % 2 ^ 64 * 2 ^ 32)

/-- The counter within 2^15 of the last accepted one whose low bits are `IV_LO` (R350). -/
def rxCounter (last ivLo : Nat) : Nat :=
  let d := (ivLo + 65536 - last % 65536) % 65536
  if d < 32768 ∨ last + d < 65536 then last + d else last + d - 65536

/-- A received flit's plain body and the port with its counter, when its tag verifies (R350). -/
def openFlit (s : State) (p : Nat) (f : Flit) : Option (BitVec 1920 × List (Nat × KeySlot)) :=
  let l := linkAt s p
  if !encrypted s p then some (fBody f, l.slots)
  else
    let k := fld f 33 1
    if !thas k l.slots then none
    else
      let ks := tget keySlot0 l.slots k
      let ctr := rxCounter ks.rx.ctr (fld f 80 16)
      match gcmUnseal ks.rx.key (ivOf ks.rx.salt ctr) (BitVec.ofNat 96 (bits f.toNat 0 96)) (fBody f) with
      | some b => some (b.zeroExtend 1920, tput k { ks with rx := { ks.rx with ctr := ctr } } l.slots)
      | none => none

/-! ### Losing a port (R346) -/

/-- The packets that a port discards and that came from other nodes: (source, identifier). -/
def discardedPackets (s : State) (p : Nat) : List (Nat × Nat) :=
  let l := linkAt s p
  let tx := (l.retry.map (·.tx)) ++ l.txq
  let a := (tx.filter fun x => x.from_ < 6 && [1, 2, 3, 4].contains x.ftype).map fun x => (x.src, x.pkt)
  let b := s.links.flatMap fun e => (e.2.packets.filter fun k => k.2.outPort = p).map fun k => (k.2.src, k.2.pktId)
  (a ++ b).foldl (fun r x => if r.contains x then r else r ++ [x]) []

/-- An unreachable entry goes to a packet's source when a route to it remains. -/
def unreachable (src pkt : Nat) (s : State) : State :=
  match routePort s (myNode s) src with
  | some q => if portDead s q then s else pushAck src pkt 3 s
  | none => s

/-- A packet for host memory is cut: its bytes already written are undefined (R347). -/
def cutPacket (x : RxPacket) (s : State) : State :=
  if x.drop ∨ x.outPort ≠ 7 then s else spoil none x.addr (min x.got x.len) s

/-- A port stops carrying traffic: its queues go, packets through it are cut, local traffic through it fails. -/
def portDrop (p st : Nat) (s : State) : State :=
  let l := linkAt s p
  let gone := discardedPackets s p
  -- credits of forwarded flits that waited for this port return to their input ports
  let s := l.txq.foldl (fun s x => if x.from_ < 6 then
    modLink x.from_ (fun y => { y with owed := tput x.inIdx (tget 0 y.owed x.inIdx + 1) y.owed }) s else s) s
  let s := { s with links := s.links.map fun e => (e.1, { e.2 with
    packets := e.2.packets.map fun k => (k.1, if k.2.outPort = p then { k.2 with drop := true } else k.2) }) }
  -- packets cut by the loss of their input link
  let s := l.packets.foldl (fun s k =>
    if k.2.outPort < 6 ∧ !k.2.drop then
      let x : TxFlit := { ftype := 8, vc := k.1 / 2, dclass := k.2.kind, tail := true, dst := k.2.addr, src := k.2.src,
                          body := 0, from_ := p, inIdx := k.1, pkt := k.2.pktId }
      pushTx k.2.outPort [x] s
    else if k.1 = 6 ∨ k.1 = 7 then
      let x : TxFlit := { ftype := 8, vc := 3, dclass := k.1 - 6, tail := true, dst := myNode s, src := k.2.src, body := 0,
                          from_ := p, inIdx := k.1, pkt := k.2.pktId }
      modLink p (fun l => { l with hold := l.hold ++ [x] }) s
    else if k.1 < 6 then cutPacket k.2 s
    else s) s
  let s := drainHold p (modLink p (fun l => { l with
    st := st, retry := [], resend := [], txq := [], lock := [], packets := l.packets.filter (fun k => k.1 ≥ 8), hbDue := false
    retryReq := false, refetch := false }) s)
  let s := gone.foldl (fun s x => unreachable x.1 x.2 s) s
  (s.e2e.filter fun e => e.port = p).foldl (fun s e => endCmd e.uid stLinkLost noDetail s) s

/-- R346: a port is lost. -/
def portLost (p : Nat) (s : State) : State :=
  let inj := fires 0x32 p s
  let s := if inj.isSome then disarm 0x32 p s else s
  report 0x32 p 0 0 0 none inj.isSome (odBump 0x4010 (0xD0 + p) 1 (portDrop p 3 s))

/-- Begin training: TRAINING, or KEY_WAIT when the transmit key is missing (R344, R345). -/
def startTraining (p : Nat) (s : State) : State :=
  let l := linkAt s p
  let st := if encrypted s p && !keyOk s p then 5 else 1
  let landing := l.packets.filter (fun k => k.1 ≥ 8)
  putLink p { link0 with st := st, phyReady := l.phyReady, slots := l.slots, hold := l.hold, packets := landing, trainRef := refNow s } s

/-! ### Checks on a received flit (R320 to R325, R350) -/

/-- What a received flit is: discarded as failed, or good with its plain body. -/
inductive RxCheck where
  | bad
  | good (body : BitVec 1920)
  deriving DecidableEq, Repr

/-- Every codeword that carries a block of the flit could be corrected (R320). -/
def fecGood (x : Fec) : Bool := x.errs.all (· ≤ 15)

/-- The codewords that end with the flit's group of 20: symbols corrected and codewords not correctable are counted once,
and each of the latter reported (R320). -/
def codewords (p : Nat) (x : Fec) (inj : Bool) (s : State) : State :=
  let n := b2n inj + (if x.first then (x.errs.filter (· > 15)).length else 0)
  let s := odBump 0x4010 (0xA0 + p) (if x.first then (x.errs.filter (· ≤ 15)).sum else 0) s
  (List.range n).foldl (fun s i => report 0x31 p 0 0 0 none (inj && i = 0) (odBump 0x4010 (0xB0 + p) 1 s)) s

/-- Checks in order, counting and reporting each failure. A flit of a codeword that cannot be corrected is one that failed
its CRC (R320). -/
def checkFlit (p : Nat) (f : Flit) (fec : Fec) (s : State) : RxCheck × State :=
  let i1 := fires 0x31 p s
  let i0 := fires 0x30 p s
  let i3 := fires 0x33 p s
  let s := codewords p fec i1.isSome (if i1.isSome then disarm 0x31 p s else s)
  if !fecGood fec || i1.isSome || !flitGood f || i0.isSome then
    let s := if i0.isSome then disarm 0x30 p s else s
    (.bad, report 0x30 p 0 0 0 none i0.isSome (odBump 0x4010 (0x90 + p) 1 s))
  else
    match openFlit s p f with
    | some (b, slots) =>
      if i3.isSome then (.bad, report 0x33 p 0 0 0 none true (odBump 0x4010 (0xC0 + p) 1 (disarm 0x33 p s)))
      else (.good b, modLink p (fun l => { l with slots := slots }) s)
    | none => (.bad, report 0x33 p 0 0 0 none false (odBump 0x4010 (0xC0 + p) 1 s))

/-- A sequenced flit failed: everything from the expected `SEQ` is asked for again, or the port is lost. -/
def flitFailed (p : Nat) (f : Flit) (s : State) : State :=
  let l := linkAt s p
  if !l.refetch then putLink p { l with refetch := true, retryReq := true, fails := 1, reqAge := 0 } s
  else if fSeq f = l.rxSeq then
    let l := { l with fails := l.fails + 1, retryReq := true, reqAge := 0 }
    if l.fails ≥ odv s 0x4000 8 then portLost p (putLink p l s) else putLink p l s
  else putLink p { l with reqAge := l.reqAge + 1 } s

/-- Acknowledgements and credits that a good flit carries (R323, R327). -/
def takeCredits (p : Nat) (f : Flit) (s : State) : State :=
  modLink p (fun l =>
    let ack := fld f 20 12
    let retry := if fld f 32 1 = 1 then
        l.retry.filter fun x => (x.seq + 4096 - ack) % 4096 ≠ 0 && (x.seq + 4096 - ack) % 4096 < 2048
      else l.retry
    let i := fld f 72 3
    { l with retry := retry, used := tput i (tget 0 l.used i - fld f 75 5) l.used }) s

/-! ### Delivery at this node (R328, R336 to R339, R347) -/

/-- Packet bytes written into host memory on the sender's behalf. -/
def carryIn (src a : Nat) (bs : List Byte) (bad prio : Bool) (s : State) : State :=
  let s := hostWrite a bs bad (.peer src s.arrNo) prio { noteTables a bs.length s with arrNo := s.arrNo + 1 }
  collReceive src a bs.length s

/-- The end-to-end acknowledgement of a packet when its last flit has entered the buffer (R338); the packet's
record is under its receive buffer. -/
def noteReceipt (p idx : Nat) (x : TxFlit) (s : State) : State :=
  let l := linkAt s p
  if x.ftype = 1 then
    let h := headerPacket x.body x.src
    if x.tail then pushAck x.src h.pktId 0 s
    else putLink p { l with packets := tput idx h l.packets } s
  else if x.ftype = 8 then putLink p { l with packets := tdel idx l.packets } s
  else if x.tail then
    match l.packets.find? (fun e => e.1 = idx) with
    | some (_, h) => pushAck h.src h.pktId 0 (putLink p { l with packets := tdel idx l.packets } s)
    | none => s
  else s

/-- A VC0 packet flit: its bytes go to the memory ports. Key of the packet: its receive buffer. -/
def deliverHost (p idx : Nat) (x : TxFlit) (s : State) : State :=
  let w := bodyBytes s p
  if x.ftype = 1 then
    let h := headerPacket x.body x.src
    let ok : Bool := h.kind = 0 && h.len ≥ 1 && h.len ≤ 16900
    let bs := flitBytes w 32 h x.body
    let s := if ok then carryIn x.src h.addr bs h.poison false s else s
    if x.tail then (if ok then pushAck x.src h.pktId 0 s else s)
    else modLink p (fun l => { l with packets := tput idx { h with got := bs.length, drop := !ok } l.packets }) s
  else
    match (linkAt s p).packets.find? (fun e => e.1 = idx) with
    | none => s
    | some (_, h) =>
      if x.ftype = 8 then modLink p (fun l => { l with packets := tdel idx l.packets }) (cutPacket h s)
      else
        let bs := flitBytes w 0 h x.body
        let s := if h.drop then s else carryIn h.src (h.addr + h.got) bs h.poison false s
        if x.tail then
          let s := modLink p (fun l => { l with packets := tdel idx l.packets }) s
          if h.drop then s else pushAck h.src h.pktId 0 s
        else modLink p (fun l => { l with packets := tput idx { h with got := h.got + bs.length } l.packets }) s

/-- One acknowledgement entry (R338, R347). -/
def takeAck (pkt kind : Nat) (s : State) : State :=
  match s.e2e.find? (fun e => e.pktId = pkt) with
  | none => s
  | some e =>
    let s := { s with e2e := s.e2e.filter fun x => x.pktId != pkt }
    if kind = 3 then endCmd e.uid stLinkLost noDetail s
    else modCmd e.uid (fun c => { c with acksOut := c.acksOut - 1 }) s

/-- A sequenced flit for this node. -/
def deliver (p : Nat) (x : TxFlit) (s : State) : State :=
  let idx := x.inIdx
  let b := x.body
  match x.ftype with
  | 3 =>
    let n := fld b 52 7
    let s := carryIn x.src (fld b 0 52) (toBytes (min n 64) (fld b 128 512)) (fld b 59 1 = 1) true s
    freeBuffer p idx (pushAck x.src (fld b 64 16) 2 s)
  | 4 =>
    let r : RemoteRel := { port := p, num := fld b 64 16, src := x.src, slot := fld b 0 12, add := fld b 15 2 = 1,
                           val := fld b 32 32, scope := fld b 12 3, arr := s.arrNo, fc := s.clocks.fc }
    freeBuffer p idx { s with remoteRels := s.remoteRels ++ [r], arrNo := s.arrNo + 1 }
  | 5 =>
    let n := if encrypted s p then 14 else 15
    freeBuffer p idx ((List.range n).foldl (fun s i =>
      let e := fld b (128 * i) 128
      if bit e 35 then takeAck (bits e 0 16) (bits e 16 4) s else s) s)
  | _ =>
    if x.vc = 3 then
      let s := noteReceipt p idx x s
      drainHold p (modLink p (fun l => { l with hold := l.hold ++ [x] }) s)
    else freeBuffer p idx (deliverHost p idx x s)

/-! ### Forwarding (R333, R346) -/

/-- A sequenced flit for another node: to its output, or discarded with an unreachable entry. -/
def forward (p : Nat) (x : TxFlit) (s : State) : State :=
  let idx := x.inIdx
  let l := linkAt s p
  let known := (l.packets.find? fun e => e.1 = idx).map (·.2)
  let starts : Bool := x.ftype = 1
  let cont : Bool := x.ftype = 2 || x.ftype = 8
  match routePort s x.src x.dst with
  | none => freeBuffer p idx s
  | some q =>
    let cls := nextClass s q (if q / 2 = p / 2 then some x.dclass else none)
    let pkt := if starts then fld x.body 128 16 else if cont then (known.map (·.pktId)).getD 0 else fld x.body 64 16
    let cut : Bool := portDead s q || nodeCount s ≤ x.dst || (cont && (known.map (·.drop)).getD true)
    let rec_ : RxPacket := { kind := cls, src := x.src, addr := x.dst, len := 0, got := 0, poison := false, pktId := pkt,
                             outPort := q, drop := cut }
    let s := if starts && !x.tail then modLink p (fun l => { l with packets := tput idx rec_ l.packets }) s
      else if cont && x.tail then modLink p (fun l => { l with packets := tdel idx l.packets }) s
      else s
    if cut then
      freeBuffer p idx (if starts || x.ftype = 3 || x.ftype = 4 then unreachable x.src pkt s else s)
    else pushTx q [{ x with dclass := cls, from_ := p, pkt := pkt }] s

/-! ### The flit rows -/

/-- The port may receive the flit: UP, and the flit, if it is good, is of the row's type. -/
def rxOk (s : State) (p : Nat) (f : Flit) (t : Nat) : Bool :=
  live s && p < 6 && (linkAt s p).st = 2 && (fType f = t || !flitGood f)

/-- A sequenced flit (R323, R324). -/
def sequenced (p : Nat) (f : Flit) (fec : Fec) (s : State) : State :=
  match checkFlit p f fec s with
  | (.bad, s) => flitFailed p f s
  | (.good b, s) =>
    let l := linkAt s p
    if fSeq f ≠ l.rxSeq then flitFailed p f s
    else
      let s := takeCredits p f (putLink p { l with rxSeq := (l.rxSeq + 1) % 4096, rxAny := true, refetch := false, fails := 0 } s)
      let x : TxFlit := { ftype := fType f, vc := fVc f, dclass := fClass f, tail := fTail f, dst := fDst f, src := fSrc f,
                          body := b, from_ := p, inIdx := 2 * fVc f + fClass f, pkt := 0 }
      if fDst f = myNode s then deliver p x s else forward p x s

/-- A link-local flit: one that fails its check is lost. -/
def linkLocal (p : Nat) (f : Flit) (fec : Fec) (act : BitVec 1920 → State → State) (s : State) : State :=
  match checkFlit p f fec s with
  | (.bad, s) => modLink p (fun l => { l with reqAge := if l.refetch then l.reqAge + 1 else l.reqAge }) s
  | (.good b, s) =>
    act b (takeCredits p f (modLink p (fun l => { l with reqAge := if l.refetch then l.reqAge + 1 else l.reqAge }) s))

def execNullFlit (p : Nat) (f : Flit) (fec : Fec) (s : State) : Out :=
  event (rxOk s p f 0) s (linkLocal p f fec (fun _ s => s) s)
def execHeadFlit (p : Nat) (f : Flit) (fec : Fec) (s : State) : Out := event (rxOk s p f 1) s (sequenced p f fec s)
def execDataFlit (p : Nat) (f : Flit) (fec : Fec) (s : State) : Out := event (rxOk s p f 2) s (sequenced p f fec s)
def execSmallFlit (p : Nat) (f : Flit) (fec : Fec) (s : State) : Out := event (rxOk s p f 3) s (sequenced p f fec s)
def execFlagFlit (p : Nat) (f : Flit) (fec : Fec) (s : State) : Out := event (rxOk s p f 4) s (sequenced p f fec s)
def execAckFlit (p : Nat) (f : Flit) (fec : Fec) (s : State) : Out := event (rxOk s p f 5) s (sequenced p f fec s)
def execAbortFlit (p : Nat) (f : Flit) (fec : Fec) (s : State) : Out := event (rxOk s p f 8) s (sequenced p f fec s)

/-- R341: a good heartbeat's fields, and the sequence marker. -/
def heartbeat (p : Nat) (b : BitVec 1920) (s : State) : State :=
  let s := odPut 0x4010 (0x70 + p) (fld b 32 32) (odPut 0x4010 (0x60 + p) (fld b 16 4) s)
  let s := modLink p (fun l => { l with hbRef := refNow s }) s
  trace 3 0 p (pack [(8, p), (32, fld b 32 32), (16, odv s 0x4010 (0x50 + p))]) s

def execHeartbeatFlit (p : Nat) (f : Flit) (fec : Fec) (s : State) : Out :=
  event (rxOk s p f 6) s (linkLocal p f fec (heartbeat p) s)

/-- Does a training flit come from the neighbour that this port expects, with equal settings (R344)? -/
def trainingAgrees (s : State) (p : Nat) (t : TrainingFlit) : Bool :=
  t.node = neighbour s p && t.port = p ^^^ 1 && t.dimX = dimX s && t.dimY = dimY s && t.dimZ = dimZ s
  && t.encrypt = encrypted s p

/-- R344: a training flit. On entering UP one more training flit is owed, so that the peer sees the acknowledgement. -/
def training (p : Nat) (t : TrainingFlit) (s : State) : State :=
  let l := linkAt s p
  let s := odPut 0x4010 (0x50 + p) t.node s
  if !trainingAgrees s p t then putLink p { l with st := 4 } s
  else
    let l := { l with good := l.good + 1, acked := l.acked || t.acked }
    if l.good ≥ 16 ∧ l.acked then
      putLink p { link0 with st := 2, phyReady := l.phyReady, slots := l.slots, hold := l.hold, packets := l.packets, acked := true
                             , hbRef := refNow s, hbFc := s.clocks.fc } s
    else putLink p l s

def execCtrlTraining (p : Nat) (t : TrainingFlit) (s : State) : Out :=
  event (live s && p < 6 && (linkAt s p).st = 1) s (training p t s)

/-- R324, R325: resend from the named `SEQ`; everything before it has been received. -/
def retryRequest (p seq : Nat) (s : State) : State :=
  let l := linkAt s p
  let run := if seq = l.askedSeq then l.askedRun + 1 else 1
  let keep := l.retry.filter fun x => (x.seq + 4096 - seq) % 4096 < 2048
  let s := putLink p { l with askedSeq := seq, askedRun := run, retry := keep, resend := keep } s
  if run ≥ odv s 0x4000 8 then portLost p s else s

def execCtrlRetryRequest (p seq : Nat) (s : State) : Out :=
  event (live s && p < 6 && (linkAt s p).st = 2) s (retryRequest p seq s)

/-! ### Sending (R323, R327, R334, R340, R344, R345, R349) -/

/-- Depth of a receive buffer (Table 11.3). -/
def bufferDepth (vc : Nat) : Nat := if vc = 0 ∨ vc = 3 then 64 else 16

/-- Put a flit on the wire: header with acknowledgement, returned credits and counter, sealed when the port
encrypts. -/
def wireFlit (p : Nat) (x : TxFlit) (seq : Nat) (plain : Bool) (s : State) : Flit × State :=
  let l := linkAt s p
  let back := (l.owed.find? fun e => e.2 > 0).getD (0, 0)
  let n := min 31 back.2
  let slot := txSlotNo s p
  let enc : Bool := encrypted s p && !plain
  let ks := tget keySlot0 l.slots slot
  let ctr := ks.tx.ctr
  let hdr := flitHeader x seq ((l.rxSeq + 4095) % 4096) l.rxAny (if enc then slot else 0) back.1 n
    (if enc then ctr % 65536 else 0)
  let body := if enc then gcmSeal ks.tx.key (ivOf ks.tx.salt ctr) (BitVec.ofNat 96 hdr) (BitVec.ofNat 1824 x.body.toNat)
    else x.body
  let f := flitOf hdr body
  let l := { l with
    owed := if n = 0 then l.owed else tput back.1 (back.2 - n) l.owed
    slots := if enc then tput slot { ks with tx := { ks.tx with ctr := ctr + 1 } } l.slots else l.slots
    sent := some f }
  (f, putLink p l s)

/-- A link-local flit of this node. -/
def localOf (s : State) (ftype body : Nat) : TxFlit :=
  { ftype := ftype, vc := 0, dclass := 0, tail := false, dst := 0, src := myNode s, body := BitVec.ofNat 1920 body, from_ := 6,
    inIdx := 0, pkt := 0 }

/-- The sources of a virtual channel in the order in which they are tried at a packet boundary: forwarded and local
alternate, forwarding inputs by round-robin (R334). `turn` holds the last source, 6 for local. -/
def sourceOrder (last : Nat) : List Nat :=
  if last = 6 then (List.range 6) ++ [6]
  else 6 :: (List.range 6).map fun i => (last + 1 + i) % 6

/-- The acknowledgement flit that this port can send next (R338). -/
def ackFlit (s : State) (p : Nat) : Option TxFlit :=
  match s.acks.find? (fun a => routePort s (myNode s) a.dst = some p) with
  | none => none
  | some a =>
    let es := (s.acks.filter fun x => x.dst = a.dst).take (if encrypted s p then 14 else 15)
    let body := pack (es.map fun e => (128, pack [(16, e.pktId), (4, e.kind), (15, myNode s), (1, 1)]))
    some { ftype := 5, vc := 2, dclass := nextClass s p none, tail := true, dst := a.dst, src := myNode s,
           body := BitVec.ofNat 1920 body, from_ := 6, inIdx := 0, pkt := 0 }

/-- The next flit of a virtual channel that holds a credit. -/
def nextOf (s : State) (p vc : Nat) : Option TxFlit :=
  let l := linkAt s p
  let head := fun src =>
    match l.txq.find? (fun x => x.vc = vc && x.from_ = src) with
    | some x => some x
    | none => if vc = 2 ∧ src = 6 then ackFlit s p else none
  let ok := fun (x : TxFlit) => decide (tget 0 l.used (2 * vc + x.dclass) < bufferDepth vc)
  match l.lock.find? (fun e => e.1 = vc) with
  | some (_, src) => (head src).filter ok
  | none => (sourceOrder (tget 6 l.turn vc)).findSome? fun src => (head src).filter ok

/-- Remove the first flit of a channel and source. -/
def dropFirst (vc src : Nat) : List TxFlit → List TxFlit
  | [] => []
  | x :: r => if x.vc = vc ∧ x.from_ = src then r else x :: dropFirst vc src r

/-- Send a sequenced flit: number it, keep it for retry, use a credit, return the credit of a forwarded one. -/
def sendSequenced (p : Nat) (x : TxFlit) (s : State) : State :=
  let l := linkAt s p
  let seq := l.txSeq
  let es := if x.ftype = 5 ∧ x.from_ = 6 then (s.acks.filter fun a => a.dst = x.dst).take (if encrypted s p then 14 else 15) else []
  let s := if es.isEmpty then s else { s with acks := es.foldl (fun l a => l.erase a) s.acks }
  let (f, s) := wireFlit p x seq false s
  let s := modLink p (fun l => { l with
    txSeq := (seq + 1) % 4096
    retry := l.retry ++ [{ seq := seq, tx := x, flit := f }]
    txq := dropFirst x.vc x.from_ l.txq
    used := tput (2 * x.vc + x.dclass) (tget 0 l.used (2 * x.vc + x.dclass) + 1) l.used
    lock := if x.tail then tdel x.vc l.lock else if x.ftype = 1 then tput x.vc x.from_ l.lock else l.lock
    turn := tput x.vc x.from_ l.turn
    bulk3 := if x.vc = 3 then true else if x.vc = 0 then false else l.bulk3 }) s
  if x.from_ < 6 then odBump 0x4010 (0xE0 + p) 1 (freeBuffer x.from_ x.inIdx s) else s

/-- The heartbeat's body (Table 11.7). -/
def heartbeatBody (s : State) (l : LinkPort) : Nat :=
  pack [(15, myNode s), (1, 0), (4, stepInForce s), (1, b2n (s.mgmt.st = 4)),
    (1, b2n (s.rel.recov.any fun r => r.level ≥ 2)), (10, 0), (32, l.hbNum)]

/-- A resent flit: as it was; without encryption it carries the latest acknowledgement (R323, R349). -/
def resendFlit (p : Nat) (x : SentFlit) (s : State) : State :=
  let l := linkAt s p
  let v := x.flit.toNat
  let hdr := putBits (putBits (bits v 0 96) 20 12 ((l.rxSeq + 4095) % 4096)) 32 1 (b2n l.rxAny)
  let f := if encrypted s p then x.flit else flitOf hdr (fBody x.flit)
  putLink p { l with resend := l.resend.drop 1, sent := some f } s

/-- CTRL flits have their own layout, which the manual does not give: kind 0 training, 1 retry request. -/
def ctrlBody (kind : Nat) (s : State) (p : Nat) (acked : Bool) (seq : Nat) : Nat :=
  pack [(4, kind), (15, myNode s), (16, dimX s), (16, dimY s), (16, dimZ s), (3, p), (1, b2n (encrypted s p)), (1, b2n acked),
    (12, seq)]

/-- One flit slot of a port. -/
def flitSlot (p : Nat) (s : State) : State :=
  let l := linkAt s p
  let loc := fun (x : TxFlit) plain s => (wireFlit p x 0 plain s).2
  if l.st = 1 then loc (localOf s 7 (ctrlBody 0 s p (l.good ≥ 16) 0)) true s
  else if l.st = 5 then loc (localOf s 0 0) true s
  else if l.acked then loc (localOf s 7 (ctrlBody 0 s p true 0)) true (putLink p { l with acked := false } s)
  else if l.retryReq then
    odBump 0x4010 (0x80 + p) 1 (loc (localOf s 7 (ctrlBody 1 s p false l.rxSeq)) false
      (putLink p { l with retryReq := false, reqAge := 0 } s))
  else if l.hbDue then
    loc (localOf s 6 (heartbeatBody s l)) false (putLink p { l with hbDue := false, hbNum := (l.hbNum + 1) % 2 ^ 32 } s)
  else
    match l.resend with
    | x :: _ => resendFlit p x s
    | [] =>
      let bulk := if l.bulk3 then [2, 1, 0, 3] else [2, 1, 3, 0]
      match (if l.retry.length < 512 then bulk.findSome? (nextOf s p) else none) with
      | some x => sendSequenced p x s
      | none => loc (localOf s 0 0) false s

def execFlitSlot (p : Nat) (s : State) : Out :=
  let st := (linkAt s p).st
  event (live s && p < 6 && (st = 1 || st = 2 || st = 5)) s
    (flitSlot p (if (List.range 4).any fun vc => (nextOf s p vc).isSome then apexProgress s else s))

/-- R340: a heartbeat is due every 4 096 apex FC. -/
def execHeartbeatSend (p : Nat) (s : State) : Out :=
  let l := linkAt s p
  event (live s && p < 6 && l.st = 2 && decide (s.clocks.fc ≥ l.hbFc + 4096)) s
    (putLink p { l with hbDue := true, hbFc := s.clocks.fc } s)

/-- R324: the request is sent again after 64 flit times without the expected `SEQ`. -/
def execRetryRequestResend (p : Nat) (s : State) : Out :=
  let l := linkAt s p
  event (live s && p < 6 && l.st = 2 && l.refetch && decide (l.reqAge ≥ 64)) s
    (putLink p { l with retryReq := true, reqAge := 0 } s)

/-- R342: no good heartbeat in time. -/
def execHbTimeout (p : Nat) (s : State) : Out :=
  let l := linkAt s p
  event (live s && p < 6 && l.st = 2 && decide (refNow s ≥ l.hbRef + odv s 0x4000 6)) s (portLost p s)

/-- R347: a command has waited too long for one acknowledgement. -/
def execE2eTimeout (tag : Nat) (s : State) : Out :=
  match byTag s tag with
  | none => .next s
  | some c =>
    event (live s && s.e2e.any fun e => e.uid = c.uid && decide (refNow s ≥ e.refAt + odv s 0x4000 7)) s
      (endCmd c.uid stLinkLost noDetail s)

/-- R344: 1 ms without reaching UP. -/
def execTrainingTimeout (p : Nat) (s : State) : Out :=
  let l := linkAt s p
  event (live s && p < 6 && l.st = 1 && decide (refNow s ≥ l.trainRef + 100000)) s (putLink p { l with st := 4 } s)

/-- R474: the PHY is ready and every lane locked. -/
def execPhyReady (p : Nat) (s : State) : Out :=
  let l := linkAt s p
  let s1 := putLink p { l with phyReady := true } s
  event (live s && p < 6 && odv s 0x4010 (0x10 + p) = 1 && !l.phyReady) s
    (if l.st = 0 ∨ (l.st = 5 ∧ keyOk s p) then startTraining p s1 else s1)

/-- R475: a lane has lost lock for 8 apex FC; a port in TRAINING or UP is lost. -/
def execPhyLockLoss (p : Nat) (s : State) : Out :=
  let l := linkAt s p
  let s1 := putLink p { l with phyReady := false } s
  event (live s && p < 6 && l.phyReady) s (if l.st = 1 ∨ l.st = 2 then portLost p s1 else s1)

/-- R152: the last byte of a tile, its CRC included, has been written; the feeder checks the CRC as it reads (R154). -/
def arrivalPresent (b e : Nat) (a : Arrival) (s : State) : State :=
  modBlock b (fun x => { x with arrivals := tput e { a with present := true } x.arrivals }) s

def execArrivalTilePresent (b entry : Nat) (s : State) : Out :=
  match (blockAt s b).arrivals.find? (fun a => a.1 = entry) with
  | none => .next s
  | some (_, a) => event (live s && !a.present && decide (a.got ≥ a.want)) s (arrivalPresent b entry a s)

end Sys2Proof.Machine
end

