-- ==== Sys2Proof/Machine/Ports.lean ====
section
/-! DEFINITION. The memory ports (R294, R295, R439, R469 to R473). -/

namespace Sys2Proof.Machine

/-- The least identifier that no outstanding request of the kind holds. -/
def freeId (os : List Outst) : Nat := ((List.range 4096).find? fun i => !os.any fun o => o.id = i).getD 0

/-- The region on whose behalf a request waits; 8 for the apex. -/
def reqRegion (q : MemReq) : Nat :=
  match q.owner with
  | .feed r _ _ _ => r
  | .cmd _ b => if b < 320 then b / 40 else 8
  | _ => 8

/-- A request's deadline when it stages for a paced command (R194). -/
def reqDeadline (s : State) (q : MemReq) : Option (Nat × Nat) :=
  match q.owner with
  | .feed _ _ uid _ => (cmdOf s uid).bind fun c => if paced s c then some (deadlineAt c, c.uid) else none
  | _ => none

/-- Of two waiting requests of a region, the earlier in queue order first, the one that goes first: paced stagings before
the others, earliest deadline first, then acceptance (R194). -/
def reqBefore (s : State) (p q : MemReq) : Bool :=
  match reqDeadline s p, reqDeadline s q with
  | some x, some y => decide (x.1 < y.1 ∨ (x.1 = y.1 ∧ x.2 ≤ y.2))
  | none, some _ => false
  | _, none => true

/-- Requests that no earlier one of the same line precedes: accesses to a line keep their order (R294). -/
def freeReqs : List MemReq → List Nat → List MemReq
  | [], _ => []
  | q :: r, seen => if seen.contains q.addr then freeReqs r seen else q :: freeReqs r (q.addr :: seen)

/-- The request that a port issues next: regions in turn (R18). -/
def nextRequest (s : State) (n : Nat) : Option MemReq :=
  let p := mportAt s n
  let room := fun q : MemReq => decide ((if q.write then p.writes.length else p.reads.length) < 4096)
  let qs := (freeReqs p.queue []).filter room
  ((List.range 9).map fun i => (p.lastRegion + 1 + i) % 9).findSome? fun r =>
    (qs.filter fun q => reqRegion q = r).foldl (fun m q =>
      match m with
      | none => some q
      | some x => if reqBefore s x q then some x else some q) none

/-- R469, R470: the port issues a waiting request while it holds a credit and an identifier. -/
def issueRequest (n : Nat) (q : MemReq) (s : State) : State :=
  let p := mportAt s n
  let os := if q.write then p.writes else p.reads
  let o : Outst := { id := freeId os, req := q, refAt := refNow s, drop := false }
  let p := { p with credits := p.credits - 1, queue := p.queue.erase q, lastRegion := reqRegion q }
  let s := putMport n (if q.write then { p with writes := p.writes ++ [o] } else { p with reads := p.reads ++ [o] }) s
  match q.owner with
  | .cmd _ b => if b < 320 then unstall b s else s
  | _ => s

def execMemRequestIssue (n : Nat) (s : State) : Out :=
  match nextRequest s n with
  | none => .next s
  | some q => event (live s && n < 16 && decide ((mportAt s n).credits > 0)) s (issueRequest n q s)

/-- R469: one pulse of `MPn_REQ_CREDIT`. -/
def execMemReqCredit (n : Nat) (s : State) : Out :=
  event (live s && n < 16) s (putMport n { mportAt s n with credits := (mportAt s n).credits + 1 } s)

/-! ### Responses -/

/-- The line of a read response as the engine sees it: bytes it has written since stay (R295). -/
def mergeLine (s : State) (q : MemReq) (data : BitVec 1024) : List Byte :=
  (List.range 128).map fun i =>
    if q.wbe.toNat.testBit i then hostByte s (q.addr + i) else BitVec.ofNat 8 (data.toNat / 2 ^ (8 * i))

/-- Poison marks of a line as read. -/
def linePoison (s : State) (q : MemReq) (bad : Nat) : List Nat :=
  (List.range 2).foldl (fun l u =>
    let k := q.addr / 64 + u
    if bits q.wbe.toNat (64 * u) 64 ≠ 0 then l else if bit bad u then setIns k l else setDel k l) s.memPoison

/-- The line reaches the region that asked for it: its read cache fills, or its staging area with keys and values (R168),
unless the fill is to be discarded (R297, R309). -/
def fillCache (kv : Bool) (r l : Nat) (bs : List Byte) (bad : Nat) (s : State) : State :=
  let x := regionAt s r
  if x.discard.contains l then putRegion r { x with discard := setDel l x.discard } s
  else
    let line : Line := { data := BitVec.ofNat 1024 (ofBytes bs), poison := BitVec.ofNat 2 bad }
    let m := storeMiB (odv s 0x2000 2)
    putRegion r (if kv then { x with staged := areaPut (8192 * m 3) l line x.staged } else { x with lines := areaPut (8192 * m 0) l line x.lines }) s

/-- Hand a line to its owner; `failed` when the request failed (R439). -/
def deliverLine (q : MemReq) (bs : List Byte) (bad : Nat) (failed : Bool) (s : State) : State :=
  let l := q.addr / 128
  match q.owner with
  | .args uid =>
    modCmd uid (fun c =>
      let hit : Bool := (List.range 2).any fun u =>
        bit bad u && decide (64 * (2 * l + u) < dArgAddr c.desc + 16 * dArgSlots c.desc ∧ dArgAddr c.desc < 64 * (2 * l + u) + 64)
      { c with argWait := c.argWait.filter (· != l), argFail := c.argFail || failed, argPoison := c.argPoison || hit }) s
  | .feed r b uid kv =>
    let s := stagedNow uid (fillCache kv r l bs bad s)
    modBlock b (fun x => { x with job := x.job.map fun (j : Job) => { j with wait := j.wait.filter (· != l) } }) s
  | _ => s

/-- R439: the read failed; what it was to return is poisoned. -/
def failRead (n : Nat) (o : Outst) (inj : Bool) (s : State) : State :=
  let bs := hostBytes s o.req.addr 128
  report 0x29 n 0 0 o.req.addr none inj (deliverLine o.req bs 3 true s)

/-- A read response of an outstanding request. -/
def readDone (n : Nat) (o : Outst) (status poison : Nat) (data : BitVec 1024) (par : BitVec 16) (s : State) : State :=
  let p := mportAt s n
  let s := putMport n { p with reads := p.reads.filter fun x => x.id != o.id } s
  if o.drop then s
  else
    let i9 := fires 0x29 n s
    let i8 := fires 0x28 n s
    let s := if i9.isSome then disarm 0x29 n s else s
    if status ≠ 0 ∨ i9.isSome then failRead n o i9.isSome s
    else
      let s := if i8.isSome then disarm 0x28 n s else s
      let parBad := (List.range 2).foldl (fun m u =>
        if (List.range 8).any (fun w => !evenPar 65 (bits data.toNat (64 * (8 * u + w)) 64 + bits par.toNat (8 * u + w) 1 * 2 ^ 64))
            || (i8.isSome && u = 0) then m + 2 ^ u else m) 0
      let bad := parBad ||| poison
      let bs := mergeLine s o.req data
      let s := if parBad = 0 then s else report 0x28 n 0 0 o.req.addr none i8.isSome s
      let s := { s with mem := memWrite o.req.addr bs s.mem, memPoison := linePoison s o.req bad }
      deliverLine o.req bs bad false s

/-- R471: a read response. -/
def memReadResponse (n : Nat) (rsp : Word) (data : BitVec 1024) (par : BitVec 16) (s : State) : State :=
  let o := (mportAt s n).reads.find? fun x => x.id = fld rsp 0 12
  match (if evenPar 32 rsp.toNat then o else none) with
  | some o => readDone n o (fld rsp 12 2) (fld rsp 14 2) data par s
  | none => report 0x29 n 0 0 0 none false s

def execMemReadResponse (n : Nat) (rsp : Word) (data : BitVec 1024) (par : BitVec 16) (s : State) : Out :=
  event (live s && n < 16) s (memReadResponse n rsp data par s)

/-- A write is coherence-acknowledged, or has failed (R295, R439). -/
def writeDone (n : Nat) (o : Outst) (failed inj : Bool) (s : State) : State :=
  let p := mportAt s n
  let s := putMport n { p with writes := p.writes.filter fun x => x.id != o.id } s
  if o.drop then s
  else
    let s := if failed then report 0x29 n 0 0 o.req.addr none inj s else s
    match o.req.owner with
    | .cmd uid _ =>
      let s := modCmd uid (fun c => { c with writesOut := c.writesOut - 1 }) s
      if failed then endCmd uid stMemFault noDetail s else s
    | .peat k => { s with paged := { s.paged with peatOut := s.paged.peatOut.filter (· != k) } }
    | _ => s

def memWriteResponse (n : Nat) (rsp : BitVec 16) (s : State) : State :=
  let o := (mportAt s n).writes.find? fun x => x.id = fld rsp 0 12
  match (if evenPar 16 rsp.toNat then o else none) with
  | some o =>
    let i9 := fires 0x29 n s
    let s := if i9.isSome then disarm 0x29 n s else s
    writeDone n o (fld rsp 12 2 != 0 || i9.isSome) i9.isSome s
  | none => report 0x29 n 0 0 0 none false s

def execMemWriteResponse (n : Nat) (rsp : BitVec 16) (s : State) : Out :=
  event (live s && n < 16) s (memWriteResponse n rsp s)

/-- R439: no response in time; the identifier is free again. -/
def memTimeout (n : Nat) (o : Outst) (s : State) : State :=
  if o.req.write then writeDone n o true false s
  else
    let p := mportAt s n
    let s := putMport n { p with reads := p.reads.filter fun x => x.id != o.id } s
    if o.drop then s else failRead n o false s

def execMemRespTimeout (n : Nat) (wr : Bool) (id : Nat) (s : State) : Out :=
  let p := mportAt s n
  match (if wr then p.writes else p.reads).find? (fun o => o.id = id) with
  | none => .next s
  | some o =>
    event (live s && n < 16 && decide (refNow s ≥ o.refAt + odv s 0x6200 10)) s (memTimeout n o s)

end Sys2Proof.Machine
end

