-- ==== Sys2Proof/Machine/Outputs.lean ====
section
/-! DEFINITION. What a command reads and writes for software, as places; what an early end leaves in its outputs, and what an
overlap with its inputs leaves there (R9, R285, R301, Table 09.16). -/

namespace Sys2Proof.Machine

/-- Rows of a tensor: offset and bytes of each. -/
def rowSpans (stride bytes rows : Nat) : List (Nat × Nat) := (List.range rows).map fun r => (r * stride, bytes)

/-- A stored matrix in a format code. -/
def matSpans (x : ArgSlot) (f cols im rows : Nat) : List (Nat × Nat) :=
  (rowSpans (strideOf x (rowBytes f cols)) (rowBytes f cols) rows).map fun p => (im + p.1, p.2)

/-- Head rows of λ values or records. -/
def headSpans (heads stride bytes : Nat) : List (Nat × Nat) := rowSpans stride bytes heads

/-- Output places of a matrix product. -/
def gemmOutputs (c : Cmd) : List (Nat × List (Nat × Nat)) :=
  let d := c.desc
  let e := gEpi d
  let x := cSlot c 3
  let last := e.getLast?.getD 0
  let rows := gBatch d * gM d
  let sb := scaleBytes (gD d)
  let scales := fun im =>
    if last ≠ 7 ∧ last ≠ 8 then []
    else if fld d 401 1 = 1 then [(slScale x + im * gIm d, sb * (gBatch d * ceilDiv (gM d) 32 * gCols d))]
    else [(slScale x + im * gIm d, sb * (rows * ceilDiv (gCols d) 32))]
  [(3, (gIms d).flatMap fun im => matSpans x (gD d) (gCols d) (im * gIm d) rows ++ scales im)]
  ++ (if e.contains 5 || e.contains 6 then [(6, rowSpans (strideOf (cSlot c 6) 16) 16 rows)] else [])
  ++ (if last = 9 then [(12, rowSpans (strideOf (cSlot c 12) 4) 4 rows)] else [])

/-- A tensor laid out (row, head, channel) with its scales, as attention writes it. -/
def headOutputs (c : Cmd) (slot heads rows : Nat) : List (Nat × List (Nat × Nat)) :=
  let d := c.desc
  let x := cSlot c slot
  let f := aOFmt d
  let last := (aEpi d).getLast?.getD 0
  [(slot, matSpans x f (heads * aD d) 0 rows
    ++ (if last = 7 ∨ last = 8 then [(slScale x, scaleBytes f * (rows * heads * ceilDiv (aD d) 32))] else []))]

/-- Output places of an attention command. -/
def attnOutputs (c : Cmd) : List (Nat × List (Nat × Nat)) :=
  let d := c.desc
  let rec_ := (16 + 8 * aD d) * aRows d
  if dOp d = 0x11 then
    headOutputs c 11 (aQHeads d) (aRows d) ++ headOutputs c 12 (aKvHeads d) (aKLen d) ++ headOutputs c 13 (aKvHeads d) (aKLen d)
    ++ [(10, headSpans (aQHeads d) (strideOf (cSlot c 10) (4 * aRows d)) (4 * aRows d))]
  else if aEmit d && dOp d != 0x13 then [(3, headSpans (aQHeads d) (strideOf (cSlot c 3) rec_) rec_)]
  else headOutputs c 3 (aQHeads d) (aRows d) ++ [(4, headSpans (aQHeads d) (strideOf (cSlot c 4) (4 * aRows d)) (4 * aRows d))]

/-- Output places of the other commands that work items run. -/
def seqOutputs (s : State) (c : Cmd) : List (Nat × List (Nat × Nat)) :=
  let d := c.desc
  match dOp d with
  | 0x18 => [(8, [(0, 544 * (rBlocks d * aKvHeads d))])]
  | 0x30 =>
    let y := cSlot c 7
    let f := fld d 384 4
    let last := (epiOf d 266).getLast?.getD 0
    [(7, matSpans y f (sP d) 0 (sLanes d * sT d)
      ++ (if last = 7 ∨ last = 8 then [(slScale y, scaleBytes f * (sLanes d * sT d * ceilDiv (sP d) 32))] else [])),
     (6, rowSpans (strideOf (cSlot c 6) (8 * sP d)) (8 * sP d) (sLanes d * sN d))]
  | 0x31 =>
    [(1, rowSpans (strideOf (cSlot c 1) (2 * mK d)) (2 * mK d) (mT d)), (2, rowSpans (strideOf (cSlot c 2) (4 * mK d)) (4 * mK d) (mT d)),
     (3, rowSpans (strideOf (cSlot c 3) (8 * mK d)) (8 * mK d) (mT d)), (4, [(0, 4 * (mT d * mK d))]), (5, [(0, 8 * mMembers s c)]),
     (6, [(0, 16 * mE d)])]
  | 0x32 => [(2, rowSpans (strideOf (cSlot c 2) (4 * tK d)) (4 * tK d) (tRows d)), (3, rowSpans (strideOf (cSlot c 3) (4 * tK d)) (4 * tK d) (tRows d))]
  | _ => []

/-- Output places of a collective in this node's memory: each member's part, its scales, the merged rows and the counts. -/
def collOutputs (s : State) (c : Cmd) : List (Nat × List (Nat × Nat)) :=
  let g := groupAt s (collG c.desc)
  let r := collR c
  let sc := collSc c
  match c.coll with
  | none => []
  | some k =>
    if collKind c.desc = 4 then
      [(0, (moves s c).filterMap fun m => if m.member = g.rank && !m.toArr then some (m.dst * r, m.rows * r) else none)]
    else
      let part := fun j =>
        let n := k.expect.getD j 0 / max 1 (r + sc)
        [(k.base.getD j 0 * r, n * r)] ++ (if sc = 0 then [] else [(slScale (cSlot c 1) + k.base.getD j 0 * sc, n * sc)])
      let me := countRows s (cSlot c 2) g.rank
      [(1, (List.range g.members.length).flatMap part
        ++ (if collKind c.desc = 3 then [(g.members.length * me * r, me * (4 * ((r - 16) / 8) + 4))] else []))]
      ++ (if collKind c.desc = 2 then [(3, [(0, 8 * g.members.length)])] else [])

/-- The output places of a command: slot, and the stretches of the tensor. -/
def outputsOf (s : State) (c : Cmd) : List (Nat × List (Nat × Nat)) :=
  match dOp c.desc with
  | 0x01 | 0x02 => gemmOutputs c
  | 0x10 | 0x11 | 0x12 | 0x13 => attnOutputs c
  | 0x40 | 0x41 => collOutputs s c
  | 0x50 => [(1, [(0, fld c.desc 256 40)])]
  | _ => seqOutputs s c

/-! ### Inputs -/

/-- A tensor's scales. -/
def scaleSpans (x : ArgSlot) (f im n : Nat) : List (Nat × Nat) :=
  if mxFmt f ∨ ((f = 6 ∨ f = 7) ∧ slScale x ≠ 0) then [(slScale x + im, scaleBytes f * n)] else []

/-- An operand of a matrix product. -/
def opndSpans (d : Descriptor) (o : Opnd) (im : Nat) : List (Nat × Nat) :=
  let n := gBatch d
  (if pairedRows o then (rowSpans (strideOf o.slot o.width) o.width (n * ceilDiv o.len 2)).map fun p => (im + p.1, p.2)
   else matSpans o.slot o.fmt (gRowLen o.kRows o.len o.width) im (n * (if o.kRows then o.len else o.width)))
  ++ scaleSpans o.slot o.fmt im (n * o.width * ceilDiv o.logical 32)

/-- Input places of a matrix product. -/
def gemmInputs (c : Cmd) : List (Nat × List (Nat × Nat)) :=
  let d := c.desc
  let rows := gBatch d * gM d
  let one := fun i => (i, [(0, slotEnd d i (cSlot c i))])
  let rf := if gD d ≤ 2 then gD d else 0
  [(0, (gIms d).flatMap fun im => opndSpans d (gOpA c) (im * gIm d)), (1, (gIms d).flatMap fun im => opndSpans d (gOpB c) (im * gIm d)),
   (2, (gIms d).flatMap fun im => matSpans (cSlot c 2) (fld d 376 4) (gN d) (im * gIm d) rows),
   (5, matSpans (cSlot c 5) rf (gResCols d) 0 rows), (13, if gChain d then opndSpans d (gOpB2 c) 0 else []),
   one 4, one 7, one 8, one 9, one 10, one 14]

/-- A tensor of rows of heads. -/
def headInputs (d : Descriptor) (x : ArgSlot) (f heads rows : Nat) : List (Nat × Nat) :=
  matSpans x f (heads * aD d) 0 rows ++ scaleSpans x f 0 (rows * heads * ceilDiv (aD d) 32)

/-- Input places of an attention command. -/
def attnInputs (c : Cmd) : List (Nat × List (Nat × Nat)) :=
  let d := c.desc
  let op := dOp d
  let q := headInputs d (cSlot c 0) (aQFmt d) (aQHeads d) (aRows d)
  let v := cSlot c 2
  let kv := aKvHeads d
  let vs : List (Nat × Nat) :=
    (if aKvFmt d = 5 ∨ aKvFmt d = 7 then rowSpans (strideOf v (kv * aD d)) (kv * aD d) (ceilDiv (aKLen d) 2)
     else matSpans v (aKvFmt d) (kv * aD d) 0 (aKLen d))
    ++ scaleSpans v (aKvFmt d) 0 (ceilDiv (aKLen d) 32 * (kv * aD d))
  let seg := fun i n => rowSpans (strideOf (cSlot c i) 2) 2 n
  [(0, if op = 0x13 then [(0, 8 * fld d 372 7)] else q), (1, headInputs d (cSlot c 1) (aKvFmt d) kv (aKLen d)), (2, vs),
   (5, seg 5 (aRows d)), (6, seg 6 (aKLen d)), (7, [(0, slotEnd d 7 (cSlot c 7))])]
  ++ (if op = 0x18 then [] else [(8, [(0, 544 * (rBlocks d * kv))])])
  ++ (if op = 0x11 then
        [(3, matSpans (cSlot c 3) (aOFmt d) (aQHeads d * aD d) 0 (aRows d)),
         (4, rowSpans (strideOf (cSlot c 4) (4 * aRows d)) (4 * aRows d) (aQHeads d)),
         (9, headInputs d (cSlot c 9) (aQFmt d) (aQHeads d) (aRows d))]
      else [(10, [(0, slotEnd d 10 (cSlot c 10))]), (11, [(0, slotEnd d 11 (cSlot c 11))])])

/-- Input places of the other commands. -/
def seqInputs (s : State) (c : Cmd) : List (Nat × List (Nat × Nat)) :=
  let d := c.desc
  match dOp d with
  | 0x30 =>
    let n := sLanes d * sT d
    let per := fun i w => rowSpans (strideOf (cSlot c i) (w * sT d)) (w * sT d) (sLanes d)
    [(0, matSpans (cSlot c 0) (sFmt d) (sP d) 0 n), (1, matSpans (cSlot c 1) (sFmt d) (sN d) 0 n), (2, matSpans (cSlot c 2) (sFmt d) (sN d) 0 n),
     (3, per 3 4), (4, per 4 2), (5, rowSpans (strideOf (cSlot c 5) (8 * sP d)) (8 * sP d) (sLanes d * sN d)), (8, [(0, 4 * sP d)])]
  | 0x31 =>
    let w := if fld d 297 1 = 0 then 4 else 2
    [(0, rowSpans (strideOf (cSlot c 0) (mE d * w)) (mE d * w) (mT d))]
  | 0x32 => [(0, rowSpans (strideOf (cSlot c 0) (tLen d * tBytes d)) (tLen d * tBytes d) (tRows d)), (1, rowSpans (strideOf (cSlot c 1) 4) 4 (tRows d))]
  | 0x40 =>
    let g := groupAt s (collG d)
    [(0, (collSends s c g).flatMap fun p =>
        [(p.2.1 * collR c, p.2.2.2.1 * collR c)]
        ++ (if collSc c = 0 then [] else [(slScale (cSlot c 0) + p.2.1 * collSc c, p.2.2.2.1 * collSc c)])),
     (2, [(0, 8 * g.members.length)])]
  | 0x50 => [(0, [(0, fld d 256 40)])]
  | _ => []

/-- The input places of a command; a PERMUTE works in place (R301). -/
def inputsOf (s : State) (c : Cmd) : List (Nat × List (Nat × Nat)) :=
  match dOp c.desc with
  | 0x01 | 0x02 => gemmInputs c
  | 0x10 | 0x11 | 0x12 | 0x13 | 0x18 => attnInputs c
  | _ => seqInputs s c

/-- Some byte lies in a stretch of both lists. -/
def spansMeet (xs ys : List (Nat × Nat)) : Bool :=
  let hull := fun (l : List (Nat × Nat)) => (l.foldl (fun m p => min m p.1) (2 ^ 60), l.foldl (fun m p => max m (p.1 + p.2)) 0)
  let hx := hull xs
  let near := ys.filter fun p => p.2 != 0 && decide (p.1 < hx.2) && decide (hx.1 < p.1 + p.2)
  !near.isEmpty && xs.any fun p => p.2 != 0 && near.any fun q => decide (p.1 < q.1 + q.2) && decide (q.1 < p.1 + p.2)

/-- The overlaps that R301 allows: D of a matrix product exactly over its C or its `RESID` tile. -/
def mayCoincide (c : Cmd) (i o : Nat) : Bool :=
  let d := c.desc
  let x := cSlot c i
  let y := cSlot c o
  let n := rowBytes (gD d) (gCols d)
  (dOp d = 1 || dOp d = 2) && o = 3 && slAddr x = slAddr y && slLoc x = slLoc y
  && ((i = 2 && fld d 376 4 = gD d && gCols d = gN d && strideOf x n = strideOf y n)
    || (i = 5 && (if gD d ≤ 2 then gD d else 0) = gD d && gResCols d = gCols d && strideOf x n = strideOf y n))

/-- R301: an output range overlaps an input range. -/
def overlaps (s : State) (c : Cmd) : Bool :=
  let abs := fun (x : ArgSlot) (l : List (Nat × Nat)) => l.map fun p => (slBase s x + p.1, p.2)
  let ins := (inputsOf s c).filter fun i => hasSlot c i.1
  (outputsOf s c).any fun o => hasSlot c o.1 && ins.any fun i =>
    let x := cSlot c i.1
    let y := cSlot c o.1
    decide ((slLoc x = 0) = (slLoc y = 0)) && !mayCoincide c i.1 o.1 && spansMeet (abs x i.2) (abs y o.2)

/-! ### Undefined outputs -/

/-- Statuses after which outputs are undefined (Table 09.16). -/
def leavesUndefined (status : Nat) : Bool :=
  [0x0200, 0x0201, 0x0301, 0x0400, 0x0402, 0x0500, 0x0501].contains status

/-- R9: a command's outputs are undefined, in host memory and in the scratchpads of the blocks that had work of it, a broadcast's
in all. -/
def spoilPlaces (c : Cmd) (s : State) : State :=
  let bs := if dOp c.desc = 0x50 then presentBlocks s else c.loads.map (·.1)
  let s := if dOp c.desc = 0x51 && (fld c.desc 266 1 = 0 || fld c.desc 267 15 = myNode s) then spoil none (fld c.desc 320 52) (fld c.desc 256 9) s else s
  (outputsOf s c).foldl (fun s o =>
    let x := cSlot c o.1
    if slAbsent x then s
    else o.2.foldl (fun s p =>
      if slLoc x = 0 then spoil none (slAddr x + p.1) p.2 s
      else bs.foldl (fun s b => spoil (some b) (slAddr x + p.1) p.2 s) s) s) s

/-- R285: so are those of a dispatched command that has ended early. -/
def spoilOutputs (c : Cmd) (status : Nat) (s : State) : State :=
  if c.dispatched && leavesUndefined status then spoilPlaces c s else s

/-- R301: so are those of a command that overlap its inputs. -/
def spoilOverlap (c : Cmd) (s : State) : State := if overlaps s c then spoilPlaces c s else s

end Sys2Proof.Machine
end

