-- ==== Sys2Proof/Machine/Edit.lean ====
section
/-! DEFINITION. PT_EDIT (R219, R220, Table 07.10): operations on an edited copy, and its commit. -/

namespace Sys2Proof.Machine

/-! ### Operations -/

def nOps (d : Descriptor) : Nat := fld d 355 13

/-- Operation `k` of the list, as its 128 bits. -/
def opAt (s : State) (c : Cmd) (k : Nat) : Nat := hostNat s (slAddr (cSlot c 0) + 16 * k) 16

def opCode (w : Nat) : Nat := bits w 0 4
def opA (w : Nat) : Nat := bits w 8 56
def opB (w : Nat) : Nat := bits w 64 64

/-- Bits of A and of B that an operation names. -/
def opMasks : Nat → Nat × Nat
  | 1 => (2 ^ 30 - 1, 2 ^ 20 - 1)
  | 3 => (2 ^ 17 - 1, 2 ^ 20 - 1)
  | 4 => (2 ^ 33 - 1, 0)
  | 5 => (2 ^ 40 - 1, 2 ^ 17 - 1)
  | 6 => (0x3FFC0E00, 0)
  | _ => (0, 0)

/-- A reserved bit is set, or the operation itself is reserved. -/
def opReserved (w : Nat) : Bool :=
  let m := opMasks (opCode w)
  opCode w = 0 || decide (opCode w > 6) || bits w 4 4 != 0 || (opA w ||| m.1) != m.1 || (opB w ||| m.2) != m.2

/-- `DETAIL` of an operation. -/
def opDetail (k : Nat) : Nat := 0x8000 + k

/-- The tables that the FORKs of the first `n` operations name, in order, each once. -/
def forkSources (s : State) (c : Cmd) (n : Nat) : List Nat :=
  (List.range n).foldl (fun l k =>
    let w := opAt s c k
    let t := 256 * bits (opA w) 0 16 + bits (opA w) 16 8
    if opCode w = 5 ∧ !l.contains t then l ++ [t] else l) []

/-- The operation that names a 17th source table. -/
def tooManySources (s : State) (c : Cmd) : Option Nat :=
  (List.range (nOps c.desc)).find? fun k => decide ((forkSources s c (k + 1)).length > 16)

/-- Source pins held engine-wide. -/
def sourcePins (s : State) : Nat :=
  (s.front.cmds.map fun c => match c.edit with | some e => e.sources.length | none => 0).sum

/-- A pin on a table as its root stands (R217, R220). -/
def pinOf (num table v : Nat) : Pin :=
  { num := num, seq := table / 256, layer := table % 256, epoch := rEpoch v, pages := rPages v, dir := rDir v
    openFrame := rOpenFrame v, openUsed := rUsed v, openValid := rOpen v, kvh := rKvh v, headDim := rDim v }

/-- Earlier PT_EDITs obtain their source pins first. -/
def pinTurn (s : State) (c : Cmd) : Bool :=
  !s.front.cmds.any fun x => x.uid < c.uid && dOp x.desc == 0x21 && x.dispatched && acting x && rootTurn s x
    && (match x.edit with | some e => !e.started | none => false)

/-- A table outside the limits of R236. -/
def tableExists (s : State) (t : Nat) : Bool := decide (t / 256 < odv s 0x3300 1 ∧ t % 256 < odv s 0x3300 2)

/-- The action begins: root read, source pins taken all at once. Answers none while the pins are not to be had. -/
def editStart (c : Cmd) (s : State) : Option State :=
  let v := rootNat s (cSeq c.desc) (cLayer c.desc)
  if rootBad s (cSeq c.desc) (cLayer c.desc) then some (actionTorn c.uid s)
  else
    match tooManySources s c with
    | some k => some (endCmd c.uid stLimit (opDetail k) s)
    | none =>
      let ts := (forkSources s c (nOps c.desc)).filter (tableExists s)
      if ts.any fun t => rootBad s (t / 256) (t % 256) then some (actionTorn c.uid s)
      else if sourcePins s + ts.length > 64 then none
      else
        let pins := (List.range ts.length).map fun i =>
          let t := ts.getD i 0
          pinOf ((s.paged.pinCtr + i + 1) % 2 ^ 32) t (rootNat s (t / 256) (t % 256))
        let e : EditWork := { started := true, op := 0, sources := pins, old := v, root := v, created := false, cut := rPages v,
                              entries := [], raise := [], lower := [], opens := [] }
        some (modCmd c.uid (fun c => { c with edit := some e })
          { s with paged := { s.paged with pinCtr := (s.paged.pinCtr + ts.length) % 2 ^ 32 } })

/-! ### The edited table -/

/-- Entry `i` of the edited table: an edited one, one of the old table, or EMPTY. -/
def editEntry (s : State) (e : EditWork) (i : Nat) : Nat :=
  match e.entries.find? fun x => x.1 = i with
  | some x => x.2
  | none => if i < e.cut then pageEntry s (rDir e.old) i else 0

/-- The old entries that an operation reads are checked (R505). -/
def editBad (s : State) (e : EditWork) (lo hi : Nat) : Bool :=
  (List.range (min hi e.cut - lo)).any fun k => entryBad s (rDir e.old) (lo + k) (rEpoch e.old)

/-- Frames that the entries of a range name, to be lowered. -/
def editFrames (s : State) (e : EditWork) (lo hi : Nat) : List Nat :=
  (List.range (hi - lo)).filterMap fun k =>
    let x := editEntry s e (lo + k)
    if bits x 0 2 = 1 then some (bits x 8 24) else none

/-- The open page goes. -/
def dropOpen (e : EditWork) : EditWork :=
  if rOpen e.root then
    { e with opens := e.opens ++ [rOpenFrame e.root], root := putBits (putBits (putBits e.root 128 24 0) 152 5 0) 157 1 0 }
  else e

/-- Entries at and above `n` are unmapped. -/
def unmapFrom (s : State) (n : Nat) (e : EditWork) : EditWork :=
  { e with lower := e.lower ++ editFrames s e n (rPages e.root), cut := min e.cut n, entries := e.entries.filter fun x => x.1 < n }

/-- What an operation does: a failed check, an end with status and `DETAIL` left to the caller, or the edited copy. -/
inductive OpRes where
  | torn
  | invalid
  | limit
  | ok (e : EditWork)

/-- Frame size of a pool; 0 while it is disabled. -/
def poolSize (s : State) (p : Nat) : Nat := odv s 0x3200 (0x20 + p)

def opCreate (s : State) (e : EditWork) (w : Nat) : OpRes :=
  let a := opA w
  let h := bits a 0 6 + 1
  let d := headDim (bits a 6 3)
  let f := bits a 9 3
  if rLive e.root then .invalid
  else if bits a 6 3 > 5 ∨ f < 2 ∨ f > 4 ∨ bits a 18 3 > 4 ∨ bits a 21 7 > 64 ∨ poolSize s (bits a 12 3) < pageSize 1 d h
      ∨ poolSize s (bits a 15 3) < pageSize f d h then .invalid
  else
    let r := pack [(2, 1), (2, bits a 28 2), (4, 0), (6, bits a 0 6), (3, bits a 6 3), (3, f), (3, bits a 12 3), (3, bits a 15 3),
      (3, bits a 18 3), (3, 0), (32, rEpoch e.root), (17, 0), (7, bits a 21 7), (72, 0), (21, bits (opB w) 0 20)]
    .ok { e with root := r, created := true, cut := 0 }

def opRelease (s : State) (e : EditWork) : OpRes :=
  if !rLive e.root then .invalid
  else if editBad s e 0 (rPages e.root) then .torn
  else
    let e := dropOpen (unmapFrom s 0 e)
    .ok { e with root := rEpoch e.root * 2 ^ 32 }

def opTruncate (s : State) (e : EditWork) (w : Nat) : OpRes :=
  let n := bits (opA w) 0 17
  if !rLive e.root || n > rPages e.root then .invalid
  else if editBad s e n (rPages e.root) then .torn
  else
    let e := dropOpen (unmapFrom s n e)
    .ok { e with root := putBits (putBits e.root 64 17 n) 160 21 (bits (opB w) 0 20) }

def opUnmap (s : State) (e : EditWork) (w : Nat) : OpRes :=
  let lo := bits (opA w) 0 16
  let n := bits (opA w) 16 17
  if !rLive e.root || n = 0 || n > 65536 || lo + n > rPages e.root then .invalid
  else if editBad s e lo (lo + n) then .torn
  else
    .ok { e with lower := e.lower ++ editFrames s e lo (lo + n)
                 entries := (List.range n).foldl (fun l k => tput (lo + k) 0 l) e.entries }

/-- Net references of a frame after the operations so far. -/
def editRefs (s : State) (e : EditWork) (f : Nat) : Nat :=
  refsOf s f + (e.raise.filter fun x => x.1 = f).length - (e.lower.filter (· = f)).length

def opFork (s : State) (e : EditWork) (w : Nat) : OpRes :=
  let src := 256 * bits (opA w) 0 16 + bits (opA w) 16 8
  let lo := bits (opA w) 24 16
  let n := bits (opB w) 0 17
  match e.sources.find? fun p => 256 * p.seq + p.layer = src with
  | none => .invalid
  | some p =>
    let v := rootNat s p.seq p.layer
    if !rLive e.root || !rLive v || p.kvh != rKvh e.root || p.headDim != rDim e.root || lo + n > p.pages then .invalid
    else if lo + n > 65536 then .limit
    else if ((List.range n).any fun k => entryBad s p.dir (lo + k) p.epoch) || editBad s e lo (lo + n) then .torn
    else
      let xs := (List.range n).map fun k => (lo + k, pageEntry s p.dir (lo + k))
      let grows : Bool := decide (lo + n > rPages e.root)
      if xs.any (fun x => bits x.2 0 2 = 2) || (List.range n).any (fun k => bits (editEntry s e (lo + k)) 0 2 != 0)
          || (grows && rOpen e.root && rUsed e.root != 0) then .invalid
      else
        let up := (xs.filter fun x => bits x.2 0 2 = 1).map fun x => (bits x.2 8 24, x.1)
        let e1 := { e with raise := e.raise ++ up
                           entries := xs.foldl (fun l x => tput x.1 (mkLeaf (bits x.2 0 2) (bits x.2 2 3) (bits x.2 8 24) (bits x.2 32 20) 0) l) e.entries
                           root := if grows then putBits e.root 64 17 (lo + n) else e.root }
        if up.any (fun x => editRefs s e1 x.1 > 65535) then .limit else .ok e1

def opSetAttr (e : EditWork) (w : Nat) : OpRes :=
  let a := opA w
  if !rLive e.root || bits a 9 3 < 2 || bits a 9 3 > 4 || bits a 18 3 > 4 || bits a 21 7 > 64 then .invalid
  else .ok { e with root := putBits (putBits (putBits (putBits e.root 17 3 (bits a 9 3)) 26 3 (bits a 18 3)) 81 7 (bits a 21 7)) 2 2 (bits a 28 2) }

def applyOp (s : State) (e : EditWork) (w : Nat) : OpRes :=
  match opCode w with
  | 1 => opCreate s e w
  | 2 => opRelease s e
  | 3 => opTruncate s e w
  | 4 => opUnmap s e w
  | 5 => opFork s e w
  | 6 => opSetAttr e w
  | _ => .invalid

/-! ### The commit -/

/-- Is the edited table LIVE, and was the old one? -/
def nowLive (e : EditWork) : Bool := rLive e.root
def wasLive (e : EditWork) : Bool := rLive e.old

/-- The old directory and leaves serve on where they do not change. -/
def keepsOld (e : EditWork) : Bool := wasLive e && nowLive e && !e.created

/-- Does leaf `l` of the edited table need a copy? -/
def leafChanges (e : EditWork) (l : Nat) : Bool :=
  !keepsOld e || decide (256 * l ≥ rPages e.old)
  || (e.entries.any fun x => x.1 / 256 = l)
  || (decide (rPages e.root < rPages e.old) && decide (rPages e.root > 0) && decide ((rPages e.root - 1) / 256 = l))
  || decide (e.cut < min (rPages e.old) (256 * l + 256) ∧ e.cut < rPages e.root)

/-- Leaves of the edited table that are written anew. -/
def newLeaves (e : EditWork) : List Nat :=
  if nowLive e then (List.range (ceilDiv (rPages e.root) 256)).filter (leafChanges e) else []

/-- The directory is written anew: its entries change, or the table had none. -/
def dirChanges (e : EditWork) : Bool :=
  nowLive e && (!keepsOld e || !(newLeaves e).isEmpty || decide (ceilDiv (rPages e.root) 256 < ceilDiv (rPages e.old) 256))

/-- Old leaves that the commit replaces or leaves out. -/
def goneLeaves (s : State) (e : EditWork) : List Nat :=
  if !wasLive e then []
  else
    ((List.range (ceilDiv (rPages e.old) 256)).filter fun l =>
      !keepsOld e || decide (256 * l ≥ rPages e.root) || leafChanges e l).map fun l => bits (dirEntry s (rDir e.old) l) 8 24

/-- An entry that the commit copies fails its check (R505). -/
def editTorn (s : State) (e : EditWork) : Bool :=
  let v := e.old
  let copied := (newLeaves e).flatMap fun l => (List.range 256).map fun k => 256 * l + k
  wasLive e
  && (((dirChanges e || !nowLive e) && (List.range (ceilDiv (rPages v) 256)).any fun l => dirBad s (rDir v) l (rEpoch v))
      || copied.any fun i => decide (i < min e.cut (rPages e.root)) && !(e.entries.any fun x => x.1 = i) && entryBad s (rDir v) i (rEpoch v))

/-- The frames whose references rise and fall over the whole edit: what one operation takes and another gives back cancels
out, so that no reference count passes its limit or reaches 0 on the way (R220, R222, R236). -/
def netRefs : List (Nat × Nat) → List Nat → List (Nat × Nat) × List Nat
  | up, [] => (up, [])
  | up, f :: r =>
    if up.any fun x => x.1 = f then netRefs (up.eraseP fun x => x.1 = f) r
    else
      let n := netRefs up r
      (n.1, f :: n.2)

/-- The action begins afresh after a failed check. -/
def editAgain (c : Cmd) (s : State) : State :=
  actionTorn c.uid (modCmd c.uid (fun c => { c with edit := c.edit.map fun e => { e with started := false, op := 0, sources := [] } }) s)

/-- R219: one write of the root; copies first, what is replaced retired after. Status when it cannot be. -/
def editCommit (c : Cmd) (e : EditWork) (s : State) : State :=
  let d := c.desc
  let o : MemOwner := .cmd c.uid 320
  let ep := rEpoch e.old + 1
  let ls := newLeaves e
  let nd := dirChanges e
  let need := ls.length + b2n nd
  if editTorn s e then editAgain c s
  else if ep > 0xFFFFFFFF ∨ s.paged.leafFree < need then endCmd c.uid stLimit noDetail s
  else
    let net := netRefs e.raise (e.lower ++ e.opens)
    let gone := goneLeaves s e
    let slots := takeLeaves need s
    let dir := if nd then slots.1.getD ls.length 0 else rDir e.old
    let slotOf := fun l => (ls.zip slots.1).find? fun x => x.1 = l
    let ent := fun i =>
      if i ≥ rPages e.root then mkLeaf 0 0 0 0 ep
      else
        match e.entries.find? fun x => x.1 = i with
        | some x => mkLeaf (bits x.2 0 2) (bits x.2 2 3) (bits x.2 8 24) (bits x.2 32 20) ep
        | none => if i < e.cut then pageEntry s (rDir e.old) i else mkLeaf 0 0 0 0 ep
    let rows := ls.map fun l => (l, (List.range 256).map fun k => ent (256 * l + k))
    let dirRow := (List.range 256).map fun l =>
      if 256 * l ≥ rPages e.root then mkDir 0 0 ep
      else
        match slotOf l with
        | some x => mkDir 1 x.2 ep
        | none => dirEntry s (rDir e.old) l
    let t := slots.2
    let t := rows.foldl (fun t x => match slotOf x.1 with
      | some y => writeSlot y.2 (fun k => x.2.getD k 0) o t
      | none => t) t
    let t := if nd then writeSlot dir (fun k => dirRow.getD k 0) o t else t
    let root := putBits e.root 32 32 ep
    let root := if nowLive e then putBits root 96 24 dir else root
    let t := writeRoot (cSeq d) (cLayer d) root o t
    let table := cTable d
    let t := { t with paged := { t.paged with live := if nowLive e then setIns table t.paged.live else setDel table t.paged.live } }
    let t := net.1.foldl (fun t x => raiseRefs x.1 (cSeq d) (cLayer d) x.2 t) t
    let t := net.2.foldl (fun t f => lowerRefs f t) t
    let t := gone.foldl (fun t l => retireLeaf l t) t
    let t := if wasLive e && (nd || !nowLive e) then retireLeaf (rDir e.old) t else t
    -- pages that are no longer DROPPED leave the Peat list
    let lost := t.paged.peat.filter fun x => 256 * x.seq + x.layer == table && (!nowLive e || decide (x.page ≥ rPages e.root)
      || decide (x.page ≥ e.cut) || e.entries.any fun y => y.1 = x.page)
    let t := lost.foldl (fun t x => peatForget table x.page t) t
    modCmd c.uid (fun c => { c with countA := nOps d, countB := ep, edit := some { e with op := nOps d, sources := e.sources } }) t

/-- The edit at its beginning, from the tables as they stand, under the same source pins. -/
def editFresh (c : Cmd) (e : EditWork) (s : State) : EditWork :=
  let v := rootNat s (cSeq c.desc) (cLayer c.desc)
  { e with op := 0, old := v, root := v, created := false, cut := rPages v, entries := [], raise := [], lower := [], opens := []
         , sources := e.sources.map fun p => pinOf p.num (256 * p.seq + p.layer) (rootNat s p.seq p.layer) }

/-- Operations `k` onwards applied to a copy. Answers the operation that stopped it. -/
def applyAll (s : State) (c : Cmd) : List Nat → EditWork → Nat × OpRes
  | [], e => (0, .ok e)
  | k :: r, e =>
    match applyOp s e (opAt s c k) with
    | .ok e1 => applyAll s c r e1
    | x => (k, x)

/-- The action acts on the tables as one: at the last operation the whole list is applied to them and committed. -/
def editWhole (c : Cmd) (e : EditWork) (s : State) : State :=
  match applyAll s c (List.range (nOps c.desc)) (editFresh c e s) with
  | (_, .ok e1) => editCommit c e1 s
  | (k, .invalid) => endCmd c.uid stDescInvalid (opDetail k) s
  | (k, .limit) => endCmd c.uid stLimit (opDetail k) s
  | (_, .torn) => editAgain c s

/-- R219, R220: operation `e.op` of the list; the commit after the last. -/
def editStep (c : Cmd) (e : EditWork) (s : State) : State :=
  let w := opAt s c e.op
  if opReserved w then endCmd c.uid stDescInvalid (opDetail e.op) s
  else
    match applyOp s e w with
    | .torn => editAgain c s
    | .invalid => endCmd c.uid stDescInvalid (opDetail e.op) s
    | .limit => endCmd c.uid stLimit (opDetail e.op) s
    | .ok e1 =>
      let e2 := { e1 with op := e.op + 1 }
      if e2.op ≥ nOps c.desc then editWhole c e s
      else if opReserved (opAt s c e2.op) then endCmd c.uid stDescInvalid (opDetail e2.op) s
      else modCmd c.uid (fun c => { c with edit := some e2 }) s

/-- The next operation of a command, when it is of the row's kind. -/
def editOp (code tag : Nat) (s : State) : Out :=
  match byTag s tag with
  | none => .next s
  | some c =>
    match c.edit with
    | none => .next s
    | some e =>
      let ok : Bool := homeRuns s (cSeq c.desc) && decide (dOp c.desc = 0x21) && c.dispatched && acting c && decide (e.op < nOps c.desc)
        && decide (opCode (opAt s c e.op) = code)
      if e.started then event ok s (regionProgress (homeRegion s (cSeq c.desc)) (editStep c e s))
      else
        match editStart c s with
        | none => .next s
        | some t =>
          let t := match cmdOf t c.uid with
            | some c1 => (match c1.edit with
              | some e1 => if e1.started && c1.ending.isNone then editStep c1 e1 t else t
              | none => t)
            | none => t
          event (ok && rootTurn s c && pinTurn s c) s (regionProgress (homeRegion s (cSeq c.desc)) t)

def editDone (c : Cmd) : Bool := match c.edit with | some e => e.started && decide (e.op ≥ nOps c.desc) | none => false

def execCreate (tag : Nat) (s : State) : Out := editOp 1 tag s
def execRelease (tag : Nat) (s : State) : Out := editOp 2 tag s
def execTruncate (tag : Nat) (s : State) : Out := editOp 3 tag s
def execUnmap (tag : Nat) (s : State) : Out := editOp 4 tag s
def execFork (tag : Nat) (s : State) : Out := editOp 5 tag s
def execSetAttr (tag : Nat) (s : State) : Out := editOp 6 tag s

end Sys2Proof.Machine
end

