-- ==== Sys2Proof/Machine/Walk.lean ====
section
/-! DEFINITION. Page-table walks, pins, dropped pages and packing (R178 to R183, R194, R195, R217, R218, R223, R226,
R227, R232, R504). -/

namespace Sys2Proof.Machine

/-! ### Packing (R180, R181) -/

def shareGroup (d : Descriptor) : Nat := fld d 600 16
def sharedPages (d : Descriptor) : Nat := fld d 616 17

/-- Rows that a request brings to each key/value head (R177). -/
def packRows (d : Descriptor) : Nat := aGroup d * aRows d

/-- Pages of range `r` of a request, for one key/value head (R178). -/
def rangePart (s : State) (c : Cmd) (kh r : Nat) : List PageDesc :=
  let n := cachedN s c kh
  let p := rangePages c.desc n
  (((keyPages s c 0 kh).take n).drop (r * p)).take p

/-- What members of a packing set have in common (R180). -/
def packKey (s : State) (c : Cmd) : List Nat :=
  let d := c.desc
  [shareGroup d, cLayer d, aQFmt d, aOFmt d, aPFmt d, b2n (dKaolin d), aD d, aGroup d, aMask d, aBias d]
  ++ (List.range (aKvHeads d)).map fun kh => rangePages d (cachedN s c kh)

/-- Members of an open set, in acceptance order. -/
def packMembers (s : State) (f : Nat) : List Cmd :=
  s.front.cmds.filter fun c => dOp c.desc == 0x12 && c.walked && !c.packGo && c.packSet == f && acting c

/-- Frames of a range's pages, head by head. -/
def rangeFrames (s : State) (c : Cmd) (r : Nat) : List (Nat × Bool × Nat) :=
  (List.range (aKvHeads c.desc)).flatMap fun kh => (rangePart s c kh r).map fun g => (g.pageIdx, g.hole || g.dropped, g.frame)

/-- The range lies wholly within the request's first `SHARED_PAGES` pages. -/
def rangeShared (s : State) (c : Cmd) (r : Nat) : Bool :=
  let ps := (List.range (aKvHeads c.desc)).flatMap fun kh => rangePart s c kh r
  !ps.isEmpty && ps.all fun g => decide (g.pageIdx < sharedPages c.desc)

/-- A packed work item is dispatched: its members run, and the ranges that a member runs alone because a frame
differs are counted. -/
def packRelease (f : Nat) (s : State) : State :=
  match packMembers s f with
  | [] => s
  | m0 :: rest =>
    let rs := if rest = [] then [] else (List.range 64).filter fun r => (m0 :: rest).all fun c => rangeShared s c r
    let same := fun c r => decide (rangeFrames s c r = rangeFrames s m0 r)
    let mism := (rest.map fun c => (rs.filter fun r => !same c r).length).sum
    let joined := rest.filter fun c => rs.any fun r => same c r
    let who := if joined = [] then [] else m0.uid :: joined.map (·.uid)
    let s1 := { s with front := { s.front with cmds := s.front.cmds.map fun c =>
      if c.packSet = f && c.walked && !c.packGo then { c with packGo := true, packed := who.contains c.uid } else c } }
    let s1 := if mism = 0 then s1 else odBump 0x3010 3 mism s1
    if who = [] then s1 else odBump 0x3010 2 who.length s1

/-- A fence is in flight in the stream: a command with `FENCE`, or a FENCE command (R181). -/
def streamFenced (s : State) (stream : Nat) : Bool :=
  s.front.cmds.any fun c => dStream c.desc == stream && !c.decided && (dFence c.desc || dOp c.desc == 0x62)

/-- A set must not wait: its timeout has passed since its first member was accepted, or a fence stands in a member's
stream (R181). -/
def packDue (s : State) (f : Nat) : Bool :=
  match packMembers s f with
  | [] => false
  | m0 :: rest =>
    decide (s.clocks.fc ≥ m0.acceptFc + m0.packT) || (m0 :: rest).any fun c => streamFenced s (dStream c.desc)

/-- Open sets, by number. -/
def packSets (s : State) : List Nat :=
  ((s.front.cmds.filter fun c => c.packSet != 0 && !c.packGo && acting c).map (·.packSet)).eraseDups

/-- R181: the timeout of an open set, named by one of its members, or a fence in a member's stream. -/
def execPackTimeout (tag : Nat) (s : State) : Out :=
  match byTag s tag with
  | none => .next s
  | some c => event (live s && c.packSet != 0 && !c.packGo && packDue s c.packSet) s (packRelease c.packSet s)

/-- A fence that has just been accepted releases the sets of its stream at once. -/
def releaseFenced (s : State) : State :=
  (packSets s).foldl (fun t f => if (packMembers t f).any (fun m => streamFenced t (dStream m.desc)) then packRelease f t else t) s

/-- A walked request joins the open set of its kind, which keeps the timeout it started with, or opens one. -/
def packJoin (uid : Nat) (s : State) : State :=
  match cmdOf s uid with
  | none => s
  | some c =>
    if dOp c.desc != 0x12 then s
    else if shareGroup c.desc = 0 then modCmd uid (fun c => { c with packGo := true }) s
    else
      let mine := (packSets s).findSome? fun f => (packMembers s f).find? fun x => x.uid != uid && packKey s x == packKey s c
      let rowsOf := fun (t : State) (f : Nat) => ((packMembers t f).map fun m => packRows m.desc).sum
      let r : Nat × Nat × State :=
        match mine with
        | some x =>
          if rowsOf s x.packSet + packRows c.desc ≤ 64 then (x.packSet, x.packT, s)
          else (uid, odv s 0x3010 1, packRelease x.packSet s)
        | none => (uid, odv s 0x3010 1, s)
      let s := modCmd uid (fun c => { c with packSet := r.1, packT := r.2.1 }) r.2.2
      if rowsOf s r.1 ≥ 64 || packDue s r.1 then packRelease r.1 s else s

/-! ### Pins (R217, R218) -/

/-- A command takes its pin: snapshot, number, `LAST_USE`. -/
def takePin (c : Cmd) (s : State) : State :=
  let t := cTable c.desc
  let v := rootNat s (t / 256) (t % 256)
  let n := (s.paged.pinCtr + 1) % 2 ^ 32
  let s := { s with paged := { s.paged with pinCtr := n } }
  let s := writeRoot (t / 256) (t % 256) (putBits v 192 32 (c.uid % 2 ^ 32)) .engine s
  modCmd c.uid (fun c => { c with pin := some (pinOf n t v) }) s

/-- R223: the first failed check discards the command's work, and it runs again under a fresh pin; the second ends it. -/
def walkTorn (uid : Nat) (s : State) : State :=
  match cmdOf s uid with
  | none => s
  | some c =>
    let s := flagCmd uid 3 s
    if c.retried then odBump 0x3300 6 1 (endCmd uid stPtTorn noDetail s)
    else
      let s := purge uid s
      odBump 0x3300 5 1 (modCmd uid (fun c => { c with
        itemTotal := if dOp c.desc = 0x12 then aKvHeads c.desc else c.itemTotal, retried := true, pin := none, pages := [], walked := false, stalled := false, itemNext := 0, done := [], partials := [],
        held := [], bands := [], loads := [], packGo := false, packSet := 0 }) s)

/-! ### The walk (R226) -/

/-- Page indices that the command reads, ascending: listed ones, or all of the snapshot. -/
def walkIndices (s : State) (c : Cmd) (p : Pin) : List Nat :=
  let d := c.desc
  if dOp d != 0x18 && aRoute d then
    let nq := if dOp d = 0x12 then 1 else ceilDiv (aRows d) (aBlock d)
    numSet ((List.range nq).flatMap fun qb => (List.range (aKvHeads d)).flatMap fun kh =>
      (selList s d (cSlot c 8) qb kh).filter fun i => decide (i ≤ p.pages))
  else List.range (p.pages + 1)

/-- A selection list is poisoned: control data that is not followed (R433). -/
def listsPoisoned (s : State) (c : Cmd) : Bool :=
  let d := c.desc
  dOp d != 0x18 && aRoute d
  && hostPoison s (slAddr (cSlot c 8)) (544 * (aKvHeads d * (if dOp d = 0x12 then 1 else ceilDiv (aRows d) (aBlock d))))

/-- Check of the open page's header at the walk (R207, R227). -/
def openHeaderBad (s : State) (c : Cmd) (p : Pin) : Bool :=
  let a := frameAddr s p.openFrame
  let v := hostNat s a 64
  bits v 480 32 != crc32c (toBytes 60 v) || bits v 0 8 != 1 || bits v 16 8 != cLayer c.desc || bits v 80 16 != p.pages % 65536
  || hostPoison s a 64

def holeDesc (i : Nat) : PageDesc :=
  { frameAddr := 0, fmt := 0, used := 0, dropped := false, hole := true, pos0 := 0, pageIdx := i, frame := 0, noPool := false, bad := false }

/-- The page descriptor of the open page. -/
def openDesc (s : State) (c : Cmd) (p : Pin) : PageDesc :=
  if !p.openValid || p.openUsed = 0 then holeDesc p.pages
  else
    match poolOf s p.openFrame with
    | none => { holeDesc p.pages with hole := false, fmt := 1, used := p.openUsed, frame := p.openFrame, noPool := true }
    | some _ =>
      let a := frameAddr s p.openFrame
      { frameAddr := a, fmt := 1, used := p.openUsed, dropped := false, hole := false, pos0 := bits (hostNat s a 64) 96 20
        pageIdx := p.pages, frame := p.openFrame, noPool := false, bad := openHeaderBad s c p }

/-- A leaf entry as a walker of region `r` reads it: from the region's page-table cache, or from memory (R226). -/
def walkLeaf (s : State) (r slot i : Nat) : Nat :=
  match (regionAt s r).leaves.find? fun e => e.1 = slot with
  | some e => bits e.2 (128 * i) 128
  | none => leafEntry s slot i

/-- The entry fails a check of R223; of a leaf in the cache, memory is not read (R224). -/
def walkLeafBad (s : State) (r slot i epoch : Nat) : Bool :=
  let e := walkLeaf s r slot i
  !entryCrcOk e || bits e 0 2 = 3 || decide (bits e 64 32 > epoch)
  || (!thas slot (regionAt s r).leaves && hostPoison s (leafAddr s slot + 16 * i) 16)

/-- A leaf that missed is cached, read whole; one with poisoned bytes is not kept (log entry 68). -/
def cacheLeaf (r slot : Nat) (s : State) : State :=
  if thas slot (regionAt s r).leaves || hostPoison s (leafAddr s slot) 4096 then s
  else
    modRegion r (fun x => { x with
      leaves := areaPut (256 * storeMiB (odv s 0x2000 2) 4) slot (hostNat s (leafAddr s slot) 4096) x.leaves }) s

/-- The entry of a page as the walk reads it; none after a failed check. A page that the pinned leaf has as DROPPED and the
Peat list no longer holds has been restored or unmapped since: the current table decides, under its own epoch (log
entry 68). -/
def walkEntry (s : State) (r : Nat) (p : Pin) (i : Nat) : Option Nat :=
  let slot := leafOf s p.dir i
  if dirBad s p.dir (i / 256) p.epoch || walkLeafBad s r slot (i % 256) p.epoch then none
  else
    let e := walkLeaf s r slot (i % 256)
    if bits e 0 2 = 2 && (droppedOf s (256 * p.seq + p.layer) i).isNone then
      (let v := rootNat s p.seq p.layer
       if rootBad s p.seq p.layer then none
       else if !rLive v || decide (i ≥ rPages v) then some 0
       else if entryBad s (rDir v) i (rEpoch v) then none
       else if bits (pageEntry s (rDir v) i) 0 2 = 1 then some (pageEntry s (rDir v) i) else some 0)
    else some e

def pageDesc (s : State) (e i : Nat) : PageDesc :=
  match bits e 0 2 with
  | 1 =>
    let f := bits e 8 24
    { frameAddr := frameAddr s f, fmt := bits e 2 3, used := 16, dropped := false, hole := false, pos0 := bits e 32 20
      pageIdx := i, frame := f, noPool := (poolOf s f).isNone, bad := false }
  | 2 => { holeDesc i with hole := false, dropped := true, pos0 := bits e 32 20 }
  | _ => holeDesc i

/-- Dropped pages that the command meets: they lie in a key tile that R164 does not skip; those of ROUTE_PAGES are
only left out (R185). -/
def droppedMet (s : State) (c : Cmd) : List Nat :=
  let d := c.desc
  let b := homeBlock s (cSeq d)
  if dOp d = 0x18 then []
  else
    -- a dropped page counts as 16 live keys here; segment ids of its tokens are not known, so they skip nothing
    let d' : Descriptor := BitVec.ofNat 1024 (putBits d.toNat 267 1 0)
    let c' := { c with desc := d', pages := c.pages.map fun p => if p.dropped then { p with used := 16, dropped := false } else p }
    let gone := (c.pages.filter (·.dropped)).map (·.pageIdx)
    let pages := fun (ts : List KTile) => ts.flatMap fun t => (tilePages t).map (·.pageIdx)
    let met : List Nat := match dOp d with
      | 0x12 => (List.range (aKvHeads d)).flatMap fun kh => (List.range (rangeCount s c' kh)).flatMap fun r =>
          pages ((fedTiles s b c' (r * aKvHeads d + kh) 0).map (itemTileAt s c' (r * aKvHeads d + kh)))
      | _ => (List.range (qTiles d * aQHeads d)).flatMap fun i =>
          let rs := rowBlock d (i / aQHeads d) (i % aQHeads d)
          pages (((chunks 4 (keyPages s c' (rs.row 0) rs.kh)).map KTile.pages).filter fun t => !tileSkipped s b c' rs t)
    gone.filter fun i => met.contains i

/-- Ranges of an ATTN_CACHED request over all its heads (R178). -/
def cachedRanges (s : State) (c : Cmd) : Nat := listMax ((List.range (aKvHeads c.desc)).map (rangeCount s c))

/-- Keys that the command reads, the most over its heads and query blocks (R157). -/
def keysRead (s : State) (c : Cmd) : Nat :=
  let d := c.desc
  listMax ((List.range (qTiles d)).flatMap fun t => (List.range (aKvHeads d)).map fun kh =>
    (if aKvSrc d = 0 then 0 else ((keyPages s c (64 * t) kh).map (·.used)).sum) + (if aKvSrc d = 1 then 0 else aKLen d))

/-- The descriptors are out: the command's items can be laid out. -/
def finishWalk (uid : Nat) (s : State) : State :=
  match cmdOf s uid with
  | none => s
  | some c =>
    if dOp c.desc = 0x12 then
      let n := cachedRanges s c
      if aRange c.desc ≠ 0 ∧ n > 64 then endCmd uid stLimit 285 s
      else packJoin uid (modCmd uid (fun c => { c with walked := true, stalled := false, itemTotal := aKvHeads c.desc * n }) s)
    -- a paged prefix and a dense range are more keys than one command reads (R157)
    else if (dOp c.desc = 0x10 ∨ dOp c.desc = 0x11) ∧ aKvSrc c.desc = 2 ∧ keysRead s c > 1048576 then endCmd uid stLimit 544 s
    else modCmd uid (fun c => { c with walked := true, stalled := false }) s

/-- What a dropped page does to the command (R183, R232). -/
def meetDropped (uid : Nat) (s : State) : State :=
  match cmdOf s uid with
  | none => s
  | some c =>
    let ps := droppedMet s c
    if ps = [] then finishWalk uid s
    else
      match aDrop c.desc with
      | 0 => ps.foldl (fun s i => requestPage (cTable c.desc) i s) (modCmd uid (fun c => { c with stalled := true, walked := false }) s)
      | 1 => finishWalk uid (flagCmd uid 5 (modCmd uid (fun c => { c with countA := ps.length }) s))
      | _ => endCmd uid stPageDropped noDetail s

/-- Emit every descriptor of a pinned command, or meet a failed check, after which the leaf is read anew. -/
def walkPages (r uid : Nat) (s : State) : State :=
  match cmdOf s uid with
  | none => s
  | some c =>
    match c.pin with
    | none => s
    | some p =>
      let is := walkIndices s c p
      let es := (is.filter fun i => decide (i < p.pages)).map fun i => (i, walkEntry s r p i)
      let torn := es.filter fun e => e.2.isNone
      if !torn.isEmpty then
        let ls := torn.map fun e => leafOf s p.dir e.1
        walkTorn uid (modRegion r (fun x => { x with leaves := x.leaves.filter fun l => !ls.contains l.1 }) s)
      else
        let ds := is.map fun i => if i = p.pages then openDesc s c p else pageDesc s (((es.find? fun e => e.1 = i).bind (·.2)).getD 0) i
        let s := (numSet (es.map fun e => leafOf s p.dir e.1)).foldl (fun s l => cacheLeaf r l s) s
        let s := ds.foldl (fun s q => if q.bad then odBump 0x3300 8 1 (report 0x17 r 0 1 q.frameAddr (some (dTag c.desc)) false (flagCmd uid 3 s)) else s) s
        let s := ds.foldl (fun s q => trace 0x11 1 r (pack [(24, q.frame), (16, q.pageIdx), (16, p.seq), (8, p.layer), (3, q.fmt), (5, q.used),
          (32, p.num)]) s) s
        meetDropped uid (modCmd uid (fun c => { c with pages := ds }) s)

/-- A walk request is served by a walker of region `r` (R217, R218, R226). -/
def serveWalk (r uid : Nat) (s : State) : State :=
  match cmdOf s uid with
  | none => s
  | some c =>
    match c.pin with
    | some _ => walkPages r uid s
    | none =>
      let q := cSeq c.desc
      let l := cLayer c.desc
      let v := rootNat s q l
      if listsPoisoned s c then endCmd uid stDescInvalid (0x400 + 128 * 8) (flagCmd uid 3 s)
      else if rootBad s q l then walkTorn uid s
      else if !rLive v then endCmd uid stDescInvalid 576 s
      else if rKvh v + 1 ≠ aKvHeads c.desc then endCmd uid stDescInvalid 352 s
      else if headDim (rDim v) ≠ aD c.desc then endCmd uid stDescInvalid 256 s
      else walkPages r uid (takePin c s)

/-- A stalled walk goes on when none of the pages it waits for is on the Peat list any more. -/
def walkCanGo (s : State) (w : WalkReq) : Bool :=
  match cmdOf s w.uid with
  | none => true
  | some c =>
    !c.stalled || !(c.pages.any fun p => p.dropped && (droppedOf s (cTable c.desc) p.pageIdx).isSome
      && (droppedMet s c).contains p.pageIdx)

/-- The request served next: paced commands first, earliest deadline first, then in queue order (R194, R225). -/
def nextWalk (s : State) (r : Nat) : Option WalkReq :=
  ((regionAt s r).walks.filter (walkCanGo s)).foldl (fun m w =>
    let key := fun (x : WalkReq) => match cmdOf s x.uid with
      | some c => if paced s c then some (deadlineAt c, c.uid) else none
      | none => none
    match m with
    | none => some w
    | some x =>
      match key w, key x with
      | some a, some b => if a.1 < b.1 || (a.1 == b.1 && a.2 < b.2) then some w else some x
      | some _, none => some w
      | _, _ => some x) none

/-- R226; an injected control-core parity error strikes the core that would walk (R454). -/
def execWalkRequest (region : Nat) (s : State) : Out :=
  match nextWalk s region with
  | none => .next s
  | some w =>
    event (regionRuns s region) s
      (if (fires 0x15 region s).isSome then report 0x15 region 0 5 0 none true (disarm 0x15 region s)
       else
         let t := serveWalk region w.uid s
         let stays : Bool := match cmdOf t w.uid with
           | some c => c.stalled && acting c
           | none => false
         regionProgress region (if stays then t else modRegion region (fun x => { x with walks := x.walks.filter fun y => y.uid != w.uid }) t))

/-! ### Acceptance of descriptors -/

/-- A descriptor arrives; a fence that it brings releases the packing sets of its stream (R181). -/
def takeDescriptor (d : Descriptor) (s : State) : State :=
  let t := submit d s
  if t.front.nextUid = s.front.nextUid then t else releaseFenced t

/-- A descriptor row: the descriptor must spell the row's command. -/
def descriptorRow (ok : Bool) (d : Descriptor) (s : State) : Out := event (live s && ok) s (takeDescriptor d s)

def execGemm (d : Descriptor) (s : State) : Out := descriptorRow (dOp d = 1) d s
def execGemmMultipassComplex (d : Descriptor) (s : State) : Out :=
  descriptorRow (dOp d = 2 && fld d 404 2 != 1) d s
def execGemmMultipassFp32 (d : Descriptor) (s : State) : Out :=
  descriptorRow (dOp d = 2 && fld d 404 2 = 1) d s
def execAttnFwd (d : Descriptor) (s : State) : Out := descriptorRow (dOp d = 0x10) d s
def execAttnBwd (d : Descriptor) (s : State) : Out := descriptorRow (dOp d = 0x11) d s
def execAttnCached (d : Descriptor) (s : State) : Out := descriptorRow (dOp d = 0x12) d s
def execAttnMerge (d : Descriptor) (s : State) : Out := descriptorRow (dOp d = 0x13) d s
def execRoutePages (d : Descriptor) (s : State) : Out := descriptorRow (dOp d = 0x18) d s
def execKvAppend (d : Descriptor) (s : State) : Out := descriptorRow (dOp d = 0x20) d s
def execPtEdit (d : Descriptor) (s : State) : Out := descriptorRow (dOp d = 0x21) d s
def execPageDrop (d : Descriptor) (s : State) : Out := descriptorRow (dOp d = 0x22) d s
def execPageRestore (d : Descriptor) (s : State) : Out := descriptorRow (dOp d = 0x23) d s
def execScan (d : Descriptor) (s : State) : Out := descriptorRow (dOp d = 0x30) d s
def execMoeRoute (d : Descriptor) (s : State) : Out := descriptorRow (dOp d = 0x31) d s
def execTopk (d : Descriptor) (s : State) : Out := descriptorRow (dOp d = 0x32) d s
def execAllGather (d : Descriptor) (s : State) : Out :=
  descriptorRow (dOp d = 0x40 && (fld d 256 4 = 0 || fld d 256 4 > 3)) d s
def execReduceScatter (d : Descriptor) (s : State) : Out := descriptorRow (dOp d = 0x40 && fld d 256 4 = 1) d s
def execAllToAll (d : Descriptor) (s : State) : Out := descriptorRow (dOp d = 0x40 && fld d 256 4 = 2) d s
def execCollectiveAttnMerge (d : Descriptor) (s : State) : Out := descriptorRow (dOp d = 0x40 && fld d 256 4 = 3) d s
def execPermute (d : Descriptor) (s : State) : Out := descriptorRow (dOp d = 0x41) d s
def execCopy (d : Descriptor) (s : State) : Out := descriptorRow (dOp d = 0x50) d s
def execSiltCopy (d : Descriptor) (s : State) : Out := descriptorRow (dOp d = 0x51) d s
def execFlagReleaseSet (d : Descriptor) (s : State) : Out := descriptorRow (dOp d = 0x60 && fld d 287 2 != 1) d s
def execFlagReleaseAdd (d : Descriptor) (s : State) : Out := descriptorRow (dOp d = 0x60 && fld d 287 2 = 1) d s
def execFlagAcquire (d : Descriptor) (s : State) : Out := descriptorRow (dOp d = 0x61) d s
def execFence (d : Descriptor) (s : State) : Out := descriptorRow (dOp d = 0x62) d s
def execHint (d : Descriptor) (s : State) : Out := descriptorRow (dOp d = 0x70) d s
def execNop (d : Descriptor) (s : State) : Out := descriptorRow (dOp d = 0x7F) d s
/-- R261 step 1: a descriptor whose opcode is unknown is accepted and rejected. -/
def execUnknownOpcode (d : Descriptor) (s : State) : Out := descriptorRow (opClass (dOp d)).isNone d s

end Sys2Proof.Machine
end

