-- ==== Sys2Proof/Machine/Sched.lean ====
section
/-! DEFINITION. The scheduler (R17, R18, R145, R179, R275 to R280, R284 to R286, R444): dispatch, placement of work
items, decided completions. -/

namespace Sys2Proof.Machine

/-! ### Decisions (R278, R280, R284) -/

/-- `x` has waited for the command, by a tag, the order of its stream or a fence (R275 to R277). -/
def waitedOn (s : State) (c x : Cmd) : Bool :=
  x.waits.contains c.uid
  || (decide (c.uid < x.uid) && dStream x.desc == dStream c.desc
    && (bit (odv s 0x2200 1) (dStream x.desc) || dFence x.desc || dFence c.desc))

/-- A command's completion is decided: those that waited for it see it in the next FC (R280), and those with `WAIT_STRICT`
fail with it when its status is no success. Pins and what it held of the cache return. A Kaolin command counts as completed
when it was dispatched (log entry 69). -/
def decideCmd (uid status detail : Nat) (s : State) : State :=
  match cmdOf s uid with
  | none => s
  | some c =>
    let s := returnFrames c s
    let c1 := { c with decided := true, decidedFc := s.clocks.fc, status := status
                     , detail := if status = stDescInvalid ∨ status = stLimit ∨ status = stArgInvalid then detail else noDetail
                     , pin := none, edit := none, append := none, pages := [], partials := [], held := [], coll := none }
    let s := putCmd c1 s
    let told : Cmd → Cmd := fun x =>
      let y := { x with waits := x.waits.filter (· != uid)
                      , readyFc := if !x.dispatched && waitedOn s c x then s.clocks.fc + 1 else x.readyFc }
      if x.waits.contains uid && dStrict x.desc && !statusOk status && !x.decided then addReject y (stDepFailed, noDetail) else y
    let s := { s with front := { s.front with cmds := s.front.cmds.map told } }
    let s := if dKaolin c.desc && c.dispatched then odBump 0x3400 3 1 s else s
    trace 2 0 0 (pack [(9, dTag c.desc), (16, status), (16, c.flags.toNat), (32, satN 32 (s.clocks.fc - c.acceptFc))]) s

/-- Status of a command that has run to its end (R284). -/
def endStatus (c : Cmd) : Nat := if c.marked ≠ [] then 0x0300 else if c.flags ≠ 0 then 1 else 0

/-! ### Dispatch (R275 to R278) -/

/-- Commands of the apex queue of the Silt path (R289). -/
def siltKind (d : Descriptor) : Bool := dOp d = 0x51 || dOp d = 0x60 || dOp d = 0x61

/-- Entries of that queue in use: an acquire leaves it with its first evaluation (R308). -/
def siltQueue (s : State) : Nat :=
  (s.front.cmds.filter fun c => (dOp c.desc = 0x51 || dOp c.desc = 0x60) && c.dispatched && !c.decided).length

/-- Stream order and fences of R275 and R276. -/
def orderMet (s : State) (c : Cmd) : Bool :=
  let earlier := s.front.cmds.filter fun x => x.uid < c.uid && !x.decided && dStream x.desc == dStream c.desc
  if bit (odv s 0x2200 1) (dStream c.desc) || dFence c.desc then earlier.isEmpty else !earlier.any fun x => dFence x.desc

/-- An earlier collective of the group is still in flight (R355). -/
def groupBusy (s : State) (c : Cmd) : Bool :=
  isColl c.desc && s.front.cmds.any fun x => isColl x.desc && collG x.desc == collG c.desc && x.uid < c.uid && !x.decided

/-- The command may be dispatched, or completed as rejected. -/
def dispatchable (s : State) (c : Cmd) : Bool :=
  !c.dispatched && !c.decided && c.ending.isNone && (c.argDone || rejectedEarly c) && c.waits.isEmpty && decide (s.clocks.fc ≥ c.readyFc)
  && orderMet s c && s.front.switching.isNone
  && (c.reject.isSome
      || ((!siltKind c.desc || decide (siltQueue s < 32)) && !groupBusy s c && (dOp c.desc != 0x22 || !tableBusy s (cTable c.desc))))

/-- The command dispatched next: streams in turn, the oldest dispatchable command of each (R18). -/
def nextDispatch (s : State) : Option Cmd :=
  let cs := s.front.cmds.filter (dispatchable s)
  ((List.range 64).map fun i => (s.front.lastStream + 1 + i) % 64).findSome? fun st => cs.find? fun c => dStream c.desc = st

/-- Work items of a command as it is dispatched. -/
def firstItems (s : State) (c : Cmd) : Nat :=
  let d := c.desc
  match dOp d with
  | 0x01 | 0x02 => gItems d
  | 0x10 => groupItems d
  | 0x13 => qTiles d * aQHeads d
  | 0x11 => bwdItems d
  | 0x12 => aKvHeads d
  | 0x18 => rBlocks d * aKvHeads d
  | 0x30 => scanItems d
  | 0x31 => mRanges s d
  | 0x32 => tRows d * tRanges d
  | _ => 0

/-- A failure found when the command's control data is read (R247, R433): status and `DETAIL`, and whether poison
was read. -/
def controlFault (s : State) (c : Cmd) : Option (Nat × Nat × Bool) :=
  let d := c.desc
  match dOp d with
  | 0x13 => if hostPoison s (slAddr (cSlot c 0)) (8 * fld d 372 7) then some (stDescInvalid, 0x400, true) else none
  | 0x21 =>
    if hostPoison s (slAddr (cSlot c 0)) (16 * nOps d) then some (stDescInvalid, 0x400, true)
    else if opReserved (opAt s c 0) then some (stDescInvalid, opDetail 0, false) else none
  | 0x31 =>
    if mTablePoison s c then some (stDescInvalid, 298, true)
    else if mTableBad s c then some (stDescInvalid, 298, false) else none
  | 0x32 => if hasSlot c 1 && (List.range (tRows d)).any fun r => hostPoison s (slAddr (cSlot c 1) + strideOf (cSlot c 1) 4 * r) 4 then some (stDescInvalid, 0x480, true) else none
  | _ => none

def append0 (d : Descriptor) : AppendWork :=
  { tokens := 0, pages := 0, sealed := [], opens := [], leaves := [], ready := false, promoted := none, page := fld d 317 16 }

def edit0 : EditWork :=
  { started := false, op := 0, sources := [], old := 0, root := 0, created := false, cut := 0, entries := [], raise := [], lower := [],
    opens := [] }

/-- What the command does at its dispatch. -/
def startWork (c : Cmd) (s : State) : State :=
  let d := c.desc
  match dOp d with
  | 0x20 | 0x23 => modCmd c.uid (fun c => { c with append := some (append0 d) }) s
  | 0x21 => modCmd c.uid (fun c => { c with edit := some edit0 }) s
  | 0x22 => pageDrop c s
  | 0x40 | 0x41 => startColl c s
  | 0x50 => startCopy c (modCmd c.uid (fun c => { c with countA := fld d 256 40 }) s)
  | 0x51 => startSilt c (modCmd c.uid (fun c => { c with countA := fld d 256 9 }) s)
  | 0x60 => startRelease c s
  | 0x61 => firstEval c s
  | 0x70 => recordHint d s
  | _ => modCmd c.uid (fun c => { c with itemTotal := firstItems s c }) s

/-- One command leaves the command table for its work (R275, R286). -/
def dispatchRun (c : Cmd) (s : State) : State :=
  let c := { c with dispatched := true, dispatchFc := s.clocks.fc }
  let s := putCmd c s
  match controlFault s c with
  | some (st, det, poison) => endCmd c.uid st det (if poison then flagCmd c.uid 3 s else s)
  | none => startWork c s

def dispatchOne (c : Cmd) (s : State) : State :=
  let s := { s with front := { s.front with lastStream := dStream c.desc } }
  match c.reject with
  | some (st, det) => decideCmd c.uid st det s
  | none => dispatchRun c s

/-- R275: the scheduler dispatches one command; an injected command-table parity error strikes instead (R454). -/
def execCommandDispatch (s : State) : Out :=
  match nextDispatch s with
  | none => .next s
  | some c =>
    event (live s) s
      (if (fires 0x20 0 s).isSome then report 0x20 0 0 6 0 none true (disarm 0x20 0 s) else apexProgress (dispatchOne c s))

/-! ### Placement (R179, R286) -/

/-- Work items are split from the command. -/
def splits (c : Cmd) : Bool := c.dispatched && acting c && decide (c.itemNext < c.itemTotal)

/-- R179: a waiting request's length bucket, ⌈log₂ N⌉. -/
def lenBucket (s : State) (c : Cmd) : Nat := if c.walked then (pow2ceil (cachedN s c 0)).log2 else 64

/-- Insert a request: longer buckets first, then acceptance. -/
def bucketIns (s : State) (c : Cmd) : List Cmd → List Cmd
  | [] => [c]
  | x :: r => if lenBucket s x < lenBucket s c then c :: x :: r else x :: bucketIns s c r

/-- Commands with the requests in bucket order, in the places that requests have. -/
def byBucket (s : State) (cs : List Cmd) : List Cmd :=
  let q := (cs.filter fun c => dOp c.desc = 0x12).foldl (fun l c => bucketIns s c l) []
  (cs.foldl (fun (a : List Cmd × List Cmd) c =>
    if dOp c.desc = 0x12 then (a.1 ++ (a.2.head?.toList), a.2.drop 1) else (a.1 ++ [c], a.2)) ([], q)).1

/-- Commands to split, in order of acceptance; requests take each other's places by bucket. -/
def splitOrder (s : State) : List Cmd := byBucket s (s.front.cmds.filter splits)

/-- Pending items in the order of their commands' placement; items of one command keep their order. -/
def placeOrder (s : State) : List (Nat × Nat) :=
  let us := ((s.front.items.map (·.1)).eraseDups).filterMap (cmdOf s)
  (byBucket s us).flatMap fun c => s.front.items.filter fun i => i.1 = c.uid

/-- A (range, head) that the request has (R178), or a range that the row has (R255). -/
def itemExists (s : State) (c : Cmd) (item : Nat) : Bool :=
  let d := c.desc
  match dOp d with
  | 0x12 => !c.walked || decide (item / aKvHeads d < rangeCount s c (item % aKvHeads d))
  | 0x32 => decide (item % tRanges d < rowRanges s (homeBlock s 0) c (item / tRanges d))
  | _ => true

/-- Split items of one command into the pending list while it has room; items that it does not have count as done. -/
def splitCmd (s : State) (c : Cmd) : State :=
  let n := min (c.itemTotal - c.itemNext) (4096 - s.front.items.length)
  let is := (List.range n).map fun i => c.itemNext + i
  let real := is.filter (itemExists s c)
  let s := { s with front := { s.front with items := s.front.items ++ real.map fun i => (c.uid, i) } }
  itemDone c.uid (is.filter fun i => !itemExists s c i) (modCmd c.uid (fun c => { c with itemNext := c.itemNext + n }) s)

def refill (s : State) : State := (splitOrder s).foldl splitCmd s

/-- Output slots that may name the scratchpad; the others are inputs (R444). -/
def spInput (c : Cmd) : Bool :=
  (List.range 16).any fun i => slLoc (cSlot c i) = 1 && !(((dOp c.desc = 1 || dOp c.desc = 2) && [3, 6, 11, 12].contains i) || (dOp c.desc = 0x50))

/-- Tiles of a part larger than one tile stay on one block: the part's key (R134, R145, R147). -/
def bandKey (s : State) (c : Cmd) (item : Nat) : Option Nat :=
  if (dOp c.desc = 1 ∨ dOp c.desc = 2) ∧ !gChain c.desc then
    (let l := partTiles c.desc (statCut s c.desc) (gTile c.desc item).tile
     if l.length > 1 then some (listMin l) else none)
  else none

/-- The block has been given an item already that must stay with this one; a row of TOPK goes to at most 64 blocks (R255). -/
def bandFits (s : State) (b : Nat) (c : Cmd) (item : Nat) : Bool :=
  if dOp c.desc = 0x32 then
    (let n := tRanges c.desc
     let bs := ((c.bands.filter fun e => e.1 / n = item / n).map (·.2)).eraseDups
     bs.contains b || decide (bs.length < 64))
  else
    match bandKey s c item with
    | some k => (match c.bands.find? fun e => e.1 = k with | some e => e.2 == b | none => true)
    | none => true

/-- Can the block take an item of the command? -/
def blockAble (s : State) (b : Nat) (c : Cmd) (item : Nat) : Bool :=
  let x := blockAt s b
  blockPresent s b && !x.retired && !x.inReset && !x.testing && !x.gated && !marked (stepInForce s) b && !blockFrozen s b
  && decide (x.feed.length < 32)
  && (!x.spLost || !spInput c)
  && (dOp c.desc != 0x12 || c.packGo) && bandFits s b c item

/-! ### Row groups (R168, R171) -/

/-- A command whose row groups go to blocks longest first: a causal or windowed ATTN_FWD (R171). -/
def ranked (d : Descriptor) : Bool := dOp d = 0x10 && (bit (aMask d) 0 || bit (aMask d) 1)

/-- Length of a row group: its fed key tiles times its row blocks. -/
def groupLength (s : State) (c : Cmd) (item : Nat) : Nat :=
  let n := rowsOfItem c.desc item
  (numSet ((List.range n).flatMap fun r => fedTiles s (homeBlock s 0) c item r)).length * n

/-- The first row block of a row group: query tile and head. -/
def groupFirst (d : Descriptor) (item : Nat) : Nat × Nat := (groupRows d item).headD (0, 0)

/-- A row group in its place: longer ones first, then the lower query tile, then the lower head. -/
def rankIns (d : Descriptor) (len : Nat → Nat) (i : Nat) : List Nat → List Nat
  | [] => [i]
  | k :: r =>
    let a := groupFirst d i
    let b := groupFirst d k
    if len k < len i || (len k == len i && (a.1 < b.1 || (a.1 == b.1 && a.2 < b.2))) then i :: k :: r else k :: rankIns d len i r

/-- Work items in the order in which they are given to blocks. -/
def rankOrder (s : State) (c : Cmd) : List Nat :=
  let ls := (List.range (groupItems c.desc)).map fun i => (i, groupLength s c i)
  ls.foldl (fun l i => rankIns c.desc (fun k => (ls.getD k (0, 0)).2) i.1 l) []

/-- The work item in a place of that order; the pending list holds places. -/
def placedItem (s : State) (c : Cmd) (place : Nat) : Nat := if ranked c.desc then (rankOrder s c).getD place place else place

/-- The place of a work item. -/
def placeOf (s : State) (c : Cmd) (item : Nat) : Nat := if ranked c.desc then (rankOrder s c).findIdx (· = item) else item

/-- Work that the block has been given of the command. -/
def loadOf (c : Cmd) (b : Nat) : Nat := tget 0 c.loads b

/-- Key/value head of an attention item. -/
def itemHead (d : Descriptor) (item : Nat) : Nat :=
  if dOp d = 0x11 then
    (let x := bItem d item
     if x.kind = 0 ∨ x.kind = 4 then (bMember x 0).2 / aGroup d else (bMember x 0).2)
  else item % aKvHeads d

/-- Where a command notes that a region has row groups of a head. -/
def headKey (kh r : Nat) : Nat := 2 ^ 32 + 8 * kh + r

/-- The block may be given the item: of a ranked command, the least loaded block that can take it, the lower one of two
(R171); of other attention, a block of a region that has the head already while one there can take it (R168). -/
def blockTakes (s : State) (b : Nat) (c : Cmd) (item : Nat) : Bool :=
  blockAble s b c item
  && (if ranked c.desc then
        !(presentBlocks s).any fun k => (decide (loadOf c k < loadOf c b) || (loadOf c k == loadOf c b && decide (k < b))) && blockAble s k c item
      else if dOp c.desc = 0x10 || dOp c.desc = 0x11 || dOp c.desc = 0x12 then
        (let kh := itemHead c.desc item
         thas (headKey kh (b / 40)) c.bands
         || !(presentBlocks s).any fun k => thas (headKey kh (k / 40)) c.bands && blockAble s k c item)
      else true)

/-- What placement notes in the command: bands, ranges, regions of a head, and the block's load. -/
def notePlace (s : State) (b : Nat) (c : Cmd) (item : Nat) : Cmd :=
  let key : Option (Nat × Nat) :=
    match dOp c.desc with
    | 0x10 | 0x11 | 0x12 => some (headKey (itemHead c.desc item) (b / 40), 1)
    | 0x32 => some (item, b)
    | _ => (bandKey s c item).map fun k => (k, b)
  let c := match key with
    | some k => { c with bands := tput k.1 k.2 c.bands }
    | none => c
  { c with loads := tput b (loadOf c b + (if ranked c.desc then groupLength s c item else 1)) c.loads }

/-- The item's command still needs a walk request. -/
def wantsWalk (s : State) (c : Cmd) : Bool :=
  needsWalk c.desc && c.pin.isNone && !c.walked && !s.regions.any fun e => e.2.walks.any fun w => w.uid == c.uid

/-- R17: the crossbar weight follows the work items the block holds. -/
def weightOf (n : Nat) : Nat := max 1 (min 8 (ceilDiv n 4))

/-- The item in a place of its command's order enters a block's feed queue. -/
def feedItem (b : Nat) (c : Cmd) (place : Nat) (s : State) : State :=
  let r := b / 40
  let item := placedItem s c place
  let noted := notePlace s b c item
  let inj := fires 0x13 r s
  let s := if inj.isSome then report 0x13 r 0 2 0 none true (disarm 0x13 r s) else s
  let s := { s with front := { s.front with items := s.front.items.filter fun i => !(i.1 == c.uid && i.2 == place) } }
  let s := modCmd c.uid (fun c => { c with bands := noted.bands, loads := noted.loads }) s
  let s := modBlock b (fun x => { x with feed := x.feed ++ [(c.uid, item)], weight := weightOf (x.feed.length + 1) }) s
  let shape := if dOp c.desc = 1 ∨ dOp c.desc = 2 then (gShape c.desc).1 else 1
  trace 0x10 1 b (pack [(9, dTag c.desc), (32, item), (4, shape), (32, if dOp c.desc = 1 ∨ dOp c.desc = 2 then (gTile c.desc item).tile else item)]) s

/-- The first pending item that region's walk queue or block b can take. -/
def placeFirst (s : State) (b : Nat) : Option (Cmd × Nat) :=
  (placeOrder s).findSome? fun i =>
    match cmdOf s i.1 with
    | none => none
    | some c =>
      if wantsWalk s c then (if (regionAt s (b / 40)).walks.length < 64 then some (c, i.2) else none)
      else if needsWalk c.desc && !c.walked && ranked c.desc then none
      else if blockTakes s b c (placedItem s c i.2) then some (c, i.2) else none

/-- R286: an item waiting in the pending list enters a walk or feed queue that has room. -/
def placeItem (b : Nat) (s : State) : Option State :=
  let s := refill s
  (placeFirst s b).map fun p =>
    if wantsWalk s p.1 then
      modRegion (b / 40) (fun r => { r with walks := r.walks ++ [{ uid := p.1.uid, next := 0, last := 65536 }] }) s
    else feedItem b p.1 p.2 s

def execWorkItemPlace (b : Nat) (s : State) : Out :=
  match placeItem b s with
  | none => .next s
  | some t => event (live s && blockPresent s b) s t

/-! ### Completions (R279, R280, R299, R360) -/

/-- R279: every command accepted before a FENCE, in the streams of its mask, has completed. -/
def fenceMet (s : State) (c : Cmd) : Bool :=
  !s.front.cmds.any fun x => x.uid < c.uid && !x.decided && bit (fld c.desc 256 64) (dStream x.desc)

/-- Units of work that the command's results consist of. -/
def unitsOfWork (c : Cmd) : Nat :=
  match dOp c.desc with
  | 0x01 | 0x02 => gUnits c.desc
  | 0x10 => qTiles c.desc * aQHeads c.desc
  | 0x30 => sLanes c.desc
  | _ => c.itemTotal

/-- Nothing of the command waits in the pending list or stands in a block: a replayed item may still be writing again what
it had written before (R443). -/
def noWorkLeft (s : State) (uid : Nat) : Bool :=
  !(s.front.items.any fun i => i.1 == uid)
  && s.blocks.all fun e => !(e.2.feed.any (fun i => i.1 == uid) || e.2.job.any (fun j => j.uid == uid)
    || e.2.banks.any (fun k => k.st != 0 && k.uid == uid) || e.2.epi.any (fun x => x.uid == uid) || e.2.bvu.any fun x => x.uid == uid)

/-- All the command's work has ended. -/
def workDone (s : State) (c : Cmd) : Bool :=
  match dOp c.desc with
  | 0x20 | 0x23 => appendDone s c
  | 0x21 => editDone c
  | 0x40 | 0x41 => collDone s c && decide (c.done.length ≥ c.itemTotal)
  | 0x61 => c.met && decide (c.invEnd = 0)
  | 0x62 => fenceMet s c
  | 0x22 | 0x50 | 0x51 | 0x60 | 0x70 | 0x7F => true
  | _ => (!needsWalk c.desc || c.walked) && decide (c.itemTotal > 0) && decide (c.done.length ≥ unitsOfWork c) && noWorkLeft s c.uid

/-- The completion can be decided: the work is done and its writes are visible, or the command has ended. -/
def decidable (s : State) (c : Cmd) : Bool :=
  !c.decided && decide (c.writesOut = 0)
  && (c.ending.isSome || (c.dispatched && workDone s c && decide (c.acksOut = 0) && decide (s.clocks.fc ≥ c.readyFc)))

/-- R360: a collective that ends early, for whatever reason, tells the group; one that a FAILED group ended at its dispatch has
not begun (log entry 21). -/
def tellGroup (c : Cmd) (s : State) : State :=
  if isColl c.desc && c.dispatched && c.ending.isSome && ((groupAt s (collG c.desc)).st = 1 || c.coll.isSome) then
    failGroup (collG c.desc) (signalFailure (collG c.desc) s)
  else s

/-- `COUNT_A` of a collective: the 64-byte units received from the other members (R263). -/
def countReceived (c : Cmd) (s : State) : State :=
  match c.coll with
  | some k => modCmd c.uid (fun c => { c with countA := ((k.got.eraseIdx (groupAt s (collG c.desc)).rank).map fun n => ceilDiv n 64).sum }) s
  | none => s

/-- R280, R284, R285, R301: the decision. -/
def complete (c : Cmd) (s : State) : State :=
  let s := countReceived c s
  match c.ending with
  | some (st, det) => decideCmd c.uid st det (tellGroup c (spoilOutputs c st s))
  | none => decideCmd c.uid (endStatus c) noDetail (spoilOverlap c s)

def execCompletionDecided (tag : Nat) (s : State) : Out :=
  match byTag s tag with
  | none => .next s
  | some c => event (live s && decidable s c) s (complete c s)

/-- R29: the switch ends; dispatch resumes and a ramp may open (R416). -/
def execProfileSwitchComplete (s : State) : Out :=
  match s.front.switching with
  | none => .next s
  | some p =>
    event (live s) s (wake true (odBump 0x2000 3 1 (odPut 0x2000 2 p { s with front := { s.front with switching := none } })))

end Sys2Proof.Machine
end

