-- ==== Sys2Proof/Machine/Values.lean ====
section
/-! DEFINITION. What a read of a dictionary entry returns (R373 to R379, R384, R389, R487): stored values, computed
values and DOMAIN entries, with the checks of a read. -/

namespace Sys2Proof.Machine

/-! ### Abort codes (Table 13.7) -/

def abFrameCrc : Nat := 0x01000001
def abBadFrame : Nat := 0x01000002
def abBusy : Nat := 0x01000003
def abSeqError : Nat := 0x01000004
def abSessionTimeout : Nat := 0x01000005
def abUseSegmented : Nat := 0x01000006
def abSnapshotSize : Nat := 0x01000007
def abNoEntry : Nat := 0x02000001
def abNoSubindex : Nat := 0x02000002
def abReadOnly : Nat := 0x02000003
def abWriteOnly : Nat := 0x02000004
def abTypeLength : Nat := 0x02000005
def abRegionAbsent : Nat := 0x02000006
def abRangeHigh : Nat := 0x03000001
def abRangeLow : Nat := 0x03000002
def abRangeInvalid : Nat := 0x03000003
def abReservedBits : Nat := 0x03000004
def abStateForbids : Nat := 0x04000001
def abValueConflict : Nat := 0x04000002
def abTableBusy : Nat := 0x04000003
def abPoolInUse : Nat := 0x04000004
def abPortState : Nat := 0x04000005
def abRecovering : Nat := 0x04000006
def abLocked : Nat := 0x05000001
def abLifecycle : Nat := 0x05000002

/-! ### Computed values -/

/-- Commands that hold the bias bank, or the routing bank, that is not current (R315, R317). -/
def biasOtherHeld (s : State) : Nat :=
  (s.front.cmds.filter fun c => !c.decided && (dOp c.desc = 0x10 || dOp c.desc = 0x11 || dOp c.desc = 0x12)
    && c.biasBank != odv s 0x3100 1).length

def routeOtherHeld (s : State) : Nat :=
  (s.front.cmds.filter fun c => !c.decided && dOp c.desc = 0x31 && c.routeBank != odv s 0x4300 1).length

/-- `FUNC_STATE` (R287). -/
def funcState (s : State) (c : Nat) : Nat :=
  if bit (odv s 0x2100 1) c then 1
  else if s.front.cmds.any fun x => opClass (dOp x.desc) = some c then 2 else 0

/-- `BOOT_STATUS` (Table 16.11). -/
def bootStatus (s : State) : Nat := pack [(4, s.boot.stage), (4, s.boot.failure), (1, b2n s.boot.fallback), (7, 0)]

def acquiresWaiting (s : State) : Nat :=
  (s.front.cmds.filter fun c => dOp c.desc = 0x61 && c.dispatched && !c.met && !c.decided && c.ending.isNone).length

/-- Seconds left of a timed unlock, a part of one counted whole (log entry 26). -/
def unlockLeft (s : State) : Nat :=
  if s.sec.grant = 0 ∨ s.sec.duration = 0 then 0
  else ceilDiv (s.sec.grantRef + s.sec.duration * 100000000 - refNow s) 100000000

/-- AC of all present blocks: 0 busy, else the idle cause of that number. -/
def acTotal (s : State) (c : Nat) : Nat :=
  ((presentBlocks s).map fun b => if c = 0 then (blockAt s b).busyAc else (blockAt s b).idleAc.getD c 0).sum

/-- The value most recently accepted of an RWQ entry, pending or not (Table 13.2). -/
def odAccepted (s : State) (idx sub : Nat) : Nat :=
  match s.mgmt.rwq.reverse.find? fun w => w.key = odKey idx sub with
  | some w => w.value
  | none => odv s idx sub

/-- Computed values of indices below 4000h; none where the stored value is the value. -/
def odLow (s : State) (idx sub : Nat) : Option Nat :=
  match idx with
  | 0x1001 => some (errorRegister s)
  | 0x1018 => if sub = 4 then some s.sec.serial else if sub = 5 then some s.sec.fwVersion else none
  | 0x1F80 =>
    if sub = 1 then some s.mgmt.st else if sub = 3 then some (b2n s.mgmt.stopPending)
    else if sub = 5 then some (bootStatus s) else none
  | 0x1F81 => if sub = 1 then some s.mgmt.rwq.length else none
  | 0x2010 =>
    if sub = 1 then some (fld s.boot.straps 3 8) else if sub = 2 then some s.boot.fuseDisable.toNat
    else if sub = 3 then some s.boot.present.toNat else some (regionCount s)
  | 0x2100 => if sub ≥ 0x10 then some (funcState s (sub - 0x10)) else none
  | 0x2200 =>
    if sub = 3 then some s.front.cmds.length else if sub = 4 then some ((s.front.nextUid + 2 ^ 32 - 1) % 2 ^ 32) else none
  | 0x2300 =>
    if sub = 1 then some (b2n (s.boot.pll && !s.boot.dead)) else if sub = 2 then some (apexStep s)
    else if sub = 4 then some s.power.vidAck else none
  | 0x2400 => if sub = 2 then some (acquiresWaiting s) else none
  | 0x3100 => if sub = 3 then some (biasOtherHeld s) else none
  | 0x3200 =>
    if sub = 4 then some s.paged.leafFree
    else if 0x40 ≤ sub ∧ sub < 0x48 then some (tget 0 s.paged.free (sub - 0x40))
    else if 0x50 ≤ sub ∧ sub < 0x58 then some (deferred s (sub - 0x50))
    else if sub ≥ 0x70 then some (shrinkState s (sub - 0x70)) else none
  | 0x3220 => if sub = 4 then some (s.paged.peatOut.headD (peatPosted s)) else none
  | 0x3300 =>
    if sub = 4 then some (pinNums s).length else if sub = 7 then some s.paged.live.length else none
  | _ => none

/-- Computed values of indices from 4000h on. -/
def odHigh (s : State) (idx sub : Nat) : Option Nat :=
  match idx with
  | 0x4000 =>
    if sub = 5 then
      some (pack [(15, coordOf s (myNode s) 0), (1, 0), (15, coordOf s (myNode s) 1), (1, 0), (15, coordOf s (myNode s) 2)])
    else none
  | 0x4010 => if 0x20 ≤ sub ∧ sub < 0x30 then some (linkAt s (sub - 0x20)).st else none
  | 0x4104 => some (if (groupAt s sub).st = 1 ∨ (groupAt s sub).st = 2 then (groupAt s sub).rank else 0xFFFF)
  | 0x4105 => some (groupAt s sub).st
  | 0x4106 => some (groupAt s sub).seqNo
  | 0x4107 => some (groupAt s sub).lastMember
  | 0x4108 => some (groupAt s sub).waitFc
  | 0x4300 => if sub = 3 then some (routeOtherHeld s) else none
  | 0x5000 =>
    if sub = 2 then some (capInForce s) else if sub = 3 then some s.power.estimate else if sub = 4 then some s.power.code
    else if sub = 5 then some (s.power.energyNj / 1000000000) else none
  | 0x5010 => if sub = 3 then some s.power.filler else none
  | 0x5100 =>
    if sub = 1 then some s.power.trim else if sub = 2 then some s.power.vFuse
    else if sub = 5 then some (s.power.vFuse - s.power.trim) else none
  | 0x5200 =>
    if sub = 1 then some (stepInForce s) else if sub = 5 then some (s.power.tempMax % 65536).toNat
    else if sub = 7 then some (stepCause s) else none
  | 0x6000 => if sub = 2 then some s.rel.count else none
  | 0x7000 => some (acTotal s (if sub = 13 then 0 else sub))
  | 0x8000 => some s.sec.lifecycle
  | 0x8100 => if sub = 1 then some 6 else none
  | 0x8200 =>
    if 0x40 ≤ sub ∧ sub < 0x46 then
      some (b2n (thas 0 (linkAt s (sub - 0x40)).slots) + 2 * b2n (thas 1 (linkAt s (sub - 0x40)).slots))
    else none
  | 0x8300 =>
    if sub = 3 then some (b2n (s.sec.grant != 0)) else if sub = 6 then some s.sec.grant
    else if sub = 7 then some (unlockLeft s) else none
  | _ => none

/-- The value of an entry of at most 8 bytes as a read returns it. -/
def odNow (s : State) (idx sub : Nat) : Nat :=
  match odLow s idx sub with
  | some v => v
  | none =>
    match odHigh s idx sub with
    | some v => v
    | none => odAccepted s idx sub

/-! ### DOMAIN and VSTR entries -/

/-- A bit set over blocks as 40 bytes. -/
def blockMap (s : State) (f : Block → Bool) : List Byte :=
  toBytes 40 ((presentBlocks s).foldl (fun m b => if f (blockAt s b) then m + 2 ^ b else m) 0)

/-- `ERROR_LOG`: entry n at slot (n − 1) mod 1 024 (R451). -/
def errorLog (s : State) : List Byte :=
  (List.range 1024).flatMap fun i =>
    match s.rel.log.find? fun e => (e.1 + 1023) % 1024 = i with
    | some e => toBytes 64 e.2.toNat
    | none => List.replicate 64 0

/-- `FLAG_SLOTS` (Table 10.4). -/
def flagSlots (s : State) : List Byte := (List.range 4096).flatMap fun i => toBytes 8 (flagWord (flagAt s i))

/-- `BLOCK_COUNTERS`. -/
def blockCounters (s : State) : List Byte :=
  (List.range 320).flatMap fun b =>
    if blockPresent s b then
      let x := blockAt s b
      ((acCounts x ++ [x.splitSteps]).flatMap fun n => toBytes 8 n) ++ List.replicate 16 0
    else List.replicate 128 0

/-- `INJECT_ARMED`: bit c while point c is armed. -/
def injectArmed (s : State) : List Byte :=
  toBytes 32 ((List.range 256).foldl (fun m c => if s.rel.armed.any fun a => a.1 == c then m + 2 ^ c else m) 0)

/-- The unlock challenge (Table 17.5). -/
def challengeBytes (s : State) : List Byte :=
  toBytes 64 (pack [(384, s.sec.nonce.toNat), (64, s.sec.serial), (8, s.sec.lifecycle), (24, 0), (32, s.sec.attempts)])

/-! ### The accumulator window (R498) -/

/-- The block, bank and cell that `ACC_SELECT` names. -/
def winBlock (s : State) : Nat := bits (odv s 0x9000 1) 0 9
def winBank (s : State) : Nat := bits (odv s 0x9000 1) 9 2
def winCell (s : State) : Nat := bits (odv s 0x9000 1) 11 8

/-- The bank that the window shows; a free one has nothing to show. -/
def winGroup (s : State) : Option Bank :=
  let k := (blockAt s (winBlock s)).banks.getD (winBank s) bank0
  if k.st = 0 then none else some k

/-- Columns of a group's tile outside matrix products: 64 of a score or score-like tile, else those of its output group. -/
def winCols (c : Cmd) (k : Bank) : Nat :=
  let d := c.desc
  let q := k.group - 2 ^ 32
  match dOp d with
  | 0x10 | 0x12 => if k.group < 2 ^ 32 then 64 else min 64 (aD d - 64 * (q % chGroups d))
  | 0x11 =>
    if k.group < 2 ^ 32 then 64
    else let gs := bGroups d (bItem d k.item); min 64 (aD d - 64 * gs.getD (q % gs.length) 0)
  | 0x30 =>
    if k.group < 2 ^ 32 then 64 else if k.group < 2 ^ 40 then (sTileAt d (q % sTau d)).2.2.2 else min 64 (sP d - 64 * (k.group % 4))
  | 0x18 => k.acc.tile.vals.length / max 1 (aGroup d)
  | _ => 64

/-- Problems, rows and columns of a group's tile. -/
def winShape (c : Cmd) (k : Bank) : Nat × Nat × Nat :=
  let n := k.acc.tile.vals.length
  if dOp c.desc = 1 ∨ dOp c.desc = 2 then
    let t := itemTile c.desc k.item (if k.group < 2 ^ 32 then 0 else (k.group - 2 ^ 32) % max 1 (itemTiles c.desc k.item).length)
    (t.np, t.nr, n / max 1 (t.np * t.nr))
  else (1, n / max 1 (winCols c k), winCols c k)

/-- The cube of the selected cell: problem and cube number, by the shape of the group. -/
def winCube (c : Cmd) (cell : Nat) : Option (Nat × Nat) :=
  let shape := if dOp c.desc = 1 ∨ dOp c.desc = 2 then (gShape c.desc).1 else 1
  if shape = 1 then some (0, cell) else Config.cubeOf shape cell

/-- The 16 outputs of the selected bank; none where the manual calls them undefined. -/
def winOutputs (s : State) : Option (List Word64) :=
  match winGroup s with
  | none => none
  | some k =>
    match cmdOf s k.uid with
    | none => none
    | some c =>
      match winCube c (winCell s) with
      | none => none
      | some (p, q) =>
        let z := winShape c k
        let edge := if dOp c.desc = 1 ∨ dOp c.desc = 2 then gEdge c.desc / 4 else 16
        some ((List.range 16).map fun i =>
          let row := 4 * (q / edge) + i / 4
          let col := 4 * (q % edge) + i % 4
          if p < z.1 ∧ row < z.2.1 ∧ col < z.2.2 then k.acc.tile.vals.getD ((p * z.2.1 + row) * z.2.2 + col) 0 else 0)

/-- R32, R498: the window's 128 bytes; of an absent block, which `ACC_SELECT` names only by its default, zeros. -/
def accWindowBytes (s : State) : List Byte :=
  if !blockPresent s (winBlock s) then List.replicate 128 0
  else match winOutputs s with
  | some ws => ws.flatMap fun w => toBytes 8 w.toNat
  | none => freeBytes s 128

/-- Bytes of the owner's public key, zero until written. -/
def ownerPub (s : State) : List Byte := if s.sec.ownerPub = [] then List.replicate 96 0 else s.sec.ownerPub

/-- The bytes of a DOMAIN or VSTR entry. -/
def odDomain (s : State) (idx sub : Nat) : List Byte :=
  match idx with
  | 0x1008 => [0x4A, 0x6F, 0x71, 0x75, 0x65, 0x6C, 0x20, 0x4A, 0x34]
  | 0x1009 => [0x42, 0x31]
  | 0x2410 => flagSlots s
  | 0x6000 => errorLog s
  | 0x6100 => injectArmed s
  | 0x6200 =>
    if sub = 2 then blockMap s (·.retired) else if sub = 3 then
      toBytes 40 ((presentBlocks s).foldl (fun m b => if bit (odAccepted s 0x6200 3) b then m + 2 ^ b else m) 0) else blockMap s (·.spLost)
  | 0x7110 => blockCounters s
  | 0x8100 => if sub = 2 then toBytesBE 96 Config.devicePubKey.toNat else s.sec.cert
  | 0x8300 => if sub = 1 then challengeBytes s else ownerPub s
  | 0x9000 => accWindowBytes s
  | _ => []

/-- The bytes of an entry. -/
def odBytes (s : State) (r : OdRow) (idx sub : Nat) : List Byte :=
  if tySize r.ty = 0 then odDomain s idx sub else toBytes (tySize r.ty) (odNow s idx sub)

/-! ### Checks of a read -/

/-- R376 step 1: the entry, or the code that says what is missing. -/
def odExists (idx sub : Nat) : Sum Nat OdRow :=
  match odFind idx sub with
  | some r => .inr r
  | none => .inl (if odIndexExists idx then abNoSubindex else abNoEntry)

/-- R380, R384: reads that the dictionary state allows; the abort code otherwise. -/
def readState (s : State) (idx : Nat) : Option Nat :=
  if s.mgmt.recovering then (if idx = 0x1001 ∨ idx = 0x1F80 then none else some abRecovering)
  else if s.mgmt.st = 0 ∧ !(0x1000 ≤ idx ∧ idx ≤ 0x1FFF) then some abStateForbids
  else none

/-- Grant bit of a debug function (Table 17.6) that is closed: DEPLOYED without it (R487). -/
def debugClosed (s : State) (i : Nat) : Bool := s.sec.lifecycle = 2 && !bit s.sec.grant i

/-- The checks of a read in order: the row, or the abort code. `segmented` is false for READ and SNAPSHOT (R389). -/
def readCheck (s : State) (segmented : Bool) (idx sub : Nat) : Sum Nat OdRow :=
  match odExists idx sub with
  | .inl e => .inl e
  | .inr r =>
    if !segmented && tySize r.ty = 0 && decide (r.hi > 8) then .inl abUseSegmented
    else if r.acc ≥ 4 then .inl abWriteOnly
    else if idx = 0x9000 ∧ debugClosed s 0 then .inl abLocked
    else
      match readState s idx with
      | some e => .inl e
      | none => .inr r

/-- A read draws a free value: the window shows undefined bits. -/
def afterRead (idx sub : Nat) (s : State) : State := if idx = 0x9000 ∧ sub = 2 then drawn s else s

end Sys2Proof.Machine
end

