-- ==== Sys2Proof/Machine/Boundary.lean ====
section
/-! DEFINITION. The quiescent boundary (R11, R29, R225, R351, R352, R368, R369, R378, R381): pending writes take
effect in order, and the entries that are applied together are checked. -/

namespace Sys2Proof.Machine

/-- No command is in flight, none is accepted, and no profile switch or warm reset runs (R11, R378). -/
def quiescent (s : State) : Bool := live s && s.front.cmds.isEmpty && s.front.switching.isNone && !s.mgmt.recovering

/-- The keys that a boundary applies. -/
def touched (ws : List RwqWrite) (lo n : Nat) : Bool := ws.any fun w => decide (lo ≤ w.key) && decide (w.key < lo + n)

/-- Take the entries of a range from an older table of values (R377). -/
def keepOld (old : List (Nat × Nat)) (lo n : Nat) (new : List (Nat × Nat)) : List (Nat × Nat) :=
  (old.filter fun e => decide (lo ≤ e.1) && decide (e.1 < lo + n)).foldl (fun t e => tput e.1 e.2 t)
    (new.filter fun e => !(decide (lo ≤ e.1) && decide (e.1 < lo + n)))

/-- A failed check at a boundary is logged (R377); Table 15.4 gives it no code (log entry 13). -/
def boundaryEvent (s : State) : State := report 0 0 0 0 0 none false s

/-- R351: the node entries, together. -/
def applyNode (old : List (Nat × Nat)) (ws : List RwqWrite) (s : State) : State :=
  let lo := odKey 0x4000 1
  if !touched ws lo 4 then s
  else if nodeCount s > 32768 ∨ myNode s ≥ nodeCount s then boundaryEvent { s with od := keepOld old lo 4 s.od }
  else s

/-- The member list of a group, read at the boundary. -/
def groupList (s : State) (g : Nat) : List Nat :=
  (List.range (odv s 0x4101 g)).map fun i => hostNat s (odv s 0x4100 g + 2 * i) 2

/-- Member ids of the READY groups below `g`. -/
def idsBelow (s : State) (g : Nat) : Nat :=
  ((s.groups.filter fun e => decide (e.1 < g) && e.2.st = 1).map fun e => e.2.members.length).sum

/-- R352: the checks of a group. -/
def groupGood (s : State) (g : Nat) (ms : List Nat) : Bool :=
  !hasDup ms && ms.all (fun n => decide (n < nodeCount s)) && ms.contains (myNode s) && decide (odv s 0x4102 g ≤ 4094)
  && decide (idsBelow s g + ms.length ≤ 65536) && !hostPoison s (odv s 0x4100 g) (2 * ms.length)

/-- R352: the entries of group `g` take effect: state, rank and counters anew, and its two flag slots cleared. -/
def applyGroup (g : Nat) (s : State) : State :=
  let n := odv s 0x4101 g
  let ms := groupList s g
  let good := groupGood s g ms
  let sync := odv s 0x4102 g
  let x : Group := if n = 0 then group0
    else { group0 with st := if good then 1 else 3, members := if good then ms else []
                     , rank := if good then ms.findIdx (fun m => m = myNode s) else 0xFFFF
                     , sync := sync, xchg := odv s 0x4103 g }
  let s := putGroup g x s
  resetFlag (sync + 1) (resetFlag sync s)

def applyGroups (ws : List RwqWrite) (s : State) : State :=
  (List.range 256).foldl (fun s g =>
    if [0x4100, 0x4101, 0x4102, 0x4103].any fun i => touched ws (odKey i g) 1 then applyGroup g s else s) s

/-! ### The stage map (R369, R370) -/

/-- First and last layer of a local stage. -/
def stageLo (v : Nat) : Nat := bits v 0 8
def stageHi (v : Nat) : Nat := bits v 8 8

/-- R369: the conflicts of a stage map, by a view of the dictionary. -/
def mapConflict (od : Nat → Nat → Nat) : Bool :=
  let n := od 0x4200 2
  let v := fun k => od 0x4200 (0x10 + k)
  decide (od 0x4101 (od 0x4200 1) > 64) || decide (od 0x4200 4 + 256 * n > 4096)
  || (List.range n).any (fun k => decide (stageLo (v k) > stageHi (v k)))
  || (List.range n).any fun k => (List.range k).any fun j =>
      decide (stageLo (v j) ≤ stageHi (v k)) && decide (stageLo (v k) ≤ stageHi (v j))

/-- R370: the pipeline flag slots of the map in effect. -/
def pipeSlots (s : State) : List Nat :=
  (List.range (odv s 0x4200 2)).flatMap fun k => (List.range 2).flatMap fun dir =>
    (List.range (odv s 0x4200 3)).map fun b => odv s 0x4200 4 + 256 * k + 128 * dir + b

/-- R369: the stage map, after the groups. -/
def applyMap (old : List (Nat × Nat)) (ws : List RwqWrite) (s : State) : State :=
  let lo := odKey 0x4200 0
  let g := groupAt s (odv s 0x4200 1)
  if !touched ws lo 0x20 then s
  else if mapConflict (odv s) ∨ g.st ≠ 1 then boundaryEvent { s with od := keepOld old lo 0x20 s.od }
  else
    let s := (List.range 8).foldl (fun s k =>
      odPut 0x4200 (0x20 + k) (if k < odv s 0x4200 2 then k * g.members.length + g.rank else 0) s) s
    (pipeSlots s).foldl (fun s i => resetFlag i s) s

/-! ### Pools, leaves and tables (R211, R225) -/

/-- R211, R225: the pools whose entries have been applied. -/
def applyPool (old : State) (ws : List RwqWrite) (p : Nat) (s : State) : State :=
  if !(touched ws (odKey 0x3200 (0x10 + p)) 1 || touched ws (odKey 0x3200 (0x20 + p)) 1
      || touched ws (odKey 0x3200 (0x30 + p)) 1 || touched ws (odKey 0x3200 1) 1) then s
  else
    let keep := poolOn old p && odv old 0x3200 (0x10 + p) = odv s 0x3200 (0x10 + p) && odv old 0x3200 1 = odv s 0x3200 1
      && odv old 0x3200 (0x20 + p) = odv s 0x3200 (0x20 + p) && poolFirst old p = poolFirst s p && decide (poolCount s p ≤ poolCount old p)
    let mine : Nat → Bool := fun f => decide (poolFirst old p ≤ f) && decide (f < poolFirst old p + poolCount old p)
    let s := if touched ws (odKey 0x3200 (0x30 + p)) 1 then odPut 0x3200 (0x60 + p) (poolCount s p) s else s
    let s := if keep then s else
      { s with paged := { s.paged with retired := s.paged.retired.filter fun r => !(r.1 == 0 && mine r.2.1)
                                     , dropping := setDel p s.paged.dropping } }
    initPool p keep s

/-- R225: the leaf pool. -/
def applyLeaves (ws : List RwqWrite) (s : State) : State :=
  if touched ws (odKey 0x3200 2) 2 then
    initLeaves { s with paged := { s.paged with retired := s.paged.retired.filter fun r => r.1 != 1 } }
  else s

/-- R214: tables whose roots are still LIVE where the entries now place them. -/
def applyRoots (ws : List RwqWrite) (s : State) : State :=
  if touched ws (odKey 0x3300 1) 3 then
    let good : Nat → Bool := fun t => decide (t / 256 < odv s 0x3300 1) && decide (t % 256 < odv s 0x3300 2)
      && rLive (rootNat s (t / 256) (t % 256)) && !rootBad s (t / 256) (t % 256)
    { s with paged := { s.paged with live := s.paged.live.filter good } }
  else s

/-! ### Profile, ports, retirement -/

/-- R29: a profile switch starts; every cache of every region is invalid. -/
def applyProfile (ws : List RwqWrite) (s : State) : State :=
  if touched ws (odKey 0x2000 1) 1 && odv s 0x2000 1 != odv s 0x2000 2 then
    let s := invalidateCaches s
    { s with front := { s.front with switching := some (odv s 0x2000 1) }
           , regions := s.regions.map fun e => (e.1, { e.2 with leaves := [], loam := [], psum := [], parts := [] }) }
  else s

/-- R343: a port is enabled or disabled. -/
def applyPort (ws : List RwqWrite) (p : Nat) (s : State) : State :=
  if !touched ws (odKey 0x4010 (0x10 + p)) 1 then s
  else if odv s 0x4010 (0x10 + p) = 0 then (if (linkAt s p).st = 0 then s else portDrop p 0 s)
  else if (linkAt s p).st = 0 ∧ ((linkAt s p).phyReady ∨ (encrypted s p ∧ !keyOk s p)) then startTraining p s
  else s

/-- OD 6200h.03: the blocks it names retire; with no block left the dictionary enters FAULT (R442). -/
def applyRetire (ws : List RwqWrite) (s : State) : State :=
  if touched ws (odKey 0x6200 3) 1 then
    let m := odv s 0x6200 3
    let s := (presentBlocks s).foldl (fun s b => if m.testBit b ∧ !(blockAt s b).retired then retireBlock b 0 s else s) s
    if allRetired s then enterFault s else s
  else s

/-- The whole boundary. -/
def boundary (s : State) : State :=
  let ws := s.mgmt.rwq
  let old := s
  let s := { s with od := ws.foldl (fun t w => tput w.key w.value t) s.od, mgmt := { s.mgmt with rwq := [] } }
  let s := if ws.isEmpty then s else odBump 0x1F81 2 1 s
  let s := applyMap old.od ws (applyGroups ws (applyNode old.od ws s))
  let s := applyRoots ws (applyLeaves ws ((List.range 8).foldl (fun s p => applyPool old ws p s) s))
  let s := applyProfile ws s
  let s := (List.range 6).foldl (fun s p => applyPort ws p s) s
  let s := topUp (applyRetire ws s)
  if s.mgmt.stopPending then setSt 3 { s with mgmt := { s.mgmt with stopPending := false } } else s

/-- R11: the first quiescent instant with something to apply. -/
def execQuiescentBoundary (s : State) : Out :=
  event (quiescent s && (!s.mgmt.rwq.isEmpty || s.mgmt.stopPending)) s (boundary s)

end Sys2Proof.Machine
end

