-- ==== Sys2Proof/Machine/Write.lean ====
section
/-! DEFINITION. Writes of dictionary entries (R375 to R378): the ordered checks, what each entry's write does, and
the rows that are writes of one entry. -/

namespace Sys2Proof.Machine

/-! ### Checks (R376) -/

/-- The first failed check. -/
def firstAbort (l : List (Option Nat)) : Nat := (l.findSome? id).getD 0

def abIf (b : Bool) (code : Nat) : Option Nat := if b then some code else none

/-- The hold of R496 is in force. -/
def unlockHeld (s : State) : Bool := decide (refNow s < s.sec.holdUntil)

/-- Step 3: lifecycle and unlock rules (R487, R492, R496). -/
def lifeAbort (s : State) (idx sub : Nat) : Option Nat :=
  if (idx = 0x6100 ∧ debugClosed s 1) ∨ (idx = 0x9000 ∧ debugClosed s 0) ∨ (idx = 0x8300 ∧ sub = 2 ∧ unlockHeld s) then some abLocked
  else abIf (idx = 0x8200 && decide (0x10 ≤ sub ∧ sub < 0x30) && s.sec.lifecycle = 3) abLifecycle

/-- Step 4: the dictionary state (R380, R384). -/
def stateAbort (s : State) (idx sub : Nat) : Option Nat :=
  if s.mgmt.recovering then some abRecovering
  else abIf (s.mgmt.st = 0 || (s.mgmt.st = 4 && !(idx = 0x6000 && sub = 3))) abStateForbids

/-- Step 5. -/
def lengthAbort (r : OdRow) (n : Nat) : Option Nat :=
  if tySize r.ty ≠ 0 then abIf (n != tySize r.ty) abTypeLength
  else abIf (decide (n = 0 ∨ n > (if r.ty = 13 then 64 else 65536))) abTypeLength

/-- Step 6: entries whose value names blocks (R32, R444, R498). -/
def absentAbort (s : State) (idx sub v : Nat) : Option Nat :=
  abIf ((idx = 0x9000 && sub = 1 && !blockPresent s (bits v 0 9)) || (idx = 0x6200 && sub = 6 && !blockPresent s v)) abRegionAbsent

/-- Step 7 (R10). -/
def reservedAbort (r : OdRow) (v : Nat) : Option Nat := abIf (tySize r.ty != 0 && (v ||| r.mask) != r.mask) abReservedBits

/-- Bounds and alignment of a row; sizes for a DOMAIN entry. -/
def rowRange (r : OdRow) (v n : Nat) : Option Nat :=
  if tySize r.ty = 0 then
    (if r.idx = 0x8300 ∧ r.sub = 2 then abIf (n != 96 && n != 128) abRangeInvalid
     else if r.lo = r.hi then abIf (n != r.hi) abRangeInvalid
     else if n > r.hi then some abRangeHigh else abIf (decide (n < r.lo)) abRangeLow)
  else if v > r.hi then some abRangeHigh
  else if v < r.lo ∨ (0 < v ∧ v < r.gap) then some abRangeLow
  else abIf (v % r.al != 0) abRangeInvalid

/-- Step 8: the row, and the ranges that depend on other entries (Tables 07.6, 07.15, 13.7, R453). -/
def rangeAbort (s : State) (r : OdRow) (sub v n : Nat) : Option Nat :=
  match rowRange r v n with
  | some e => some e
  | none =>
    if r.idx = 0x3200 ∧ 0x30 ≤ sub ∧ sub < 0x38 then abIf (decide (bits v 0 24 + bits v 24 25 > 2 ^ 24)) abRangeHigh
    else if r.idx = 0x3200 ∧ 0x60 ≤ sub ∧ sub < 0x68 then abIf (decide (v > poolCount s (sub - 0x60))) abRangeHigh
    else if r.idx = 0x3220 ∧ sub = 5 then abIf (!serialLe v (odNow s 0x3220 4)) abRangeHigh
    else if r.idx = 0x6100 ∧ sub = 1 then
      abIf (match kindInfo (bits v 0 8) with | some (_, _, _, i) => !i | none => true) abRangeInvalid
    else none

/-! ### Conflicts (step 9) -/

/-- Commits and descriptor writes of two banks (R161, R248, R316). -/
def tableAbort (s : State) (idx sub : Nat) : Option Nat :=
  if idx = 0x3100 ∨ idx = 0x4300 then
    let held : Bool := (if idx = 0x3100 then biasOtherHeld s else routeOtherHeld s) != 0
    let bank := if 0x20 ≤ sub then 1 else 0
    if sub = 2 then abIf held abTableBusy
    else abIf (decide (0x10 ≤ sub) && (bank == odv s idx 1 || held)) abTableBusy
  else none

/-- Some frame of the pool has a reference (R211). -/
def poolInUse (s : State) (p : Nat) : Bool :=
  poolOn s p && (List.range (poolCount s p)).any fun i => refsOf s (poolFirst s p + i) != 0

/-- R211, R213: pools and watermarks. -/
def poolAbort (s : State) (idx sub v : Nat) : Option Nat :=
  if idx = 0x3200 ∧ 0x10 ≤ sub ∧ sub < 0x38 then
    let p := sub % 8
    let lowers : Bool := decide (0x30 ≤ sub) && bits v 0 24 = bits (odAccepted s 0x3200 sub) 0 24
      && decide (bits v 24 25 < bits (odAccepted s 0x3200 sub) 24 25) && decide (bits v 24 25 ≤ odv s 0x3200 (0x60 + p))
      && shrinkState s p = 3
    abIf (poolInUse s p && !lowers) abPoolInUse
  else if idx = 0x3210 then
    abIf (if sub < 0x20 then decide (odv s 0x3210 (sub + 0x10) < v) else decide (v < odv s 0x3210 (sub - 0x10))) abValueConflict
  else none

/-- The most recently accepted values with one more write (R377). -/
def viewWith (s : State) (idx sub v : Nat) (i j : Nat) : Nat := if i = idx ∧ j = sub then v else odAccepted s i j

/-- R368, R369. -/
def layoutAbort (s : State) (idx sub v : Nat) : Option Nat :=
  let od := viewWith s idx sub v
  if idx = 0x4110 then abIf (decide (od 0x4110 1 + od 0x4110 3 * od 0x4110 2 > 0x80000)) abValueConflict
  else if idx = 0x4200 then abIf (mapConflict od) abValueConflict
  else none

/-- R453: the unit is absent, retired or in recovery, or the point is armed. -/
def injectConflict (s : State) (v : Nat) : Bool :=
  let code := bits v 0 8
  let u := bits v 8 9
  let away : Bool :=
    match kindInfo code with
    | some (_, _, 1, _) => !blockPresent s u || (blockAt s u).retired
        || s.rel.recov.any fun r => (r.level = 1 && r.unit = u) || (r.level = 2 && r.unit = u / 40)
    | some (_, _, 2, _) => !regionPresent s u || s.rel.recov.any fun r => r.level = 2 && r.unit = u
    | _ =>
      if 0x30 ≤ code ∧ code ≤ 0x33 then decide (u ≥ 6)
      else if code = 0x28 ∨ code = 0x29 then decide (u ≥ 16) else u != 0
  away || s.rel.recov.any (fun r => r.level = 3) || s.rel.armed.any fun a => a.1 == code

/-- Keys, certificate, window, injection, ports and state requests (R348, R381, R453, R491 to R493, R498, R500). -/
def unitAbort (s : State) (idx sub v : Nat) (bs : List Byte) : Option Nat :=
  let p := sub % 16
  let up : Bool := (linkAt s p).st = 2
  if idx = 0x6100 then abIf (injectConflict s v) abValueConflict
  else if idx = 0x8100 then abIf (Config.certPubKey bs != Config.devicePubKey) abValueConflict
  else if idx = 0x9000 then abIf (blockAt s (bits v 0 9)).retired abValueConflict
  else if idx = 0x4010 ∧ 0x30 ≤ sub ∧ sub < 0x40 then abIf ((linkAt s p).st != 3 && (linkAt s p).st != 4) abPortState
  else if idx = 0x1F80 then abIf (!((v = 2 && (s.mgmt.st = 1 || s.mgmt.st = 3)) || (v = 3 && s.mgmt.st = 2))) abStateForbids
  else if idx = 0x8200 then
    (if sub < 0x30 then abIf (up && txSlotNo s p = sub / 16 - 1) abValueConflict
     else if sub < 0x40 then abIf (!thas v (linkAt s p).slots) abValueConflict
     else abIf (up && bit v (txSlotNo s p)) abValueConflict)
  else none

/-- Steps 2 to 10 for a row that exists. -/
def writeAbort (s : State) (r : OdRow) (idx sub : Nat) (bs : List Byte) : Nat :=
  let v := ofBytes bs
  firstAbort
    [abIf (decide (r.acc < 2)) abReadOnly, lifeAbort s idx sub, stateAbort s idx sub, lengthAbort r bs.length,
     absentAbort s idx sub v, reservedAbort r v, rangeAbort s r sub v bs.length, tableAbort s idx sub, poolAbort s idx sub v,
     layoutAbort s idx sub v, unitAbort s idx sub v bs, abIf (r.acc = 3 && decide (s.mgmt.rwq.length ≥ 1024)) abBusy]

/-! ### Unlock (R494 to R497) -/

/-- Debug functions that are no longer granted stop: every armed point is disarmed, test access is in bypass. -/
def closeDebug (s : State) : State :=
  { s with rel := { s.rel with armed := [] }
         , sec := { s.sec with tapIr := if s.sec.tapIr = 3 && !s.sec.tapOk then 0 else s.sec.tapIr } }

/-- R497: the unlock in force ends. -/
def endUnlock (s : State) : State :=
  if s.sec.grant = 0 then s else closeDebug { s with sec := { s.sec with grant := 0, duration := 0 } }

/-- The grant bytes that the signature covers. -/
def grantBytes (bs : List Byte) : List Byte := if bs.length = 128 then bs.take 32 else List.replicate 32 0

/-- R495: the conditions of a grant. -/
def unlockGood (s : State) (bs : List Byte) : Bool :=
  let g := grantBytes bs
  s.sec.lifecycle = 2 && s.sec.ownerKeyHash != 0 && sha384 (ownerPub s) = s.sec.ownerKeyHash
  && ecdsaVerify (ownerPub s) (challengeBytes s ++ g) (bs.drop (bs.length - 96))
  && (bs.length != 128 || (ofBytes ((g.drop 8).take 8) = s.sec.serial && bits (ofBytes g) 4 28 = 0 && bits (ofBytes g) 128 128 = 0))

/-- A response has been written: one more attempt and a new nonce. -/
def nextChallenge (s : State) : State :=
  drawn { s with sec := { s.sec with attempts := (s.sec.attempts + 1) % 2 ^ 32, nonce := Config.nonce s.fresh } }

/-- R495 to R497: the response is verified. -/
def unlockResponse (bs : List Byte) (s : State) : Nat × State :=
  if unlockGood s bs then
    let g := ofBytes (grantBytes bs)
    let mask := if bs.length = 128 then bits g 0 4 else 15
    let dur := if bs.length = 128 then bits g 32 32 else 0
    let drops : Bool := (List.range 4).any fun i => bit s.sec.grant i && !bit mask i
    let s := if drops then closeDebug s else s
    (0, nextChallenge { s with sec := { s.sec with
          grant := mask, grantRef := refNow s, duration := dur, unlocks := s.sec.unlocks + 1
          , unionGrant := s.sec.unionGrant ||| mask, failRow := 0, holdUntil := 0 } })
  else
    let f := s.sec.failRow + 1
    let s := odBump 0x8300 8 1 { s with sec := { s.sec with failRow := f, holdUntil := refNow s + 1000000 * 2 ^ min f 10 } }
    (abLocked, report 0x100 0 0 0 0 none false (nextChallenge s))

/-! ### Effects -/

/-- R287: the classes newly disabled abort their commands where `ABORT_ON_DISABLE` says so. -/
def funcWrite (v : Nat) (s : State) : State :=
  let old := odv s 0x2100 1
  let stop : Cmd → Bool := fun c =>
    match opClass (dOp c.desc) with
    | some k => bit old k && !bit v k && bit (odv s 0x2100 2) k
    | none => false
  (s.front.cmds.filter stop).foldl (fun s c => endCmd c.uid stAborted noDetail s) (odPut 0x2100 1 v s)

/-- R381, R383, R403: a state request that is allowed. -/
def stateRequest (v : Nat) (s : State) : State :=
  if v = 2 then
    let s := setSt 2 s
    let s := setTrim (odv s 0x5100 3) { s with power := { s.power with trimCheck := true, trimRef := refNow s } }
    topUp (wake false s)
  else { s with mgmt := { s.mgmt with stopPending := true } }

/-- The last logged unit fault. -/
def lastFault (s : State) : Nat := ((s.rel.log.reverse.find? fun e => fld e.2 43 3 = 3).map (·.1)).getD 0

/-- R451, R447: entries up to `n` are acknowledged; in a FAULT that `APEX_NO_AUTO` caused, all acknowledged starts
the warm reset. -/
def errorAck (n : Nat) (s : State) : State :=
  let a := if serialLe n s.rel.count then (if serialLe s.rel.acked n then n else s.rel.acked) else s.rel.count
  let s := { s with rel := { s.rel with acked := a } }
  if s.mgmt.st = 4 ∧ s.rel.noAuto ∧ !s.rel.fatal ∧ unacked s = 0 then
    { s with rel := { s.rel with noAuto := false
                               , recov := [{ level := 3, unit := 0, entry := lastFault s, begun := false, batches := [] }] }
           , mgmt := { s.mgmt with recovering := true } }
  else s

/-- R492: a key slot written. -/
def keyWrite (p slot : Nat) (bs : List Byte) (s : State) : State :=
  let half : Nat → KeyMat := fun o =>
    { key := BitVec.ofNat 256 (ofBytes ((bs.drop o).take 32)), salt := BitVec.ofNat 32 (ofBytes ((bs.drop (o + 32)).take 4)), ctr := 0 }
  let s := modLink p (fun l => { l with slots := tput slot { tx := half 0, rx := half 36 } l.slots }) s
  -- R345
  if (linkAt s p).st = 5 && keyOk s p && (linkAt s p).phyReady then startTraining p s else s

/-- R500: key slots cleared. -/
def keyClear (p v : Nat) (s : State) : State :=
  modLink p (fun l => { l with slots := l.slots.filter fun e => !bit v e.1 }) s

/-- What an accepted RW, WO or WOS write does. -/
def applyWrite (idx sub : Nat) (bs : List Byte) (s : State) : Nat × State :=
  let v := ofBytes bs
  match idx with
  | 0x1F80 => (0, stateRequest v s)
  | 0x2100 => (0, if sub = 1 then funcWrite v s else odPut idx sub v s)
  | 0x2400 => (0, resetFlag v s)
  | 0x3100 | 0x4300 => (0, if sub = 2 then odPut idx 1 (1 - odv s idx 1) s else odPut idx sub v (renewTable idx sub s))
  | 0x3210 => (0, dropNote (sub % 16) (odPut idx sub v s))
  | 0x4010 => (0, startTraining (sub - 0x30) s)
  | 0x5010 =>
    (0, odPut idx sub v (if sub = 1 then { s with power := { s.power with filler := min s.power.filler v } } else s))
  | 0x6000 => (0, errorAck v s)
  | 0x6100 => (0, { s with rel := { s.rel with armed := s.rel.armed ++ [(bits v 0 8, bits v 8 9, bit v 17)] } })
  | 0x6200 => (0, if sub = 6 then modBlock v (fun x => { x with spLost := false }) s else odPut idx sub v s)
  | 0x8100 => (0, { s with sec := { s.sec with cert := bs } })
  | 0x8200 =>
    (0, if sub < 0x30 then keyWrite (sub % 16) (sub / 16 - 1) bs s
        else if sub < 0x40 then odPut idx sub v s else keyClear (sub % 16) v s)
  | 0x8300 =>
    if sub = 2 then unlockResponse bs s
    else (0, if sub = 4 then { s with sec := { s.sec with ownerPub := bs } } else endUnlock s)
  | _ => (0, odPut idx sub v s)

/-- An accepted RWQ write joins the pending list; in PREOP and STOPPED each instant is a boundary (R380). -/
def queueWrite (idx sub v : Nat) (s : State) : State :=
  let s := { s with mgmt := { s.mgmt with rwq := s.mgmt.rwq ++ [{ key := odKey idx sub, value := v }] } }
  if (s.mgmt.st = 1 ∨ s.mgmt.st = 3) ∧ quiescent s then boundary s else s

/-- R376: a write of an entry, whole or not at all: its abort code, 0 when it is accepted, and the state after it. -/
def odWrite (idx sub : Nat) (bs : List Byte) (s : State) : Nat × State :=
  match odExists idx sub with
  | .inl e => (e, s)
  | .inr r =>
    let e := writeAbort s r idx sub bs
    if e ≠ 0 then (e, s)
    else if r.acc = 3 then (0, queueWrite idx sub (ofBytes bs) s)
    else applyWrite idx sub bs s

/-- A request for one write: its outcome is the last abort code. -/
def writeEntryReq (idx sub : Nat) (bs : List Byte) (s : State) : State :=
  let r := odWrite idx sub bs s
  { r.2 with mgmt := { r.2.mgmt with lastAbort := r.1 } }

/-- A row that writes one entry. -/
def writeRow (idx sub : Nat) (bs : List Byte) (s : State) : Out := event (live s) s (writeEntryReq idx sub bs s)

/-! ### Rows -/

def execDictWrite (idx sub : Nat) (bs : List Byte) (s : State) : Out := writeRow idx sub bs s
def execFuncDisable (mask : BitVec 16) (s : State) : Out := writeRow 0x2100 1 (toBytes 2 mask.toNat) s
def execRequestOperational (s : State) : Out := writeRow 0x1F80 2 [2] s
def execRequestStopped (s : State) : Out := writeRow 0x1F80 2 [3] s
def execBiasCommit (v : Nat) (s : State) : Out := writeRow 0x3100 2 (toBytes 1 v) s
def execRouteCommit (v : Nat) (s : State) : Out := writeRow 0x4300 2 (toBytes 1 v) s
def execFlagReset (slot : Nat) (s : State) : Out := writeRow 0x2400 4 (toBytes 2 slot) s
def execPortRetrain (p v : Nat) (s : State) : Out := writeRow 0x4010 (0x30 + p) (toBytes 1 v) s
def execErrorAck (n : Nat) (s : State) : Out := writeRow 0x6000 3 (toBytes 4 n) s
def execInject (v : Word) (s : State) : Out := writeRow 0x6100 1 (toBytes 4 v.toNat) s
def execSpRestored (b : Nat) (s : State) : Out := writeRow 0x6200 6 (toBytes 2 b) s
def execPoolShrink (p target : Nat) (s : State) : Out := writeRow 0x3200 (0x60 + p) (toBytes 4 target) s
def execAccSelect (v : Word) (s : State) : Out := writeRow 0x9000 1 (toBytes 4 v.toNat) s
def execLinkKeySlot (p slot : Nat) (bs : List Byte) (s : State) : Out := writeRow 0x8200 (0x10 + 0x10 * slot + p) bs s
def execTxKeySlot (p v : Nat) (s : State) : Out := writeRow 0x8200 (0x30 + p) (toBytes 1 v) s
def execKeyClear (p v : Nat) (s : State) : Out := writeRow 0x8200 (0x50 + p) (toBytes 1 v) s
def execUnlockResponse (bs : List Byte) (s : State) : Out := writeRow 0x8300 2 bs s
def execRelock (v : Nat) (s : State) : Out := writeRow 0x8300 5 (toBytes 1 v) s

/-- R496: the hold-back runs out. -/
def execUnlockHoldEnd (s : State) : Out :=
  event (live s && s.sec.holdUntil != 0 && !unlockHeld s) s { s with sec := { s.sec with holdUntil := 0 } }

/-- R497: a timed unlock runs out. -/
def execUnlockDurationEnd (s : State) : Out :=
  event (live s && s.sec.grant != 0 && s.sec.duration != 0
      && decide (refNow s ≥ s.sec.grantRef + s.sec.duration * 100000000)) s (endUnlock s)

end Sys2Proof.Machine
end

