-- ==== Sys2Proof/Machine/Mgmt.lean ====
section
/-! DEFINITION. The Dictionary Transfer Protocol and the MCTP binding (chapter 13, R490, R491): frames, segmented
sessions, snapshots, packets, control messages, SPDM. -/

namespace Sys2Proof.Machine

/-! ### Frames (R385, R388) -/

def wordN (ws : List Word) (i : Nat) : Nat := (ws.getD i 0).toNat
def frCs (ws : List Word) : Nat := bits (wordN ws 0) 0 8
def frTxn (ws : List Word) : Nat := bits (wordN ws 0) 8 8
def frNpay (ws : List Word) : Nat := bits (wordN ws 0) 16 9
def frIndex (ws : List Word) : Nat := bits (wordN ws 1) 0 16
def frSub (ws : List Word) : Nat := bits (wordN ws 1) 16 8
def frAux (ws : List Word) : Nat := bits (wordN ws 1) 24 8
def frPay (ws : List Word) : List Word := (ws.drop 2).take (frNpay ws)

/-- Words as bytes, each little-endian. -/
def wordBytes (ws : List Word) : List Byte := ws.flatMap fun w => toBytes 4 w.toNat

/-- Bytes as words, padded with zeros. -/
def bytesWords (bs : List Byte) : List Word :=
  (List.range (ceilDiv bs.length 4)).map fun i => BitVec.ofNat 32 (ofBytes ((bs.drop (4 * i)).take 4))

/-- A frame with its check. -/
def mkFrame (cs txn word1 : Nat) (pay : List Word) : List Word :=
  let body := BitVec.ofNat 32 (pack [(8, cs), (8, txn), (9, pay.length)]) :: BitVec.ofNat 32 word1 :: pay
  body ++ [BitVec.ofNat 32 (crc16 (wordBytes body))]

/-- An abort response: `TXN` and word 1 of the request, or another word 1 (R386, R392). -/
def abortFrame (ws : List Word) (word1 code : Nat) : List Word := mkFrame 0xC0 (frTxn ws) word1 [BitVec.ofNat 32 code]

/-- A success response with the entry and an `AUX`. -/
def okFrame (ws : List Word) (aux : Nat) (pay : List Word) : List Word :=
  mkFrame (frCs ws + 0x80) (frTxn ws) (bits (wordN ws 1) 0 24 + aux * 2 ^ 24) pay

/-- The response to a request whose outcome is an abort code, or success without payload. -/
def codeFrame (ws : List Word) (code : Nat) : List Word :=
  if code = 0 then okFrame ws 0 [] else abortFrame ws (wordN ws 1) code

/-- Reserved bits and payload sizes of each specifier (R386, R388; the unused `AUX` of a request that names an entry
is reserved, DEDUCED). -/
def frameShape (ws : List Word) : Bool :=
  let p := frPay ws
  let n := frNpay ws
  let a := frAux ws
  match frCs ws with
  | 0x01 => n = 0 && a = 0
  | 0x02 => n = 2 && (decide (a > 8) || ((wordBytes p).drop a).all (· == 0))
  | 0x03 => n = 1 && a = 0 && bits (wordN p 0) 16 16 = 0
  | 0x04 => decide (2 ≤ n ∧ n ≤ 258) && a = 0 && bits (wordN p 0) 17 15 = 0
  | 0x05 => decide (n ≤ 258) && wordN ws 1 = 0 && p.all fun w => bits w.toNat 24 8 = 0
  | 0x06 => n = 0 && a = 0
  | 0x0F => n = 0
  | 0x20 => decide (5 ≤ a ∧ a ≤ 68) && n = ceilDiv a 4 && ((wordBytes p).drop a).all (· == 0)
  | _ => false

/-- R388: what is wrong with a run of words; 0 when it is a frame to be served. -/
def frameFault (ws : List Word) (inj : Bool) : Nat :=
  if ws.length < 3 ∨ ws.length ≠ frNpay ws + 3 then abBadFrame
  else if inj ∨ bits (wordN ws (ws.length - 1)) 0 16 ≠ crc16 (wordBytes (ws.take (ws.length - 1))) then abFrameCrc
  else if bits (wordN ws 0) 25 7 ≠ 0 ∨ bits (wordN ws (ws.length - 1)) 16 16 ≠ 0 ∨ !frameShape ws then abBadFrame
  else 0

/-! ### Requests -/

def sessionOf (s : State) (tr : Transport) : Option Session := if tr = .ring then s.mgmt.ring else s.mgmt.mctp

def putSession (tr : Transport) (x : Option Session) (s : State) : State :=
  if tr = .ring then { s with mgmt := { s.mgmt with ring := x } } else { s with mgmt := { s.mgmt with mctp := x } }

/-- A value in two words. -/
def twoWords (n : Nat) : List Word := [BitVec.ofNat 32 n, BitVec.ofNat 32 (n / 2 ^ 32)]

/-- READ (R386, R389). -/
def serveRead (ws : List Word) (s : State) : List Word × State :=
  match readCheck s false (frIndex ws) (frSub ws) with
  | .inl e => (abortFrame ws (wordN ws 1) e, s)
  | .inr r =>
    let bs := odBytes s r (frIndex ws) (frSub ws)
    (okFrame ws bs.length (twoWords (ofBytes bs)), s)

/-- R389: the entry is too large for an expedited request. -/
def tooLarge (idx sub : Nat) : Bool :=
  match odFind idx sub with
  | some r => tySize r.ty = 0 && decide (r.hi > 8)
  | none => false

/-- WRITE (R386, R389). An `AUX` outside 1 to 8 fits no type. -/
def serveWrite (ws : List Word) (s : State) : List Word × State :=
  if tooLarge (frIndex ws) (frSub ws) then (abortFrame ws (wordN ws 1) abUseSegmented, s)
  else
    let a := frAux ws
    let bs := (wordBytes (frPay ws)).take a ++ List.replicate (a - 8) 0
    let r := odWrite (frIndex ws) (frSub ws) bs s
    (codeFrame ws r.1, r.2)

/-- A session left idle too long (R390). -/
def sessionIdle (s : State) (x : Session) : Bool := x.expired || decide (mcNow s ≥ x.lastMc + 1000000)

/-- The open session that a segment continues, or the code that refuses the segment. -/
def continued (s : State) (tr : Transport) (write : Bool) (key seg : Nat) : Sum Nat Session :=
  match sessionOf s tr with
  | none => .inl abSeqError
  | some x =>
    if sessionIdle s x then .inl abSessionTimeout
    else if x.write = write ∧ x.key = key ∧ x.next = seg then .inr x
    else .inl abSeqError

/-- One segment of a captured entry; the session ends with the last one. -/
def readSegment (tr : Transport) (ws : List Word) (x : Session) (s : State) : List Word × State :=
  let seg := bits (wordN (frPay ws) 0) 0 16
  let part := (x.data.drop (1024 * seg)).take 1024
  let last := decide (x.total ≤ 1024 * (seg + 1))
  let head := [BitVec.ofNat 32 (seg + 65536 * b2n last), BitVec.ofNat 32 x.total]
  (okFrame ws 0 (head ++ bytesWords part),
   putSession tr (if last then none else some { x with next := seg + 1, lastMc := mcNow s }) s)

/-- SEG_READ (R390). -/
def serveSegRead (tr : Transport) (ws : List Word) (s : State) : List Word × State :=
  let seg := bits (wordN (frPay ws) 0) 0 16
  let key := odKey (frIndex ws) (frSub ws)
  if seg = 0 then
    let s := putSession tr none s
    match readCheck s true (frIndex ws) (frSub ws) with
    | .inl e => (abortFrame ws (wordN ws 1) e, s)
    | .inr r =>
      let bs := odBytes s r (frIndex ws) (frSub ws)
      let x : Session := { write := false, key := key, next := 0, total := bs.length, data := bs, lastMc := mcNow s, expired := false }
      readSegment tr ws x (afterRead (frIndex ws) (frSub ws) s)
  else
    match continued s tr false key seg with
    | .inl e => (abortFrame ws (wordN ws 1) e, putSession tr none s)
    | .inr x => readSegment tr ws x s

/-- One segment of a write: collected, refused, or the last, which writes the entry (R391). -/
def writeSegment (tr : Transport) (ws : List Word) (x : Session) (s : State) : List Word × State :=
  let total := wordN (frPay ws) 1
  let words := (frPay ws).drop 2
  let need := x.total - x.data.length
  let bytes := wordBytes words
  if bit (wordN (frPay ws) 0) 16 then
    if total ≠ x.total ∨ words.length ≠ ceilDiv need 4 then (abortFrame ws (wordN ws 1) abSeqError, putSession tr none s)
    else if (bytes.drop need).any (· != 0) then (abortFrame ws (wordN ws 1) abBadFrame, s)
    else
      let r := odWrite (frIndex ws) (frSub ws) (x.data ++ bytes.take need) (putSession tr none s)
      (codeFrame ws r.1, r.2)
  else if total ≠ x.total ∨ words.length ≠ 256 ∨ need < 1024 then (abortFrame ws (wordN ws 1) abSeqError, putSession tr none s)
  else
    (okFrame ws 0 [], putSession tr (some { x with next := x.next + 1, data := x.data ++ bytes, lastMc := mcNow s }) s)

/-- SEG_WRITE (R380, R391). -/
def serveSegWrite (tr : Transport) (ws : List Word) (s : State) : List Word × State :=
  let seg := bits (wordN (frPay ws) 0) 0 16
  let key := odKey (frIndex ws) (frSub ws)
  let total := wordN (frPay ws) 1
  if s.mgmt.recovering then (abortFrame ws (wordN ws 1) abRecovering, s)
  else if s.mgmt.st = 0 then (abortFrame ws (wordN ws 1) abStateForbids, s)
  else if seg = 0 then
    let s := putSession tr none s
    if total > 65536 then (abortFrame ws (wordN ws 1) abTypeLength, s)
    else
      let x : Session := { write := true, key := key, next := 0, total := total, data := [], lastMc := mcNow s, expired := false }
      writeSegment tr ws x (putSession tr (some x) s)
  else
    match continued s tr true key seg with
    | .inl e => (abortFrame ws (wordN ws 1) e, putSession tr none s)
    | .inr x => writeSegment tr ws x s

/-- SNAPSHOT (R392): all entries in one capture. -/
def serveSnapshot (ws : List Word) (s : State) : List Word × State :=
  let es := frPay ws
  if es.length = 0 ∨ es.length > 64 then (abortFrame ws 0 abSnapshotSize, s)
  else
    let failed := es.findSome? fun w =>
      match readCheck s false (bits w.toNat 0 16) (bits w.toNat 16 8) with
      | .inl e => some (w.toNat, e)
      | .inr _ => none
    match failed with
    | some (w, e) => (abortFrame ws w e, s)
    | none =>
      (okFrame ws 0 (es.flatMap fun w =>
        match odFind (bits w.toNat 0 16) (bits w.toNat 16 8) with
        | some r =>
          let bs := odBytes s r (bits w.toNat 0 16) (bits w.toNat 16 8)
          BitVec.ofNat 32 bs.length :: twoWords (ofBytes bs)
        | none => []), s)

/-- The default of an entry: fuse, strap and computed defaults are the values that stand (R386). -/
def describedDefault (s : State) (r : OdRow) (idx sub : Nat) : Nat :=
  if tySize r.ty = 0 then (if r.ty = 13 then ofBytes ((odDomain s idx sub).take 8) else 0)
  else if (idx = 0x1018 ∧ sub ≥ 4) ∨ idx = 0x2010 ∨ idx = 0x8000 ∨ (idx = 0x5100 ∧ sub = 2) then odNow s idx sub
  else if idx = 0x5100 ∧ sub = 5 then s.power.vFuse
  else if idx = 0x3200 ∧ 0x60 ≤ sub ∧ sub < 0x68 then poolCount s (sub - 0x60)
  else r.dflt

/-- DESCRIBE (R386). -/
def serveDescribe (ws : List Word) (s : State) : List Word × State :=
  let idx := frIndex ws
  let sub := frSub ws
  match odExists idx sub with
  | .inl e => (abortFrame ws (wordN ws 1) e, s)
  | .inr r =>
    if s.mgmt.recovering then (abortFrame ws (wordN ws 1) abRecovering, s)
    else if s.mgmt.st = 0 ∧ !(0x1000 ≤ idx ∧ idx ≤ 0x1FFF) then (abortFrame ws (wordN ws 1) abStateForbids, s)
    else
      let size := if tySize r.ty = 0 then r.hi % 65536 else tySize r.ty
      let lo := if idx = 0x3210 ∧ sub ≥ 0x20 then odv s 0x3210 (sub - 0x10) else r.lo
      let hi := if idx = 0x3200 ∧ 0x60 ≤ sub ∧ sub < 0x68 then poolCount s (sub - 0x60) else r.hi
      (okFrame ws 0 (BitVec.ofNat 32 (pack [(8, r.ty), (4, r.acc), (4, 0), (16, size)])
        :: twoWords (describedDefault s r idx sub) ++ twoWords lo ++ twoWords hi), s)

/-- CANCEL (R386). -/
def serveCancel (tr : Transport) (ws : List Word) (s : State) : List Word × State :=
  if s.mgmt.recovering then (abortFrame ws (wordN ws 1) abRecovering, s) else (okFrame ws 0 [], putSession tr none s)

/-- The response to a frame that passed R388. -/
def serveRequest (tr : Transport) (ws : List Word) (s : State) : List Word × State :=
  match frCs ws with
  | 0x01 => serveRead ws s
  | 0x02 => serveWrite ws s
  | 0x03 => serveSegRead tr ws s
  | 0x04 => serveSegWrite tr ws s
  | 0x05 => serveSnapshot ws s
  | 0x06 => serveDescribe ws s
  | 0x0F => serveCancel tr ws s
  | _ => (abortFrame ws (wordN ws 1) abBadFrame, s)

/-- The abort code of a response frame, 0 of a success. -/
def replyCode (ws : List Word) : Nat := if frCs ws = 0xC0 then wordN ws 2 else 0

/-- The fault of a received frame, and the report of a failed check (R388, R436, R454). -/
def frameCheck (ws : List Word) (s : State) : Nat × State :=
  let inj := fires 0x26 0 s
  let used := decide (ws.length ≥ 3) && decide (ws.length = frNpay ws + 3)
  let f := frameFault ws inj.isSome
  let s := if used && inj.isSome then disarm 0x26 0 s else s
  (f, if f = abFrameCrc then report 0x26 0 0 0 0 none inj.isSome s else s)

/-- One frame answered: response and state. -/
def serveFrame (tr : Transport) (ws : List Word) (s : State) : List Word × State :=
  let c := frameCheck ws s
  let r := if c.1 ≠ 0 then (abortFrame ws (wordN ws 1) c.1, c.2) else serveRequest tr ws c.2
  (r.1, { r.2 with mgmt := { r.2.mgmt with lastAbort := replyCode r.1 } })

/-! ### MCTP messages (R393, R394) -/

/-- A message as packets of the baseline unit (the transport header is DSP0236's, PRESUMED). -/
def packetsOf (own dst tag : Nat) (body : List Byte) : List (List Byte) :=
  let n := max 1 (ceilDiv body.length 64)
  (List.range n).map fun i =>
    toBytes 4 (pack [(8, 1), (8, dst), (8, own), (3, tag), (1, 0), (2, i), (1, b2n (i + 1 = n)), (1, b2n (i = 0))])
      ++ (body.drop (64 * i)).take 64

/-- Send a response message. -/
def sendMessage (m : McMsg) (body : List Byte) (s : State) : State :=
  { s with mgmt := { s.mgmt with outbox := s.mgmt.outbox ++ packetsOf s.mgmt.eid m.src m.tag body } }

def byteN (bs : List Byte) (i : Nat) : Nat := (bs.getD i 0).toNat

/-- What a message is: 256 times its type and its command or request code; 7F00h for a dictionary message. -/
def msgKind (bs : List Byte) : Nat :=
  if byteN bs 0 = 0 then byteN bs 2 else if byteN bs 0 = 5 then 0x500 + byteN bs 2 else 256 * byteN bs 0

/-- A control response: code and data. -/
def controlReply (bs : List Byte) (code : Nat) (data : List Byte) : List Byte :=
  [0, BitVec.ofNat 8 (byteN bs 1 % 32), BitVec.ofNat 8 (byteN bs 2), BitVec.ofNat 8 code] ++ data

/-- R393: the five control messages, others unsupported (formats and codes of DSP0236, PRESUMED). -/
def serveControl (bs : List Byte) (s : State) : List Byte × State :=
  match byteN bs 2 with
  | 1 =>
    let e := byteN bs 4
    if byteN bs 3 % 4 < 2 ∧ e ≠ 0 ∧ e ≠ 255 then
      (controlReply bs 0 [0, BitVec.ofNat 8 e, 0], { s with mgmt := { s.mgmt with eid := e } })
    else (controlReply bs 2 [], s)
  | 2 => (controlReply bs 0 [BitVec.ofNat 8 s.mgmt.eid, 0, 0], s)
  | 4 =>
    let t := byteN bs 3
    if [0xFF, 0, 5, 0x7F].contains t then (controlReply bs 0 (1 :: toBytes 4 Config.mctpVersion.toNat), s)
    else (controlReply bs 0x80 [], s)
  | 5 => (controlReply bs 0 [2, 5, 0x7F], s)
  | 6 => if byteN bs 3 = 0 then (controlReply bs 0 ([0xFF, 1] ++ toBytesBE 4 (odDefault (odKey 0x1018 1)) ++ [0, 1]), s)
    else (controlReply bs 2 [], s)
  | _ => (controlReply bs 5 [], s)

/-- R394: one DTP frame inside a message; another enterprise's message is not answered. -/
def serveDictionary (bs : List Byte) (s : State) : List Byte × State :=
  let head := (bs.take 5)
  let ws := bytesWords (bs.drop 6)
  if ofBytesBE ((bs.drop 1).take 4) ≠ odDefault (odKey 0x1018 1) then ([], s)
  else if byteN bs 5 ≠ 1 ∨ bs.length % 4 ≠ 2 then
    (head ++ [1] ++ wordBytes (abortFrame ws (wordN ws 1) abBadFrame), { s with mgmt := { s.mgmt with lastAbort := abBadFrame } })
  else
    let r := serveFrame .mctp ws s
    (head ++ [1] ++ wordBytes r.1, r.2)

/-! ### SPDM (R489 to R491) -/

/-- The measurements of Table 17.4, one after the other. -/
def measurements (s : State) : List Byte :=
  let img := s.boot.image
  toBytes 48 Config.bootRomHash
  ++ toBytes 48 (sha384 (img.take 416 ++ img.drop 512))
  ++ toBytes 4 s.sec.fwVersion ++ toBytes 2 s.sec.svn ++ [BitVec.ofNat 8 s.boot.location, BitVec.ofNat 8 (b2n s.boot.fallback)]
  ++ [BitVec.ofNat 8 s.sec.lifecycle] ++ toBytes 48 s.sec.fwKeyHash ++ toBytes 48 s.sec.ownerKeyHash ++ [BitVec.ofNat 8 s.sec.minSvn]
  ++ toBytes 3 (pack [(8, fld s.boot.straps 3 8), (8, s.boot.fuseDisable.toNat), (8, s.boot.present.toNat)])
  ++ toBytes 4 s.sec.unlocks ++ [BitVec.ofNat 8 s.sec.unionGrant] ++ toBytes 4 (odv s 0x6100 3)

/-- An SPDM response: code, two parameters, payload. -/
def spdmReply (code p1 p2 : Nat) (data : List Byte) : List Byte :=
  [5, 0x13, BitVec.ofNat 8 code, BitVec.ofNat 8 p1, BitVec.ofNat 8 p2] ++ data

def spdmError (code : Nat) : List Byte := spdmReply 0x7F code 0 []

/-- A payload whose layout DSP0274 fixes, from what it reports (log entry 7). -/
def spdmData (code : Nat) (bs context : List Byte) : List Byte := Config.spdmPayload code (bs ++ context)

/-- A response signed with the device identity key. -/
def spdmSigned (code p1 p2 : Nat) (bs context : List Byte) (s : State) : List Byte × State :=
  let r := spdmReply code p1 p2 (spdmData code bs context)
  (r ++ Config.deviceSign s.fresh (bs ++ r), drawn s)

/-- R490, R491: the seven requests in their order of connection; others are unsupported. -/
def serveSpdm (bs : List Byte) (s : State) : List Byte × State :=
  let cert := s.sec.cert
  let some_ := decide (cert ≠ [])
  let setStage : Nat → State := fun n => { s with mgmt := { s.mgmt with spdm := n } }
  match byteN bs 2 with
  | 0x84 => (spdmReply 0x04 0 0 (spdmData 0x04 bs []), setStage 1)
  | 0xE1 => if s.mgmt.spdm < 1 then (spdmError 4, s) else (spdmReply 0x61 0 0 (spdmData 0x61 bs []), setStage 2)
  | 0xE3 => if s.mgmt.spdm < 2 then (spdmError 4, s) else (spdmReply 0x63 0 0 (spdmData 0x63 bs []), setStage 3)
  | 0x81 =>
    if s.mgmt.spdm < 3 then (spdmError 4, s)
    else (spdmReply 0x01 0 (b2n some_) (if some_ then spdmData 0x01 bs cert else []), s)
  | 0x82 =>
    if s.mgmt.spdm < 3 then (spdmError 4, s)
    else if !some_ then (spdmError 5, s)
    else (spdmReply 0x02 0 0 (spdmData 0x02 bs cert), s)
  | 0x83 =>
    if s.mgmt.spdm < 3 then (spdmError 4, s)
    else if !some_ then (spdmError 5, s)
    else spdmSigned 0x03 0 1 bs (cert ++ measurements s) s
  | 0xE0 =>
    if s.mgmt.spdm < 3 then (spdmError 4, s)
    else if byteN bs 3 % 2 = 0 then (spdmReply 0x60 (odv s 0x8100 1) 0 (spdmData 0x60 bs (measurements s)), s)
    else if !some_ then (spdmError 5, s)
    else spdmSigned 0x60 (odv s 0x8100 1) 0 bs (measurements s) s
  | _ => (spdmError 7, s)

/-- The answer to a message. -/
def serveMsg (m : McMsg) (s : State) : State :=
  let t := byteN m.body 0
  let r := if t = 0 then serveControl m.body s else if t = 5 then serveSpdm m.body s else serveDictionary m.body s
  if r.1 = [] then r.2 else sendMessage m r.1 r.2

/-- Serve the message at the head of the inbox. -/
def serveFront (s : State) : State :=
  match s.mgmt.inbox with
  | [] => s
  | m :: rest => serveMsg m { s with mgmt := { s.mgmt with inbox := rest } }

/-- R387: messages that arrived before a request are served before it. -/
def serveAll (s : State) : State := (List.range s.mgmt.inbox.length).foldl (fun s _ => serveFront s) s

/-- A fifth outstanding message gets its transport's form of `BUSY` at once (R387). -/
def refuseBusy (m : McMsg) (s : State) : State :=
  let t := byteN m.body 0
  if t = 0 then sendMessage m (controlReply m.body 4 []) s
  else if t = 5 then sendMessage m (spdmError 3) s
  else
    let ws := bytesWords (m.body.drop 6)
    sendMessage m (m.body.take 5 ++ [1] ++ wordBytes (abortFrame ws (wordN ws 1) abBusy)) s

/-- A complete message: queued for service; an unknown control command is answered, another type dropped. -/
def takeMessage (m : McMsg) (s : State) : State :=
  let t := byteN m.body 0
  if t = 0 ∧ !([1, 2, 4, 5, 6].contains (byteN m.body 2)) then serveMsg m (serveAll s)
  else if t = 0 ∨ t = 5 ∨ t = 0x7F then
    (if s.mgmt.inbox.length ≥ 4 then refuseBusy m s
     else { s with mgmt := { s.mgmt with inbox := s.mgmt.inbox ++ [m] } })
  else s

/-- A packet joins the message being assembled (R393; assembly rules of DSP0236, PRESUMED). -/
def takePacket (ps : List Byte) (s : State) : State :=
  let g := s.mgmt
  let h := byteN ps 3
  let body := ps.drop 4
  let som := bit h 7
  let eom := bit h 6
  let mine := byteN ps 0 % 16 = 1 ∧ (byteN ps 1 = 0 ∨ (g.eid ≠ 0 ∧ byteN ps 1 = g.eid)) ∧ bit h 3
  let drop : State := { s with mgmt := { g with asmOn := false, asmBody := [] } }
  if !mine then s
  else if !som ∧ !(g.asmOn ∧ g.asmSrc = byteN ps 2 ∧ g.asmTag = h % 8 ∧ bits h 4 2 = (g.asmSeq + 1) % 4) then drop
  else
    let all := if som then body else g.asmBody ++ body
    if (!eom ∧ body.length ≠ 64) ∨ all.length > 1050 then drop
    else if eom then takeMessage { src := byteN ps 2, tag := h % 8, body := all } drop
    else { s with mgmt := { g with asmOn := true, asmSrc := byteN ps 2, asmTag := h % 8, asmSeq := bits h 4 2, asmBody := all } }

/-! ### Rows -/

/-- A response goes out on its transport. -/
def reply (tr : Transport) (r : List Word × State) : State :=
  { r.2 with mgmt := { r.2.mgmt with replies := r.2.mgmt.replies ++ [(tr, r.1)] } }

/-- A request frame of one specifier: a bad frame is refused, a frame of another specifier is another row's. -/
def requestRow (cs : Nat) (tr : Transport) (ws : List Word) (s : State) : Out :=
  event (live s && (frameFault ws (fires 0x26 0 s).isSome != 0 || frCs ws = cs)) s (reply tr (serveFrame tr ws (serveAll s)))

def execRead (tr : Transport) (frame : List Word) (s : State) : Out := requestRow 0x01 tr frame s
def execWrite (tr : Transport) (frame : List Word) (s : State) : Out := requestRow 0x02 tr frame s
def execSegRead (tr : Transport) (frame : List Word) (s : State) : Out := requestRow 0x03 tr frame s
def execSegWrite (tr : Transport) (frame : List Word) (s : State) : Out := requestRow 0x04 tr frame s
def execSnapshot (tr : Transport) (frame : List Word) (s : State) : Out := requestRow 0x05 tr frame s
def execDescribe (tr : Transport) (frame : List Word) (s : State) : Out := requestRow 0x06 tr frame s
def execCancel (tr : Transport) (frame : List Word) (s : State) : Out := requestRow 0x0F tr frame s

/-- R498: one segmented read of `ACC_WINDOW`, with transaction number 0. -/
def execAccWindow (s : State) : Out :=
  event (live s) s (reply .ring (serveFrame .ring (mkFrame 0x03 0 0x00029000 [0]) (serveAll s)))

/-- R390: a session idle for 1 000 000 MC ends; its next segment is told so. -/
def execSessionTimeout (tr : Transport) (s : State) : Out :=
  match sessionOf s tr with
  | none => .next s
  | some x => event (live s && decide (mcNow s ≥ x.lastMc + 1000000)) s (putSession tr (some { x with expired := true, data := [] }) s)

/-- R393: a frame of `CS` 20h brings a packet. -/
def execMctp (frame : List Word) (s : State) : Out :=
  let c := frameCheck frame s
  event (live s && (c.1 != 0 || frCs frame = 0x20)) s
    (if c.1 ≠ 0 then reply .ring (abortFrame frame (wordN frame 1) c.1, c.2)
     else takePacket ((wordBytes (frPay frame)).take (frAux frame)) c.2)

/-- The management unit serves the waiting message of one kind. -/
def messageRow (kind : Nat → Bool) (s : State) : Out :=
  match s.mgmt.inbox with
  | [] => .next s
  | m :: _ => event (live s && kind (msgKind m.body)) s (serveFront s)

def execSetEndpointId (s : State) : Out := messageRow (· == 1) s
def execGetEndpointId (s : State) : Out := messageRow (· == 2) s
def execGetMctpVersionSupport (s : State) : Out := messageRow (· == 4) s
def execGetMessageTypeSupport (s : State) : Out := messageRow (· == 5) s
def execGetVendorDefinedMessageSupport (s : State) : Out := messageRow (· == 6) s
def execDictionaryMessage (s : State) : Out := messageRow (· == 0x7F00) s
def execGetVersion (s : State) : Out := messageRow (· == 0x584) s
def execGetCapabilities (s : State) : Out := messageRow (· == 0x5E1) s
def execNegotiateAlgorithms (s : State) : Out := messageRow (· == 0x5E3) s
def execGetDigests (s : State) : Out := messageRow (· == 0x581) s
def execGetCertificate (s : State) : Out := messageRow (· == 0x582) s
def execChallenge (s : State) : Out := messageRow (· == 0x583) s
def execGetMeasurements (s : State) : Out := messageRow (· == 0x5E0) s

/-- R490: any other SPDM request. -/
def execSpdmUnsupportedRequest (s : State) : Out :=
  messageRow (fun k => decide (0x500 ≤ k ∧ k < 0x600) && !([0x584, 0x5E1, 0x5E3, 0x581, 0x582, 0x583, 0x5E0].contains k)) s

end Sys2Proof.Machine
end

