-- ==== Sys2Proof/Machine/Recovery.lean ====
section
/-! DEFINITION. Error collectors, the error log, recovery, tests, scrubbing and the Mire watch (R434 to R454). -/

namespace Sys2Proof.Machine

/-! ### The error log (R436, R451, Table 15.7) -/

/-- `LEVEL` of an entry (R436). -/
def logLevel (r : Report) : Nat :=
  if r.code = 0x40 ∨ r.code = 0x41 then r.level
  else if 0x30 ≤ r.code ∧ r.code ≤ 0x33 then 4
  else if r.code = 0x28 ∨ r.code = 0x29 then 5
  else if r.code = 0x26 then 6
  else if 1 ≤ r.code ∧ r.code ≤ 3 then 0
  else match kindInfo r.code with
    | some (_, _, l, _) => l
    | none => 3

/-- The entry of a report. `KIND` has 8 bits, so that the security event of R495 shows 00h (log entry 13). -/
def logWord (s : State) (seq ended : Nat) (replayed : Bool) (r : Report) : BitVec 512 :=
  let cls := match kindInfo r.code with
    | some (c, _, _, _) => c
    | none => 0
  let tag := match r.tag with
    | some t => t
    | none => 0
  let v := pack [(32, seq), (8, r.code), (3, cls), (3, r.severity), (2, 0), (3, logLevel r), (5, 0), (9, r.unit),
    (8, if 1 ≤ r.code ∧ r.code ≤ 4 then r.cell else 0), (4, r.action), (1, b2n r.injected), (1, b2n replayed), (1, 0),
    (16, satN 16 ended), (48, refNow s - s.boot.resetRef), (32, r.dep), (52, r.addr), (9, tag), (1, b2n r.tag.isSome)]
  BitVec.ofNat 512 (v + crc32c (toBytes 60 v) * 2 ^ 480)

/-- Logged while fewer than 1 023 entries are unacknowledged; the last one is kept for unit faults, escalations and
fatal faults (R451). -/
def canLog (s : State) (r : Report) : Bool :=
  decide (unacked s < 1023) || (decide (unacked s < 1024) && (r.severity = 3 || r.severity = 4 || r.code = 0x41))

/-- Log a report: its entry number, or 0 when it is not logged. -/
def logReport (r : Report) (s : State) : Nat × State :=
  if canLog s r then
    let n := (s.rel.count + 1) % 2 ^ 32
    let kept := s.rel.log.filter fun e => e.1 % 1024 != n % 1024
    let s := { s with rel := { s.rel with log := tput n (logWord s n 0 false r) kept, count := n } }
    (n, trace 4 0 0 (pack [(32, n), (8, r.code), (4, r.action)]) s)
  else (0, odBump 0x6000 4 1 s)

/-- What the recovery did is entered in the fault's entry. -/
def noteEnded (n ended : Nat) (replayed : Bool) (s : State) : State :=
  let fix : BitVec 512 → BitVec 512 := fun w =>
    let v := putBits (putBits (bits w.toNat 0 480) 78 1 (b2n replayed)) 80 16 (satN 16 ended)
    BitVec.ofNat 512 (v + crc32c (toBytes 60 v) * 2 ^ 480)
  { s with rel := { s.rel with log := s.rel.log.map fun e => if e.1 = n then (n, fix e.2) else e } }

/-! ### Escalation (R447, R448) -/

/-- Begin a recovery. -/
def beginRecovery (level unit entry : Nat) (keep : Recovery → Bool) (s : State) : State :=
  { s with rel := { s.rel with recov := s.rel.recov.filter keep
      ++ [{ level := level, unit := unit, entry := entry, begun := false, batches := [] }] } }

/-- An escalation is logged with code 41h and counted. -/
def noteEscalation (level unit dep : Nat) (s : State) : State :=
  let r : Report := { code := 0x41, severity := 5, unit := unit, cell := 0, action := 0, injected := false, addr := 0, tag := none
                      level := level, dep := dep }
  odBump 0x6200 14 1 (logReport r s).2

/-- A fatal fault: FAULT until `RESET_N` (R446, R448). -/
def fatalFault (dep : Nat) (s : State) : State :=
  let r : Report := { code := 0x43, severity := 4, unit := 0, cell := 0, action := 7, injected := false, addr := 0, tag := none
                      level := 0, dep := dep }
  let s := enterFault (logReport r s).2
  { s with rel := { s.rel with fatal := true, recov := [] }, mgmt := { s.mgmt with recovering := false } }

/-- An apex recovery: the warm reset, or FAULT with `APEX_NO_AUTO` (R446, R447). -/
def apexFault (entry : Nat) (s : State) : State :=
  if bit (odv s 0x6200 1) 2 then
    let s := enterFault s
    { s with rel := { s.rel with noAuto := true, recov := [] } }
  else
    let s := beginRecovery 3 0 entry (fun _ => false) s
    { s with mgmt := { s.mgmt with recovering := true } }

/-- How a new unit fault meets the recoveries in progress: 0 part of one, 1 its own recovery, 2 escalation to a region,
3 escalation to the apex, 4 fatal. -/
def meets (s : State) (level unit : Nat) : Nat :=
  let region := if level = 1 then unit / 40 else unit
  if s.rel.recov.any (fun r => r.level = 3) then 4
  else if level = 3 then 1
  else if s.rel.recov.any (fun r => r.level = 2 && r.unit = region) then 0
  else if s.rel.recov.any (fun r => r.level = 2) then 3
  else if level = 1 && s.rel.recov.any (fun r => r.level = 1 && r.unit = unit) then 0
  else if s.rel.recov.any (fun r => r.level = 1 && r.unit / 40 = region) then 2
  else 1

/-- R442: the block is to be retired rather than put back. -/
def retireNow (s : State) (b : Nat) : Bool :=
  bit (odv s 0x6200 1) 1
  || decide ((s.rel.faults.filter fun e => e.1 == b && decide (opRef s < e.2 + 8640000000000)).length ≥ odv s 0x6200 4)

/-- The action that answers a unit fault (Table 15.7). -/
def faultAction (s : State) (level unit m : Nat) : Nat :=
  if m = 4 then 7
  else if m = 3 ∨ level = 3 then (if bit (odv s 0x6200 1) 2 then 7 else 6)
  else if m = 2 ∨ level = 2 ∨ s.rel.recov.any (fun r => r.level = 2 && r.unit = unit / 40) then 5
  else if retireNow s unit then 4 else 3

/-- A unit fault is accepted (R435, R440, R448). -/
def unitFault (r : Report) (s : State) : State :=
  let level := match kindInfo r.code with
    | some (_, _, l, _) => l
    | none => 3
  let s := if level = 1 then
      { s with rel := { s.rel with faults := s.rel.faults.filter (fun e => decide (opRef s < e.2 + 8640000000000)) ++ [(r.unit, opRef s)] } }
    else s
  let m := meets s level r.unit
  let region := if level = 1 then r.unit / 40 else r.unit
  let first := ((s.rel.recov.find? fun q => q.level = 2 || (q.level = 1 && q.unit / 40 = region)).map (·.entry)).getD 0
  let l := logReport { r with action := faultAction s level r.unit m } s
  match m with
  | 0 => l.2
  | 1 =>
    if level = 3 then apexFault l.1 l.2
    else beginRecovery level r.unit l.1 (fun _ => true) l.2
  | 2 => beginRecovery 2 region l.1 (fun q => !(q.level = 1 && q.unit / 40 = region)) (noteEscalation 2 region first l.2)
  | 3 => apexFault l.1 (noteEscalation 3 0 first l.2)
  | _ => fatalFault l.1 l.2

/-! ### Acceptance (R434, R435, R452) -/

/-- Order of acceptance (R435). -/
def severityRank : Nat → Nat
  | 4 => 0
  | 3 => 1
  | 1 => 2
  | 2 => 3
  | 0 => 4
  | _ => 5

/-- The report accepted next: by severity, then lower unit, then first come; its place in the queue. -/
def nextReport (q : List Report) : Option (Nat × Report) :=
  (List.range q.length).foldl (fun m i =>
    match m, q[i]? with
    | none, some r => some (i, r)
    | some (j, x), some r =>
      if severityRank r.severity < severityRank x.severity
          || (severityRank r.severity = severityRank x.severity && decide (r.unit < x.unit)) then some (i, r) else some (j, x)
    | m, none => m) none

/-- What a report that starts no recovery does. -/
def plainReport (r : Report) (s : State) : State :=
  if r.severity = 0 then
    let k := 512 * r.code + r.unit
    let n := tget 0 s.rel.corrected k + 1
    let s := odBump 0x6000 5 1 { s with rel := { s.rel with corrected := tput k n s.rel.corrected } }
    if n % 1024 = 0 then (logReport r s).2 else s
  else if r.severity = 1 then
    (logReport { r with action := if r.code = 0x29 then 8 else 1 } (odBump 0x6000 6 1 s)).2
  else (logReport r s).2

/-- A collector accepts one report. -/
def acceptReport (k i : Nat) (r : Report) (s : State) : State :=
  let q := tget [] s.rel.queues k
  let s := { s with rel := { s.rel with queues := tput k (q.eraseIdx i) s.rel.queues } }
  if r.severity = 3 then unitFault r s
  else if r.severity = 4 then fatalFault r.dep s
  else plainReport r s

def execErrorReportAccept (level unit : Nat) (s : State) : Out :=
  let k := 1000 * level + unit
  match nextReport (tget [] s.rel.queues k) with
  | none => .next s
  | some (i, r) => event (live s) s (acceptReport k i r s)

/-! ### Lost work (R441, R443) -/

/-- Work items of a block: command and item, each once. -/
def itemsIn (x : Block) : List (Nat × Nat) :=
  (x.feed ++ (match x.job with | some j => [(j.uid, j.item)] | none => [])
    ++ ((x.banks.filter fun k => k.st != 0).map fun k => (k.uid, k.item)) ++ (x.bvu.toList ++ x.epi).map fun e => (e.uid, e.item)).eraseDups

/-- R443: the command's lost work may be run again. -/
def replayable (c : Cmd) : Bool :=
  let op := dOp c.desc
  let same : Nat → Bool := fun i => hasSlot c i && slAddr (cSlot c i) = slAddr (cSlot c 3) && slLoc (cSlot c i) = slLoc (cSlot c 3)
  let inPlace : Bool := (op = 1 || op = 2) && (same 2 || same 5)
  let n := 8 * sLanes c.desc * sN c.desc * sP c.desc
  let a := slAddr (cSlot c 5)
  let b := slAddr (cSlot c 6)
  let states : Bool := op = 0x30 && hasSlot c 5 && hasSlot c 6 && decide (a < b + n) && decide (b < a + n)
  [1, 2, 0x10, 0x11, 0x12, 0x13, 0x18, 0x30, 0x32].contains op && !inPlace && !states && c.slots.all fun x => slLoc x != 2

/-- Work items under which the poisoned tiles of an item are counted: of a matrix product, those of the parts that it writes
(R503). -/
def countedItems (s : State) (c : Cmd) (item : Nat) : List Nat :=
  let d := c.desc
  if (dOp d = 0x01 ∨ dOp d = 0x02) ∧ !gChain d then
    (itemTiles d item).map fun t => tileItem d ((partTiles d (statCut s d) t).headD t)
  else [item]

/-- What a command keeps of the items that it lost in a block: they are placed anew, what they fixed of the placement is
free again, and the output tiles that they write again do not count. -/
def lostItems (s : State) (b : Nat) (items : List Nat) (c : Cmd) : Cmd :=
  let counted := items.flatMap (countedItems s c)
  let gone := (items.map fun i => if ranked c.desc then groupLength s c i else 1).sum
  { c with
    bands := c.bands.filter fun e => decide (e.1 ≥ 2 ^ 32) || e.2 != b || (dOp c.desc = 0x32 && !items.contains e.1)
    loads := tput b (loadOf c b - gone) c.loads
    marked := c.marked.filter fun k => !(k % 4 = 2 && counted.contains (k / 2 ^ 30)) }

/-- The lost items of a command go back to the pending list, in their places. -/
def replay (b uid : Nat) (items : List Nat) (hurt : Bool) (s : State) : State :=
  match cmdOf s uid with
  | none => s
  | some c =>
    let s := { s with front := { s.front with items := items.map (fun i => (uid, placeOf s c i)) ++ s.front.items } }
    let s := putCmd (lostItems s b items c) s
    if hurt then flagCmd uid 3 s else s

/-- Responses to a block's reads are discarded (R441): the reads are nobody's. -/
def disownReads (b : Nat) (s : State) : State :=
  let fix : MemReq → MemReq := fun q => match q.owner with
    | .feed _ k _ _ => if k = b then { q with owner := .engine } else q
    | _ => q
  let fixPort : MemPort → MemPort := fun p =>
    { p with queue := p.queue.map fix, reads := p.reads.map fun o => { o with req := fix o.req } }
  { s with ports := s.ports.map fun e => (e.1, fixPort e.2) }

/-- R441 step 3: queues, banks, stationary registers, pass tag, reservations, arrival entries and scratchpad of a block.
Finished results that waited at its BVU for the write queue are written, as the commands' items are done. -/
def resetBlock (b : Nat) (s : State) : State :=
  let x := blockAt s b
  let lost := itemsIn x
  let s := modRegion (b / 40) (regionForget fun u i => lost.contains (u, i)) s
  let s := x.stall.foldl (fun s q => enqueue q s) s
  let cut : Nat × RxPacket → Nat × RxPacket := fun k => (k.1, if k.1 ≥ 8 ∧ bits k.2.addr 0 9 = b then { k.2 with drop := true } else k.2)
  let s := { s with links := s.links.map fun e => (e.1, { e.2 with packets := e.2.packets.map cut }) }
  let s := spClear b (disownReads b s)
  putBlock b { block0 with spLost := true, retired := x.retired, stretching := x.stretching, gated := x.gated, ramp := x.ramp
                         , idleRun := x.idleRun, filler := x.filler, busyAc := x.busyAc, idleAc := x.idleAc, splitSteps := x.splitSteps } s

/-! ### Re-validation (R441, R442, R445, R446) -/

/-- Every fourth, tenth or fortieth: batches of present, unretired blocks in ascending order. -/
def batchesOf (s : State) (n : Nat) (bs : List Nat) : List (List Nat) :=
  (chunks n (bs.filter fun b => !(blockAt s b).retired)).filter fun l => !l.isEmpty

/-- The blocks of a batch start their test. -/
def startBatch (l : List Nat) (s : State) : State := l.foldl (fun s b => modBlock b (fun x => { x with testing := true }) s) s

/-- A recovery is over: code 40h, and after a warm reset the boundary and PREOP (R436, R446). -/
def endRecovery (r : Recovery) (s : State) : State :=
  let s := { s with rel := { s.rel with recov := s.rel.recov.filter fun q => !(q.level = r.level && q.unit = r.unit) } }
  let s := if r.level = 2 then modRegion r.unit (fun x => { x with inReset := false }) s else s
  let s := if r.level = 3 then { s with regions := s.regions.map fun e => (e.1, { e.2 with inReset := false }) } else s
  let s := reportAs 3000 r.level r.entry 0x40 r.unit 0 0 0 none false s
  if allRetired s then
    enterFault { s with mgmt := { s.mgmt with recovering := if r.level = 3 then false else s.mgmt.recovering } }
  else if r.level = 3 then setSt 1 (boundary { s with mgmt := { s.mgmt with recovering := false, stopPending := false } })
  else s

/-- The recovery goes on: its next batch, or its end. -/
def nextBatch (r : Recovery) (s : State) : State :=
  match r.batches with
  | [] => endRecovery r s
  | l :: _ =>
    let swap : Recovery → Recovery := fun q => if q.level = r.level && q.unit = r.unit then r else q
    startBatch l { s with rel := { s.rel with recov := s.rel.recov.map swap } }

/-- The result of one block of the batch that runs. -/
def revalidated (r : Recovery) (b : Nat) (pass : Bool) (s : State) : State :=
  let inj := fires 9 b s
  let s := if inj.isSome then disarm 9 b s else s
  let s := if pass && inj.isNone then modBlock b (fun x => { x with testing := false, inReset := false }) s else retireBlock b r.entry s
  match r.batches with
  | [] => s
  | l :: rest =>
    let l := l.filter (· != b)
    if l.isEmpty then nextBatch { r with batches := rest } s
    else
      let swap : Recovery → Recovery := fun q => if q.level = r.level && q.unit = r.unit then { q with batches := l :: rest } else q
      { s with rel := { s.rel with recov := s.rel.recov.map swap } }

/-- R442. -/
def execRevalidationDone (b : Nat) (pass : Bool) (s : State) : Out :=
  match s.rel.recov.find? fun r => r.begun && (r.batches.headD []).contains b with
  | none => .next s
  | some r => event (live s) s (revalidated r b pass s)

/-! ### Block recovery (R441 to R443) -/

/-- Each command with work in the block is replayed or ends; how many end, and whether any is replayed. -/
def loseWork (b : Nat) (s : State) : Nat × Bool × State :=
  let x := blockAt s b
  let lost := itemsIn x
  let hurt := fun (uid : Nat) => x.job.any (fun (j : Job) => j.uid == uid && j.hurt != 0)
    || x.banks.any (fun k => k.st != 0 && k.uid == uid && k.acc.tile.poison != 0)
    || (x.bvu.toList ++ x.epi).any fun e => e.uid == uid && e.acc.tile.poison != 0
  let uids := lost.foldl (fun r e => if r.contains e.1 then r else r ++ [e.1]) []
  uids.foldl (fun (a : Nat × Bool × State) uid =>
    match cmdOf a.2.2 uid with
    | none => a
    | some c =>
      if c.decided || c.ending.isSome then a
      else if bit (odv s 0x6200 1) 0 && replayable c then
        (a.1, true, replay b uid ((lost.filter fun e => e.1 == uid).map (·.2)) (hurt uid) a.2.2)
      else (a.1 + 1, a.2.1, endCmd uid stResetAbort noDetail a.2.2)) (0, false, s)

/-- The whole recovery of a block up to its test. -/
def blockRecovery (r : Recovery) (s : State) : State :=
  let b := r.unit
  let w := loseWork b s
  let s := noteEnded r.entry w.1 w.2.1 w.2.2
  let s := odBump 0x6200 11 1 (resetBlock b s)
  let r := { r with begun := true, batches := [[b]] }
  if retireNow s b then endRecovery r (retireBlock b r.entry s) else nextBatch r s

def execBlockRecovery (b : Nat) (s : State) : Out :=
  match s.rel.recov.find? fun r => r.level = 1 && r.unit = b && !r.begun with
  | none => .next s
  | some r => event (live s) s (blockRecovery r s)

/-! ### Region recovery (R445) -/

/-- Commands with a work item, walk request or pin in a region, or with sums in its partial-sum area. -/
def usesRegion (s : State) (r : Nat) (c : Cmd) : Bool :=
  ((List.range 40).any fun i => (itemsIn (blockAt s (40 * r + i))).any fun e => e.1 == c.uid)
  || (regionAt s r).walks.any (fun w => w.uid == c.uid)
  || (regionAt s r).psum.any (fun e => e.1 == c.uid) || (regionAt s r).parts.any (fun e => e.1 == c.uid)
  || (c.pin.isSome && homeRegion s (cSeq c.desc) = r)
  || (match c.edit with | some e => e.sources.any fun p => homeRegion s p.seq = r | none => false)

/-- A promotion that is not committed runs again (R445). -/
def undoPromotion (s : State) (r : Nat) (c : Cmd) : Cmd :=
  match c.append with
  | some w =>
    match w.promoted with
    | some f => if homeRegion s (cSeq c.desc) = r then { c with append := some { w with promoted := none, sealed := f :: w.sealed } } else c
    | none => c
  | none => c

/-- Control cores and store of a region, and its blocks. -/
def resetRegion (r : Nat) (s : State) : State :=
  let s := { s with front := { s.front with cmds := s.front.cmds.map (undoPromotion s r) } }
  let bs := (List.range 40).map fun i => 40 * r + i
  let s := bs.foldl (fun s b => if (blockAt s b).retired then s else
    modBlock b (fun x => { x with inReset := true }) (resetBlock b s)) s
  modRegion r (fun x => { region0 with inReset := true, lastTest := x.lastTest, lastScrub := x.lastScrub, testNext := x.testNext }) s

def regionRecovery (r : Recovery) (s : State) : State :=
  let cs := s.front.cmds.filter fun c => !c.decided && c.ending.isNone && usesRegion s r.unit c
  let s := cs.foldl (fun s c => endCmd c.uid stResetAbort noDetail s) s
  let s := odBump 0x6200 12 1 (resetRegion r.unit (noteEnded r.entry cs.length false s))
  nextBatch { r with begun := true, batches := batchesOf s 10 ((List.range 40).map fun i => 40 * r.unit + i) } s

def execRegionRecovery (region : Nat) (s : State) : Out :=
  match s.rel.recov.find? fun r => r.level = 2 && r.unit = region && !r.begun with
  | none => .next s
  | some r => event (live s) s (regionRecovery r s)

/-! ### Apex warm reset (R446, R473) -/

/-- Memory requests in flight are discarded; their identifiers stay reserved. Writes that no port has taken yet are
still made, as they were due before the fault. -/
def discardRequests (s : State) : State :=
  let fix : MemPort → MemPort := fun p =>
    { p with queue := (p.queue.filter (·.write)).map fun q => { q with owner := .engine }
           , reads := p.reads.map fun o => { o with drop := true }, writes := p.writes.map fun o => { o with drop := true } }
  { s with ports := s.ports.map (fun e => (e.1, fix e.2)), paged := { s.paged with peatOut := [] } }

/-- Every command in flight ends and is decided at once. -/
def endAll (s : State) : State :=
  (s.front.cmds.filter fun c => !c.decided).foldl (fun s c =>
    let s := endCmd c.uid stResetAbort noDetail s
    let e := ((cmdOf s c.uid).bind (·.ending)).getD (stResetAbort, noDetail)
    decideCmd c.uid e.1 e.2 (modCmd c.uid (fun c => { c with writesOut := 0, acksOut := 0 }) s)) s

/-- Every managed flag slot returns to its reset value. -/
def resetFlags (s : State) : State := (List.range 4096).foldl (fun s i => resetFlag i s) s

/-- Releases, acknowledgements and pending work items are gone. -/
def dropTraffic (s : State) : State :=
  { s with localRels := [], remoteRels := [], acks := [], e2e := [], front := { s.front with items := [] } }

/-- The dictionary in INIT, in recovery. -/
def restartDictionary (s : State) : State :=
  odBump 0x6200 13 1 (setSt 0 { s with mgmt := { s.mgmt with stopPending := false, recovering := true }
                                     , rel := { s.rel with noAuto := false } })

/-- The reset of the apex, and its first batch of tests. -/
def warmReset (r : Recovery) (s : State) : State :=
  let n := (s.front.cmds.filter fun c => !c.decided).length
  let s := noteEnded r.entry n false (endAll s)
  let s := (List.range 6).foldl (fun s p => if [1, 2, 4].contains (linkAt s p).st then portLost p s else s) s
  let s := discardRequests (resetFlags (dropTraffic s))
  let s := restartDictionary ((presentRegions s).foldl (fun s g => resetRegion g s) s)
  nextBatch { r with begun := true, batches := batchesOf s 40 (presentBlocks s) } s

def execApexWarmReset (ok : Bool) (s : State) : Out :=
  match s.rel.recov.find? fun r => r.level = 3 && !r.begun with
  | none => .next s
  | some r => event (live s) s (if ok then warmReset r s else fatalFault r.entry s)

/-! ### In-service test and scrub (R102, R427, R437) -/

/-- The region's next block to test: ascending from the last one, wrapping. -/
def nextTested (s : State) (r : Nat) : Option Nat :=
  ((List.range 40).map fun i => 40 * r + ((regionAt s r).testNext + i) % 40).find? fun b => !(blockAt s b).retired

/-- Start-up is over, and the region works. -/
def regionInService (s : State) (r : Nat) : Bool := s.boot.stage = 15 && regionRuns s r

/-- R427: the block that is due gets no new work until its test has run. -/
def execInServiceTest (r : Nat) (s : State) : Out :=
  let n := odv s 0x6200 7
  match nextTested s r with
  | none => .next s
  | some b =>
    event (regionInService s r && n != 0 && decide (refNow s ≥ (regionAt s r).lastTest + 100000 * n)) s
      (modRegion r (fun x => { x with lastTest := refNow s, testNext := b % 40 + 1 }) (modBlock b (fun x => { x with testing := true }) s))

/-- R102, R427: the test of an idle block ends; a wrong signature is a block fault. -/
def testDone (b : Nat) (pass : Bool) (s : State) : State :=
  let inj := fires 9 b s
  let s := if inj.isSome then disarm 9 b s else s
  let s := modBlock b (fun x => { x with testing := false }) s
  if pass && inj.isNone then s else report 9 b 0 3 0 none inj.isSome s

def execBlockTestDone (b : Nat) (pass : Bool) (s : State) : Out :=
  let x := blockAt s b
  event (live s && s.boot.stage = 15 && x.testing && blockFree x && !x.gated && !blockFrozen s b) s (testDone b pass s)

/-- R423: the staged operand of a block is bad: the outputs of its group are poisoned. -/
def hurtBlock (r b : Nat) (inj : Bool) (s : State) : State :=
  report 0x11 r 0 1 0 none inj (modBlock b (fun x => { x with job := x.job.map fun (j : Job) => { j with hurt := j.hurt ||| (2 ^ 16 - 1) } }) s)

/-- R423: a bad line of a cache area is invalidated and fetched again when it is next needed (R438): a line of the read cache
by its address / 128, a page-table leaf as 2^46 + slot, a loam key as 2^47 + 64·frame + head. -/
def dropBadLine (r l : Nat) (inj : Bool) (s : State) : State :=
  report 0x12 r 0 2 (if l < 2 ^ 46 then 128 * l else 0) none inj (modRegion r (fun x =>
    if l < 2 ^ 46 then { x with lines := tdel l x.lines }
    else if l < 2 ^ 47 then { x with leaves := tdel (l - 2 ^ 46) x.leaves } else { x with loam := tdel (l - 2 ^ 47) x.loam }) s)

/-- What the cache areas of a region hold, as `dropBadLine` names it. -/
def cacheKeys (x : Region) : List Nat :=
  (x.lines.map fun e => e.1) ++ (x.leaves.map fun e => 2 ^ 46 + e.1) ++ x.loam.map fun e => 2 ^ 47 + e.1

/-- The scrub's own armed points (R454): 10h one bit, 11h one bit or, with `DOUBLE`, two, 12h two bits of a cache line. -/
def scrubInjected (r : Nat) (s : State) : State :=
  let s := match fires 0x10 r s with
    | some _ => report 0x10 r 0 2 0 none true (disarm 0x10 r s)
    | none => s
  let s := match fires 0x11 r s with
    | some true => hurtBlock r (40 * r) true (disarm 0x11 r s)
    | some false => report 0x10 r 0 2 0 none true (disarm 0x11 r s)
    | none => s
  match fires 0x12 r s, (cacheKeys (regionAt s r)).head? with
  | some _, some l => dropBadLine r l true (disarm 0x12 r s)
  | _, _ => s

/-- R437: the store is read and corrected. -/
def scrub (r single : Nat) (data lines : List Nat) (s : State) : State :=
  let s := modRegion r (fun x => { x with lastScrub := refNow s }) s
  let s := (List.range single).foldl (fun s _ => report 0x10 r 0 2 0 none false s) s
  let s := (data.filter fun b => b / 40 = r).foldl (fun s b => hurtBlock r b false s) s
  scrubInjected r (lines.foldl (fun s l => dropBadLine r l false s) s)

def execScrub (r single : Nat) (data lines : List Nat) (s : State) : Out :=
  event (regionInService s r && decide (refNow s ≥ (regionAt s r).lastScrub + 100000 * odv s 0x6200 8)) s (scrub r single data lines s)

/-! ### The Mire watch (R450) -/

/-- A task that a control core of the region could carry on with now. -/
def regionTask (s : State) (r : Nat) : Bool :=
  (regionAt s r).walks.any (walkCanGo s)
  || s.front.cmds.any (fun c => acting c && decide (c.writesOut = 0) && homeRegion s (cSeq c.desc) = r
      && ((match c.append with | some w => w.ready && !appendDone s c | none => false)
          || (match c.edit with | some e => e.started && decide (e.op < nOps c.desc) | none => false)))
  || (r = (presentRegions s).headD 0 && s.paged.retired.any (freeable s))

/-- Work that the apex could carry on with now. -/
def apexTask (s : State) : Bool :=
  (nextDispatch s).isSome || (recordWaiting s && decide (s.front.egress > 0)) || s.remoteRels.any (relReady s)
  || s.links.any fun e => e.2.st = 2 && (List.range 4).any fun vc => (nextOf s e.1 vc).isSome

/-- The block holds work and waits on nothing but its BVU (cause 10), or on its own step. -/
def blockStuck (s : State) (b : Nat) : Bool :=
  let x := blockAt s b
  !blockFree x && !x.gated && !x.retired && !blockFrozen s b && idleCause s b = 10

/-- One slot of every watch's time; all of them stand while a trip lasts. -/
def mireTick (s : State) : State :=
  if !live s || s.power.trip then s
  else
    let blocks := (presentBlocks s).foldl (fun t b =>
      let x := tget block0 t b
      if blockStuck s b then tput b { x with mire := x.mire + 1 } t
      else if blockFree x && x.mire != 0 then tput b { x with mire := 0 } t else t) s.blocks
    let regions := (presentRegions s).foldl (fun t r =>
      let x := tget region0 t r
      if regionRuns s r && regionTask s r then tput r { x with mire := x.mire + 1 } t else t) s.regions
    { s with blocks := blocks, regions := regions
           , rel := { s.rel with mire := if !s.mgmt.recovering && apexTask s then s.rel.mire + 1 else 0 } }

/-- What one step does on an empty queue (log entry 14). -/
def idleSlot (s : State) : State := mireTick (tick s)

/-- The code of a watch, whether its unit is watched now, its count and its limit in slots (1 500 to the µs). -/
def watchOf (s : State) (level unit : Nat) : Nat × Bool × Nat × Nat :=
  if level = 1 then
    let x := blockAt s unit
    (0x0A, blockPresent s unit && !blockFree x && !x.gated && !x.retired && !blockFrozen s unit, x.mire, 1500 * odv s 0x6300 1)
  else if level = 2 then
    (0x16, regionPresent s unit && !regionFrozen s unit && regionTask s unit, (regionAt s unit).mire, 1500 * odv s 0x6300 2)
  else (0x22, unit = 0 && !s.mgmt.recovering && apexTask s, s.rel.mire, 1500 * odv s 0x6300 3)

/-- A watch has reached its limit, or an armed point suppresses its progress events (R454). -/
def execMireWatchExpiry (level unit : Nat) (s : State) : Out :=
  let w := watchOf s level unit
  let inj := fires w.1 unit s
  let s1 := if inj.isSome then disarm w.1 unit s else s
  let s1 := if level = 1 then blockProgress unit s1 else if level = 2 then regionProgress unit s1 else apexProgress s1
  event (live s && decide (1 ≤ level ∧ level ≤ 3) && !s.power.trip && w.2.1 && (inj.isSome || decide (w.2.2.1 ≥ w.2.2.2))) s
    (report w.1 unit 0 0 0 none inj.isSome (odBump 0x6300 4 1 s1))

/-! ### Windows of corrected reports (R452) -/

/-- One hour of operating time is over: every count restarts. -/
def execCorrectedWindow (s : State) : Out :=
  event (live s && decide (opRef s ≥ s.rel.windowOp + 360000000000)) s
    { s with rel := { s.rel with corrected := [], windowOp := s.rel.windowOp + 360000000000 } }

end Sys2Proof.Machine
end

