-- ==== Sys2Proof/Machine/Dispatch.lean ====
section
/-! DEFINITION. One arm for each command: a direct call of its meaning. -/

namespace Sys2Proof.Machine

/-- The effect of a command on the block, its queue apart. -/
def exec (i : Instr) (s : State) : Host.Outcome State Fault Refusal :=
  match i with
  | .gemm d => Sys2Proof.Machine.execGemm d s
  | .gemmMultipassComplex d => Sys2Proof.Machine.execGemmMultipassComplex d s
  | .gemmMultipassFp32 d => Sys2Proof.Machine.execGemmMultipassFp32 d s
  | .attnFwd d => Sys2Proof.Machine.execAttnFwd d s
  | .attnBwd d => Sys2Proof.Machine.execAttnBwd d s
  | .attnCached d => Sys2Proof.Machine.execAttnCached d s
  | .attnMerge d => Sys2Proof.Machine.execAttnMerge d s
  | .routePages d => Sys2Proof.Machine.execRoutePages d s
  | .kvAppend d => Sys2Proof.Machine.execKvAppend d s
  | .ptEdit d => Sys2Proof.Machine.execPtEdit d s
  | .create tag => Sys2Proof.Machine.execCreate tag s
  | .release tag => Sys2Proof.Machine.execRelease tag s
  | .truncate tag => Sys2Proof.Machine.execTruncate tag s
  | .unmap tag => Sys2Proof.Machine.execUnmap tag s
  | .fork tag => Sys2Proof.Machine.execFork tag s
  | .setAttr tag => Sys2Proof.Machine.execSetAttr tag s
  | .pageDrop d => Sys2Proof.Machine.execPageDrop d s
  | .pageRestore d => Sys2Proof.Machine.execPageRestore d s
  | .scan d => Sys2Proof.Machine.execScan d s
  | .moeRoute d => Sys2Proof.Machine.execMoeRoute d s
  | .topk d => Sys2Proof.Machine.execTopk d s
  | .allGather d => Sys2Proof.Machine.execAllGather d s
  | .reduceScatter d => Sys2Proof.Machine.execReduceScatter d s
  | .allToAll d => Sys2Proof.Machine.execAllToAll d s
  | .collectiveAttnMerge d => Sys2Proof.Machine.execCollectiveAttnMerge d s
  | .permute d => Sys2Proof.Machine.execPermute d s
  | .copy d => Sys2Proof.Machine.execCopy d s
  | .siltCopy d => Sys2Proof.Machine.execSiltCopy d s
  | .flagReleaseSet d => Sys2Proof.Machine.execFlagReleaseSet d s
  | .flagReleaseAdd d => Sys2Proof.Machine.execFlagReleaseAdd d s
  | .flagAcquire d => Sys2Proof.Machine.execFlagAcquire d s
  | .fence d => Sys2Proof.Machine.execFence d s
  | .hint d => Sys2Proof.Machine.execHint d s
  | .nop d => Sys2Proof.Machine.execNop d s
  | .ingressProtocolError => Sys2Proof.Machine.execIngressProtocolError s
  | .argBlockReadDone tag => Sys2Proof.Machine.execArgBlockReadDone tag s
  | .commandDispatch => Sys2Proof.Machine.execCommandDispatch s
  | .workItemPlace b => Sys2Proof.Machine.execWorkItemPlace b s
  | .psumReservationGrant b => Sys2Proof.Machine.execPsumReservationGrant b s
  | .walkRequest region => Sys2Proof.Machine.execWalkRequest region s
  | .arrayStep b => Sys2Proof.Machine.execArrayStep b s
  | .stationaryLoadDone b => Sys2Proof.Machine.execStationaryLoadDone b s
  | .tileDrain b => Sys2Proof.Machine.execTileDrain b s
  | .drainEnd b => Sys2Proof.Machine.execDrainEnd b s
  | .prologueTile b => Sys2Proof.Machine.execPrologueTile b s
  | .epilogueTile b => Sys2Proof.Machine.execEpilogueTile b s
  | .packTimeout tag => Sys2Proof.Machine.execPackTimeout tag s
  | .deadlineExpiry tag late => Sys2Proof.Machine.execDeadlineExpiry tag late s
  | .arrivalTilePresent b entry => Sys2Proof.Machine.execArrivalTilePresent b entry s
  | .frameAllocation tag => Sys2Proof.Machine.execFrameAllocation tag s
  | .appendTokenCommit tag => Sys2Proof.Machine.execAppendTokenCommit tag s
  | .pagePromotion tag => Sys2Proof.Machine.execPagePromotion tag s
  | .promotionCommit tag => Sys2Proof.Machine.execPromotionCommit tag s
  | .pageDropAuto pool => Sys2Proof.Machine.execPageDropAuto pool s
  | .peatRequestPost => Sys2Proof.Machine.execPeatRequestPost s
  | .retiredObjectFree => Sys2Proof.Machine.execRetiredObjectFree s
  | .poolShrinkMove pool => Sys2Proof.Machine.execPoolShrinkMove pool s
  | .quiescentBoundary => Sys2Proof.Machine.execQuiescentBoundary s
  | .profileSwitchComplete => Sys2Proof.Machine.execProfileSwitchComplete s
  | .completionDecided tag => Sys2Proof.Machine.execCompletionDecided tag s
  | .completionRecordSend => Sys2Proof.Machine.execCompletionRecordSend s
  | .cplCredit => Sys2Proof.Machine.execCplCredit s
  | .funcDisable mask => Sys2Proof.Machine.execFuncDisable mask s
  | .dictWrite index sub bytes => Sys2Proof.Machine.execDictWrite index sub bytes s
  | .read tr frame => Sys2Proof.Machine.execRead tr frame s
  | .write tr frame => Sys2Proof.Machine.execWrite tr frame s
  | .segRead tr frame => Sys2Proof.Machine.execSegRead tr frame s
  | .segWrite tr frame => Sys2Proof.Machine.execSegWrite tr frame s
  | .snapshot tr frame => Sys2Proof.Machine.execSnapshot tr frame s
  | .describe tr frame => Sys2Proof.Machine.execDescribe tr frame s
  | .cancel tr frame => Sys2Proof.Machine.execCancel tr frame s
  | .sessionTimeout tr => Sys2Proof.Machine.execSessionTimeout tr s
  | .mctp frame => Sys2Proof.Machine.execMctp frame s
  | .setEndpointId => Sys2Proof.Machine.execSetEndpointId s
  | .getEndpointId => Sys2Proof.Machine.execGetEndpointId s
  | .getMctpVersionSupport => Sys2Proof.Machine.execGetMctpVersionSupport s
  | .getMessageTypeSupport => Sys2Proof.Machine.execGetMessageTypeSupport s
  | .getVendorDefinedMessageSupport => Sys2Proof.Machine.execGetVendorDefinedMessageSupport s
  | .dictionaryMessage => Sys2Proof.Machine.execDictionaryMessage s
  | .getVersion => Sys2Proof.Machine.execGetVersion s
  | .getCapabilities => Sys2Proof.Machine.execGetCapabilities s
  | .negotiateAlgorithms => Sys2Proof.Machine.execNegotiateAlgorithms s
  | .getDigests => Sys2Proof.Machine.execGetDigests s
  | .getCertificate => Sys2Proof.Machine.execGetCertificate s
  | .challenge => Sys2Proof.Machine.execChallenge s
  | .getMeasurements => Sys2Proof.Machine.execGetMeasurements s
  | .spdmUnsupportedRequest => Sys2Proof.Machine.execSpdmUnsupportedRequest s
  | .requestOperational => Sys2Proof.Machine.execRequestOperational s
  | .requestStopped => Sys2Proof.Machine.execRequestStopped s
  | .biasCommit v => Sys2Proof.Machine.execBiasCommit v s
  | .routeCommit v => Sys2Proof.Machine.execRouteCommit v s
  | .flagReset slot => Sys2Proof.Machine.execFlagReset slot s
  | .portRetrain p v => Sys2Proof.Machine.execPortRetrain p v s
  | .errorAck n => Sys2Proof.Machine.execErrorAck n s
  | .inject v => Sys2Proof.Machine.execInject v s
  | .spRestored b => Sys2Proof.Machine.execSpRestored b s
  | .poolShrink p target => Sys2Proof.Machine.execPoolShrink p target s
  | .accSelect v => Sys2Proof.Machine.execAccSelect v s
  | .accWindow => Sys2Proof.Machine.execAccWindow s
  | .linkKeySlot p slot bytes => Sys2Proof.Machine.execLinkKeySlot p slot bytes s
  | .txKeySlot p v => Sys2Proof.Machine.execTxKeySlot p v s
  | .keyClear p v => Sys2Proof.Machine.execKeyClear p v s
  | .unlockResponse bytes => Sys2Proof.Machine.execUnlockResponse bytes s
  | .relock v => Sys2Proof.Machine.execRelock v s
  | .unlockHoldEnd => Sys2Proof.Machine.execUnlockHoldEnd s
  | .unlockDurationEnd => Sys2Proof.Machine.execUnlockDurationEnd s
  | .remoteFlagApply => Sys2Proof.Machine.execRemoteFlagApply s
  | .acquireTimeout tag => Sys2Proof.Machine.execAcquireTimeout tag s
  | .acquireInvalidationEnd tag => Sys2Proof.Machine.execAcquireInvalidationEnd tag s
  | .nullFlit p f fec => Sys2Proof.Machine.execNullFlit p f fec s
  | .headFlit p f fec => Sys2Proof.Machine.execHeadFlit p f fec s
  | .dataFlit p f fec => Sys2Proof.Machine.execDataFlit p f fec s
  | .smallFlit p f fec => Sys2Proof.Machine.execSmallFlit p f fec s
  | .flagFlit p f fec => Sys2Proof.Machine.execFlagFlit p f fec s
  | .ackFlit p f fec => Sys2Proof.Machine.execAckFlit p f fec s
  | .heartbeatFlit p f fec => Sys2Proof.Machine.execHeartbeatFlit p f fec s
  | .ctrlTraining p t => Sys2Proof.Machine.execCtrlTraining p t s
  | .ctrlRetryRequest p seq => Sys2Proof.Machine.execCtrlRetryRequest p seq s
  | .abortFlit p f fec => Sys2Proof.Machine.execAbortFlit p f fec s
  | .flitSlot p => Sys2Proof.Machine.execFlitSlot p s
  | .heartbeatSend p => Sys2Proof.Machine.execHeartbeatSend p s
  | .retryRequestResend p => Sys2Proof.Machine.execRetryRequestResend p s
  | .hbTimeout p => Sys2Proof.Machine.execHbTimeout p s
  | .e2eTimeout tag => Sys2Proof.Machine.execE2eTimeout tag s
  | .trainingTimeout p => Sys2Proof.Machine.execTrainingTimeout p s
  | .phyReady p => Sys2Proof.Machine.execPhyReady p s
  | .phyLockLoss p => Sys2Proof.Machine.execPhyLockLoss p s
  | .memRequestIssue n => Sys2Proof.Machine.execMemRequestIssue n s
  | .memReqCredit n => Sys2Proof.Machine.execMemReqCredit n s
  | .memReadResponse n rsp data par => Sys2Proof.Machine.execMemReadResponse n rsp data par s
  | .memWriteResponse n rsp => Sys2Proof.Machine.execMemWriteResponse n rsp s
  | .memRespTimeout n wr id => Sys2Proof.Machine.execMemRespTimeout n wr id s
  | .droopTrip b => Sys2Proof.Machine.execDroopTrip b s
  | .stretchEnd b => Sys2Proof.Machine.execStretchEnd b s
  | .powerLoopEval est amps5 => Sys2Proof.Machine.execPowerLoopEval est amps5 s
  | .blockGated b => Sys2Proof.Machine.execBlockGated b s
  | .thermalEval temp => Sys2Proof.Machine.execThermalEval temp s
  | .thermalTrip temp => Sys2Proof.Machine.execThermalTrip temp s
  | .thermalTripEnd temp => Sys2Proof.Machine.execThermalTripEnd temp s
  | .marlCapRequest code => Sys2Proof.Machine.execMarlCapRequest code s
  | .marlFrame => Sys2Proof.Machine.execMarlFrame s
  | .trimPeriodEnd slack => Sys2Proof.Machine.execTrimPeriodEnd slack s
  | .marginFloorReport region slack => Sys2Proof.Machine.execMarginFloorReport region slack s
  | .trimCheckEnd slack => Sys2Proof.Machine.execTrimCheckEnd slack s
  | .avsAck => Sys2Proof.Machine.execAvsAck s
  | .avsTimeout => Sys2Proof.Machine.execAvsTimeout s
  | .rampAdmissionStep => Sys2Proof.Machine.execRampAdmissionStep s
  | .rampClose => Sys2Proof.Machine.execRampClose s
  | .fallingRampStep b => Sys2Proof.Machine.execFallingRampStep b s
  | .preRampStep => Sys2Proof.Machine.execPreRampStep s
  | .errorReportAccept level unit => Sys2Proof.Machine.execErrorReportAccept level unit s
  | .scrub region single data lines => Sys2Proof.Machine.execScrub region single data lines s
  | .inServiceTest region => Sys2Proof.Machine.execInServiceTest region s
  | .blockTestDone b pass => Sys2Proof.Machine.execBlockTestDone b pass s
  | .blockRecovery b => Sys2Proof.Machine.execBlockRecovery b s
  | .revalidationDone b pass => Sys2Proof.Machine.execRevalidationDone b pass s
  | .regionRecovery region => Sys2Proof.Machine.execRegionRecovery region s
  | .apexWarmReset ok => Sys2Proof.Machine.execApexWarmReset ok s
  | .mireWatchExpiry level unit => Sys2Proof.Machine.execMireWatchExpiry level unit s
  | .correctedWindow => Sys2Proof.Machine.execCorrectedWindow s
  | .pwrGoodRise => Sys2Proof.Machine.execPwrGoodRise s
  | .pwrGoodFall => Sys2Proof.Machine.execPwrGoodFall s
  | .resetNFall => Sys2Proof.Machine.execResetNFall s
  | .resetNRise => Sys2Proof.Machine.execResetNRise s
  | .strapSample levels => Sys2Proof.Machine.execStrapSample levels s
  | .pllLock => Sys2Proof.Machine.execPllLock s
  | .fuseLoadDone f => Sys2Proof.Machine.execFuseLoadDone f s
  | .firmwareVerifyDone readFailed => Sys2Proof.Machine.execFirmwareVerifyDone readFailed s
  | .controlCoresStarted => Sys2Proof.Machine.execControlCoresStarted s
  | .selfTestBatchDone failed => Sys2Proof.Machine.execSelfTestBatchDone failed s
  | .pllLockLoss => Sys2Proof.Machine.execPllLockLoss s
  | .idcode => Sys2Proof.Machine.execIdcode s
  | .bypass => Sys2Proof.Machine.execBypass s
  | .extest => Sys2Proof.Machine.execExtest s
  | .pllLockTimeout => Sys2Proof.Machine.execPllLockTimeout s
  | .staticBootCodeStart => Sys2Proof.Machine.execStaticBootCodeStart s
  | .ieee1687InstrumentAccess => Sys2Proof.Machine.execIeee1687InstrumentAccess s
  | .unknownOpcode d => Sys2Proof.Machine.execUnknownOpcode d s
  | .hintIntervalEnd => Sys2Proof.Machine.execHintIntervalEnd s
  | .preRampExpiry b => Sys2Proof.Machine.execPreRampExpiry b s

end Sys2Proof.Machine
end

