-- ==== Sys2Proof/Safety.lean ====
section
/-! DEFINITION. What counts as a safe state: the relations between parts of the state that the manual keeps, as an
invariant that statements use; and the commands that reach the block while its logic stands still. -/

namespace Sys2Proof

open Sys2Proof.Machine

/-- Host memory and the scratchpads are in canonical form; `STATE` is one of Table 13.3 (R380); the steps of the two
control loops are at most 15 (R406, R411); the Marl cap code has four bits (R409); `AVS_VID` is at most 40 (R476); a
rising ramp has admitted at most step 7 (R417). -/
structure EngineInv (s : State) : Prop where
  mem : Memory.wf s.mem = true
  sp : Memory.wf s.sp = true
  st : s.mgmt.st ≤ 4
  cap : s.power.cap ≤ 15
  therm : s.power.therm ≤ 15
  code : s.power.code ≤ 15
  vid : s.power.vid ≤ 40
  ramp : s.power.rampStep ≤ 7

/-- Pins, straps, fuses, the root PLL and the test access port: what acts before the engine's logic runs
(R457 to R464, R478 to R480). -/
def boundaryRow : Instr → Bool
  | .pwrGoodRise | .pwrGoodFall | .resetNFall | .resetNRise | .strapSample _ | .staticBootCodeStart | .pllLock
  | .pllLockTimeout | .fuseLoadDone _ | .idcode | .bypass | .extest | .ieee1687InstrumentAccess => true
  | _ => false

/-- The descriptor of a row on the command ingress port, when it spells the row's command (Table 09.4). -/
def descriptorOf : Instr → Option Descriptor
  | .gemm d => if dOp d = 1 then some d else none
  | .gemmMultipassComplex d => if dOp d = 2 ∧ fld d 404 2 ≠ 1 then some d else none
  | .gemmMultipassFp32 d => if dOp d = 2 ∧ fld d 404 2 = 1 then some d else none
  | .attnFwd d => if dOp d = 0x10 then some d else none
  | .attnBwd d => if dOp d = 0x11 then some d else none
  | .attnCached d => if dOp d = 0x12 then some d else none
  | .attnMerge d => if dOp d = 0x13 then some d else none
  | .routePages d => if dOp d = 0x18 then some d else none
  | .kvAppend d => if dOp d = 0x20 then some d else none
  | .ptEdit d => if dOp d = 0x21 then some d else none
  | .pageDrop d => if dOp d = 0x22 then some d else none
  | .pageRestore d => if dOp d = 0x23 then some d else none
  | .scan d => if dOp d = 0x30 then some d else none
  | .moeRoute d => if dOp d = 0x31 then some d else none
  | .topk d => if dOp d = 0x32 then some d else none
  | .allGather d => if dOp d = 0x40 ∧ (fld d 256 4 = 0 ∨ fld d 256 4 > 3) then some d else none
  | .reduceScatter d => if dOp d = 0x40 ∧ fld d 256 4 = 1 then some d else none
  | .allToAll d => if dOp d = 0x40 ∧ fld d 256 4 = 2 then some d else none
  | .collectiveAttnMerge d => if dOp d = 0x40 ∧ fld d 256 4 = 3 then some d else none
  | .permute d => if dOp d = 0x41 then some d else none
  | .copy d => if dOp d = 0x50 then some d else none
  | .siltCopy d => if dOp d = 0x51 then some d else none
  | .flagReleaseSet d => if dOp d = 0x60 ∧ fld d 287 2 ≠ 1 then some d else none
  | .flagReleaseAdd d => if dOp d = 0x60 ∧ fld d 287 2 = 1 then some d else none
  | .flagAcquire d => if dOp d = 0x61 then some d else none
  | .fence d => if dOp d = 0x62 then some d else none
  | .hint d => if dOp d = 0x70 then some d else none
  | .nop d => if dOp d = 0x7F then some d else none
  | .unknownOpcode d => if (opClass (dOp d)).isNone then some d else none
  | _ => none

/-- The entry and the bytes that a row writes, for the rows that are one write of one dictionary entry. -/
def writeOf : Instr → Option (Nat × Nat × List Byte)
  | .dictWrite idx sub bs => some (idx, sub, bs)
  | .funcDisable mask => some (0x2100, 1, toBytes 2 mask.toNat)
  | .requestOperational => some (0x1F80, 2, [2])
  | .requestStopped => some (0x1F80, 2, [3])
  | .biasCommit v => some (0x3100, 2, toBytes 1 v)
  | .routeCommit v => some (0x4300, 2, toBytes 1 v)
  | .flagReset slot => some (0x2400, 4, toBytes 2 slot)
  | .portRetrain p v => some (0x4010, 0x30 + p, toBytes 1 v)
  | .errorAck n => some (0x6000, 3, toBytes 4 n)
  | .inject v => some (0x6100, 1, toBytes 4 v.toNat)
  | .spRestored b => some (0x6200, 6, toBytes 2 b)
  | .poolShrink p target => some (0x3200, 0x60 + p, toBytes 4 target)
  | .accSelect v => some (0x9000, 1, toBytes 4 v.toNat)
  | .linkKeySlot p slot bs => some (0x8200, 0x10 + 0x10 * slot + p, bs)
  | .txKeySlot p v => some (0x8200, 0x30 + p, toBytes 1 v)
  | .keyClear p v => some (0x8200, 0x50 + p, toBytes 1 v)
  | .unlockResponse bs => some (0x8300, 2, bs)
  | .relock v => some (0x8300, 5, toBytes 1 v)
  | _ => none

/-- Every check of R376 passes for the write that a row makes. -/
def writePasses (s : State) (i : Instr) : Bool :=
  match writeOf i with
  | none => false
  | some (idx, sub, bs) =>
    match odFind idx sub with
    | none => false
    | some r => writeAbort s r idx sub bs = 0

/-- The state after an accepted write: its outcome is recorded as success. -/
def answered (s : State) : State := { s with mgmt := { s.mgmt with lastAbort := 0 } }

/-- The state after a rejected write: nothing changes but the recorded outcome. -/
def aborted (code : Nat) (s : State) : State := { s with mgmt := { s.mgmt with lastAbort := code } }

end Sys2Proof
end

