-- ==== Sys2Proof/Certificates/Slice0/Obligations.lean ====
section
/-! DEFINITION. The statements for the provers, in the order of OBLIGATIONS.json. -/

open Sys2Proof Sys2Proof.Machine

/-- A step with a command at the front of the queue is exec of it with the rest of the queue (the queue is the model's
own). Rests on 95_what_each_step_holds.md. -/
def Obligations.StepRunsFrontCommand : Prop :=
  ∀ (c : Instr) (rest : List Instr) (s : State), s.pending = c :: rest → step s = exec c { s with pending := rest }

/-- A step on an empty queue counts one slot of time, and every idle AC of a block has one cause. Rests on
01_engine_overview.md; 14_power_and_thermal.md; 15_reliability.md. -/
def Obligations.IdleStepRules : Prop :=
  (
  ∀ s : State, s.pending = [] → ∃ t, step s = .next t
    ∧ t.clocks.slot = s.clocks.slot + 1
    ∧ t.clocks.fc = s.clocks.fc + (if live s then pulses (16 - apexStep s) s.clocks.slot else 0)
    ∧ t.clocks.opSlot = s.clocks.opSlot + (if live s = true ∧ (s.mgmt.st = 2 ∨ s.mgmt.st = 3) then 1 else 0)
    ∧ (live s = true → ∀ r ∈ t.localRels, r ∈ s.localRels ∧ ¬ r.fc < t.clocks.fc)
    ∧ (live s = false ∨ s.localRels = [] →
        t = { s with clocks := t.clocks, blocks := t.blocks, regions := t.regions, od := t.od, fresh := t.fresh,
                     rel := { s.rel with mire := t.rel.mire } }))
  ∧ (
  ∀ s : State, s.pending = [] → live s = true → s.localRels = [] → ∃ t, step s = .next t
    ∧ (∀ b ∈ countingBlocks s, 1 ≤ idleCause s b ∧ idleCause s b ≤ 12
        ∧ (blockAt t b).idleAc = (blockAt s b).idleAc.set (idleCause s b)
            ((blockAt s b).idleAc.getD (idleCause s b) 0 + blockAcs s (blockAt s b)))
    ∧ (∀ b, b ∉ countingBlocks s → (blockAt t b).idleAc = (blockAt s b).idleAc)
    ∧ ∀ b, (blockAt t b).busyAc = (blockAt s b).busyAc)

/-- Every command answers a next state, and one that needs the engine's logic changes nothing while that logic stands
still. Rests on 95_what_each_step_holds.md; 16_boundary_and_startup.md. -/
def Obligations.CommandsCompleteOrAreIgnored : Prop :=
  (
  ∀ (c : Instr) (s : State), ∃ t, exec c s = .next t ∧ t.pending = s.pending)
  ∧ (
  ∀ (c : Instr) (s : State), live s = false → boundaryRow c = false → exec c s = .next s)

/-- What reset leaves in the registers whose reset values the manual gives. Rests on 10_memory_model.md;
13_object_dictionary.md; 16_boundary_and_startup.md. -/
def Obligations.StateAfterReset : Prop :=
  State.reset.mgmt.st = 0 ∧ State.reset.front.cmds = [] ∧ State.reset.front.credits = 0 ∧ State.reset.pending = []
  ∧ (∀ idx sub, odv State.reset idx sub = odDefault (odKey idx sub))
  ∧ (∀ i, (flagAt State.reset i).value = 0 ∧ (flagAt State.reset i).scope = 7 ∧ (flagAt State.reset i).src = 0
      ∧ (flagAt State.reset i).remote = false)
  ∧ State.reset.power.vid = 30 ∧ stepInForce State.reset = 0 ∧ State.reset.power.code = 0
  ∧ State.reset.sec.grant = 0 ∧ (∀ p, (linkAt State.reset p).st = 0) ∧ State.reset.rel.log = []

/-- What the reset and power pins, the straps and the root PLL do, and that loss of power acts as a reset. Rests on
16_boundary_and_startup.md; 17_security_and_debug.md. -/
def Obligations.ResetAndPowerRows : Prop :=
  (
  (∀ s : State, s.boot.resetN = true → ∃ t, exec .resetNFall s = .next t ∧ live t = false
      ∧ t.boot = { Boot.atReset with pwrGood := s.boot.pwrGood } ∧ t.power.vid = s.power.vid ∧ t.power.trim = 0
      ∧ t.od = [] ∧ t.mgmt = Mgmt.atReset ∧ t.front = Front.atReset ∧ t.blocks = [] ∧ t.regions = [] ∧ t.ports = []
      ∧ t.flags = [] ∧ t.links = [] ∧ t.groups = [] ∧ t.paged = Paged.atReset ∧ t.rel = Rel.atReset ∧ t.sp = []
      ∧ t.marl = Marl.atReset ∧ t.sec.grant = 0 ∧ t.clocks.fc = 0
      ∧ t.mem = s.mem ∧ t.memPoison = s.memPoison ∧ t.pending = s.pending)
  ∧ (∀ s : State, s.boot.pwrGood = false → ∃ t, exec .pwrGoodRise s = .next t
      ∧ t.boot = { Boot.atReset with pwrGood := true, resetN := s.boot.resetN } ∧ t.power.vid = 30
      ∧ t.od = [] ∧ t.mgmt = Mgmt.atReset ∧ t.front = Front.atReset ∧ t.blocks = [] ∧ t.rel = Rel.atReset
      ∧ t.mem = s.mem ∧ t.pending = s.pending)
  ∧ (∀ s : State, s.boot.pwrGood = true → s.boot.resetN = false →
      exec .resetNRise s = .next { s with
        boot := { s.boot with resetN := true, resetRef := refNow s }
        sec := { s.sec with nonce := Config.nonce s.fresh }
        fresh := s.fresh + 1 }))
  ∧ (
  ∀ s : State, s.boot.pwrGood = true → s.boot.resetN = true →
    ∃ t u, exec .pwrGoodFall s = .next t ∧ exec .resetNFall s = .next u ∧ live t = false
      ∧ t = { u with boot := { Boot.atReset with pwrGood := false, resetN := true } })

/-- Start-up goes step by step to the boot image, and a failed first step ends in FAULT with its failure code. Rests
on 16_boundary_and_startup.md; 17_security_and_debug.md; 01_engine_overview.md. -/
def Obligations.StartUpRows : Prop :=
  (
  ∀ s : State, s.boot.pwrGood = true → s.boot.resetN = true →
    (∀ v : BitVec 24, s.boot.dead = false → s.boot.strapDone = false →
      exec (.strapSample v) s = .next { s with boot := { s.boot with
        straps := v, strapDone := true, stage := 1, strapBad := decide (v.toNat / 2048 ≠ 0 ∨ v.toNat % 4 = 3) } })
    ∧ (s.boot.frames = false → s.boot.staticCode = false →
      exec .staticBootCodeStart s = .next { s with boot := { s.boot with staticCode := true } })
    ∧ (s.boot.dead = false → s.boot.strapDone = true → s.boot.pll = false → s.boot.failure = 0 →
      (s.boot.fuseDone = false →
        exec .pllLock s = .next { s with boot := { s.boot with pll := true, frames := true, staticCode := false, stage := 2 } })
      ∧ ∃ t, exec .pllLockTimeout s = .next t ∧ t.mgmt.st = 4
          ∧ t.boot = { s.boot with failure := 1, staticCode := true } ∧ t.front = s.front)
    ∧ (∀ f : FuseValues, s.boot.dead = false → s.boot.strapDone = true → s.boot.fuseDone = false → s.boot.pll = false →
      ∃ t, exec (.fuseLoadDone f) s = .next t ∧ t.boot.fuseDone = true ∧ t.power.vFuse = f.vFuseMv
        ∧ t.sec.serial = f.serial ∧ t.sec.repair = f.repair ∧ t.boot.fuseDisable = BitVec.ofNat 8 f.fuseDisable
        ∧ t.sec.lifecycle = (if f.returnedMarker = 0x2A5A5A5 then 3 else if f.deployedMarker = 0x2A5A5A5 then 2
            else if f.provisionedMarker = 0x2A5A5A5 then 1 else 0)
        ∧ (t.boot.fuseBad = true ↔ f.uncorrectable = true
            ∨ ∃ m ∈ f.provisionedMarker :: f.deployedMarker :: f.returnedMarker :: f.svnMarkers, m ≠ 0 ∧ m ≠ 0x2A5A5A5)
        ∧ t = { s with boot := t.boot, power := t.power, sec := t.sec }))
  ∧ (
  ∀ s : State, s.boot.pwrGood = true → s.boot.resetN = true → s.boot.dead = false → s.boot.strapDone = true →
    s.boot.pll = false → s.boot.failure = 0 → s.boot.fuseDone = true → s.power.avsWait = false →
    ∃ t, exec .pllLock s = .next t ∧ t.boot.frames = true ∧
      let present := BitVec.ofNat 8 (s.boot.straps.toNat / 8 % 256) &&& ~~~ s.boot.fuseDisable
      let code := if s.boot.strapBad then 3 else if s.boot.fuseBad then 2 else if present = 0 then 4 else 0
      t.boot.failure = code ∧ (code ≠ 0 → t.mgmt.st = 4)
      ∧ (code = 0 → t.boot.present = present ∧ t.mgmt.st = s.mgmt.st
          ∧ ((t.power.avsWait = true ∧ t.boot.stage = 3)
             ∨ (t.power.vid = t.power.vidTarget ∧ t.boot.stage = 4 + t.boot.location ∧ t.boot.location ≤ 1))))

/-- An AVS request not acknowledged within 1 ms is counted, and during start-up ends it in FAULT with code 7.
Formalises R477. -/
def Obligations.VoltageTimeout : Prop :=
  ∀ s : State, live s = true → s.power.avsWait = true → s.power.avsLate = false → refNow s ≥ s.power.avsRef + 100000 →
    ∃ t, exec .avsTimeout s = .next t ∧ odv t 0x2300 5 = (odv s 0x2300 5 + 1) % 2 ^ 32
      ∧ t.power = { s.power with avsLate := true }
      ∧ (s.boot.stage = 3 ∧ s.boot.failure = 0 → t.mgmt.st = 4 ∧ t.boot = { s.boot with failure := 7 })
      ∧ (¬ (s.boot.stage = 3 ∧ s.boot.failure = 0) → t = { s with power := t.power, od := t.od })

/-- Firmware segments, the self-test batches and the test access port do what the start-up and test rules say. Rests
on 16_boundary_and_startup.md; 15_reliability.md; 17_security_and_debug.md. -/
def Obligations.FirmwareSelfTestAndTapRows : Prop :=
  (
  ∀ s : State, live s = true →
    (∀ bad, (s.boot.stage = 4 ∨ s.boot.stage = 5) → s.boot.failure = 0 → ∃ t, exec (.firmwareVerifyDone bad) s = .next t
      ∧ (∀ img, checkImage s bad (imageBase s.boot.location) = .inr img →
          t.boot = { s.boot with image := img, verified := true, stage := 7 } ∧ t.mgmt = s.mgmt)
      ∧ (∀ code, checkImage s bad (imageBase s.boot.location) = .inl code →
          (s.boot.straps.toNat % 4 = 2 ∧ s.boot.location = 0 →
            t = { s with boot := { s.boot with location := 1, fallback := true, stage := 5 } })
          ∧ (¬ (s.boot.straps.toNat % 4 = 2 ∧ s.boot.location = 0) →
            t.mgmt.st = 4 ∧ t.boot = { s.boot with failure := code })))
    ∧ (s.boot.stage = 7 → s.boot.failure = 0 → ∃ t, exec .controlCoresStarted s = .next t
        ∧ t = { s with boot := { s.boot with stage := 8, batch := 0 }, blocks := t.blocks }
        ∧ ∀ b ∈ presentBlocks s, blockAt t b = if (blockAt s b).retired then blockAt s b
            else { blockAt s b with testing := decide (b % 40 / 4 = 0), gated := decide (b % 40 / 4 ≠ 0 ∨ s.power.trip = true) })
    ∧ (∀ failed, s.boot.stage = 8 → s.boot.failure = 0 → s.power.trip = false → s.boot.batch < 9 → ∃ t, exec (.selfTestBatchDone failed) s = .next t
        ∧ t.boot = { s.boot with batch := s.boot.batch + 1 }
        ∧ ∀ b ∈ presentBlocks s, b % 40 / 4 = s.boot.batch → b ∈ failed → (blockAt t b).retired = true)
    ∧ (s.boot.stage = 8 → s.boot.failure = 0 → s.power.trip = false → s.boot.batch = 9 → (∀ b, fires 9 b s = none) →
        (∃ b ∈ presentBlocks s, (blockAt s b).retired = false) → ∃ t, exec (.selfTestBatchDone []) s = .next t
        ∧ t.mgmt.st = 1 ∧ t.boot = { s.boot with stage := 15 } ∧ t.sp = [] ∧ t.spPoison = []
        ∧ ∀ b ∈ presentBlocks s, (blockAt s b).retired = false → (blockAt t b).gated = marked (stepInForce s) b ∧ (blockAt t b).testing = false)
    ∧ exec .pllLockLoss s = .next { s with boot := { s.boot with dead := true, failure := 10, frames := false, staticCode := true } })
  ∧ (
  ∀ s : State, s.boot.pwrGood = true →
    (∃ v : BitVec 32, exec .idcode s = .next { s with sec := { s.sec with tapIr := 1, tapOut := v } }
      ∧ fld v 28 4 = 2 ∧ fld v 12 16 = 0x4A34 ∧ fld v 0 1 = 1)
    ∧ exec .bypass s = .next { s with sec := { s.sec with tapIr := 0, tapOut := 0 } }
    ∧ exec .extest s = .next { s with sec := { s.sec with
        tapIr := if s.sec.tapOk = true ∧ s.boot.resetN = false then 2 else 0, tapOut := 0 } }
    ∧ exec .ieee1687InstrumentAccess s = .next { s with sec := { s.sec with
        tapIr := if s.sec.tapOk = true ∨ (s.sec.lifecycle = 2 ∧ bit s.sec.grant 3 = true) then 3 else 0, tapOut := 0 } })

/-- CAP_IN_FORCE is the lower of POWER_CAP and the Marl cap, whose code is taken after two equal samples. Formalises
R409. -/
def Obligations.MarlCapInForce : Prop :=
  (∀ s : State, odNow s 0x5000 2 = min (odv s 0x5000 1) (880 - 40 * s.power.code) ∧ odNow s 0x5000 4 = s.power.code)
  ∧ (∀ (a b : BitVec 4) (s : State), live s = true → s.boot.frames = true →
      ∃ t u, exec (.marlCapRequest a) s = .next t ∧ exec (.marlCapRequest b) t = .next u
        ∧ u.power.code = (if a = b then b.toNat else t.power.code) ∧ u.power.code ≤ max 15 t.power.code
        ∧ t = { s with power := { s.power with lastCode := a.toNat, codeRun := t.power.codeRun, code := t.power.code } }
        ∧ u = { t with power := { t.power with lastCode := b.toNat, codeRun := u.power.codeRun, code := u.power.code } })

/-- The power loop applies the first of its five rules that holds. Rests on 14_power_and_thermal.md. -/
def Obligations.PowerLoopRules : Prop :=
  ∀ (est amps : Nat) (s : State), live s = true → ∃ t, exec (.powerLoopEval est amps) s = .next t ∧
    (let cap := capInForce s
     let calm := est * 100 ≤ 95 * cap ∧ refNow s ≥ s.power.calmRef + 10000
     (est * 100 > 125 * cap → t.power.filler = 0 ∧ t.power.cap = min 15 (s.power.cap + 4))
     ∧ (est * 100 ≤ 125 * cap → est > cap → s.power.filler > 0 →
         t.power.filler = s.power.filler - 10 ∧ t.power.cap = s.power.cap)
     ∧ (est * 100 ≤ 125 * cap → est > cap → s.power.filler = 0 →
         t.power.filler = 0 ∧ t.power.cap = min 15 (s.power.cap + 1))
     ∧ (est ≤ cap → calm → s.power.cap > 0 →
         t.power.cap = s.power.cap - 1 ∧ t.power.filler = s.power.filler ∧ t.power.calmRef = refNow s)
     ∧ (est ≤ cap → calm → s.power.cap = 0 → t.power.cap = 0
         ∧ t.power.filler = max s.power.filler (min (s.power.filler + 10) (odv s 0x5010 1)))
     ∧ (est ≤ cap → ¬ calm → t.power.cap = s.power.cap ∧ t.power.filler = s.power.filler))
    ∧ t.power.therm = s.power.therm ∧ t.power.vid = s.power.vid ∧ t.power.trim = s.power.trim
    ∧ t.front = s.front ∧ t.links = s.links ∧ t.flags = s.flags ∧ t.sp = s.sp ∧ t.paged = s.paged ∧ t.mgmt = s.mgmt

/-- The thermal step, the thermal trip and its end. Rests on 14_power_and_thermal.md. -/
def Obligations.ThermalRows : Prop :=
  ∀ (temp : Int) (s : State), live s = true →
    (∃ t, exec (.thermalEval temp) s = .next t ∧ t.power.tempMax = temp ∧ t.power.cap = s.power.cap
      ∧ stepInForce t = max t.power.cap t.power.therm ∧ t.front = s.front ∧ t.flags = s.flags
      ∧ (temp ≥ odv s 0x5200 4 * 8 → t.power.therm = min 15 (s.power.therm + 1))
      ∧ (temp < odv s 0x5200 4 * 8 → (temp > odv s 0x5200 4 * 8 - 24 ∨ s.power.therm = 0
          ∨ refNow s < max s.power.coolRef s.power.thermRef + 100000) → t.power.therm = s.power.therm)
      ∧ (temp ≤ odv s 0x5200 4 * 8 - 24 → s.power.therm > 0 →
          refNow s ≥ max s.power.coolRef s.power.thermRef + 100000 → t.power.therm = s.power.therm - 1))
    ∧ (temp ≥ 110 * 8 → s.power.trip = false → ∃ t, exec (.thermalTrip temp) s = .next t
        ∧ t.power = { s.power with trip := true, tempMax := temp } ∧ (∀ b ∈ presentBlocks s, (blockAt t b).gated = true)
        ∧ min 8 (odv t 0x5200 3) ≤ apexStep t ∧ t.front = s.front ∧ t.flags = s.flags)
    ∧ (temp ≤ odv s 0x5200 4 * 8 → s.power.trip = true → ∃ t, exec (.thermalTripEnd temp) s = .next t
        ∧ t.power.trip = false ∧ t.power.therm = 15 ∧ t.power.tempMax = temp ∧ t.front = s.front ∧ t.flags = s.flags)

/-- A trim period, a floor report and the check after OPERATIONAL set the trim; an acknowledged voltage lets the next
request go. Rests on 14_power_and_thermal.md; 16_boundary_and_startup.md. -/
def Obligations.TrimAndVoltageRows : Prop :=
  (
  ∀ s : State, live s = true →
    (∀ slack, opRef s ≥ s.power.periodOp + 8640000000000 → ∃ t, exec (.trimPeriodEnd slack) s = .next t
      ∧ t.power.trim = (if slack ≥ s.power.raiseTh then min 60 (s.power.trim + 5)
          else if slack < s.power.holdTh then s.power.trim - 5 else s.power.trim)
      ∧ t.power.periodOp = opRef s ∧ t.power.vidTarget = (s.power.vFuse - t.power.trim - 650) / 5
      ∧ odv t 0x5100 6 = (odv s 0x5100 6 + 1) % 2 ^ 32 ∧ t = { s with power := t.power, od := t.od })
    ∧ (∀ region slack, regionPresent s region = true → slack < s.power.floorTh →
        ∃ t, exec (.marginFloorReport region slack) s = .next t
      ∧ t.power.trim = s.power.trim - 10 ∧ t.power.periodOp = opRef s
      ∧ t.power.vidTarget = (s.power.vFuse - t.power.trim - 650) / 5 ∧ t = { s with power := t.power, od := t.od, rel := t.rel })
    ∧ (∀ slack, s.power.trimCheck = true → refNow s ≥ s.power.trimRef + 100000 → ∃ t, exec (.trimCheckEnd slack) s = .next t
      ∧ t.power.trim = (if slack ≥ s.power.holdTh then s.power.trim else 0) ∧ t.power.trimCheck = false
      ∧ (slack ≥ s.power.holdTh → t = { s with power := { s.power with trimCheck := false } })
      ∧ t = { s with power := t.power, od := t.od, rel := t.rel }))
  ∧ (
  ∀ s : State, live s = true → s.power.avsWait = true → s.boot.stage ≠ 3 → s.power.vid ≤ 40 →
    ∃ t, exec .avsAck s = .next t ∧ t.power.vidAck = s.power.vid ∧ t = { s with power := t.power }
      ∧ (s.power.vid = s.power.vidTarget →
          t.power.avsWait = false ∧ t.power.vid = s.power.vid ∧ t.power.avsReq = s.power.avsReq)
      ∧ (s.power.vid ≠ s.power.vidTarget →
          t.power.avsWait = true ∧ t.power.avsReq = !s.power.avsReq ∧ t.power.avsRef = refNow s
          ∧ t.power.vid ≤ 40 ∧ t.power.vid ≤ s.power.vid + 2 ∧ s.power.vid ≤ t.power.vid + 2))

/-- Block clocks stretch, stop and start, and ramps, falling ramps and hints run as their rules say. Rests on
14_power_and_thermal.md. -/
def Obligations.BlockClockAndRampRows : Prop :=
  (
  ∀ (b : Nat) (s : State), live s = true →
    (blockPresent s b = true → (blockAt s b).stretching = false → (blockAt s b).gated = false → (blockAt s b).retired = false →
      ∃ t, exec (.droopTrip b) s = .next t ∧ odv t 0x2300 3 = (odv s 0x2300 3 + 1) % 2 ^ 64
        ∧ t = { s with blocks := tput b { blockAt s b with stretching := true } s.blocks, od := t.od })
    ∧ ((blockAt s b).stretching = true →
        exec (.stretchEnd b) s = .next { s with blocks := tput b { blockAt s b with stretching := false } s.blocks })
    ∧ (blockPresent s b = true → marked (stepInForce s) b = true → blockIdle (blockAt s b) = true → (blockAt s b).gated = false →
        exec (.blockGated b) s = .next { s with blocks := tput b { blockAt s b with gated := true } s.blocks })
    ∧ ((blockAt s b).fall > 0 → (blockAt s b).gated = false →
        mcNow s ≥ (blockAt s b).fallMc + 3 * odv s 0x5020 1 / 64 →
        exec (.fallingRampStep b) s = .next { s with
          blocks := tput b { blockAt s b with fall := (blockAt s b).fall - 1, fallMc := mcNow s } s.blocks })
    ∧ ((blockAt s b).preRamp = 8 → blockIdle (blockAt s b) = true →
        (∀ h, s.power.hint = some h → s.clocks.fc ≥ h.startFc + h.leadFc + 3 * odv s 0x5020 1 / 2) →
        exec (.preRampExpiry b) s = .next { s with
          blocks := tput b { blockAt s b with fall := 8, fallMc := mcNow s, preRamp := 0 } s.blocks }))
  ∧ (
  ∀ s : State, live s = true →
    (s.power.rampOpen = true → s.power.rampStep < 7 →
      mcNow s ≥ s.power.rampMc + (s.power.rampStep + 1) * (3 * odv s 0x5020 1 / 64) → ∃ t, exec .rampAdmissionStep s = .next t
        ∧ t = { s with power := { s.power with rampStep := s.power.rampStep + 1 }, blocks := t.blocks }
        ∧ ∀ b, blockAt t b = if b % 40 / 5 ≤ s.power.rampStep + 1 then { blockAt s b with ramp := false } else blockAt s b)
    ∧ (s.power.rampOpen = true → mcNow s ≥ s.power.rampMc + 3 * odv s 0x5020 1 / 8 → ∃ t, exec .rampClose s = .next t
        ∧ t = { s with power := { s.power with rampOpen := false, rampStep := 0 }, blocks := t.blocks }
        ∧ ∀ b, blockAt t b = { blockAt s b with ramp := false })
    ∧ (∀ h, s.power.hint = some h → 2 ≤ h.phase → h.phase ≤ 6 → h.leadFc ≥ 64 → h.steps < 8 →
        (let n := min h.leadFc (3 * odv s 0x5020 1 / 2)
         s.clocks.fc ≥ h.startFc + h.leadFc - n + n * (h.steps + 1) / 8) → ∃ t, exec .preRampStep s = .next t
        ∧ t = { s with power := { s.power with hint := some { h with steps := h.steps + 1 } }, blocks := t.blocks }
        ∧ ∀ b, blockAt t b =
            if b ∈ presentBlocks s ∧ blockIdle (blockAt s b) = true ∧ (blockAt s b).gated = false ∧ (blockAt s b).retired = false
            then { blockAt s b with preRamp := h.steps + 1 } else blockAt s b)
    ∧ (∀ h, s.power.hint = some h → s.clocks.fc ≥ h.startFc + h.leadFc + h.lenFc → ∃ t, exec .hintIntervalEnd s = .next t
        ∧ t = { s with power := { s.power with hint := none }, blocks := t.blocks }
        ∧ (h.phase ≠ 7 → t.blocks = s.blocks)
        ∧ ∀ b, blockAt t b =
            if h.phase = 7 ∧ b ∈ countingBlocks s ∧ (blockAt s b).gated = false ∧ blockIdle (blockAt s b) = true
                ∧ bit (odv s 0x5010 2) (idleCause s b) = false ∧ (blockAt s b).fall = 0
                ∧ (blockAt s b).idleRun ≤ 2 * (s.clocks.fc - (h.startFc + h.leadFc))
            then { blockAt s b with fall := 8, fallMc := mcNow s, preRamp := 0 } else blockAt s b))

/-- A Marl frame numbers itself and drives slots A to T2 from the registers they show. Rests on
16_boundary_and_startup.md; 14_power_and_thermal.md. -/
def Obligations.MarlFrameRow : Prop :=
  ∀ s : State, live s = true → s.boot.frames = true → ∃ (t : State) (a b c t1 d t2 : BitVec 24),
    exec .marlFrame s = .next t ∧ t = { s with marl := t.marl, fresh := s.fresh + 1 }
    ∧ t.marl.num = s.marl.num + 1 ∧ t.marl.frame = [a, b, c, t1, d, t2]
    ∧ fld a 16 4 = stepInForce s % 16 ∧ fld a 23 1 = (if s.power.rampOpen then 1 else 0)
    ∧ fld b 0 8 = errorRegister s % 256 ∧ fld b 16 4 = s.boot.stage % 16 ∧ fld b 20 4 = s.mgmt.st % 16
    ∧ fld t1 0 16 = s.marl.num % 65536 ∧ fld d 20 4 = s.power.lastCode % 16

/-- A descriptor with a credit, a good check and a free tag is accepted, whatever its later checks say. Rests on
09_commands.md. -/
def Obligations.AcceptedDescriptors : Prop :=
  ∀ (i : Instr) (d : Descriptor) (s : State), descriptorOf i = some d → live s = true → s.front.credits > 0 →
    fires 0x23 0 s = none → dCrcOk d = true → byTag s (dTag d) = none →
    ∃ t c, exec i s = .next t ∧ byTag t (dTag d) = some c ∧ c.uid = s.front.nextUid ∧ c.desc = d
      ∧ c.acceptFc = s.clocks.fc ∧ c.dispatched = false ∧ c.decided = false ∧ c.ending = none
      ∧ c.biasBank = odv s 0x3100 1 ∧ c.routeBank = odv s 0x4300 1 ∧ c.softmaxDef = odv s 0x3000 1
      ∧ t.front.cmds.map (fun x => (x.uid, x.desc)) = s.front.cmds.map (fun x => (x.uid, x.desc)) ++ [(s.front.nextUid, d)]
      ∧ t.front.nextUid = s.front.nextUid + 1 ∧ t.front.refusals = s.front.refusals ∧ t.front.sent = s.front.sent
      ∧ t.links = s.links ∧ t.flags = s.flags ∧ t.sp = s.sp ∧ t.paged = s.paged ∧ t.mgmt = s.mgmt ∧ t.power = s.power

/-- A descriptor is refused exactly for a bad DESC_CRC or a tag in flight, and a refusal has no other effect.
Formalises R260. -/
def Obligations.RefusedDescriptors : Prop :=
  ∀ (i : Instr) (d : Descriptor) (s : State), descriptorOf i = some d → live s = true → s.front.credits > 0 →
    fires 0x23 0 s = none →
    (dCrcOk d = false ∨ (byTag s (dTag d)).isSome = true →
      ∃ t r, exec i s = .next t ∧ t.front.refusals = s.front.refusals ++ [(s.clocks.fc, r)]
        ∧ fld r 0 9 = dTag d ∧ fld r 9 6 = dStream d ∧ fld r 15 1 = 1 ∧ fld r 16 8 = dOp d ∧ fld r 24 8 = 0
        ∧ fld r 32 16 = (if dCrcOk d then 0x0104 else 0x0103) ∧ fld r 48 16 = 0 ∧ fld r 64 32 = dUser d ∧ fld r 96 144 = 0
        ∧ fld r 240 16 = crc16 (toBytes 30 (fld r 0 240))
        ∧ t.front.cmds = s.front.cmds ∧ t.front.nextUid = s.front.nextUid ∧ t.front.sent = s.front.sent
        ∧ t = { s with front := t.front, od := t.od, rel := t.rel })
    ∧ (dCrcOk d = true → byTag s (dTag d) = none → ∃ t, exec i s = .next t ∧ t.front.refusals = s.front.refusals)

/-- Beats without a credit are reported and accept nothing; an egress credit counts one. Rests on 09_commands.md;
15_reliability.md. -/
def Obligations.NoCreditNoCommand : Prop :=
  ∀ s : State, live s = true →
    (∀ (i : Instr) (d : Descriptor), descriptorOf i = some d → s.front.credits = 0 → exec i s = exec .ingressProtocolError s)
    ∧ (∃ t, exec .ingressProtocolError s = .next t ∧ t = { s with rel := t.rel, od := t.od }
        ∧ ((tget [] s.rel.queues 3000).length < 16 → t.od = s.od ∧ ∃ r : Report, r.code = 0x25 ∧ r.severity = 2
            ∧ t.rel = { s.rel with queues := tput 3000 (tget [] s.rel.queues 3000 ++ [r]) s.rel.queues })
        ∧ ((tget [] s.rel.queues 3000).length ≥ 16 → t.rel = s.rel ∧ odv t 0x6000 4 = (odv s 0x6000 4 + 1) % 2 ^ 32))
    ∧ exec .cplCredit s = .next { s with front := { s.front with egress := s.front.egress + 1 } }

/-- A command waits on the commands that hold its wait tags in flight, undecided, when it is accepted. Rests on
09_commands.md. -/
def Obligations.WaitTagsAtAcceptance : Prop :=
  (∀ (s : State) (d : Descriptor) (u : Nat), u ∈ (newCmd s d).waits ↔
      ∃ i < 4, dWaitValid d i = true ∧ ∃ x, byTag s (dWaitTag d i) = some x ∧ x.decided = false ∧ x.uid = u)
  ∧ (∀ (s : State) (d : Descriptor), (∀ x ∈ s.front.cmds, x.uid < s.front.nextUid) →
      ∀ u ∈ (newCmd s d).waits, u < (newCmd s d).uid)
  ∧ (∀ (s : State) (d : Descriptor) (i : Nat), i < 4 → dWaitValid d i = true → dWaitTag d i = dTag d →
      ∀ a b, frontCheck s a b d ≠ none)

/-- A fenced command follows every earlier command of its stream and precedes every later one. Formalises R276. -/
def Obligations.FenceOrder : Prop :=
  (∀ (s : State) (c : Cmd), nextDispatch s = some c → c ∈ s.front.cmds
      ∧ (dFence c.desc = true → ∀ x ∈ s.front.cmds, x.uid < c.uid → dStream x.desc = dStream c.desc → x.decided = true)
      ∧ (∀ x ∈ s.front.cmds, x.uid < c.uid → dStream x.desc = dStream c.desc → dFence x.desc = true → x.decided = true))
  ∧ (∀ (s : State) (c : Cmd), bit (odv s 0x2200 1) (dStream c.desc) = true →
      (orderMet s c = true ↔ ∀ x ∈ s.front.cmds, x.uid < c.uid → dStream x.desc = dStream c.desc → x.decided = true))

/-- A dispatch takes the command the scheduler names, starts it or completes it as rejected. Rests on 09_commands.md.
-/
def Obligations.DispatchRow : Prop :=
  ∀ (s : State) (c : Cmd), live s = true → fires 0x20 0 s = none → nextDispatch s = some c →
    c.dispatched = false ∧ c.decided = false ∧ (c.argDone = true ∨ rejectedEarly c = true) ∧ c.waits = []
    ∧ ∃ t, exec .commandDispatch s = .next t ∧ t.front.lastStream = dStream c.desc ∧ t.front.nextUid = s.front.nextUid
      ∧ (∀ st det, c.reject = some (st, det) → ∃ x ∈ t.front.cmds, x.uid = c.uid ∧ x.decided = true ∧ x.status = st
          ∧ x.decidedFc = s.clocks.fc)
      ∧ (c.reject = none → (dOp c.desc = 0x62 ∨ dOp c.desc = 0x7F) →
          (∃ x ∈ t.front.cmds, x.uid = c.uid ∧ x.dispatched = true ∧ x.dispatchFc = s.clocks.fc)
          ∧ t = { s with front := t.front, rel := { s.rel with mire := 0 } })

/-- The argument block read: a good block gives the slots and the command goes on; a failed read, poison or a bad
ARG_CRC rejects. Rests on 09_commands.md; 15_reliability.md. -/
def Obligations.ArgumentBlockRows : Prop :=
  ∀ (s : State) (tag : Nat) (c : Cmd), live s = true → byTag s tag = some c → c.argDone = false → c.argWait = [] →
    cmdOf s c.uid = some c → c.ending = none → c.decided = false → c.reject = none → fires 0x24 0 s = none →
    let bs := hostBytes s (dArgAddr c.desc) (16 * dArgSlots c.desc)
    let slots := (List.range (dArgSlots c.desc)).map fun i => BitVec.ofNat 128 (ofBytes ((bs.drop (16 * i)).take 16))
    (c.argFail = false → c.argPoison = false → crc32c bs = dArgCrc c.desc → ∃ x : Cmd,
      exec (.argBlockReadDone tag) s = .next { s with
          front := { s.front with cmds := s.front.cmds.map fun y => if y.uid = c.uid then { x with desc := y.desc } else y } }
      ∧ x = { c with argDone := true, slots := slots, reject := x.reject }
      ∧ (argFaults s c.desc slots = [] → x.reject = none)
      ∧ (argFaults s c.desc slots ≠ [] → ∃ det ∈ argFaults s c.desc slots,
          (∀ b ∈ argFaults s c.desc slots, det ≤ b) ∧ x.reject = some (0x0100, det)))
    ∧ (c.argFail = true ∨ c.argPoison = true ∨ crc32c bs ≠ dArgCrc c.desc →
      ∃ t x det, exec (.argBlockReadDone tag) s = .next t ∧ cmdOf t c.uid = some x
        ∧ x = { c with argDone := true, slots := slots, reject := some (0x0105, det), flags := c.flags ||| 8 }
        ∧ (∀ y ∈ s.front.cmds, y.uid ≠ c.uid → y ∈ t.front.cmds)
        ∧ t = { s with front := { s.front with cmds := t.front.cmds }, rel := t.rel, od := t.od })

/-- A command completes when its work is done, a fence when the earlier commands are, and its record goes out in
decision order. Rests on 09_commands.md; 10_memory_model.md. -/
def Obligations.CompletionRows : Prop :=
  (
  ∀ (s : State) (tag : Nat) (c : Cmd), live s = true → byTag s tag = some c →
    (c.decided = true ∨ c.writesOut ≠ 0 ∨ (c.ending = none ∧ (c.dispatched = false ∨ workDone s c = false ∨ c.acksOut ≠ 0
        ∨ s.clocks.fc < c.readyFc)) →
      exec (.completionDecided tag) s = .next s)
    ∧ (c.decided = false → c.writesOut = 0 →
        (c.ending.isSome = true ∨ (c.dispatched = true ∧ workDone s c = true ∧ c.acksOut = 0 ∧ s.clocks.fc ≥ c.readyFc)) → isColl c.desc = false →
      ∃ t x, exec (.completionDecided tag) s = .next t ∧ cmdOf t c.uid = some x ∧ x.decided = true
        ∧ x.decidedFc = s.clocks.fc ∧ x.pin = none
        ∧ x.status = (match c.ending with
            | some e => e.1
            | none => if c.marked ≠ [] then 0x0300 else if c.flags ≠ 0 then 1 else 0)
        ∧ t.front.cmds.map (fun y => (y.uid, y.desc)) = s.front.cmds.map (fun y => (y.uid, y.desc))
        ∧ (∀ y ∈ t.front.cmds, c.uid ∉ y.waits)))
  ∧ (
  ∀ (s : State) (tag : Nat) (c : Cmd), live s = true → byTag s tag = some c → dOp c.desc = 0x62 →
    c.dispatched = true → c.decided = false → c.ending = none → c.writesOut = 0 → c.acksOut = 0 →
    s.clocks.fc ≥ c.readyFc →
    ((∀ x ∈ s.front.cmds, x.uid < c.uid → bit (fld c.desc 256 64) (dStream x.desc) = true → x.decided = true) →
      ∃ t x, exec (.completionDecided tag) s = .next t ∧ cmdOf t c.uid = some x ∧ x.decided = true)
    ∧ ((∃ x ∈ s.front.cmds, x.uid < c.uid ∧ bit (fld c.desc 256 64) (dStream x.desc) = true ∧ x.decided = false) →
      exec (.completionDecided tag) s = .next s))
  ∧ (
  ∀ s : State, live s = true → s.front.egress > 0 → recordWaiting s = true → ∃ t, exec .completionRecordSend s = .next t
    ∧ t = { s with front := t.front, rel := { s.rel with mire := 0 } } ∧ t.front.egress = s.front.egress - 1
    ∧ ((∃ r rest, s.front.refusals = r :: rest ∧ t.front.refusals = rest ∧ t.front.sent = s.front.sent ++ [r.2]
          ∧ t.front.cmds = s.front.cmds)
      ∨ (∃ c ∈ s.front.cmds, c.decided = true ∧ t.front.sent = s.front.sent ++ [cmdRecord c] ∧ t.front.refusals = s.front.refusals
          ∧ t.front.cmds = s.front.cmds.filter (fun x => x.uid != c.uid)
          ∧ (∀ x ∈ s.front.cmds, x.decided = true →
              c.decidedFc < x.decidedFc ∨ (c.decidedFc = x.decidedFc ∧ dTag c.desc ≤ dTag x.desc))
          ∧ (∀ r, s.front.refusals.head? = some r →
              c.decidedFc < r.1 ∨ (c.decidedFc = r.1 ∧ dTag c.desc ≤ bits r.2.toNat 0 9)))))

/-- DEADLINE in an opcode without one, or a group neither READY nor FAILED, rejects with DESC_INVALID. Formalises
R270, R353. -/
def Obligations.FieldRulesReject : Prop :=
  ∀ (i : Instr) (d : Descriptor) (s : State), descriptorOf i = some d → live s = true → s.front.credits > 0 →
    fires 0x23 0 s = none → dCrcOk d = true → byTag s (dTag d) = none → s.mgmt.st = 2 → s.mgmt.stopPending = false →
    dKaolin d = false → (∀ k, opClass (dOp d) = some k → k < 9 → bit (odv s 0x2100 1) k = true) →
    ((dDeadline d ≠ 0 ∧ dOp d ∉ [0x10, 0x11, 0x12, 0x18])
      ∨ (dOp d ∈ [0x40, 0x41] ∧ (groupAt s (fld d 260 8)).st ∉ [1, 2])
      ∨ (dOp d = 0x31 ∧ (groupAt s (fld d 302 8)).st ∉ [1, 2])) →
    ∃ t c det, exec i s = .next t ∧ byTag t (dTag d) = some c ∧ c.desc = d ∧ c.reject = some (0x0100, det)

/-- Every access to one 128-byte line goes to one port in the order presented, and a port serves the regions in turn.
Rests on 10_memory_model.md; 16_boundary_and_startup.md. -/
def Obligations.MemoryPortOrder : Prop :=
  (∀ a, portOf a = ((a / 2 ^ 7 % 16) ^^^ (a / 2 ^ 11 % 16) ^^^ (a / 2 ^ 15 % 16) ^^^ (a / 2 ^ 19 % 16)))
  ∧ (∀ a a', a / 128 = a' / 128 → portOf a = portOf a') ∧ (∀ a, portOf a < 16)
  ∧ (∀ (q : MemReq) (s : State), ((mportAt (enqueue q s) (portOf q.addr)).queue.map (·.addr)
        = (mportAt s (portOf q.addr)).queue.map (·.addr) ++ [q.addr])
      ∧ ∀ n, n ≠ portOf q.addr → mportAt (enqueue q s) n = mportAt s n)
  ∧ (∀ (n : Nat) (q : MemReq) (s : State), live s = true → n < 16 → (mportAt s n).credits > 0 → nextRequest s n = some q →
      ∃ pre rest id, (mportAt s n).queue = pre ++ q :: rest ∧ (∀ x ∈ pre, x.addr ≠ q.addr)
        ∧ (if q.write then (mportAt s n).writes else (mportAt s n).reads).length < 4096
        ∧ (∀ o ∈ (if q.write then (mportAt s n).writes else (mportAt s n).reads), o.id ≠ id) ∧ id < 4096
        ∧ (let o : Outst := { id := id, req := q, refAt := refNow s, drop := false }
           let p := mportAt s n
           let t := { s with ports := tput n { credits := p.credits - 1, queue := pre ++ rest, lastRegion := reqRegion q,
                                               reads := if q.write then p.reads else p.reads ++ [o],
                                               writes := if q.write then p.writes ++ [o] else p.writes } s.ports }
           exec (.memRequestIssue n) s = .next (match q.owner with | .cmd _ b => if b < 320 then unstall b t else t | _ => t)))
  ∧ (∀ (n : Nat) (s : State), (∀ x ∈ (mportAt s n).queue, reqRegion x ≤ 8) →
      (mportAt s n).reads.length < 4096 → (mportAt s n).writes.length < 4096 →
      ((mportAt s n).queue ≠ [] → nextRequest s n ≠ none)
      ∧ ∀ (q x : MemReq) (i k : Nat) (pre rest : List MemReq), nextRequest s n = some q → k < 9 → i < k →
          reqRegion q = ((mportAt s n).lastRegion + 1 + k) % 9 → reqRegion x = ((mportAt s n).lastRegion + 1 + i) % 9 →
          (mportAt s n).queue = pre ++ x :: rest → ∃ y ∈ pre, y.addr = x.addr)
  ∧ (∀ (n : Nat) (s : State), live s = true → n < 16 →
      exec (.memReqCredit n) s = .next { s with ports := tput n { mportAt s n with credits := (mportAt s n).credits + 1 } s.ports })

/-- A host write and a scratchpad write read back as written, and leave every other byte as it was. Rests on
10_memory_model.md. -/
def Obligations.WritesReadBack : Prop :=
  (
  ∀ (a : Nat) (bs : List Byte) (bad : Bool) (o : MemOwner) (prio : Bool) (s : State), a + bs.length ≤ 2 ^ 52 →
    (let t := hostWrite a bs bad o prio s
     (bad = false → ∀ i (h : i < bs.length), hostByte t (a + i) = bs[i])
     ∧ (∀ x, ¬ (a ≤ x ∧ x < a + bs.length) → memGet t.mem x = memGet s.mem x)
     ∧ (∀ r i, i < bs.length → cached t r ((a + i) / 128) = none)
     ∧ t.sp = s.sp ∧ t.flags = s.flags ∧ t.links = s.links ∧ t.od = s.od
     ∧ ∀ b, blockAt t b = { blockAt s b with stall := (blockAt t b).stall }))
  ∧ (
  ∀ (b a : Nat) (bs : List Byte) (bad : Bool) (s : State), a + bs.length ≤ 0x80000 →
    (let t := spWrite b a bs bad s
     (bad = false → ∀ i (h : i < bs.length), spByte t b (a + i) = bs[i])
     ∧ (∀ b' x, x < 0x80000 → ¬ (b' = b ∧ a ≤ x ∧ x < a + bs.length) → spByte t b' x = spByte s b' x)
     ∧ t = { s with sp := t.sp, spPoison := t.spPoison, fresh := t.fresh }))

/-- A good read response brings its line; a failed or unanswered read poisons it; a stray response is reported. Rests
on 10_memory_model.md; 15_reliability.md; 16_boundary_and_startup.md. -/
def Obligations.ReadResponseRow : Prop :=
  ∀ (n : Nat) (rsp : Word) (data : BitVec 1024) (par : BitVec 16) (s : State), live s = true → n < 16 →
    fires 0x28 n s = none → fires 0x29 n s = none →
    (∀ o, evenPar 32 rsp.toNat = true → (mportAt s n).reads.find? (fun x => x.id = fld rsp 0 12) = some o → o.drop = false →
      fld rsp 12 2 = 0 → fld rsp 14 2 = 0 → o.req.addr % 128 = 0 → o.req.addr < 2 ^ 52 →
      (∀ w < 16, evenPar 65 (fld data (64 * w) 64 + fld par w 1 * 2 ^ 64) = true) →
      ∃ t, exec (.memReadResponse n rsp data par) s = .next t
        ∧ (∀ i < 128, memGet t.mem (o.req.addr + i)
            = if o.req.wbe.toNat.testBit i then memGet s.mem (o.req.addr + i) else BitVec.ofNat 8 (fld data (8 * i) 8))
        ∧ (∀ x, ¬ (o.req.addr ≤ x ∧ x < o.req.addr + 128) → memGet t.mem x = memGet s.mem x)
        ∧ (∀ x ∈ (mportAt t n).reads, x.id ≠ o.id) ∧ t.sp = s.sp ∧ t.flags = s.flags ∧ t.od = s.od ∧ t.rel = s.rel)
    ∧ (∀ o, evenPar 32 rsp.toNat = true → (mportAt s n).reads.find? (fun x => x.id = fld rsp 0 12) = some o → o.drop = false →
      fld rsp 12 2 ≠ 0 → ∃ t, exec (.memReadResponse n rsp data par) s = .next t
        ∧ t.mem = s.mem ∧ (∀ x ∈ (mportAt t n).reads, x.id ≠ o.id) ∧ t.sp = s.sp ∧ t.flags = s.flags
        ∧ (∀ u, o.req.owner = .args u → ∀ c ∈ t.front.cmds, c.uid = u → c.argFail = true))
    ∧ ((evenPar 32 rsp.toNat = false ∨ (mportAt s n).reads.find? (fun x => x.id = fld rsp 0 12) = none) →
      ∃ t, exec (.memReadResponse n rsp data par) s = .next t ∧ t = { s with rel := t.rel, od := t.od })
    ∧ (∀ (id : Nat) (o : Outst), (mportAt s n).reads.find? (fun x => x.id = id) = some o → o.req.write = false →
      o.drop = false → refNow s ≥ o.refAt + odv s 0x6200 10 → ∃ t, exec (.memRespTimeout n false id) s = .next t
        ∧ t.mem = s.mem ∧ (∀ x ∈ (mportAt t n).reads, x.id ≠ o.id)
        ∧ (∀ u, o.req.owner = .args u → ∀ c ∈ t.front.cmds, c.uid = u → c.argFail = true))

/-- A write's acknowledgement lowers its command's outstanding writes; a failed or unanswered one ends the command.
Rests on 10_memory_model.md; 15_reliability.md; 16_boundary_and_startup.md. -/
def Obligations.WriteResponseRow : Prop :=
  ∀ (n : Nat) (rsp : BitVec 16) (s : State), live s = true → n < 16 → fires 0x29 n s = none →
    (∀ o u b, evenPar 16 rsp.toNat = true → (mportAt s n).writes.find? (fun x => x.id = fld rsp 0 12) = some o →
      o.drop = false → o.req.owner = .cmd u b →
      (fld rsp 12 2 = 0 → ∃ t, exec (.memWriteResponse n rsp) s = .next t
        ∧ t.front.cmds = s.front.cmds.map (fun c => if c.uid = u then { c with writesOut := c.writesOut - 1 } else c)
        ∧ (∀ x ∈ (mportAt t n).writes, x.id ≠ o.id)
        ∧ t = { s with ports := t.ports, front := { s.front with cmds := t.front.cmds } })
      ∧ (fld rsp 12 2 ≠ 0 → ∃ t, exec (.memWriteResponse n rsp) s = .next t ∧ t.mem = s.mem ∧ t.sp = s.sp
        ∧ (∀ x ∈ (mportAt t n).writes, x.id ≠ o.id)
        ∧ ∀ c, cmdOf s u = some c → c.decided = false → c.ending = none → c.reject = none →
            ∃ x, cmdOf t u = some x ∧ x.ending = some (0x0301, 0xFFFF)))
    ∧ ((evenPar 16 rsp.toNat = false ∨ (mportAt s n).writes.find? (fun x => x.id = fld rsp 0 12) = none) →
      ∃ t, exec (.memWriteResponse n rsp) s = .next t ∧ t = { s with rel := t.rel, od := t.od })
    ∧ (∀ id o u b, (mportAt s n).writes.find? (fun x => x.id = id) = some o → o.req.write = true → o.drop = false →
      o.req.owner = .cmd u b → refNow s ≥ o.refAt + odv s 0x6200 10 → ∃ t, exec (.memRespTimeout n true id) s = .next t
        ∧ t.mem = s.mem ∧ (∀ x ∈ (mportAt t n).writes, x.id ≠ o.id)
        ∧ ∀ c, cmdOf s u = some c → c.decided = false → c.ending = none → c.reject = none →
            ∃ x, cmdOf t u = some x ∧ x.ending = some (0x0301, 0xFFFF))

/-- What a set and an add release leave in a flag slot. Formalises R304. -/
def Obligations.FlagUpdateRules : Prop :=
  ∀ (i : Nat) (add remote : Bool) (val scope src fc : Nat) (s : State), val < 2 ^ 32 → scope < 5 →
    (let t := applyRelease i add val scope src remote fc s
     (add = false → (flagAt t i).value = val ∧ (flagAt t i).scope = scope)
     ∧ (add = true → (flagAt t i).value = ((flagAt s i).value + val) % 2 ^ 32
         ∧ (flagAt t i).scope = min (flagAt s i).scope scope
         ∧ ((flagAt s i).scope = 7 → (flagAt t i).scope = scope))
     ∧ (flagAt t i).src = src ∧ (flagAt t i).remote = remote ∧ ∀ j, j ≠ i → flagAt t j = flagAt s j)

/-- A received release is applied once it may be, and acknowledged to its sender. Rests on 10_memory_model.md;
11_links.md. -/
def Obligations.RemoteReleaseRow : Prop :=
  ∀ (r : RemoteRel) (s : State), live s = true → nextRel s = some r →
    r ∈ s.remoteRels ∧ (∀ x ∈ s.remoteRels, relReady s x = true → x.fc > r.fc ∨ (x.fc = r.fc ∧ x.port ≥ r.port))
    ∧ (r.scope = 4 → ∀ n, ∀ q ∈ (mportAt s n).queue ++ (mportAt s n).writes.map (·.req),
      ∀ a, q.owner = .peer r.src a → ¬ a < r.arr)
    ∧ ∃ t, exec .remoteFlagApply s = .next t
      ∧ (flagAt t r.slot).value = (if r.add then ((flagAt s r.slot).value + r.val) % 2 ^ 32 else r.val % 2 ^ 32)
      ∧ (flagAt t r.slot).scope = (if r.add then min (flagAt s r.slot).scope r.scope else r.scope)
      ∧ (flagAt t r.slot).src = r.src ∧ (flagAt t r.slot).remote = true ∧ (∀ j, j ≠ r.slot → flagAt t j = flagAt s j)
      ∧ t.remoteRels = s.remoteRels.filter (fun x => x.arr != r.arr)
      ∧ (r.src ≠ myNode s → t.acks = s.acks ++ [{ dst := r.src, pktId := r.num, kind := 1 }])

/-- An acquire whose condition is met counts, invalidates and flags as its rules say; a waiting one times out; an
invalidation ends. Rests on 10_memory_model.md; 09_commands.md. -/
def Obligations.AcquireRows : Prop :=
  (
  ∀ (u fc : Nat) (c : Cmd) (s : State), cmdOf s u = some c →
    (let t := meetAcquire u fc s
     let mis := (flagAt s (fIdx c.desc)).scope = 7 ∨ (flagAt s (fIdx c.desc)).scope < fScope c.desc
     (∃ x, cmdOf t u = some x ∧ x.met = true ∧ x.countA = fc - c.dispatchFc
        ∧ x.invEnd = (if fScope c.desc ≥ 3 then fc + 32 else 0)
        ∧ (mis → x.flags = c.flags ||| 64) ∧ (¬ mis → x.flags = c.flags))
     ∧ (fScope c.desc ≥ 3 → ∀ r, (regionAt t r).lines = [])
     ∧ (mis → odv t 0x2400 3 = (odv s 0x2400 3 + 1) % 2 ^ 32) ∧ (¬ mis → odv t 0x2400 3 = odv s 0x2400 3)
     ∧ t.flags = s.flags))
  ∧ (
  ∀ (tag : Nat) (c : Cmd) (s : State), live s = true → byTag s tag = some c →
    (dOp c.desc = 0x61 → c.dispatched = true → c.met = false → c.decided = false → c.ending = none → c.reject = none →
      fTimeout c.desc ≠ 0 → s.clocks.fc ≥ c.dispatchFc + fTimeout c.desc → cmdOf s c.uid = some c →
      ∃ t x, exec (.acquireTimeout tag) s = .next t ∧ cmdOf t c.uid = some x ∧ x.ending = some (0x0403, 0xFFFF)
        ∧ x.met = false ∧ x.countA = fTimeout c.desc ∧ odv t 0x2400 5 = (odv s 0x2400 5 + 1) % 2 ^ 32
        ∧ (∀ r, (regionAt t r).lines = (regionAt s r).lines) ∧ t.flags = s.flags ∧ t.mem = s.mem)
    ∧ (fTimeout c.desc = 0 → exec (.acquireTimeout tag) s = .next s)
    ∧ (c.met = true → c.invEnd ≠ 0 → s.clocks.fc ≥ c.invEnd →
      exec (.acquireInvalidationEnd tag) s = .next { s with front := { s.front with
        cmds := s.front.cmds.map (fun x => if x.uid = c.uid then { x with invEnd := 0, readyFc := s.clocks.fc + 1 } else x) } }))

/-- A work item is placed on a block that may take it, or its command's walk request on a region. Rests on
01_engine_overview.md; 09_commands.md; 15_reliability.md. -/
def Obligations.WorkItemPlacement : Prop :=
  ∀ (b place : Nat) (c : Cmd) (s : State), live s = true → blockPresent s b = true → placeFirst (refill s) b = some (c, place) →
    (wantsWalk (refill s) c = true → (regionAt s (b / 40)).walks.length < 64 ∧ ∃ t, exec (.workItemPlace b) s = .next t
      ∧ (regionAt t (b / 40)).walks = (regionAt s (b / 40)).walks ++ [{ uid := c.uid, next := 0, last := 65536 }]
      ∧ t = { refill s with regions := t.regions } ∧ t.blocks = s.blocks)
    ∧ (wantsWalk (refill s) c = false →
      (let x := blockAt s b
       x.retired = false ∧ x.inReset = false ∧ x.testing = false ∧ x.gated = false ∧ marked (stepInForce s) b = false
       ∧ blockFrozen s b = false ∧ x.feed.length < 32 ∧ (x.spLost = true → spInput c = false))
      ∧ ∃ t, exec (.workItemPlace b) s = .next t
        ∧ (blockAt t b).feed = (blockAt s b).feed ++ [(c.uid, placedItem (refill s) c place)]
        ∧ (blockAt t b).weight = max 1 (min 8 (((blockAt s b).feed.length + 4) / 4))
        ∧ (∀ b', b' ≠ b → blockAt t b' = blockAt s b') ∧ (c.uid, place) ∉ t.front.items
        ∧ t.sp = s.sp ∧ t.flags = s.flags ∧ t.links = s.links ∧ t.paged = s.paged ∧ t.power = s.power ∧ t.mgmt = s.mgmt)

/-- A partial-sum reservation is granted whole when the region's area has room, and is not granted otherwise. Rests on
02_numbers_and_accumulation.md. -/
def Obligations.PartialSumReservation : Prop :=
  ∀ (b item : Nat) (c : Cmd) (s : State), live s = true → blockPresent s b = true → feedHead s b = some (c, item) →
    (blockAt s b).retired = false → itemReady s c item = true → psumHeld s b c item = false →
    (let used := ((regionAt s (b / 40)).psum.map (fun e => e.2.2)).sum
     (used + psumNeed s b c item ≤ psumArea s →
      exec (.psumReservationGrant b) s = .next { s with regions := tput (b / 40) { regionAt s (b / 40) with
        psum := (regionAt s (b / 40)).psum ++ [(c.uid, item, psumNeed s b c item)] } s.regions })
     ∧ (used + psumNeed s b c item > psumArea s → exec (.psumReservationGrant b) s = .next s))
    ∧ psumArea s = (match odv s 0x2000 2 with | 0 => 1048576 | 1 => 655360 | _ => 262144)

/-- A first walk of a good table takes the next pin number; one of a free or unlike table ends its command. Rests on
07_paged_cache.md. -/
def Obligations.WalkRequestRow : Prop :=
  ∀ (region : Nat) (w : WalkReq) (c : Cmd) (s : State), regionRuns s region = true → nextWalk s region = some w →
    (fires 0x15 region s ≠ none → ∃ t, exec (.walkRequest region) s = .next t ∧ t = { s with rel := t.rel, od := t.od })
    ∧ (fires 0x15 region s = none → cmdOf s w.uid = some c → c.decided = false → c.ending = none → c.reject = none →
        c.pin = none → listsPoisoned s c = false →
      (let v := rootNat s (cSeq c.desc) (cLayer c.desc)
       (rootBad s (cSeq c.desc) (cLayer c.desc) = false → rLive v = true → rKvh v + 1 = aKvHeads c.desc →
          headDim (rDim v) = aD c.desc →
          ∃ t, exec (.walkRequest region) s = .next t ∧ t.paged.pinCtr = (s.paged.pinCtr + 1) % 2 ^ 32)
       ∧ (rootBad s (cSeq c.desc) (cLayer c.desc) = false → rLive v = false →
          ∃ t x, exec (.walkRequest region) s = .next t ∧ cmdOf t w.uid = some x ∧ x.ending = some (0x0100, 576)
            ∧ t.paged = s.paged ∧ t.mem = s.mem ∧ t.flags = s.flags)
       ∧ (rootBad s (cSeq c.desc) (cLayer c.desc) = true → c.retried = false →
          ∃ t x, exec (.walkRequest region) s = .next t ∧ cmdOf t w.uid = some x ∧ x.retried = true ∧ x.pin = none
            ∧ x.ending = none ∧ odv t 0x3300 5 = (odv s 0x3300 5 + 1) % 2 ^ 32 ∧ t.paged = s.paged ∧ t.mem = s.mem)))

/-- One array step adds the products of one step to the open group and to nothing else. Rests on
02_numbers_and_accumulation.md; 03_cube_array.md. -/
def Obligations.ArrayStepRow : Prop :=
  ∀ (b i : Nat) (second : Bool) (c : Cmd) (j : Job) (p : Prod) (s : State), blockRuns s b = true →
    (blockAt s b).job = some j → cmdOf s j.uid = some c → j.fetched = true → nextProd s b c j = some (second, p) →
    bankFor (blockAt s b) j p = some i → stepReady s b j p = true → 0 < j.step → j.step + 1 < p.steps →
    (blockAt s b).banks.length = 4 → (∀ code ∈ [1, 2, 4, 8], fires code b s = none) →
    (let x := blockAt s b
     let reg := (stepReg x p j.step).1
     let r := prodStep p (x.stat.getD reg stat0) j.step (openAcc x i j p)
     ∃ t j', exec (.arrayStep b) s = .next t
      ∧ (blockAt t b).job = some j' ∧ j' = { j with step := j.step + 1, parked := j'.parked }
      ∧ (p.target = none → j'.parked = j.parked)
      ∧ (r.seg = none → ((blockAt t b).banks.getD i bank0).acc = r.acc ∧ ((blockAt t b).banks.getD i bank0).st = 1)
      ∧ (∀ g, r.seg = some g → ((blockAt t b).banks.getD i bank0).acc = g ∧ ((blockAt t b).banks.getD i bank0).st = 2
          ∧ ((blockAt t b).banks.getD i bank0).way = 2 ∧ ((blockAt t b).banks.getD i bank0).next = some (1, 0, r.acc))
      ∧ ((blockAt t b).banks.getD i bank0).uid = j.uid ∧ ((blockAt t b).banks.getD i bank0).item = j.item
      ∧ ((blockAt t b).banks.getD i bank0).group = p.group
      ∧ (∀ k, k ≠ i → (blockAt t b).banks.getD k bank0 = x.banks.getD k bank0)
      ∧ (blockAt t b).stat = x.stat ∧ (blockAt t b).active = reg
      ∧ (blockAt t b).passTag = (if reg = x.active then x.passTag else (x.passTag + 1) % 4)
      ∧ (blockAt t b).busyAc = x.busyAc + stepBusy p j.step + (if r.split then p.g - 1 else 0)
      ∧ (blockAt t b).splitSteps = x.splitSteps + (if r.split then 1 else 0)
      ∧ (blockAt t b).epi = x.epi ∧ (blockAt t b).feed = x.feed
      ∧ (∀ b', b' ≠ b → blockAt t b' = blockAt s b')
      ∧ (r.split = true → odv t 0x7100 1 = (odv s 0x7100 1 + 1) % 2 ^ 64)
      ∧ t = { s with blocks := t.blocks, od := t.od, front := { s.front with cmds := t.front.cmds } }
      ∧ (r.split = false → t = { s with blocks := t.blocks }))

/-- Stationary load, drain start, drain end, prologue, epilogue and the presence of an arrived tile. Rests on
03_cube_array.md; 05_fused_operations.md. -/
def Obligations.ArrayPipelineRows : Prop :=
  (∀ (b n : Nat) (second : Bool) (c : Cmd) (j : Job) (p : Prod) (h : Held) (s : State), blockRuns s b = true →
    (blockAt s b).job = some j → cmdOf s j.uid = some c → j.fetched = true → j.wait = [] →
    nextProd s b c j = some (second, p) → p.held = some h → sliceDue (blockAt s b) p j.step = some n → drainStuck s b = false →
    exec (.stationaryLoadDone b) s = .next { s with blocks := tput b { blockAt s b with
      stat := (blockAt s b).stat.set (1 - (blockAt s b).active)
        { key := h.key n, elems := sliceLoad h p.len n, badParity := [] } } s.blocks })
  ∧ (∀ (b i : Nat) (s : State), blockRuns s b = true → drainNext (blockAt s b) = some i →
    (∀ k ∈ (blockAt s b).banks, k.st ≠ 3) → feedFrozen (blockAt s b) = false →
    drainRoom s b ((blockAt s b).banks.getD i bank0) = true →
    ((blockAt s b).banks.getD i bank0).st = 2
    ∧ (∀ k < 4, ((blockAt s b).banks.getD k bank0).st = 2 →
      ((blockAt s b).banks.getD i bank0).order ≤ ((blockAt s b).banks.getD k bank0).order)
    ∧ ∃ y, exec (.tileDrain b) s = .next { s with blocks := tput b { blockAt s b with banks := (blockAt s b).banks.set i y } s.blocks }
      ∧ y = { (blockAt s b).banks.getD i bank0 with st := 3, bypass := y.bypass }
      ∧ (y.bypass = true ↔ y.way = 0 ∧ (blockAt s b).epi = [] ∧ (blockAt s b).bvu = none))
  ∧ (∀ (b i : Nat) (s : State), blockRuns s b = true → feedFrozen (blockAt s b) = false →
    (List.range 4).find? (fun i => ((blockAt s b).banks.getD i bank0).st = 3) = some i →
    (let x := blockAt s b
     let k := x.banks.getD i bank0
     let e : Epi := { uid := k.uid, item := k.item, group := k.group, acc := k.acc }
     ∃ t, exec (.drainEnd b) s = .next t
      ∧ t = { s with blocks := t.blocks, regions := t.regions, front := { s.front with cmds := t.front.cmds } }
      ∧ (∀ b', b' ≠ b → blockAt t b' = blockAt s b') ∧ (∀ r, r ≠ b / 40 → regionAt t r = regionAt s r)
      ∧ (k.next = none → (blockAt t b).banks = x.banks.set i bank0)
      ∧ (∀ st way a, k.next = some (st, way, a) → (blockAt t b).banks = x.banks.set i
          { k with st := st, way := way, bypass := false, order := x.closes, acc := a, next := none })
      ∧ (k.way = 0 → k.bypass = false → (blockAt t b).epi = x.epi ++ [e] ∧ (blockAt t b).bvu = x.bvu ∧ t = { s with blocks := t.blocks })
      ∧ (k.way = 0 → k.bypass = true → (blockAt t b).epi = x.epi ∧ (blockAt t b).bvu = some e ∧ t = { s with blocks := t.blocks })
      ∧ (k.way = 1 → (blockAt t b).epi = x.epi ∧ (blockAt t b).bvu = x.bvu ∧ ∀ j j', x.job = some j → (blockAt t b).job = some j' →
          j'.outs = j.outs.set (k.group - 2 ^ 32) k.acc ∧ k.group - 2 ^ 32 ∈ j'.parked)
      ∧ (k.way = 2 → (blockAt t b).epi = x.epi ∧ (blockAt t b).bvu = x.bvu ∧ (blockAt t b).job = x.job
          ∧ (regionAt t (b / 40)).psum = (regionAt s (b / 40)).psum
          ∧ ∃ q ∈ (regionAt t (b / 40)).parts, q.1 = k.uid ∧ q.2.1 = k.item ∧ q.2.2.1 = k.group ∧ q.2.2.2 ≠ [])))
  ∧ (∀ (b item part : Nat) (c : Cmd) (s : State), blockRuns s b = true → proNext s b = some (c, item, part) →
    (part ∈ proParts s b c item ∧ proDone s b c.uid item part = false)
    ∧ ∃ t, exec (.prologueTile b) s = .next t ∧ proDone t b c.uid item part = true
      ∧ (blockAt t b).pro = (blockAt s b).pro ++ [{ uid := c.uid, item := item, part := part, bufs := (formedTiles b c item part s).1 }]
      ∧ (blockAt t b).banks = (blockAt s b).banks ∧ (blockAt t b).epi = (blockAt s b).epi ∧ (blockAt t b).mire = 0
      ∧ (∀ b', b' ≠ b → blockAt t b' = blockAt s b') ∧ t.mem = s.mem ∧ t.flags = s.flags ∧ t.regions = s.regions)
  ∧ (∀ (b : Nat) (c : Cmd) (e : Epi) (rest : List Epi) (s : State), blockRuns s b = true → writeFull s b = false →
    proNext s b = none → (blockAt s b).bvu = none → (blockAt s b).epi = e :: rest → cmdOf s e.uid = some c →
    gatePairs c.desc = false → tileWaits (blockAt s b) c e = false → (∀ code ∈ [5, 6, 7], fires code b s = none) →
    exec (.epilogueTile b) s
      = .next { blockProgress b (tileWork b c e { s with blocks := tput b { blockAt s b with epi := rest } s.blocks }) with
          pending := s.pending })
  ∧ (∀ (b e : Nat) (a : Arrival) (s : State), live s = true → (blockAt s b).arrivals.find? (fun x => x.1 = e) = some (e, a) →
    a.present = false → a.got ≥ a.want →
    exec (.arrivalTilePresent b e) s = .next { s with blocks := tput b { blockAt s b with
      arrivals := tput e { a with present := true } (blockAt s b).arrivals } s.blocks })

/-- The packing timeout dispatches the whole set; a missed deadline marks its command and ends nothing. Rests on
06_attention.md. -/
def Obligations.AttentionTimerRows : Prop :=
  ∀ (tag late : Nat) (c : Cmd) (s : State), live s = true → byTag s tag = some c →
    (c.packSet ≠ 0 → c.packGo = false → packDue s c.packSet = true → ∃ t, exec (.packTimeout tag) s = .next t
      ∧ (∀ x ∈ t.front.cmds, x.packSet = c.packSet → x.walked = true → x.packGo = true)
      ∧ packMembers t c.packSet = [] ∧ t = { s with od := t.od, front := { s.front with cmds := t.front.cmds } })
    ∧ ((dOp c.desc = 0x10 ∨ dOp c.desc = 0x11 ∨ dOp c.desc = 0x12 ∨ dOp c.desc = 0x18) → paced s c = true →
      acting c = true → c.flags.getLsbD 4 = false → s.clocks.fc = c.acceptFc + dDeadline c.desc + late →
      allStaged s c = false → cmdOf s c.uid = some c →
      ∃ t x, exec (.deadlineExpiry tag late) s = .next t ∧ cmdOf t c.uid = some x
        ∧ x = { c with flags := c.flags ||| 16, deadlineOver := min late 0xFFFF }
        ∧ odv t 0x3010 5 = (odv s 0x3010 5 + 1) % 2 ^ 32
        ∧ t = { s with od := t.od, front := { s.front with cmds := t.front.cmds } })

/-- An operation of a PT_EDIT before its last changes the command's edited copy and no table; an invalid one ends it.
Rests on 07_paged_cache.md. -/
def Obligations.PageTableEditRows : Prop :=
  ∀ (tag code : Nat) (row : Instr) (c : Cmd) (e : EditWork) (s : State),
    (row, code) ∈ [(Instr.create tag, 1), (.release tag, 2), (.truncate tag, 3), (.unmap tag, 4), (.fork tag, 5), (.setAttr tag, 6)] →
    byTag s tag = some c → cmdOf s c.uid = some c → c.edit = some e → homeRuns s (cSeq c.desc) = true → dOp c.desc = 0x21 →
    c.dispatched = true → acting c = true → e.started = true → e.op + 1 < nOps c.desc → opCode (opAt s c e.op) = code →
    opReserved (opAt s c e.op) = false → opReserved (opAt s c (e.op + 1)) = false →
    (∀ e1, applyOp s e (opAt s c e.op) = .ok e1 → ∃ t, exec row s = .next t
      ∧ cmdOf t c.uid = some { c with edit := some { e1 with op := e.op + 1 } }
      ∧ t = { s with front := { s.front with cmds := t.front.cmds }, regions := t.regions })
    ∧ (∀ st, (applyOp s e (opAt s c e.op) = .invalid ∧ st = 0x0100) ∨ (applyOp s e (opAt s c e.op) = .limit ∧ st = 0x0102) →
      ∃ t x, exec row s = .next t ∧ cmdOf t c.uid = some x ∧ x.ending = some (st, 0x8000 + e.op)
        ∧ t.mem = s.mem ∧ t.paged = s.paged ∧ t.flags = s.flags ∧ t.links = s.links ∧ t.od = s.od)

/-- What each operation of Table 07.10 leaves in the edited copy. Rests on 07_paged_cache.md. -/
def Obligations.PageTableEditEffects : Prop :=
  ∀ (s : State) (e e1 : EditWork) (w : Nat),
    (opCreate s e w = .ok e1 → rLive e.root = false ∧ rLive e1.root = true ∧ rPages e1.root = 0 ∧ rOpen e1.root = false
      ∧ rKvh e1.root = bits (opA w) 0 6 ∧ rDim e1.root = bits (opA w) 6 3 ∧ rFmt e1.root = bits (opA w) 9 3
      ∧ rEpoch e1.root = rEpoch e.root ∧ rNext e1.root = bits (opB w) 0 20)
    ∧ (opRelease s e = .ok e1 → rLive e.root = true ∧ rLive e1.root = false ∧ rEpoch e1.root = rEpoch e.root
      ∧ (∀ i, editEntry s e1 i = 0) ∧ e1.lower = e.lower ++ editFrames s e 0 (rPages e.root))
    ∧ (opTruncate s e w = .ok e1 → bits (opA w) 0 17 ≤ rPages e.root ∧ rPages e1.root = bits (opA w) 0 17
      ∧ rOpen e1.root = false ∧ rNext e1.root = bits (opB w) 0 20 ∧ rEpoch e1.root = rEpoch e.root
      ∧ ∀ i, editEntry s e1 i = if i < bits (opA w) 0 17 then editEntry s e i else 0)
    ∧ (opUnmap s e w = .ok e1 → e1.root = e.root ∧ ∀ i, editEntry s e1 i
        = if bits (opA w) 0 16 ≤ i ∧ i < bits (opA w) 0 16 + bits (opA w) 16 17 then 0 else editEntry s e i)
    ∧ (opFork s e w = .ok e1 → ∃ p ∈ e.sources, 256 * p.seq + p.layer = 256 * bits (opA w) 0 16 + bits (opA w) 16 8
      ∧ rPages e1.root = max (rPages e.root) (bits (opA w) 24 16 + bits (opB w) 0 17)
      ∧ ∀ i, (bits (opA w) 24 16 ≤ i ∧ i < bits (opA w) 24 16 + bits (opB w) 0 17 →
            bits (editEntry s e1 i) 0 2 = bits (pageEntry s p.dir i) 0 2
            ∧ bits (editEntry s e1 i) 8 24 = bits (pageEntry s p.dir i) 8 24)
          ∧ (¬ (bits (opA w) 24 16 ≤ i ∧ i < bits (opA w) 24 16 + bits (opB w) 0 17) → editEntry s e1 i = editEntry s e i))
    ∧ (opSetAttr e w = .ok e1 → rFmt e1.root = bits (opA w) 9 3 ∧ rSinks e1.root = bits (opA w) 18 3
      ∧ rWindow e1.root = bits (opA w) 21 7 ∧ rPri e1.root = bits (opA w) 28 2 ∧ rPages e1.root = rPages e.root
      ∧ rDir e1.root = rDir e.root ∧ rEpoch e1.root = rEpoch e.root ∧ ∀ i, editEntry s e1 i = editEntry s e i)

/-- The last operation of a PT_EDIT commits the whole list under the next epoch, or ends with LIMIT and no change.
Rests on 07_paged_cache.md. -/
def Obligations.PageTableCommit : Prop :=
  ∀ (tag : Nat) (row : Instr) (c : Cmd) (e e1 e2 : EditWork) (s : State),
    (row, opCode (opAt s c e.op))
      ∈ [(Instr.create tag, 1), (.release tag, 2), (.truncate tag, 3), (.unmap tag, 4), (.fork tag, 5), (.setAttr tag, 6)] →
    byTag s tag = some c → cmdOf s c.uid = some c → c.edit = some e → homeRuns s (cSeq c.desc) = true → dOp c.desc = 0x21 →
    c.dispatched = true → acting c = true → e.started = true → e.op + 1 = nOps c.desc → opReserved (opAt s c e.op) = false →
    applyOp s e (opAt s c e.op) = .ok e1 →
    applyAll s c (List.range (nOps c.desc)) (editFresh c e s) = (0, .ok e2) → editTorn s e2 = false →
    (let need := (newLeaves e2).length + (if dirChanges e2 then 1 else 0)
     let epoch := rEpoch (rootNat s (cSeq c.desc) (cLayer c.desc))
     (epoch < 0xFFFFFFFF → need ≤ s.paged.leafFree → ∃ t x, exec row s = .next t ∧ cmdOf t c.uid = some x
        ∧ x.countA = nOps c.desc ∧ x.countB = epoch + 1 ∧ editDone x = true ∧ x.ending = none
        ∧ (t.paged.live.contains (cTable c.desc) = rLive e2.root) ∧ t.sp = s.sp ∧ t.flags = s.flags ∧ t.links = s.links)
     ∧ (epoch = 0xFFFFFFFF ∨ s.paged.leafFree < need → ∃ t x, exec row s = .next t ∧ cmdOf t c.uid = some x
        ∧ x.ending = some (0x0102, 0xFFFF) ∧ t.mem = s.mem ∧ t.paged = s.paged ∧ t.flags = s.flags))

/-- Frames for an append or restore, the commit of a token, the promotion of a full page and its commit. Rests on
07_paged_cache.md. -/
def Obligations.AppendRows : Prop :=
  ∀ (tag : Nat) (c : Cmd) (w : AppendWork) (s : State), byTag s tag = some c → cmdOf s c.uid = some c → c.append = some w →
    acting c = true → homeRuns s (cSeq c.desc) = true → rootBad s (cSeq c.desc) (cLayer c.desc) = false →
    (let v := rootNat s (cSeq c.desc) (cLayer c.desc)
     (allocRuns s = true → c.dispatched = true → w.ready = false → rootTurn s c = true →
        (∀ x ∈ s.front.cmds, frameWaits x = true → x.asked ≠ 0 → c.asked ≠ 0 ∧ c.asked ≤ x.asked) →
        (∀ f, appendFault v c.desc = some f → ∃ t x, exec (.frameAllocation tag) s = .next t ∧ cmdOf t c.uid = some x
          ∧ x.ending = some f ∧ t.mem = s.mem ∧ t.paged = { s.paged with asks := t.paged.asks })
        ∧ (appendFault v c.desc = none → dOp c.desc = 0x20 →
            (let n := frameNeed s v c.desc
             (poolSpent s (rSealedPool v) n.1 || poolSpent s (rOpenPool v) n.2.1) = false → n.2.2 ≤ s.paged.leafFree + leafDeferred s →
             (allocReady s v c.desc = false → ∃ t, exec (.frameAllocation tag) s = .next t ∧ (c.asked ≠ 0 → t = s)
                ∧ t = { s with paged := { s.paged with asks := t.paged.asks }, regions := t.regions,
                               front := { s.front with cmds := t.front.cmds } })
             ∧ (allocReady s v c.desc = true → ∃ t x w1, exec (.frameAllocation tag) s = .next t ∧ cmdOf t c.uid = some x
                ∧ x.append = some w1 ∧ w1.ready = true ∧ w1.tokens = 0 ∧ w1.promoted = none
                ∧ w1.sealed = (usable s (rSealedPool v)).take n.1 ∧ w1.sealed.length = n.1 ∧ w1.leaves.length = n.2.2
                ∧ t.sp = s.sp ∧ t.flags = s.flags))))
     ∧ (dOp c.desc = 0x20 → w.ready = true → w.tokens < nTok c.desc → c.writesOut = 0 → w.promoted = none →
        (rOpen v = true → rUsed v < 15) → ∃ t x, exec (.appendTokenCommit tag) s = .next t ∧ cmdOf t c.uid = some x
          ∧ x.countA = c.countA + 1 ∧ x.countB = c.countB
          ∧ x.append = some { w with tokens := w.tokens + 1, opens := if rOpen v then w.opens else w.opens.drop 1 }
          ∧ t.paged = s.paged ∧ t.sp = s.sp ∧ t.flags = s.flags)
     ∧ (dOp c.desc = 0x20 → w.ready = true → w.tokens < nTok c.desc → c.writesOut = 0 → w.promoted = none → rOpen v = true →
        rUsed v = 15 → ∃ t x, exec (.pagePromotion tag) s = .next t ∧ cmdOf t c.uid = some x
          ∧ x.append = some { w with promoted := some (w.sealed.headD 0), sealed := w.sealed.drop 1 }
          ∧ x.countA = c.countA ∧ t.paged = s.paged ∧ t.sp = s.sp ∧ t.flags = s.flags)
     ∧ (∀ i, dOp c.desc = 0x23 → w.ready = true → c.writesOut = 0 → w.promoted = none → nextRestore s v c w = some i →
        ∃ t x, exec (.pagePromotion tag) s = .next t ∧ cmdOf t c.uid = some x
          ∧ x.append = some { w with promoted := some (w.sealed.headD 0), sealed := w.sealed.drop 1, page := i }
          ∧ t.paged = s.paged ∧ t.sp = s.sp ∧ t.flags = s.flags)
     ∧ (∀ f, w.ready = true → c.writesOut = 0 → w.promoted = some f → commitBad s v c w = false →
        (dOp c.desc = 0x20 → ∃ t x w1, exec (.promotionCommit tag) s = .next t ∧ cmdOf t c.uid = some x
          ∧ x.countA = c.countA + 1 ∧ x.countB = c.countB + 1 ∧ x.append = some w1 ∧ w1.tokens = w.tokens + 1
          ∧ w1.pages = w.pages + 1 ∧ w1.promoted = none
          ∧ t.paged = { s.paged with retired := s.paged.retired ++ [(0, rOpenFrame v, s.paged.pinCtr)] }
          ∧ t.sp = s.sp ∧ t.flags = s.flags)
        ∧ (dOp c.desc = 0x23 → ∃ t x, exec (.promotionCommit tag) s = .next t ∧ cmdOf t c.uid = some x
          ∧ x.countA = c.countA + 1 ∧ x.append = some { w with pages := w.pages + 1, promoted := none, page := w.page + 1 }
          ∧ (∀ y ∈ t.paged.peat, ¬ (256 * y.seq + y.layer = cTable c.desc ∧ y.page = w.page))
          ∧ t.paged.retired = s.paged.retired ∧ odv t 0x3220 7 = (odv s 0x3220 7 + 1) % 2 ^ 64
          ∧ t.sp = s.sp ∧ t.flags = s.flags)))

/-- Automatic drops, held Peat requests, freed objects and moves out of a shrinking pool. Rests on 07_paged_cache.md.
-/
def Obligations.PoolAndPeatRows : Prop :=
  ∀ (s : State), allocRuns s = true →
    (∀ pool table i, pool < 8 → victim s pool = some (table, i) → dropActive s pool = true →
      (tableBusy s table = true → exec (.pageDropAuto pool) s = .next s) ∧ (tableBusy s table = false →
       let frame := bits (pageEntry s (rDir (rootNat s (table / 256) (table % 256))) i) 8 24
       (dropHeld s = true → ∃ t, exec (.pageDropAuto pool) s = .next t ∧ odv t 0x3220 8 = (odv s 0x3220 8 + 1) % 2 ^ 32
          ∧ t.mem = s.mem ∧ t.paged = s.paged)
       ∧ (dropHeld s = false → ∃ t, exec (.pageDropAuto pool) s = .next t
          ∧ t.paged.retired = s.paged.retired ++ [(0, frame, s.paged.pinCtr)]
          ∧ t.paged.dropNum = (s.paged.dropNum + 1) % 2 ^ 32
          ∧ (∃ x : Dropped, t.paged.peat = s.paged.peat ++ [x] ∧ x.seq = table / 256 ∧ x.layer = table % 256 ∧ x.page = i
              ∧ x.num = s.paged.dropNum ∧ x.asked = false)
          ∧ t.paged.free = s.paged.free ∧ odv t 0x3220 6 = (odv s 0x3220 6 + 1) % 2 ^ 64
          ∧ t.front = s.front ∧ t.sp = s.sp ∧ t.flags = s.flags)))
    ∧ (∀ table i n rest, s.paged.held = (table, i, n) :: rest →
      (peatFull s = true → exec .peatRequestPost s = .next s)
      ∧ (peatFull s = false → ∃ t, exec .peatRequestPost s = .next t
        ∧ t.paged = { s.paged with held := rest, peatOut := s.paged.peatOut ++ [odv s 0x3220 4] }
        ∧ odv t 0x3220 4 = (odv s 0x3220 4 + 1) % 2 ^ 32 ∧ t.front = s.front ∧ t.sp = s.sp ∧ t.flags = s.flags))
    ∧ ((∀ r ∈ s.paged.retired, freeable s r = false) → exec .retiredObjectFree s = .next s)
    ∧ (∀ r, s.paged.retired.find? (freeable s) = some r → (∀ n ∈ pinNums s, pinLe n r.2.2 = false) ∧
      ∃ t, exec .retiredObjectFree s = .next t
        ∧ t.paged.retired = s.paged.retired.filter (fun x => !(x.1 == r.1 && x.2.1 == r.2.1))
        ∧ (∀ p, r.1 = 0 → poolOf s r.2.1 = some p → tget noFrame t.paged.heads p = r.2.1
            ∧ tget 0 t.paged.free p = tget 0 s.paged.free p + 1 ∧ t.paged.leafFree = s.paged.leafFree)
        ∧ (r.1 ≠ 0 → t.paged.leafHead = r.2.1 ∧ t.paged.leafFree = s.paged.leafFree + 1 ∧ t.paged.free = s.paged.free)
        ∧ t.front.items = s.front.items ∧ t.sp = s.sp ∧ t.flags = s.flags)
    ∧ (∀ pool f g table i rest, pool < 8 → poolOn s pool = true → movable s pool = some (f, table, i) →
      usable s pool = g :: rest → s.paged.leafFree ≥ 2 → ∃ t a d, exec (.poolShrinkMove pool) s = .next t
        ∧ t.paged.retired = s.paged.retired ++ [(0, f, s.paged.pinCtr), (1, a, s.paged.pinCtr), (1, d, s.paged.pinCtr)]
        ∧ t.paged.leafFree = s.paged.leafFree - 2 ∧ tget 0 t.paged.free pool = tget 0 s.paged.free pool - 1
        ∧ t.front = s.front ∧ t.sp = s.sp ∧ t.flags = s.flags)

/-- A write that fails a check changes nothing but its answer, and the first check that fails names the code. Rests on
13_object_dictionary.md. -/
def Obligations.WriteChecks : Prop :=
  ∀ (row : Instr) (i j : Nat) (bs : List Byte) (s : State), writeOf row = some (i, j, bs) → live s = true →
    (odFind i j = none → exec row s = .next (aborted (if odIndexExists i then 0x02000002 else 0x02000001) s))
    ∧ ∀ r, odFind i j = some r →
      (writePasses s row = false → exec row s = .next (aborted (writeAbort s r i j bs) s) ∧ writeAbort s r i j bs ≠ 0)
      ∧ (r.acc < 2 → writeAbort s r i j bs = 0x02000003)
      ∧ (r.acc ≥ 2 → ∀ e, lifeAbort s i j = some e → writeAbort s r i j bs = e)
      ∧ (r.acc ≥ 2 → lifeAbort s i j = none → s.mgmt.recovering = true → writeAbort s r i j bs = 0x04000006)
      ∧ (r.acc ≥ 2 → lifeAbort s i j = none → s.mgmt.recovering = false →
          (s.mgmt.st = 0 ∨ (s.mgmt.st = 4 ∧ ¬ (i = 0x6000 ∧ j = 3))) → writeAbort s r i j bs = 0x04000001)
      ∧ (r.acc ≥ 2 → lifeAbort s i j = none → stateAbort s i j = none → tySize r.ty ≠ 0 → bs.length ≠ tySize r.ty →
          writeAbort s r i j bs = 0x02000005)

/-- The quiescent boundary, the profile switch, and the requests for OPERATIONAL and STOPPED. Rests on
13_object_dictionary.md; 01_engine_overview.md; 14_power_and_thermal.md. -/
def Obligations.DictionaryStateRows : Prop :=
  (
  (∀ (row : Instr) (i j : Nat) (bs : List Byte) (r : OdRow) (s : State), writeOf row = some (i, j, bs) → live s = true →
    odFind i j = some r → r.acc = 3 → writePasses s row = true → (s.mgmt.st = 2 ∨ quiescent s = false) →
    exec row s = .next (answered { s with mgmt := { s.mgmt with
      rwq := s.mgmt.rwq ++ [{ key := odKey i j, value := ofBytes bs }] } }))
  ∧ (∀ s : State, quiescent s = true → (s.mgmt.rwq ≠ [] ∨ s.mgmt.stopPending = true) →
    ∃ t, exec .quiescentBoundary s = .next t ∧ t.mgmt.rwq = []
      ∧ (s.mgmt.rwq = [] → t.mgmt.st = 3 ∧ t.mgmt.stopPending = false ∧ t.sp = s.sp ∧ t.flags = s.flags ∧ t.links = s.links)
      ∧ (s.mgmt.rwq ≠ [] → (∀ w ∈ s.mgmt.rwq, w.key / 256 = 0x2200) →
          odv t 0x1F81 2 = (odv s 0x1F81 2 + 1) % 2 ^ 32
          ∧ (∀ j w, j < 256 → s.mgmt.rwq.reverse.find? (fun w => w.key = odKey 0x2200 j) = some w → odv t 0x2200 j = w.value)
          ∧ t.mgmt.st = (if s.mgmt.stopPending then 3 else s.mgmt.st) ∧ t.mgmt.stopPending = false
          ∧ t = { s with od := t.od, mgmt := t.mgmt, front := { s.front with credits := t.front.credits } })
      ∧ (∀ p, s.mgmt.rwq = [{ key := odKey 0x2000 1, value := p }] → p ≠ odv s 0x2000 2 →
          t.front.switching = some p ∧ ∀ r, (regionAt t r).lines = [] ∧ (regionAt t r).leaves = [] ∧ (regionAt t r).loam = []))
  ∧ (∀ (p : Nat) (s : State), live s = true → s.front.switching = some p →
    ∃ t, exec .profileSwitchComplete s = .next t ∧ odv t 0x2000 2 = p ∧ odv t 0x2000 3 = (odv s 0x2000 3 + 1) % 2 ^ 32
      ∧ t.front = { s.front with switching := none } ∧ t.sp = s.sp ∧ t.flags = s.flags ∧ t.links = s.links ∧ t.paged = s.paged))
  ∧ (
  ∀ s : State, live s = true → s.mgmt.recovering = false →
    ((s.mgmt.st = 1 ∨ s.mgmt.st = 3) → ∃ t, exec .requestOperational s = .next t ∧ t.mgmt.st = 2 ∧ t.mgmt.lastAbort = 0
      ∧ t.power.trim = odv s 0x5100 3 ∧ t.power.trimCheck = true ∧ t.power.trimRef = refNow s
      ∧ t.front = { s.front with credits := if s.front.refusals.length < 16 then max s.front.credits (odv s 0x2200 6)
          else s.front.credits }
      ∧ t.sp = s.sp ∧ t.flags = s.flags ∧ t.links = s.links ∧ t.paged = s.paged)
    ∧ (¬ (s.mgmt.st = 1 ∨ s.mgmt.st = 3) → exec .requestOperational s = .next (aborted 0x04000001 s))
    ∧ (s.mgmt.st = 2 → exec .requestStopped s = .next (answered { s with mgmt := { s.mgmt with stopPending := true } }))
    ∧ (s.mgmt.st ≠ 2 → exec .requestStopped s = .next (aborted 0x04000001 s))
    ∧ exec (.dictWrite 0x1F80 2 [1]) s = .next (aborted 0x04000001 s))

/-- What each accepted configuration write changes, and that it changes no more. Rests on 06_attention.md;
07_paged_cache.md; 08_sequence_operations.md; 09_commands.md; 10_memory_model.md; 15_reliability.md;
17_security_and_debug.md. -/
def Obligations.ConfigWriteRows : Prop :=
  ∀ s : State, live s = true →
    (∀ m : BitVec 16, writePasses s (.funcDisable m) = true → ∃ t, exec (.funcDisable m) s = .next t
      ∧ odv t 0x2100 1 = m.toNat ∧ t.mgmt = { s.mgmt with lastAbort := 0 } ∧ t.mem = s.mem ∧ t.flags = s.flags ∧ t.links = s.links
      ∧ (∀ c k, cmdOf s c.uid = some c → opClass (dOp c.desc) = some k → bit (odv s 0x2100 1) k = true → bit m.toNat k = false →
          bit (odv s 0x2100 2) k = true → c.decided = false → c.ending = none → c.reject = none →
          ∃ x, cmdOf t c.uid = some x ∧ x.ending = some (0x0400, 0xFFFF))
      ∧ (odv s 0x2100 2 = 0 → t = answered { s with od := t.od }))
    ∧ (∀ v, writePasses s (.biasCommit v) = true → ∃ t, exec (.biasCommit v) s = .next t ∧ t = answered { s with od := t.od }
      ∧ odv t 0x3100 1 = 1 - odv s 0x3100 1 ∧ ∀ i j, odKey i j ≠ odKey 0x3100 1 → odv t i j = odv s i j)
    ∧ (∀ v, writePasses s (.routeCommit v) = true → ∃ t, exec (.routeCommit v) s = .next t ∧ t = answered { s with od := t.od }
      ∧ odv t 0x4300 1 = 1 - odv s 0x4300 1 ∧ ∀ i j, odKey i j ≠ odKey 0x4300 1 → odv t i j = odv s i j)
    ∧ (∀ slot, slot < 4096 → writePasses s (.flagReset slot) = true → ∃ t, exec (.flagReset slot) s = .next t
      ∧ flagAt t slot = { flag0 with setFc := s.clocks.fc } ∧ (∀ k, k ≠ slot → flagAt t k = flagAt s k)
      ∧ t.mgmt = { s.mgmt with lastAbort := 0 } ∧ t.sp = s.sp ∧ t.paged = s.paged)
    ∧ (∀ p target, p < 8 → target < 2 ^ 32 → writePasses s (.poolShrink p target) = true → ∃ t, exec (.poolShrink p target) s = .next t
      ∧ t = answered { s with od := t.od } ∧ odv t 0x3200 (0x60 + p) = target ∧ target ≤ poolCount s p
      ∧ ∀ i j, odKey i j ≠ odKey 0x3200 (0x60 + p) → odv t i j = odv s i j)
    ∧ (∀ v, writePasses s (.accSelect v) = true → blockPresent s (fld v 0 9) = true ∧ (blockAt s (fld v 0 9)).retired = false
      ∧ ∃ t, exec (.accSelect v) s = .next t ∧ t = answered { s with od := t.od } ∧ odv t 0x9000 1 = v.toNat)
    ∧ (∀ p v, p < 6 → v < 256 → writePasses s (.txKeySlot p v) = true → thas v (linkAt s p).slots = true
      ∧ ∃ t, exec (.txKeySlot p v) s = .next t ∧ t = answered { s with od := t.od } ∧ odv t 0x8200 (0x30 + p) = v)
    ∧ (∀ b, b < 65536 → writePasses s (.spRestored b) = true → ∃ t, exec (.spRestored b) s = .next t
      ∧ t = answered { s with blocks := t.blocks } ∧ blockAt t b = { blockAt s b with spLost := false }
      ∧ ∀ b', b' ≠ b → blockAt t b' = blockAt s b')
    ∧ (∀ i j bs r, odFind i j = some r → r.acc ≠ 3 → writePasses s (.dictWrite i j bs) = true →
      i ∉ [0x1F80, 0x2100, 0x2400, 0x3100, 0x4300, 0x4010, 0x5010, 0x6000, 0x6100, 0x6200, 0x8100, 0x8200, 0x8300] →
      ∃ t, exec (.dictWrite i j bs) s = .next t ∧ t = answered { s with od := t.od } ∧ odv t i j = ofBytes bs)

/-- PORT_RETRAIN, INJECT and ERROR_ACK: what an accepted write does, and when the first two are rejected. Rests on
11_links.md; 15_reliability.md. -/
def Obligations.PortAndErrorWriteRows : Prop :=
  ∀ s : State, live s = true →
    (∀ p, p < 6 → s.mgmt.recovering = false → s.mgmt.st ∈ [1, 2, 3] →
      (((linkAt s p).st = 3 ∨ (linkAt s p).st = 4) → ∃ t, exec (.portRetrain p 1) s = .next t ∧ t = answered { s with links := t.links }
        ∧ (linkAt t p).st = (if encrypted s p = true ∧ keyOk s p = false then 5 else 1)
        ∧ (linkAt t p).slots = (linkAt s p).slots ∧ (∀ q, q ≠ p → linkAt t q = linkAt s q))
      ∧ (¬ ((linkAt s p).st = 3 ∨ (linkAt s p).st = 4) → exec (.portRetrain p 1) s = .next (aborted 0x04000005 s)))
    ∧ (∀ v : Word, writePasses s (.inject v) = true → exec (.inject v) s = .next (answered { s with rel := { s.rel with
        armed := s.rel.armed ++ [(fld v 0 8, fld v 8 9, v.getLsbD 17)] } }))
    ∧ (∀ v : Word, v.toNat < 2 ^ 18 → s.sec.lifecycle ≠ 2 → s.mgmt.recovering = false → s.mgmt.st ∈ [1, 2, 3] →
      (∀ a b d, kindInfo (fld v 0 8) ≠ some (a, b, d, true)) → exec (.inject v) s = .next (aborted 0x03000003 s))
    ∧ (∀ n, n < 2 ^ 32 → writePasses s (.errorAck n) = true →
      (let a := if serialLe n s.rel.count then (if serialLe s.rel.acked n then n else s.rel.acked) else s.rel.count
       let u : State := { s with rel := { s.rel with acked := a } }
       let restarts := s.mgmt.st = 4 ∧ s.rel.noAuto = true ∧ s.rel.fatal = false ∧ unacked u = 0
       (¬ restarts → exec (.errorAck n) s = .next (answered u))
       ∧ (restarts → ∃ t, exec (.errorAck n) s = .next t ∧ t.mgmt.recovering = true ∧ t.rel.acked = a ∧ t.rel.noAuto = false
          ∧ t.rel.recov.map (fun r => (r.level, r.begun)) = [(3, false)] ∧ t.mem = s.mem ∧ t.front = s.front)))

/-- Key slots written and cleared; an unlock ended by RELOCK or by its duration; the end of a hold. Rests on
11_links.md; 17_security_and_debug.md. -/
def Obligations.KeyAndRelockRows : Prop :=
  ∀ s : State, live s = true →
    (∀ p slot bs, p < 6 → slot < 2 → writePasses s (.linkKeySlot p slot bs) = true → bs.length = 72
      ∧ ∃ t, exec (.linkKeySlot p slot bs) s = .next t ∧ t = answered { s with links := t.links }
        ∧ thas slot (linkAt t p).slots = true
        ∧ (let k := tget keySlot0 (linkAt t p).slots slot
           k.tx = { key := BitVec.ofNat 256 (ofBytes (bs.take 32)), salt := BitVec.ofNat 32 (ofBytes ((bs.drop 32).take 4)), ctr := 0 }
           ∧ k.rx = { key := BitVec.ofNat 256 (ofBytes ((bs.drop 36).take 32))
                      salt := BitVec.ofNat 32 (ofBytes ((bs.drop 68).take 4)), ctr := 0 })
        ∧ (∀ k, k ≠ slot → tget keySlot0 (linkAt t p).slots k = tget keySlot0 (linkAt s p).slots k)
        ∧ ∀ q, q ≠ p → linkAt t q = linkAt s q)
    ∧ (∀ p v, p < 6 → v < 4 → writePasses s (.keyClear p v) = true → ∃ t, exec (.keyClear p v) s = .next t
      ∧ t = answered { s with links := t.links } ∧ (∀ q, q ≠ p → linkAt t q = linkAt s q)
      ∧ ∀ k, thas k (linkAt t p).slots = (thas k (linkAt s p).slots && !v.testBit k))
    ∧ (writePasses s (.relock 1) = true → s.sec.grant ≠ 0 → ∃ t, exec (.relock 1) s = .next t ∧ t.mgmt = { s.mgmt with lastAbort := 0 }
      ∧ t.sec.grant = 0 ∧ t.sec.duration = 0 ∧ t.rel = { s.rel with armed := [] } ∧ (t.sec.tapIr = 3 → t.sec.tapOk = true)
      ∧ t.mem = s.mem ∧ t.front = s.front ∧ t.od = s.od)
    ∧ (writePasses s (.relock 1) = true → s.sec.grant = 0 → exec (.relock 1) s = .next (answered s))
    ∧ (s.sec.grant ≠ 0 → s.sec.duration ≠ 0 → refNow s ≥ s.sec.grantRef + s.sec.duration * 100000000 →
      ∃ t, exec .unlockDurationEnd s = .next t ∧ t.sec.grant = 0 ∧ t.sec.duration = 0 ∧ t.rel = { s.rel with armed := [] }
        ∧ (t.sec.tapIr = 3 → t.sec.tapOk = true) ∧ t.mgmt = s.mgmt ∧ t.mem = s.mem ∧ t.front = s.front ∧ t.od = s.od)
    ∧ (s.sec.holdUntil ≠ 0 → refNow s ≥ s.sec.holdUntil →
      exec .unlockHoldEnd s = .next { s with sec := { s.sec with holdUntil := 0 } })

/-- Failed unlock responses hold the next one back; a response during the hold counts for nothing; a grant resets.
Formalises R496. -/
def Obligations.UnlockHoldBack : Prop :=
  ∀ (bs : List Byte) (s : State), live s = true →
    (refNow s < s.sec.holdUntil → exec (.unlockResponse bs) s = .next (aborted 0x05000001 s))
    ∧ (writePasses s (.unlockResponse bs) = true → unlockGood s bs = false → ∃ t, exec (.unlockResponse bs) s = .next t
      ∧ t.sec.failRow = s.sec.failRow + 1 ∧ t.sec.holdUntil = refNow s + 10 * 2 ^ min (s.sec.failRow + 1) 10 * 100000
      ∧ t.sec.grant = s.sec.grant ∧ t.sec.attempts = (s.sec.attempts + 1) % 2 ^ 32 ∧ t.mgmt.lastAbort = 0x05000001
      ∧ t.mem = s.mem ∧ t.front = s.front)
    ∧ (writePasses s (.unlockResponse bs) = true → unlockGood s bs = true → ∃ t, exec (.unlockResponse bs) s = .next t
      ∧ t.sec.failRow = 0 ∧ t.sec.holdUntil = 0 ∧ t.mgmt.lastAbort = 0 ∧ t.sec.attempts = (s.sec.attempts + 1) % 2 ^ 32
      ∧ t.sec.grant = (if bs.length = 128 then bits (ofBytes (bs.take 32)) 0 4 else 15) ∧ t.sec.grantRef = refNow s
      ∧ t.mem = s.mem ∧ t.front = s.front)

/-- Each dictionary frame is answered by one frame, reads change nothing, and writes do what the write row does. Rests
on 13_object_dictionary.md; 17_security_and_debug.md. -/
def Obligations.DictionaryRequestRows : Prop :=
  ∀ (tr : Transport) (ws : List Word) (s : State), live s = true → s.mgmt.inbox = [] → fires 0x26 0 s = none →
    (let sent := fun (fr : List Word) (u : State) => { u with mgmt := { u.mgmt with
       replies := u.mgmt.replies ++ [(tr, fr)], lastAbort := replyCode fr } }
     let i := frIndex ws
     let j := frSub ws
     (∀ row ∈ [Instr.read tr ws, .write tr ws, .segRead tr ws, .segWrite tr ws, .snapshot tr ws, .describe tr ws, .cancel tr ws],
       (frameFault ws false = 0x01000002 → exec row s = .next (sent (abortFrame ws (wordN ws 1) 0x01000002) s))
       ∧ (frameFault ws false = 0x01000001 → ∃ t, exec row s = .next (sent (abortFrame ws (wordN ws 1) 0x01000001) t)
          ∧ t = { s with rel := t.rel, od := t.od }))
     ∧ (frameFault ws false = 0 →
       (frCs ws = 1 → (∀ e, readCheck s false i j = .inl e → exec (.read tr ws) s = .next (sent (abortFrame ws (wordN ws 1) e) s))
         ∧ (∀ r, readCheck s false i j = .inr r → exec (.read tr ws) s
             = .next (sent (okFrame ws (odBytes s r i j).length (twoWords (ofBytes (odBytes s r i j)))) s)))
       ∧ (frCs ws = 5 →
         (let es := frPay ws
          let check := fun (w : Word) => readCheck s false (fld w 0 16) (fld w 16 8)
          ((es.length = 0 ∨ es.length > 64) → exec (.snapshot tr ws) s = .next (sent (abortFrame ws 0 0x01000007) s))
          ∧ (es.length ≤ 64 → ∀ good w rest e, es = good ++ w :: rest → (∀ g ∈ good, ∃ r, check g = .inr r) → check w = .inl e →
              exec (.snapshot tr ws) s = .next (sent (abortFrame ws w.toNat e) s))
          ∧ (es ≠ [] → es.length ≤ 64 → (∀ g ∈ es, ∃ r, check g = .inr r) → ∃ pay, exec (.snapshot tr ws) s = .next (sent (okFrame ws 0 pay) s)
              ∧ pay.length = 3 * es.length)))
       ∧ (frCs ws = 6 → ∃ fr, exec (.describe tr ws) s = .next (sent fr s)
         ∧ (∀ e, odExists i j = .inl e → fr = abortFrame ws (wordN ws 1) e))
       ∧ (frCs ws = 2 → tooLarge i j = true → exec (.write tr ws) s = .next (sent (abortFrame ws (wordN ws 1) 0x01000006) s))
       ∧ (frCs ws = 2 → tooLarge i j = false → frAux ws ≤ 8 →
         ∃ u, exec (.dictWrite i j ((wordBytes (frPay ws)).take (frAux ws))) s = .next u
           ∧ ∃ t, exec (.write tr ws) s = .next t ∧ t.mgmt.replies = u.mgmt.replies ++ [(tr, codeFrame ws u.mgmt.lastAbort)]
             ∧ t = { u with mgmt := { u.mgmt with replies := t.mgmt.replies, lastAbort := t.mgmt.lastAbort } })
       ∧ (frCs ws = 3 → fld ((frPay ws).getD 0 0) 0 16 = 0 → ∀ r, readCheck s true i j = .inr r → i ≠ 0x9000 →
         (let bs := odBytes s r i j
          ∃ t, exec (.segRead tr ws) s = .next t ∧ t = { s with mgmt := t.mgmt }
            ∧ t.mgmt.replies = s.mgmt.replies ++ [(tr, okFrame ws 0 (BitVec.ofNat 32 (if bs.length ≤ 1024 then 65536 else 0)
                :: BitVec.ofNat 32 bs.length :: bytesWords (bs.take 1024)))]
            ∧ (bs.length ≤ 1024 → sessionOf t tr = none)
            ∧ (bs.length > 1024 → ∃ x, sessionOf t tr = some x ∧ x.data = bs ∧ x.next = 1 ∧ x.write = false ∧ x.key = odKey i j)))
       ∧ (frCs ws = 4 → fld ((frPay ws).getD 0 0) 0 16 = 0 → s.mgmt.recovering = false → s.mgmt.st ≠ 0 →
         (let total := wordN (frPay ws) 1
          let bytes := wordBytes ((frPay ws).drop 2)
          (fld ((frPay ws).getD 0 0) 16 1 = 0 → 1024 ≤ total → total ≤ 65536 → bytes.length = 1024 →
            ∃ t x, exec (.segWrite tr ws) s = .next t ∧ t = { s with mgmt := t.mgmt } ∧ sessionOf t tr = some x ∧ x.data = bytes
              ∧ x.next = 1 ∧ x.total = total ∧ x.write = true ∧ x.key = odKey i j
              ∧ t.mgmt.replies = s.mgmt.replies ++ [(tr, okFrame ws 0 [])])
          ∧ (fld ((frPay ws).getD 0 0) 16 1 = 1 → total ≤ 65536 → ((frPay ws).drop 2).length = (total + 3) / 4 →
              (∀ b ∈ bytes.drop total, b = 0) →
            ∃ u, exec (.dictWrite i j (bytes.take total)) (putSession tr none s) = .next u
              ∧ ∃ t, exec (.segWrite tr ws) s = .next t ∧ t.mgmt.replies = u.mgmt.replies ++ [(tr, codeFrame ws u.mgmt.lastAbort)]
                ∧ t = { u with mgmt := { u.mgmt with replies := t.mgmt.replies, lastAbort := t.mgmt.lastAbort } })))
       ∧ (frCs ws = 0x0F → s.mgmt.recovering = false → exec (.cancel tr ws) s = .next (sent (okFrame ws 0 []) (putSession tr none s)))))
    ∧ (∀ x, sessionOf s tr = some x → mcNow s ≥ x.lastMc + 1000000 →
        exec (.sessionTimeout tr) s = .next (putSession tr (some { x with expired := true, data := [] }) s))
    ∧ (s.sec.lifecycle ≠ 2 → s.mgmt.recovering = false → s.mgmt.st ≠ 0 → ∃ t fr, exec .accWindow s = .next t
        ∧ t.mgmt.replies = s.mgmt.replies ++ [(.ring, fr)] ∧ fr.take 4 = [BitVec.ofNat 32 (0x83 + 34 * 65536), 0x00029000, 65536, 128]
        ∧ (fr.drop 4).take 32 = bytesWords (accWindowBytes s) ∧ t = { s with mgmt := t.mgmt, fresh := s.fresh + 1 })
    ∧ (s.sec.lifecycle = 2 → s.sec.grant.testBit 0 = false → ∃ t fr, exec .accWindow s = .next t
        ∧ t.mgmt.replies = s.mgmt.replies ++ [(.ring, fr)] ∧ replyCode fr = 0x05000001 ∧ t = { s with mgmt := t.mgmt })

/-- A whole MCTP message is queued, and each message served sends one response in the order the manual fixes. Rests on
13_object_dictionary.md; 17_security_and_debug.md. -/
def Obligations.MessageRows : Prop :=
  (∀ (ws : List Word) (s : State), live s = true → fires 0x26 0 s = none → frameFault ws false = 0 → frCs ws = 0x20 →
    (let ps := (wordBytes (frPay ws)).take (frAux ws)
     byteN ps 0 % 16 = 1 → byteN ps 1 = 0 → (byteN ps 3).testBit 3 = true → (byteN ps 3).testBit 6 = true → (byteN ps 3).testBit 7 = true →
     (byteN ps 4 = 5 ∨ byteN ps 4 = 0x7F ∨ (byteN ps 4 = 0 ∧ byteN ps 6 ∈ [1, 2, 4, 5, 6])) → s.mgmt.inbox.length < 4 →
     exec (.mctp ws) s = .next { s with mgmt := { s.mgmt with
       asmOn := false, asmBody := [], inbox := s.mgmt.inbox ++ [{ src := byteN ps 2, tag := byteN ps 3 % 8, body := ps.drop 4 }] } }))
  ∧ ∀ (m : McMsg) (rest : List McMsg) (s : State), live s = true → s.mgmt.inbox = m :: rest →
    (let k := msgKind m.body
     let b := m.body
     let out := fun (eid spdm : Nat) (body : List Byte) => { s with mgmt := { s.mgmt with
       eid := eid, inbox := rest, spdm := spdm, outbox := s.mgmt.outbox ++ packetsOf eid m.src m.tag body } }
     let g := s.mgmt
     let early := out g.eid g.spdm (spdmError 4)
     (byteN b 0 = 0 →
       (k = 1 → byteN b 3 % 4 < 2 → byteN b 4 ≠ 0 → byteN b 4 ≠ 255 → exec .setEndpointId s
          = .next (out (byteN b 4) g.spdm (controlReply b 0 [0, BitVec.ofNat 8 (byteN b 4), 0])))
       ∧ (k = 2 → exec .getEndpointId s = .next (out g.eid g.spdm (controlReply b 0 [BitVec.ofNat 8 g.eid, 0, 0])))
       ∧ (k = 4 → byteN b 3 ∈ [0xFF, 0, 5, 0x7F] → exec .getMctpVersionSupport s
          = .next (out g.eid g.spdm (controlReply b 0 (1 :: toBytes 4 Config.mctpVersion.toNat))))
       ∧ (k = 5 → exec .getMessageTypeSupport s = .next (out g.eid g.spdm (controlReply b 0 [2, 5, 0x7F])))
       ∧ (k = 6 → byteN b 3 = 0 → exec .getVendorDefinedMessageSupport s
          = .next (out g.eid g.spdm (controlReply b 0 ([0xFF, 1] ++ toBytesBE 4 0x0F4A2C11 ++ [0, 1])))))
     ∧ (byteN b 0 = 0x7F →
       (ofBytesBE ((b.drop 1).take 4) ≠ 0x0F4A2C11 → exec .dictionaryMessage s = .next { s with mgmt := { g with inbox := rest } })
       ∧ (ofBytesBE ((b.drop 1).take 4) = 0x0F4A2C11 → byteN b 5 = 1 → b.length % 4 = 2 →
         (let r := serveFrame .mctp (bytesWords (b.drop 6)) { s with mgmt := { g with inbox := rest } }
          ∃ t, exec .dictionaryMessage s = .next t
            ∧ t.mgmt.outbox = r.2.mgmt.outbox ++ packetsOf r.2.mgmt.eid m.src m.tag (b.take 5 ++ [1] ++ wordBytes r.1)
            ∧ t = { r.2 with mgmt := { r.2.mgmt with outbox := t.mgmt.outbox }, pending := s.pending })))
     ∧ (byteN b 0 = 5 →
       (k = 0x584 → exec .getVersion s = .next (out g.eid 1 (spdmReply 0x04 0 0 (spdmData 0x04 b []))))
       ∧ (k = 0x5E1 → exec .getCapabilities s = .next (if g.spdm < 1 then early else out g.eid 2 (spdmReply 0x61 0 0 (spdmData 0x61 b []))))
       ∧ (k = 0x5E3 → exec .negotiateAlgorithms s
          = .next (if g.spdm < 2 then early else out g.eid 3 (spdmReply 0x63 0 0 (spdmData 0x63 b []))))
       ∧ (g.spdm < 3 → (k = 0x581 → exec .getDigests s = .next early) ∧ (k = 0x582 → exec .getCertificate s = .next early)
          ∧ (k = 0x583 → exec .challenge s = .next early) ∧ (k = 0x5E0 → exec .getMeasurements s = .next early))
       ∧ (g.spdm ≥ 3 →
         (k = 0x581 → exec .getDigests s = .next (out g.eid g.spdm
            (if s.sec.cert = [] then spdmReply 0x01 0 0 [] else spdmReply 0x01 0 1 (spdmData 0x01 b s.sec.cert))))
         ∧ (k = 0x582 → exec .getCertificate s = .next (out g.eid g.spdm
            (if s.sec.cert = [] then spdmError 5 else spdmReply 0x02 0 0 (spdmData 0x02 b s.sec.cert))))
         ∧ (k = 0x583 → s.sec.cert = [] → exec .challenge s = .next (out g.eid g.spdm (spdmError 5)))
         ∧ (k = 0x583 → s.sec.cert ≠ [] → ∃ t, exec .challenge s = .next t ∧ t.mgmt.inbox = rest ∧ t.fresh = s.fresh + 1
            ∧ t.mgmt.outbox.length > g.outbox.length ∧ t = { s with mgmt := { g with inbox := rest, outbox := t.mgmt.outbox }, fresh := t.fresh })
         ∧ (k = 0x5E0 → byteN b 3 % 2 = 0 → exec .getMeasurements s = .next (out g.eid g.spdm
            (spdmReply 0x60 (odv s 0x8100 1) 0 (spdmData 0x60 b (measurements s))))))
       ∧ (k ∉ [0x584, 0x5E1, 0x5E3, 0x581, 0x582, 0x583, 0x5E0] →
          exec .spdmUnsupportedRequest s = .next (out g.eid g.spdm (spdmError 7)))))

/-- A good flit in order is taken once and delivered or forwarded; a failed or disordered one is discarded and asked
for again. Rests on 11_links.md. -/
def Obligations.FlitReceptionRows : Prop :=
  ∀ (p type : Nat) (row : Instr) (f : Flit) (fec : Fec) (s : State),
    (row, type) ∈ [(Instr.headFlit p f fec, 1), (.dataFlit p f fec, 2), (.smallFlit p f fec, 3), (.flagFlit p f fec, 4),
      (.ackFlit p f fec, 5), (.abortFlit p f fec, 8)] →
    rxOk s p f type = true → (∀ code ∈ [0x30, 0x31, 0x33], fires code p s = none) →
    (let l := linkAt s p
     (∀ b slots, fecGood fec = true → flitGood f = true → openFlit s p f = some (b, slots) → fSeq f = l.rxSeq → fVc f ≠ 3 →
        (∀ c ∈ s.front.cmds, c.coll = none) → ∃ t, exec row s = .next t
        ∧ (linkAt t p).rxSeq = (l.rxSeq + 1) % 4096 ∧ (linkAt t p).refetch = false ∧ (linkAt t p).fails = 0
        ∧ t.flags = s.flags ∧ t.sp = s.sp ∧ t.paged = s.paged
        ∧ (fDst f = myNode s →
          (type = 3 → fld b 52 7 ≤ 64 → fld b 59 1 = 0 → fld b 0 52 + fld b 52 7 ≤ 2 ^ 52 →
            (∀ i < fld b 52 7, hostByte t (fld b 0 52 + i) = BitVec.ofNat 8 (fld b (128 + 8 * i) 8))
            ∧ (∀ x, ¬ (fld b 0 52 ≤ x ∧ x < fld b 0 52 + fld b 52 7) → memGet t.mem x = memGet s.mem x)
            ∧ t.acks = s.acks ++ [{ dst := fSrc f, pktId := fld b 64 16, kind := 2 }])
          ∧ (type = 4 → t.mem = s.mem ∧ t.acks = s.acks ∧ t.remoteRels = s.remoteRels ++
              [{ port := p, num := fld b 64 16, src := fSrc f, slot := fld b 0 12, add := fld b 15 2 = 1, val := fld b 32 32
                 scope := fld b 12 3, arr := s.arrNo, fc := s.clocks.fc }])
          ∧ (type = 5 → t.mem = s.mem ∧ ∀ i < (if encrypted s p then 14 else 15), fld b (128 * i + 35) 1 = 1 →
              ∀ x ∈ t.e2e, x.pktId ≠ fld b (128 * i) 16)
          ∧ (fVc f = 0 → type = 1 →
            (let h := headerPacket b (fSrc f)
             let bs := flitBytes (bodyBytes s p) 32 h b
             (fTail f = true → h.kind = 0 → 1 ≤ h.len → h.len ≤ 16900 → h.poison = false → h.addr + bs.length ≤ 2 ^ 52 →
                (∀ i (hi : i < bs.length), hostByte t (h.addr + i) = bs[i])
                ∧ t.acks = s.acks ++ [{ dst := fSrc f, pktId := h.pktId, kind := 0 }])
             ∧ (fTail f = false → (tget h (linkAt t p).packets (fClass f)).got = bs.length ∧ t.acks = s.acks)))
          ∧ (∀ h, fVc f = 0 → type = 2 → l.packets.find? (fun e => e.1 = fClass f) = some (fClass f, h) → fTail f = true →
              h.drop = false → h.poison = false →
            (let bs := flitBytes (bodyBytes s p) 0 h b
             (h.addr + h.got + bs.length ≤ 2 ^ 52 → ∀ i (hi : i < bs.length), hostByte t (h.addr + h.got + i) = bs[i])
             ∧ thas (fClass f) (linkAt t p).packets = false ∧ t.acks = s.acks ++ [{ dst := h.src, pktId := h.pktId, kind := 0 }]))
          ∧ (fVc f = 0 → type = 8 → thas (fClass f) (linkAt t p).packets = false ∧ t.acks = s.acks ∧ t.mem = s.mem))
        ∧ (∀ q, fDst f ≠ myNode s → (type = 3 ∨ type = 4 ∨ type = 5) → routePort s (fSrc f) (fDst f) = some q →
            portDead s q = false → fDst f < nodeCount s → t.mem = s.mem ∧ t.acks = s.acks
            ∧ ∃ x, (linkAt t q).txq = (linkAt s q).txq ++ [x] ∧ x.body = b ∧ x.dst = fDst f ∧ x.src = fSrc f ∧ x.vc = fVc f
              ∧ x.dclass = nextClass s q (if q / 2 = p / 2 then some (fClass f) else none)))
     ∧ ((fecGood fec = false ∨ flitGood f = false ∨ (openFlit s p f ≠ none ∧ fSeq f ≠ l.rxSeq)) →
        (l.refetch = false → ∃ t, exec row s = .next t ∧ t = { s with links := t.links, od := t.od, rel := t.rel }
          ∧ (linkAt t p).refetch = true ∧ (linkAt t p).retryReq = true ∧ (linkAt t p).fails = 1 ∧ (linkAt t p).rxSeq = l.rxSeq
          ∧ (∀ q, q ≠ p → linkAt t q = linkAt s q)
          ∧ (fecGood fec = false → fec.first = true →
              odv t 0x4010 (0xB0 + p) = (odv s 0x4010 (0xB0 + p) + (fec.errs.filter (· > 15)).length) % 2 ^ 32)
          ∧ (fecGood fec = false ∨ flitGood f = false → odv t 0x4010 (0x90 + p) = (odv s 0x4010 (0x90 + p) + 1) % 2 ^ 32))
        ∧ (l.refetch = true → fSeq f = l.rxSeq → l.fails + 1 ≥ odv s 0x4000 8 → ∃ t, exec row s = .next t ∧ (linkAt t p).st = 3)))

/-- NULL and HEARTBEAT flits, and what one flit slot sends. Rests on 11_links.md. -/
def Obligations.LinkLocalAndSendRows : Prop :=
  (∀ (p : Nat) (f : Flit) (fec : Fec) (s : State), (∀ code ∈ [0x30, 0x31, 0x33], fires code p s = none) →
    (let l := linkAt s p
     (∀ b slots, fecGood fec = true → flitGood f = true → openFlit s p f = some (b, slots) →
       (rxOk s p f 0 = true → ∃ t, exec (.nullFlit p f fec) s = .next t ∧ t = { s with links := t.links, od := t.od }
         ∧ odv t 0x4010 (0xA0 + p) = (odv s 0x4010 (0xA0 + p) + (if fec.first then fec.errs.sum else 0)) % 2 ^ 64
         ∧ (linkAt t p).rxSeq = l.rxSeq ∧ (linkAt t p).txq = l.txq ∧ (∀ q, q ≠ p → linkAt t q = linkAt s q)
         ∧ tget 0 (linkAt t p).used (fld f 72 3) = tget 0 l.used (fld f 72 3) - fld f 75 5
         ∧ (fld f 32 1 = 0 → (linkAt t p).retry = l.retry)
         ∧ (fld f 32 1 = 1 → ∀ x, x ∈ (linkAt t p).retry ↔ x ∈ l.retry ∧ (x.seq + 4096 - fld f 20 12) % 4096 ≠ 0
              ∧ (x.seq + 4096 - fld f 20 12) % 4096 < 2048))
       ∧ (rxOk s p f 6 = true → ∃ t, exec (.heartbeatFlit p f fec) s = .next t
         ∧ odv t 0x4010 (0x60 + p) = fld b 16 4 ∧ odv t 0x4010 (0x70 + p) = fld b 32 32 ∧ (linkAt t p).hbRef = refNow s
         ∧ (linkAt t p).rxSeq = l.rxSeq ∧ t.flags = s.flags ∧ t.sp = s.sp ∧ t.front = s.front))
     ∧ ((fecGood fec = false ∨ flitGood f = false) →
       (rxOk s p f 0 = true → ∃ t, exec (.nullFlit p f fec) s = .next t ∧ t = { s with links := t.links, od := t.od, rel := t.rel }
         ∧ (linkAt t p).hbRef = l.hbRef ∧ (linkAt t p).retry = l.retry)
       ∧ (rxOk s p f 6 = true → ∃ t, exec (.heartbeatFlit p f fec) s = .next t
         ∧ t = { s with links := t.links, od := t.od, rel := t.rel } ∧ (linkAt t p).hbRef = l.hbRef))))
  ∧ (∀ (p : Nat) (s : State), live s = true → p < 6 →
    (let l := linkAt s p
     (l.st = 1 → ∃ t, exec (.flitSlot p) s = .next t ∧ (linkAt t p).sent.isSome ∧ (linkAt t p).st = 1
        ∧ (linkAt t p).txSeq = l.txSeq ∧ (linkAt t p).retry = l.retry ∧ t.mem = s.mem)
     ∧ (l.st = 2 → l.acked = false →
       (l.retryReq = true → ∃ t, exec (.flitSlot p) s = .next t ∧ (linkAt t p).sent.isSome ∧ (linkAt t p).retryReq = false
          ∧ (linkAt t p).reqAge = 0 ∧ odv t 0x4010 (0x80 + p) = (odv s 0x4010 (0x80 + p) + 1) % 2 ^ 32 ∧ (linkAt t p).txSeq = l.txSeq)
       ∧ (l.retryReq = false → l.hbDue = true → ∃ t, exec (.flitSlot p) s = .next t ∧ (linkAt t p).sent.isSome
          ∧ (linkAt t p).hbDue = false ∧ (linkAt t p).hbNum = (l.hbNum + 1) % 2 ^ 32 ∧ (linkAt t p).txSeq = l.txSeq ∧ t.od = s.od)
       ∧ (∀ x r, l.retryReq = false → l.hbDue = false → l.resend = x :: r → ∃ t, exec (.flitSlot p) s = .next t
          ∧ (linkAt t p).sent.isSome ∧ (linkAt t p).resend = r ∧ (linkAt t p).txSeq = l.txSeq ∧ (linkAt t p).retry = l.retry
          ∧ t.od = s.od)
       ∧ (∀ x, l.retryReq = false → l.hbDue = false → l.resend = [] → l.retry.length < 512 →
          (if l.bulk3 then [2, 1, 0, 3] else [2, 1, 3, 0]).findSome? (nextOf s p) = some x →
          tget 0 l.used (2 * x.vc + x.dclass) < bufferDepth x.vc
          ∧ ∃ t g, exec (.flitSlot p) s = .next t ∧ (linkAt t p).txSeq = (l.txSeq + 1) % 4096
            ∧ (linkAt t p).retry = l.retry ++ [{ seq := l.txSeq, tx := x, flit := g }] ∧ (linkAt t p).sent = some g
            ∧ tget 0 (linkAt t p).used (2 * x.vc + x.dclass) = tget 0 l.used (2 * x.vc + x.dclass) + 1)
       ∧ (l.retryReq = false → l.hbDue = false → l.resend = [] →
          (l.retry.length ≥ 512 ∨ (if l.bulk3 then [2, 1, 0, 3] else [2, 1, 3, 0]).findSome? (nextOf s p) = none) →
          ∃ t, exec (.flitSlot p) s = .next t ∧ (linkAt t p).sent.isSome ∧ (linkAt t p).txSeq = l.txSeq
            ∧ (linkAt t p).retry = l.retry ∧ (linkAt t p).txq = l.txq ∧ t.acks = s.acks ∧ t.od = s.od))
     ∧ (l.st = 2 → s.clocks.fc ≥ l.hbFc + 4096 → exec (.heartbeatSend p) s
        = .next { s with links := tput p { l with hbDue := true, hbFc := s.clocks.fc } s.links })
     ∧ (l.st = 2 → l.refetch = true → l.reqAge ≥ 64 → exec (.retryRequestResend p) s
        = .next { s with links := tput p { l with retryReq := true, reqAge := 0 } s.links })))

/-- How a port trains, is lost, and answers a retry request; and the end-to-end timeout of a command. Rests on
11_links.md; 16_boundary_and_startup.md. -/
def Obligations.LinkStateRows : Prop :=
  ∀ s : State, live s = true →
    (∀ p, p < 6 →
      (let l := linkAt s p
       let down := fun (t : State) => (linkAt t p).st = 3 ∧ odv t 0x4010 (0xD0 + p) = (odv s 0x4010 (0xD0 + p) + 1) % 2 ^ 32
         ∧ t.flags = s.flags ∧ t.paged = s.paged
       (∀ g, l.st = 1 → ∃ t, exec (.ctrlTraining p g) s = .next t ∧ odv t 0x4010 (0x50 + p) = g.node
          ∧ (trainingAgrees s p g = false → (linkAt t p).st = 4)
          ∧ (trainingAgrees s p g = true → l.good + 1 ≥ 16 → (l.acked = true ∨ g.acked = true) →
              (linkAt t p).st = 2 ∧ (linkAt t p).txSeq = 0 ∧ (linkAt t p).rxSeq = 0 ∧ (linkAt t p).retry = []
              ∧ (linkAt t p).used = [] ∧ (linkAt t p).slots = l.slots)
          ∧ (trainingAgrees s p g = true → l.good + 1 < 16 → (linkAt t p).st = 1 ∧ (linkAt t p).good = l.good + 1)
          ∧ t = { s with links := t.links, od := t.od } ∧ ∀ q, q ≠ p → linkAt t q = linkAt s q)
       ∧ (l.st = 1 → refNow s ≥ l.trainRef + 100000 → exec (.trainingTimeout p) s
          = .next { s with links := tput p { l with st := 4 } s.links })
       ∧ (∀ seq, l.st = 2 →
          (let run := if seq = l.askedSeq then l.askedRun + 1 else 1
           (run < odv s 0x4000 8 → ∃ t, exec (.ctrlRetryRequest p seq) s = .next t ∧ t = { s with links := t.links }
              ∧ (linkAt t p).resend = l.retry.filter (fun x => (x.seq + 4096 - seq) % 4096 < 2048)
              ∧ (linkAt t p).retry = (linkAt t p).resend ∧ (linkAt t p).st = 2 ∧ ∀ q, q ≠ p → linkAt t q = linkAt s q)
           ∧ (run ≥ odv s 0x4000 8 → ∃ t, exec (.ctrlRetryRequest p seq) s = .next t ∧ down t)))
       ∧ (l.st = 2 → refNow s ≥ l.hbRef + odv s 0x4000 6 → ∃ t, exec (.hbTimeout p) s = .next t ∧ down t)
       ∧ (l.st = 2 → refNow s < l.hbRef + odv s 0x4000 6 → exec (.hbTimeout p) s = .next s)
       ∧ (odv s 0x4010 (0x10 + p) = 1 → l.phyReady = false → ∃ t, exec (.phyReady p) s = .next t ∧ t = { s with links := t.links }
          ∧ (linkAt t p).phyReady = true
          ∧ (l.st = 0 → (linkAt t p).st = (if encrypted s p = true ∧ keyOk s p = false then 5 else 1))
          ∧ (l.st = 5 → (linkAt t p).st = (if keyOk s p then 1 else 5))
          ∧ (l.st ≠ 0 → l.st ≠ 5 → (linkAt t p).st = l.st) ∧ ∀ q, q ≠ p → linkAt t q = linkAt s q)
       ∧ (l.phyReady = true → (l.st = 1 ∨ l.st = 2) → ∃ t, exec (.phyLockLoss p) s = .next t ∧ down t)
       ∧ (l.phyReady = true → ¬ (l.st = 1 ∨ l.st = 2) → exec (.phyLockLoss p) s
          = .next { s with links := tput p { l with phyReady := false } s.links })))
    ∧ (∀ tag c e, byTag s tag = some c → cmdOf s c.uid = some c → e ∈ s.e2e → e.uid = c.uid → refNow s ≥ e.refAt + odv s 0x4000 7 →
      c.decided = false → c.ending = none → c.reject = none → ∃ t x, exec (.e2eTimeout tag) s = .next t ∧ cmdOf t c.uid = some x
        ∧ x.ending = some (0x0500, 0xFFFF) ∧ (∀ y ∈ t.e2e, y.uid ≠ c.uid) ∧ t.mem = s.mem ∧ t.links = s.links ∧ t.flags = s.flags)

/-- The eight lanes of a port carry a flit whole, 32 bytes each; a repaired block's rows and columns pass by the
bypassed ones. Rests on 11_links.md; 03_cube_array.md; 16_boundary_and_startup.md. -/
def Obligations.LanesAndRepair : Prop :=
  (∀ (f : Flit) (i k : Nat), i < 8 → k < 32 → fld (laneOf f i) (8 * k) 8 = fld f (8 * (32 * i + k)) 8)
  ∧ (∀ f : Flit, ofLanes ((List.range 8).map (laneOf f)) = f)
  ∧ (∀ (f : FuseValues) (s : State), s.boot.pwrGood = true → s.boot.resetN = true → s.boot.dead = false →
      s.boot.strapDone = true → s.boot.fuseDone = false → ∃ t, exec (.fuseLoadDone f) s = .next t
        ∧ ∀ b, bypassed t b = f.repair.getD b (16, 16))
  ∧ (∀ (s : State) (b : Nat), (bypassed s b).1 ≤ 16 → (bypassed s b).2 ≤ 16 →
      (∀ i j, i < j → physRow s b i < physRow s b j ∧ physCol s b i < physCol s b j)
      ∧ (∀ q, (∃ i < 16, physRow s b i = q) ↔ q < 17 ∧ q ≠ (bypassed s b).1)
      ∧ ∀ q, (∃ j < 16, physCol s b j = q) ↔ q < 17 ∧ q ≠ (bypassed s b).2)

/-- A collector accepts the most severe report of the lowest unit first, counts or logs it, and starts a recovery for
a unit fault. Rests on 15_reliability.md. -/
def Obligations.ErrorCollectorRow : Prop :=
  ∀ (level unit i : Nat) (r : Report) (s : State), live s = true →
    nextReport (tget [] s.rel.queues (1000 * level + unit)) = some (i, r) →
    (let q := tget [] s.rel.queues (1000 * level + unit)
     let key := 512 * r.code + r.unit
     let n := tget 0 s.rel.corrected key + 1
     q[i]? = some r
     ∧ (∀ (j : Nat) (x : Report), q[j]? = some x → severityRank r.severity < severityRank x.severity
         ∨ (severityRank r.severity = severityRank x.severity ∧ (r.unit < x.unit ∨ (r.unit = x.unit ∧ i ≤ j))))
     ∧ ∃ t, exec (.errorReportAccept level unit) s = .next t
       ∧ tget [] t.rel.queues (1000 * level + unit) = q.eraseIdx i
       ∧ (odv s 0x7200 1 ≠ 1 → t.mem = s.mem ∧ t.sp = s.sp ∧ t.flags = s.flags)
       ∧ (r.severity = 0 → tget 0 t.rel.corrected key = n ∧ odv t 0x6000 5 = (odv s 0x6000 5 + 1) % 2 ^ 64
          ∧ (n % 1024 ≠ 0 → t.rel.count = s.rel.count ∧ t.rel.log = s.rel.log)
          ∧ (n % 1024 = 0 → canLog s r = true → t.rel.count = (s.rel.count + 1) % 2 ^ 32))
       ∧ (r.severity = 1 → odv t 0x6000 6 = (odv s 0x6000 6 + 1) % 2 ^ 64)
       ∧ (r.severity ≠ 0 → r.severity ≠ 3 → r.severity ≠ 4 → t.rel.recov = s.rel.recov ∧ t.mgmt.st = s.mgmt.st
          ∧ (canLog s r = true → t.rel.count = (s.rel.count + 1) % 2 ^ 32
              ∧ (tget 0#512 t.rel.log t.rel.count).toNat % 2 ^ 32 = t.rel.count
              ∧ (tget 0#512 t.rel.log t.rel.count).toNat / 2 ^ 32 % 2 ^ 8 = r.code % 2 ^ 8)
          ∧ (canLog s r = false → t.rel.count = s.rel.count ∧ t.rel.log = s.rel.log
              ∧ odv t 0x6000 4 = (odv s 0x6000 4 + 1) % 2 ^ 32))
       ∧ (∀ cls lv inj, r.severity = 3 → kindInfo r.code = some (cls, 3, lv, inj) → s.rel.recov = [] →
          (lv = 1 ∨ lv = 2 → t.rel.recov = [{ level := lv, unit := r.unit, entry := if canLog s r then t.rel.count else 0
                                              begun := false, batches := [] }] ∧ t.mgmt.st = s.mgmt.st)
          ∧ (lv = 3 → bit (odv s 0x6200 1) 2 = false → t.mgmt.recovering = true ∧ t.mgmt.st = s.mgmt.st
              ∧ ∃ e, t.rel.recov = [{ level := 3, unit := 0, entry := e, begun := false, batches := [] }])
          ∧ (lv = 3 → bit (odv s 0x6200 1) 2 = true → t.mgmt.st = 4 ∧ t.rel.noAuto = true ∧ t.rel.recov = []))
       ∧ (r.severity = 4 → t.mgmt.st = 4 ∧ t.rel.fatal = true ∧ t.rel.recov = [] ∧ t.mgmt.recovering = false))

/-- A block recovery empties the block and tests or retires it; a passed test puts it back, a failed one retires it.
Rests on 15_reliability.md. -/
def Obligations.BlockRecoveryRows : Prop :=
  (∀ (b : Nat) (r : Recovery) (s : State), live s = true → b < 320 →
    s.rel.recov.find? (fun x => x.level = 1 && x.unit = b && !x.begun) = some r →
    ∃ t, exec (.blockRecovery b) s = .next t ∧ t.mem = s.mem
      ∧ odv t 0x6200 11 = (odv s 0x6200 11 + 1) % 2 ^ 32
      ∧ (∀ e ∈ (regionAt t (b / 40)).psum, (e.1, e.2.1) ∉ itemsIn (blockAt s b))
      ∧ (∀ b' a, a < 2 ^ 20 → spByte t b' a = if b' = b then 0 else spByte s b' a)
      ∧ (retireNow s b = false → (blockAt t b).testing = true ∧ (blockAt t b).job = none ∧ (blockAt t b).feed = []
          ∧ (blockAt t b).epi = [] ∧ (blockAt t b).bvu = none ∧ (blockAt t b).pro = [] ∧ (∀ k ∈ (blockAt t b).banks, k.st = 0)
          ∧ (blockAt t b).arrivals = [] ∧ (blockAt t b).retired = (blockAt s b).retired
          ∧ ∃ q ∈ t.rel.recov, q.level = 1 ∧ q.unit = b ∧ q.begun = true ∧ q.batches = [[b]])
      ∧ (retireNow s b = true → (blockAt t b).retired = true ∧ (blockAt t b).gated = true
          ∧ ∀ q ∈ t.rel.recov, ¬ (q.level = 1 ∧ q.unit = b)))
  ∧ (∀ (b : Nat) (r : Recovery) (pass : Bool) (s : State), live s = true →
    s.rel.recov.find? (fun x => x.begun && (x.batches.headD []).contains b) = some r → fires 9 b s = none →
    ∃ t, exec (.revalidationDone b pass) s = .next t
      ∧ (r.level = 1 ∨ r.level = 2 → r.batches = [[b]] →
          (∀ q ∈ t.rel.recov, ¬ (q.level = r.level ∧ q.unit = r.unit))
          ∧ (pass = true → (blockAt t b).testing = false ∧ (blockAt t b).inReset = false ∧ (blockAt t b).retired = (blockAt s b).retired)
          ∧ (pass = false → (blockAt t b).retired = true ∧ (blockAt t b).gated = true))
      ∧ (∀ c l rest, r.batches = (b :: c :: l) :: rest → b ≠ c → b ∉ l →
          (∃ q ∈ t.rel.recov, q.level = r.level ∧ q.unit = r.unit ∧ q.batches = (c :: l) :: rest) ∧ blockAt t c = blockAt s c)
      ∧ (∀ c l rest, r.batches = [b] :: (c :: l) :: rest → b ≠ c → b ∉ l →
          (∃ q ∈ t.rel.recov, q.level = r.level ∧ q.unit = r.unit ∧ q.batches = (c :: l) :: rest)
          ∧ ∀ x ∈ c :: l, (blockAt t x).testing = true)
      ∧ (r.level = 3 → r.batches = [[b]] → pass = true → blockPresent s b = true → (blockAt s b).retired = false →
          t.mgmt.st = 1 ∧ t.mgmt.recovering = false))

/-- A region recovery and a warm reset end the commands they touch, reset what they cover, and start the tests. Rests
on 15_reliability.md. -/
def Obligations.RegionAndApexRecoveryRows : Prop :=
  (∀ (g i : Nat) (r : Recovery) (s : State), live s = true →
    s.rel.recov.find? (fun x => x.level = 2 && x.unit = g && !x.begun) = some r → i < 40 → (blockAt s (40 * g + i)).retired = false →
    ∃ t, exec (.regionRecovery g) s = .next t ∧ t.mem = s.mem ∧ t.flags = s.flags
      ∧ odv t 0x6200 12 = (odv s 0x6200 12 + 1) % 2 ^ 32
      ∧ (regionAt t g).inReset = true ∧ (regionAt t g).walks = [] ∧ (regionAt t g).lines = [] ∧ (regionAt t g).leaves = []
      ∧ (regionAt t g).psum = [] ∧ (regionAt t g).parts = [] ∧ (regionAt t g).loam = []
      ∧ (∀ j < 40, (blockAt s (40 * g + j)).retired = false → (blockAt t (40 * g + j)).inReset = true
          ∧ (blockAt t (40 * g + j)).job = none ∧ (blockAt t (40 * g + j)).feed = [])
      ∧ (∀ c, cmdOf s c.uid = some c → c.decided = false → c.ending = none → c.reject = none → usesRegion s g c = true →
          ∃ c', cmdOf t c.uid = some c' ∧ c'.ending = some (stResetAbort, noDetail)))
  ∧ (∀ (b : Nat) (r : Recovery) (s : State), live s = true →
    s.rel.recov.find? (fun x => x.level = 3 && !x.begun) = some r → blockPresent s b = true → (blockAt s b).retired = false →
    (∃ t, exec (.apexWarmReset true) s = .next t ∧ t.mgmt.st = 0 ∧ t.mgmt.recovering = true ∧ t.mgmt.stopPending = false
      ∧ t.rel.noAuto = false ∧ odv t 0x6200 13 = (odv s 0x6200 13 + 1) % 2 ^ 32
      ∧ (∀ c ∈ t.front.cmds, c.decided = true) ∧ t.remoteRels = [] ∧ t.localRels = []
      ∧ (∀ p < 6, (linkAt s p).st ∈ [1, 2, 4] → (linkAt t p).st = 3)
      ∧ ((∀ e ∈ s.groups, e.2.st ≠ 1) → t.acks = [] ∧ t.e2e = [] ∧ t.front.items = []
          ∧ ∀ f < 4096, flagAt t f = { flag0 with setFc := s.clocks.fc }))
    ∧ (∃ t, exec (.apexWarmReset false) s = .next t ∧ t.mgmt.st = 4 ∧ t.rel.fatal = true ∧ t.rel.recov = []))

/-- In-service tests, scrubs, the Mire watch and the hourly window run when they are due, and do nothing before. Rests
on 15_reliability.md; 03_cube_array.md. -/
def Obligations.TestScrubAndWatchRows : Prop :=
  (∀ (r b : Nat) (s : State), regionInService s r = true → odv s 0x6200 7 ≠ 0 → nextTested s r = some b →
    (let due := (regionAt s r).lastTest + 100000 * odv s 0x6200 7
     (due ≤ refNow s → ∃ t, exec (.inServiceTest r) s = .next t ∧ t = { s with blocks := t.blocks, regions := t.regions }
        ∧ (blockAt t b).testing = true ∧ (∀ b', b' ≠ b → blockAt t b' = blockAt s b')
        ∧ (regionAt t r).lastTest = refNow s ∧ (regionAt t r).testNext = b % 40 + 1)
     ∧ (refNow s < due → exec (.inServiceTest r) s = .next s)))
  ∧ (∀ (b : Nat) (s : State), live s = true → s.boot.stage = 15 → (blockAt s b).testing = true → blockFree (blockAt s b) = true →
    (blockAt s b).gated = false → blockFrozen s b = false → fires 9 b s = none →
    (∃ t, exec (.blockTestDone b true) s = .next t ∧ t = { s with blocks := t.blocks } ∧ (blockAt t b).testing = false
      ∧ ∀ b', b' ≠ b → blockAt t b' = blockAt s b')
    ∧ (∃ t, exec (.blockTestDone b false) s = .next t ∧ (blockAt t b).testing = false ∧ blockFrozen t b = true
      ∧ ∃ x, tget [] t.rel.queues (1000 + b) = tget [] s.rel.queues (1000 + b) ++ [x] ∧ x.code = 9 ∧ x.unit = b ∧ x.severity = 3))
  ∧ (∀ (r single : Nat) (data lines : List Nat) (s : State), regionInService s r = true →
    (∀ code ∈ [0x10, 0x11, 0x12], fires code r s = none) →
    (let due := (regionAt s r).lastScrub + 100000 * odv s 0x6200 8
     (due ≤ refNow s → ∃ t, exec (.scrub r single data lines) s = .next t ∧ (regionAt t r).lastScrub = refNow s
        ∧ t.mem = s.mem ∧ t.sp = s.sp ∧ t.front = s.front
        ∧ (∀ l ∈ lines, (l < 2 ^ 46 → thas l (regionAt t r).lines = false)
            ∧ (2 ^ 46 ≤ l → l < 2 ^ 47 → thas (l - 2 ^ 46) (regionAt t r).leaves = false)
            ∧ (2 ^ 47 ≤ l → thas (l - 2 ^ 47) (regionAt t r).loam = false))
        ∧ (∀ b ∈ data, ∀ j, b / 40 = r → (blockAt s b).job = some j →
            (blockAt t b).job = some { j with hurt := j.hurt ||| (2 ^ 16 - 1) })
        ∧ (data = [] → lines = [] → (tget [] s.rel.queues (2000 + r)).length + single ≤ 16 →
            ∃ x : Report, x.code = 0x10 ∧ x.severity = 0 ∧ x.unit = r
              ∧ tget [] t.rel.queues (2000 + r) = tget [] s.rel.queues (2000 + r) ++ List.replicate single x))
     ∧ (refNow s < due → exec (.scrub r single data lines) s = .next s)))
  ∧ (∀ (level unit : Nat) (s : State), live s = true → s.power.trip = false → 1 ≤ level → level ≤ 3 →
    (let w := watchOf s level unit
     w.2.1 = true → fires w.1 unit s = none →
     (w.2.2.2 ≤ w.2.2.1 → ∃ t, exec (.mireWatchExpiry level unit) s = .next t
        ∧ odv t 0x6300 4 = (odv s 0x6300 4 + 1) % 2 ^ 32
        ∧ (level = 1 → (blockAt t unit).mire = 0 ∧ blockFrozen t unit = true)
        ∧ (level = 2 → (regionAt t unit).mire = 0 ∧ regionFrozen t unit = true)
        ∧ (level = 3 → t.rel.mire = 0 ∧ ∃ x ∈ tget [] t.rel.queues 3000, x.code = 0x22 ∧ x.severity = 3))
     ∧ (w.2.2.1 < w.2.2.2 → exec (.mireWatchExpiry level unit) s = .next s)))
  ∧ (∀ s : State, live s = true →
    (s.rel.windowOp + 360000000000 ≤ opRef s → exec .correctedWindow s = .next { s with
      rel := { s.rel with corrected := [], windowOp := s.rel.windowOp + 360000000000 } })
    ∧ (opRef s < s.rel.windowOp + 360000000000 → exec .correctedWindow s = .next s))

/-- A top-k reduction returns the k largest values in descending order, ties by ascending position, NaN below every
other value. Rests on 02_numbers_and_accumulation.md. -/
def Obligations.TopKOrder : Prop :=
  ∀ (k : Nat) (xs : List (Word × Nat)), 1 ≤ k → k ≤ 64 → (xs.map (·.2)).Nodup → (∀ x ∈ xs, x.2 < 2 ^ 32) →
    (let above := fun (a b : Word × Nat) =>
       match w32 a.1, w32 b.1 with
       | .nan _, .nan _ => a.2 < b.2
       | .nan _, _ => False
       | _, .nan _ => True
       | .inf n, .inf m => (n = false ∧ m = true) ∨ (n = m ∧ a.2 < b.2)
       | .inf n, .fin _ => n = false
       | .fin _, .inf m => m = true
       | .fin x, .fin y => fxLt y x = true ∨ (fxLt y x = false ∧ fxLt x y = false ∧ a.2 < b.2)
     ∃ l, topK k xs = l ++ List.replicate (k - l.length) (0xFF800000#32, 0xFFFFFFFF)
       ∧ l.length = min k xs.length ∧ (∀ x ∈ l, x ∈ xs) ∧ l.Pairwise above ∧ ∀ x ∈ xs, x ∉ l → ∀ y ∈ l, above y x)

/-- The invariant of the engine holds right after reset. Rests on 13_object_dictionary.md; 14_power_and_thermal.md;
16_boundary_and_startup.md. -/
def Obligations.EngineInvAtReset : Prop := EngineInv State.reset

/-- Every step, of whatever command or of the clock, keeps the invariant of the engine. Rests on
13_object_dictionary.md; 14_power_and_thermal.md; 16_boundary_and_startup.md; 10_memory_model.md. -/
def Obligations.EngineInvKept : Prop :=
  ∀ s t : State, EngineInv s → Sys2Proof.Machine.step s = .next t → EngineInv t
end

