-- ==== Sys2Proof/Laws/Tables.lean ====
section
/-! SUPPORT. Laws of the numbered tables and of memory in canonical form. -/

namespace Sys2Proof.Machine

/-! ### Tables -/

@[simp] theorem tget_tput_same {α : Type} (d : α) (t : List (Nat × α)) (n : Nat) (v : α) : tget d (tput n v t) n = v := by
  induction t with
  | nil => simp [tput, tget]
  | cons e r ih =>
    obtain ⟨k, w⟩ := e
    unfold tput
    split
    · simp [tget]
    · split
      · simp [tget]
      · rename_i h _
        simp [tget, Ne.symm h, ih]

theorem tget_tput_other {α : Type} (d : α) (t : List (Nat × α)) {n m : Nat} (v : α) (h : m ≠ n) :
    tget d (tput n v t) m = tget d t m := by
  induction t with
  | nil => simp [tput, tget, Ne.symm h]
  | cons e r ih =>
    obtain ⟨k, w⟩ := e
    unfold tput
    split
    · rename_i hk
      subst hk
      simp [tget, Ne.symm h]
    · split
      · simp [tget, Ne.symm h]
      · simp [tget, ih]

theorem tget_tput {α : Type} (d : α) (t : List (Nat × α)) (n m : Nat) (v : α) :
    tget d (tput n v t) m = if m = n then v else tget d t m := by
  split
  · rename_i h
    rw [h, tget_tput_same]
  · rename_i h
    exact tget_tput_other d t v h

@[simp] theorem tget_tdel_same {α : Type} (d : α) (t : List (Nat × α)) (n : Nat) : tget d (tdel n t) n = d := by
  induction t with
  | nil => rfl
  | cons e r ih =>
    obtain ⟨k, w⟩ := e
    by_cases h : k = n
    · simpa [tdel, h] using ih
    · simpa [tdel, h, tget] using ih

theorem tget_tdel_other {α : Type} (d : α) (t : List (Nat × α)) {n m : Nat} (h : m ≠ n) :
    tget d (tdel n t) m = tget d t m := by
  induction t with
  | nil => rfl
  | cons e r ih =>
    obtain ⟨k, w⟩ := e
    by_cases hk : k = n
    · have : k ≠ m := fun h' => h (h' ▸ hk)
      simpa [tdel, hk, tget, this, Ne.symm h] using ih
    · by_cases hm : k = m
      · subst hm
        simp [tdel, hk, tget]
      · simpa [tdel, hk, tget, hm] using ih

/-- The entry that `tput` lists is the one found under its number. -/
theorem find_tput_same {α : Type} (t : List (Nat × α)) (n : Nat) (v : α) :
    (tput n v t).find? (fun e => e.1 = n) = some (n, v) := by
  induction t with
  | nil => simp [tput]
  | cons e r ih =>
    obtain ⟨k, w⟩ := e
    unfold tput
    split
    · simp
    · split
      · simp
      · rename_i h _
        simp [Ne.symm h, ih]

theorem find_tput_other {α : Type} (t : List (Nat × α)) {n m : Nat} (v : α) (h : m ≠ n) :
    (tput n v t).find? (fun e => e.1 = m) = t.find? (fun e => e.1 = m) := by
  induction t with
  | nil => simp [tput, Ne.symm h]
  | cons e r ih =>
    obtain ⟨k, w⟩ := e
    unfold tput
    split
    · rename_i hk
      subst hk
      simp [Ne.symm h]
    · split
      · simp [Ne.symm h]
      · simp only [List.find?_cons]
        split
        · rfl
        · exact ih

/-! ### Memory -/

/-- What canonical form says: addresses strictly rise, and no byte is 0. -/
theorem Memory.wf_iff (m : Memory) :
    Memory.wf m = true ↔ m.Pairwise (fun x y => x.1 < y.1) ∧ ∀ e ∈ m, e.2 ≠ 0 := by
  induction m with
  | nil => simp [Memory.wf]
  | cons e r ih =>
    obtain ⟨a, b⟩ := e
    cases r with
    | nil => simp [Memory.wf]
    | cons e' r =>
      obtain ⟨a', b'⟩ := e'
      simp only [Memory.wf, Bool.and_eq_true, decide_eq_true_eq, bne_iff_ne, ih, List.pairwise_cons, List.mem_cons,
        forall_eq_or_imp]
      constructor
      · rintro ⟨⟨h1, h2⟩, ⟨h3, h4⟩, h5, h6⟩
        exact ⟨⟨⟨h1, fun x hx => Nat.lt_trans h1 (h3 x hx)⟩, h3, h4⟩, h2, h5, h6⟩
      · rintro ⟨⟨⟨h1, _⟩, h3, h4⟩, h2, h5, h6⟩
        exact ⟨⟨h1, h2⟩, ⟨h3, h4⟩, h5, h6⟩

theorem mem_tput {α : Type} {n : Nat} {v : α} {t : List (Nat × α)} {e : Nat × α} (h : e ∈ tput n v t) :
    e = (n, v) ∨ e ∈ t := by
  induction t with
  | nil => simpa [tput] using h
  | cons x r ih =>
    obtain ⟨k, w⟩ := x
    unfold tput at h
    split at h
    · simp only [List.mem_cons] at h ⊢
      tauto
    · split at h
      · simpa using h
      · simp only [List.mem_cons] at h ⊢
        rcases h with h | h
        · exact .inr (.inl h)
        · rcases ih h with h | h <;> tauto

theorem tput_rising {α : Type} {n : Nat} {v : α} {t : List (Nat × α)} (h : t.Pairwise fun x y => x.1 < y.1) :
    (tput n v t).Pairwise fun x y => x.1 < y.1 := by
  induction t with
  | nil => simp [tput]
  | cons x r ih =>
    obtain ⟨k, w⟩ := x
    obtain ⟨h1, h2⟩ := List.pairwise_cons.1 h
    unfold tput
    split
    · rename_i hn
      subst hn
      exact List.pairwise_cons.2 ⟨h1, h2⟩
    · split
      · rename_i hlt
        refine List.pairwise_cons.2 ⟨fun y hy => ?_, h⟩
        rcases List.mem_cons.1 hy with rfl | hy
        · exact hlt
        · exact Nat.lt_trans hlt (h1 y hy)
      · rename_i hne hlt
        refine List.pairwise_cons.2 ⟨fun y hy => ?_, ih h2⟩
        rcases mem_tput hy with rfl | hy
        · show k < n
          omega
        · exact h1 y hy

theorem memSet_wf {a : Nat} {b : Byte} {m : Memory} (h : Memory.wf m = true) : Memory.wf (memSet a b m) = true := by
  rw [Memory.wf_iff] at h ⊢
  unfold memSet
  split
  · exact ⟨h.1.filter _, fun e he => h.2 e (List.mem_filter.1 he).1⟩
  · rename_i hb
    refine ⟨tput_rising h.1, fun e he => ?_⟩
    rcases mem_tput he with rfl | he
    · exact hb
    · exact h.2 e he

theorem memWrite_wf {a : Nat} {bs : List Byte} {m : Memory} (h : Memory.wf m = true) :
    Memory.wf (memWrite a bs m) = true := by
  induction bs generalizing a m with
  | nil => exact h
  | cons b r ih => exact ih (memSet_wf h)

theorem filter_wf {m : Memory} (p : Host.Cell → Bool) (h : Memory.wf m = true) : Memory.wf (m.filter p) = true := by
  rw [Memory.wf_iff] at h ⊢
  exact ⟨h.1.filter _, fun e he => h.2 e (List.mem_filter.1 he).1⟩

theorem memGet_memSet (a x : Nat) (b : Byte) (m : Memory) : memGet (memSet a b m) x = if x = a then b else memGet m x := by
  unfold memGet memSet
  by_cases hb : b = 0
  · simp only [hb, if_true]
    split
    · rename_i h
      rw [h, tget_tdel_same]
    · rename_i h
      exact tget_tdel_other 0 m h
  · simp only [hb, if_false]
    exact tget_tput 0 m a x b

/-- A write stores its bytes at its own addresses and leaves every other byte alone. -/
theorem memGet_memWrite (a x : Nat) (bs : List Byte) (m : Memory) :
    memGet (memWrite a bs m) x = if a ≤ x ∧ x < a + bs.length then bs.getD (x - a) 0 else memGet m x := by
  induction bs generalizing a m with
  | nil =>
    have : ¬(a ≤ x ∧ x < a + ([] : List Byte).length) := by simp
    rw [if_neg this]
    rfl
  | cons b r ih =>
    rw [memWrite, ih, memGet_memSet]
    simp only [List.length_cons]
    by_cases h1 : x = a
    · subst h1
      rw [if_neg (by omega), if_pos rfl, if_pos (by omega), Nat.sub_self, List.getD_cons_zero]
    · by_cases h2 : a + 1 ≤ x ∧ x < a + 1 + r.length
      · have h3 : a ≤ x ∧ x < a + (r.length + 1) := by omega
        have h4 : x - a = (x - (a + 1)) + 1 := by omega
        rw [if_pos h2, if_pos h3, h4, List.getD_cons_succ]
      · have h3 : ¬(a ≤ x ∧ x < a + (r.length + 1)) := by omega
        rw [if_neg h2, if_neg h3, if_neg h1]

end Sys2Proof.Machine
end

