-- ==== Sys2Proof/Laws/Keeps.lean ====
section
/-! SUPPORT. What every operation keeps. `Within kb km kw kp kx z0 s` says that the state `s` meets the invariant of
Safety.lean and has the parts of `z0` whose switch is true: `kb` power-up state and clocks, `km` host memory and its
poison, `kw` the scratchpads and their poison, `kp` the page-table state, `kx` the security state. There is one lemma
`<name>_keeps` per operation and per command; a switch that the operation cannot keep is false in its lemma. -/

namespace Sys2Proof.Machine

structure PowerOk (c th co v r : Nat) : Prop where
  cap : c ≤ 15
  therm : th ≤ 15
  code : co ≤ 15
  vid : v ≤ 40
  ramp : r ≤ 7

theorem noSwitch {q : Prop} (h : false = true) : q := nomatch h

structure SameParts (kb km kw kp kx : Bool) (z0 : State) (bo : Boot) (cl : Clocks) (me : Memory) (mp : List Nat)
    (sp : Memory) (spp : List Nat) (pa : Paged) (se : Sec) : Prop where
  boot : kb = true → bo = z0.boot ∧ cl = z0.clocks
  mem : km = true → me = z0.mem ∧ mp = z0.memPoison
  pads : kw = true → sp = z0.sp ∧ spp = z0.spPoison
  paged : kp = true → pa = z0.paged
  sec : kx = true → se = z0.sec

structure WithinOk (kb km kw kp kx : Bool) (z0 : State) (bo : Boot) (cl : Clocks) (me : Memory) (mp : List Nat)
    (sp : Memory) (spp : List Nat) (pa : Paged) (se : Sec) (n cap therm code vid rampStep : Nat) : Prop where
  mem : Memory.wf me = true
  pads : Memory.wf sp = true
  st : n ≤ 4
  power : PowerOk cap therm code vid rampStep
  same : SameParts kb km kw kp kx z0 bo cl me mp sp spp pa se

def Within (kb km kw kp kx : Bool) (z0 s : State) : Prop :=
  WithinOk kb km kw kp kx z0 s.boot s.clocks s.mem s.memPoison s.sp s.spPoison s.paged s.sec s.mgmt.st s.power.cap s.power.therm
    s.power.code s.power.vid s.power.rampStep

theorem SameParts.offB {kb km kw kp kx z0 bo cl me mp sp spp pa se bo' cl'}
    (h : SameParts kb km kw kp kx z0 bo cl me mp sp spp pa se) : SameParts false km kw kp kx z0 bo' cl' me mp sp spp pa se :=
  ⟨noSwitch, h.2, h.3, h.4, h.5⟩

theorem SameParts.offM {kb km kw kp kx z0 bo cl me mp sp spp pa se me' mp'}
    (h : SameParts kb km kw kp kx z0 bo cl me mp sp spp pa se) : SameParts kb false kw kp kx z0 bo cl me' mp' sp spp pa se :=
  ⟨h.1, noSwitch, h.3, h.4, h.5⟩

theorem SameParts.offW {kb km kw kp kx z0 bo cl me mp sp spp pa se sp' spp'}
    (h : SameParts kb km kw kp kx z0 bo cl me mp sp spp pa se) : SameParts kb km false kp kx z0 bo cl me mp sp' spp' pa se :=
  ⟨h.1, h.2, noSwitch, h.4, h.5⟩

theorem SameParts.offP {kb km kw kp kx z0 bo cl me mp sp spp pa se pa'}
    (h : SameParts kb km kw kp kx z0 bo cl me mp sp spp pa se) : SameParts kb km kw false kx z0 bo cl me mp sp spp pa' se :=
  ⟨h.1, h.2, h.3, noSwitch, h.5⟩

theorem SameParts.offX {kb km kw kp kx z0 bo cl me mp sp spp pa se se'}
    (h : SameParts kb km kw kp kx z0 bo cl me mp sp spp pa se) : SameParts kb km kw kp false z0 bo cl me mp sp spp pa se' :=
  ⟨h.1, h.2, h.3, h.4, noSwitch⟩

theorem SameParts.off {z0 bo cl me mp sp spp pa se} : SameParts false false false false false z0 bo cl me mp sp spp pa se :=
  ⟨noSwitch, noSwitch, noSwitch, noSwitch, noSwitch⟩

variable {kb km kw kp kx : Bool} {z0 : State}

theorem within_mk {pe cl bo mg od f me mp sp spp po bl re fl lr rr pa li e2 ak np an gr pw rl se ma fr} :
    Within kb km kw kp kx z0 ⟨pe, cl, bo, mg, od, f, me, mp, sp, spp, po, bl, re, fl, lr, rr, pa, li, e2, ak, np, an, gr, pw, rl, se, ma, fr⟩
    = WithinOk kb km kw kp kx z0 bo cl me mp sp spp pa se mg.st pw.cap pw.therm pw.code pw.vid pw.rampStep := rfl

theorem within_of {s : State} (h : Within kb km kw kp kx z0 s) :
    WithinOk kb km kw kp kx z0 s.boot s.clocks s.mem s.memPoison s.sp s.spPoison s.paged s.sec s.mgmt.st s.power.cap s.power.therm
      s.power.code s.power.vid s.power.rampStep := h

theorem within_of_b {s : State} {bo : Boot} {cl : Clocks} (h : Within false km kw kp kx z0 s) :
    WithinOk false km kw kp kx z0 bo cl s.mem s.memPoison s.sp s.spPoison s.paged s.sec s.mgmt.st s.power.cap s.power.therm
      s.power.code s.power.vid s.power.rampStep := ⟨h.1, h.2, h.3, h.4, h.5.offB⟩

theorem within_of_m {s : State} {mp : List Nat} (h : Within kb false kw kp kx z0 s) :
    WithinOk kb false kw kp kx z0 s.boot s.clocks s.mem mp s.sp s.spPoison s.paged s.sec s.mgmt.st s.power.cap s.power.therm
      s.power.code s.power.vid s.power.rampStep := ⟨h.1, h.2, h.3, h.4, h.5.offM⟩

theorem within_of_w {s : State} {spp : List Nat} (h : Within kb km false kp kx z0 s) :
    WithinOk kb km false kp kx z0 s.boot s.clocks s.mem s.memPoison s.sp spp s.paged s.sec s.mgmt.st s.power.cap s.power.therm
      s.power.code s.power.vid s.power.rampStep := ⟨h.1, h.2, h.3, h.4, h.5.offW⟩

theorem within_of_p {s : State} {pa : Paged} (h : Within kb km kw false kx z0 s) :
    WithinOk kb km kw false kx z0 s.boot s.clocks s.mem s.memPoison s.sp s.spPoison pa s.sec s.mgmt.st s.power.cap s.power.therm
      s.power.code s.power.vid s.power.rampStep := ⟨h.1, h.2, h.3, h.4, h.5.offP⟩

theorem within_of_x {s : State} {se : Sec} (h : Within kb km kw kp false z0 s) :
    WithinOk kb km kw kp false z0 s.boot s.clocks s.mem s.memPoison s.sp s.spPoison s.paged se s.mgmt.st s.power.cap s.power.therm
      s.power.code s.power.vid s.power.rampStep := ⟨h.1, h.2, h.3, h.4, h.5.offX⟩

theorem within_of_bx {s : State} {bo : Boot} {cl : Clocks} {se : Sec} (h : Within false km kw kp false z0 s) :
    WithinOk false km kw kp false z0 bo cl s.mem s.memPoison s.sp s.spPoison s.paged se s.mgmt.st s.power.cap s.power.therm
      s.power.code s.power.vid s.power.rampStep := ⟨h.1, h.2, h.3, h.4, h.5.offB.offX⟩

/-- Every state that meets the invariant is within itself, for every choice of parts. -/
theorem EngineInv.within {s : State} (h : EngineInv s) : Within kb km kw kp kx s s :=
  ⟨h.mem, h.sp, h.st, ⟨h.cap, h.therm, h.code, h.vid, h.ramp⟩,
    ⟨fun _ => ⟨rfl, rfl⟩, fun _ => ⟨rfl, rfl⟩, fun _ => ⟨rfl, rfl⟩, fun _ => rfl, fun _ => rfl⟩⟩

theorem Within.inv {s : State} (h : Within kb km kw kp kx z0 s) : EngineInv s :=
  ⟨h.mem, h.pads, h.st, h.power.cap, h.power.therm, h.power.code, h.power.vid, h.power.ramp⟩

theorem within_ite {c : Prop} [Decidable c] {s t : State} (h1 : Within kb km kw kp kx z0 s) (h2 : Within kb km kw kp kx z0 t) :
    Within kb km kw kp kx z0 (if c then s else t) := by
  split <;> assumption

theorem foldl_holds {α β : Type} {f : α → β → α} {l : List β} {a : α} (P : α → Prop) (h : P a)
    (hf : ∀ t x, P t → P (f t x)) : P (l.foldl f a) := by
  induction l generalizing a with
  | nil => exact h
  | cons x r ih => exact ih (hf _ _ h)

theorem within_foldl {β : Type} {f : State → β → State} {l : List β} {s : State} (h : Within kb km kw kp kx z0 s)
    (hf : ∀ t y, Within kb km kw kp kx z0 t → Within kb km kw kp kx z0 (f t y)) : Within kb km kw kp kx z0 (l.foldl f s) :=
  foldl_holds (Within kb km kw kp kx z0) h hf

/-- What a command answers, when it answers a next state. -/
structure WithinO (kb km kw kp kx : Bool) (z0 : State) (o : Out) : Prop where
  next : ∀ t, o = .next t → Within kb km kw kp kx z0 t

theorem withinO_next {s : State} (h : Within kb km kw kp kx z0 s) : WithinO kb km kw kp kx z0 (.next s) := ⟨fun t e => by cases e; exact h⟩

theorem withinO_event {ok : Bool} {s t : State} (h : Within kb km kw kp kx z0 s) (h2 : Within kb km kw kp kx z0 t) :
    WithinO kb km kw kp kx z0 (event ok s t) := by
  refine ⟨fun u e => ?_⟩
  unfold event at e
  cases e
  split
  · exact h2
  · exact h

structure WithinM (kb km kw kp kx : Bool) (z0 : State) (o : Option State) : Prop where
  some : ∀ t, o = some t → Within kb km kw kp kx z0 t

theorem withinM_none : WithinM kb km kw kp kx z0 none := ⟨fun t e => by cases e⟩

theorem withinM_some {s : State} (h : Within kb km kw kp kx z0 s) : WithinM kb km kw kp kx z0 (some s) := ⟨fun t e => by cases e; exact h⟩

end Sys2Proof.Machine
end

