-- ==== Sys2Proof/Laws/KeepsBase.lean ====
section
/-! SUPPORT. What every operation keeps (see Keeps.lean): the tables, the dictionary, the front end, power and start-up. -/

namespace Sys2Proof.Machine

variable {kb km kw kp kx : Bool} {z0 : State}

theorem putBlock_keeps {b : Nat} {x : Block} {s : State} (h : Within kb km kw kp kx z0 s) :
    Within kb km kw kp kx z0 (putBlock b x s) := h

theorem modBlock_keeps {b : Nat} {f : Block → Block} {s : State} (h : Within kb km kw kp kx z0 s) :
    Within kb km kw kp kx z0 (modBlock b f s) := by
  unfold modBlock
  with_reducible repeat' first
      | intro _ | assumption | apply putBlock_keeps

theorem putRegion_keeps {r : Nat} {x : Region} {s : State} (h : Within kb km kw kp kx z0 s) :
    Within kb km kw kp kx z0 (putRegion r x s) := h

theorem modRegion_keeps {r : Nat} {f : Region → Region} {s : State} (h : Within kb km kw kp kx z0 s) :
    Within kb km kw kp kx z0 (modRegion r f s) := by
  unfold modRegion
  with_reducible repeat' first
      | intro _ | assumption | apply putRegion_keeps

theorem blockProgress_keeps {b : Nat} {s : State} (h : Within kb km kw kp kx z0 s) :
    Within kb km kw kp kx z0 (blockProgress b s) := by
  unfold blockProgress
  with_reducible repeat' first
      | intro _ | assumption | apply modBlock_keeps

theorem regionProgress_keeps {r : Nat} {s : State} (h : Within kb km kw kp kx z0 s) :
    Within kb km kw kp kx z0 (regionProgress r s) := by
  unfold regionProgress
  with_reducible repeat' first
      | intro _ | assumption | apply modRegion_keeps

theorem apexProgress_keeps {s : State} (h : Within kb km kw kp kx z0 s) :
    Within kb km kw kp kx z0 (apexProgress s) := h

theorem putMport_keeps {n : Nat} {x : MemPort} {s : State} (h : Within kb km kw kp kx z0 s) :
    Within kb km kw kp kx z0 (putMport n x s) := h

theorem putLink_keeps {p : Nat} {x : LinkPort} {s : State} (h : Within kb km kw kp kx z0 s) :
    Within kb km kw kp kx z0 (putLink p x s) := h

theorem modLink_keeps {p : Nat} {f : LinkPort → LinkPort} {s : State} (h : Within kb km kw kp kx z0 s) :
    Within kb km kw kp kx z0 (modLink p f s) := by
  unfold modLink
  with_reducible repeat' first
      | intro _ | assumption | apply putLink_keeps

theorem putFlag_keeps {i : Nat} {x : Flag} {s : State} (h : Within kb km kw kp kx z0 s) :
    Within kb km kw kp kx z0 (putFlag i x s) := h

theorem putGroup_keeps {g : Nat} {x : Group} {s : State} (h : Within kb km kw kp kx z0 s) :
    Within kb km kw kp kx z0 (putGroup g x s) := h

theorem drawn_keeps {s : State} (h : Within kb km kw kp kx z0 s) :
    Within kb km kw kp kx z0 (drawn s) := h

theorem enqueue_keeps {q : MemReq} {s : State} (h : Within kb km kw kp kx z0 s) :
    Within kb km kw kp kx z0 (enqueue q s) := by
  unfold enqueue
  with_reducible repeat' first
      | intro _ | assumption | apply putMport_keeps

theorem putCmd_keeps {c : Cmd} {s : State} (h : Within kb km kw kp kx z0 s) :
    Within kb km kw kp kx z0 (putCmd c s) := by
  unfold putCmd
  with_reducible repeat' first
      | intro _ | assumption | apply within_ite | dsimp only [within_mk] | apply within_of

theorem modCmd_keeps {uid : Nat} {f : Cmd → Cmd} {s : State} (h : Within kb km kw kp kx z0 s) :
    Within kb km kw kp kx z0 (modCmd uid f s) := by
  unfold modCmd
  with_reducible repeat' first
      | intro _ | assumption | apply within_ite | dsimp only [within_mk] | apply within_of

theorem present_keeps {q : MemReq} {s : State} (h : Within kb km kw kp kx z0 s) :
    Within kb km kw kp kx z0 (present q s) := by
  unfold present
  with_reducible repeat' first
      | intro _ | assumption | apply within_ite | apply modBlock_keeps | apply enqueue_keeps | dsimp only [within_mk]
      | apply within_of | split

theorem unstall_keeps {b : Nat} {s : State} (h : Within kb km kw kp kx z0 s) :
    Within kb km kw kp kx z0 (unstall b s) := by
  unfold unstall
  with_reducible repeat' first
      | intro _ | assumption | apply within_ite | apply within_foldl | apply enqueue_keeps | apply modBlock_keeps

theorem hostWriteAs_keeps {a : Nat} {bs : List Byte} {bad : Bool} {o : MemOwner} {prio : Bool} {s : State} (h : Within kb false kw kp kx z0 s) :
    Within kb false kw kp kx z0 (hostWriteAs a bs bad o prio s) := by
  have h1 : Within kb false kw kp kx z0 { s with
      mem := memWrite (addr52 a) bs s.mem, memPoison := poisonWrite (addr52 a) bs.length bad s.memPoison,
      regions := dropLines (addr52 a) bs.length s.regions } := ⟨memWrite_wf h.1, h.2, h.3, h.4, h.5.offM⟩
  unfold hostWriteAs
  dsimp only
  split
  · exact modCmd_keeps (within_foldl h1 fun t x ht => present_keeps ht)
  · exact within_foldl h1 fun t x ht => present_keeps ht

theorem hostWrite_keeps {a : Nat} {bs : List Byte} {bad : Bool} {o : MemOwner} {prio : Bool} {s : State} (h : Within kb false kw kp kx z0 s) :
    Within kb false kw kp kx z0 (hostWrite a bs bad o prio s) := by
  unfold hostWrite
  with_reducible repeat' first
      | intro _ | assumption | apply within_ite | apply hostWriteAs_keeps | apply drawn_keeps

theorem spWrite_keeps {b a : Nat} {bs : List Byte} {bad : Bool} {s : State} (h : Within kb km false kp kx z0 s) : Within kb km false kp kx z0 (spWrite b a bs bad s) := by
  cases bad <;> exact ⟨h.1, memWrite_wf h.2, h.3, h.4, h.5.offW⟩

theorem spoil_keeps {b : Option Nat} {a n : Nat} {s : State} (h : Within kb false false kp kx z0 s) : Within kb false false kp kx z0 (spoil b a n s) := by
  cases b
  · exact ⟨memWrite_wf h.1, h.2, h.3, h.4, h.5.offM⟩
  · exact ⟨h.1, memWrite_wf h.2, h.3, h.4, h.5.offW⟩

theorem spClear_keeps {b : Nat} {s : State} (h : Within kb km false kp kx z0 s) : Within kb km false kp kx z0 (spClear b s) := ⟨h.1, filter_wf _ h.2, h.3, h.4, h.5.offW⟩

theorem odPut_keeps {idx sub v : Nat} {s : State} (h : Within kb km kw kp kx z0 s) :
    Within kb km kw kp kx z0 (odPut idx sub v s) := h

theorem odBump_keeps {idx sub n : Nat} {s : State} (h : Within kb km kw kp kx z0 s) :
    Within kb km kw kp kx z0 (odBump idx sub n s) := by
  unfold odBump
  with_reducible repeat' first
      | intro _ | assumption | apply odPut_keeps

theorem trace_keeps {kind cls unit payload : Nat} {s : State} (h : Within kb false kw kp kx z0 s) :
    Within kb false kw kp kx z0 (trace kind cls unit payload s) := by
  unfold trace
  with_reducible repeat' first
      | intro _ | assumption | apply within_ite | apply hostWrite_keeps | apply odBump_keeps

theorem reportAs_keeps {k level dep code unit cell action : Nat} {addr : Nat} {tag : Option Nat} {inj : Bool} {s : State} (h : Within kb km kw kp kx z0 s) :
    Within kb km kw kp kx z0 (reportAs k level dep code unit cell action addr tag inj s) := by
  unfold reportAs
  with_reducible repeat' first
      | intro _ | assumption | apply within_ite | apply odBump_keeps | dsimp only [within_mk] | apply within_of

theorem report_keeps {code unit cell action : Nat} {addr : Nat} {tag : Option Nat} {inj : Bool} {s : State} (h : Within kb km kw kp kx z0 s) :
    Within kb km kw kp kx z0 (report code unit cell action addr tag inj s) := by
  unfold report
  with_reducible repeat' first
      | intro _ | assumption | apply reportAs_keeps

theorem disarm_keeps {code unit : Nat} {s : State} (h : Within kb km kw kp kx z0 s) :
    Within kb km kw kp kx z0 (disarm code unit s) := by
  unfold disarm
  with_reducible repeat' first
      | intro _ | assumption | apply odBump_keeps | dsimp only [within_mk] | apply within_of

theorem setSt_keeps {n : Nat} {s : State} (h : Within kb km kw kp kx z0 s) (hn : n ≤ 4) : Within kb km kw kp kx z0 (setSt n s) := by
  unfold setSt
  split
  · exact h
  · exact odBump_keeps ⟨h.1, h.2, hn, h.4, h.5⟩

theorem noteTables_keeps {a n : Nat} {s : State} (h : Within kb km kw kp kx z0 s) :
    Within kb km kw kp kx z0 (noteTables a n s) := by
  unfold noteTables
  with_reducible repeat' first
      | intro _ | assumption | apply within_ite | apply within_foldl | dsimp only [within_mk] | apply within_of

theorem renewTable_keeps {idx sub : Nat} {s : State} (h : Within kb km kw kp kx z0 s) :
    Within kb km kw kp kx z0 (renewTable idx sub s) := by
  unfold renewTable
  with_reducible repeat' first
      | intro _ | assumption | apply within_ite | dsimp only [within_mk] | apply within_of

theorem event_keeps {ok : Bool} {s t : State} (h : Within kb km kw kp kx z0 s) (h1 : Within kb km kw kp kx z0 t) :
    WithinO kb km kw kp kx z0 (event ok s t) := by
  unfold event
  with_reducible repeat' first
      | intro _ | assumption | apply within_ite | apply withinO_next | apply withinO_event | dsimp only [within_mk]
      | apply within_of

theorem topUp_keeps {s : State} (h : Within kb km kw kp kx z0 s) :
    Within kb km kw kp kx z0 (topUp s) := by
  unfold topUp
  with_reducible repeat' first
      | intro _ | assumption | apply within_ite | dsimp only [within_mk] | apply within_of

theorem refuse_keeps {d : Descriptor} {status : Nat} {inj : Bool} {s : State} (h : Within kb km kw kp kx z0 s) :
    Within kb km kw kp kx z0 (refuse d status inj s) := by
  unfold refuse
  with_reducible repeat' first
      | intro _ | assumption | apply within_ite | apply odBump_keeps | apply report_keeps | apply topUp_keeps
      | dsimp only [within_mk] | apply within_of

theorem accept_keeps {d : Descriptor} {s : State} (h : Within kb false kw kp kx z0 s) :
    Within kb false kw kp kx z0 (accept d s) := by
  unfold accept
  with_reducible repeat' first
      | intro _ | assumption | apply within_ite | apply within_foldl | apply enqueue_keeps | apply trace_keeps
      | apply topUp_keeps | dsimp only [within_mk] | apply within_of

theorem ingressError_keeps {s : State} (h : Within kb km kw kp kx z0 s) :
    Within kb km kw kp kx z0 (ingressError s) := by
  unfold ingressError
  with_reducible repeat' first
      | intro _ | assumption | apply report_keeps

theorem submit_keeps {d : Descriptor} {s : State} (h : Within kb false kw kp kx z0 s) :
    Within kb false kw kp kx z0 (submit d s) := by
  unfold submit
  with_reducible repeat' first
      | intro _ | assumption | apply within_ite | apply ingressError_keeps | apply disarm_keeps | apply refuse_keeps
      | apply accept_keeps | dsimp only [within_mk] | apply within_of

theorem purge_keeps {uid : Nat} {s : State} (h : Within kb km kw kp kx z0 s) :
    Within kb km kw kp kx z0 (purge uid s) := h

theorem releaseArrivals_keeps {c : Cmd} {s : State} (h : Within kb km kw kp kx z0 s) :
    Within kb km kw kp kx z0 (releaseArrivals c s) := by
  unfold releaseArrivals
  with_reducible repeat' first
      | intro _ | assumption | apply within_ite | dsimp only [within_mk] | apply within_of

theorem endCmd_keeps {uid status detail : Nat} {s : State} (h : Within kb km kw kp kx z0 s) :
    Within kb km kw kp kx z0 (endCmd uid status detail s) := by
  unfold endCmd
  with_reducible repeat' first
      | intro _ | assumption | apply within_ite | apply purge_keeps | apply releaseArrivals_keeps | apply putCmd_keeps
      | dsimp only [within_mk] | apply within_of | split

theorem flagCmd_keeps {uid i : Nat} {s : State} (h : Within kb km kw kp kx z0 s) :
    Within kb km kw kp kx z0 (flagCmd uid i s) := by
  unfold flagCmd
  with_reducible repeat' first
      | intro _ | assumption | apply modCmd_keeps

theorem sendRecord_keeps {s : State} (h : Within kb km kw kp kx z0 s) :
    Within kb km kw kp kx z0 (sendRecord s) := by
  unfold sendRecord
  with_reducible repeat' first
      | intro _ | assumption | apply topUp_keeps | dsimp only [within_mk] | apply within_of | split

theorem execIngressProtocolError_keeps {s : State} (h : Within kb km kw kp kx z0 s) :
    WithinO kb km kw kp kx z0 (execIngressProtocolError s) := by
  unfold execIngressProtocolError
  with_reducible repeat' first
      | intro _ | assumption | apply withinO_next | apply withinO_event | apply event_keeps | apply ingressError_keeps

theorem argBlockDone_keeps {c : Cmd} {s : State} (h : Within kb km kw kp kx z0 s) :
    Within kb km kw kp kx z0 (argBlockDone c s) := by
  unfold argBlockDone
  with_reducible repeat' first
      | intro _ | assumption | apply within_ite | apply disarm_keeps | apply putCmd_keeps | apply report_keeps

theorem execArgBlockReadDone_keeps {tag : Nat} {s : State} (h : Within kb km kw kp kx z0 s) :
    WithinO kb km kw kp kx z0 (execArgBlockReadDone tag s) := by
  unfold execArgBlockReadDone
  with_reducible repeat' first
      | intro _ | assumption | apply withinO_next | apply withinO_event | apply event_keeps | apply argBlockDone_keeps
      | dsimp only [within_mk] | apply within_of | split

theorem execCompletionRecordSend_keeps {s : State} (h : Within kb km kw kp kx z0 s) :
    WithinO kb km kw kp kx z0 (execCompletionRecordSend s) := by
  unfold execCompletionRecordSend
  with_reducible repeat' first
      | intro _ | assumption | apply withinO_next | apply withinO_event | apply event_keeps | apply apexProgress_keeps
      | apply sendRecord_keeps

theorem execCplCredit_keeps {s : State} (h : Within kb km kw kp kx z0 s) :
    WithinO kb km kw kp kx z0 (execCplCredit s) := by
  unfold execCplCredit
  with_reducible repeat' first
      | intro _ | assumption | apply withinO_next | apply withinO_event | apply event_keeps | dsimp only [within_mk]
      | apply within_of

theorem stagedNow_keeps {uid : Nat} {s : State} (h : Within kb km kw kp kx z0 s) :
    Within kb km kw kp kx z0 (stagedNow uid s) := by
  unfold stagedNow
  with_reducible repeat' first
      | intro _ | assumption | apply within_ite | apply modCmd_keeps

theorem ungate_keeps {s : State} (h : Within kb km kw kp kx z0 s) :
    Within kb km kw kp kx z0 (ungate s) := by
  unfold ungate
  with_reducible repeat' first
      | intro _ | assumption | apply within_ite | dsimp only [within_mk] | apply within_of

theorem wake_keeps {always : Bool} {s : State} (h : Within kb false kw kp kx z0 s) : Within kb false kw kp kx z0 (wake always s) := by
  unfold wake
  dsimp only
  split
  · refine trace_keeps (within_foldl (odBump_keeps ⟨h.1, h.2, h.3, ⟨h.4.1, h.4.2, h.4.3, h.4.4, Nat.zero_le _⟩, h.5⟩) fun t x ht => ?_)
    split
    · exact ht
    · exact modBlock_keeps ht
  · exact h

theorem afterStep_keeps {old : Nat} {s : State} (h : Within kb false kw kp kx z0 s) :
    Within kb false kw kp kx z0 (afterStep old s) := by
  unfold afterStep
  with_reducible repeat' first
      | intro _ | assumption | apply within_ite | apply odBump_keeps | apply trace_keeps | apply wake_keeps
      | apply ungate_keeps

theorem execDroopTrip_keeps {b : Nat} {s : State} (h : Within kb km kw kp kx z0 s) :
    WithinO kb km kw kp kx z0 (execDroopTrip b s) := by
  unfold execDroopTrip
  with_reducible repeat' first
      | intro _ | assumption | apply withinO_next | apply withinO_event | apply event_keeps | apply odBump_keeps
      | apply modBlock_keeps

theorem execStretchEnd_keeps {b : Nat} {s : State} (h : Within kb km kw kp kx z0 s) :
    WithinO kb km kw kp kx z0 (execStretchEnd b s) := by
  unfold execStretchEnd
  with_reducible repeat' first
      | intro _ | assumption | apply withinO_next | apply withinO_event | apply event_keeps | apply modBlock_keeps

theorem powerLoop_keeps {est amps5 : Nat} {s : State} (h : Within kb km kw kp kx z0 s) : Within kb km kw kp kx z0 (powerLoop est amps5 s) := by
  have hc := h.4.cap
  unfold powerLoop
  dsimp only
  repeat' split
  all_goals refine ⟨h.1, h.2, h.3, ⟨?_, h.4.2, h.4.3, h.4.4, h.4.5⟩, h.5⟩
  all_goals dsimp only; omega

theorem execPowerLoopEval_keeps {est amps5 : Nat} {s : State} (h : Within kb false kw kp kx z0 s) :
    WithinO kb false kw kp kx z0 (execPowerLoopEval est amps5 s) := by
  unfold execPowerLoopEval
  with_reducible repeat' first
      | intro _ | assumption | apply withinO_next | apply withinO_event | apply event_keeps | apply afterStep_keeps
      | apply powerLoop_keeps

theorem execBlockGated_keeps {b : Nat} {s : State} (h : Within kb km kw kp kx z0 s) :
    WithinO kb km kw kp kx z0 (execBlockGated b s) := by
  unfold execBlockGated
  with_reducible repeat' first
      | intro _ | assumption | apply withinO_next | apply withinO_event | apply event_keeps | apply modBlock_keeps

theorem thermalStep_keeps {temp : Int} {s : State} (h : Within kb km kw kp kx z0 s) : Within kb km kw kp kx z0 (thermalStep temp s) := by
  have hc := h.4.therm
  unfold thermalStep
  dsimp only
  repeat' split
  all_goals refine ⟨h.1, h.2, h.3, ⟨h.4.1, ?_, h.4.3, h.4.4, h.4.5⟩, h.5⟩
  all_goals dsimp only; omega

theorem execThermalEval_keeps {temp : Int} {s : State} (h : Within kb false kw kp kx z0 s) :
    WithinO kb false kw kp kx z0 (execThermalEval temp s) := by
  unfold execThermalEval
  with_reducible repeat' first
      | intro _ | assumption | apply withinO_next | apply withinO_event | apply event_keeps | apply afterStep_keeps
      | apply thermalStep_keeps

theorem thermalTrip_keeps {temp : Int} {s : State} (h : Within kb km kw kp kx z0 s) :
    Within kb km kw kp kx z0 (thermalTrip temp s) := by
  unfold thermalTrip
  with_reducible repeat' first
      | intro _ | assumption | apply within_foldl | apply modBlock_keeps | apply report_keeps | dsimp only [within_mk]
      | apply within_of

theorem execThermalTrip_keeps {temp : Int} {s : State} (h : Within kb km kw kp kx z0 s) :
    WithinO kb km kw kp kx z0 (execThermalTrip temp s) := by
  unfold execThermalTrip
  with_reducible repeat' first
      | intro _ | assumption | apply withinO_next | apply withinO_event | apply event_keeps | apply thermalTrip_keeps

theorem thermalTripEnd_keeps {temp : Int} {s : State} (h : Within kb false kw kp kx z0 s) : Within kb false kw kp kx z0 (thermalTripEnd temp s) :=
  wake_keeps (afterStep_keeps ⟨h.1, h.2, h.3, ⟨h.4.1, Nat.le_refl _, h.4.3, h.4.4, h.4.5⟩, h.5⟩)

theorem execThermalTripEnd_keeps {temp : Int} {s : State} (h : Within kb false kw kp kx z0 s) :
    WithinO kb false kw kp kx z0 (execThermalTripEnd temp s) := by
  unfold execThermalTripEnd
  with_reducible repeat' first
      | intro _ | assumption | apply withinO_next | apply withinO_event | apply event_keeps | apply thermalTripEnd_keeps

theorem execMarlCapRequest_keeps {code : BitVec 4} {s : State} (h : Within kb km kw kp kx z0 s) : WithinO kb km kw kp kx z0 (execMarlCapRequest code s) := by
  have hc : code.toNat ≤ 15 := Nat.le_of_lt_succ code.isLt
  refine withinO_event h ⟨h.1, h.2, h.3, ⟨h.4.1, h.4.2, ?_, h.4.4, h.4.5⟩, h.5⟩
  have h2 (n : Nat) : (if n ≥ 2 then code.toNat else s.power.code) ≤ 15 := by
    split
    · exact hc
    · exact h.4.code
  exact h2 _

theorem avsRequest_keeps {s : State} (h : Within kb km kw kp kx z0 s) : Within kb km kw kp kx z0 (avsRequest s) := by
  unfold avsRequest
  dsimp only
  split
  · exact h
  · exact ⟨h.1, h.2, h.3, ⟨h.4.1, h.4.2, h.4.3, Nat.min_le_right _ _, h.4.5⟩, h.5⟩

theorem setTrim_keeps {t : Nat} {s : State} (h : Within kb km kw kp kx z0 s) :
    Within kb km kw kp kx z0 (setTrim t s) := by
  unfold setTrim
  with_reducible repeat' first
      | intro _ | assumption | apply avsRequest_keeps | dsimp only [within_mk] | apply within_of

theorem execTrimPeriodEnd_keeps {slack : Nat} {s : State} (h : Within kb km kw kp kx z0 s) :
    WithinO kb km kw kp kx z0 (execTrimPeriodEnd slack s) := by
  unfold execTrimPeriodEnd
  with_reducible repeat' first
      | intro _ | assumption | apply within_ite | apply withinO_next | apply withinO_event | apply event_keeps
      | apply odBump_keeps | apply setTrim_keeps | dsimp only [within_mk] | apply within_of

theorem execMarginFloorReport_keeps {region slack : Nat} {s : State} (h : Within kb km kw kp kx z0 s) :
    WithinO kb km kw kp kx z0 (execMarginFloorReport region slack s) := by
  unfold execMarginFloorReport
  with_reducible repeat' first
      | intro _ | assumption | apply withinO_next | apply withinO_event | apply event_keeps | apply report_keeps
      | apply setTrim_keeps | dsimp only [within_mk] | apply within_of

theorem execTrimCheckEnd_keeps {slack : Nat} {s : State} (h : Within kb km kw kp kx z0 s) :
    WithinO kb km kw kp kx z0 (execTrimCheckEnd slack s) := by
  unfold execTrimCheckEnd
  with_reducible repeat' first
      | intro _ | assumption | apply within_ite | apply withinO_next | apply withinO_event | apply event_keeps
      | apply report_keeps | apply setTrim_keeps | dsimp only [within_mk] | apply within_of

theorem execRampAdmissionStep_keeps {s : State} (h : Within kb km kw kp kx z0 s) : WithinO kb km kw kp kx z0 (execRampAdmissionStep s) := by
  refine ⟨fun t e => ?_⟩
  unfold execRampAdmissionStep event at e
  cases e
  split
  · rename_i hk
    simp only [Bool.and_eq_true, decide_eq_true_eq] at hk
    exact ⟨h.1, h.2, h.3, ⟨h.4.1, h.4.2, h.4.3, h.4.4, hk.1.2⟩, h.5⟩
  · exact h

theorem execRampClose_keeps {s : State} (h : Within kb km kw kp kx z0 s) : WithinO kb km kw kp kx z0 (execRampClose s) :=
  withinO_event h ⟨h.1, h.2, h.3, ⟨h.4.1, h.4.2, h.4.3, h.4.4, Nat.zero_le _⟩, h.5⟩

theorem execFallingRampStep_keeps {b : Nat} {s : State} (h : Within kb km kw kp kx z0 s) :
    WithinO kb km kw kp kx z0 (execFallingRampStep b s) := by
  unfold execFallingRampStep
  with_reducible repeat' first
      | intro _ | assumption | apply withinO_next | apply withinO_event | apply event_keeps | apply modBlock_keeps

theorem startFall_keeps {b : Nat} {s : State} (h : Within kb km kw kp kx z0 s) :
    Within kb km kw kp kx z0 (startFall b s) := by
  unfold startFall
  with_reducible repeat' first
      | intro _ | assumption | apply modBlock_keeps

theorem execPreRampStep_keeps {s : State} (h : Within kb km kw kp kx z0 s) :
    WithinO kb km kw kp kx z0 (execPreRampStep s) := by
  unfold execPreRampStep
  with_reducible repeat' first
      | intro _ | assumption | apply within_ite | apply within_foldl | apply withinO_next | apply withinO_event
      | apply event_keeps | dsimp only [within_mk] | apply within_of | split

theorem execPreRampExpiry_keeps {b : Nat} {s : State} (h : Within kb km kw kp kx z0 s) :
    WithinO kb km kw kp kx z0 (execPreRampExpiry b s) := by
  unfold execPreRampExpiry
  with_reducible repeat' first
      | intro _ | assumption | apply withinO_next | apply withinO_event | apply event_keeps | apply startFall_keeps

theorem recordHint_keeps {d : Descriptor} {s : State} (h : Within kb km kw kp kx z0 s) :
    Within kb km kw kp kx z0 (recordHint d s) := by
  unfold recordHint
  with_reducible repeat' first
      | intro _ | assumption | apply within_ite | dsimp only [within_mk] | apply within_of

theorem lostState_keeps {s : State} (h : Within false false false false false z0 s) : Within false false false false false z0 (lostState s) :=
  ⟨h.1, rfl, Nat.zero_le _, ⟨Nat.zero_le _, Nat.zero_le _, Nat.zero_le _, h.4.4, Nat.zero_le _⟩, .off⟩

theorem execResetNFall_keeps {s : State} (h : Within false false false false false z0 s) :
    WithinO false false false false false z0 (execResetNFall s) := by
  unfold execResetNFall
  with_reducible repeat' first
      | intro _ | assumption | apply withinO_next | apply withinO_event | apply event_keeps | apply lostState_keeps
      | dsimp only [within_mk] | apply within_of | apply within_of_b

theorem execPwrGoodFall_keeps {s : State} (h : Within false false false false false z0 s) :
    WithinO false false false false false z0 (execPwrGoodFall s) := by
  unfold execPwrGoodFall
  with_reducible repeat' first
      | intro _ | assumption | apply withinO_next | apply withinO_event | apply event_keeps | apply lostState_keeps
      | dsimp only [within_mk] | apply within_of | apply within_of_b

theorem execPwrGoodRise_keeps {s : State} (h : Within false false false false false z0 s) : WithinO false false false false false z0 (execPwrGoodRise s) :=
  withinO_event h ⟨h.1, rfl, Nat.zero_le _, ⟨Nat.zero_le _, Nat.zero_le _, Nat.zero_le _, Nat.le_of_ble_eq_true rfl, Nat.zero_le _⟩, .off⟩

theorem execResetNRise_keeps {s : State} (h : Within false km kw kp false z0 s) :
    WithinO false km kw kp false z0 (execResetNRise s) := by
  unfold execResetNRise
  with_reducible repeat' first
      | intro _ | assumption | apply withinO_next | apply withinO_event | apply event_keeps | apply drawn_keeps
      | dsimp only [within_mk] | apply within_of | apply within_of_b | apply within_of_x | apply within_of_bx

theorem enterFault_keeps {s : State} (h : Within kb km kw kp kx z0 s) :
    Within kb km kw kp kx z0 (enterFault s) := by
  unfold enterFault
  with_reducible repeat' first
      | intro _ | assumption | apply within_foldl | apply endCmd_keeps | apply setSt_keeps | exact Nat.le_of_ble_eq_true rfl
      | dsimp only [within_mk] | apply within_of

theorem bootFail_keeps {code : Nat} {s : State} (h : Within false km kw kp kx z0 s) :
    Within false km kw kp kx z0 (bootFail code s) := by
  unfold bootFail
  with_reducible repeat' first
      | intro _ | assumption | apply enterFault_keeps | dsimp only [within_mk] | apply within_of | apply within_of_b

theorem startImage_keeps {s : State} (h : Within false km kw kp kx z0 s) :
    Within false km kw kp kx z0 (startImage s) := by
  unfold startImage
  with_reducible repeat' first
      | intro _ | assumption | apply within_ite | dsimp only [within_mk] | apply within_of | apply within_of_b

theorem startVoltage_keeps {s : State} (h : Within false km kw kp kx z0 s) :
    Within false km kw kp kx z0 (startVoltage s) := by
  unfold startVoltage
  with_reducible repeat' first
      | intro _ | assumption | apply within_ite | apply startImage_keeps | apply avsRequest_keeps

theorem bootAdvance_keeps {s : State} (h : Within false km kw kp kx z0 s) :
    Within false km kw kp kx z0 (bootAdvance s) := by
  unfold bootAdvance
  with_reducible repeat' first
      | intro _ | assumption | apply within_ite | apply bootFail_keeps | apply present_keeps | apply startVoltage_keeps
      | dsimp only [within_mk] | apply within_of | apply within_of_b

theorem execStrapSample_keeps {levels : BitVec 24} {s : State} (h : Within false km kw kp kx z0 s) :
    WithinO false km kw kp kx z0 (execStrapSample levels s) := by
  unfold execStrapSample
  with_reducible repeat' first
      | intro _ | assumption | apply withinO_next | apply withinO_event | apply event_keeps | dsimp only [within_mk]
      | apply within_of | apply within_of_b

theorem execStaticBootCodeStart_keeps {s : State} (h : Within false km kw kp kx z0 s) :
    WithinO false km kw kp kx z0 (execStaticBootCodeStart s) := by
  unfold execStaticBootCodeStart
  with_reducible repeat' first
      | intro _ | assumption | apply withinO_next | apply withinO_event | apply event_keeps | dsimp only [within_mk]
      | apply within_of | apply within_of_b

theorem execPllLock_keeps {s : State} (h : Within false km kw kp kx z0 s) :
    WithinO false km kw kp kx z0 (execPllLock s) := by
  unfold execPllLock
  with_reducible repeat' first
      | intro _ | assumption | apply withinO_next | apply withinO_event | apply event_keeps | apply bootAdvance_keeps
      | dsimp only [within_mk] | apply within_of | apply within_of_b

theorem execPllLockTimeout_keeps {s : State} (h : Within false km kw kp kx z0 s) :
    WithinO false km kw kp kx z0 (execPllLockTimeout s) := by
  unfold execPllLockTimeout
  with_reducible repeat' first
      | intro _ | assumption | apply withinO_next | apply withinO_event | apply event_keeps | apply setSt_keeps
      | exact Nat.le_of_ble_eq_true rfl | dsimp only [within_mk] | apply within_of | apply within_of_b

theorem loadFuses_keeps {f : FuseValues} {s : State} (h : Within false km kw kp false z0 s) :
    Within false km kw kp false z0 (loadFuses f s) := by
  unfold loadFuses
  with_reducible repeat' first
      | intro _ | assumption | apply within_ite | dsimp only [within_mk] | apply within_of | apply within_of_b
      | apply within_of_x | apply within_of_bx

theorem execFuseLoadDone_keeps {f : FuseValues} {s : State} (h : Within false km kw kp false z0 s) :
    WithinO false km kw kp false z0 (execFuseLoadDone f s) := by
  unfold execFuseLoadDone
  with_reducible repeat' first
      | intro _ | assumption | apply withinO_next | apply withinO_event | apply event_keeps | apply bootAdvance_keeps
      | apply loadFuses_keeps

theorem avsAck_keeps {s : State} (h : Within false km kw kp kx z0 s) :
    Within false km kw kp kx z0 (avsAck s) := by
  unfold avsAck
  with_reducible repeat' first
      | intro _ | assumption | apply within_ite | apply startVoltage_keeps | apply avsRequest_keeps | dsimp only [within_mk]
      | apply within_of

theorem execAvsAck_keeps {s : State} (h : Within false km kw kp kx z0 s) :
    WithinO false km kw kp kx z0 (execAvsAck s) := by
  unfold execAvsAck
  with_reducible repeat' first
      | intro _ | assumption | apply withinO_next | apply withinO_event | apply event_keeps | apply avsAck_keeps

theorem execAvsTimeout_keeps {s : State} (h : Within false km kw kp kx z0 s) :
    WithinO false km kw kp kx z0 (execAvsTimeout s) := by
  unfold execAvsTimeout
  with_reducible repeat' first
      | intro _ | assumption | apply within_ite | apply withinO_next | apply withinO_event | apply odBump_keeps
      | apply event_keeps | apply bootFail_keeps | dsimp only [within_mk] | apply within_of

theorem firmwareDone_keeps {readFailed : Bool} {s : State} (h : Within false km kw kp false z0 s) :
    Within false km kw kp false z0 (firmwareDone readFailed s) := by
  unfold firmwareDone
  with_reducible repeat' first
      | intro _ | assumption | apply within_ite | apply bootFail_keeps | dsimp only [within_mk] | apply within_of
      | apply within_of_b | apply within_of_x | apply within_of_bx | split

theorem execFirmwareVerifyDone_keeps {readFailed : Bool} {s : State} (h : Within false km kw kp false z0 s) :
    WithinO false km kw kp false z0 (execFirmwareVerifyDone readFailed s) := by
  unfold execFirmwareVerifyDone
  with_reducible repeat' first
      | intro _ | assumption | apply withinO_next | apply withinO_event | apply event_keeps | apply firmwareDone_keeps

theorem selfTestGate_keeps {k : Nat} {s : State} (h : Within kb km kw kp kx z0 s) :
    Within kb km kw kp kx z0 (selfTestGate k s) := by
  unfold selfTestGate
  with_reducible repeat' first
      | intro _ | assumption | apply within_ite | apply within_foldl | apply modBlock_keeps

theorem execControlCoresStarted_keeps {s : State} (h : Within false km kw kp kx z0 s) :
    WithinO false km kw kp kx z0 (execControlCoresStarted s) := by
  unfold execControlCoresStarted
  with_reducible repeat' first
      | intro _ | assumption | apply withinO_next | apply withinO_event | apply event_keeps | apply selfTestGate_keeps
      | dsimp only [within_mk] | apply within_of | apply within_of_b

theorem retireBlock_keeps {b dep : Nat} {s : State} (h : Within kb km kw kp kx z0 s) :
    Within kb km kw kp kx z0 (retireBlock b dep s) := by
  unfold retireBlock
  with_reducible repeat' first
      | intro _ | assumption | apply reportAs_keeps | apply modBlock_keeps

theorem enterPreop_keeps {s : State} (h : Within false km kw kp kx z0 s) :
    Within false km kw kp kx z0 (enterPreop s) := by
  unfold enterPreop
  with_reducible repeat' first
      | intro _ | assumption | apply setSt_keeps | exact Nat.le_of_ble_eq_true rfl | dsimp only [within_mk] | apply within_of
      | apply within_of_b

theorem batchDone_keeps {failed : List Nat} {s : State} (h : Within false km false kp kx z0 s) : Within false km false kp kx z0 (batchDone failed s) := by
  have h1 : Within false km false kp kx z0 ((presentBlocks s).foldl (fun s b =>
    if b % 40 / 4 = s.boot.batch ∧ (failed.contains b ∨ (fires 9 b s).isSome) then
      let s := if (fires 9 b s).isSome then disarm 9 b s else s
      retireBlock b 0 s
    else s) s) := by
    refine within_foldl h fun t x ht => ?_
    split
    · exact retireBlock_keeps (within_ite (disarm_keeps ht) ht)
    · exact ht
  unfold batchDone
  dsimp only at h1 ⊢
  generalize List.foldl _ s _ = t at h1 ⊢
  split
  · exact within_foldl (s := { t with boot := { t.boot with batch := t.boot.batch + 1 } }) ⟨h1.1, h1.2, h1.3, h1.4, h1.5.offB⟩
      fun u x hu => within_ite hu (modBlock_keeps hu)
  · split
    · exact bootFail_keeps h1
    · have h2 := within_foldl (l := presentBlocks t) (f := fun s b =>
        if (blockAt s b).retired then s else modBlock b (fun x => { x with gated := marked (stepInForce s) b, testing := false }) s) h1
        fun u x hu => within_ite hu (modBlock_keeps hu)
      exact enterPreop_keeps ⟨h2.1, rfl, h2.3, h2.4, h2.5.offW⟩

theorem execSelfTestBatchDone_keeps {failed : List Nat} {s : State} (h : Within false km false kp kx z0 s) :
    WithinO false km false kp kx z0 (execSelfTestBatchDone failed s) := by
  unfold execSelfTestBatchDone
  with_reducible repeat' first
      | intro _ | assumption | apply withinO_next | apply withinO_event | apply event_keeps | apply batchDone_keeps

theorem execPllLockLoss_keeps {s : State} (h : Within false km kw kp kx z0 s) :
    WithinO false km kw kp kx z0 (execPllLockLoss s) := by
  unfold execPllLockLoss
  with_reducible repeat' first
      | intro _ | assumption | apply withinO_next | apply withinO_event | apply event_keeps | dsimp only [within_mk]
      | apply within_of | apply within_of_b

theorem execMarlFrame_keeps {s : State} (h : Within kb km kw kp kx z0 s) :
    WithinO kb km kw kp kx z0 (execMarlFrame s) := by
  unfold execMarlFrame
  with_reducible repeat' first
      | intro _ | assumption | apply withinO_next | apply withinO_event | apply event_keeps | apply drawn_keeps
      | dsimp only [within_mk] | apply within_of

theorem execIdcode_keeps {s : State} (h : Within kb km kw kp false z0 s) :
    WithinO kb km kw kp false z0 (execIdcode s) := by
  unfold execIdcode
  with_reducible repeat' first
      | intro _ | assumption | apply withinO_next | apply withinO_event | apply event_keeps | dsimp only [within_mk]
      | apply within_of | apply within_of_x

theorem execBypass_keeps {s : State} (h : Within kb km kw kp false z0 s) :
    WithinO kb km kw kp false z0 (execBypass s) := by
  unfold execBypass
  with_reducible repeat' first
      | intro _ | assumption | apply withinO_next | apply withinO_event | apply event_keeps | dsimp only [within_mk]
      | apply within_of | apply within_of_x

theorem execExtest_keeps {s : State} (h : Within kb km kw kp false z0 s) :
    WithinO kb km kw kp false z0 (execExtest s) := by
  unfold execExtest
  with_reducible repeat' first
      | intro _ | assumption | apply within_ite | apply withinO_next | apply withinO_event | apply event_keeps
      | dsimp only [within_mk] | apply within_of | apply within_of_x

theorem execIeee1687InstrumentAccess_keeps {s : State} (h : Within kb km kw kp false z0 s) :
    WithinO kb km kw kp false z0 (execIeee1687InstrumentAccess s) := by
  unfold execIeee1687InstrumentAccess
  with_reducible repeat' first
      | intro _ | assumption | apply within_ite | apply withinO_next | apply withinO_event | apply event_keeps
      | dsimp only [within_mk] | apply within_of | apply within_of_x

end Sys2Proof.Machine
end

