-- ==== Sys2Proof/Laws/KeepsCompute.lean ====
section
/-! SUPPORT. What every operation keeps (see Keeps.lean): the computing commands, the flags, clocks and blocks. -/

namespace Sys2Proof.Machine

variable {kb km kw kp kx : Bool} {z0 : State}

theorem pushTx_keeps {p : Nat} {fs : List TxFlit} {s : State} (h : Within kb km kw kp kx z0 s) :
    Within kb km kw kp kx z0 (pushTx p fs s) := by
  unfold pushTx
  with_reducible repeat' first
      | intro _ | assumption | apply modLink_keeps

theorem pushAck_keeps {dst pktId kind : Nat} {s : State} (h : Within kb km kw kp kx z0 s) :
    Within kb km kw kp kx z0 (pushAck dst pktId kind s) := h

theorem awaitAck_keeps {uid port : Nat} {s : State} (h : Within kb km kw kp kx z0 s) :
    Within kb km kw kp kx z0 (awaitAck uid port s) := by
  unfold awaitAck
  with_reducible repeat' first
      | intro _ | assumption | apply within_ite | apply modCmd_keeps | dsimp only [within_mk] | apply within_of

theorem sendLocal_keeps {uid dst : Nat} {mk : Nat → Nat → List TxFlit} {s : State} (h : Within kb km kw kp kx z0 s) :
    Within kb km kw kp kx z0 (sendLocal uid dst mk s) := by
  unfold sendLocal
  with_reducible repeat' first
      | intro _ | assumption | apply within_ite | apply endCmd_keeps | apply awaitAck_keeps | apply pushTx_keeps
      | dsimp only [within_mk] | apply within_of | split

theorem sendSmall_keeps {uid tag dst addr : Nat} {bs : List Byte} {bad : Bool} {s : State} (h : Within kb km kw kp kx z0 s) :
    Within kb km kw kp kx z0 (sendSmall uid tag dst addr bs bad s) := by
  unfold sendSmall
  with_reducible repeat' first
      | intro _ | assumption | apply sendLocal_keeps

theorem sendRelease_keeps {uid tag dst slot scope : Nat} {add : Bool} {val : Nat} {s : State} (h : Within kb km kw kp kx z0 s) :
    Within kb km kw kp kx z0 (sendRelease uid tag dst slot scope add val s) := by
  unfold sendRelease
  with_reducible repeat' first
      | intro _ | assumption | apply sendLocal_keeps

theorem sendPacket_keeps {uid tag kind dst addr : Nat} {bs : List Byte} {bad : Bool} {s : State} (h : Within kb km kw kp kx z0 s) :
    Within kb km kw kp kx z0 (sendPacket uid tag kind dst addr bs bad s) := by
  unfold sendPacket
  with_reducible repeat' first
      | intro _ | assumption | apply sendLocal_keeps

theorem sendBytes_keeps {uid tag dst addr : Nat} {bs : List Byte} {bad : Nat → Nat → Bool} {s : State} (h : Within kb km kw kp kx z0 s) :
    Within kb km kw kp kx z0 (sendBytes uid tag dst addr bs bad s) := by
  unfold sendBytes
  with_reducible repeat' first
      | intro _ | assumption | apply within_foldl | apply sendPacket_keeps

theorem freeBuffer_keeps {p idx : Nat} {s : State} (h : Within kb km kw kp kx z0 s) :
    Within kb km kw kp kx z0 (freeBuffer p idx s) := by
  unfold freeBuffer
  with_reducible repeat' first
      | intro _ | assumption | apply modLink_keeps

theorem abortArrival_keeps {p : Nat} {k : Nat} {s : State} (h : Within kb false false kp kx z0 s) :
    Within kb false false kp kx z0 (abortArrival p k s) := by
  unfold abortArrival
  with_reducible repeat' first
      | intro _ | assumption | apply within_ite | apply modLink_keeps | apply spoil_keeps | apply modBlock_keeps
      | dsimp only [within_mk] | apply within_of | split

theorem landTile_keeps {x : RxPacket} {bs : List Byte} {s : State} (h : Within kb km false kp kx z0 s) :
    Within kb km false kp kx z0 (landTile x bs s) := by
  unfold landTile
  with_reducible repeat' first
      | intro _ | assumption | apply within_ite | apply spWrite_keeps | apply modBlock_keeps

theorem landFlit_keeps {p : Nat} {x : TxFlit} {s : State} (h : Within kb false false kp kx z0 s) :
    WithinM kb false false kp kx z0 (landFlit p x s) := by
  unfold landFlit
  with_reducible repeat' first
      | intro _ | assumption | apply within_ite | apply withinM_none | apply withinM_some | apply present_keeps
      | apply landTile_keeps | apply modBlock_keeps | apply modLink_keeps | apply abortArrival_keeps | dsimp only [within_mk]
      | apply within_of | split
theorem landFlit_keeps_eq {p : Nat} {x : TxFlit} {s : State} {t : State} (e : landFlit p x s = some t) (h : Within kb false false kp kx z0 s) :
    Within kb false false kp kx z0 t := (landFlit_keeps (p := p) (x := x) (s := s) h).some _ e

theorem drainHold_keeps {p : Nat} {s : State} (h : Within kb false false kp kx z0 s) : Within kb false false kp kx z0 (drainHold p s) := by
  unfold drainHold
  refine modLink_keeps (foldl_holds (fun a : State × List TxFlit × List Nat => Within kb false false kp kx z0 a.1) h fun a x ha => ?_)
  dsimp only
  split
  · exact ha
  · split
    · rename_i t e
      have ht : Within kb false false kp kx z0 t := landFlit_keeps_eq e ha
      dsimp only
      split
      · exact freeBuffer_keeps ht
      · exact ht
    · exact ha

theorem drainHolds_keeps {s : State} (h : Within kb false false kp kx z0 s) :
    Within kb false false kp kx z0 (drainHolds s) := by
  unfold drainHolds
  with_reducible repeat' first
      | intro _ | assumption | apply within_foldl | apply drainHold_keeps

theorem scramble_keeps {b a n : Nat} {s : State} (h : Within kb km false kp kx z0 s) :
    Within kb km false kp kx z0 (scramble b a n s) := by
  unfold scramble
  with_reducible repeat' first
      | intro _ | assumption | apply drawn_keeps | apply spWrite_keeps

theorem countPoison_keeps {uid : Nat} {ks : List Nat} {s : State} (h : Within kb km kw kp kx z0 s) :
    Within kb km kw kp kx z0 (countPoison uid ks s) := by
  unfold countPoison
  with_reducible repeat' first
      | intro _ | assumption | apply within_ite | apply within_foldl | apply modCmd_keeps

theorem writeBad_keeps {uid blk a : Nat} {bs : List Byte} {bad : Nat → Nat → Bool} {prio : Bool} {s : State} (h : Within kb false kw kp kx z0 s) :
    Within kb false kw kp kx z0 (writeBad uid blk a bs bad prio s) := by
  unfold writeBad
  with_reducible repeat' first
      | intro _ | assumption | apply within_foldl | apply hostWrite_keeps | apply noteTables_keeps

theorem writeMarked_keeps {uid blk a : Nat} {bs : List Byte} {bad : Nat → Nat → Bool} {prio : Bool} {s : State} (h : Within kb false kw kp kx z0 s) :
    Within kb false kw kp kx z0 (writeMarked uid blk a bs bad prio s) := by
  unfold writeMarked
  with_reducible repeat' first
      | intro _ | assumption | apply countPoison_keeps | apply writeBad_keeps

theorem failGroup_keeps {g : Nat} {s : State} (h : Within kb km kw kp kx z0 s) :
    Within kb km kw kp kx z0 (failGroup g s) := by
  unfold failGroup
  with_reducible repeat' first
      | intro _ | assumption | apply within_ite | apply within_foldl | apply putGroup_keeps | apply endCmd_keeps

theorem signalFailure_keeps {g : Nat} {s : State} (h : Within kb km kw kp kx z0 s) :
    Within kb km kw kp kx z0 (signalFailure g s) := by
  unfold signalFailure
  with_reducible repeat' first
      | intro _ | assumption | apply within_foldl | apply sendRelease_keeps

theorem sendRows_keeps {c : Cmd} {g : Group} {j src srcRow base dstRow rows : Nat} {s : State} (h : Within kb false kw kp kx z0 s) :
    Within kb false kw kp kx z0 (sendRows c g j src srcRow base dstRow rows s) := by
  unfold sendRows
  with_reducible repeat' first
      | intro _ | assumption | apply within_ite | apply within_foldl | apply writeMarked_keeps | apply countPoison_keeps
      | apply sendBytes_keeps | apply drawn_keeps

theorem gotOwn_keeps {uid j n : Nat} {s : State} (h : Within kb km kw kp kx z0 s) :
    Within kb km kw kp kx z0 (gotOwn uid j n s) := by
  unfold gotOwn
  with_reducible repeat' first
      | intro _ | assumption | apply modCmd_keeps

theorem sendArrival_keeps {c : Cmd} {g : Group} {j srcRow dst rows : Nat} {s : State} (h : Within kb false false kp kx z0 s) :
    Within kb false false kp kx z0 (sendArrival c g j srcRow dst rows s) := by
  unfold sendArrival
  with_reducible repeat' first
      | intro _ | assumption | apply within_ite | apply drawn_keeps | apply countPoison_keeps | apply drainHold_keeps
      | apply modLink_keeps | apply sendPacket_keeps

theorem sendData_keeps {c : Cmd} {s : State} (h : Within kb false kw kp kx z0 s) :
    Within kb false kw kp kx z0 (sendData c s) := by
  unfold sendData
  with_reducible repeat' first
      | intro _ | assumption | apply within_ite | apply within_foldl | apply modCmd_keeps | apply sendRows_keeps
      | apply gotOwn_keeps | dsimp only [within_mk] | apply within_of | split

theorem startRound_keeps {c : Cmd} {second : Bool} {word : Option (Nat × (Nat → Nat))} {s : State} (h : Within kb km kw kp kx z0 s) :
    Within kb km kw kp kx z0 (startRound c second word s) := by
  unfold startRound
  with_reducible repeat' first
      | intro _ | assumption | apply within_ite | apply within_foldl | apply putGroup_keeps | apply sendSmall_keeps
      | apply sendRelease_keeps | dsimp only [within_mk] | apply within_of | split

theorem roundOver_keeps {c : Cmd} {second counts : Bool} {s : State} (h : Within kb false kw kp kx z0 s) :
    Within kb false kw kp kx z0 (roundOver c second counts s) := by
  unfold roundOver
  with_reducible repeat' first
      | intro _ | assumption | apply within_ite | apply wake_keeps | apply putGroup_keeps

theorem writeCounts_keeps {c : Cmd} {s : State} (h : Within kb false kw kp kx z0 s) :
    Within kb false kw kp kx z0 (writeCounts c s) := by
  unfold writeCounts
  with_reducible repeat' first
      | intro _ | assumption | apply within_ite | apply hostWrite_keeps | dsimp only [within_mk] | apply within_of | split

theorem secondRound_keeps {c : Cmd} {s : State} (h : Within kb false kw kp kx z0 s) :
    Within kb false kw kp kx z0 (secondRound c s) := by
  unfold secondRound
  with_reducible repeat' first
      | intro _ | assumption | apply within_ite | apply modCmd_keeps | apply writeCounts_keeps | apply startRound_keeps
      | dsimp only [within_mk] | apply within_of | split

theorem stagePhase_keeps {c : Cmd} {s : State} (h : Within kb false false kp kx z0 s) : Within kb false false kp kx z0 (stagePhase c s) := by
  unfold stagePhase
  dsimp only
  generalize hq : (List.foldl _ (s, 0) _ : State × Nat) = q
  have h1 : Within kb false false kp kx z0 q.1 := by
    rw [← hq]
    exact foldl_holds (fun a : State × Nat => Within kb false false kp kx z0 a.1) h fun a x ha => writeBad_keeps (drawn_keeps ha)
  split
  · exact modCmd_keeps (within_foldl h1 fun t x ht => within_ite (sendArrival_keeps ht) ht)
  · exact startRound_keeps (hostWrite_keeps (modCmd_keeps (within_foldl h1 fun t x ht => within_ite (sendArrival_keeps ht) ht)))

theorem examineRound_keeps {gi : Nat} {s : State} (h : Within kb false false kp kx z0 s) :
    Within kb false false kp kx z0 (examineRound gi s) := by
  unfold examineRound
  with_reducible repeat' first
      | intro _ | assumption | apply within_ite | apply roundOver_keeps | apply secondRound_keeps | apply stagePhase_keeps
      | apply sendData_keeps | apply modCmd_keeps | apply failGroup_keeps | dsimp only [within_mk] | apply within_of | split

theorem examine_keeps {gi : Nat} {s : State} (h : Within kb false false kp kx z0 s) :
    Within kb false false kp kx z0 (examine gi s) := by
  unfold examine
  with_reducible repeat' first
      | intro _ | assumption | apply examineRound_keeps

theorem startColl_keeps {c : Cmd} {s : State} (h : Within kb false false kp kx z0 s) :
    Within kb false false kp kx z0 (startColl c s) := by
  unfold startColl
  with_reducible repeat' first
      | intro _ | assumption | apply within_ite | apply putGroup_keeps | apply endCmd_keeps | apply flagCmd_keeps
      | apply modCmd_keeps | apply examine_keeps | apply startRound_keeps

theorem collReceive_keeps {src a n : Nat} {s : State} (h : Within kb km kw kp kx z0 s) :
    Within kb km kw kp kx z0 (collReceive src a n s) := by
  unfold collReceive
  with_reducible repeat' first
      | intro _ | assumption | apply within_ite | apply modCmd_keeps | apply failGroup_keeps | dsimp only [within_mk]
      | apply within_of | split

theorem slotWrite_keeps {uid b : Nat} {x : ArgSlot} {off : Nat} {bs : List Byte} {bad : Bool} {s : State} (h : Within kb false false kp kx z0 s) :
    Within kb false false kp kx z0 (slotWrite uid b x off bs bad s) := by
  unfold slotWrite
  with_reducible repeat' first
      | intro _ | assumption | apply within_ite | apply spWrite_keeps | apply hostWrite_keeps | apply noteTables_keeps

theorem slotUnits_keeps {uid b : Nat} {x : ArgSlot} {off : Nat} {bs : List Byte} {bad : Bool} {s : State} (h : Within kb false false kp kx z0 s) :
    Within kb false false kp kx z0 (slotUnits uid b x off bs bad s) := by
  unfold slotUnits
  with_reducible repeat' first
      | intro _ | assumption | apply within_ite | apply countPoison_keeps | apply spWrite_keeps | apply writeMarked_keeps

theorem markSat_keeps {uid : Nat} {sat : Bool} {s : State} (h : Within kb km kw kp kx z0 s) :
    Within kb km kw kp kx z0 (markSat uid sat s) := by
  unfold markSat
  with_reducible repeat' first
      | intro _ | assumption | apply within_ite | apply flagCmd_keeps

theorem gemmPrologue_keeps {b : Nat} {c : Cmd} {item : Nat} {s : State} (h : Within kb km false kp kx z0 s) :
    Within kb km false kp kx z0 (gemmPrologue b c item s).2 := by
  unfold gemmPrologue
  with_reducible repeat' first
      | intro _ | assumption | apply markSat_keeps | apply scramble_keeps
theorem gemmPrologue_keeps_eq {b : Nat} {c : Cmd} {item : Nat} {s : State} {a0} {t : State} (e : gemmPrologue b c item s = (a0, t)) (h : Within kb km false kp kx z0 s) :
    Within kb km false kp kx z0 t := by
  have h' := gemmPrologue_keeps (b := b) (c := c) (item := item) (s := s) h
  rw [e] at h'
  exact h'

theorem gemmTile_keeps {b : Nat} {c : Cmd} {im p r0 c0 : Nat} {res : EpRes} {t : Nat × Nat × Nat × Nat} {bad : Bool} {s : State} (h : Within kb false false kp kx z0 s) :
    Within kb false false kp kx z0 (gemmTile b c im p r0 c0 res t bad s) := by
  unfold gemmTile
  with_reducible repeat' first
      | intro _ | assumption | apply within_ite | apply within_foldl | apply slotWrite_keeps

theorem gemmWrite_keeps {b : Nat} {c : Cmd} {im p r0 c0 : Nat} {res : EpRes} {bad : Nat → Nat → Bool} {s : State} (h : Within kb false false kp kx z0 s) :
    Within kb false false kp kx z0 (gemmWrite b c im p r0 c0 res bad s) := by
  unfold gemmWrite
  with_reducible repeat' first
      | intro _ | assumption | apply within_ite | apply within_foldl | apply gemmTile_keeps | apply slotUnits_keeps

theorem writeStats_keeps {b : Nat} {c : Cmd} {p r0 : Nat} {st : List (Nat × Nat)} {bad : Bool} {s : State} (h : Within kb false false kp kx z0 s) :
    Within kb false false kp kx z0 (writeStats b c p r0 st bad s) := by
  unfold writeStats
  with_reducible repeat' first
      | intro _ | assumption | apply within_foldl | apply slotUnits_keeps

theorem bandStats_keeps {b : Nat} {c : Cmd} {n i p r0 : Nat} {st : List (Nat × Nat)} {bad : Bool} {s : State} (h : Within kb false false kp kx z0 s) :
    Within kb false false kp kx z0 (bandStats b c n i p r0 st bad s) := by
  unfold bandStats
  with_reducible repeat' first
      | intro _ | assumption | apply within_ite | apply within_foldl | apply writeStats_keeps | apply modCmd_keeps
      | apply markSat_keeps | dsimp only [within_mk] | apply within_of | split

theorem holdBand_keeps {b : Nat} {c : Cmd} {p r0 : Nat} {m : Mat} {s : State} (h : Within kb false false kp kx z0 s) :
    Within kb false false kp kx z0 (holdBand b c p r0 m s) := by
  unfold holdBand
  with_reducible repeat' first
      | intro _ | assumption | apply within_ite | apply hostWrite_keeps | apply spWrite_keeps

theorem finishPart_keeps {b : Nat} {c : Cmd} {im n : Nat} {ts : List Nat} {held : List (Nat × TileV)} {s : State} (h : Within kb false false kp kx z0 s) :
    Within kb false false kp kx z0 (finishPart b c im n ts held s) := by
  unfold finishPart
  with_reducible repeat' first
      | intro _ | assumption | apply within_ite | apply within_foldl | apply markSat_keeps | apply holdBand_keeps
      | apply gemmWrite_keeps | apply bandStats_keeps | apply countPoison_keeps

theorem markLong_keeps {c : Cmd} {a : Acc} {s : State} (h : Within kb km kw kp kx z0 s) :
    Within kb km kw kp kx z0 (markLong c a s) := by
  unfold markLong
  with_reducible repeat' first
      | intro _ | assumption | apply within_ite | apply flagCmd_keeps

theorem psumPut_keeps {b uid item group np : Nat} {t : TileV} {s : State} (h : Within kb km kw kp kx z0 s) :
    Within kb km kw kp kx z0 (psumPut b uid item group np t s) := by
  unfold psumPut
  with_reducible repeat' first
      | intro _ | assumption | apply modRegion_keeps

theorem freePsum_keeps {b uid item : Nat} {s : State} (h : Within kb km kw kp kx z0 s) :
    Within kb km kw kp kx z0 (freePsum b uid item s) := by
  unfold freePsum
  with_reducible repeat' first
      | intro _ | assumption | apply modRegion_keeps

theorem putP_keeps {b : Nat} {x : PBuf} {s : State} (h : Within kb km kw kp kx z0 s) :
    Within kb km kw kp kx z0 (putP b x s) := by
  unfold putP
  with_reducible repeat' first
      | intro _ | assumption | apply modBlock_keeps

theorem chainRow_keeps {b : Nat} {c : Cmd} {x : Epi} {s : State} (h : Within kb km kw kp kx z0 s) :
    Within kb km kw kp kx z0 (chainRow b c x s) := by
  unfold chainRow
  with_reducible repeat' first
      | intro _ | assumption | apply within_ite | apply within_foldl | apply modBlock_keeps | apply markSat_keeps
      | apply putP_keeps | dsimp only [within_mk] | apply within_of | split

theorem chainOut_keeps {b : Nat} {c : Cmd} {x : Epi} {s : State} (h : Within kb false false kp kx z0 s) :
    Within kb false false kp kx z0 (chainOut b c x s) := by
  unfold chainOut
  with_reducible repeat' first
      | intro _ | assumption | apply within_ite | apply within_foldl | apply markSat_keeps | apply slotWrite_keeps
      | apply countPoison_keeps

theorem itemDone_keeps {uid : Nat} {ids : List Nat} {s : State} (h : Within kb km kw kp kx z0 s) :
    Within kb km kw kp kx z0 (itemDone uid ids s) := by
  unfold itemDone
  with_reducible repeat' first
      | intro _ | assumption | apply within_foldl | apply modCmd_keeps

theorem gemmEpi_keeps {b : Nat} {c : Cmd} {x : Epi} {s : State} (h : Within kb false false kp kx z0 s) :
    Within kb false false kp kx z0 (gemmEpi b c x s) := by
  unfold gemmEpi
  with_reducible repeat' first
      | intro _ | assumption | apply within_ite | apply within_foldl | apply markLong_keeps | apply chainRow_keeps
      | apply chainOut_keeps | apply freePsum_keeps | apply itemDone_keeps | apply modCmd_keeps | apply finishPart_keeps

theorem biasLoad_keeps {b : Nat} {c : Cmd} {head : Nat} {s : State} (h : Within kb km kw kp kx z0 s) :
    Within kb km kw kp kx z0 (biasLoad b c head s) := by
  unfold biasLoad
  with_reducible repeat' first
      | intro _ | assumption | apply within_ite | apply modBlock_keeps

theorem rerun_keeps {b : Nat} {c : Cmd} {j : Job} {r : Nat} {s : State} (h : Within kb km kw kp kx z0 s) :
    Within kb km kw kp kx z0 (rerun b c j r s) := by
  unfold rerun
  with_reducible repeat' first
      | intro _ | assumption | apply within_ite | apply within_foldl | apply markSat_keeps | apply markLong_keeps
      | apply modBlock_keeps | apply modRegion_keeps | apply odBump_keeps | apply flagCmd_keeps | apply modCmd_keeps

theorem softmaxTile_keeps {b : Nat} {c : Cmd} {x : Epi} {s : State} (h : Within kb km kw kp kx z0 s) :
    Within kb km kw kp kx z0 (softmaxTile b c x s) := by
  unfold softmaxTile
  with_reducible repeat' first
      | intro _ | assumption | apply within_ite | apply within_foldl | apply markSat_keeps | apply rerun_keeps
      | apply modBlock_keeps | apply odBump_keeps | apply putP_keeps | dsimp only [within_mk] | apply within_of | split

theorem writeHeads_keeps {b : Nat} {c : Cmd} {x : ArgSlot} {heads : Nat} {row head : Nat → Nat} {c0 : Nat} {res : EpRes} {bad : Nat → Bool} {s : State} (h : Within kb false false kp kx z0 s) :
    Within kb false false kp kx z0 (writeHeads b c x heads row head c0 res bad s) := by
  unfold writeHeads
  with_reducible repeat' first
      | intro _ | assumption | apply within_ite | apply within_foldl | apply slotWrite_keeps

theorem writeRows_keeps {b : Nat} {c : Cmd} {rs : RowSet} {outs : List (List (Sat Val) × Sat Val)} {bad : Nat → Bool} {tiled : Bool} {item r : Nat} {s : State} (h : Within kb false false kp kx z0 s) :
    Within kb false false kp kx z0 (writeRows b c rs outs bad tiled item r s) := by
  unfold writeRows
  with_reducible repeat' first
      | intro _ | assumption | apply within_ite | apply within_foldl | apply markSat_keeps | apply writeHeads_keeps
      | apply countPoison_keeps | apply slotUnits_keeps

theorem writeParts_keeps {b : Nat} {c : Cmd} {rs : RowSet} {ps : List Part} {bad : Bool} {s : State} (h : Within kb false false kp kx z0 s) :
    Within kb false false kp kx z0 (writeParts b c rs ps bad s) := by
  unfold writeParts
  with_reducible repeat' first
      | intro _ | assumption | apply within_foldl | apply slotUnits_keeps

theorem putTriple_keeps {b uid item : Nat} {t : TileV} {s : State} (h : Within kb km kw kp kx z0 s) :
    Within kb km kw kp kx z0 (putTriple b uid item t s) := by
  unfold putTriple
  with_reducible repeat' first
      | intro _ | assumption | apply modRegion_keeps

theorem freeTriples_keeps {uid : Nat} {ids : List Nat} {s : State} (h : Within kb km kw kp kx z0 s) :
    Within kb km kw kp kx z0 (freeTriples uid ids s) := h

theorem fwdEnd_keeps {b : Nat} {c : Cmd} {j : Job} {r : Nat} {ts : List TileV} {s : State} (h : Within kb false false kp kx z0 s) :
    Within kb false false kp kx z0 (fwdEnd b c j r ts s) := by
  unfold fwdEnd
  with_reducible repeat' first
      | intro _ | assumption | apply within_ite | apply within_foldl | apply markSat_keeps | apply slotUnits_keeps
      | apply itemDone_keeps | apply writeRows_keeps | apply putTriple_keeps | apply freeTriples_keeps
      | apply writeParts_keeps

theorem fwdBare_keeps {b : Nat} {c : Cmd} {j : Job} {s : State} (h : Within kb false false kp kx z0 s) :
    Within kb false false kp kx z0 (fwdBare b c j s) := by
  unfold fwdBare
  with_reducible repeat' first
      | intro _ | assumption | apply within_ite | apply within_foldl | apply fwdEnd_keeps

theorem endPsum_keeps {b : Nat} {c : Cmd} {item : Nat} {s : State} (h : Within kb km kw kp kx z0 s) :
    Within kb km kw kp kx z0 (endPsum b c item s) := by
  unfold endPsum
  with_reducible repeat' first
      | intro _ | assumption | apply within_ite | apply freePsum_keeps

theorem fwdGroup_keeps {b : Nat} {c : Cmd} {x : Epi} {s : State} (h : Within kb false false kp kx z0 s) :
    Within kb false false kp kx z0 (fwdGroup b c x s) := by
  unfold fwdGroup
  with_reducible repeat' first
      | intro _ | assumption | apply within_ite | apply markLong_keeps | apply markSat_keeps | apply modBlock_keeps
      | apply fwdEnd_keeps | apply fwdBare_keeps | apply endPsum_keeps | dsimp only [within_mk] | apply within_of | split

theorem fwdEmpty_keeps {b : Nat} {c : Cmd} {j : Job} {s : State} (h : Within kb false false kp kx z0 s) :
    Within kb false false kp kx z0 (fwdEmpty b c j s) := by
  unfold fwdEmpty
  with_reducible repeat' first
      | intro _ | assumption | apply modBlock_keeps | apply fwdBare_keeps

theorem attnPrologue_keeps {b : Nat} {c : Cmd} {rss : List RowSet} {s : State} (h : Within kb km false kp kx z0 s) :
    Within kb km false kp kx z0 (attnPrologue b c rss s).2 := by
  unfold attnPrologue
  with_reducible repeat' first
      | intro _ | assumption | apply within_ite | apply markSat_keeps | apply scramble_keeps
theorem attnPrologue_keeps_eq {b : Nat} {c : Cmd} {rss : List RowSet} {s : State} {a0} {t : State} (e : attnPrologue b c rss s = (a0, t)) (h : Within kb km false kp kx z0 s) :
    Within kb km false kp kx z0 t := by
  have h' := attnPrologue_keeps (b := b) (c := c) (rss := rss) (s := s) h
  rw [e] at h'
  exact h'

theorem bwdTile_keeps {b : Nat} {c : Cmd} {x : Epi} {s : State} (h : Within kb km kw kp kx z0 s) :
    Within kb km kw kp kx z0 (bwdTile b c x s) := by
  unfold bwdTile
  with_reducible repeat' first
      | intro _ | assumption | apply within_ite | apply markSat_keeps | apply putP_keeps | apply modBlock_keeps
      | dsimp only [within_mk] | apply within_of | split

theorem bwdD_keeps {b : Nat} {c : Cmd} {item : Nat} {s : State} (h : Within kb false false kp kx z0 s) :
    Within kb false false kp kx z0 (bwdD b c item s) := by
  unfold bwdD
  with_reducible repeat' first
      | intro _ | assumption | apply within_foldl | apply slotUnits_keeps | apply itemDone_keeps | apply markSat_keeps

theorem bwdWrite_keeps {b : Nat} {c : Cmd} {x : Epi} {s : State} (h : Within kb false false kp kx z0 s) :
    Within kb false false kp kx z0 (bwdWrite b c x s) := by
  unfold bwdWrite
  with_reducible repeat' first
      | intro _ | assumption | apply within_ite | apply markLong_keeps | apply markSat_keeps | apply writeHeads_keeps
      | apply countPoison_keeps

theorem bwdBare_keeps {b : Nat} {c : Cmd} {item : Nat} {s : State} (h : Within kb false false kp kx z0 s) :
    Within kb false false kp kx z0 (bwdBare b c item s) := by
  unfold bwdBare
  with_reducible repeat' first
      | intro _ | assumption | apply within_ite | apply within_foldl | apply bwdWrite_keeps

theorem bwdOut_keeps {b : Nat} {c : Cmd} {x : Epi} {s : State} (h : Within kb false false kp kx z0 s) :
    Within kb false false kp kx z0 (bwdOut b c x s) := by
  unfold bwdOut
  with_reducible repeat' first
      | intro _ | assumption | apply within_ite | apply bwdWrite_keeps | apply freePsum_keeps | apply itemDone_keeps
      | apply bwdBare_keeps

theorem mergeItem_keeps {b : Nat} {c : Cmd} {item : Nat} {s : State} (h : Within kb false false kp kx z0 s) :
    Within kb false false kp kx z0 (mergeItem b c item s) := by
  unfold mergeItem
  with_reducible repeat' first
      | intro _ | assumption | apply within_ite | apply writeRows_keeps | apply markSat_keeps | apply itemDone_keeps
      | apply flagCmd_keeps

theorem reduceRow_keeps {b : Nat} {c : Cmd} {row : Nat} {s : State} (h : Within kb false kw kp kx z0 s) :
    Within kb false kw kp kx z0 (reduceRow b c row s) := by
  unfold reduceRow
  with_reducible repeat' first
      | intro _ | assumption | apply itemDone_keeps | apply writeMarked_keeps | apply markSat_keeps

theorem mergeRow_keeps {b : Nat} {c : Cmd} {row : Nat} {s : State} (h : Within kb false kw kp kx z0 s) :
    Within kb false kw kp kx z0 (mergeRow b c row s) := by
  unfold mergeRow
  with_reducible repeat' first
      | intro _ | assumption | apply markSat_keeps | apply itemDone_keeps | apply writeMarked_keeps

theorem topkItem_keeps {b : Nat} {c : Cmd} {item : Nat} {s : State} (h : Within kb false false kp kx z0 s) :
    Within kb false false kp kx z0 (topkItem b c item s) := by
  unfold topkItem
  with_reducible repeat' first
      | intro _ | assumption | apply within_ite | apply within_foldl | apply slotUnits_keeps | apply itemDone_keeps
      | apply modCmd_keeps

theorem moeItem_keeps {b : Nat} {c : Cmd} {item : Nat} {s : State} (h : Within kb false false kp kx z0 s) :
    Within kb false false kp kx z0 (moeItem b c item s) := by
  unfold moeItem
  with_reducible repeat' first
      | intro _ | assumption | apply within_ite | apply within_foldl | apply modCmd_keeps | apply slotUnits_keeps
      | apply odBump_keeps | apply markSat_keeps | apply itemDone_keeps

theorem scanTile_keeps {b : Nat} {c : Cmd} {x : Epi} {s : State} (h : Within kb km kw kp kx z0 s) :
    Within kb km kw kp kx z0 (scanTile b c x s) := by
  unfold scanTile
  with_reducible repeat' first
      | intro _ | assumption | apply within_ite | apply markSat_keeps | apply putP_keeps

theorem scanOut_keeps {b : Nat} {c : Cmd} {x : Epi} {s : State} (h : Within kb false false kp kx z0 s) :
    Within kb false false kp kx z0 (scanOut b c x s) := by
  unfold scanOut
  with_reducible repeat' first
      | intro _ | assumption | apply within_ite | apply within_foldl | apply markSat_keeps | apply slotWrite_keeps
      | apply countPoison_keeps

theorem laneLong_keeps {c : Cmd} {lane : Nat} {a : Acc} {s : State} (h : Within kb km kw kp kx z0 s) :
    Within kb km kw kp kx z0 (laneLong c lane a s) := by
  unfold laneLong
  with_reducible repeat' first
      | intro _ | assumption | apply within_ite | apply flagCmd_keeps | apply modCmd_keeps

theorem scanState_keeps {b : Nat} {c : Cmd} {x : Epi} {s : State} (h : Within kb false false kp kx z0 s) :
    Within kb false false kp kx z0 (scanState b c x s) := by
  unfold scanState
  with_reducible repeat' first
      | intro _ | assumption | apply within_ite | apply within_foldl | apply markSat_keeps | apply slotUnits_keeps
      | apply laneLong_keeps | apply itemDone_keeps

theorem routePrologue_keeps {b : Nat} {c : Cmd} {item : Nat} {s : State} (h : Within kb km kw kp kx z0 s) :
    Within kb km kw kp kx z0 (routePrologue b c item s).2 := by
  unfold routePrologue
  with_reducible repeat' first
      | intro _ | assumption | apply within_ite | apply markSat_keeps
theorem routePrologue_keeps_eq {b : Nat} {c : Cmd} {item : Nat} {s : State} {a0} {t : State} (e : routePrologue b c item s = (a0, t)) (h : Within kb km kw kp kx z0 s) :
    Within kb km kw kp kx z0 t := by
  have h' := routePrologue_keeps (b := b) (c := c) (item := item) (s := s) h
  rw [e] at h'
  exact h'

theorem routeWrite_keeps {b : Nat} {c : Cmd} {item : Nat} {scores : List Val} {bad : Bool} {s : State} (h : Within kb false false kp kx z0 s) :
    Within kb false false kp kx z0 (routeWrite b c item scores bad s) := by
  unfold routeWrite
  with_reducible repeat' first
      | intro _ | assumption | apply within_ite | apply slotUnits_keeps | apply flagCmd_keeps | apply modCmd_keeps
      | apply itemDone_keeps

theorem routeTile_keeps {b : Nat} {c : Cmd} {x : Epi} {s : State} (h : Within kb false false kp kx z0 s) :
    Within kb false false kp kx z0 (routeTile b c x s) := by
  unfold routeTile
  with_reducible repeat' first
      | intro _ | assumption | apply within_ite | apply within_foldl | apply markSat_keeps | apply modBlock_keeps
      | apply routeWrite_keeps | dsimp only [within_mk] | apply within_of | split

theorem psumGrant_keeps {b : Nat} {c : Cmd} {item : Nat} {s : State} (h : Within kb km kw kp kx z0 s) :
    Within kb km kw kp kx z0 (psumGrant b c item s) := by
  unfold psumGrant
  with_reducible repeat' first
      | intro _ | assumption | apply modRegion_keeps

theorem useAreas_keeps {b : Nat} {c : Cmd} {s : State} (h : Within kb km false kp kx z0 s) :
    Within kb km false kp kx z0 (useAreas b c s) := by
  unfold useAreas
  with_reducible repeat' first
      | intro _ | assumption | apply within_ite | apply scramble_keeps

theorem startJob_keeps {b : Nat} {c : Cmd} {item : Nat} {s : State} (h : Within kb km false kp kx z0 s) :
    Within kb km false kp kx z0 (startJob b c item s).2 := by
  unfold startJob
  with_reducible repeat' first
      | intro _ | assumption | apply within_ite | apply odBump_keeps | apply markSat_keeps | apply useAreas_keeps
      | apply modBlock_keeps
theorem startJob_keeps_eq {b : Nat} {c : Cmd} {item : Nat} {s : State} {a0} {t : State} (e : startJob b c item s = (a0, t)) (h : Within kb km false kp kx z0 s) :
    Within kb km false kp kx z0 t := by
  have h' := startJob_keeps (b := b) (c := c) (item := item) (s := s) h
  rw [e] at h'
  exact h'

theorem jobOf_keeps_eq {b : Nat} {s t : State} {c : Cmd} {j : Job} (e : jobOf b s = some (c, j, t)) (h : Within kb km false kp kx z0 s) : Within kb km false kp kx z0 t := by
  unfold jobOf at e
  split at e
  · simp only [Option.map_eq_some_iff, Prod.mk.injEq] at e
    obtain ⟨_, _, _, _, rfl⟩ := e
    exact h
  · split at e
    · cases e
    · dsimp only at e
      split at e
      · cases e
        exact startJob_keeps h
      · cases e

theorem setJob_keeps {b : Nat} {j : Option Job} {s : State} (h : Within kb km kw kp kx z0 s) :
    Within kb km kw kp kx z0 (setJob b j s) := by
  unfold setJob
  with_reducible repeat' first
      | intro _ | assumption | apply modBlock_keeps

theorem dropJob_keeps {b : Nat} {j : Job} {s : State} (h : Within kb km kw kp kx z0 s) :
    Within kb km kw kp kx z0 (dropJob b j s) := by
  unfold dropJob
  with_reducible repeat' first
      | intro _ | assumption | apply modBlock_keeps

theorem invalidateCaches_keeps {s : State} (h : Within kb km kw kp kx z0 s) :
    Within kb km kw kp kx z0 (invalidateCaches s) := by
  unfold invalidateCaches
  with_reducible repeat' first
      | intro _ | assumption | apply within_foldl | dsimp only [within_mk] | apply within_of

theorem meetAcquire_keeps {uid fc : Nat} {s : State} (h : Within kb false kw kp kx z0 s) :
    Within kb false kw kp kx z0 (meetAcquire uid fc s) := by
  unfold meetAcquire
  with_reducible repeat' first
      | intro _ | assumption | apply within_ite | apply odBump_keeps | apply flagCmd_keeps | apply modCmd_keeps
      | apply wake_keeps | apply invalidateCaches_keeps | dsimp only [within_mk] | apply within_of | split

theorem evalAcquire_keeps {fc : Nat} {s : State} {c : Cmd} (h : Within kb false kw kp kx z0 s) :
    Within kb false kw kp kx z0 (evalAcquire fc s c) := by
  unfold evalAcquire
  with_reducible repeat' first
      | intro _ | assumption | apply within_ite | apply meetAcquire_keeps

theorem firstEval_keeps {c : Cmd} {s : State} (h : Within kb false kw kp kx z0 s) :
    Within kb false kw kp kx z0 (firstEval c s) := by
  unfold firstEval
  with_reducible repeat' first
      | intro _ | assumption | apply evalAcquire_keeps

theorem afterUpdate_keeps {i : Nat} {s : State} (h : Within kb false false kp kx z0 s) :
    Within kb false false kp kx z0 (afterUpdate i s) := by
  unfold afterUpdate
  with_reducible repeat' first
      | intro _ | assumption | apply within_ite | apply within_foldl | apply report_keeps | apply disarm_keeps
      | apply hostWrite_keeps | apply evalAcquire_keeps | apply examine_keeps

theorem applyRelease_keeps {i : Nat} {add : Bool} {val scope src : Nat} {remote : Bool} {fc : Nat} {s : State} (h : Within kb false false kp kx z0 s) :
    Within kb false false kp kx z0 (applyRelease i add val scope src remote fc s) := by
  unfold applyRelease
  with_reducible repeat' first
      | intro _ | assumption | apply within_ite | apply within_foldl | apply putFlag_keeps | apply failGroup_keeps
      | apply afterUpdate_keeps

theorem resetFlag_keeps {i : Nat} {s : State} (h : Within kb false false kp kx z0 s) :
    Within kb false false kp kx z0 (resetFlag i s) := by
  unfold resetFlag
  with_reducible repeat' first
      | intro _ | assumption | apply afterUpdate_keeps | apply putFlag_keeps

theorem execRemoteFlagApply_keeps {s : State} (h : Within kb false false kp kx z0 s) :
    WithinO kb false false kp kx z0 (execRemoteFlagApply s) := by
  unfold execRemoteFlagApply
  with_reducible repeat' first
      | intro _ | assumption | apply within_ite | apply withinO_next | apply withinO_event | apply applyRelease_keeps
      | apply event_keeps | apply apexProgress_keeps | apply modCmd_keeps | apply pushAck_keeps | dsimp only [within_mk]
      | apply within_of | split

theorem execAcquireTimeout_keeps {tag : Nat} {s : State} (h : Within kb km kw kp kx z0 s) :
    WithinO kb km kw kp kx z0 (execAcquireTimeout tag s) := by
  unfold execAcquireTimeout
  with_reducible repeat' first
      | intro _ | assumption | apply withinO_next | apply withinO_event | apply event_keeps | apply odBump_keeps
      | apply modCmd_keeps | apply endCmd_keeps | dsimp only [within_mk] | apply within_of | split

theorem execAcquireInvalidationEnd_keeps {tag : Nat} {s : State} (h : Within kb km kw kp kx z0 s) :
    WithinO kb km kw kp kx z0 (execAcquireInvalidationEnd tag s) := by
  unfold execAcquireInvalidationEnd
  with_reducible repeat' first
      | intro _ | assumption | apply withinO_next | apply withinO_event | apply event_keeps | apply modCmd_keeps
      | dsimp only [within_mk] | apply within_of | split

theorem startRelease_keeps {c : Cmd} {s : State} (h : Within kb km kw kp kx z0 s) :
    Within kb km kw kp kx z0 (startRelease c s) := by
  unfold startRelease
  with_reducible repeat' first
      | intro _ | assumption | apply within_ite | apply modCmd_keeps | apply sendRelease_keeps | dsimp only [within_mk]
      | apply within_of

theorem applyLocal_keeps {s : State} (h : Within kb false false kp kx z0 s) :
    Within kb false false kp kx z0 (applyLocal s) := by
  unfold applyLocal
  with_reducible repeat' first
      | intro _ | assumption | apply within_foldl | apply applyRelease_keeps | dsimp only [within_mk] | apply within_of

theorem startSilt_keeps {c : Cmd} {s : State} (h : Within kb false kw kp kx z0 s) :
    Within kb false kw kp kx z0 (startSilt c s) := by
  unfold startSilt
  with_reducible repeat' first
      | intro _ | assumption | apply within_ite | apply within_foldl | apply countPoison_keeps | apply sendSmall_keeps
      | apply hostWrite_keeps | apply noteTables_keeps

theorem startCopy_keeps {c : Cmd} {s : State} (h : Within kb false false kp kx z0 s) :
    Within kb false false kp kx z0 (startCopy c s) := by
  unfold startCopy
  with_reducible repeat' first
      | intro _ | assumption | apply within_ite | apply within_foldl | apply drawn_keeps | apply writeMarked_keeps
      | apply spWrite_keeps | apply countPoison_keeps

theorem execHintIntervalEnd_keeps {s : State} (h : Within kb km kw kp kx z0 s) :
    WithinO kb km kw kp kx z0 (execHintIntervalEnd s) := by
  unfold execHintIntervalEnd
  with_reducible repeat' first
      | intro _ | assumption | apply within_ite | apply within_foldl | apply withinO_next | apply withinO_event
      | apply event_keeps | apply startFall_keeps | dsimp only [within_mk] | apply within_of | split

theorem tick_keeps {s : State} (h : Within false false false kp kx z0 s) :
    Within false false false kp kx z0 (tick s) := by
  unfold tick
  with_reducible repeat' first
      | intro _ | assumption | apply within_ite | apply within_foldl | apply odBump_keeps | apply applyLocal_keeps
      | apply drawn_keeps | dsimp only [within_mk] | apply within_of | apply within_of_b

theorem execPsumReservationGrant_keeps {b : Nat} {s : State} (h : Within kb km kw kp kx z0 s) :
    WithinO kb km kw kp kx z0 (execPsumReservationGrant b s) := by
  unfold execPsumReservationGrant
  with_reducible repeat' first
      | intro _ | assumption | apply withinO_next | apply withinO_event | apply event_keeps | apply psumGrant_keeps
      | dsimp only [within_mk] | apply within_of | split

theorem parityReport_keeps {b code : Nat} {s : State} (h : Within kb km kw kp kx z0 s) :
    Within kb km kw kp kx z0 (parityReport b code s) := by
  unfold parityReport
  with_reducible repeat' first
      | intro _ | assumption | apply within_ite | apply report_keeps | dsimp only [within_mk] | apply within_of

theorem stepFaults_keeps {b : Nat} {held : Bool} {s : State} (h : Within kb km kw kp kx z0 s) :
    Within kb km kw kp kx z0 (stepFaults b held s).2 := by
  unfold stepFaults
  with_reducible repeat' first
      | intro _ | assumption | apply within_ite | apply disarm_keeps | apply parityReport_keeps | apply modBlock_keeps
      | apply report_keeps | dsimp only [within_mk] | apply within_of | split
theorem stepFaults_keeps_eq {b : Nat} {held : Bool} {s : State} {a0} {t : State} (e : stepFaults b held s = (a0, t)) (h : Within kb km kw kp kx z0 s) :
    Within kb km kw kp kx z0 t := by
  have h' := stepFaults_keeps (b := b) (held := held) (s := s) h
  rw [e] at h'
  exact h'

theorem keepLoam_keeps {r d : Nat} {ps : List (PageDesc × Nat)} {s : State} (h : Within kb km kw kp kx z0 s) :
    Within kb km kw kp kx z0 (keepLoam r d ps s) := by
  unfold keepLoam
  with_reducible repeat' first
      | intro _ | assumption | apply within_ite | apply within_foldl | apply modRegion_keeps

theorem noteReads_keeps {b : Nat} {c : Cmd} {j : Job} {p : Prod} {s : State} (h : Within kb km kw kp kx z0 s) :
    Within kb km kw kp kx z0 (noteReads b c j p s).2 := by
  unfold noteReads
  with_reducible repeat' first
      | intro _ | assumption | apply within_ite | apply within_foldl | apply odBump_keeps | apply report_keeps
      | apply disarm_keeps | apply modBlock_keeps | apply keepLoam_keeps | apply flagCmd_keeps
theorem noteReads_keeps_eq {b : Nat} {c : Cmd} {j : Job} {p : Prod} {s : State} {a0} {t : State} (e : noteReads b c j p s = (a0, t)) (h : Within kb km kw kp kx z0 s) :
    Within kb km kw kp kx z0 t := by
  have h' := noteReads_keeps (b := b) (c := c) (j := j) (p := p) (s := s) h
  rw [e] at h'
  exact h'

theorem fetchProd_keeps {b : Nat} {c : Cmd} {second : Bool} {p : Prod} {j : Job} {s : State} (h : Within kb km kw kp kx z0 s) :
    Within kb km kw kp kx z0 (fetchProd b c second p j s).2 := by
  unfold fetchProd
  with_reducible repeat' first
      | intro _ | assumption | apply within_ite | apply within_foldl | apply enqueue_keeps | apply stagedNow_keeps
      | apply setJob_keeps
theorem fetchProd_keeps_eq {b : Nat} {c : Cmd} {second : Bool} {p : Prod} {j : Job} {s : State} {a0} {t : State} (e : fetchProd b c second p j s = (a0, t)) (h : Within kb km kw kp kx z0 s) :
    Within kb km kw kp kx z0 t := by
  have h' := fetchProd_keeps (b := b) (c := c) (second := second) (p := p) (j := j) (s := s) h
  rw [e] at h'
  exact h'

theorem arrDone_keeps {b : Nat} {c : Cmd} {s : State} (h : Within kb false false kp kx z0 s) :
    Within kb false false kp kx z0 (arrDone b c s) := by
  unfold arrDone
  with_reducible repeat' first
      | intro _ | assumption | apply within_ite | apply drainHolds_keeps | apply modBlock_keeps

theorem productEnd_keeps {b i : Nat} {c : Cmd} {j : Job} {p : Prod} {s : State} (h : Within kb false false kp kx z0 s) :
    Within kb false false kp kx z0 (productEnd b i c j p s) := by
  unfold productEnd
  with_reducible repeat' first
      | intro _ | assumption | apply within_ite | apply flagCmd_keeps | apply modBlock_keeps | apply arrDone_keeps
      | apply dropJob_keeps

theorem scaleParts_keeps {b : Nat} {j : Job} {p : Prod} {f : Acc → Acc} {s : State} (h : Within kb km kw kp kx z0 s) :
    Within kb km kw kp kx z0 (scaleParts b j p f s) := by
  unfold scaleParts
  with_reducible repeat' first
      | intro _ | assumption | apply within_ite | apply modRegion_keeps

theorem arrayStep_keeps {b : Nat} {c : Cmd} {j : Job} {p : Prod} {s : State} (h : Within kb false false kp kx z0 s) :
    Within kb false false kp kx z0 (arrayStep b c j p s) := by
  unfold arrayStep
  with_reducible repeat' first
      | intro _ | assumption | apply within_ite | apply within_foldl | apply noteReads_keeps
      | refine noteReads_keeps_eq (by assumption) ?_ | apply stepFaults_keeps | refine stepFaults_keeps_eq (by assumption) ?_
      | apply scaleParts_keeps | apply putBlock_keeps | apply odBump_keeps | apply modCmd_keeps | apply biasLoad_keeps
      | apply productEnd_keeps | dsimp only [within_mk] | apply within_of | split

theorem arrayEvent_keeps {b : Nat} {s : State} (h : Within kb false false kp kx z0 s) : WithinM kb false false kp kx z0 (arrayEvent b s) := by
  unfold arrayEvent
  split
  · exact withinM_none
  · rename_i c j t e
    have ht : Within kb false false kp kx z0 t := jobOf_keeps_eq e h
    split
    · exact withinM_none
    · rename_i second p _
      generalize hr : (if j.fetched then (j, t) else fetchProd b c second p j t) = r
      have h2 : Within kb false false kp kx z0 r.2 := by
        rw [← hr]
        split
        · exact ht
        · exact fetchProd_keeps ht
      dsimp only
      split
      · exact withinM_some (arrayStep_keeps h2)
      · split
        · exact withinM_none
        · exact withinM_some h2
theorem arrayEvent_keeps_eq {b : Nat} {s t : State} (e : arrayEvent b s = some t) (h : Within kb false false kp kx z0 s) : Within kb false false kp kx z0 t := (arrayEvent_keeps h).some _ e

theorem execArrayStep_keeps {b : Nat} {s : State} (h : Within kb false false kp kx z0 s) :
    WithinO kb false false kp kx z0 (execArrayStep b s) := by
  unfold execArrayStep
  with_reducible repeat' first
      | intro _ | assumption | apply withinO_next | apply withinO_event | apply arrayEvent_keeps
      | refine arrayEvent_keeps_eq (by assumption) ?_ | apply event_keeps | dsimp only [within_mk] | apply within_of | split

theorem execStationaryLoadDone_keeps {b : Nat} {s : State} (h : Within kb km kw kp kx z0 s) :
    WithinO kb km kw kp kx z0 (execStationaryLoadDone b s) := by
  unfold execStationaryLoadDone
  with_reducible repeat' first
      | intro _ | assumption | apply withinO_next | apply withinO_event | apply event_keeps | apply modBlock_keeps
      | dsimp only [within_mk] | apply within_of | split

theorem execTileDrain_keeps {b : Nat} {s : State} (h : Within kb km kw kp kx z0 s) :
    WithinO kb km kw kp kx z0 (execTileDrain b s) := by
  unfold execTileDrain
  with_reducible repeat' first
      | intro _ | assumption | apply withinO_next | apply withinO_event | apply event_keeps | apply modBlock_keeps
      | dsimp only [within_mk] | apply within_of | split

theorem drainTo_keeps {b : Nat} {k : Bank} {s : State} (h : Within kb km kw kp kx z0 s) :
    Within kb km kw kp kx z0 (drainTo b k s) := by
  unfold drainTo
  with_reducible repeat' first
      | intro _ | assumption | apply within_ite | apply modBlock_keeps | apply markSat_keeps | apply psumPut_keeps
      | dsimp only [within_mk] | apply within_of | split

theorem drainEnd_keeps {b i : Nat} {s : State} (h : Within kb km kw kp kx z0 s) :
    Within kb km kw kp kx z0 (drainEnd b i s) := by
  unfold drainEnd
  with_reducible repeat' first
      | intro _ | assumption | apply within_ite | apply drainTo_keeps | apply modBlock_keeps | apply startFall_keeps

theorem execDrainEnd_keeps {b : Nat} {s : State} (h : Within kb km kw kp kx z0 s) :
    WithinO kb km kw kp kx z0 (execDrainEnd b s) := by
  unfold execDrainEnd
  with_reducible repeat' first
      | intro _ | assumption | apply withinO_next | apply withinO_event | apply event_keeps | apply blockProgress_keeps
      | apply drainEnd_keeps | dsimp only [within_mk] | apply within_of | split

theorem formedTiles_keeps {b : Nat} {c : Cmd} {item part : Nat} {s : State} (h : Within kb km false kp kx z0 s) :
    Within kb km false kp kx z0 (formedTiles b c item part s).2 := by
  unfold formedTiles
  with_reducible repeat' first
      | intro _ | assumption | apply within_ite | apply gemmPrologue_keeps | refine gemmPrologue_keeps_eq (by assumption) ?_
      | apply routePrologue_keeps | refine routePrologue_keeps_eq (by assumption) ?_ | apply attnPrologue_keeps
      | refine attnPrologue_keeps_eq (by assumption) ?_ | dsimp only [within_mk] | apply within_of | split
theorem formedTiles_keeps_eq {b : Nat} {c : Cmd} {item part : Nat} {s : State} {a0} {t : State} (e : formedTiles b c item part s = (a0, t)) (h : Within kb km false kp kx z0 s) :
    Within kb km false kp kx z0 t := by
  have h' := formedTiles_keeps (b := b) (c := c) (item := item) (part := part) (s := s) h
  rw [e] at h'
  exact h'

theorem prologueTile_keeps {b : Nat} {s : State} (h : Within kb km false kp kx z0 s) : WithinM kb km false kp kx z0 (prologueTile b s) := by
  refine ⟨fun t e => ?_⟩
  unfold prologueTile at e
  simp only [Option.map_eq_some_iff] at e
  obtain ⟨⟨c, item, part⟩, _, rfl⟩ := e
  exact modBlock_keeps (within_ite (flagCmd_keeps (formedTiles_keeps h)) (formedTiles_keeps h))
theorem prologueTile_keeps_eq {b : Nat} {s t : State} (e : prologueTile b s = some t) (h : Within kb km false kp kx z0 s) : Within kb km false kp kx z0 t := (prologueTile_keeps h).some _ e

theorem execPrologueTile_keeps {b : Nat} {s : State} (h : Within kb km false kp kx z0 s) :
    WithinO kb km false kp kx z0 (execPrologueTile b s) := by
  unfold execPrologueTile
  with_reducible repeat' first
      | intro _ | assumption | apply withinO_next | apply withinO_event | apply prologueTile_keeps
      | refine prologueTile_keeps_eq (by assumption) ?_ | apply event_keeps | apply blockProgress_keeps
      | dsimp only [within_mk] | apply within_of | split

theorem bvuFaults_keeps {b : Nat} {read : Bool} {s : State} (h : Within kb km kw kp kx z0 s) :
    Within kb km kw kp kx z0 (bvuFaults b read s).2 := by
  unfold bvuFaults
  with_reducible repeat' first
      | intro _ | assumption | apply within_ite | apply disarm_keeps | apply report_keeps | dsimp only [within_mk]
      | apply within_of | split
theorem bvuFaults_keeps_eq {b : Nat} {read : Bool} {s : State} {a0} {t : State} (e : bvuFaults b read s = (a0, t)) (h : Within kb km kw kp kx z0 s) :
    Within kb km kw kp kx z0 t := by
  have h' := bvuFaults_keeps (b := b) (read := read) (s := s) h
  rw [e] at h'
  exact h'

theorem tileWork_keeps {b : Nat} {c : Cmd} {x : Epi} {s : State} (h : Within kb false false kp kx z0 s) :
    Within kb false false kp kx z0 (tileWork b c x s) := by
  unfold tileWork
  with_reducible repeat' first
      | intro _ | assumption | apply within_ite | apply gemmEpi_keeps | apply softmaxTile_keeps | apply fwdGroup_keeps
      | apply bwdTile_keeps | apply bwdOut_keeps | apply scanTile_keeps | apply scanState_keeps | apply scanOut_keeps
      | apply routeTile_keeps | dsimp only [within_mk] | apply within_of | split

theorem bwdEmpty_keeps {b : Nat} {c : Cmd} {item : Nat} {s : State} (h : Within kb false false kp kx z0 s) :
    Within kb false false kp kx z0 (bwdEmpty b c item s) := by
  unfold bwdEmpty
  with_reducible repeat' first
      | intro _ | assumption | apply itemDone_keeps | apply bwdBare_keeps

theorem bvuWork_keeps {b : Nat} {c : Cmd} {item : Nat} {s : State} (h : Within kb false false kp kx z0 s) :
    Within kb false false kp kx z0 (bvuWork b c item s) := by
  unfold bvuWork
  with_reducible repeat' first
      | intro _ | assumption | apply within_ite | apply mergeItem_keeps | apply moeItem_keeps | apply topkItem_keeps
      | apply reduceRow_keeps | apply mergeRow_keeps | apply bwdD_keeps | apply freePsum_keeps | apply bwdEmpty_keeps
      | apply odBump_keeps | apply routeWrite_keeps | apply startJob_keeps | refine startJob_keeps_eq (by assumption) ?_
      | apply endPsum_keeps | apply fwdEmpty_keeps | dsimp only [within_mk] | apply within_of | split

theorem workOn_keeps {b : Nat} {read : Bool} {e : Epi} {s : State} (h : Within kb false false kp kx z0 s) :
    Within kb false false kp kx z0 (workOn b read e s) := by
  unfold workOn
  with_reducible repeat' first
      | intro _ | assumption | apply within_ite | apply bvuFaults_keeps | refine bvuFaults_keeps_eq (by assumption) ?_
      | apply tileWork_keeps | apply flagCmd_keeps | dsimp only [within_mk] | apply within_of | split

theorem epilogueTile_keeps {b : Nat} {s : State} (h : Within kb false false kp kx z0 s) :
    WithinM kb false false kp kx z0 (epilogueTile b s) := by
  unfold epilogueTile
  with_reducible repeat' first
      | intro _ | assumption | apply within_ite | apply within_foldl | apply withinM_none | apply withinM_some
      | apply workOn_keeps | apply putBlock_keeps | apply bvuWork_keeps | apply modBlock_keeps | dsimp only [within_mk]
      | apply within_of | split
theorem epilogueTile_keeps_eq {b : Nat} {s : State} {t : State} (e : epilogueTile b s = some t) (h : Within kb false false kp kx z0 s) :
    Within kb false false kp kx z0 t := (epilogueTile_keeps (b := b) (s := s) h).some _ e

theorem execEpilogueTile_keeps {b : Nat} {s : State} (h : Within kb false false kp kx z0 s) :
    WithinO kb false false kp kx z0 (execEpilogueTile b s) := by
  unfold execEpilogueTile
  with_reducible repeat' first
      | intro _ | assumption | apply withinO_next | apply withinO_event | apply epilogueTile_keeps
      | refine epilogueTile_keeps_eq (by assumption) ?_ | apply event_keeps | apply blockProgress_keeps
      | dsimp only [within_mk] | apply within_of | split

theorem execDeadlineExpiry_keeps {tag late : Nat} {s : State} (h : Within kb km kw kp kx z0 s) :
    WithinO kb km kw kp kx z0 (execDeadlineExpiry tag late s) := by
  unfold execDeadlineExpiry
  with_reducible repeat' first
      | intro _ | assumption | apply withinO_next | apply withinO_event | apply event_keeps | apply odBump_keeps
      | apply flagCmd_keeps | apply modCmd_keeps | dsimp only [within_mk] | apply within_of | split

theorem spoilPlaces_keeps {c : Cmd} {s : State} (h : Within kb false false kp kx z0 s) :
    Within kb false false kp kx z0 (spoilPlaces c s) := by
  unfold spoilPlaces
  with_reducible repeat' first
      | intro _ | assumption | apply within_ite | apply within_foldl | apply spoil_keeps

theorem spoilOutputs_keeps {c : Cmd} {status : Nat} {s : State} (h : Within kb false false kp kx z0 s) :
    Within kb false false kp kx z0 (spoilOutputs c status s) := by
  unfold spoilOutputs
  with_reducible repeat' first
      | intro _ | assumption | apply within_ite | apply spoilPlaces_keeps

theorem spoilOverlap_keeps {c : Cmd} {s : State} (h : Within kb false false kp kx z0 s) :
    Within kb false false kp kx z0 (spoilOverlap c s) := by
  unfold spoilOverlap
  with_reducible repeat' first
      | intro _ | assumption | apply within_ite | apply spoilPlaces_keeps

end Sys2Proof.Machine
end

