-- ==== Sys2Proof/Laws/KeepsPages.lean ====
section
/-! SUPPORT. What every operation keeps (see Keeps.lean): the paged cache and the dispatcher. -/

namespace Sys2Proof.Machine

variable {kb km kw kp kx : Bool} {z0 : State}

theorem writeRoot_keeps {seq layer v : Nat} {o : MemOwner} {s : State} (h : Within kb false kw kp kx z0 s) :
    Within kb false kw kp kx z0 (writeRoot seq layer v o s) := by
  unfold writeRoot
  with_reducible repeat' first
      | intro _ | assumption | apply hostWrite_keeps

theorem dropLeaf_keeps {l : Nat} {s : State} (h : Within kb km kw kp kx z0 s) :
    Within kb km kw kp kx z0 (dropLeaf l s) := h

theorem writeEntry_keeps {slot i e : Nat} {o : MemOwner} {s : State} (h : Within kb false kw kp kx z0 s) :
    Within kb false kw kp kx z0 (writeEntry slot i e o s) := by
  unfold writeEntry
  with_reducible repeat' first
      | intro _ | assumption | apply dropLeaf_keeps | apply hostWrite_keeps

theorem writeSlot_keeps {slot : Nat} {e : Nat → Nat} {o : MemOwner} {s : State} (h : Within kb false kw kp kx z0 s) :
    Within kb false kw kp kx z0 (writeSlot slot e o s) := by
  unfold writeSlot
  with_reducible repeat' first
      | intro _ | assumption | apply dropLeaf_keeps | apply hostWrite_keeps

theorem writeMeta_keeps {f v : Nat} {s : State} (h : Within kb false kw kp kx z0 s) :
    Within kb false kw kp kx z0 (writeMeta f v s) := by
  unfold writeMeta
  with_reducible repeat' first
      | intro _ | assumption | apply hostWrite_keeps

theorem linkTo_keeps {p : Nat} {prev : Option Nat} {n : Nat} {s : State} (h : Within kb false kw false kx z0 s) :
    Within kb false kw false kx z0 (linkTo p prev n s) := by
  unfold linkTo
  with_reducible repeat' first
      | intro _ | assumption | apply writeMeta_keeps | dsimp only [within_mk] | apply within_of | apply within_of_p | split

theorem dropNote_keeps {p : Nat} {s : State} (h : Within kb km kw false kx z0 s) :
    Within kb km kw false kx z0 (dropNote p s) := by
  unfold dropNote
  with_reducible repeat' first
      | intro _ | assumption | apply within_ite | dsimp only [within_mk] | apply within_of | apply within_of_p

theorem dropNoteOf_keeps {f : Nat} {s : State} (h : Within kb km kw false kx z0 s) :
    Within kb km kw false kx z0 (dropNoteOf f s) := by
  unfold dropNoteOf
  with_reducible repeat' first
      | intro _ | assumption | apply dropNote_keeps | dsimp only [within_mk] | apply within_of | split

theorem takeFrame_keeps {p f : Nat} {s : State} (h : Within kb false kw false kx z0 s) :
    Within kb false kw false kx z0 (takeFrame p f s) := by
  unfold takeFrame
  with_reducible repeat' first
      | intro _ | assumption | apply within_ite | apply linkTo_keeps | apply dropNote_keeps | dsimp only [within_mk]
      | apply within_of | apply within_of_p

theorem takeFrames_keeps {p n : Nat} {s : State} (h : Within kb false kw false kx z0 s) :
    Within kb false kw false kx z0 (takeFrames p n s).2 := by
  unfold takeFrames
  with_reducible repeat' first
      | intro _ | assumption | apply within_foldl | apply takeFrame_keeps
theorem takeFrames_keeps_eq {p n : Nat} {s : State} {a0} {t : State} (e : takeFrames p n s = (a0, t)) (h : Within kb false kw false kx z0 s) :
    Within kb false kw false kx z0 t := by
  have h' := takeFrames_keeps (p := p) (n := n) (s := s) h
  rw [e] at h'
  exact h'

theorem pushFrame_keeps {f : Nat} {s : State} (h : Within kb false kw false kx z0 s) :
    Within kb false kw false kx z0 (pushFrame f s) := by
  unfold pushFrame
  with_reducible repeat' first
      | intro _ | assumption | apply writeMeta_keeps | apply dropNote_keeps | dsimp only [within_mk] | apply within_of
      | apply within_of_p | split

theorem takeLeaf_keeps {s : State} (h : Within kb km kw false kx z0 s) :
    Within kb km kw false kx z0 (takeLeaf s).2 := by
  unfold takeLeaf
  with_reducible repeat' first
      | intro _ | assumption | dsimp only [within_mk] | apply within_of | apply within_of_p
theorem takeLeaf_keeps_eq {s : State} {a0} {t : State} (e : takeLeaf s = (a0, t)) (h : Within kb km kw false kx z0 s) :
    Within kb km kw false kx z0 t := by
  have h' := takeLeaf_keeps (s := s) h
  rw [e] at h'
  exact h'

theorem takeLeaves_keeps {k : Nat} {s : State} (h : Within kb km kw false kx z0 s) : Within kb km kw false kx z0 (takeLeaves k s).2 := by
  induction k generalizing s with
  | zero => exact h
  | succ k ih => exact ih (takeLeaf_keeps h)

theorem pushLeaf_keeps {n : Nat} {s : State} (h : Within kb false kw false kx z0 s) :
    Within kb false kw false kx z0 (pushLeaf n s) := by
  unfold pushLeaf
  with_reducible repeat' first
      | intro _ | assumption | apply hostWrite_keeps | dsimp only [within_mk] | apply within_of | apply within_of_p

theorem chain_keeps {link : Nat → Nat → State → State} {e : Nat} {l : List Nat} {s : State} (h : Within kb km kw kp kx z0 s)
    (hl : ∀ f n t, Within kb km kw kp kx z0 t → Within kb km kw kp kx z0 (link f n t)) : Within kb km kw kp kx z0 (chain link e l s) := by
  induction l generalizing s with
  | nil => exact h
  | cons f r ih => exact ih (hl _ _ _ h)

theorem metaLinks_keeps {ls : List (Nat × Nat)} {s : State} (h : Within kb false kw kp kx z0 s) : Within kb false kw kp kx z0 (metaLinks ls s) := by
  unfold metaLinks
  refine within_foldl h fun t x ht => enqueue_keeps ⟨?_, ht.2, ht.3, ht.4, ht.5.offM⟩
  exact foldl_holds (fun m : Memory => Memory.wf m = true) ht.1 fun m y hm => memWrite_wf hm

theorem initPool_keeps {p : Nat} {keep : Bool} {s : State} (h : Within kb false kw false kx z0 s) :
    Within kb false kw false kx z0 (initPool p keep s) := by
  unfold initPool
  with_reducible repeat' first
      | intro _ | assumption | apply within_ite | apply metaLinks_keeps | apply dropNote_keeps | dsimp only [within_mk]
      | apply within_of | apply within_of_p

theorem initLeaves_keeps {s : State} (h : Within kb false kw false kx z0 s) :
    Within kb false kw false kx z0 (initLeaves s) := by
  unfold initLeaves
  with_reducible repeat' first
      | intro _ | assumption | apply within_ite | apply chain_keeps | apply hostWrite_keeps | dsimp only [within_mk]
      | apply within_of | apply within_of_p

theorem retireFrame_keeps {f : Nat} {s : State} (h : Within kb false kw false kx z0 s) :
    Within kb false kw false kx z0 (retireFrame f s) := by
  unfold retireFrame
  with_reducible repeat' first
      | intro _ | assumption | apply writeMeta_keeps | apply dropNoteOf_keeps | dsimp only [within_mk] | apply within_of
      | apply within_of_p

theorem retireLeaf_keeps {n : Nat} {s : State} (h : Within kb km kw false kx z0 s) :
    Within kb km kw false kx z0 (retireLeaf n s) := by
  unfold retireLeaf
  with_reducible repeat' first
      | intro _ | assumption | dsimp only [within_mk] | apply within_of | apply within_of_p

theorem freeObject_keeps {r : Nat × Nat × Nat} {s : State} (h : Within kb false kw false kx z0 s) :
    Within kb false kw false kx z0 (freeObject r s) := by
  unfold freeObject
  with_reducible repeat' first
      | intro _ | assumption | apply within_ite | apply pushFrame_keeps | apply pushLeaf_keeps | dsimp only [within_mk]
      | apply within_of | apply within_of_p

theorem execRetiredObjectFree_keeps {s : State} (h : Within kb false kw false kx z0 s) :
    WithinO kb false kw false kx z0 (execRetiredObjectFree s) := by
  unfold execRetiredObjectFree
  with_reducible repeat' first
      | intro _ | assumption | apply withinO_next | apply withinO_event | apply event_keeps | apply regionProgress_keeps
      | apply freeObject_keeps | dsimp only [within_mk] | apply within_of | split

theorem raiseRefs_keeps {f seq layer page : Nat} {s : State} (h : Within kb false kw kp kx z0 s) :
    Within kb false kw kp kx z0 (raiseRefs f seq layer page s) := by
  unfold raiseRefs
  with_reducible repeat' first
      | intro _ | assumption | apply within_ite | apply writeMeta_keeps

theorem lowerRefs_keeps {f : Nat} {s : State} (h : Within kb false kw false kx z0 s) :
    Within kb false kw false kx z0 (lowerRefs f s) := by
  unfold lowerRefs
  with_reducible repeat' first
      | intro _ | assumption | apply within_ite | apply retireFrame_keeps | apply writeMeta_keeps | dsimp only [within_mk]
      | apply within_of | split

theorem actionTorn_keeps {uid : Nat} {s : State} (h : Within kb km kw kp kx z0 s) :
    Within kb km kw kp kx z0 (actionTorn uid s) := by
  unfold actionTorn
  with_reducible repeat' first
      | intro _ | assumption | apply within_ite | apply flagCmd_keeps | apply odBump_keeps | apply endCmd_keeps
      | apply modCmd_keeps | dsimp only [within_mk] | apply within_of | split

theorem peatPost_keeps {seq layer page pos0 fmt num : Nat} {req : Bool} {s : State} (h : Within kb false kw false kx z0 s) :
    Within kb false kw false kx z0 (peatPost seq layer page pos0 fmt num req s) := by
  unfold peatPost
  with_reducible repeat' first
      | intro _ | assumption | apply within_ite | apply hostWrite_keeps | apply odPut_keeps | dsimp only [within_mk]
      | apply within_of | apply within_of_p

theorem postRequest_keeps {table page num : Nat} {s : State} (h : Within kb false kw false kx z0 s) :
    Within kb false kw false kx z0 (postRequest table page num s) := by
  unfold postRequest
  with_reducible repeat' first
      | intro _ | assumption | apply peatPost_keeps

theorem requestPage_keeps {table page : Nat} {s : State} (h : Within kb false kw false kx z0 s) :
    Within kb false kw false kx z0 (requestPage table page s) := by
  unfold requestPage
  with_reducible repeat' first
      | intro _ | assumption | apply within_ite | apply postRequest_keeps | dsimp only [within_mk] | apply within_of
      | apply within_of_p | split

theorem execPeatRequestPost_keeps {s : State} (h : Within kb false kw false kx z0 s) :
    WithinO kb false kw false kx z0 (execPeatRequestPost s) := by
  unfold execPeatRequestPost
  with_reducible repeat' first
      | intro _ | assumption | apply withinO_next | apply withinO_event | apply event_keeps | apply postRequest_keeps
      | dsimp only [within_mk] | apply within_of | apply within_of_p | split

theorem peatForget_keeps {table page : Nat} {s : State} (h : Within kb km kw false kx z0 s) :
    Within kb km kw false kx z0 (peatForget table page s) := by
  unfold peatForget
  with_reducible repeat' first
      | intro _ | assumption | dsimp only [within_mk] | apply within_of | apply within_of_p

theorem dropPage_keeps {table page : Nat} {o : MemOwner} {s : State} (h : Within kb false kw false kx z0 s) :
    Within kb false kw false kx z0 (dropPage table page o s) := by
  unfold dropPage
  with_reducible repeat' first
      | intro _ | assumption | apply within_ite | apply writeEntry_keeps | apply retireFrame_keeps | apply odBump_keeps
      | apply peatPost_keeps | dsimp only [within_mk] | apply within_of | apply within_of_p

theorem execPageDropAuto_keeps {pool : Nat} {s : State} (h : Within kb false kw false kx z0 s) :
    WithinO kb false kw false kx z0 (execPageDropAuto pool s) := by
  unfold execPageDropAuto
  with_reducible repeat' first
      | intro _ | assumption | apply within_ite | apply withinO_next | apply withinO_event | apply event_keeps
      | apply regionProgress_keeps | apply odBump_keeps | apply dropPage_keeps | dsimp only [within_mk] | apply within_of
      | split

theorem dropRange_keeps {table : Nat} {o : MemOwner} {l : List Nat} {n : Nat} {s : State} (h : Within kb false kw false kx z0 s) :
    Within kb false kw false kx z0 (dropRange table o l n s).2 := by
  induction l generalizing n s with
  | nil => exact h
  | cons i r ih =>
    unfold dropRange
    dsimp only
    split
    · exact ih h
    · split
      · exact odBump_keeps h
      · exact ih (dropPage_keeps h)

theorem pageDrop_keeps {c : Cmd} {s : State} (h : Within kb false kw false kx z0 s) :
    Within kb false kw false kx z0 (pageDrop c s) := by
  unfold pageDrop
  with_reducible repeat' first
      | intro _ | assumption | apply within_ite | apply actionTorn_keeps | apply endCmd_keeps | apply dropRange_keeps
      | apply modCmd_keeps

theorem movePage_keeps {f g t i : Nat} {s : State} (h : Within kb false kw false kx z0 s) :
    Within kb false kw false kx z0 (movePage f g t i s) := by
  unfold movePage
  with_reducible repeat' first
      | intro _ | assumption | apply within_ite | apply within_foldl | apply hostWrite_keeps | apply takeLeaf_keeps
      | refine takeLeaf_keeps_eq (by assumption) ?_ | apply writeSlot_keeps | apply writeRoot_keeps | apply raiseRefs_keeps
      | apply retireLeaf_keeps | apply retireFrame_keeps

theorem execPoolShrinkMove_keeps {pool : Nat} {s : State} (h : Within kb false kw false kx z0 s) :
    WithinO kb false kw false kx z0 (execPoolShrinkMove pool s) := by
  unfold execPoolShrinkMove
  with_reducible repeat' first
      | intro _ | assumption | apply withinO_next | apply withinO_event | apply event_keeps | apply regionProgress_keeps
      | apply movePage_keeps | apply takeFrame_keeps | dsimp only [within_mk] | apply within_of | split

theorem drawnN_keeps {n : Nat} {s : State} (h : Within kb km kw kp kx z0 s) :
    Within kb km kw kp kx z0 (drawnN n s) := h

theorem writeSealed_keeps {uid frame fmt dim header : Nat} {k v : List (List (List Nat))} {bad : Bool} {s : State} (h : Within kb false kw kp kx z0 s) :
    Within kb false kw kp kx z0 (writeSealed uid frame fmt dim header k v bad s) := by
  unfold writeSealed
  with_reducible repeat' first
      | intro _ | assumption | apply within_ite | apply markSat_keeps | apply hostWriteAs_keeps | apply countPoison_keeps

theorem askFrames_keeps {c : Cmd} {s : State} (h : Within kb km kw false kx z0 s) :
    Within kb km kw false kx z0 (askFrames c s) := by
  unfold askFrames
  with_reducible repeat' first
      | intro _ | assumption | apply within_ite | apply modCmd_keeps | dsimp only [within_mk] | apply within_of
      | apply within_of_p

theorem writeToken_keeps {uid : Nat} {s : State} (h : Within kb false kw kp kx z0 s) :
    Within kb false kw kp kx z0 (writeToken uid s) := by
  unfold writeToken
  with_reducible repeat' first
      | intro _ | assumption | apply within_ite | apply within_foldl | apply drawn_keeps | apply markSat_keeps
      | apply hostWrite_keeps | apply hostWriteAs_keeps | apply countPoison_keeps | dsimp only [within_mk] | apply within_of
      | split

theorem allocate_keeps {c : Cmd} {s : State} (h : Within kb false kw false kx z0 s) :
    WithinM kb false kw false kx z0 (allocate c s) := by
  unfold allocate
  with_reducible repeat' first
      | intro _ | assumption | apply within_ite | apply withinM_none | apply withinM_some | apply actionTorn_keeps
      | apply endCmd_keeps | apply takeFrames_keeps | refine takeFrames_keeps_eq (by assumption) ?_ | apply takeLeaves_keeps
      | apply modCmd_keeps | apply writeToken_keeps | dsimp only [within_mk] | apply within_of | split
theorem allocate_keeps_eq {c : Cmd} {s : State} {t : State} (e : allocate c s = some t) (h : Within kb false kw false kx z0 s) :
    Within kb false kw false kx z0 t := (allocate_keeps (c := c) (s := s) h).some _ e

theorem allocEvent_keeps {c : Cmd} {s : State} (h : Within kb false kw false kx z0 s) : Within kb false kw false kx z0 (allocEvent c s) := by
  have h1 : Within kb false kw false kx z0 (askFrames c s) := askFrames_keeps h
  unfold allocEvent
  dsimp only
  split
  · exact h1
  · rename_i d _
    split
    · cases e : allocate d (askFrames c s) with
      | none => exact h1
      | some t => exact allocate_keeps_eq e h1
    · exact h1

theorem execFrameAllocation_keeps {tag : Nat} {s : State} (h : Within kb false kw false kx z0 s) :
    WithinO kb false kw false kx z0 (execFrameAllocation tag s) := by
  unfold execFrameAllocation
  with_reducible repeat' first
      | intro _ | assumption | apply withinO_next | apply withinO_event | apply event_keeps | apply regionProgress_keeps
      | apply allocEvent_keeps | dsimp only [within_mk] | apply within_of | split

theorem ownFrame_keeps {f : Nat} {d : Descriptor} {page : Nat} {s : State} (h : Within kb false kw kp kx z0 s) :
    Within kb false kw kp kx z0 (ownFrame f d page s) := by
  unfold ownFrame
  with_reducible repeat' first
      | intro _ | assumption | apply raiseRefs_keeps

theorem commitToken_keeps {c : Cmd} {w : AppendWork} {v : Nat} {s : State} (h : Within kb false kw kp kx z0 s) :
    Within kb false kw kp kx z0 (commitToken c w v s) := by
  unfold commitToken
  with_reducible repeat' first
      | intro _ | assumption | apply within_ite | apply ownFrame_keeps | apply writeRoot_keeps | apply modCmd_keeps
      | apply writeToken_keeps

theorem execAppendTokenCommit_keeps {tag : Nat} {s : State} (h : Within kb false kw kp kx z0 s) :
    WithinO kb false kw kp kx z0 (execAppendTokenCommit tag s) := by
  unfold execAppendTokenCommit
  with_reducible repeat' first
      | intro _ | assumption | apply within_ite | apply withinO_next | apply withinO_event | apply event_keeps
      | apply regionProgress_keeps | apply actionTorn_keeps | apply commitToken_keeps | dsimp only [within_mk]
      | apply within_of | split

theorem promote_keeps {c : Cmd} {w : AppendWork} {v : Nat} {s : State} (h : Within kb false kw kp kx z0 s) :
    Within kb false kw kp kx z0 (promote c w v s) := by
  unfold promote
  with_reducible repeat' first
      | intro _ | assumption | apply within_ite | apply writeSealed_keeps | apply flagCmd_keeps | apply modCmd_keeps

theorem rebuild_keeps {c : Cmd} {w : AppendWork} {v i : Nat} {s : State} (h : Within kb false kw kp kx z0 s) :
    Within kb false kw kp kx z0 (rebuild c w v i s) := by
  unfold rebuild
  with_reducible repeat' first
      | intro _ | assumption | apply within_ite | apply markSat_keeps | apply writeSealed_keeps | apply drawnN_keeps
      | apply modCmd_keeps

theorem execPagePromotion_keeps {tag : Nat} {s : State} (h : Within kb false kw kp kx z0 s) :
    WithinO kb false kw kp kx z0 (execPagePromotion tag s) := by
  unfold execPagePromotion
  with_reducible repeat' first
      | intro _ | assumption | apply within_ite | apply withinO_next | apply withinO_event | apply event_keeps
      | apply actionTorn_keeps | apply regionProgress_keeps | apply promote_keeps | apply rebuild_keeps
      | dsimp only [within_mk] | apply within_of | split

theorem commitPage_keeps {c : Cmd} {w : AppendWork} {v f : Nat} {s : State} (h : Within kb false kw false kx z0 s) :
    Within kb false kw false kx z0 (commitPage c w v f s) := by
  unfold commitPage
  with_reducible repeat' first
      | intro _ | assumption | apply within_ite | apply writeEntry_keeps | apply writeSlot_keeps | apply raiseRefs_keeps
      | apply writeRoot_keeps | apply retireFrame_keeps | apply modCmd_keeps | apply writeToken_keeps

theorem commitRestore_keeps {c : Cmd} {w : AppendWork} {v f : Nat} {s : State} (h : Within kb false kw false kx z0 s) :
    Within kb false kw false kx z0 (commitRestore c w v f s) := by
  unfold commitRestore
  with_reducible repeat' first
      | intro _ | assumption | apply writeEntry_keeps | apply raiseRefs_keeps | apply peatForget_keeps | apply odBump_keeps
      | apply modCmd_keeps

theorem execPromotionCommit_keeps {tag : Nat} {s : State} (h : Within kb false kw false kx z0 s) :
    WithinO kb false kw false kx z0 (execPromotionCommit tag s) := by
  unfold execPromotionCommit
  with_reducible repeat' first
      | intro _ | assumption | apply within_ite | apply withinO_next | apply withinO_event | apply event_keeps
      | apply regionProgress_keeps | apply actionTorn_keeps | apply commitPage_keeps | apply commitRestore_keeps
      | dsimp only [within_mk] | apply within_of | split

theorem returnFrames_keeps {c : Cmd} {s : State} (h : Within kb false kw false kx z0 s) :
    Within kb false kw false kx z0 (returnFrames c s) := by
  unfold returnFrames
  with_reducible repeat' first
      | intro _ | assumption | apply within_foldl | apply pushLeaf_keeps | apply pushFrame_keeps | dsimp only [within_mk]
      | apply within_of | split

theorem editStart_keeps {c : Cmd} {s : State} (h : Within kb km kw false kx z0 s) :
    WithinM kb km kw false kx z0 (editStart c s) := by
  unfold editStart
  with_reducible repeat' first
      | intro _ | assumption | apply within_ite | apply withinM_none | apply withinM_some | apply actionTorn_keeps
      | apply endCmd_keeps | apply modCmd_keeps | dsimp only [within_mk] | apply within_of | apply within_of_p | split
theorem editStart_keeps_eq {c : Cmd} {s : State} {t : State} (e : editStart c s = some t) (h : Within kb km kw false kx z0 s) :
    Within kb km kw false kx z0 t := (editStart_keeps (c := c) (s := s) h).some _ e

theorem editAgain_keeps {c : Cmd} {s : State} (h : Within kb km kw kp kx z0 s) :
    Within kb km kw kp kx z0 (editAgain c s) := by
  unfold editAgain
  with_reducible repeat' first
      | intro _ | assumption | apply actionTorn_keeps | apply modCmd_keeps

theorem editCommit_keeps {c : Cmd} {e : EditWork} {s : State} (h : Within kb false kw false kx z0 s) :
    Within kb false kw false kx z0 (editCommit c e s) := by
  unfold editCommit
  with_reducible repeat' first
      | intro _ | assumption | apply within_ite | apply within_foldl | apply editAgain_keeps | apply endCmd_keeps
      | apply takeLeaves_keeps | apply writeSlot_keeps | apply writeRoot_keeps | apply raiseRefs_keeps
      | apply lowerRefs_keeps | apply retireLeaf_keeps | apply peatForget_keeps | apply modCmd_keeps | dsimp only [within_mk]
      | apply within_of | apply within_of_p | split

theorem editWhole_keeps {c : Cmd} {e : EditWork} {s : State} (h : Within kb false kw false kx z0 s) :
    Within kb false kw false kx z0 (editWhole c e s) := by
  unfold editWhole
  with_reducible repeat' first
      | intro _ | assumption | apply editCommit_keeps | apply endCmd_keeps | apply editAgain_keeps | dsimp only [within_mk]
      | apply within_of | split

theorem editStep_keeps {c : Cmd} {e : EditWork} {s : State} (h : Within kb false kw false kx z0 s) :
    Within kb false kw false kx z0 (editStep c e s) := by
  unfold editStep
  with_reducible repeat' first
      | intro _ | assumption | apply within_ite | apply endCmd_keeps | apply editAgain_keeps | apply editWhole_keeps
      | apply modCmd_keeps | dsimp only [within_mk] | apply within_of | split

theorem editOp_keeps {code tag : Nat} {s : State} (h : Within kb false kw false kx z0 s) :
    WithinO kb false kw false kx z0 (editOp code tag s) := by
  unfold editOp
  with_reducible repeat' first
      | intro _ | assumption | apply within_ite | apply withinO_next | apply withinO_event | apply event_keeps
      | apply regionProgress_keeps | apply editStep_keeps | apply editStart_keeps
      | refine editStart_keeps_eq (by assumption) ?_ | dsimp only [within_mk] | apply within_of | split

theorem execCreate_keeps {tag : Nat} {s : State} (h : Within kb false kw false kx z0 s) :
    WithinO kb false kw false kx z0 (execCreate tag s) := by
  unfold execCreate
  with_reducible repeat' first
      | intro _ | assumption | apply withinO_next | apply withinO_event | apply editOp_keeps

theorem execRelease_keeps {tag : Nat} {s : State} (h : Within kb false kw false kx z0 s) :
    WithinO kb false kw false kx z0 (execRelease tag s) := by
  unfold execRelease
  with_reducible repeat' first
      | intro _ | assumption | apply withinO_next | apply withinO_event | apply editOp_keeps

theorem execTruncate_keeps {tag : Nat} {s : State} (h : Within kb false kw false kx z0 s) :
    WithinO kb false kw false kx z0 (execTruncate tag s) := by
  unfold execTruncate
  with_reducible repeat' first
      | intro _ | assumption | apply withinO_next | apply withinO_event | apply editOp_keeps

theorem execUnmap_keeps {tag : Nat} {s : State} (h : Within kb false kw false kx z0 s) :
    WithinO kb false kw false kx z0 (execUnmap tag s) := by
  unfold execUnmap
  with_reducible repeat' first
      | intro _ | assumption | apply withinO_next | apply withinO_event | apply editOp_keeps

theorem execFork_keeps {tag : Nat} {s : State} (h : Within kb false kw false kx z0 s) :
    WithinO kb false kw false kx z0 (execFork tag s) := by
  unfold execFork
  with_reducible repeat' first
      | intro _ | assumption | apply withinO_next | apply withinO_event | apply editOp_keeps

theorem execSetAttr_keeps {tag : Nat} {s : State} (h : Within kb false kw false kx z0 s) :
    WithinO kb false kw false kx z0 (execSetAttr tag s) := by
  unfold execSetAttr
  with_reducible repeat' first
      | intro _ | assumption | apply withinO_next | apply withinO_event | apply editOp_keeps

theorem packRelease_keeps {f : Nat} {s : State} (h : Within kb km kw kp kx z0 s) :
    Within kb km kw kp kx z0 (packRelease f s) := by
  unfold packRelease
  with_reducible repeat' first
      | intro _ | assumption | apply within_ite | apply odBump_keeps | dsimp only [within_mk] | apply within_of | split

theorem execPackTimeout_keeps {tag : Nat} {s : State} (h : Within kb km kw kp kx z0 s) :
    WithinO kb km kw kp kx z0 (execPackTimeout tag s) := by
  unfold execPackTimeout
  with_reducible repeat' first
      | intro _ | assumption | apply withinO_next | apply withinO_event | apply event_keeps | apply packRelease_keeps
      | dsimp only [within_mk] | apply within_of | split

theorem releaseFenced_keeps {s : State} (h : Within kb km kw kp kx z0 s) :
    Within kb km kw kp kx z0 (releaseFenced s) := by
  unfold releaseFenced
  with_reducible repeat' first
      | intro _ | assumption | apply within_ite | apply within_foldl | apply packRelease_keeps

theorem packJoin_keeps {uid : Nat} {s : State} (h : Within kb km kw kp kx z0 s) :
    Within kb km kw kp kx z0 (packJoin uid s) := by
  unfold packJoin
  with_reducible repeat' first
      | intro _ | assumption | apply within_ite | apply modCmd_keeps | apply packRelease_keeps | dsimp only [within_mk]
      | apply within_of | split

theorem takePin_keeps {c : Cmd} {s : State} (h : Within kb false kw false kx z0 s) :
    Within kb false kw false kx z0 (takePin c s) := by
  unfold takePin
  with_reducible repeat' first
      | intro _ | assumption | apply writeRoot_keeps | apply modCmd_keeps | dsimp only [within_mk] | apply within_of
      | apply within_of_p

theorem walkTorn_keeps {uid : Nat} {s : State} (h : Within kb km kw kp kx z0 s) :
    Within kb km kw kp kx z0 (walkTorn uid s) := by
  unfold walkTorn
  with_reducible repeat' first
      | intro _ | assumption | apply within_ite | apply flagCmd_keeps | apply odBump_keeps | apply endCmd_keeps
      | apply purge_keeps | apply modCmd_keeps | dsimp only [within_mk] | apply within_of | split

theorem cacheLeaf_keeps {r slot : Nat} {s : State} (h : Within kb km kw kp kx z0 s) :
    Within kb km kw kp kx z0 (cacheLeaf r slot s) := by
  unfold cacheLeaf
  with_reducible repeat' first
      | intro _ | assumption | apply within_ite | apply modRegion_keeps

theorem finishWalk_keeps {uid : Nat} {s : State} (h : Within kb km kw kp kx z0 s) :
    Within kb km kw kp kx z0 (finishWalk uid s) := by
  unfold finishWalk
  with_reducible repeat' first
      | intro _ | assumption | apply within_ite | apply endCmd_keeps | apply packJoin_keeps | apply modCmd_keeps
      | dsimp only [within_mk] | apply within_of | split

theorem meetDropped_keeps {uid : Nat} {s : State} (h : Within kb false kw false kx z0 s) :
    Within kb false kw false kx z0 (meetDropped uid s) := by
  unfold meetDropped
  with_reducible repeat' first
      | intro _ | assumption | apply within_ite | apply within_foldl | apply finishWalk_keeps | apply requestPage_keeps
      | apply modCmd_keeps | apply flagCmd_keeps | apply endCmd_keeps | dsimp only [within_mk] | apply within_of | split

theorem walkPages_keeps {r uid : Nat} {s : State} (h : Within kb false kw false kx z0 s) :
    Within kb false kw false kx z0 (walkPages r uid s) := by
  unfold walkPages
  with_reducible repeat' first
      | intro _ | assumption | apply within_ite | apply within_foldl | apply walkTorn_keeps | apply modRegion_keeps
      | apply cacheLeaf_keeps | apply odBump_keeps | apply report_keeps | apply flagCmd_keeps | apply trace_keeps
      | apply meetDropped_keeps | apply modCmd_keeps | dsimp only [within_mk] | apply within_of | split

theorem serveWalk_keeps {r uid : Nat} {s : State} (h : Within kb false kw false kx z0 s) :
    Within kb false kw false kx z0 (serveWalk r uid s) := by
  unfold serveWalk
  with_reducible repeat' first
      | intro _ | assumption | apply within_ite | apply walkPages_keeps | apply endCmd_keeps | apply flagCmd_keeps
      | apply walkTorn_keeps | apply takePin_keeps | dsimp only [within_mk] | apply within_of | split

theorem execWalkRequest_keeps {region : Nat} {s : State} (h : Within kb false kw false kx z0 s) :
    WithinO kb false kw false kx z0 (execWalkRequest region s) := by
  unfold execWalkRequest
  with_reducible repeat' first
      | intro _ | assumption | apply within_ite | apply withinO_next | apply withinO_event | apply event_keeps
      | apply report_keeps | apply disarm_keeps | apply serveWalk_keeps | apply regionProgress_keeps | apply modRegion_keeps
      | dsimp only [within_mk] | apply within_of | split

theorem takeDescriptor_keeps {d : Descriptor} {s : State} (h : Within kb false kw kp kx z0 s) :
    Within kb false kw kp kx z0 (takeDescriptor d s) := by
  unfold takeDescriptor
  with_reducible repeat' first
      | intro _ | assumption | apply within_ite | apply submit_keeps | apply releaseFenced_keeps

theorem descriptorRow_keeps {ok : Bool} {d : Descriptor} {s : State} (h : Within kb false kw kp kx z0 s) :
    WithinO kb false kw kp kx z0 (descriptorRow ok d s) := by
  unfold descriptorRow
  with_reducible repeat' first
      | intro _ | assumption | apply withinO_next | apply withinO_event | apply event_keeps | apply takeDescriptor_keeps

theorem execGemm_keeps {d : Descriptor} {s : State} (h : Within kb false kw kp kx z0 s) :
    WithinO kb false kw kp kx z0 (execGemm d s) := by
  unfold execGemm
  with_reducible repeat' first
      | intro _ | assumption | apply withinO_next | apply withinO_event | apply descriptorRow_keeps

theorem execGemmMultipassComplex_keeps {d : Descriptor} {s : State} (h : Within kb false kw kp kx z0 s) :
    WithinO kb false kw kp kx z0 (execGemmMultipassComplex d s) := by
  unfold execGemmMultipassComplex
  with_reducible repeat' first
      | intro _ | assumption | apply withinO_next | apply withinO_event | apply descriptorRow_keeps

theorem execGemmMultipassFp32_keeps {d : Descriptor} {s : State} (h : Within kb false kw kp kx z0 s) :
    WithinO kb false kw kp kx z0 (execGemmMultipassFp32 d s) := by
  unfold execGemmMultipassFp32
  with_reducible repeat' first
      | intro _ | assumption | apply withinO_next | apply withinO_event | apply descriptorRow_keeps

theorem execAttnFwd_keeps {d : Descriptor} {s : State} (h : Within kb false kw kp kx z0 s) :
    WithinO kb false kw kp kx z0 (execAttnFwd d s) := by
  unfold execAttnFwd
  with_reducible repeat' first
      | intro _ | assumption | apply withinO_next | apply withinO_event | apply descriptorRow_keeps

theorem execAttnBwd_keeps {d : Descriptor} {s : State} (h : Within kb false kw kp kx z0 s) :
    WithinO kb false kw kp kx z0 (execAttnBwd d s) := by
  unfold execAttnBwd
  with_reducible repeat' first
      | intro _ | assumption | apply withinO_next | apply withinO_event | apply descriptorRow_keeps

theorem execAttnCached_keeps {d : Descriptor} {s : State} (h : Within kb false kw kp kx z0 s) :
    WithinO kb false kw kp kx z0 (execAttnCached d s) := by
  unfold execAttnCached
  with_reducible repeat' first
      | intro _ | assumption | apply withinO_next | apply withinO_event | apply descriptorRow_keeps

theorem execAttnMerge_keeps {d : Descriptor} {s : State} (h : Within kb false kw kp kx z0 s) :
    WithinO kb false kw kp kx z0 (execAttnMerge d s) := by
  unfold execAttnMerge
  with_reducible repeat' first
      | intro _ | assumption | apply withinO_next | apply withinO_event | apply descriptorRow_keeps

theorem execRoutePages_keeps {d : Descriptor} {s : State} (h : Within kb false kw kp kx z0 s) :
    WithinO kb false kw kp kx z0 (execRoutePages d s) := by
  unfold execRoutePages
  with_reducible repeat' first
      | intro _ | assumption | apply withinO_next | apply withinO_event | apply descriptorRow_keeps

theorem execKvAppend_keeps {d : Descriptor} {s : State} (h : Within kb false kw kp kx z0 s) :
    WithinO kb false kw kp kx z0 (execKvAppend d s) := by
  unfold execKvAppend
  with_reducible repeat' first
      | intro _ | assumption | apply withinO_next | apply withinO_event | apply descriptorRow_keeps

theorem execPtEdit_keeps {d : Descriptor} {s : State} (h : Within kb false kw kp kx z0 s) :
    WithinO kb false kw kp kx z0 (execPtEdit d s) := by
  unfold execPtEdit
  with_reducible repeat' first
      | intro _ | assumption | apply withinO_next | apply withinO_event | apply descriptorRow_keeps

theorem execPageDrop_keeps {d : Descriptor} {s : State} (h : Within kb false kw kp kx z0 s) :
    WithinO kb false kw kp kx z0 (execPageDrop d s) := by
  unfold execPageDrop
  with_reducible repeat' first
      | intro _ | assumption | apply withinO_next | apply withinO_event | apply descriptorRow_keeps

theorem execPageRestore_keeps {d : Descriptor} {s : State} (h : Within kb false kw kp kx z0 s) :
    WithinO kb false kw kp kx z0 (execPageRestore d s) := by
  unfold execPageRestore
  with_reducible repeat' first
      | intro _ | assumption | apply withinO_next | apply withinO_event | apply descriptorRow_keeps

theorem execScan_keeps {d : Descriptor} {s : State} (h : Within kb false kw kp kx z0 s) :
    WithinO kb false kw kp kx z0 (execScan d s) := by
  unfold execScan
  with_reducible repeat' first
      | intro _ | assumption | apply withinO_next | apply withinO_event | apply descriptorRow_keeps

theorem execMoeRoute_keeps {d : Descriptor} {s : State} (h : Within kb false kw kp kx z0 s) :
    WithinO kb false kw kp kx z0 (execMoeRoute d s) := by
  unfold execMoeRoute
  with_reducible repeat' first
      | intro _ | assumption | apply withinO_next | apply withinO_event | apply descriptorRow_keeps

theorem execTopk_keeps {d : Descriptor} {s : State} (h : Within kb false kw kp kx z0 s) :
    WithinO kb false kw kp kx z0 (execTopk d s) := by
  unfold execTopk
  with_reducible repeat' first
      | intro _ | assumption | apply withinO_next | apply withinO_event | apply descriptorRow_keeps

theorem execAllGather_keeps {d : Descriptor} {s : State} (h : Within kb false kw kp kx z0 s) :
    WithinO kb false kw kp kx z0 (execAllGather d s) := by
  unfold execAllGather
  with_reducible repeat' first
      | intro _ | assumption | apply withinO_next | apply withinO_event | apply descriptorRow_keeps

theorem execReduceScatter_keeps {d : Descriptor} {s : State} (h : Within kb false kw kp kx z0 s) :
    WithinO kb false kw kp kx z0 (execReduceScatter d s) := by
  unfold execReduceScatter
  with_reducible repeat' first
      | intro _ | assumption | apply withinO_next | apply withinO_event | apply descriptorRow_keeps

theorem execAllToAll_keeps {d : Descriptor} {s : State} (h : Within kb false kw kp kx z0 s) :
    WithinO kb false kw kp kx z0 (execAllToAll d s) := by
  unfold execAllToAll
  with_reducible repeat' first
      | intro _ | assumption | apply withinO_next | apply withinO_event | apply descriptorRow_keeps

theorem execCollectiveAttnMerge_keeps {d : Descriptor} {s : State} (h : Within kb false kw kp kx z0 s) :
    WithinO kb false kw kp kx z0 (execCollectiveAttnMerge d s) := by
  unfold execCollectiveAttnMerge
  with_reducible repeat' first
      | intro _ | assumption | apply withinO_next | apply withinO_event | apply descriptorRow_keeps

theorem execPermute_keeps {d : Descriptor} {s : State} (h : Within kb false kw kp kx z0 s) :
    WithinO kb false kw kp kx z0 (execPermute d s) := by
  unfold execPermute
  with_reducible repeat' first
      | intro _ | assumption | apply withinO_next | apply withinO_event | apply descriptorRow_keeps

theorem execCopy_keeps {d : Descriptor} {s : State} (h : Within kb false kw kp kx z0 s) :
    WithinO kb false kw kp kx z0 (execCopy d s) := by
  unfold execCopy
  with_reducible repeat' first
      | intro _ | assumption | apply withinO_next | apply withinO_event | apply descriptorRow_keeps

theorem execSiltCopy_keeps {d : Descriptor} {s : State} (h : Within kb false kw kp kx z0 s) :
    WithinO kb false kw kp kx z0 (execSiltCopy d s) := by
  unfold execSiltCopy
  with_reducible repeat' first
      | intro _ | assumption | apply withinO_next | apply withinO_event | apply descriptorRow_keeps

theorem execFlagReleaseSet_keeps {d : Descriptor} {s : State} (h : Within kb false kw kp kx z0 s) :
    WithinO kb false kw kp kx z0 (execFlagReleaseSet d s) := by
  unfold execFlagReleaseSet
  with_reducible repeat' first
      | intro _ | assumption | apply withinO_next | apply withinO_event | apply descriptorRow_keeps

theorem execFlagReleaseAdd_keeps {d : Descriptor} {s : State} (h : Within kb false kw kp kx z0 s) :
    WithinO kb false kw kp kx z0 (execFlagReleaseAdd d s) := by
  unfold execFlagReleaseAdd
  with_reducible repeat' first
      | intro _ | assumption | apply withinO_next | apply withinO_event | apply descriptorRow_keeps

theorem execFlagAcquire_keeps {d : Descriptor} {s : State} (h : Within kb false kw kp kx z0 s) :
    WithinO kb false kw kp kx z0 (execFlagAcquire d s) := by
  unfold execFlagAcquire
  with_reducible repeat' first
      | intro _ | assumption | apply withinO_next | apply withinO_event | apply descriptorRow_keeps

theorem execFence_keeps {d : Descriptor} {s : State} (h : Within kb false kw kp kx z0 s) :
    WithinO kb false kw kp kx z0 (execFence d s) := by
  unfold execFence
  with_reducible repeat' first
      | intro _ | assumption | apply withinO_next | apply withinO_event | apply descriptorRow_keeps

theorem execHint_keeps {d : Descriptor} {s : State} (h : Within kb false kw kp kx z0 s) :
    WithinO kb false kw kp kx z0 (execHint d s) := by
  unfold execHint
  with_reducible repeat' first
      | intro _ | assumption | apply withinO_next | apply withinO_event | apply descriptorRow_keeps

theorem execNop_keeps {d : Descriptor} {s : State} (h : Within kb false kw kp kx z0 s) :
    WithinO kb false kw kp kx z0 (execNop d s) := by
  unfold execNop
  with_reducible repeat' first
      | intro _ | assumption | apply withinO_next | apply withinO_event | apply descriptorRow_keeps

theorem execUnknownOpcode_keeps {d : Descriptor} {s : State} (h : Within kb false kw kp kx z0 s) :
    WithinO kb false kw kp kx z0 (execUnknownOpcode d s) := by
  unfold execUnknownOpcode
  with_reducible repeat' first
      | intro _ | assumption | apply withinO_next | apply withinO_event | apply descriptorRow_keeps

theorem decideCmd_keeps {uid status detail : Nat} {s : State} (h : Within kb false kw false kx z0 s) :
    Within kb false kw false kx z0 (decideCmd uid status detail s) := by
  unfold decideCmd
  with_reducible repeat' first
      | intro _ | assumption | apply within_ite | apply returnFrames_keeps | apply putCmd_keeps | apply odBump_keeps
      | apply trace_keeps | dsimp only [within_mk] | apply within_of | split

theorem startWork_keeps {c : Cmd} {s : State} (h : Within kb false false false kx z0 s) :
    Within kb false false false kx z0 (startWork c s) := by
  unfold startWork
  with_reducible repeat' first
      | intro _ | assumption | apply modCmd_keeps | apply pageDrop_keeps | apply startColl_keeps | apply startCopy_keeps
      | apply startSilt_keeps | apply startRelease_keeps | apply firstEval_keeps | apply recordHint_keeps
      | dsimp only [within_mk] | apply within_of | split

theorem dispatchRun_keeps {c : Cmd} {s : State} (h : Within kb false false false kx z0 s) :
    Within kb false false false kx z0 (dispatchRun c s) := by
  unfold dispatchRun
  with_reducible repeat' first
      | intro _ | assumption | apply within_ite | apply putCmd_keeps | apply endCmd_keeps | apply flagCmd_keeps
      | apply startWork_keeps | dsimp only [within_mk] | apply within_of | split

theorem dispatchOne_keeps {c : Cmd} {s : State} (h : Within kb false false false kx z0 s) :
    Within kb false false false kx z0 (dispatchOne c s) := by
  unfold dispatchOne
  with_reducible repeat' first
      | intro _ | assumption | apply decideCmd_keeps | apply dispatchRun_keeps | dsimp only [within_mk] | apply within_of
      | split

theorem execCommandDispatch_keeps {s : State} (h : Within kb false false false kx z0 s) :
    WithinO kb false false false kx z0 (execCommandDispatch s) := by
  unfold execCommandDispatch
  with_reducible repeat' first
      | intro _ | assumption | apply within_ite | apply withinO_next | apply withinO_event | apply event_keeps
      | apply report_keeps | apply disarm_keeps | apply apexProgress_keeps | apply dispatchOne_keeps | dsimp only [within_mk]
      | apply within_of | split

theorem splitCmd_keeps {s : State} {c : Cmd} (h : Within kb km kw kp kx z0 s) :
    Within kb km kw kp kx z0 (splitCmd s c) := by
  unfold splitCmd
  with_reducible repeat' first
      | intro _ | assumption | apply itemDone_keeps | apply modCmd_keeps | dsimp only [within_mk] | apply within_of

theorem refill_keeps {s : State} (h : Within kb km kw kp kx z0 s) :
    Within kb km kw kp kx z0 (refill s) := by
  unfold refill
  with_reducible repeat' first
      | intro _ | assumption | apply within_foldl | apply splitCmd_keeps

theorem feedItem_keeps {b : Nat} {c : Cmd} {place : Nat} {s : State} (h : Within kb false kw kp kx z0 s) :
    Within kb false kw kp kx z0 (feedItem b c place s) := by
  unfold feedItem
  with_reducible repeat' first
      | intro _ | assumption | apply within_ite | apply report_keeps | apply disarm_keeps | apply modCmd_keeps
      | apply modBlock_keeps | apply trace_keeps | dsimp only [within_mk] | apply within_of

theorem placeItem_keeps {b : Nat} {s : State} (h : Within kb false kw kp kx z0 s) : WithinM kb false kw kp kx z0 (placeItem b s) := by
  refine ⟨fun t e => ?_⟩
  unfold placeItem at e
  simp only [Option.map_eq_some_iff] at e
  obtain ⟨p, _, rfl⟩ := e
  exact within_ite (modRegion_keeps (refill_keeps h)) (feedItem_keeps (refill_keeps h))
theorem placeItem_keeps_eq {b : Nat} {s t : State} (e : placeItem b s = some t) (h : Within kb false kw kp kx z0 s) : Within kb false kw kp kx z0 t := (placeItem_keeps h).some _ e

theorem execWorkItemPlace_keeps {b : Nat} {s : State} (h : Within kb false kw kp kx z0 s) :
    WithinO kb false kw kp kx z0 (execWorkItemPlace b s) := by
  unfold execWorkItemPlace
  with_reducible repeat' first
      | intro _ | assumption | apply withinO_next | apply withinO_event | apply placeItem_keeps
      | refine placeItem_keeps_eq (by assumption) ?_ | apply event_keeps | dsimp only [within_mk] | apply within_of | split

theorem tellGroup_keeps {c : Cmd} {s : State} (h : Within kb km kw kp kx z0 s) :
    Within kb km kw kp kx z0 (tellGroup c s) := by
  unfold tellGroup
  with_reducible repeat' first
      | intro _ | assumption | apply within_ite | apply failGroup_keeps | apply signalFailure_keeps

theorem countReceived_keeps {c : Cmd} {s : State} (h : Within kb km kw kp kx z0 s) :
    Within kb km kw kp kx z0 (countReceived c s) := by
  unfold countReceived
  with_reducible repeat' first
      | intro _ | assumption | apply modCmd_keeps | dsimp only [within_mk] | apply within_of | split

theorem complete_keeps {c : Cmd} {s : State} (h : Within kb false false false kx z0 s) :
    Within kb false false false kx z0 (complete c s) := by
  unfold complete
  with_reducible repeat' first
      | intro _ | assumption | apply countReceived_keeps | apply decideCmd_keeps | apply tellGroup_keeps
      | apply spoilOutputs_keeps | apply spoilOverlap_keeps | dsimp only [within_mk] | apply within_of | split

theorem execCompletionDecided_keeps {tag : Nat} {s : State} (h : Within kb false false false kx z0 s) :
    WithinO kb false false false kx z0 (execCompletionDecided tag s) := by
  unfold execCompletionDecided
  with_reducible repeat' first
      | intro _ | assumption | apply withinO_next | apply withinO_event | apply event_keeps | apply complete_keeps
      | dsimp only [within_mk] | apply within_of | split

theorem execProfileSwitchComplete_keeps {s : State} (h : Within kb false kw kp kx z0 s) :
    WithinO kb false kw kp kx z0 (execProfileSwitchComplete s) := by
  unfold execProfileSwitchComplete
  with_reducible repeat' first
      | intro _ | assumption | apply withinO_next | apply withinO_event | apply event_keeps | apply wake_keeps
      | apply odBump_keeps | apply odPut_keeps | dsimp only [within_mk] | apply within_of | split

end Sys2Proof.Machine
end

