-- ==== Sys2Proof/Laws/KeepsLinks.lean ====
section
/-! SUPPORT. What every operation keeps (see Keeps.lean): links, memory ports and the quiescent boundary. -/

namespace Sys2Proof.Machine

variable {kb km kw kp kx : Bool} {z0 : State}

theorem unreachable_keeps {src pkt : Nat} {s : State} (h : Within kb km kw kp kx z0 s) :
    Within kb km kw kp kx z0 (unreachable src pkt s) := by
  unfold unreachable
  with_reducible repeat' first
      | intro _ | assumption | apply within_ite | apply pushAck_keeps | dsimp only [within_mk] | apply within_of | split

theorem cutPacket_keeps {x : RxPacket} {s : State} (h : Within kb false false kp kx z0 s) :
    Within kb false false kp kx z0 (cutPacket x s) := by
  unfold cutPacket
  with_reducible repeat' first
      | intro _ | assumption | apply within_ite | apply spoil_keeps

theorem portDrop_keeps {p st : Nat} {s : State} (h : Within kb false false kp kx z0 s) :
    Within kb false false kp kx z0 (portDrop p st s) := by
  unfold portDrop
  with_reducible repeat' first
      | intro _ | assumption | apply within_ite | apply within_foldl | apply modLink_keeps | apply pushTx_keeps
      | apply cutPacket_keeps | apply drainHold_keeps | apply unreachable_keeps | apply endCmd_keeps | dsimp only [within_mk]
      | apply within_of

theorem portLost_keeps {p : Nat} {s : State} (h : Within kb false false kp kx z0 s) :
    Within kb false false kp kx z0 (portLost p s) := by
  unfold portLost
  with_reducible repeat' first
      | intro _ | assumption | apply within_ite | apply disarm_keeps | apply report_keeps | apply odBump_keeps
      | apply portDrop_keeps

theorem startTraining_keeps {p : Nat} {s : State} (h : Within kb km kw kp kx z0 s) :
    Within kb km kw kp kx z0 (startTraining p s) := by
  unfold startTraining
  with_reducible repeat' first
      | intro _ | assumption | apply within_ite | apply putLink_keeps

theorem codewords_keeps {p : Nat} {x : Fec} {inj : Bool} {s : State} (h : Within kb km kw kp kx z0 s) :
    Within kb km kw kp kx z0 (codewords p x inj s) := by
  unfold codewords
  with_reducible repeat' first
      | intro _ | assumption | apply within_ite | apply within_foldl | apply odBump_keeps | apply report_keeps

theorem checkFlit_keeps {p : Nat} {f : Flit} {fec : Fec} {s : State} (h : Within kb km kw kp kx z0 s) :
    Within kb km kw kp kx z0 (checkFlit p f fec s).2 := by
  unfold checkFlit
  with_reducible repeat' first
      | intro _ | assumption | apply within_ite | apply codewords_keeps | apply disarm_keeps | apply report_keeps
      | apply odBump_keeps | apply modLink_keeps | dsimp only [within_mk] | apply within_of | split
theorem checkFlit_keeps_eq {p : Nat} {f : Flit} {fec : Fec} {s : State} {a0} {t : State} (e : checkFlit p f fec s = (a0, t)) (h : Within kb km kw kp kx z0 s) :
    Within kb km kw kp kx z0 t := by
  have h' := checkFlit_keeps (p := p) (f := f) (fec := fec) (s := s) h
  rw [e] at h'
  exact h'

theorem flitFailed_keeps {p : Nat} {f : Flit} {s : State} (h : Within kb false false kp kx z0 s) :
    Within kb false false kp kx z0 (flitFailed p f s) := by
  unfold flitFailed
  with_reducible repeat' first
      | intro _ | assumption | apply within_ite | apply putLink_keeps | apply portLost_keeps

theorem takeCredits_keeps {p : Nat} {f : Flit} {s : State} (h : Within kb km kw kp kx z0 s) :
    Within kb km kw kp kx z0 (takeCredits p f s) := by
  unfold takeCredits
  with_reducible repeat' first
      | intro _ | assumption | apply within_ite | apply modLink_keeps

theorem carryIn_keeps {src a : Nat} {bs : List Byte} {bad prio : Bool} {s : State} (h : Within kb false kw kp kx z0 s) :
    Within kb false kw kp kx z0 (carryIn src a bs bad prio s) := by
  unfold carryIn
  with_reducible repeat' first
      | intro _ | assumption | apply hostWrite_keeps | apply noteTables_keeps | apply collReceive_keeps
      | dsimp only [within_mk] | apply within_of

theorem noteReceipt_keeps {p idx : Nat} {x : TxFlit} {s : State} (h : Within kb km kw kp kx z0 s) :
    Within kb km kw kp kx z0 (noteReceipt p idx x s) := by
  unfold noteReceipt
  with_reducible repeat' first
      | intro _ | assumption | apply within_ite | apply pushAck_keeps | apply putLink_keeps | dsimp only [within_mk]
      | apply within_of | split

theorem deliverHost_keeps {p idx : Nat} {x : TxFlit} {s : State} (h : Within kb false false kp kx z0 s) :
    Within kb false false kp kx z0 (deliverHost p idx x s) := by
  unfold deliverHost
  with_reducible repeat' first
      | intro _ | assumption | apply within_ite | apply carryIn_keeps | apply pushAck_keeps | apply modLink_keeps
      | apply cutPacket_keeps | dsimp only [within_mk] | apply within_of | split

theorem takeAck_keeps {pkt kind : Nat} {s : State} (h : Within kb km kw kp kx z0 s) :
    Within kb km kw kp kx z0 (takeAck pkt kind s) := by
  unfold takeAck
  with_reducible repeat' first
      | intro _ | assumption | apply within_ite | apply endCmd_keeps | apply modCmd_keeps | dsimp only [within_mk]
      | apply within_of | split

theorem deliver_keeps {p : Nat} {x : TxFlit} {s : State} (h : Within kb false false kp kx z0 s) :
    Within kb false false kp kx z0 (deliver p x s) := by
  unfold deliver
  with_reducible repeat' first
      | intro _ | assumption | apply within_ite | apply within_foldl | apply carryIn_keeps | apply freeBuffer_keeps
      | apply pushAck_keeps | apply takeAck_keeps | apply noteReceipt_keeps | apply drainHold_keeps | apply modLink_keeps
      | apply deliverHost_keeps | dsimp only [within_mk] | apply within_of | split

theorem forward_keeps {p : Nat} {x : TxFlit} {s : State} (h : Within kb km kw kp kx z0 s) :
    Within kb km kw kp kx z0 (forward p x s) := by
  unfold forward
  with_reducible repeat' first
      | intro _ | assumption | apply within_ite | apply freeBuffer_keeps | apply modLink_keeps | apply unreachable_keeps
      | apply pushTx_keeps | dsimp only [within_mk] | apply within_of | split

theorem sequenced_keeps {p : Nat} {f : Flit} {fec : Fec} {s : State} (h : Within kb false false kp kx z0 s) :
    Within kb false false kp kx z0 (sequenced p f fec s) := by
  unfold sequenced
  with_reducible repeat' first
      | intro _ | assumption | apply within_ite | apply checkFlit_keeps | refine checkFlit_keeps_eq (by assumption) ?_
      | apply flitFailed_keeps | apply takeCredits_keeps | apply putLink_keeps | apply deliver_keeps | apply forward_keeps
      | dsimp only [within_mk] | apply within_of | split

theorem linkLocal_keeps {p : Nat} {f : Flit} {fec : Fec} {act : BitVec 1920 → State → State} {s : State} (h : Within kb km kw kp kx z0 s)
    (ha : ∀ b t, Within kb km kw kp kx z0 t → Within kb km kw kp kx z0 (act b t)) : Within kb km kw kp kx z0 (linkLocal p f fec act s) := by
  unfold linkLocal
  split
  · rename_i e
    exact modLink_keeps (checkFlit_keeps_eq e h)
  · rename_i e
    exact ha _ _ (takeCredits_keeps (modLink_keeps (checkFlit_keeps_eq e h)))

theorem execNullFlit_keeps {p : Nat} {f : Flit} {fec : Fec} {s : State} (h : Within kb km kw kp kx z0 s) :
    WithinO kb km kw kp kx z0 (execNullFlit p f fec s) := by
  unfold execNullFlit
  with_reducible repeat' first
      | intro _ | assumption | apply withinO_next | apply withinO_event | apply event_keeps | apply linkLocal_keeps

theorem execHeadFlit_keeps {p : Nat} {f : Flit} {fec : Fec} {s : State} (h : Within kb false false kp kx z0 s) :
    WithinO kb false false kp kx z0 (execHeadFlit p f fec s) := by
  unfold execHeadFlit
  with_reducible repeat' first
      | intro _ | assumption | apply withinO_next | apply withinO_event | apply event_keeps | apply sequenced_keeps

theorem execDataFlit_keeps {p : Nat} {f : Flit} {fec : Fec} {s : State} (h : Within kb false false kp kx z0 s) :
    WithinO kb false false kp kx z0 (execDataFlit p f fec s) := by
  unfold execDataFlit
  with_reducible repeat' first
      | intro _ | assumption | apply withinO_next | apply withinO_event | apply event_keeps | apply sequenced_keeps

theorem execSmallFlit_keeps {p : Nat} {f : Flit} {fec : Fec} {s : State} (h : Within kb false false kp kx z0 s) :
    WithinO kb false false kp kx z0 (execSmallFlit p f fec s) := by
  unfold execSmallFlit
  with_reducible repeat' first
      | intro _ | assumption | apply withinO_next | apply withinO_event | apply event_keeps | apply sequenced_keeps

theorem execFlagFlit_keeps {p : Nat} {f : Flit} {fec : Fec} {s : State} (h : Within kb false false kp kx z0 s) :
    WithinO kb false false kp kx z0 (execFlagFlit p f fec s) := by
  unfold execFlagFlit
  with_reducible repeat' first
      | intro _ | assumption | apply withinO_next | apply withinO_event | apply event_keeps | apply sequenced_keeps

theorem execAckFlit_keeps {p : Nat} {f : Flit} {fec : Fec} {s : State} (h : Within kb false false kp kx z0 s) :
    WithinO kb false false kp kx z0 (execAckFlit p f fec s) := by
  unfold execAckFlit
  with_reducible repeat' first
      | intro _ | assumption | apply withinO_next | apply withinO_event | apply event_keeps | apply sequenced_keeps

theorem execAbortFlit_keeps {p : Nat} {f : Flit} {fec : Fec} {s : State} (h : Within kb false false kp kx z0 s) :
    WithinO kb false false kp kx z0 (execAbortFlit p f fec s) := by
  unfold execAbortFlit
  with_reducible repeat' first
      | intro _ | assumption | apply withinO_next | apply withinO_event | apply event_keeps | apply sequenced_keeps

theorem heartbeat_keeps {p : Nat} {b : BitVec 1920} {s : State} (h : Within kb false kw kp kx z0 s) :
    Within kb false kw kp kx z0 (heartbeat p b s) := by
  unfold heartbeat
  with_reducible repeat' first
      | intro _ | assumption | apply odPut_keeps | apply modLink_keeps | apply trace_keeps

theorem execHeartbeatFlit_keeps {p : Nat} {f : Flit} {fec : Fec} {s : State} (h : Within kb false kw kp kx z0 s) :
    WithinO kb false kw kp kx z0 (execHeartbeatFlit p f fec s) := by
  unfold execHeartbeatFlit
  with_reducible repeat' first
      | intro _ | assumption | apply withinO_next | apply withinO_event | apply event_keeps | apply linkLocal_keeps
      | apply heartbeat_keeps

theorem training_keeps {p : Nat} {t : TrainingFlit} {s : State} (h : Within kb km kw kp kx z0 s) :
    Within kb km kw kp kx z0 (training p t s) := by
  unfold training
  with_reducible repeat' first
      | intro _ | assumption | apply within_ite | apply odPut_keeps | apply putLink_keeps

theorem execCtrlTraining_keeps {p : Nat} {t : TrainingFlit} {s : State} (h : Within kb km kw kp kx z0 s) :
    WithinO kb km kw kp kx z0 (execCtrlTraining p t s) := by
  unfold execCtrlTraining
  with_reducible repeat' first
      | intro _ | assumption | apply withinO_next | apply withinO_event | apply event_keeps | apply training_keeps

theorem retryRequest_keeps {p seq : Nat} {s : State} (h : Within kb false false kp kx z0 s) :
    Within kb false false kp kx z0 (retryRequest p seq s) := by
  unfold retryRequest
  with_reducible repeat' first
      | intro _ | assumption | apply within_ite | apply putLink_keeps | apply portLost_keeps

theorem execCtrlRetryRequest_keeps {p seq : Nat} {s : State} (h : Within kb false false kp kx z0 s) :
    WithinO kb false false kp kx z0 (execCtrlRetryRequest p seq s) := by
  unfold execCtrlRetryRequest
  with_reducible repeat' first
      | intro _ | assumption | apply withinO_next | apply withinO_event | apply event_keeps | apply retryRequest_keeps

theorem wireFlit_keeps {p : Nat} {x : TxFlit} {seq : Nat} {plain : Bool} {s : State} (h : Within kb km kw kp kx z0 s) :
    Within kb km kw kp kx z0 (wireFlit p x seq plain s).2 := by
  unfold wireFlit
  with_reducible repeat' first
      | intro _ | assumption | apply within_ite | apply putLink_keeps
theorem wireFlit_keeps_eq {p : Nat} {x : TxFlit} {seq : Nat} {plain : Bool} {s : State} {a0} {t : State} (e : wireFlit p x seq plain s = (a0, t)) (h : Within kb km kw kp kx z0 s) :
    Within kb km kw kp kx z0 t := by
  have h' := wireFlit_keeps (p := p) (x := x) (seq := seq) (plain := plain) (s := s) h
  rw [e] at h'
  exact h'

theorem sendSequenced_keeps {p : Nat} {x : TxFlit} {s : State} (h : Within kb km kw kp kx z0 s) :
    Within kb km kw kp kx z0 (sendSequenced p x s) := by
  unfold sendSequenced
  with_reducible repeat' first
      | intro _ | assumption | apply within_ite | apply within_foldl | apply wireFlit_keeps
      | refine wireFlit_keeps_eq (by assumption) ?_ | apply modLink_keeps | apply odBump_keeps | apply freeBuffer_keeps
      | dsimp only [within_mk] | apply within_of

theorem resendFlit_keeps {p : Nat} {x : SentFlit} {s : State} (h : Within kb km kw kp kx z0 s) :
    Within kb km kw kp kx z0 (resendFlit p x s) := by
  unfold resendFlit
  with_reducible repeat' first
      | intro _ | assumption | apply within_ite | apply putLink_keeps

theorem flitSlot_keeps {p : Nat} {s : State} (h : Within kb km kw kp kx z0 s) :
    Within kb km kw kp kx z0 (flitSlot p s) := by
  unfold flitSlot
  with_reducible repeat' first
      | intro _ | assumption | apply within_ite | apply wireFlit_keeps | refine wireFlit_keeps_eq (by assumption) ?_
      | apply putLink_keeps | apply odBump_keeps | apply resendFlit_keeps | apply sendSequenced_keeps
      | dsimp only [within_mk] | apply within_of | split

theorem execFlitSlot_keeps {p : Nat} {s : State} (h : Within kb km kw kp kx z0 s) :
    WithinO kb km kw kp kx z0 (execFlitSlot p s) := by
  unfold execFlitSlot
  with_reducible repeat' first
      | intro _ | assumption | apply within_ite | apply withinO_next | apply withinO_event | apply event_keeps
      | apply flitSlot_keeps | apply apexProgress_keeps

theorem execHeartbeatSend_keeps {p : Nat} {s : State} (h : Within kb km kw kp kx z0 s) :
    WithinO kb km kw kp kx z0 (execHeartbeatSend p s) := by
  unfold execHeartbeatSend
  with_reducible repeat' first
      | intro _ | assumption | apply withinO_next | apply withinO_event | apply event_keeps | apply putLink_keeps

theorem execRetryRequestResend_keeps {p : Nat} {s : State} (h : Within kb km kw kp kx z0 s) :
    WithinO kb km kw kp kx z0 (execRetryRequestResend p s) := by
  unfold execRetryRequestResend
  with_reducible repeat' first
      | intro _ | assumption | apply withinO_next | apply withinO_event | apply event_keeps | apply putLink_keeps

theorem execHbTimeout_keeps {p : Nat} {s : State} (h : Within kb false false kp kx z0 s) :
    WithinO kb false false kp kx z0 (execHbTimeout p s) := by
  unfold execHbTimeout
  with_reducible repeat' first
      | intro _ | assumption | apply withinO_next | apply withinO_event | apply event_keeps | apply portLost_keeps

theorem execE2eTimeout_keeps {tag : Nat} {s : State} (h : Within kb km kw kp kx z0 s) :
    WithinO kb km kw kp kx z0 (execE2eTimeout tag s) := by
  unfold execE2eTimeout
  with_reducible repeat' first
      | intro _ | assumption | apply withinO_next | apply withinO_event | apply event_keeps | apply endCmd_keeps
      | dsimp only [within_mk] | apply within_of | split

theorem execTrainingTimeout_keeps {p : Nat} {s : State} (h : Within kb km kw kp kx z0 s) :
    WithinO kb km kw kp kx z0 (execTrainingTimeout p s) := by
  unfold execTrainingTimeout
  with_reducible repeat' first
      | intro _ | assumption | apply withinO_next | apply withinO_event | apply event_keeps | apply putLink_keeps

theorem execPhyReady_keeps {p : Nat} {s : State} (h : Within kb km kw kp kx z0 s) :
    WithinO kb km kw kp kx z0 (execPhyReady p s) := by
  unfold execPhyReady
  with_reducible repeat' first
      | intro _ | assumption | apply within_ite | apply withinO_next | apply withinO_event | apply putLink_keeps
      | apply event_keeps | apply startTraining_keeps

theorem execPhyLockLoss_keeps {p : Nat} {s : State} (h : Within kb false false kp kx z0 s) :
    WithinO kb false false kp kx z0 (execPhyLockLoss p s) := by
  unfold execPhyLockLoss
  with_reducible repeat' first
      | intro _ | assumption | apply within_ite | apply withinO_next | apply withinO_event | apply putLink_keeps
      | apply event_keeps | apply portLost_keeps

theorem arrivalPresent_keeps {b e : Nat} {a : Arrival} {s : State} (h : Within kb km false kp kx z0 s) :
    Within kb km false kp kx z0 (arrivalPresent b e a s) := by
  unfold arrivalPresent
  with_reducible repeat' first
      | intro _ | assumption | apply within_ite | apply modBlock_keeps | apply present_keeps | dsimp only [within_mk]
      | apply within_of | apply within_of_w

theorem execArrivalTilePresent_keeps {b entry : Nat} {s : State} (h : Within kb km false kp kx z0 s) :
    WithinO kb km false kp kx z0 (execArrivalTilePresent b entry s) := by
  unfold execArrivalTilePresent
  with_reducible repeat' first
      | intro _ | assumption | apply withinO_next | apply withinO_event | apply event_keeps | apply arrivalPresent_keeps
      | dsimp only [within_mk] | apply within_of | split

theorem issueRequest_keeps {n : Nat} {q : MemReq} {s : State} (h : Within kb km kw kp kx z0 s) :
    Within kb km kw kp kx z0 (issueRequest n q s) := by
  unfold issueRequest
  with_reducible repeat' first
      | intro _ | assumption | apply within_ite | apply putMport_keeps | apply unstall_keeps | dsimp only [within_mk]
      | apply within_of | split

theorem execMemRequestIssue_keeps {n : Nat} {s : State} (h : Within kb km kw kp kx z0 s) :
    WithinO kb km kw kp kx z0 (execMemRequestIssue n s) := by
  unfold execMemRequestIssue
  with_reducible repeat' first
      | intro _ | assumption | apply withinO_next | apply withinO_event | apply event_keeps | apply issueRequest_keeps
      | dsimp only [within_mk] | apply within_of | split

theorem execMemReqCredit_keeps {n : Nat} {s : State} (h : Within kb km kw kp kx z0 s) :
    WithinO kb km kw kp kx z0 (execMemReqCredit n s) := by
  unfold execMemReqCredit
  with_reducible repeat' first
      | intro _ | assumption | apply withinO_next | apply withinO_event | apply event_keeps | apply putMport_keeps

theorem fillCache_keeps {kv : Bool} {r l : Nat} {bs : List Byte} {bad : Nat} {s : State} (h : Within kb km kw kp kx z0 s) :
    Within kb km kw kp kx z0 (fillCache kv r l bs bad s) := by
  unfold fillCache
  with_reducible repeat' first
      | intro _ | assumption | apply within_ite | apply putRegion_keeps

theorem deliverLine_keeps {q : MemReq} {bs : List Byte} {bad : Nat} {failed : Bool} {s : State} (h : Within kb km kw kp kx z0 s) :
    Within kb km kw kp kx z0 (deliverLine q bs bad failed s) := by
  unfold deliverLine
  with_reducible repeat' first
      | intro _ | assumption | apply modCmd_keeps | apply stagedNow_keeps | apply fillCache_keeps | apply modBlock_keeps
      | dsimp only [within_mk] | apply within_of | split

theorem failRead_keeps {n : Nat} {o : Outst} {inj : Bool} {s : State} (h : Within kb km kw kp kx z0 s) :
    Within kb km kw kp kx z0 (failRead n o inj s) := by
  unfold failRead
  with_reducible repeat' first
      | intro _ | assumption | apply report_keeps | apply deliverLine_keeps

theorem readDone_keeps {n : Nat} {o : Outst} {status poison : Nat} {data : BitVec 1024} {par : BitVec 16} {s : State} (h : Within kb false kw kp kx z0 s) :
    Within kb false kw kp kx z0 (readDone n o status poison data par s) := by
  have hm {bs : List Byte} {m : List Nat} {t : State} (ht : Within kb false kw kp kx z0 t) : Within kb false kw kp kx z0 { t with mem := memWrite o.req.addr bs t.mem, memPoison := m } :=
    ⟨memWrite_wf ht.1, ht.2, ht.3, ht.4, ht.5.offM⟩
  have h1 : Within kb false kw kp kx z0 (if (fires 0x29 n (putMport n { mportAt s n with reads := (mportAt s n).reads.filter fun x => x.id != o.id } s)).isSome then
      disarm 0x29 n (putMport n { mportAt s n with reads := (mportAt s n).reads.filter fun x => x.id != o.id } s)
      else putMport n { mportAt s n with reads := (mportAt s n).reads.filter fun x => x.id != o.id } s) :=
    within_ite (disarm_keeps (putMport_keeps h)) (putMport_keeps h)
  unfold readDone
  dsimp only at h1 ⊢
  split
  · exact putMport_keeps h
  · split
    · exact failRead_keeps h1
    · exact deliverLine_keeps (hm (within_ite (within_ite (disarm_keeps h1) h1) (report_keeps (within_ite (disarm_keeps h1) h1))))

theorem memReadResponse_keeps {n : Nat} {rsp : Word} {data : BitVec 1024} {par : BitVec 16} {s : State} (h : Within kb false kw kp kx z0 s) :
    Within kb false kw kp kx z0 (memReadResponse n rsp data par s) := by
  unfold memReadResponse
  with_reducible repeat' first
      | intro _ | assumption | apply within_ite | apply readDone_keeps | apply report_keeps | dsimp only [within_mk]
      | apply within_of | split

theorem execMemReadResponse_keeps {n : Nat} {rsp : Word} {data : BitVec 1024} {par : BitVec 16} {s : State} (h : Within kb false kw kp kx z0 s) :
    WithinO kb false kw kp kx z0 (execMemReadResponse n rsp data par s) := by
  unfold execMemReadResponse
  with_reducible repeat' first
      | intro _ | assumption | apply withinO_next | apply withinO_event | apply event_keeps | apply memReadResponse_keeps

theorem writeDone_keeps {n : Nat} {o : Outst} {failed inj : Bool} {s : State} (h : Within kb km kw false kx z0 s) :
    Within kb km kw false kx z0 (writeDone n o failed inj s) := by
  unfold writeDone
  with_reducible repeat' first
      | intro _ | assumption | apply within_ite | apply putMport_keeps | apply report_keeps | apply modCmd_keeps
      | apply endCmd_keeps | dsimp only [within_mk] | apply within_of | apply within_of_p | split

theorem memWriteResponse_keeps {n : Nat} {rsp : BitVec 16} {s : State} (h : Within kb km kw false kx z0 s) :
    Within kb km kw false kx z0 (memWriteResponse n rsp s) := by
  unfold memWriteResponse
  with_reducible repeat' first
      | intro _ | assumption | apply within_ite | apply disarm_keeps | apply writeDone_keeps | apply report_keeps
      | dsimp only [within_mk] | apply within_of | split

theorem execMemWriteResponse_keeps {n : Nat} {rsp : BitVec 16} {s : State} (h : Within kb km kw false kx z0 s) :
    WithinO kb km kw false kx z0 (execMemWriteResponse n rsp s) := by
  unfold execMemWriteResponse
  with_reducible repeat' first
      | intro _ | assumption | apply withinO_next | apply withinO_event | apply event_keeps | apply memWriteResponse_keeps

theorem memTimeout_keeps {n : Nat} {o : Outst} {s : State} (h : Within kb km kw false kx z0 s) :
    Within kb km kw false kx z0 (memTimeout n o s) := by
  unfold memTimeout
  with_reducible repeat' first
      | intro _ | assumption | apply within_ite | apply writeDone_keeps | apply putMport_keeps | apply failRead_keeps

theorem execMemRespTimeout_keeps {n : Nat} {wr : Bool} {id : Nat} {s : State} (h : Within kb km kw false kx z0 s) :
    WithinO kb km kw false kx z0 (execMemRespTimeout n wr id s) := by
  unfold execMemRespTimeout
  with_reducible repeat' first
      | intro _ | assumption | apply within_ite | apply withinO_next | apply withinO_event | apply event_keeps
      | apply memTimeout_keeps | dsimp only [within_mk] | apply within_of | split

theorem afterRead_keeps {idx sub : Nat} {s : State} (h : Within kb km kw kp kx z0 s) :
    Within kb km kw kp kx z0 (afterRead idx sub s) := by
  unfold afterRead
  with_reducible repeat' first
      | intro _ | assumption | apply within_ite | apply drawn_keeps

theorem boundaryEvent_keeps {s : State} (h : Within kb km kw kp kx z0 s) :
    Within kb km kw kp kx z0 (boundaryEvent s) := by
  unfold boundaryEvent
  with_reducible repeat' first
      | intro _ | assumption | apply report_keeps

theorem applyNode_keeps {old : List (Nat × Nat)} {ws : List RwqWrite} {s : State} (h : Within kb km kw kp kx z0 s) :
    Within kb km kw kp kx z0 (applyNode old ws s) := by
  unfold applyNode
  with_reducible repeat' first
      | intro _ | assumption | apply within_ite | apply boundaryEvent_keeps | dsimp only [within_mk] | apply within_of

theorem applyGroup_keeps {g : Nat} {s : State} (h : Within kb false false kp kx z0 s) :
    Within kb false false kp kx z0 (applyGroup g s) := by
  unfold applyGroup
  with_reducible repeat' first
      | intro _ | assumption | apply within_ite | apply putGroup_keeps | apply resetFlag_keeps

theorem applyGroups_keeps {ws : List RwqWrite} {s : State} (h : Within kb false false kp kx z0 s) :
    Within kb false false kp kx z0 (applyGroups ws s) := by
  unfold applyGroups
  with_reducible repeat' first
      | intro _ | assumption | apply within_ite | apply within_foldl | apply applyGroup_keeps

theorem applyMap_keeps {old : List (Nat × Nat)} {ws : List RwqWrite} {s : State} (h : Within kb false false kp kx z0 s) :
    Within kb false false kp kx z0 (applyMap old ws s) := by
  unfold applyMap
  with_reducible repeat' first
      | intro _ | assumption | apply within_ite | apply within_foldl | apply boundaryEvent_keeps | apply odPut_keeps
      | apply resetFlag_keeps | dsimp only [within_mk] | apply within_of

theorem applyPool_keeps {old : State} {ws : List RwqWrite} {p : Nat} {s : State} (h : Within kb false kw false kx z0 old) (h1 : Within kb false kw false kx z0 s) :
    Within kb false kw false kx z0 (applyPool old ws p s) := by
  unfold applyPool
  with_reducible repeat' first
      | intro _ | assumption | apply within_ite | apply odPut_keeps | apply initPool_keeps | dsimp only [within_mk]
      | apply within_of | apply within_of_p

theorem applyLeaves_keeps {ws : List RwqWrite} {s : State} (h : Within kb false kw false kx z0 s) :
    Within kb false kw false kx z0 (applyLeaves ws s) := by
  unfold applyLeaves
  with_reducible repeat' first
      | intro _ | assumption | apply within_ite | apply initLeaves_keeps | dsimp only [within_mk] | apply within_of
      | apply within_of_p

theorem applyRoots_keeps {ws : List RwqWrite} {s : State} (h : Within kb km kw false kx z0 s) :
    Within kb km kw false kx z0 (applyRoots ws s) := by
  unfold applyRoots
  with_reducible repeat' first
      | intro _ | assumption | apply within_ite | dsimp only [within_mk] | apply within_of | apply within_of_p

theorem applyProfile_keeps {ws : List RwqWrite} {s : State} (h : Within kb km kw kp kx z0 s) :
    Within kb km kw kp kx z0 (applyProfile ws s) := by
  unfold applyProfile
  with_reducible repeat' first
      | intro _ | assumption | apply within_ite | apply invalidateCaches_keeps | dsimp only [within_mk] | apply within_of

theorem applyPort_keeps {ws : List RwqWrite} {p : Nat} {s : State} (h : Within kb false false kp kx z0 s) :
    Within kb false false kp kx z0 (applyPort ws p s) := by
  unfold applyPort
  with_reducible repeat' first
      | intro _ | assumption | apply within_ite | apply portDrop_keeps | apply startTraining_keeps

theorem applyRetire_keeps {ws : List RwqWrite} {s : State} (h : Within kb km kw kp kx z0 s) :
    Within kb km kw kp kx z0 (applyRetire ws s) := by
  unfold applyRetire
  with_reducible repeat' first
      | intro _ | assumption | apply within_ite | apply within_foldl | apply retireBlock_keeps | apply enterFault_keeps

theorem boundary_keeps {s : State} (h : Within kb false false false kx z0 s) :
    Within kb false false false kx z0 (boundary s) := by
  unfold boundary
  with_reducible repeat' first
      | intro _ | assumption | apply within_ite | apply within_foldl | apply odBump_keeps | apply applyMap_keeps
      | apply applyGroups_keeps | apply applyNode_keeps | apply applyRoots_keeps | apply applyLeaves_keeps
      | apply applyPool_keeps | apply applyProfile_keeps | apply applyPort_keeps | apply topUp_keeps
      | apply applyRetire_keeps | apply setSt_keeps | exact Nat.le_of_ble_eq_true rfl | dsimp only [within_mk]
      | apply within_of

theorem execQuiescentBoundary_keeps {s : State} (h : Within kb false false false kx z0 s) :
    WithinO kb false false false kx z0 (execQuiescentBoundary s) := by
  unfold execQuiescentBoundary
  with_reducible repeat' first
      | intro _ | assumption | apply withinO_next | apply withinO_event | apply event_keeps | apply boundary_keeps

theorem closeDebug_keeps {s : State} (h : Within kb km kw kp false z0 s) :
    Within kb km kw kp false z0 (closeDebug s) := by
  unfold closeDebug
  with_reducible repeat' first
      | intro _ | assumption | apply within_ite | dsimp only [within_mk] | apply within_of | apply within_of_x

theorem endUnlock_keeps {s : State} (h : Within kb km kw kp false z0 s) :
    Within kb km kw kp false z0 (endUnlock s) := by
  unfold endUnlock
  with_reducible repeat' first
      | intro _ | assumption | apply within_ite | apply closeDebug_keeps | dsimp only [within_mk] | apply within_of
      | apply within_of_x

theorem nextChallenge_keeps {s : State} (h : Within kb km kw kp false z0 s) :
    Within kb km kw kp false z0 (nextChallenge s) := by
  unfold nextChallenge
  with_reducible repeat' first
      | intro _ | assumption | apply drawn_keeps | dsimp only [within_mk] | apply within_of | apply within_of_x

theorem unlockResponse_keeps {bs : List Byte} {s : State} (h : Within kb km kw kp false z0 s) :
    Within kb km kw kp false z0 (unlockResponse bs s).2 := by
  unfold unlockResponse
  with_reducible repeat' first
      | intro _ | assumption | apply within_ite | apply closeDebug_keeps | apply nextChallenge_keeps | apply odBump_keeps
      | apply report_keeps | dsimp only [within_mk] | apply within_of | apply within_of_x | split
theorem unlockResponse_keeps_eq {bs : List Byte} {s : State} {a0} {t : State} (e : unlockResponse bs s = (a0, t)) (h : Within kb km kw kp false z0 s) :
    Within kb km kw kp false z0 t := by
  have h' := unlockResponse_keeps (bs := bs) (s := s) h
  rw [e] at h'
  exact h'

theorem funcWrite_keeps {v : Nat} {s : State} (h : Within kb km kw kp kx z0 s) :
    Within kb km kw kp kx z0 (funcWrite v s) := by
  unfold funcWrite
  with_reducible repeat' first
      | intro _ | assumption | apply within_foldl | apply endCmd_keeps | apply odPut_keeps

theorem stateRequest_keeps {v : Nat} {s : State} (h : Within kb false kw kp kx z0 s) :
    Within kb false kw kp kx z0 (stateRequest v s) := by
  unfold stateRequest
  with_reducible repeat' first
      | intro _ | assumption | apply within_ite | apply setSt_keeps | apply setTrim_keeps | apply topUp_keeps
      | apply wake_keeps | exact Nat.le_of_ble_eq_true rfl | dsimp only [within_mk] | apply within_of

theorem errorAck_keeps {n : Nat} {s : State} (h : Within kb km kw kp kx z0 s) :
    Within kb km kw kp kx z0 (errorAck n s) := by
  unfold errorAck
  with_reducible repeat' first
      | intro _ | assumption | apply within_ite | dsimp only [within_mk] | apply within_of

theorem keyWrite_keeps {p slot : Nat} {bs : List Byte} {s : State} (h : Within kb km kw kp kx z0 s) :
    Within kb km kw kp kx z0 (keyWrite p slot bs s) := by
  unfold keyWrite
  with_reducible repeat' first
      | intro _ | assumption | apply within_ite | apply modLink_keeps | apply startTraining_keeps

theorem keyClear_keeps {p v : Nat} {s : State} (h : Within kb km kw kp kx z0 s) :
    Within kb km kw kp kx z0 (keyClear p v s) := by
  unfold keyClear
  with_reducible repeat' first
      | intro _ | assumption | apply modLink_keeps

theorem applyWrite_keeps {idx sub : Nat} {bs : List Byte} {s : State} (h : Within kb false false false false z0 s) :
    Within kb false false false false z0 (applyWrite idx sub bs s).2 := by
  unfold applyWrite
  with_reducible repeat' first
      | intro _ | assumption | apply within_ite | apply stateRequest_keeps | apply funcWrite_keeps | apply odPut_keeps
      | apply resetFlag_keeps | apply renewTable_keeps | apply dropNote_keeps | apply startTraining_keeps
      | apply errorAck_keeps | apply modBlock_keeps | apply keyWrite_keeps | apply keyClear_keeps
      | apply unlockResponse_keeps | refine unlockResponse_keeps_eq (by assumption) ?_ | apply endUnlock_keeps
      | dsimp only [within_mk] | apply within_of | apply within_of_x | split
theorem applyWrite_keeps_eq {idx sub : Nat} {bs : List Byte} {s : State} {a0} {t : State} (e : applyWrite idx sub bs s = (a0, t)) (h : Within kb false false false false z0 s) :
    Within kb false false false false z0 t := by
  have h' := applyWrite_keeps (idx := idx) (sub := sub) (bs := bs) (s := s) h
  rw [e] at h'
  exact h'

theorem queueWrite_keeps {idx sub v : Nat} {s : State} (h : Within kb false false false kx z0 s) :
    Within kb false false false kx z0 (queueWrite idx sub v s) := by
  unfold queueWrite
  with_reducible repeat' first
      | intro _ | assumption | apply within_ite | apply boundary_keeps | dsimp only [within_mk] | apply within_of

theorem odWrite_keeps {idx sub : Nat} {bs : List Byte} {s : State} (h : Within kb false false false false z0 s) :
    Within kb false false false false z0 (odWrite idx sub bs s).2 := by
  unfold odWrite
  with_reducible repeat' first
      | intro _ | assumption | apply within_ite | apply queueWrite_keeps | apply applyWrite_keeps
      | refine applyWrite_keeps_eq (by assumption) ?_ | dsimp only [within_mk] | apply within_of | split
theorem odWrite_keeps_eq {idx sub : Nat} {bs : List Byte} {s : State} {a0} {t : State} (e : odWrite idx sub bs s = (a0, t)) (h : Within kb false false false false z0 s) :
    Within kb false false false false z0 t := by
  have h' := odWrite_keeps (idx := idx) (sub := sub) (bs := bs) (s := s) h
  rw [e] at h'
  exact h'

theorem writeEntryReq_keeps {idx sub : Nat} {bs : List Byte} {s : State} (h : Within kb false false false false z0 s) :
    Within kb false false false false z0 (writeEntryReq idx sub bs s) := by
  unfold writeEntryReq
  with_reducible repeat' first
      | intro _ | assumption | apply odWrite_keeps | refine odWrite_keeps_eq (by assumption) ?_ | dsimp only [within_mk]
      | apply within_of

theorem writeRow_keeps {idx sub : Nat} {bs : List Byte} {s : State} (h : Within kb false false false false z0 s) :
    WithinO kb false false false false z0 (writeRow idx sub bs s) := by
  unfold writeRow
  with_reducible repeat' first
      | intro _ | assumption | apply withinO_next | apply withinO_event | apply event_keeps | apply writeEntryReq_keeps

theorem execDictWrite_keeps {idx sub : Nat} {bs : List Byte} {s : State} (h : Within kb false false false false z0 s) :
    WithinO kb false false false false z0 (execDictWrite idx sub bs s) := by
  unfold execDictWrite
  with_reducible repeat' first
      | intro _ | assumption | apply withinO_next | apply withinO_event | apply writeRow_keeps

theorem execFuncDisable_keeps {mask : BitVec 16} {s : State} (h : Within kb false false false false z0 s) :
    WithinO kb false false false false z0 (execFuncDisable mask s) := by
  unfold execFuncDisable
  with_reducible repeat' first
      | intro _ | assumption | apply withinO_next | apply withinO_event | apply writeRow_keeps

theorem execRequestOperational_keeps {s : State} (h : Within kb false false false false z0 s) :
    WithinO kb false false false false z0 (execRequestOperational s) := by
  unfold execRequestOperational
  with_reducible repeat' first
      | intro _ | assumption | apply withinO_next | apply withinO_event | apply writeRow_keeps

theorem execRequestStopped_keeps {s : State} (h : Within kb false false false false z0 s) :
    WithinO kb false false false false z0 (execRequestStopped s) := by
  unfold execRequestStopped
  with_reducible repeat' first
      | intro _ | assumption | apply withinO_next | apply withinO_event | apply writeRow_keeps

theorem execBiasCommit_keeps {v : Nat} {s : State} (h : Within kb false false false false z0 s) :
    WithinO kb false false false false z0 (execBiasCommit v s) := by
  unfold execBiasCommit
  with_reducible repeat' first
      | intro _ | assumption | apply withinO_next | apply withinO_event | apply writeRow_keeps

theorem execRouteCommit_keeps {v : Nat} {s : State} (h : Within kb false false false false z0 s) :
    WithinO kb false false false false z0 (execRouteCommit v s) := by
  unfold execRouteCommit
  with_reducible repeat' first
      | intro _ | assumption | apply withinO_next | apply withinO_event | apply writeRow_keeps

theorem execFlagReset_keeps {slot : Nat} {s : State} (h : Within kb false false false false z0 s) :
    WithinO kb false false false false z0 (execFlagReset slot s) := by
  unfold execFlagReset
  with_reducible repeat' first
      | intro _ | assumption | apply withinO_next | apply withinO_event | apply writeRow_keeps

theorem execPortRetrain_keeps {p v : Nat} {s : State} (h : Within kb false false false false z0 s) :
    WithinO kb false false false false z0 (execPortRetrain p v s) := by
  unfold execPortRetrain
  with_reducible repeat' first
      | intro _ | assumption | apply withinO_next | apply withinO_event | apply writeRow_keeps

theorem execErrorAck_keeps {n : Nat} {s : State} (h : Within kb false false false false z0 s) :
    WithinO kb false false false false z0 (execErrorAck n s) := by
  unfold execErrorAck
  with_reducible repeat' first
      | intro _ | assumption | apply withinO_next | apply withinO_event | apply writeRow_keeps

theorem execInject_keeps {v : Word} {s : State} (h : Within kb false false false false z0 s) :
    WithinO kb false false false false z0 (execInject v s) := by
  unfold execInject
  with_reducible repeat' first
      | intro _ | assumption | apply withinO_next | apply withinO_event | apply writeRow_keeps

theorem execSpRestored_keeps {b : Nat} {s : State} (h : Within kb false false false false z0 s) :
    WithinO kb false false false false z0 (execSpRestored b s) := by
  unfold execSpRestored
  with_reducible repeat' first
      | intro _ | assumption | apply withinO_next | apply withinO_event | apply writeRow_keeps

theorem execPoolShrink_keeps {p target : Nat} {s : State} (h : Within kb false false false false z0 s) :
    WithinO kb false false false false z0 (execPoolShrink p target s) := by
  unfold execPoolShrink
  with_reducible repeat' first
      | intro _ | assumption | apply withinO_next | apply withinO_event | apply writeRow_keeps

theorem execAccSelect_keeps {v : Word} {s : State} (h : Within kb false false false false z0 s) :
    WithinO kb false false false false z0 (execAccSelect v s) := by
  unfold execAccSelect
  with_reducible repeat' first
      | intro _ | assumption | apply withinO_next | apply withinO_event | apply writeRow_keeps

theorem execLinkKeySlot_keeps {p slot : Nat} {bs : List Byte} {s : State} (h : Within kb false false false false z0 s) :
    WithinO kb false false false false z0 (execLinkKeySlot p slot bs s) := by
  unfold execLinkKeySlot
  with_reducible repeat' first
      | intro _ | assumption | apply withinO_next | apply withinO_event | apply writeRow_keeps

theorem execTxKeySlot_keeps {p v : Nat} {s : State} (h : Within kb false false false false z0 s) :
    WithinO kb false false false false z0 (execTxKeySlot p v s) := by
  unfold execTxKeySlot
  with_reducible repeat' first
      | intro _ | assumption | apply withinO_next | apply withinO_event | apply writeRow_keeps

theorem execKeyClear_keeps {p v : Nat} {s : State} (h : Within kb false false false false z0 s) :
    WithinO kb false false false false z0 (execKeyClear p v s) := by
  unfold execKeyClear
  with_reducible repeat' first
      | intro _ | assumption | apply withinO_next | apply withinO_event | apply writeRow_keeps

theorem execUnlockResponse_keeps {bs : List Byte} {s : State} (h : Within kb false false false false z0 s) :
    WithinO kb false false false false z0 (execUnlockResponse bs s) := by
  unfold execUnlockResponse
  with_reducible repeat' first
      | intro _ | assumption | apply withinO_next | apply withinO_event | apply writeRow_keeps

theorem execRelock_keeps {v : Nat} {s : State} (h : Within kb false false false false z0 s) :
    WithinO kb false false false false z0 (execRelock v s) := by
  unfold execRelock
  with_reducible repeat' first
      | intro _ | assumption | apply withinO_next | apply withinO_event | apply writeRow_keeps

theorem execUnlockHoldEnd_keeps {s : State} (h : Within kb km kw kp false z0 s) :
    WithinO kb km kw kp false z0 (execUnlockHoldEnd s) := by
  unfold execUnlockHoldEnd
  with_reducible repeat' first
      | intro _ | assumption | apply withinO_next | apply withinO_event | apply event_keeps | dsimp only [within_mk]
      | apply within_of | apply within_of_x

theorem execUnlockDurationEnd_keeps {s : State} (h : Within kb km kw kp false z0 s) :
    WithinO kb km kw kp false z0 (execUnlockDurationEnd s) := by
  unfold execUnlockDurationEnd
  with_reducible repeat' first
      | intro _ | assumption | apply withinO_next | apply withinO_event | apply event_keeps | apply endUnlock_keeps

end Sys2Proof.Machine
end

