-- ==== Sys2Proof/Laws/KeepsManage.lean ====
section
/-! SUPPORT. What every operation keeps (see Keeps.lean): the management plane and recovery. -/

namespace Sys2Proof.Machine

variable {kb km kw kp kx : Bool} {z0 : State}

theorem putSession_keeps {tr : Transport} {x : Option Session} {s : State} (h : Within kb km kw kp kx z0 s) :
    Within kb km kw kp kx z0 (putSession tr x s) := by
  unfold putSession
  with_reducible repeat' first
      | intro _ | assumption | apply within_ite | dsimp only [within_mk] | apply within_of

theorem serveRead_keeps {ws : List Word} {s : State} (h : Within kb km kw kp kx z0 s) :
    Within kb km kw kp kx z0 (serveRead ws s).2 := by
  unfold serveRead
  with_reducible repeat' first
      | intro _ | assumption | dsimp only [within_mk] | apply within_of | split
theorem serveRead_keeps_eq {ws : List Word} {s : State} {a0} {t : State} (e : serveRead ws s = (a0, t)) (h : Within kb km kw kp kx z0 s) :
    Within kb km kw kp kx z0 t := by
  have h' := serveRead_keeps (ws := ws) (s := s) h
  rw [e] at h'
  exact h'

theorem serveWrite_keeps {ws : List Word} {s : State} (h : Within kb false false false false z0 s) :
    Within kb false false false false z0 (serveWrite ws s).2 := by
  unfold serveWrite
  with_reducible repeat' first
      | intro _ | assumption | apply within_ite | apply odWrite_keeps | refine odWrite_keeps_eq (by assumption) ?_
      | dsimp only [within_mk] | apply within_of | split
theorem serveWrite_keeps_eq {ws : List Word} {s : State} {a0} {t : State} (e : serveWrite ws s = (a0, t)) (h : Within kb false false false false z0 s) :
    Within kb false false false false z0 t := by
  have h' := serveWrite_keeps (ws := ws) (s := s) h
  rw [e] at h'
  exact h'

theorem readSegment_keeps {tr : Transport} {ws : List Word} {x : Session} {s : State} (h : Within kb km kw kp kx z0 s) :
    Within kb km kw kp kx z0 (readSegment tr ws x s).2 := by
  unfold readSegment
  with_reducible repeat' first
      | intro _ | assumption | apply within_ite | apply putSession_keeps
theorem readSegment_keeps_eq {tr : Transport} {ws : List Word} {x : Session} {s : State} {a0} {t : State} (e : readSegment tr ws x s = (a0, t)) (h : Within kb km kw kp kx z0 s) :
    Within kb km kw kp kx z0 t := by
  have h' := readSegment_keeps (tr := tr) (ws := ws) (x := x) (s := s) h
  rw [e] at h'
  exact h'

theorem serveSegRead_keeps {tr : Transport} {ws : List Word} {s : State} (h : Within kb km kw kp kx z0 s) :
    Within kb km kw kp kx z0 (serveSegRead tr ws s).2 := by
  unfold serveSegRead
  with_reducible repeat' first
      | intro _ | assumption | apply within_ite | apply putSession_keeps | apply readSegment_keeps
      | refine readSegment_keeps_eq (by assumption) ?_ | apply afterRead_keeps | dsimp only [within_mk] | apply within_of
      | split
theorem serveSegRead_keeps_eq {tr : Transport} {ws : List Word} {s : State} {a0} {t : State} (e : serveSegRead tr ws s = (a0, t)) (h : Within kb km kw kp kx z0 s) :
    Within kb km kw kp kx z0 t := by
  have h' := serveSegRead_keeps (tr := tr) (ws := ws) (s := s) h
  rw [e] at h'
  exact h'

theorem writeSegment_keeps {tr : Transport} {ws : List Word} {x : Session} {s : State} (h : Within kb false false false false z0 s) :
    Within kb false false false false z0 (writeSegment tr ws x s).2 := by
  unfold writeSegment
  with_reducible repeat' first
      | intro _ | assumption | apply within_ite | apply putSession_keeps | apply odWrite_keeps
      | refine odWrite_keeps_eq (by assumption) ?_ | dsimp only [within_mk] | apply within_of | split
theorem writeSegment_keeps_eq {tr : Transport} {ws : List Word} {x : Session} {s : State} {a0} {t : State} (e : writeSegment tr ws x s = (a0, t)) (h : Within kb false false false false z0 s) :
    Within kb false false false false z0 t := by
  have h' := writeSegment_keeps (tr := tr) (ws := ws) (x := x) (s := s) h
  rw [e] at h'
  exact h'

theorem serveSegWrite_keeps {tr : Transport} {ws : List Word} {s : State} (h : Within kb false false false false z0 s) :
    Within kb false false false false z0 (serveSegWrite tr ws s).2 := by
  unfold serveSegWrite
  with_reducible repeat' first
      | intro _ | assumption | apply within_ite | apply putSession_keeps | apply writeSegment_keeps
      | refine writeSegment_keeps_eq (by assumption) ?_ | dsimp only [within_mk] | apply within_of | split
theorem serveSegWrite_keeps_eq {tr : Transport} {ws : List Word} {s : State} {a0} {t : State} (e : serveSegWrite tr ws s = (a0, t)) (h : Within kb false false false false z0 s) :
    Within kb false false false false z0 t := by
  have h' := serveSegWrite_keeps (tr := tr) (ws := ws) (s := s) h
  rw [e] at h'
  exact h'

theorem serveSnapshot_keeps {ws : List Word} {s : State} (h : Within kb km kw kp kx z0 s) :
    Within kb km kw kp kx z0 (serveSnapshot ws s).2 := by
  unfold serveSnapshot
  with_reducible repeat' first
      | intro _ | assumption | apply within_ite | dsimp only [within_mk] | apply within_of | split
theorem serveSnapshot_keeps_eq {ws : List Word} {s : State} {a0} {t : State} (e : serveSnapshot ws s = (a0, t)) (h : Within kb km kw kp kx z0 s) :
    Within kb km kw kp kx z0 t := by
  have h' := serveSnapshot_keeps (ws := ws) (s := s) h
  rw [e] at h'
  exact h'

theorem serveDescribe_keeps {ws : List Word} {s : State} (h : Within kb km kw kp kx z0 s) :
    Within kb km kw kp kx z0 (serveDescribe ws s).2 := by
  unfold serveDescribe
  with_reducible repeat' first
      | intro _ | assumption | apply within_ite | dsimp only [within_mk] | apply within_of | split
theorem serveDescribe_keeps_eq {ws : List Word} {s : State} {a0} {t : State} (e : serveDescribe ws s = (a0, t)) (h : Within kb km kw kp kx z0 s) :
    Within kb km kw kp kx z0 t := by
  have h' := serveDescribe_keeps (ws := ws) (s := s) h
  rw [e] at h'
  exact h'

theorem serveCancel_keeps {tr : Transport} {ws : List Word} {s : State} (h : Within kb km kw kp kx z0 s) :
    Within kb km kw kp kx z0 (serveCancel tr ws s).2 := by
  unfold serveCancel
  with_reducible repeat' first
      | intro _ | assumption | apply within_ite | apply putSession_keeps | dsimp only [within_mk] | apply within_of | split
theorem serveCancel_keeps_eq {tr : Transport} {ws : List Word} {s : State} {a0} {t : State} (e : serveCancel tr ws s = (a0, t)) (h : Within kb km kw kp kx z0 s) :
    Within kb km kw kp kx z0 t := by
  have h' := serveCancel_keeps (tr := tr) (ws := ws) (s := s) h
  rw [e] at h'
  exact h'

theorem serveRequest_keeps {tr : Transport} {ws : List Word} {s : State} (h : Within kb false false false false z0 s) :
    Within kb false false false false z0 (serveRequest tr ws s).2 := by
  unfold serveRequest
  with_reducible repeat' first
      | intro _ | assumption | apply serveRead_keeps | refine serveRead_keeps_eq (by assumption) ?_ | apply serveWrite_keeps
      | refine serveWrite_keeps_eq (by assumption) ?_ | apply serveSegRead_keeps
      | refine serveSegRead_keeps_eq (by assumption) ?_ | apply serveSegWrite_keeps
      | refine serveSegWrite_keeps_eq (by assumption) ?_ | apply serveSnapshot_keeps
      | refine serveSnapshot_keeps_eq (by assumption) ?_ | apply serveDescribe_keeps
      | refine serveDescribe_keeps_eq (by assumption) ?_ | apply serveCancel_keeps
      | refine serveCancel_keeps_eq (by assumption) ?_ | dsimp only [within_mk] | apply within_of | split
theorem serveRequest_keeps_eq {tr : Transport} {ws : List Word} {s : State} {a0} {t : State} (e : serveRequest tr ws s = (a0, t)) (h : Within kb false false false false z0 s) :
    Within kb false false false false z0 t := by
  have h' := serveRequest_keeps (tr := tr) (ws := ws) (s := s) h
  rw [e] at h'
  exact h'

theorem frameCheck_keeps {ws : List Word} {s : State} (h : Within kb km kw kp kx z0 s) :
    Within kb km kw kp kx z0 (frameCheck ws s).2 := by
  unfold frameCheck
  with_reducible repeat' first
      | intro _ | assumption | apply within_ite | apply disarm_keeps | apply report_keeps
theorem frameCheck_keeps_eq {ws : List Word} {s : State} {a0} {t : State} (e : frameCheck ws s = (a0, t)) (h : Within kb km kw kp kx z0 s) :
    Within kb km kw kp kx z0 t := by
  have h' := frameCheck_keeps (ws := ws) (s := s) h
  rw [e] at h'
  exact h'

theorem serveFrame_keeps {tr : Transport} {ws : List Word} {s : State} (h : Within kb false false false false z0 s) :
    Within kb false false false false z0 (serveFrame tr ws s).2 := by
  unfold serveFrame
  with_reducible repeat' first
      | intro _ | assumption | apply within_ite | apply frameCheck_keeps | refine frameCheck_keeps_eq (by assumption) ?_
      | apply serveRequest_keeps | refine serveRequest_keeps_eq (by assumption) ?_ | dsimp only [within_mk] | apply within_of
      | split
theorem serveFrame_keeps_eq {tr : Transport} {ws : List Word} {s : State} {a0} {t : State} (e : serveFrame tr ws s = (a0, t)) (h : Within kb false false false false z0 s) :
    Within kb false false false false z0 t := by
  have h' := serveFrame_keeps (tr := tr) (ws := ws) (s := s) h
  rw [e] at h'
  exact h'

theorem sendMessage_keeps {m : McMsg} {body : List Byte} {s : State} (h : Within kb km kw kp kx z0 s) :
    Within kb km kw kp kx z0 (sendMessage m body s) := h

theorem serveControl_keeps {bs : List Byte} {s : State} (h : Within kb km kw kp kx z0 s) :
    Within kb km kw kp kx z0 (serveControl bs s).2 := by
  unfold serveControl
  with_reducible repeat' first
      | intro _ | assumption | apply within_ite | dsimp only [within_mk] | apply within_of | split
theorem serveControl_keeps_eq {bs : List Byte} {s : State} {a0} {t : State} (e : serveControl bs s = (a0, t)) (h : Within kb km kw kp kx z0 s) :
    Within kb km kw kp kx z0 t := by
  have h' := serveControl_keeps (bs := bs) (s := s) h
  rw [e] at h'
  exact h'

theorem serveDictionary_keeps {bs : List Byte} {s : State} (h : Within kb false false false false z0 s) :
    Within kb false false false false z0 (serveDictionary bs s).2 := by
  unfold serveDictionary
  with_reducible repeat' first
      | intro _ | assumption | apply within_ite | apply serveFrame_keeps | refine serveFrame_keeps_eq (by assumption) ?_
      | dsimp only [within_mk] | apply within_of | split
theorem serveDictionary_keeps_eq {bs : List Byte} {s : State} {a0} {t : State} (e : serveDictionary bs s = (a0, t)) (h : Within kb false false false false z0 s) :
    Within kb false false false false z0 t := by
  have h' := serveDictionary_keeps (bs := bs) (s := s) h
  rw [e] at h'
  exact h'

theorem spdmSigned_keeps {code p1 p2 : Nat} {bs context : List Byte} {s : State} (h : Within kb km kw kp kx z0 s) :
    Within kb km kw kp kx z0 (spdmSigned code p1 p2 bs context s).2 := by
  unfold spdmSigned
  with_reducible repeat' first
      | intro _ | assumption | apply drawn_keeps
theorem spdmSigned_keeps_eq {code p1 p2 : Nat} {bs context : List Byte} {s : State} {a0} {t : State} (e : spdmSigned code p1 p2 bs context s = (a0, t)) (h : Within kb km kw kp kx z0 s) :
    Within kb km kw kp kx z0 t := by
  have h' := spdmSigned_keeps (code := code) (p1 := p1) (p2 := p2) (bs := bs) (context := context) (s := s) h
  rw [e] at h'
  exact h'

theorem serveSpdm_keeps {bs : List Byte} {s : State} (h : Within kb km kw kp kx z0 s) :
    Within kb km kw kp kx z0 (serveSpdm bs s).2 := by
  unfold serveSpdm
  with_reducible repeat' first
      | intro _ | assumption | apply within_ite | apply spdmSigned_keeps | refine spdmSigned_keeps_eq (by assumption) ?_
      | dsimp only [within_mk] | apply within_of | split
theorem serveSpdm_keeps_eq {bs : List Byte} {s : State} {a0} {t : State} (e : serveSpdm bs s = (a0, t)) (h : Within kb km kw kp kx z0 s) :
    Within kb km kw kp kx z0 t := by
  have h' := serveSpdm_keeps (bs := bs) (s := s) h
  rw [e] at h'
  exact h'

theorem serveMsg_keeps {m : McMsg} {s : State} (h : Within kb false false false false z0 s) :
    Within kb false false false false z0 (serveMsg m s) := by
  unfold serveMsg
  with_reducible repeat' first
      | intro _ | assumption | apply within_ite | apply serveControl_keeps | refine serveControl_keeps_eq (by assumption) ?_
      | apply serveSpdm_keeps | refine serveSpdm_keeps_eq (by assumption) ?_ | apply serveDictionary_keeps
      | refine serveDictionary_keeps_eq (by assumption) ?_ | apply sendMessage_keeps | dsimp only [within_mk]
      | apply within_of | split

theorem serveFront_keeps {s : State} (h : Within kb false false false false z0 s) :
    Within kb false false false false z0 (serveFront s) := by
  unfold serveFront
  with_reducible repeat' first
      | intro _ | assumption | apply serveMsg_keeps | dsimp only [within_mk] | apply within_of | split

theorem serveAll_keeps {s : State} (h : Within kb false false false false z0 s) :
    Within kb false false false false z0 (serveAll s) := by
  unfold serveAll
  with_reducible repeat' first
      | intro _ | assumption | apply within_foldl | apply serveFront_keeps

theorem refuseBusy_keeps {m : McMsg} {s : State} (h : Within kb km kw kp kx z0 s) :
    Within kb km kw kp kx z0 (refuseBusy m s) := by
  unfold refuseBusy
  with_reducible repeat' first
      | intro _ | assumption | apply within_ite | apply sendMessage_keeps

theorem takeMessage_keeps {m : McMsg} {s : State} (h : Within kb false false false false z0 s) :
    Within kb false false false false z0 (takeMessage m s) := by
  unfold takeMessage
  with_reducible repeat' first
      | intro _ | assumption | apply within_ite | apply serveMsg_keeps | apply serveAll_keeps | apply refuseBusy_keeps
      | dsimp only [within_mk] | apply within_of

theorem takePacket_keeps {ps : List Byte} {s : State} (h : Within kb false false false false z0 s) :
    Within kb false false false false z0 (takePacket ps s) := by
  unfold takePacket
  with_reducible repeat' first
      | intro _ | assumption | apply within_ite | apply takeMessage_keeps | dsimp only [within_mk] | apply within_of

theorem reply_keeps {tr : Transport} {r : List Word × State} (h : Within kb km kw kp kx z0 r.2) : Within kb km kw kp kx z0 (reply tr r) := h

theorem requestRow_keeps {cs : Nat} {tr : Transport} {ws : List Word} {s : State} (h : Within kb false false false false z0 s) :
    WithinO kb false false false false z0 (requestRow cs tr ws s) := by
  unfold requestRow
  with_reducible repeat' first
      | intro _ | assumption | apply withinO_next | apply withinO_event | apply event_keeps | apply reply_keeps
      | apply serveFrame_keeps | refine serveFrame_keeps_eq (by assumption) ?_ | apply serveAll_keeps

theorem execRead_keeps {tr : Transport} {frame : List Word} {s : State} (h : Within kb false false false false z0 s) :
    WithinO kb false false false false z0 (execRead tr frame s) := by
  unfold execRead
  with_reducible repeat' first
      | intro _ | assumption | apply withinO_next | apply withinO_event | apply requestRow_keeps

theorem execWrite_keeps {tr : Transport} {frame : List Word} {s : State} (h : Within kb false false false false z0 s) :
    WithinO kb false false false false z0 (execWrite tr frame s) := by
  unfold execWrite
  with_reducible repeat' first
      | intro _ | assumption | apply withinO_next | apply withinO_event | apply requestRow_keeps

theorem execSegRead_keeps {tr : Transport} {frame : List Word} {s : State} (h : Within kb false false false false z0 s) :
    WithinO kb false false false false z0 (execSegRead tr frame s) := by
  unfold execSegRead
  with_reducible repeat' first
      | intro _ | assumption | apply withinO_next | apply withinO_event | apply requestRow_keeps

theorem execSegWrite_keeps {tr : Transport} {frame : List Word} {s : State} (h : Within kb false false false false z0 s) :
    WithinO kb false false false false z0 (execSegWrite tr frame s) := by
  unfold execSegWrite
  with_reducible repeat' first
      | intro _ | assumption | apply withinO_next | apply withinO_event | apply requestRow_keeps

theorem execSnapshot_keeps {tr : Transport} {frame : List Word} {s : State} (h : Within kb false false false false z0 s) :
    WithinO kb false false false false z0 (execSnapshot tr frame s) := by
  unfold execSnapshot
  with_reducible repeat' first
      | intro _ | assumption | apply withinO_next | apply withinO_event | apply requestRow_keeps

theorem execDescribe_keeps {tr : Transport} {frame : List Word} {s : State} (h : Within kb false false false false z0 s) :
    WithinO kb false false false false z0 (execDescribe tr frame s) := by
  unfold execDescribe
  with_reducible repeat' first
      | intro _ | assumption | apply withinO_next | apply withinO_event | apply requestRow_keeps

theorem execCancel_keeps {tr : Transport} {frame : List Word} {s : State} (h : Within kb false false false false z0 s) :
    WithinO kb false false false false z0 (execCancel tr frame s) := by
  unfold execCancel
  with_reducible repeat' first
      | intro _ | assumption | apply withinO_next | apply withinO_event | apply requestRow_keeps

theorem execAccWindow_keeps {s : State} (h : Within kb false false false false z0 s) :
    WithinO kb false false false false z0 (execAccWindow s) := by
  unfold execAccWindow
  with_reducible repeat' first
      | intro _ | assumption | apply withinO_next | apply withinO_event | apply event_keeps | apply reply_keeps
      | apply serveFrame_keeps | refine serveFrame_keeps_eq (by assumption) ?_ | apply serveAll_keeps

theorem execSessionTimeout_keeps {tr : Transport} {s : State} (h : Within kb km kw kp kx z0 s) :
    WithinO kb km kw kp kx z0 (execSessionTimeout tr s) := by
  unfold execSessionTimeout
  with_reducible repeat' first
      | intro _ | assumption | apply withinO_next | apply withinO_event | apply event_keeps | apply putSession_keeps
      | dsimp only [within_mk] | apply within_of | split

theorem execMctp_keeps {frame : List Word} {s : State} (h : Within kb false false false false z0 s) :
    WithinO kb false false false false z0 (execMctp frame s) := by
  unfold execMctp
  with_reducible repeat' first
      | intro _ | assumption | apply within_ite | apply withinO_next | apply withinO_event | apply frameCheck_keeps
      | refine frameCheck_keeps_eq (by assumption) ?_ | apply event_keeps | apply reply_keeps | apply takePacket_keeps

theorem messageRow_keeps {kind : Nat → Bool} {s : State} (h : Within kb false false false false z0 s) :
    WithinO kb false false false false z0 (messageRow kind s) := by
  unfold messageRow
  with_reducible repeat' first
      | intro _ | assumption | apply withinO_next | apply withinO_event | apply event_keeps | apply serveFront_keeps
      | dsimp only [within_mk] | apply within_of | split

theorem execSetEndpointId_keeps {s : State} (h : Within kb false false false false z0 s) :
    WithinO kb false false false false z0 (execSetEndpointId s) := by
  unfold execSetEndpointId
  with_reducible repeat' first
      | intro _ | assumption | apply withinO_next | apply withinO_event | apply messageRow_keeps

theorem execGetEndpointId_keeps {s : State} (h : Within kb false false false false z0 s) :
    WithinO kb false false false false z0 (execGetEndpointId s) := by
  unfold execGetEndpointId
  with_reducible repeat' first
      | intro _ | assumption | apply withinO_next | apply withinO_event | apply messageRow_keeps

theorem execGetMctpVersionSupport_keeps {s : State} (h : Within kb false false false false z0 s) :
    WithinO kb false false false false z0 (execGetMctpVersionSupport s) := by
  unfold execGetMctpVersionSupport
  with_reducible repeat' first
      | intro _ | assumption | apply withinO_next | apply withinO_event | apply messageRow_keeps

theorem execGetMessageTypeSupport_keeps {s : State} (h : Within kb false false false false z0 s) :
    WithinO kb false false false false z0 (execGetMessageTypeSupport s) := by
  unfold execGetMessageTypeSupport
  with_reducible repeat' first
      | intro _ | assumption | apply withinO_next | apply withinO_event | apply messageRow_keeps

theorem execGetVendorDefinedMessageSupport_keeps {s : State} (h : Within kb false false false false z0 s) :
    WithinO kb false false false false z0 (execGetVendorDefinedMessageSupport s) := by
  unfold execGetVendorDefinedMessageSupport
  with_reducible repeat' first
      | intro _ | assumption | apply withinO_next | apply withinO_event | apply messageRow_keeps

theorem execDictionaryMessage_keeps {s : State} (h : Within kb false false false false z0 s) :
    WithinO kb false false false false z0 (execDictionaryMessage s) := by
  unfold execDictionaryMessage
  with_reducible repeat' first
      | intro _ | assumption | apply withinO_next | apply withinO_event | apply messageRow_keeps

theorem execGetVersion_keeps {s : State} (h : Within kb false false false false z0 s) :
    WithinO kb false false false false z0 (execGetVersion s) := by
  unfold execGetVersion
  with_reducible repeat' first
      | intro _ | assumption | apply withinO_next | apply withinO_event | apply messageRow_keeps

theorem execGetCapabilities_keeps {s : State} (h : Within kb false false false false z0 s) :
    WithinO kb false false false false z0 (execGetCapabilities s) := by
  unfold execGetCapabilities
  with_reducible repeat' first
      | intro _ | assumption | apply withinO_next | apply withinO_event | apply messageRow_keeps

theorem execNegotiateAlgorithms_keeps {s : State} (h : Within kb false false false false z0 s) :
    WithinO kb false false false false z0 (execNegotiateAlgorithms s) := by
  unfold execNegotiateAlgorithms
  with_reducible repeat' first
      | intro _ | assumption | apply withinO_next | apply withinO_event | apply messageRow_keeps

theorem execGetDigests_keeps {s : State} (h : Within kb false false false false z0 s) :
    WithinO kb false false false false z0 (execGetDigests s) := by
  unfold execGetDigests
  with_reducible repeat' first
      | intro _ | assumption | apply withinO_next | apply withinO_event | apply messageRow_keeps

theorem execGetCertificate_keeps {s : State} (h : Within kb false false false false z0 s) :
    WithinO kb false false false false z0 (execGetCertificate s) := by
  unfold execGetCertificate
  with_reducible repeat' first
      | intro _ | assumption | apply withinO_next | apply withinO_event | apply messageRow_keeps

theorem execChallenge_keeps {s : State} (h : Within kb false false false false z0 s) :
    WithinO kb false false false false z0 (execChallenge s) := by
  unfold execChallenge
  with_reducible repeat' first
      | intro _ | assumption | apply withinO_next | apply withinO_event | apply messageRow_keeps

theorem execGetMeasurements_keeps {s : State} (h : Within kb false false false false z0 s) :
    WithinO kb false false false false z0 (execGetMeasurements s) := by
  unfold execGetMeasurements
  with_reducible repeat' first
      | intro _ | assumption | apply withinO_next | apply withinO_event | apply messageRow_keeps

theorem execSpdmUnsupportedRequest_keeps {s : State} (h : Within kb false false false false z0 s) :
    WithinO kb false false false false z0 (execSpdmUnsupportedRequest s) := by
  unfold execSpdmUnsupportedRequest
  with_reducible repeat' first
      | intro _ | assumption | apply withinO_next | apply withinO_event | apply messageRow_keeps

theorem logReport_keeps {r : Report} {s : State} (h : Within kb false kw kp kx z0 s) :
    Within kb false kw kp kx z0 (logReport r s).2 := by
  unfold logReport
  with_reducible repeat' first
      | intro _ | assumption | apply within_ite | apply trace_keeps | apply odBump_keeps | dsimp only [within_mk]
      | apply within_of | split
theorem logReport_keeps_eq {r : Report} {s : State} {a0} {t : State} (e : logReport r s = (a0, t)) (h : Within kb false kw kp kx z0 s) :
    Within kb false kw kp kx z0 t := by
  have h' := logReport_keeps (r := r) (s := s) h
  rw [e] at h'
  exact h'

theorem noteEnded_keeps {n ended : Nat} {replayed : Bool} {s : State} (h : Within kb km kw kp kx z0 s) :
    Within kb km kw kp kx z0 (noteEnded n ended replayed s) := by
  unfold noteEnded
  with_reducible repeat' first
      | intro _ | assumption | apply within_ite | dsimp only [within_mk] | apply within_of

theorem beginRecovery_keeps {level unit entry : Nat} {keep : Recovery → Bool} {s : State} (h : Within kb km kw kp kx z0 s) :
    Within kb km kw kp kx z0 (beginRecovery level unit entry keep s) := h

theorem noteEscalation_keeps {level unit dep : Nat} {s : State} (h : Within kb false kw kp kx z0 s) :
    Within kb false kw kp kx z0 (noteEscalation level unit dep s) := by
  unfold noteEscalation
  with_reducible repeat' first
      | intro _ | assumption | apply odBump_keeps | apply logReport_keeps

theorem fatalFault_keeps {dep : Nat} {s : State} (h : Within kb false kw kp kx z0 s) :
    Within kb false kw kp kx z0 (fatalFault dep s) := by
  unfold fatalFault
  with_reducible repeat' first
      | intro _ | assumption | apply enterFault_keeps | apply logReport_keeps | refine logReport_keeps_eq (by assumption) ?_
      | dsimp only [within_mk] | apply within_of

theorem apexFault_keeps {entry : Nat} {s : State} (h : Within kb km kw kp kx z0 s) :
    Within kb km kw kp kx z0 (apexFault entry s) := by
  unfold apexFault
  with_reducible repeat' first
      | intro _ | assumption | apply within_ite | apply enterFault_keeps | apply beginRecovery_keeps | dsimp only [within_mk]
      | apply within_of

theorem unitFault_keeps {r : Report} {s : State} (h : Within kb false kw kp kx z0 s) :
    Within kb false kw kp kx z0 (unitFault r s) := by
  unfold unitFault
  with_reducible repeat' first
      | intro _ | assumption | apply within_ite | apply logReport_keeps | refine logReport_keeps_eq (by assumption) ?_
      | apply apexFault_keeps | apply beginRecovery_keeps | apply noteEscalation_keeps | apply fatalFault_keeps
      | dsimp only [within_mk] | apply within_of | split

theorem plainReport_keeps {r : Report} {s : State} (h : Within kb false kw kp kx z0 s) :
    Within kb false kw kp kx z0 (plainReport r s) := by
  unfold plainReport
  with_reducible repeat' first
      | intro _ | assumption | apply within_ite | apply odBump_keeps | apply logReport_keeps
      | refine logReport_keeps_eq (by assumption) ?_ | dsimp only [within_mk] | apply within_of

theorem acceptReport_keeps {k i : Nat} {r : Report} {s : State} (h : Within kb false kw kp kx z0 s) :
    Within kb false kw kp kx z0 (acceptReport k i r s) := by
  unfold acceptReport
  with_reducible repeat' first
      | intro _ | assumption | apply within_ite | apply unitFault_keeps | apply fatalFault_keeps | apply plainReport_keeps
      | dsimp only [within_mk] | apply within_of

theorem execErrorReportAccept_keeps {level unit : Nat} {s : State} (h : Within kb false kw kp kx z0 s) :
    WithinO kb false kw kp kx z0 (execErrorReportAccept level unit s) := by
  unfold execErrorReportAccept
  with_reducible repeat' first
      | intro _ | assumption | apply withinO_next | apply withinO_event | apply event_keeps | apply acceptReport_keeps
      | dsimp only [within_mk] | apply within_of | split

theorem replay_keeps {b uid : Nat} {items : List Nat} {hurt : Bool} {s : State} (h : Within kb km kw kp kx z0 s) :
    Within kb km kw kp kx z0 (replay b uid items hurt s) := by
  unfold replay
  with_reducible repeat' first
      | intro _ | assumption | apply within_ite | apply putCmd_keeps | apply flagCmd_keeps | dsimp only [within_mk]
      | apply within_of | split

theorem disownReads_keeps {b : Nat} {s : State} (h : Within kb km kw kp kx z0 s) :
    Within kb km kw kp kx z0 (disownReads b s) := by
  unfold disownReads
  with_reducible repeat' first
      | intro _ | assumption | apply within_ite | dsimp only [within_mk] | apply within_of

theorem resetBlock_keeps {b : Nat} {s : State} (h : Within kb km false kp kx z0 s) :
    Within kb km false kp kx z0 (resetBlock b s) := by
  unfold resetBlock
  with_reducible repeat' first
      | intro _ | assumption | apply within_ite | apply within_foldl | apply modRegion_keeps | apply enqueue_keeps
      | apply spClear_keeps | apply disownReads_keeps | apply putBlock_keeps | dsimp only [within_mk] | apply within_of

theorem startBatch_keeps {l : List Nat} {s : State} (h : Within kb km kw kp kx z0 s) :
    Within kb km kw kp kx z0 (startBatch l s) := by
  unfold startBatch
  with_reducible repeat' first
      | intro _ | assumption | apply within_foldl | apply modBlock_keeps

theorem endRecovery_keeps {r : Recovery} {s : State} (h : Within kb false false false kx z0 s) :
    Within kb false false false kx z0 (endRecovery r s) := by
  unfold endRecovery
  with_reducible repeat' first
      | intro _ | assumption | apply within_ite | apply modRegion_keeps | apply reportAs_keeps | apply enterFault_keeps
      | apply setSt_keeps | apply boundary_keeps | exact Nat.le_of_ble_eq_true rfl | dsimp only [within_mk] | apply within_of

theorem nextBatch_keeps {r : Recovery} {s : State} (h : Within kb false false false kx z0 s) :
    Within kb false false false kx z0 (nextBatch r s) := by
  unfold nextBatch
  with_reducible repeat' first
      | intro _ | assumption | apply within_ite | apply endRecovery_keeps | apply startBatch_keeps | dsimp only [within_mk]
      | apply within_of | split

theorem revalidated_keeps {r : Recovery} {b : Nat} {pass : Bool} {s : State} (h : Within kb false false false kx z0 s) :
    Within kb false false false kx z0 (revalidated r b pass s) := by
  unfold revalidated
  with_reducible repeat' first
      | intro _ | assumption | apply within_ite | apply disarm_keeps | apply modBlock_keeps | apply retireBlock_keeps
      | apply nextBatch_keeps | dsimp only [within_mk] | apply within_of | split

theorem execRevalidationDone_keeps {b : Nat} {pass : Bool} {s : State} (h : Within kb false false false kx z0 s) :
    WithinO kb false false false kx z0 (execRevalidationDone b pass s) := by
  unfold execRevalidationDone
  with_reducible repeat' first
      | intro _ | assumption | apply withinO_next | apply withinO_event | apply event_keeps | apply revalidated_keeps
      | dsimp only [within_mk] | apply within_of | split

theorem loseWork_keeps {b : Nat} {s : State} (h : Within kb km kw kp kx z0 s) : Within kb km kw kp kx z0 (loseWork b s).2.2 := by
  unfold loseWork
  refine foldl_holds (fun a : Nat × Bool × State => Within kb km kw kp kx z0 a.2.2) h fun a x ha => ?_
  dsimp only
  split
  · exact ha
  · split
    · exact ha
    · split
      · exact replay_keeps ha
      · exact endCmd_keeps ha

theorem blockRecovery_keeps {r : Recovery} {s : State} (h : Within kb false false false kx z0 s) :
    Within kb false false false kx z0 (blockRecovery r s) := by
  unfold blockRecovery
  with_reducible repeat' first
      | intro _ | assumption | apply within_ite | apply loseWork_keeps | refine loseWork_keeps_eq (by assumption) ?_
      | apply noteEnded_keeps | apply odBump_keeps | apply resetBlock_keeps | apply endRecovery_keeps
      | apply retireBlock_keeps | apply nextBatch_keeps

theorem execBlockRecovery_keeps {b : Nat} {s : State} (h : Within kb false false false kx z0 s) :
    WithinO kb false false false kx z0 (execBlockRecovery b s) := by
  unfold execBlockRecovery
  with_reducible repeat' first
      | intro _ | assumption | apply withinO_next | apply withinO_event | apply event_keeps | apply blockRecovery_keeps
      | dsimp only [within_mk] | apply within_of | split

theorem resetRegion_keeps {r : Nat} {s : State} (h : Within kb km false kp kx z0 s) :
    Within kb km false kp kx z0 (resetRegion r s) := by
  unfold resetRegion
  with_reducible repeat' first
      | intro _ | assumption | apply within_ite | apply within_foldl | apply modBlock_keeps | apply resetBlock_keeps
      | apply modRegion_keeps | dsimp only [within_mk] | apply within_of

theorem regionRecovery_keeps {r : Recovery} {s : State} (h : Within kb false false false kx z0 s) :
    Within kb false false false kx z0 (regionRecovery r s) := by
  unfold regionRecovery
  with_reducible repeat' first
      | intro _ | assumption | apply within_foldl | apply endCmd_keeps | apply odBump_keeps | apply resetRegion_keeps
      | apply noteEnded_keeps | apply nextBatch_keeps

theorem execRegionRecovery_keeps {region : Nat} {s : State} (h : Within kb false false false kx z0 s) :
    WithinO kb false false false kx z0 (execRegionRecovery region s) := by
  unfold execRegionRecovery
  with_reducible repeat' first
      | intro _ | assumption | apply withinO_next | apply withinO_event | apply event_keeps | apply regionRecovery_keeps
      | dsimp only [within_mk] | apply within_of | split

theorem discardRequests_keeps {s : State} (h : Within kb km kw false kx z0 s) :
    Within kb km kw false kx z0 (discardRequests s) := by
  unfold discardRequests
  with_reducible repeat' first
      | intro _ | assumption | dsimp only [within_mk] | apply within_of | apply within_of_p

theorem endAll_keeps {s : State} (h : Within kb false kw false kx z0 s) :
    Within kb false kw false kx z0 (endAll s) := by
  unfold endAll
  with_reducible repeat' first
      | intro _ | assumption | apply within_foldl | apply endCmd_keeps | apply decideCmd_keeps | apply modCmd_keeps

theorem resetFlags_keeps {s : State} (h : Within kb false false kp kx z0 s) :
    Within kb false false kp kx z0 (resetFlags s) := by
  unfold resetFlags
  with_reducible repeat' first
      | intro _ | assumption | apply within_foldl | apply resetFlag_keeps

theorem dropTraffic_keeps {s : State} (h : Within kb km kw kp kx z0 s) :
    Within kb km kw kp kx z0 (dropTraffic s) := h

theorem restartDictionary_keeps {s : State} (h : Within kb km kw kp kx z0 s) :
    Within kb km kw kp kx z0 (restartDictionary s) := by
  unfold restartDictionary
  with_reducible repeat' first
      | intro _ | assumption | apply odBump_keeps | apply setSt_keeps | exact Nat.le_of_ble_eq_true rfl
      | dsimp only [within_mk] | apply within_of

theorem warmReset_keeps {r : Recovery} {s : State} (h : Within kb false false false kx z0 s) :
    Within kb false false false kx z0 (warmReset r s) := by
  unfold warmReset
  with_reducible repeat' first
      | intro _ | assumption | apply within_ite | apply within_foldl | apply noteEnded_keeps | apply endAll_keeps
      | apply portLost_keeps | apply discardRequests_keeps | apply resetFlags_keeps | apply dropTraffic_keeps
      | apply restartDictionary_keeps | apply resetRegion_keeps | apply nextBatch_keeps

theorem execApexWarmReset_keeps {ok : Bool} {s : State} (h : Within kb false false false kx z0 s) :
    WithinO kb false false false kx z0 (execApexWarmReset ok s) := by
  unfold execApexWarmReset
  with_reducible repeat' first
      | intro _ | assumption | apply within_ite | apply withinO_next | apply withinO_event | apply event_keeps
      | apply warmReset_keeps | apply fatalFault_keeps | dsimp only [within_mk] | apply within_of | split

theorem execInServiceTest_keeps {r : Nat} {s : State} (h : Within kb km kw kp kx z0 s) :
    WithinO kb km kw kp kx z0 (execInServiceTest r s) := by
  unfold execInServiceTest
  with_reducible repeat' first
      | intro _ | assumption | apply withinO_next | apply withinO_event | apply event_keeps | apply modRegion_keeps
      | apply modBlock_keeps | dsimp only [within_mk] | apply within_of | split

theorem testDone_keeps {b : Nat} {pass : Bool} {s : State} (h : Within kb km kw kp kx z0 s) :
    Within kb km kw kp kx z0 (testDone b pass s) := by
  unfold testDone
  with_reducible repeat' first
      | intro _ | assumption | apply within_ite | apply disarm_keeps | apply modBlock_keeps | apply report_keeps

theorem execBlockTestDone_keeps {b : Nat} {pass : Bool} {s : State} (h : Within kb km kw kp kx z0 s) :
    WithinO kb km kw kp kx z0 (execBlockTestDone b pass s) := by
  unfold execBlockTestDone
  with_reducible repeat' first
      | intro _ | assumption | apply withinO_next | apply withinO_event | apply event_keeps | apply testDone_keeps

theorem hurtBlock_keeps {r b : Nat} {inj : Bool} {s : State} (h : Within kb km kw kp kx z0 s) :
    Within kb km kw kp kx z0 (hurtBlock r b inj s) := by
  unfold hurtBlock
  with_reducible repeat' first
      | intro _ | assumption | apply report_keeps | apply modBlock_keeps

theorem dropBadLine_keeps {r l : Nat} {inj : Bool} {s : State} (h : Within kb km kw kp kx z0 s) :
    Within kb km kw kp kx z0 (dropBadLine r l inj s) := by
  unfold dropBadLine
  with_reducible repeat' first
      | intro _ | assumption | apply within_ite | apply report_keeps | apply modRegion_keeps

theorem scrubInjected_keeps {r : Nat} {s : State} (h : Within kb km kw kp kx z0 s) :
    Within kb km kw kp kx z0 (scrubInjected r s) := by
  unfold scrubInjected
  with_reducible repeat' first
      | intro _ | assumption | apply report_keeps | apply disarm_keeps | apply hurtBlock_keeps | apply dropBadLine_keeps
      | dsimp only [within_mk] | apply within_of | split

theorem scrub_keeps {r single : Nat} {data lines : List Nat} {s : State} (h : Within kb km kw kp kx z0 s) :
    Within kb km kw kp kx z0 (scrub r single data lines s) := by
  unfold scrub
  with_reducible repeat' first
      | intro _ | assumption | apply within_foldl | apply modRegion_keeps | apply report_keeps | apply hurtBlock_keeps
      | apply scrubInjected_keeps | apply dropBadLine_keeps

theorem execScrub_keeps {r single : Nat} {data lines : List Nat} {s : State} (h : Within kb km kw kp kx z0 s) :
    WithinO kb km kw kp kx z0 (execScrub r single data lines s) := by
  unfold execScrub
  with_reducible repeat' first
      | intro _ | assumption | apply withinO_next | apply withinO_event | apply event_keeps | apply scrub_keeps

theorem mireTick_keeps {s : State} (h : Within kb km kw kp kx z0 s) :
    Within kb km kw kp kx z0 (mireTick s) := by
  unfold mireTick
  with_reducible repeat' first
      | intro _ | assumption | apply within_ite | apply within_foldl | dsimp only [within_mk] | apply within_of

theorem idleSlot_keeps {s : State} (h : Within false false false kp kx z0 s) :
    Within false false false kp kx z0 (idleSlot s) := by
  unfold idleSlot
  with_reducible repeat' first
      | intro _ | assumption | apply mireTick_keeps | apply tick_keeps

theorem execMireWatchExpiry_keeps {level unit : Nat} {s : State} (h : Within kb km kw kp kx z0 s) :
    WithinO kb km kw kp kx z0 (execMireWatchExpiry level unit s) := by
  unfold execMireWatchExpiry
  with_reducible repeat' first
      | intro _ | assumption | apply within_ite | apply withinO_next | apply withinO_event | apply disarm_keeps
      | apply blockProgress_keeps | apply regionProgress_keeps | apply apexProgress_keeps | apply event_keeps
      | apply report_keeps | apply odBump_keeps

theorem execCorrectedWindow_keeps {s : State} (h : Within kb km kw kp kx z0 s) :
    WithinO kb km kw kp kx z0 (execCorrectedWindow s) := by
  unfold execCorrectedWindow
  with_reducible repeat' first
      | intro _ | assumption | apply withinO_next | apply withinO_event | apply event_keeps | dsimp only [within_mk]
      | apply within_of

end Sys2Proof.Machine
end

