-- ==== Sys2Proof/Laws/State.lean ====
section
/-! SUPPORT. One lemma per field and per update of the state, and the laws of reading after writing for the objects that
exist in numbers. -/

namespace Sys2Proof.Machine

/-! ### putBlock -/

section
variable (b : Nat) (x : Block) (s : State)
@[simp] theorem putBlock_pending : (putBlock b x s).pending = s.pending := rfl
@[simp] theorem putBlock_clocks : (putBlock b x s).clocks = s.clocks := rfl
@[simp] theorem putBlock_boot : (putBlock b x s).boot = s.boot := rfl
@[simp] theorem putBlock_mgmt : (putBlock b x s).mgmt = s.mgmt := rfl
@[simp] theorem putBlock_od : (putBlock b x s).od = s.od := rfl
@[simp] theorem putBlock_front : (putBlock b x s).front = s.front := rfl
@[simp] theorem putBlock_mem : (putBlock b x s).mem = s.mem := rfl
@[simp] theorem putBlock_memPoison : (putBlock b x s).memPoison = s.memPoison := rfl
@[simp] theorem putBlock_sp : (putBlock b x s).sp = s.sp := rfl
@[simp] theorem putBlock_spPoison : (putBlock b x s).spPoison = s.spPoison := rfl
@[simp] theorem putBlock_ports : (putBlock b x s).ports = s.ports := rfl
@[simp] theorem putBlock_blocks : (putBlock b x s).blocks = tput b x s.blocks := rfl
@[simp] theorem putBlock_regions : (putBlock b x s).regions = s.regions := rfl
@[simp] theorem putBlock_flags : (putBlock b x s).flags = s.flags := rfl
@[simp] theorem putBlock_localRels : (putBlock b x s).localRels = s.localRels := rfl
@[simp] theorem putBlock_remoteRels : (putBlock b x s).remoteRels = s.remoteRels := rfl
@[simp] theorem putBlock_paged : (putBlock b x s).paged = s.paged := rfl
@[simp] theorem putBlock_links : (putBlock b x s).links = s.links := rfl
@[simp] theorem putBlock_e2e : (putBlock b x s).e2e = s.e2e := rfl
@[simp] theorem putBlock_acks : (putBlock b x s).acks = s.acks := rfl
@[simp] theorem putBlock_nextPkt : (putBlock b x s).nextPkt = s.nextPkt := rfl
@[simp] theorem putBlock_arrNo : (putBlock b x s).arrNo = s.arrNo := rfl
@[simp] theorem putBlock_groups : (putBlock b x s).groups = s.groups := rfl
@[simp] theorem putBlock_power : (putBlock b x s).power = s.power := rfl
@[simp] theorem putBlock_rel : (putBlock b x s).rel = s.rel := rfl
@[simp] theorem putBlock_sec : (putBlock b x s).sec = s.sec := rfl
@[simp] theorem putBlock_marl : (putBlock b x s).marl = s.marl := rfl
@[simp] theorem putBlock_fresh : (putBlock b x s).fresh = s.fresh := rfl
end

/-! ### modBlock -/

section
variable (b : Nat) (f : Block → Block) (s : State)
@[simp] theorem modBlock_pending : (modBlock b f s).pending = s.pending := rfl
@[simp] theorem modBlock_clocks : (modBlock b f s).clocks = s.clocks := rfl
@[simp] theorem modBlock_boot : (modBlock b f s).boot = s.boot := rfl
@[simp] theorem modBlock_mgmt : (modBlock b f s).mgmt = s.mgmt := rfl
@[simp] theorem modBlock_od : (modBlock b f s).od = s.od := rfl
@[simp] theorem modBlock_front : (modBlock b f s).front = s.front := rfl
@[simp] theorem modBlock_mem : (modBlock b f s).mem = s.mem := rfl
@[simp] theorem modBlock_memPoison : (modBlock b f s).memPoison = s.memPoison := rfl
@[simp] theorem modBlock_sp : (modBlock b f s).sp = s.sp := rfl
@[simp] theorem modBlock_spPoison : (modBlock b f s).spPoison = s.spPoison := rfl
@[simp] theorem modBlock_ports : (modBlock b f s).ports = s.ports := rfl
@[simp] theorem modBlock_blocks : (modBlock b f s).blocks = tput b (f (blockAt s b)) s.blocks := rfl
@[simp] theorem modBlock_regions : (modBlock b f s).regions = s.regions := rfl
@[simp] theorem modBlock_flags : (modBlock b f s).flags = s.flags := rfl
@[simp] theorem modBlock_localRels : (modBlock b f s).localRels = s.localRels := rfl
@[simp] theorem modBlock_remoteRels : (modBlock b f s).remoteRels = s.remoteRels := rfl
@[simp] theorem modBlock_paged : (modBlock b f s).paged = s.paged := rfl
@[simp] theorem modBlock_links : (modBlock b f s).links = s.links := rfl
@[simp] theorem modBlock_e2e : (modBlock b f s).e2e = s.e2e := rfl
@[simp] theorem modBlock_acks : (modBlock b f s).acks = s.acks := rfl
@[simp] theorem modBlock_nextPkt : (modBlock b f s).nextPkt = s.nextPkt := rfl
@[simp] theorem modBlock_arrNo : (modBlock b f s).arrNo = s.arrNo := rfl
@[simp] theorem modBlock_groups : (modBlock b f s).groups = s.groups := rfl
@[simp] theorem modBlock_power : (modBlock b f s).power = s.power := rfl
@[simp] theorem modBlock_rel : (modBlock b f s).rel = s.rel := rfl
@[simp] theorem modBlock_sec : (modBlock b f s).sec = s.sec := rfl
@[simp] theorem modBlock_marl : (modBlock b f s).marl = s.marl := rfl
@[simp] theorem modBlock_fresh : (modBlock b f s).fresh = s.fresh := rfl
end

/-! ### putRegion -/

section
variable (r : Nat) (x : Region) (s : State)
@[simp] theorem putRegion_pending : (putRegion r x s).pending = s.pending := rfl
@[simp] theorem putRegion_clocks : (putRegion r x s).clocks = s.clocks := rfl
@[simp] theorem putRegion_boot : (putRegion r x s).boot = s.boot := rfl
@[simp] theorem putRegion_mgmt : (putRegion r x s).mgmt = s.mgmt := rfl
@[simp] theorem putRegion_od : (putRegion r x s).od = s.od := rfl
@[simp] theorem putRegion_front : (putRegion r x s).front = s.front := rfl
@[simp] theorem putRegion_mem : (putRegion r x s).mem = s.mem := rfl
@[simp] theorem putRegion_memPoison : (putRegion r x s).memPoison = s.memPoison := rfl
@[simp] theorem putRegion_sp : (putRegion r x s).sp = s.sp := rfl
@[simp] theorem putRegion_spPoison : (putRegion r x s).spPoison = s.spPoison := rfl
@[simp] theorem putRegion_ports : (putRegion r x s).ports = s.ports := rfl
@[simp] theorem putRegion_blocks : (putRegion r x s).blocks = s.blocks := rfl
@[simp] theorem putRegion_regions : (putRegion r x s).regions = tput r x s.regions := rfl
@[simp] theorem putRegion_flags : (putRegion r x s).flags = s.flags := rfl
@[simp] theorem putRegion_localRels : (putRegion r x s).localRels = s.localRels := rfl
@[simp] theorem putRegion_remoteRels : (putRegion r x s).remoteRels = s.remoteRels := rfl
@[simp] theorem putRegion_paged : (putRegion r x s).paged = s.paged := rfl
@[simp] theorem putRegion_links : (putRegion r x s).links = s.links := rfl
@[simp] theorem putRegion_e2e : (putRegion r x s).e2e = s.e2e := rfl
@[simp] theorem putRegion_acks : (putRegion r x s).acks = s.acks := rfl
@[simp] theorem putRegion_nextPkt : (putRegion r x s).nextPkt = s.nextPkt := rfl
@[simp] theorem putRegion_arrNo : (putRegion r x s).arrNo = s.arrNo := rfl
@[simp] theorem putRegion_groups : (putRegion r x s).groups = s.groups := rfl
@[simp] theorem putRegion_power : (putRegion r x s).power = s.power := rfl
@[simp] theorem putRegion_rel : (putRegion r x s).rel = s.rel := rfl
@[simp] theorem putRegion_sec : (putRegion r x s).sec = s.sec := rfl
@[simp] theorem putRegion_marl : (putRegion r x s).marl = s.marl := rfl
@[simp] theorem putRegion_fresh : (putRegion r x s).fresh = s.fresh := rfl
end

/-! ### modRegion -/

section
variable (r : Nat) (f : Region → Region) (s : State)
@[simp] theorem modRegion_pending : (modRegion r f s).pending = s.pending := rfl
@[simp] theorem modRegion_clocks : (modRegion r f s).clocks = s.clocks := rfl
@[simp] theorem modRegion_boot : (modRegion r f s).boot = s.boot := rfl
@[simp] theorem modRegion_mgmt : (modRegion r f s).mgmt = s.mgmt := rfl
@[simp] theorem modRegion_od : (modRegion r f s).od = s.od := rfl
@[simp] theorem modRegion_front : (modRegion r f s).front = s.front := rfl
@[simp] theorem modRegion_mem : (modRegion r f s).mem = s.mem := rfl
@[simp] theorem modRegion_memPoison : (modRegion r f s).memPoison = s.memPoison := rfl
@[simp] theorem modRegion_sp : (modRegion r f s).sp = s.sp := rfl
@[simp] theorem modRegion_spPoison : (modRegion r f s).spPoison = s.spPoison := rfl
@[simp] theorem modRegion_ports : (modRegion r f s).ports = s.ports := rfl
@[simp] theorem modRegion_blocks : (modRegion r f s).blocks = s.blocks := rfl
@[simp] theorem modRegion_regions : (modRegion r f s).regions = tput r (f (regionAt s r)) s.regions := rfl
@[simp] theorem modRegion_flags : (modRegion r f s).flags = s.flags := rfl
@[simp] theorem modRegion_localRels : (modRegion r f s).localRels = s.localRels := rfl
@[simp] theorem modRegion_remoteRels : (modRegion r f s).remoteRels = s.remoteRels := rfl
@[simp] theorem modRegion_paged : (modRegion r f s).paged = s.paged := rfl
@[simp] theorem modRegion_links : (modRegion r f s).links = s.links := rfl
@[simp] theorem modRegion_e2e : (modRegion r f s).e2e = s.e2e := rfl
@[simp] theorem modRegion_acks : (modRegion r f s).acks = s.acks := rfl
@[simp] theorem modRegion_nextPkt : (modRegion r f s).nextPkt = s.nextPkt := rfl
@[simp] theorem modRegion_arrNo : (modRegion r f s).arrNo = s.arrNo := rfl
@[simp] theorem modRegion_groups : (modRegion r f s).groups = s.groups := rfl
@[simp] theorem modRegion_power : (modRegion r f s).power = s.power := rfl
@[simp] theorem modRegion_rel : (modRegion r f s).rel = s.rel := rfl
@[simp] theorem modRegion_sec : (modRegion r f s).sec = s.sec := rfl
@[simp] theorem modRegion_marl : (modRegion r f s).marl = s.marl := rfl
@[simp] theorem modRegion_fresh : (modRegion r f s).fresh = s.fresh := rfl
end

/-! ### putMport -/

section
variable (n : Nat) (x : MemPort) (s : State)
@[simp] theorem putMport_pending : (putMport n x s).pending = s.pending := rfl
@[simp] theorem putMport_clocks : (putMport n x s).clocks = s.clocks := rfl
@[simp] theorem putMport_boot : (putMport n x s).boot = s.boot := rfl
@[simp] theorem putMport_mgmt : (putMport n x s).mgmt = s.mgmt := rfl
@[simp] theorem putMport_od : (putMport n x s).od = s.od := rfl
@[simp] theorem putMport_front : (putMport n x s).front = s.front := rfl
@[simp] theorem putMport_mem : (putMport n x s).mem = s.mem := rfl
@[simp] theorem putMport_memPoison : (putMport n x s).memPoison = s.memPoison := rfl
@[simp] theorem putMport_sp : (putMport n x s).sp = s.sp := rfl
@[simp] theorem putMport_spPoison : (putMport n x s).spPoison = s.spPoison := rfl
@[simp] theorem putMport_ports : (putMport n x s).ports = tput n x s.ports := rfl
@[simp] theorem putMport_blocks : (putMport n x s).blocks = s.blocks := rfl
@[simp] theorem putMport_regions : (putMport n x s).regions = s.regions := rfl
@[simp] theorem putMport_flags : (putMport n x s).flags = s.flags := rfl
@[simp] theorem putMport_localRels : (putMport n x s).localRels = s.localRels := rfl
@[simp] theorem putMport_remoteRels : (putMport n x s).remoteRels = s.remoteRels := rfl
@[simp] theorem putMport_paged : (putMport n x s).paged = s.paged := rfl
@[simp] theorem putMport_links : (putMport n x s).links = s.links := rfl
@[simp] theorem putMport_e2e : (putMport n x s).e2e = s.e2e := rfl
@[simp] theorem putMport_acks : (putMport n x s).acks = s.acks := rfl
@[simp] theorem putMport_nextPkt : (putMport n x s).nextPkt = s.nextPkt := rfl
@[simp] theorem putMport_arrNo : (putMport n x s).arrNo = s.arrNo := rfl
@[simp] theorem putMport_groups : (putMport n x s).groups = s.groups := rfl
@[simp] theorem putMport_power : (putMport n x s).power = s.power := rfl
@[simp] theorem putMport_rel : (putMport n x s).rel = s.rel := rfl
@[simp] theorem putMport_sec : (putMport n x s).sec = s.sec := rfl
@[simp] theorem putMport_marl : (putMport n x s).marl = s.marl := rfl
@[simp] theorem putMport_fresh : (putMport n x s).fresh = s.fresh := rfl
end

/-! ### putLink -/

section
variable (p : Nat) (x : LinkPort) (s : State)
@[simp] theorem putLink_pending : (putLink p x s).pending = s.pending := rfl
@[simp] theorem putLink_clocks : (putLink p x s).clocks = s.clocks := rfl
@[simp] theorem putLink_boot : (putLink p x s).boot = s.boot := rfl
@[simp] theorem putLink_mgmt : (putLink p x s).mgmt = s.mgmt := rfl
@[simp] theorem putLink_od : (putLink p x s).od = s.od := rfl
@[simp] theorem putLink_front : (putLink p x s).front = s.front := rfl
@[simp] theorem putLink_mem : (putLink p x s).mem = s.mem := rfl
@[simp] theorem putLink_memPoison : (putLink p x s).memPoison = s.memPoison := rfl
@[simp] theorem putLink_sp : (putLink p x s).sp = s.sp := rfl
@[simp] theorem putLink_spPoison : (putLink p x s).spPoison = s.spPoison := rfl
@[simp] theorem putLink_ports : (putLink p x s).ports = s.ports := rfl
@[simp] theorem putLink_blocks : (putLink p x s).blocks = s.blocks := rfl
@[simp] theorem putLink_regions : (putLink p x s).regions = s.regions := rfl
@[simp] theorem putLink_flags : (putLink p x s).flags = s.flags := rfl
@[simp] theorem putLink_localRels : (putLink p x s).localRels = s.localRels := rfl
@[simp] theorem putLink_remoteRels : (putLink p x s).remoteRels = s.remoteRels := rfl
@[simp] theorem putLink_paged : (putLink p x s).paged = s.paged := rfl
@[simp] theorem putLink_links : (putLink p x s).links = tput p x s.links := rfl
@[simp] theorem putLink_e2e : (putLink p x s).e2e = s.e2e := rfl
@[simp] theorem putLink_acks : (putLink p x s).acks = s.acks := rfl
@[simp] theorem putLink_nextPkt : (putLink p x s).nextPkt = s.nextPkt := rfl
@[simp] theorem putLink_arrNo : (putLink p x s).arrNo = s.arrNo := rfl
@[simp] theorem putLink_groups : (putLink p x s).groups = s.groups := rfl
@[simp] theorem putLink_power : (putLink p x s).power = s.power := rfl
@[simp] theorem putLink_rel : (putLink p x s).rel = s.rel := rfl
@[simp] theorem putLink_sec : (putLink p x s).sec = s.sec := rfl
@[simp] theorem putLink_marl : (putLink p x s).marl = s.marl := rfl
@[simp] theorem putLink_fresh : (putLink p x s).fresh = s.fresh := rfl
end

/-! ### modLink -/

section
variable (p : Nat) (f : LinkPort → LinkPort) (s : State)
@[simp] theorem modLink_pending : (modLink p f s).pending = s.pending := rfl
@[simp] theorem modLink_clocks : (modLink p f s).clocks = s.clocks := rfl
@[simp] theorem modLink_boot : (modLink p f s).boot = s.boot := rfl
@[simp] theorem modLink_mgmt : (modLink p f s).mgmt = s.mgmt := rfl
@[simp] theorem modLink_od : (modLink p f s).od = s.od := rfl
@[simp] theorem modLink_front : (modLink p f s).front = s.front := rfl
@[simp] theorem modLink_mem : (modLink p f s).mem = s.mem := rfl
@[simp] theorem modLink_memPoison : (modLink p f s).memPoison = s.memPoison := rfl
@[simp] theorem modLink_sp : (modLink p f s).sp = s.sp := rfl
@[simp] theorem modLink_spPoison : (modLink p f s).spPoison = s.spPoison := rfl
@[simp] theorem modLink_ports : (modLink p f s).ports = s.ports := rfl
@[simp] theorem modLink_blocks : (modLink p f s).blocks = s.blocks := rfl
@[simp] theorem modLink_regions : (modLink p f s).regions = s.regions := rfl
@[simp] theorem modLink_flags : (modLink p f s).flags = s.flags := rfl
@[simp] theorem modLink_localRels : (modLink p f s).localRels = s.localRels := rfl
@[simp] theorem modLink_remoteRels : (modLink p f s).remoteRels = s.remoteRels := rfl
@[simp] theorem modLink_paged : (modLink p f s).paged = s.paged := rfl
@[simp] theorem modLink_links : (modLink p f s).links = tput p (f (linkAt s p)) s.links := rfl
@[simp] theorem modLink_e2e : (modLink p f s).e2e = s.e2e := rfl
@[simp] theorem modLink_acks : (modLink p f s).acks = s.acks := rfl
@[simp] theorem modLink_nextPkt : (modLink p f s).nextPkt = s.nextPkt := rfl
@[simp] theorem modLink_arrNo : (modLink p f s).arrNo = s.arrNo := rfl
@[simp] theorem modLink_groups : (modLink p f s).groups = s.groups := rfl
@[simp] theorem modLink_power : (modLink p f s).power = s.power := rfl
@[simp] theorem modLink_rel : (modLink p f s).rel = s.rel := rfl
@[simp] theorem modLink_sec : (modLink p f s).sec = s.sec := rfl
@[simp] theorem modLink_marl : (modLink p f s).marl = s.marl := rfl
@[simp] theorem modLink_fresh : (modLink p f s).fresh = s.fresh := rfl
end

/-! ### putFlag -/

section
variable (i : Nat) (x : Flag) (s : State)
@[simp] theorem putFlag_pending : (putFlag i x s).pending = s.pending := rfl
@[simp] theorem putFlag_clocks : (putFlag i x s).clocks = s.clocks := rfl
@[simp] theorem putFlag_boot : (putFlag i x s).boot = s.boot := rfl
@[simp] theorem putFlag_mgmt : (putFlag i x s).mgmt = s.mgmt := rfl
@[simp] theorem putFlag_od : (putFlag i x s).od = s.od := rfl
@[simp] theorem putFlag_front : (putFlag i x s).front = s.front := rfl
@[simp] theorem putFlag_mem : (putFlag i x s).mem = s.mem := rfl
@[simp] theorem putFlag_memPoison : (putFlag i x s).memPoison = s.memPoison := rfl
@[simp] theorem putFlag_sp : (putFlag i x s).sp = s.sp := rfl
@[simp] theorem putFlag_spPoison : (putFlag i x s).spPoison = s.spPoison := rfl
@[simp] theorem putFlag_ports : (putFlag i x s).ports = s.ports := rfl
@[simp] theorem putFlag_blocks : (putFlag i x s).blocks = s.blocks := rfl
@[simp] theorem putFlag_regions : (putFlag i x s).regions = s.regions := rfl
@[simp] theorem putFlag_flags : (putFlag i x s).flags = tput i x s.flags := rfl
@[simp] theorem putFlag_localRels : (putFlag i x s).localRels = s.localRels := rfl
@[simp] theorem putFlag_remoteRels : (putFlag i x s).remoteRels = s.remoteRels := rfl
@[simp] theorem putFlag_paged : (putFlag i x s).paged = s.paged := rfl
@[simp] theorem putFlag_links : (putFlag i x s).links = s.links := rfl
@[simp] theorem putFlag_e2e : (putFlag i x s).e2e = s.e2e := rfl
@[simp] theorem putFlag_acks : (putFlag i x s).acks = s.acks := rfl
@[simp] theorem putFlag_nextPkt : (putFlag i x s).nextPkt = s.nextPkt := rfl
@[simp] theorem putFlag_arrNo : (putFlag i x s).arrNo = s.arrNo := rfl
@[simp] theorem putFlag_groups : (putFlag i x s).groups = s.groups := rfl
@[simp] theorem putFlag_power : (putFlag i x s).power = s.power := rfl
@[simp] theorem putFlag_rel : (putFlag i x s).rel = s.rel := rfl
@[simp] theorem putFlag_sec : (putFlag i x s).sec = s.sec := rfl
@[simp] theorem putFlag_marl : (putFlag i x s).marl = s.marl := rfl
@[simp] theorem putFlag_fresh : (putFlag i x s).fresh = s.fresh := rfl
end

/-! ### putGroup -/

section
variable (g : Nat) (x : Group) (s : State)
@[simp] theorem putGroup_pending : (putGroup g x s).pending = s.pending := rfl
@[simp] theorem putGroup_clocks : (putGroup g x s).clocks = s.clocks := rfl
@[simp] theorem putGroup_boot : (putGroup g x s).boot = s.boot := rfl
@[simp] theorem putGroup_mgmt : (putGroup g x s).mgmt = s.mgmt := rfl
@[simp] theorem putGroup_od : (putGroup g x s).od = s.od := rfl
@[simp] theorem putGroup_front : (putGroup g x s).front = s.front := rfl
@[simp] theorem putGroup_mem : (putGroup g x s).mem = s.mem := rfl
@[simp] theorem putGroup_memPoison : (putGroup g x s).memPoison = s.memPoison := rfl
@[simp] theorem putGroup_sp : (putGroup g x s).sp = s.sp := rfl
@[simp] theorem putGroup_spPoison : (putGroup g x s).spPoison = s.spPoison := rfl
@[simp] theorem putGroup_ports : (putGroup g x s).ports = s.ports := rfl
@[simp] theorem putGroup_blocks : (putGroup g x s).blocks = s.blocks := rfl
@[simp] theorem putGroup_regions : (putGroup g x s).regions = s.regions := rfl
@[simp] theorem putGroup_flags : (putGroup g x s).flags = s.flags := rfl
@[simp] theorem putGroup_localRels : (putGroup g x s).localRels = s.localRels := rfl
@[simp] theorem putGroup_remoteRels : (putGroup g x s).remoteRels = s.remoteRels := rfl
@[simp] theorem putGroup_paged : (putGroup g x s).paged = s.paged := rfl
@[simp] theorem putGroup_links : (putGroup g x s).links = s.links := rfl
@[simp] theorem putGroup_e2e : (putGroup g x s).e2e = s.e2e := rfl
@[simp] theorem putGroup_acks : (putGroup g x s).acks = s.acks := rfl
@[simp] theorem putGroup_nextPkt : (putGroup g x s).nextPkt = s.nextPkt := rfl
@[simp] theorem putGroup_arrNo : (putGroup g x s).arrNo = s.arrNo := rfl
@[simp] theorem putGroup_groups : (putGroup g x s).groups = tput g x s.groups := rfl
@[simp] theorem putGroup_power : (putGroup g x s).power = s.power := rfl
@[simp] theorem putGroup_rel : (putGroup g x s).rel = s.rel := rfl
@[simp] theorem putGroup_sec : (putGroup g x s).sec = s.sec := rfl
@[simp] theorem putGroup_marl : (putGroup g x s).marl = s.marl := rfl
@[simp] theorem putGroup_fresh : (putGroup g x s).fresh = s.fresh := rfl
end

/-! ### blockProgress -/

section
variable (b : Nat) (s : State)
@[simp] theorem blockProgress_pending : (blockProgress b s).pending = s.pending := rfl
@[simp] theorem blockProgress_clocks : (blockProgress b s).clocks = s.clocks := rfl
@[simp] theorem blockProgress_boot : (blockProgress b s).boot = s.boot := rfl
@[simp] theorem blockProgress_mgmt : (blockProgress b s).mgmt = s.mgmt := rfl
@[simp] theorem blockProgress_od : (blockProgress b s).od = s.od := rfl
@[simp] theorem blockProgress_front : (blockProgress b s).front = s.front := rfl
@[simp] theorem blockProgress_mem : (blockProgress b s).mem = s.mem := rfl
@[simp] theorem blockProgress_memPoison : (blockProgress b s).memPoison = s.memPoison := rfl
@[simp] theorem blockProgress_sp : (blockProgress b s).sp = s.sp := rfl
@[simp] theorem blockProgress_spPoison : (blockProgress b s).spPoison = s.spPoison := rfl
@[simp] theorem blockProgress_ports : (blockProgress b s).ports = s.ports := rfl
@[simp] theorem blockProgress_blocks : (blockProgress b s).blocks = tput b { blockAt s b with mire := 0 } s.blocks := rfl
@[simp] theorem blockProgress_regions : (blockProgress b s).regions = s.regions := rfl
@[simp] theorem blockProgress_flags : (blockProgress b s).flags = s.flags := rfl
@[simp] theorem blockProgress_localRels : (blockProgress b s).localRels = s.localRels := rfl
@[simp] theorem blockProgress_remoteRels : (blockProgress b s).remoteRels = s.remoteRels := rfl
@[simp] theorem blockProgress_paged : (blockProgress b s).paged = s.paged := rfl
@[simp] theorem blockProgress_links : (blockProgress b s).links = s.links := rfl
@[simp] theorem blockProgress_e2e : (blockProgress b s).e2e = s.e2e := rfl
@[simp] theorem blockProgress_acks : (blockProgress b s).acks = s.acks := rfl
@[simp] theorem blockProgress_nextPkt : (blockProgress b s).nextPkt = s.nextPkt := rfl
@[simp] theorem blockProgress_arrNo : (blockProgress b s).arrNo = s.arrNo := rfl
@[simp] theorem blockProgress_groups : (blockProgress b s).groups = s.groups := rfl
@[simp] theorem blockProgress_power : (blockProgress b s).power = s.power := rfl
@[simp] theorem blockProgress_rel : (blockProgress b s).rel = s.rel := rfl
@[simp] theorem blockProgress_sec : (blockProgress b s).sec = s.sec := rfl
@[simp] theorem blockProgress_marl : (blockProgress b s).marl = s.marl := rfl
@[simp] theorem blockProgress_fresh : (blockProgress b s).fresh = s.fresh := rfl
end

/-! ### regionProgress -/

section
variable (r : Nat) (s : State)
@[simp] theorem regionProgress_pending : (regionProgress r s).pending = s.pending := rfl
@[simp] theorem regionProgress_clocks : (regionProgress r s).clocks = s.clocks := rfl
@[simp] theorem regionProgress_boot : (regionProgress r s).boot = s.boot := rfl
@[simp] theorem regionProgress_mgmt : (regionProgress r s).mgmt = s.mgmt := rfl
@[simp] theorem regionProgress_od : (regionProgress r s).od = s.od := rfl
@[simp] theorem regionProgress_front : (regionProgress r s).front = s.front := rfl
@[simp] theorem regionProgress_mem : (regionProgress r s).mem = s.mem := rfl
@[simp] theorem regionProgress_memPoison : (regionProgress r s).memPoison = s.memPoison := rfl
@[simp] theorem regionProgress_sp : (regionProgress r s).sp = s.sp := rfl
@[simp] theorem regionProgress_spPoison : (regionProgress r s).spPoison = s.spPoison := rfl
@[simp] theorem regionProgress_ports : (regionProgress r s).ports = s.ports := rfl
@[simp] theorem regionProgress_blocks : (regionProgress r s).blocks = s.blocks := rfl
@[simp] theorem regionProgress_regions : (regionProgress r s).regions = tput r { regionAt s r with mire := 0 } s.regions := rfl
@[simp] theorem regionProgress_flags : (regionProgress r s).flags = s.flags := rfl
@[simp] theorem regionProgress_localRels : (regionProgress r s).localRels = s.localRels := rfl
@[simp] theorem regionProgress_remoteRels : (regionProgress r s).remoteRels = s.remoteRels := rfl
@[simp] theorem regionProgress_paged : (regionProgress r s).paged = s.paged := rfl
@[simp] theorem regionProgress_links : (regionProgress r s).links = s.links := rfl
@[simp] theorem regionProgress_e2e : (regionProgress r s).e2e = s.e2e := rfl
@[simp] theorem regionProgress_acks : (regionProgress r s).acks = s.acks := rfl
@[simp] theorem regionProgress_nextPkt : (regionProgress r s).nextPkt = s.nextPkt := rfl
@[simp] theorem regionProgress_arrNo : (regionProgress r s).arrNo = s.arrNo := rfl
@[simp] theorem regionProgress_groups : (regionProgress r s).groups = s.groups := rfl
@[simp] theorem regionProgress_power : (regionProgress r s).power = s.power := rfl
@[simp] theorem regionProgress_rel : (regionProgress r s).rel = s.rel := rfl
@[simp] theorem regionProgress_sec : (regionProgress r s).sec = s.sec := rfl
@[simp] theorem regionProgress_marl : (regionProgress r s).marl = s.marl := rfl
@[simp] theorem regionProgress_fresh : (regionProgress r s).fresh = s.fresh := rfl
end

/-! ### apexProgress -/

section
variable (s : State)
@[simp] theorem apexProgress_pending : (apexProgress s).pending = s.pending := rfl
@[simp] theorem apexProgress_clocks : (apexProgress s).clocks = s.clocks := rfl
@[simp] theorem apexProgress_boot : (apexProgress s).boot = s.boot := rfl
@[simp] theorem apexProgress_mgmt : (apexProgress s).mgmt = s.mgmt := rfl
@[simp] theorem apexProgress_od : (apexProgress s).od = s.od := rfl
@[simp] theorem apexProgress_front : (apexProgress s).front = s.front := rfl
@[simp] theorem apexProgress_mem : (apexProgress s).mem = s.mem := rfl
@[simp] theorem apexProgress_memPoison : (apexProgress s).memPoison = s.memPoison := rfl
@[simp] theorem apexProgress_sp : (apexProgress s).sp = s.sp := rfl
@[simp] theorem apexProgress_spPoison : (apexProgress s).spPoison = s.spPoison := rfl
@[simp] theorem apexProgress_ports : (apexProgress s).ports = s.ports := rfl
@[simp] theorem apexProgress_blocks : (apexProgress s).blocks = s.blocks := rfl
@[simp] theorem apexProgress_regions : (apexProgress s).regions = s.regions := rfl
@[simp] theorem apexProgress_flags : (apexProgress s).flags = s.flags := rfl
@[simp] theorem apexProgress_localRels : (apexProgress s).localRels = s.localRels := rfl
@[simp] theorem apexProgress_remoteRels : (apexProgress s).remoteRels = s.remoteRels := rfl
@[simp] theorem apexProgress_paged : (apexProgress s).paged = s.paged := rfl
@[simp] theorem apexProgress_links : (apexProgress s).links = s.links := rfl
@[simp] theorem apexProgress_e2e : (apexProgress s).e2e = s.e2e := rfl
@[simp] theorem apexProgress_acks : (apexProgress s).acks = s.acks := rfl
@[simp] theorem apexProgress_nextPkt : (apexProgress s).nextPkt = s.nextPkt := rfl
@[simp] theorem apexProgress_arrNo : (apexProgress s).arrNo = s.arrNo := rfl
@[simp] theorem apexProgress_groups : (apexProgress s).groups = s.groups := rfl
@[simp] theorem apexProgress_power : (apexProgress s).power = s.power := rfl
@[simp] theorem apexProgress_rel : (apexProgress s).rel = { s.rel with mire := 0 } := rfl
@[simp] theorem apexProgress_sec : (apexProgress s).sec = s.sec := rfl
@[simp] theorem apexProgress_marl : (apexProgress s).marl = s.marl := rfl
@[simp] theorem apexProgress_fresh : (apexProgress s).fresh = s.fresh := rfl
end

/-! ### drawn -/

section
variable (s : State)
@[simp] theorem drawn_pending : (drawn s).pending = s.pending := rfl
@[simp] theorem drawn_clocks : (drawn s).clocks = s.clocks := rfl
@[simp] theorem drawn_boot : (drawn s).boot = s.boot := rfl
@[simp] theorem drawn_mgmt : (drawn s).mgmt = s.mgmt := rfl
@[simp] theorem drawn_od : (drawn s).od = s.od := rfl
@[simp] theorem drawn_front : (drawn s).front = s.front := rfl
@[simp] theorem drawn_mem : (drawn s).mem = s.mem := rfl
@[simp] theorem drawn_memPoison : (drawn s).memPoison = s.memPoison := rfl
@[simp] theorem drawn_sp : (drawn s).sp = s.sp := rfl
@[simp] theorem drawn_spPoison : (drawn s).spPoison = s.spPoison := rfl
@[simp] theorem drawn_ports : (drawn s).ports = s.ports := rfl
@[simp] theorem drawn_blocks : (drawn s).blocks = s.blocks := rfl
@[simp] theorem drawn_regions : (drawn s).regions = s.regions := rfl
@[simp] theorem drawn_flags : (drawn s).flags = s.flags := rfl
@[simp] theorem drawn_localRels : (drawn s).localRels = s.localRels := rfl
@[simp] theorem drawn_remoteRels : (drawn s).remoteRels = s.remoteRels := rfl
@[simp] theorem drawn_paged : (drawn s).paged = s.paged := rfl
@[simp] theorem drawn_links : (drawn s).links = s.links := rfl
@[simp] theorem drawn_e2e : (drawn s).e2e = s.e2e := rfl
@[simp] theorem drawn_acks : (drawn s).acks = s.acks := rfl
@[simp] theorem drawn_nextPkt : (drawn s).nextPkt = s.nextPkt := rfl
@[simp] theorem drawn_arrNo : (drawn s).arrNo = s.arrNo := rfl
@[simp] theorem drawn_groups : (drawn s).groups = s.groups := rfl
@[simp] theorem drawn_power : (drawn s).power = s.power := rfl
@[simp] theorem drawn_rel : (drawn s).rel = s.rel := rfl
@[simp] theorem drawn_sec : (drawn s).sec = s.sec := rfl
@[simp] theorem drawn_marl : (drawn s).marl = s.marl := rfl
@[simp] theorem drawn_fresh : (drawn s).fresh = s.fresh + 1 := rfl
end

/-! ### putCmd -/

section
variable (c : Cmd) (s : State)
@[simp] theorem putCmd_pending : (putCmd c s).pending = s.pending := rfl
@[simp] theorem putCmd_clocks : (putCmd c s).clocks = s.clocks := rfl
@[simp] theorem putCmd_boot : (putCmd c s).boot = s.boot := rfl
@[simp] theorem putCmd_mgmt : (putCmd c s).mgmt = s.mgmt := rfl
@[simp] theorem putCmd_od : (putCmd c s).od = s.od := rfl
@[simp] theorem putCmd_front : (putCmd c s).front = { s.front with cmds := s.front.cmds.map fun x => if x.uid = c.uid then { c with desc := x.desc } else x } := rfl
@[simp] theorem putCmd_mem : (putCmd c s).mem = s.mem := rfl
@[simp] theorem putCmd_memPoison : (putCmd c s).memPoison = s.memPoison := rfl
@[simp] theorem putCmd_sp : (putCmd c s).sp = s.sp := rfl
@[simp] theorem putCmd_spPoison : (putCmd c s).spPoison = s.spPoison := rfl
@[simp] theorem putCmd_ports : (putCmd c s).ports = s.ports := rfl
@[simp] theorem putCmd_blocks : (putCmd c s).blocks = s.blocks := rfl
@[simp] theorem putCmd_regions : (putCmd c s).regions = s.regions := rfl
@[simp] theorem putCmd_flags : (putCmd c s).flags = s.flags := rfl
@[simp] theorem putCmd_localRels : (putCmd c s).localRels = s.localRels := rfl
@[simp] theorem putCmd_remoteRels : (putCmd c s).remoteRels = s.remoteRels := rfl
@[simp] theorem putCmd_paged : (putCmd c s).paged = s.paged := rfl
@[simp] theorem putCmd_links : (putCmd c s).links = s.links := rfl
@[simp] theorem putCmd_e2e : (putCmd c s).e2e = s.e2e := rfl
@[simp] theorem putCmd_acks : (putCmd c s).acks = s.acks := rfl
@[simp] theorem putCmd_nextPkt : (putCmd c s).nextPkt = s.nextPkt := rfl
@[simp] theorem putCmd_arrNo : (putCmd c s).arrNo = s.arrNo := rfl
@[simp] theorem putCmd_groups : (putCmd c s).groups = s.groups := rfl
@[simp] theorem putCmd_power : (putCmd c s).power = s.power := rfl
@[simp] theorem putCmd_rel : (putCmd c s).rel = s.rel := rfl
@[simp] theorem putCmd_sec : (putCmd c s).sec = s.sec := rfl
@[simp] theorem putCmd_marl : (putCmd c s).marl = s.marl := rfl
@[simp] theorem putCmd_fresh : (putCmd c s).fresh = s.fresh := rfl
end

/-! ### modCmd -/

section
variable (uid : Nat) (f : Cmd → Cmd) (s : State)
@[simp] theorem modCmd_pending : (modCmd uid f s).pending = s.pending := rfl
@[simp] theorem modCmd_clocks : (modCmd uid f s).clocks = s.clocks := rfl
@[simp] theorem modCmd_boot : (modCmd uid f s).boot = s.boot := rfl
@[simp] theorem modCmd_mgmt : (modCmd uid f s).mgmt = s.mgmt := rfl
@[simp] theorem modCmd_od : (modCmd uid f s).od = s.od := rfl
@[simp] theorem modCmd_front : (modCmd uid f s).front = { s.front with cmds := s.front.cmds.map fun x => if x.uid = uid then f x else x } := rfl
@[simp] theorem modCmd_mem : (modCmd uid f s).mem = s.mem := rfl
@[simp] theorem modCmd_memPoison : (modCmd uid f s).memPoison = s.memPoison := rfl
@[simp] theorem modCmd_sp : (modCmd uid f s).sp = s.sp := rfl
@[simp] theorem modCmd_spPoison : (modCmd uid f s).spPoison = s.spPoison := rfl
@[simp] theorem modCmd_ports : (modCmd uid f s).ports = s.ports := rfl
@[simp] theorem modCmd_blocks : (modCmd uid f s).blocks = s.blocks := rfl
@[simp] theorem modCmd_regions : (modCmd uid f s).regions = s.regions := rfl
@[simp] theorem modCmd_flags : (modCmd uid f s).flags = s.flags := rfl
@[simp] theorem modCmd_localRels : (modCmd uid f s).localRels = s.localRels := rfl
@[simp] theorem modCmd_remoteRels : (modCmd uid f s).remoteRels = s.remoteRels := rfl
@[simp] theorem modCmd_paged : (modCmd uid f s).paged = s.paged := rfl
@[simp] theorem modCmd_links : (modCmd uid f s).links = s.links := rfl
@[simp] theorem modCmd_e2e : (modCmd uid f s).e2e = s.e2e := rfl
@[simp] theorem modCmd_acks : (modCmd uid f s).acks = s.acks := rfl
@[simp] theorem modCmd_nextPkt : (modCmd uid f s).nextPkt = s.nextPkt := rfl
@[simp] theorem modCmd_arrNo : (modCmd uid f s).arrNo = s.arrNo := rfl
@[simp] theorem modCmd_groups : (modCmd uid f s).groups = s.groups := rfl
@[simp] theorem modCmd_power : (modCmd uid f s).power = s.power := rfl
@[simp] theorem modCmd_rel : (modCmd uid f s).rel = s.rel := rfl
@[simp] theorem modCmd_sec : (modCmd uid f s).sec = s.sec := rfl
@[simp] theorem modCmd_marl : (modCmd uid f s).marl = s.marl := rfl
@[simp] theorem modCmd_fresh : (modCmd uid f s).fresh = s.fresh := rfl
end

/-! ### odPut -/

section
variable (idx sub v : Nat) (s : State)
@[simp] theorem odPut_pending : (odPut idx sub v s).pending = s.pending := rfl
@[simp] theorem odPut_clocks : (odPut idx sub v s).clocks = s.clocks := rfl
@[simp] theorem odPut_boot : (odPut idx sub v s).boot = s.boot := rfl
@[simp] theorem odPut_mgmt : (odPut idx sub v s).mgmt = s.mgmt := rfl
@[simp] theorem odPut_od : (odPut idx sub v s).od = tput (odKey idx sub) v s.od := rfl
@[simp] theorem odPut_front : (odPut idx sub v s).front = s.front := rfl
@[simp] theorem odPut_mem : (odPut idx sub v s).mem = s.mem := rfl
@[simp] theorem odPut_memPoison : (odPut idx sub v s).memPoison = s.memPoison := rfl
@[simp] theorem odPut_sp : (odPut idx sub v s).sp = s.sp := rfl
@[simp] theorem odPut_spPoison : (odPut idx sub v s).spPoison = s.spPoison := rfl
@[simp] theorem odPut_ports : (odPut idx sub v s).ports = s.ports := rfl
@[simp] theorem odPut_blocks : (odPut idx sub v s).blocks = s.blocks := rfl
@[simp] theorem odPut_regions : (odPut idx sub v s).regions = s.regions := rfl
@[simp] theorem odPut_flags : (odPut idx sub v s).flags = s.flags := rfl
@[simp] theorem odPut_localRels : (odPut idx sub v s).localRels = s.localRels := rfl
@[simp] theorem odPut_remoteRels : (odPut idx sub v s).remoteRels = s.remoteRels := rfl
@[simp] theorem odPut_paged : (odPut idx sub v s).paged = s.paged := rfl
@[simp] theorem odPut_links : (odPut idx sub v s).links = s.links := rfl
@[simp] theorem odPut_e2e : (odPut idx sub v s).e2e = s.e2e := rfl
@[simp] theorem odPut_acks : (odPut idx sub v s).acks = s.acks := rfl
@[simp] theorem odPut_nextPkt : (odPut idx sub v s).nextPkt = s.nextPkt := rfl
@[simp] theorem odPut_arrNo : (odPut idx sub v s).arrNo = s.arrNo := rfl
@[simp] theorem odPut_groups : (odPut idx sub v s).groups = s.groups := rfl
@[simp] theorem odPut_power : (odPut idx sub v s).power = s.power := rfl
@[simp] theorem odPut_rel : (odPut idx sub v s).rel = s.rel := rfl
@[simp] theorem odPut_sec : (odPut idx sub v s).sec = s.sec := rfl
@[simp] theorem odPut_marl : (odPut idx sub v s).marl = s.marl := rfl
@[simp] theorem odPut_fresh : (odPut idx sub v s).fresh = s.fresh := rfl
end

/-! ### Reading after writing -/

theorem blockAt_modBlock (b n : Nat) (f : Block → Block) (s : State) :
    blockAt (modBlock b f s) n = if n = b then f (blockAt s b) else blockAt s n := tget_tput _ _ _ _ _

theorem regionAt_modRegion (r n : Nat) (f : Region → Region) (s : State) :
    regionAt (modRegion r f s) n = if n = r then f (regionAt s r) else regionAt s n := tget_tput _ _ _ _ _

theorem linkAt_modLink (p n : Nat) (f : LinkPort → LinkPort) (s : State) :
    linkAt (modLink p f s) n = if n = p then f (linkAt s p) else linkAt s n := tget_tput _ _ _ _ _

theorem mportAt_putMport (p n : Nat) (x : MemPort) (s : State) :
    mportAt (putMport p x s) n = if n = p then x else mportAt s n := tget_tput _ _ _ _ _

theorem flagAt_putFlag (i n : Nat) (x : Flag) (s : State) :
    flagAt (putFlag i x s) n = if n = i then x else flagAt s n := tget_tput _ _ _ _ _

theorem groupAt_putGroup (g n : Nat) (x : Group) (s : State) :
    groupAt (putGroup g x s) n = if n = g then x else groupAt s n := tget_tput _ _ _ _ _

/-- A dictionary value reads as it was last put. -/
theorem odv_odPut_same (i j v : Nat) (s : State) : odv (odPut i j v s) i j = v := by
  simp [odv, find_tput_same]

theorem odv_odPut_other {i j k l : Nat} (v : Nat) (s : State) (h : odKey k l ≠ odKey i j) :
    odv (odPut i j v s) k l = odv s k l := by
  simp [odv, find_tput_other _ v h]

theorem odv_of_od {s t : State} (h : t.od = s.od) (i j : Nat) : odv t i j = odv s i j := by
  unfold odv; rw [h]

/-- A trace record changes nothing while the trace unit is off (R499). -/
theorem trace_off (kind cls unit payload : Nat) {s : State} (h : odv s 0x7200 1 ≠ 1) : trace kind cls unit payload s = s := by
  unfold trace; rw [if_neg fun hc => h hc.1]

end Sys2Proof.Machine
end

