-- ==== Sys2Proof/Laws/Spec.lean ====
section
/-! SUPPORT. What each shared operation can change, said once: an equation that names the parts of the state an
operation may touch, and what it does to the value it is for. -/

namespace Sys2Proof.Machine

/-! ### Events -/

@[simp] theorem event_on (s t : State) : event true s t = .next { t with pending := s.pending } := rfl
@[simp] theorem event_off (s t : State) : event false s t = .next s := rfl

theorem event_of {ok : Bool} {s t : State} (h : ok = true) : event ok s t = .next { t with pending := s.pending } := by
  subst h; rfl

theorem event_not {ok : Bool} {s t : State} (h : ok = false) : event ok s t = .next s := by subst h; rfl

/-- An event answers a next state with the queue as it was. -/
theorem event_next (ok : Bool) (s t : State) : ∃ u, event ok s t = .next u ∧ u.pending = s.pending := by
  cases ok <;> exact ⟨_, rfl, rfl⟩

/-! ### Counters -/

theorem odBump_eq (i j n : Nat) (s : State) : odBump i j n s = { s with od := (odBump i j n s).od } := rfl

/-- A counter rises by `n` modulo its type's size. -/
theorem odv_odBump_same {i j n w : Nat} (s : State)
    (h : (match odFind i j with | some r => 8 * tySize r.ty | none => 64) = w) :
    odv (odBump i j n s) i j = (odv s i j + n) % 2 ^ w := by
  subst h; exact odv_odPut_same _ _ _ _

theorem odv_odBump_other {i j n k l : Nat} (s : State) (h : odKey k l ≠ odKey i j) :
    odv (odBump i j n s) k l = odv s k l := odv_odPut_other _ _ h

/-! ### Reports -/

theorem reportAs_eq (k level dep code unit cell action addr : Nat) (tag : Option Nat) (inj : Bool) (s : State) :
    reportAs k level dep code unit cell action addr tag inj s
      = { s with rel := { s.rel with queues := (reportAs k level dep code unit cell action addr tag inj s).rel.queues }
                 od := (reportAs k level dep code unit cell action addr tag inj s).od } := by
  unfold reportAs; dsimp only; repeat' (first | rfl | split)

theorem report_eq (code unit cell action addr : Nat) (tag : Option Nat) (inj : Bool) (s : State) :
    report code unit cell action addr tag inj s
      = { s with rel := { s.rel with queues := (report code unit cell action addr tag inj s).rel.queues }
                 od := (report code unit cell action addr tag inj s).od } := reportAs_eq ..

theorem disarm_eq (code unit : Nat) (s : State) :
    disarm code unit s = { s with rel := { s.rel with armed := (disarm code unit s).rel.armed }, od := (disarm code unit s).od } := rfl

theorem setSt_eq (n : Nat) (s : State) :
    setSt n s = { s with mgmt := { s.mgmt with st := n }, od := (setSt n s).od } := by
  unfold setSt; split
  · next h => subst h; rfl
  · rfl

@[simp] theorem setSt_st (n : Nat) (s : State) : (setSt n s).mgmt.st = n := by rw [setSt_eq]

/-! ### Early ends -/

theorem releaseArrivals_eq (c : Cmd) (s : State) : releaseArrivals c s = { s with blocks := (releaseArrivals c s).blocks } := by
  unfold releaseArrivals; dsimp only; repeat' (first | rfl | split)

theorem endCmd_eq (uid status detail : Nat) (s : State) :
    endCmd uid status detail s
      = { s with front := { s.front with cmds := (endCmd uid status detail s).front.cmds
                                         items := (endCmd uid status detail s).front.items }
                 blocks := (endCmd uid status detail s).blocks, regions := (endCmd uid status detail s).regions
                 e2e := (endCmd uid status detail s).e2e, localRels := (endCmd uid status detail s).localRels } := by
  unfold endCmd; split
  · rfl
  · simp only; split
    · rfl
    · rw [releaseArrivals_eq]; rfl

theorem endCmds_eq (cs : List Cmd) (st det : Nat) (s : State) :
    ∃ (f : List Cmd × List (Nat × Nat)) (b : List (Nat × Block)) (r : List (Nat × Region)) (e : List E2e) (l : List LocalRel),
    cs.foldl (fun s c => endCmd c.uid st det s) s
      = { s with front := { s.front with cmds := f.1, items := f.2 }, blocks := b, regions := r, e2e := e, localRels := l } := by
  induction cs generalizing s with
  | nil => exact ⟨(s.front.cmds, s.front.items), _, _, _, _, rfl⟩
  | cons c r ih =>
    rw [List.foldl_cons]
    obtain ⟨f, b, g, e, l, h⟩ := ih (endCmd c.uid st det s)
    rw [h, endCmd_eq]
    exact ⟨f, b, g, e, l, rfl⟩

/-- Entering FAULT ends the commands in flight and changes the dictionary state. -/
theorem enterFault_eq (s : State) :
    ∃ (f : List Cmd × List (Nat × Nat)) (b : List (Nat × Block)) (r : List (Nat × Region)) (e : List E2e) (l : List LocalRel)
      (o : List (Nat × Nat)),
    enterFault s
      = { s with mgmt := { s.mgmt with st := 4, stopPending := false }, od := o
                 front := { s.front with cmds := f.1, items := f.2 }, blocks := b, regions := r, e2e := e, localRels := l } := by
  obtain ⟨f, b, r, e, l, h⟩ := endCmds_eq s.front.cmds stResetAbort noDetail s
  refine ⟨f, b, r, e, l, (enterFault s).od, ?_⟩
  unfold enterFault
  simp only
  rw [setSt_eq, h]

end Sys2Proof.Machine
end

