-- ==== Sys2Proof/Tests/Slice0.lean ====
section
/-! SUPPORT. Tests of the model's author: ill-formed terms the well-formedness check refuses, check codes and encodings
the manual states, single steps, and for each statement a state and operands that meet its hypotheses. -/

namespace Sys2Proof.Tests

set_option Elab.async false

open Sys2Proof Sys2Proof.Machine

/-! ### Small states -/

/-- OPERATIONAL, with regions 0 and 1 present. -/
def up : State :=
  { State.reset with
    boot := { Boot.atReset with resetN := true, pll := true, strapDone := true, fuseDone := true, frames := true,
                                stage := 15, present := 3 }
    mgmt := { Mgmt.atReset with st := 2 } }

/-- The same in another state of the dictionary. -/
def inSt (n : Nat) : State := { up with mgmt := { Mgmt.atReset with st := n } }

/-- A number of root cycles after power-up. -/
def atSlot (n : Nat) (s : State) : State := { s with clocks := { slot := n, fc := n, opSlot := n } }

def withPower (p : Power) (s : State) : State := { s with power := p }
def withBoot (b : Boot) (s : State) : State := { s with boot := b }
def withOd (l : List (Nat × Nat × Nat)) (s : State) : State := l.foldl (fun s e => odPut e.1 e.2.1 e.2.2 s) s

/-- A descriptor from (low bit, value) pairs, with its check. -/
def desc (l : List (Nat × Nat)) : Descriptor :=
  let v := (l.map fun x => x.2 * 2 ^ x.1).sum
  BitVec.ofNat 1024 (v + crc32c (toBytes 124 v) * 2 ^ 992)


/-- What the decoders say of a flit whose codewords have no error; and of one, the first of its 20, with a codeword of 16. -/
def clean : Fec := { errs := List.replicate 8 0, first := false }
def torn : Fec := { errs := [0, 16, 3, 0, 0, 0, 0, 15], first := true }

/-- What a function shows of the state a step answers. -/
def after {α : Type} (f : State → α) (o : Out) : Option α :=
  match o with
  | .next t => some (f t)
  | _ => none

/-! ### Ill-formed commands are refused -/

theorem wf_refuses_tags : Instr.wf (.create 512) = false
    ∧ Instr.wf (.completionDecided 512) = false
    ∧ Instr.wf (.deadlineExpiry 512 0) = false := by decide +kernel
theorem wf_refuses_blocks : Instr.wf (.arrayStep 320) = false
    ∧ Instr.wf (.blockRecovery 320) = false
    ∧ Instr.wf (.blockTestDone 320 true) = false
    ∧ Instr.wf (.arrivalTilePresent 0 256) = false
    ∧ Instr.wf (.arrivalTilePresent 320 0) = false
    ∧ Instr.wf (.spRestored 65536) = false
    ∧ Instr.wf (.selfTestBatchDone [320]) = false := by decide +kernel
theorem wf_refuses_regions : Instr.wf (.walkRequest 8) = false
    ∧ Instr.wf (.marginFloorReport 8 0) = false
    ∧ Instr.wf (.scrub 8 0 [] []) = false
    ∧ Instr.wf (.scrub 0 3145729 [] []) = false
    ∧ Instr.wf (.scrub 0 0 [40] []) = false := by decide +kernel
theorem wf_refuses_pools : Instr.wf (.pageDropAuto 8) = false
    ∧ Instr.wf (.poolShrink 8 0) = false
    ∧ Instr.wf (.flagReset 65536) = false := by decide +kernel
theorem wf_refuses_frames : Instr.wf (.dictWrite 65536 0 []) = false
    ∧ Instr.wf (.dictWrite 0 256 []) = false
    ∧ Instr.wf (.read .ring (List.replicate 262 0)) = false
    ∧ Instr.wf (.mctp (List.replicate 262 0)) = false := by decide +kernel
theorem wf_refuses_ports : Instr.wf (.portRetrain 6 1) = false
    ∧ Instr.wf (.linkKeySlot 6 0 []) = false
    ∧ Instr.wf (.linkKeySlot 0 2 []) = false
    ∧ Instr.wf (.headFlit 6 0 clean) = false
    ∧ Instr.wf (.ackFlit 6 0 clean) = false
    ∧ Instr.wf (.dataFlit 0 0 { clean with errs := [0] }) = false
    ∧ Instr.wf (.ackFlit 0 0 { clean with errs := List.replicate 8 545 }) = false
    ∧ Instr.wf (.ctrlTraining 6 { node := 0, dimX := 1, dimY := 1, dimZ := 1, port := 0, encrypt := false, acked := false }) = false
    ∧ Instr.wf (.ctrlTraining 0 { node := 0, dimX := 1, dimY := 1, dimZ := 1, port := 6, encrypt := false, acked := false }) = false
    ∧ Instr.wf (.ctrlRetryRequest 6 0) = false
    ∧ Instr.wf (.ctrlRetryRequest 0 4096) = false
    ∧ Instr.wf (.flitSlot 6) = false
    ∧ Instr.wf (.phyReady 6) = false := by decide +kernel
theorem wf_refuses_memory_ports : Instr.wf (.memRequestIssue 16) = false
    ∧ Instr.wf (.memReadResponse 16 0 0 0) = false
    ∧ Instr.wf (.memWriteResponse 16 0) = false
    ∧ Instr.wf (.memRespTimeout 16 true 0) = false
    ∧ Instr.wf (.memRespTimeout 0 true 4096) = false := by decide +kernel
theorem wf_refuses_collectors : Instr.wf (.errorReportAccept 4 0) = false
    ∧ Instr.wf (.errorReportAccept 1 320) = false
    ∧ Instr.wf (.mireWatchExpiry 2 8) = false
    ∧ Instr.wf (.mireWatchExpiry 3 1) = false := by decide +kernel
theorem wf_accepts : Instr.wf (.arrayStep 319) = true ∧ Instr.wf (.create 511) = true ∧ Instr.wf (.mireWatchExpiry 3 0) = true := by decide +kernel

/-! ### Pins, start-up, test access -/

/-- Before the straps, before the PLL, before fuse load, and in the steps after. -/
def early : State := { State.reset with boot := { Boot.atReset with resetN := true } }
def strapped : State := { State.reset with boot := { Boot.atReset with resetN := true, strapDone := true, stage := 1, straps := 0x18 } }
def fused : State :=
  { strapped with
    boot := { strapped.boot with fuseDone := true }
    power := { Power.atReset with vFuse := 800 } }
def fused30 : State := { fused with power := { Power.atReset with vFuse := 800, vid := 30 } }
def fused20 : State := { fused with power := { Power.atReset with vFuse := 750, vid := 30 } }
def fusedBad : State := { fused with boot := { fused.boot with fuseBad := true } }
def strapsBad : State := { fused with boot := { fused.boot with strapBad := true } }
def noneFitted : State := { fused with boot := { fused.boot with fuseDisable := 3 } }
/-- After the root PLL's lock, in a given step. -/
def booting (stage : Nat) : State := { up with boot := { up.boot with stage := stage, present := 1 } , mgmt := Mgmt.atReset }
def someFuses : FuseValues :=
  { uncorrectable := false, fuseDisable := 0, vFuseMv := 800, serial := 7, fwKeyHash := 0, ownerKeyHash := 0,
    provisionedMarker := 0x2A5A5A5, deployedMarker := 0, returnedMarker := 0, svnMarkers := [0x2A5A5A5], raiseThreshold := 30,
    holdThreshold := 20, floorThreshold := 10, repair := [] }

theorem wit_front_command : { up with pending := [.idcode, .bypass] }.pending = .idcode :: [.bypass] := by decide +kernel
theorem wit_idle_step : up.pending = [] ∧ live up = true ∧ 0 ∈ countingBlocks up ∧ 319 ∉ countingBlocks up := by decide +kernel
theorem wit_ignored : live State.reset = false ∧ boundaryRow (.powerLoopEval 0 0) = false := by decide +kernel
theorem wit_reset_fall : up.boot.resetN = true ∧ up.boot.pwrGood = true := by decide +kernel
theorem wit_power_rise : { up with boot := { up.boot with pwrGood := false } }.boot.pwrGood = false := by decide +kernel
theorem wit_reset_rise : State.reset.boot.pwrGood = true ∧ State.reset.boot.resetN = false := by decide +kernel
theorem wit_straps : early.boot.pwrGood = true ∧ early.boot.resetN = true ∧ early.boot.dead = false
    ∧ early.boot.strapDone = false ∧ early.boot.frames = false ∧ early.boot.staticCode = false := by decide +kernel
theorem wit_pll : strapped.boot.pwrGood = true ∧ strapped.boot.resetN = true ∧ strapped.boot.dead = false
    ∧ strapped.boot.strapDone = true ∧ strapped.boot.pll = false ∧ strapped.boot.failure = 0 ∧ strapped.boot.fuseDone = false := by
  decide +kernel
theorem wit_lock_after_fuses : fused.boot.pwrGood = true ∧ fused.boot.resetN = true ∧ fused.boot.dead = false
    ∧ fused.boot.strapDone = true ∧ fused.boot.pll = false ∧ fused.boot.failure = 0 ∧ fused.boot.fuseDone = true
    ∧ fused.power.avsWait = false := by decide +kernel
theorem wit_avs_timeout : (let s : State := { atSlot 1500000 up with power := { Power.atReset with avsWait := true } }
    live s = true ∧ s.power.avsWait = true ∧ s.power.avsLate = false ∧ refNow s ≥ s.power.avsRef + 100000
    ∧ ¬ (s.boot.stage = 3 ∧ s.boot.failure = 0)) := by decide +kernel
theorem wit_avs_timeout_startup : (let s : State := { atSlot 1500000 (booting 3) with power := { Power.atReset with avsWait := true } }
    live s = true ∧ s.power.avsWait = true ∧ s.power.avsLate = false ∧ refNow s ≥ s.power.avsRef + 100000
    ∧ s.boot.stage = 3 ∧ s.boot.failure = 0) := by decide +kernel
theorem wit_image_bad : live (booting 4) = true ∧ (booting 4).boot.failure = 0
    ∧ checkImage (booting 4) true (imageBase (booting 4).boot.location) = .inl 5 := by decide +kernel
/-- A key whose private half is known, its hash, and an image of four bytes that it has signed. -/
def signer : List Byte := toBytesBE 96 0x69d7320e0ea31c1911806e5bd560da015a347f63ff41f1ccd1c7623db3dfe78d9129641bf6a9c132635ea88c2b9d4c48c5e19c8823d26d5bbc5f2fa48864307b55f3992a9551ed3dcfc702c68d9a3db1976cb180dbc4fb862c7495a53b216a58
def signerHash : Nat := 4498121100566881798668189496265337828748597124645619267837522036527923485958009185205273307222394288974751770249233
def signedImage : List Byte :=
  toBytesBE 16 0x4a514657010000000400000001020000 ++ List.replicate 48 0 ++ signer ++ List.replicate 256 0
  ++ toBytesBE 96 0x6de68dc0506594cdf3caa01d61d01026332393908cd18d9245df8bb0a925fa7097a6b5abd74bb3d4e6f84522ad9b19b74fd44b80e606d8c800c22f5d24c5dedf5040f43a81fbd02841be89b79d77be2a7ab50977084779229c107f9a87a86915 ++ toBytesBE 4 0x13000000
def imaged : State :=
  { booting 4 with
    sec := { (booting 4).sec with fwKeyHash := signerHash }
    mem := memWrite 0x100000000 signedImage [] }
theorem imaged_mem : imaged.mem = memWrite 0x100000000 signedImage [] := by simp only [imaged]
theorem signedImage_length : signedImage.length = 516 := by decide +kernel
theorem imaged_read (i n : Nat) (h : i + n ≤ 516) :
    hostBytes imaged (0x100000000 + i) n = (signedImage.drop i).take n := by
  apply List.ext_getElem
  · simp only [hostBytes, List.length_map, List.length_range, List.length_take, List.length_drop, signedImage_length]
    omega
  · intro k h1 h2
    have hk : k < n := by simpa [hostBytes] using h1
    have ha : addr52 (0x100000000 + i + k) = 0x100000000 + i + k := Nat.mod_eq_of_lt (by omega)
    simp only [hostBytes, hostByte, List.getElem_map, List.getElem_range, List.getElem_take, List.getElem_drop, ha]
    rw [imaged_mem, memGet_memWrite, if_pos ⟨by omega, by rw [signedImage_length]; omega⟩, show 0x100000000 + i + k - 0x100000000 = i + k by omega,
      List.getD_eq_getElem?_getD, List.getElem?_eq_getElem (by rw [signedImage_length]; omega)]
    rfl
theorem wit_image_good : live imaged = true ∧ imaged.boot.failure = 0 ∧ imageBase imaged.boot.location = 0x100000000
    ∧ checkImage imaged false 0x100000000 = .inr signedImage := by
  have h : hostBytes imaged 0x100000000 512 = signedImage.take 512 := imaged_read 0 512 (by omega)
  have hl : ofBytes (((signedImage.take 512).drop 8).take 4) = 4 := by decide +kernel
  refine ⟨by decide +kernel, rfl, rfl, ?_⟩
  simp only [checkImage, h, hl, imaged_read 512 4 (by omega)]
  decide +kernel
/-- The digest of "abc", from FIPS 180-4's example. -/
theorem test_sha384 : sha384Bytes [0x61, 0x62, 0x63] = toBytesBE 48
    0xcb00753f45a35e8bb5a03d699ac65007272c32ab0eded1631a8b605a43ff5bed8086072ba1e7cc2358baeca134c825a7 := by decide +kernel
theorem wit_cores : live (booting 7) = true ∧ (booting 7).boot.stage = 7 ∧ (booting 7).boot.failure = 0 := by decide +kernel
theorem wit_batch : (let s : State := booting 8
    live s = true ∧ s.boot.stage = 8 ∧ s.boot.failure = 0 ∧ s.boot.batch < 9 ∧ 0 ∈ presentBlocks s ∧ 0 % 40 / 4 = s.boot.batch) := by
  decide +kernel
theorem wit_last_batch : (let s : State := { booting 8 with boot := { (booting 8).boot with batch := 9 } }
    live s = true ∧ s.boot.stage = 8 ∧ s.boot.failure = 0 ∧ s.boot.batch = 9
    ∧ ∃ b ∈ presentBlocks s, (blockAt s b).retired = false) := by decide +kernel
theorem wit_last_batch_quiet : ∀ b, fires 9 b { booting 8 with boot := { (booting 8).boot with batch := 9 } } = none := fun _ => rfl

theorem test_straps : after (fun t => (t.boot.straps, t.boot.strapDone, t.boot.stage, t.boot.strapBad)) (exec (.strapSample 0x18) early)
    = some (0x18, true, 1, false) := by decide +kernel
theorem test_straps_reserved : after (fun t => t.boot.strapBad) (exec (.strapSample 0x800) early) = some (true) := by decide +kernel
theorem test_idcode : after (fun t => t.sec.tapIr) (exec .idcode up) = some 1 := by decide +kernel

/-! ### Power and time -/

def hot : State := withPower { Power.atReset with therm := 3 } (atSlot 1500000 up)
def tripped : State := withPower { Power.atReset with trip := true } up
def calm : State := withPower { Power.atReset with cap := 2 } (atSlot 150000 up)
def ramping : State := withPower { Power.atReset with rampOpen := true } (atSlot 4000000 up)
def hinted : State :=
  withPower { Power.atReset with hint := some { phase := 3, startFc := 0, lenFc := 100, leadFc := 64, steps := 7 } } (atSlot 4000000 up)
def withBlock (b : Nat) (x : Block) (s : State) : State := { s with blocks := tput b x s.blocks }

theorem wit_power_loop : live calm = true ∧ (∃ est, est * 100 > 125 * capInForce calm)
    ∧ 1000 * 100 ≤ 125 * capInForce up ∧ 1000 > capInForce up ∧ up.power.filler > 0
    ∧ (withPower { Power.atReset with filler := 0 } up).power.filler = 0
    ∧ 0 ≤ capInForce calm ∧ 0 * 100 ≤ 95 * capInForce calm ∧ refNow calm ≥ calm.power.calmRef + 10000 ∧ calm.power.cap > 0
    ∧ ¬ (refNow up ≥ up.power.calmRef + 10000) := ⟨by decide, ⟨2000, by decide +kernel⟩, by decide +kernel⟩
theorem wit_power_loop_calm : refNow (atSlot 150000 up) ≥ (atSlot 150000 up).power.calmRef + 10000 ∧ (atSlot 150000 up).power.cap = 0 := by
  decide +kernel
theorem wit_thermal : live hot = true ∧ (760 : Int) ≥ odv hot 0x5200 4 * 8 ∧ (736 : Int) ≤ odv hot 0x5200 4 * 8 - 24 ∧ hot.power.therm > 0
    ∧ refNow hot ≥ max hot.power.coolRef hot.power.thermRef + 100000 ∧ (740 : Int) < odv hot 0x5200 4 * 8
    ∧ (740 : Int) > odv hot 0x5200 4 * 8 - 24 := by decide +kernel
theorem wit_trip : (880 : Int) ≥ 110 * 8 ∧ live up = true ∧ up.power.trip = false ∧ live tripped = true
    ∧ (760 : Int) ≤ odv tripped 0x5200 4 * 8 ∧ tripped.power.trip = true := by decide +kernel
theorem wit_trim : live up = true
    ∧ opRef (atSlot 129600000000000 up) ≥ (atSlot 129600000000000 up).power.periodOp + 8640000000000
    ∧ (let s := withPower { Power.atReset with floorTh := 10, trimCheck := true } up
       regionPresent s 1 = true ∧ 9 < s.power.floorTh ∧ s.power.trimCheck = true ∧ 5 ≥ s.power.holdTh
       ∧ ¬ (0 ≥ (withPower { Power.atReset with holdTh := 1, trimCheck := true } up).power.holdTh)) := by decide +kernel
/-- Trimming is checked 1 ms after its start, with a slack threshold of one. -/
def trimming : State := withPower { Power.atReset with holdTh := 1, trimCheck := true, trimRef := 50000 } (atSlot 2250000 up)
theorem wit_trim_check : live trimming = true ∧ trimming.power.trimCheck = true ∧ refNow trimming ≥ trimming.power.trimRef + 100000
    ∧ 1 ≥ trimming.power.holdTh ∧ ¬ (0 ≥ trimming.power.holdTh) := by decide +kernel
theorem wit_avs_ack : (let s := withPower { Power.atReset with avsWait := true } up
    live s = true ∧ s.power.avsWait = true ∧ s.boot.stage ≠ 3 ∧ s.power.vid ≤ 40 ∧ s.power.vid = s.power.vidTarget)
    ∧ (let s := withPower { Power.atReset with avsWait := true, vidTarget := 0 } up
       live s = true ∧ s.power.avsWait = true ∧ s.boot.stage ≠ 3 ∧ s.power.vid ≤ 40 ∧ s.power.vid ≠ s.power.vidTarget) := by decide +kernel
theorem wit_droop : live up = true ∧ blockPresent up 79 = true ∧ (blockAt up 79).stretching = false ∧ (blockAt up 79).gated = false
    ∧ (blockAt up 79).retired = false ∧ (blockAt (withBlock 79 { block0 with stretching := true } up) 79).stretching = true := by
  decide +kernel
theorem wit_gated : (let s := withPower { Power.atReset with cap := 9 } up
    live s = true ∧ blockPresent s 35 = true ∧ marked (stepInForce s) 35 = true ∧ blockIdle (blockAt s 35) = true
    ∧ (blockAt s 35).gated = false) := by decide +kernel
theorem wit_fall : (let s := withBlock 1 { block0 with fall := 1 } (atSlot 4000000 up)
    live s = true ∧ (blockAt s 1).fall > 0 ∧ (blockAt s 1).gated = false ∧ mcNow s ≥ (blockAt s 1).fallMc + 3 * odv s 0x5020 1 / 64) := by
  decide +kernel
theorem wit_pre_ramp_expiry : (let s := withBlock 1 { block0 with preRamp := 8 } up
    live s = true ∧ (blockAt s 1).preRamp = 8 ∧ blockIdle (blockAt s 1) = true ∧ ∀ h, s.power.hint = some h → False) :=
  ⟨rfl, rfl, rfl, fun _ h => by cases h⟩
theorem wit_ramp : live ramping = true ∧ ramping.power.rampOpen = true ∧ ramping.power.rampStep < 7
    ∧ mcNow ramping ≥ ramping.power.rampMc + (ramping.power.rampStep + 1) * (3 * odv ramping 0x5020 1 / 64)
    ∧ mcNow ramping ≥ ramping.power.rampMc + 3 * odv ramping 0x5020 1 / 8 := by decide +kernel
theorem wit_hint : live hinted = true ∧ ∃ h, hinted.power.hint = some h ∧ 2 ≤ h.phase ∧ h.phase ≤ 6 ∧ h.leadFc ≥ 64 ∧ h.steps < 8
    ∧ hinted.clocks.fc ≥ h.startFc + h.leadFc - min h.leadFc (3 * odv hinted 0x5020 1 / 2)
        + min h.leadFc (3 * odv hinted 0x5020 1 / 2) * (h.steps + 1) / 8
    ∧ hinted.clocks.fc ≥ h.startFc + h.leadFc + h.lenFc := ⟨by decide, _, rfl, by decide +kernel⟩
/-- The interval of a hint of phase 7 ends; block 79 has been idle and is held, block 78 has not. -/
def idling : State :=
  withPower { Power.atReset with hint := some { phase := 7, startFc := 0, lenFc := 100, leadFc := 64, steps := 8 } }
    (withBlock 79 { block0 with idleRun := 40 } (withBlock 78 { block0 with idleRun := 2 ^ 40 } (atSlot 4000000 up)))
theorem wit_hint_idle : live idling = true ∧ (∃ h, idling.power.hint = some h ∧ h.phase = 7
    ∧ idling.clocks.fc ≥ h.startFc + h.leadFc + h.lenFc ∧ 79 ∈ countingBlocks idling ∧ (blockAt idling 79).gated = false
    ∧ blockIdle (blockAt idling 79) = true ∧ bit (odv idling 0x5010 2) (idleCause idling 79) = false ∧ (blockAt idling 79).fall = 0
    ∧ (blockAt idling 79).idleRun ≤ 2 * (idling.clocks.fc - (h.startFc + h.leadFc))
    ∧ ¬ (blockAt idling 78).idleRun ≤ 2 * (idling.clocks.fc - (h.startFc + h.leadFc))) := ⟨by decide, _, rfl, by decide +kernel⟩
theorem wit_frame : live up = true ∧ up.boot.frames = true := by decide +kernel

theorem test_cap_emergency : after (fun t => t.power.cap) (exec (.powerLoopEval 1101 0) calm) = some (6) := by decide +kernel
theorem test_marl_cap : odNow (withPower { Power.atReset with code := 15 } up) 0x5000 2 = 280 := by decide +kernel
theorem test_trip_gates : after (fun t => (blockAt t 79).gated) (exec (.thermalTrip 880) up) = some (true) := by decide +kernel

/-! ### Commands -/

/-- A command just accepted, its arguments examined; the same dispatched; commands in flight. -/
def cmd (uid : Nat) (d : Descriptor) : Cmd := { newCmd up d with uid := uid, argDone := true }
def running (uid : Nat) (d : Descriptor) : Cmd := { cmd uid d with dispatched := true }
def withCmds (l : List Cmd) (s : State) : State := { s with front := { s.front with cmds := l, nextUid := l.length + 1 } }
/-- A command with its argument slots. -/
def slotted (l : List ArgSlot) (c : Cmd) : Cmd := { c with slots := l }

def dNop (tag : Nat) : Descriptor := desc [(0, 0x7F), (8, tag)]
def dFence5 : Descriptor := desc [(0, 0x62), (8, 5), (256, 2 ^ 64 - 1)]
def dFenced : Descriptor := desc [(0, 0x7F), (8, 9), (23, 1)]
def dWaits5 : Descriptor := desc [(0, 0x7F), (8, 6), (29, 1), (32, 5 + 2 ^ 15)]
def dSelfWait : Descriptor := desc [(0, 0x7F), (8, 6), (32, 6 + 2 ^ 15)]
def dLate : Descriptor := desc [(0, 0x7F), (8, 1), (192, 1)]
def dGather : Descriptor := desc [(0, 0x40), (8, 2), (180, 3)]
def dMoe : Descriptor := desc [(0, 0x31), (8, 3), (180, 6), (256, 4), (281, 8), (290, 2)]
def dBad : Descriptor := 0x7F
def dUnknown : Descriptor := desc [(0, 0x7E), (8, 4)]
/-- COPY of 64 bytes to host memory, its two slots read from address 0. -/
def zeros32 : List Byte := List.replicate 32 0
def dCopy : Descriptor := desc [(0, 0x50), (8, 5), (180, 2), (224, crc32c zeros32), (256, 64)]
def dCopyBad : Descriptor := desc [(0, 0x50), (8, 5), (180, 2), (224, 1), (256, 64)]

def ready : State := { up with front := { Front.atReset with credits := 2, egress := 1 } }
def withNop : State := withCmds [cmd 1 (dNop 5)] ready

theorem wit_accept : descriptorOf (.nop (dNop 5)) = some (dNop 5) ∧ live ready = true ∧ ready.front.credits > 0
    ∧ fires 0x23 0 ready = none ∧ dCrcOk (dNop 5) = true ∧ byTag ready (dTag (dNop 5)) = none := by decide +kernel
theorem wit_accept_unknown : descriptorOf (.unknownOpcode dUnknown) = some dUnknown ∧ dCrcOk dUnknown = true := by decide +kernel
theorem wit_refuse_check : descriptorOf (.nop dBad) = some dBad ∧ live ready = true ∧ ready.front.credits > 0
    ∧ fires 0x23 0 ready = none ∧ dCrcOk dBad = false := by decide +kernel
theorem wit_refuse_tag : live withNop = true ∧ withNop.front.credits > 0 ∧ fires 0x23 0 withNop = none
    ∧ (byTag withNop (dTag (dNop 5))).isSome = true := by decide +kernel
theorem wit_no_credit : live up = true ∧ descriptorOf (.nop (dNop 5)) = some (dNop 5) ∧ up.front.credits = 0
    ∧ (tget [] up.rel.queues 3000).length < 16 := by decide +kernel
theorem wit_no_credit_full : (let s : State := { up with rel := { Rel.atReset with queues := [(3000, List.replicate 16
      { code := 0x25, severity := 2, unit := 0, cell := 0, action := 0, injected := false, addr := 0, tag := none, level := 0, dep := 0 })] } }
    live s = true ∧ (tget [] s.rel.queues 3000).length ≥ 16) := by decide +kernel
theorem wit_waits : (∀ x ∈ withNop.front.cmds, x.uid < withNop.front.nextUid) ∧ (newCmd withNop dWaits5).waits = [1]
    ∧ dWaitValid dSelfWait 0 = true ∧ dWaitTag dSelfWait 0 = dTag dSelfWait := by decide +kernel
theorem wit_fence : (let s := withCmds [cmd 1 dFenced] ready
    (nextDispatch s).map (fun c => (c.uid, dFence c.desc)) = some (1, true)) ∧ bit (odv up 0x2200 1) (dStream (dNop 5)) = true := by
  decide +kernel
theorem wit_dispatch : live withNop = true ∧ fires 0x20 0 withNop = none ∧ nextDispatch withNop = some (cmd 1 (dNop 5))
    ∧ (cmd 1 (dNop 5)).reject = none ∧ dOp (cmd 1 (dNop 5)).desc = 0x7F := by decide +kernel
theorem wit_dispatch_rejected : (let c : Cmd := { cmd 1 (dNop 5) with reject := some (0x0101, 0xFFFF) }
    nextDispatch (withCmds [c] ready) = some c) := by decide +kernel
/-- A command whose argument lines have come. -/
def argsRead (d : Descriptor) : Cmd := { cmd 1 d with argDone := false }
theorem wit_arguments : (let s := withCmds [argsRead dCopy] ready
    live s = true ∧ byTag s 5 = some (argsRead dCopy) ∧ (argsRead dCopy).argDone = false ∧ (argsRead dCopy).argWait = []
    ∧ cmdOf s 1 = some (argsRead dCopy) ∧ (argsRead dCopy).ending = none ∧ (argsRead dCopy).decided = false
    ∧ (argsRead dCopy).reject = none ∧ fires 0x24 0 s = none ∧ (argsRead dCopy).argFail = false ∧ (argsRead dCopy).argPoison = false
    ∧ crc32c (hostBytes s (dArgAddr dCopy) (16 * dArgSlots dCopy)) = dArgCrc dCopy ∧ argFaults s dCopy [0, 0] ≠ []) := by decide +kernel
/-- A block in memory whose slots name two places of host memory. -/
def copyBytes : List Byte := [0, 0, 1] ++ List.replicate 15 0 ++ [2] ++ List.replicate 13 0
def dCopyGood : Descriptor := desc [(0, 0x50), (8, 5), (180, 2), (224, crc32c copyBytes), (256, 64)]
def argsGood : State := withCmds [argsRead dCopyGood] { ready with mem := [(2, 1), (18, 2)] }
theorem wit_arguments_good : hostBytes argsGood (dArgAddr dCopyGood) (16 * dArgSlots dCopyGood) = copyBytes
    ∧ crc32c copyBytes = dArgCrc dCopyGood ∧ argFaults argsGood dCopyGood [0x10000, 0x20000] = []
    ∧ byTag argsGood 5 = some (argsRead dCopyGood) ∧ cmdOf argsGood 1 = some (argsRead dCopyGood) := by decide +kernel
def argsBad : State := withCmds [argsRead dCopyBad] ready
def argsFailed : State := withCmds [{ argsRead dCopy with argFail := true }] ready
def argsPoisoned : State := withCmds [{ argsRead dCopy with argPoison := true }] ready
theorem wit_arguments_bad : byTag argsBad 5 = some (argsRead dCopyBad) ∧ cmdOf argsBad 1 = some (argsRead dCopyBad)
    ∧ fires 0x24 0 argsBad = none ∧ crc32c (hostBytes argsBad (dArgAddr dCopyBad) (16 * dArgSlots dCopyBad)) ≠ dArgCrc dCopyBad
    ∧ (byTag argsFailed 5).any (fun c => c.argFail) = true ∧ (byTag argsPoisoned 5).any (fun c => c.argPoison) = true := by decide +kernel
theorem wit_complete : (let c := running 1 (dNop 5)
    let s := withCmds [c] ready
    live s = true ∧ byTag s 5 = some c ∧ c.decided = false ∧ c.writesOut = 0 ∧ c.dispatched = true ∧ workDone s c = true
    ∧ c.acksOut = 0 ∧ s.clocks.fc ≥ c.readyFc ∧ isColl c.desc = false) := by decide +kernel
theorem wit_complete_next_fc : (let c : Cmd := { running 1 (dNop 5) with readyFc := 1 }
    let s := withCmds [c] ready
    byTag s 5 = some c ∧ c.ending = none ∧ s.clocks.fc < c.readyFc) := by decide +kernel
theorem wit_complete_ended : (let c : Cmd := { running 1 dCopy with ending := some (0x0301, 0xFFFF) }
    let s := withCmds [c] ready
    byTag s 5 = some c ∧ c.decided = false ∧ c.writesOut = 0 ∧ c.ending.isSome = true ∧ isColl c.desc = false) := by decide +kernel
theorem wit_complete_waits : (let c : Cmd := { running 1 dCopy with writesOut := 1 }
    byTag (withCmds [c] ready) 5 = some c ∧ c.writesOut ≠ 0) := by decide +kernel
theorem wit_fence_row : (let c := running 2 dFence5
    let s := withCmds [{ running 1 (dNop 4) with decided := true }, c] ready
    live s = true ∧ byTag s 5 = some c ∧ dOp c.desc = 0x62 ∧ c.dispatched = true ∧ c.decided = false ∧ c.ending = none
    ∧ c.writesOut = 0 ∧ c.acksOut = 0 ∧ s.clocks.fc ≥ c.readyFc
    ∧ ∀ x ∈ s.front.cmds, x.uid < c.uid → bit (fld c.desc 256 64) (dStream x.desc) = true → x.decided = true) := by decide +kernel
theorem wit_fence_holds : (let c := running 2 dFence5
    let s := withCmds [running 1 (dNop 4), c] ready
    byTag s 5 = some c ∧ ∃ x ∈ s.front.cmds, x.uid < c.uid ∧ bit (fld c.desc 256 64) (dStream x.desc) = true ∧ x.decided = false) := by
  decide +kernel
theorem wit_record : (let s := withCmds [{ running 1 (dNop 5) with decided := true }] ready
    live s = true ∧ s.front.egress > 0 ∧ recordWaiting s = true) := by decide +kernel
theorem wit_record_refusal : (let s : State := { ready with front := { ready.front with refusals := [(0, refusalRecord dBad 0x0103)] } }
    s.front.egress > 0 ∧ recordWaiting s = true) := by decide +kernel
/-- OPERATIONAL, all classes enabled: what the field rules assume of the state and the descriptor. -/
theorem wit_field_rules : descriptorOf (.nop dLate) = some dLate ∧ dCrcOk dLate = true ∧ byTag ready (dTag dLate) = none ∧ ready.mgmt.st = 2
    ∧ ready.mgmt.stopPending = false ∧ dKaolin dLate = false ∧ opClass (dOp dLate) = some 9
    ∧ dDeadline dLate ≠ 0 ∧ dOp dLate ∉ [0x10, 0x11, 0x12, 0x18] := by decide +kernel
theorem wit_field_rules_group : descriptorOf (.allGather dGather) = some dGather ∧ dCrcOk dGather = true
    ∧ byTag ready (dTag dGather) = none ∧ dKaolin dGather = false ∧ opClass (dOp dGather) = some 7 ∧ bit (odv ready 0x2100 1) 7 = true
    ∧ dOp dGather ∈ [0x40, 0x41] ∧ (groupAt ready (fld dGather 260 8)).st ∉ [1, 2]
    ∧ descriptorOf (.moeRoute dMoe) = some dMoe ∧ dCrcOk dMoe = true ∧ opClass (dOp dMoe) = some 5
    ∧ bit (odv ready 0x2100 1) 5 = true ∧ dOp dMoe = 0x31 ∧ (groupAt ready (fld dMoe 302 8)).st ∉ [1, 2] := by decide +kernel

theorem test_crc32c : crc32c [0x31, 0x32, 0x33, 0x34, 0x35, 0x36, 0x37, 0x38, 0x39] = 0xE3069283 := by decide +kernel
theorem test_submit : after (fun t => t.front.cmds.map fun c => (c.uid, c.reject)) (exec (.nop (dNop 5)) ready) = some [(1, none)] := by
  decide +kernel
theorem test_unknown : after (fun t => t.front.cmds.map fun c => c.reject) (exec (.unknownOpcode dUnknown) ready) = some [some (0x0100, 0)] := by
  decide +kernel
theorem test_refusal : after (fun t => t.front.refusals.map fun r => fld r.2 32 16) (exec (.nop dBad) ready) = some [0x0103] := by decide +kernel

/-! ### Memory, flags, acquires -/

def memReadOf (o : MemOwner) : MemReq := { write := false, addr := 0, wbe := 0, data := 0, poison := 0, prio := false, owner := o }
def memWriteOf (o : MemOwner) : MemReq := { write := true, addr := 0, wbe := 1, data := 7, poison := 0, prio := false, owner := o }
def withPort (n : Nat) (p : MemPort) (s : State) : State := { s with ports := tput n p s.ports }
/-- A read for an argument block and a write of a command, both outstanding at port 15 since power-up. -/
def ported : State :=
  withPort 15 { credits := 1, lastRegion := 7, queue := [memWriteOf (.cmd 1 320)], reads := [{ id := 0, req := memReadOf (.args 1), refAt := 0, drop := false }],
                writes := [{ id := 0, req := memWriteOf (.cmd 1 320), refAt := 0, drop := false }] }
    (withCmds [{ argsRead dCopy with writesOut := 1 }] (atSlot 400000000 ready))
def answeredReq : Outst := { id := 0, req := memReadOf (.args 1), refAt := 0, drop := false }
def writing : Outst := { id := 0, req := memWriteOf (.cmd 1 320), refAt := 0, drop := false }

theorem wit_memory_order : live ported = true ∧ (mportAt ported 15).credits > 0
    ∧ nextRequest ported 15 = some (memWriteOf (.cmd 1 320)) ∧ (mportAt ported 15).reads.length < 4096
    ∧ (mportAt ported 15).writes.length < 4096 ∧ (mportAt ported 15).queue ≠ [] ∧ (∀ x ∈ (mportAt ported 15).queue, reqRegion x ≤ 8) ∧ 0x1000 / 128 = 0x107F / 128 := by decide +kernel
/-- After region 1 comes region 3, whose read of the line must wait for the apex's write of it; the block's own goes. -/
def manyRegions : State :=
  withPort 15 { mport0 with credits := 1, lastRegion := 1, queue := [memWriteOf .engine, memReadOf (.feed 3 120 1 true), { memReadOf (.feed 5 200 1 true) with addr := 2 ^ 23 }] } up
theorem wit_memory_turns : nextRequest manyRegions 15 = some { memReadOf (.feed 5 200 1 true) with addr := 2 ^ 23 }
    ∧ 3 % 9 = ((mportAt manyRegions 15).lastRegion + 1 + 1) % 9 ∧ 5 % 9 = ((mportAt manyRegions 15).lastRegion + 1 + 3) % 9 := by decide +kernel
theorem wit_reads_back : 2 ^ 52 - 1 + [(7 : Byte)].length ≤ 2 ^ 52 ∧ 0x7FFFF + [(7 : Byte)].length ≤ 0x80000 := by decide +kernel
theorem wit_read_response : live ported = true ∧ fires 0x28 15 ported = none ∧ fires 0x29 15 ported = none ∧ evenPar 32 (0 : Word).toNat = true
    ∧ (mportAt ported 15).reads.find? (fun x => x.id = fld (0 : Word) 0 12) = some answeredReq ∧ answeredReq.drop = false
    ∧ fld (0 : Word) 12 2 = 0 ∧ fld (0 : Word) 14 2 = 0 ∧ answeredReq.req.addr % 128 = 0 ∧ answeredReq.req.addr < 2 ^ 52
    ∧ (∀ w < 16, evenPar 65 (fld (0 : BitVec 1024) (64 * w) 64 + fld (0 : BitVec 16) w 1 * 2 ^ 64) = true) := by decide +kernel
theorem wit_read_fails : evenPar 32 (0x3000 : Word).toNat = true ∧ fld (0x3000 : Word) 12 2 ≠ 0
    ∧ (mportAt ported 15).reads.find? (fun x => x.id = fld (0x3000 : Word) 0 12) = some answeredReq
    ∧ evenPar 32 (1 : Word).toNat = false ∧ (mportAt ported 15).reads.find? (fun x => x.id = fld (4095 : Word) 0 12) = none
    ∧ answeredReq.req.write = false ∧ refNow ported ≥ answeredReq.refAt + odv ported 0x6200 10 ∧ answeredReq.req.owner = .args 1 := by decide +kernel
theorem wit_write_response : live ported = true ∧ fires 0x29 15 ported = none ∧ evenPar 16 (0 : BitVec 16).toNat = true
    ∧ (mportAt ported 15).writes.find? (fun x => x.id = fld (0 : BitVec 16) 0 12) = some writing ∧ writing.drop = false
    ∧ writing.req.owner = .cmd 1 320 ∧ fld (0 : BitVec 16) 12 2 = 0 ∧ writing.req.write = true
    ∧ refNow ported ≥ writing.refAt + odv ported 0x6200 10 := by decide +kernel
theorem wit_write_fails : evenPar 16 (0x3000 : BitVec 16).toNat = true ∧ fld (0x3000 : BitVec 16) 12 2 ≠ 0
    ∧ (mportAt ported 15).writes.find? (fun x => x.id = fld (0x3000 : BitVec 16) 0 12) = some writing
    ∧ (cmdOf ported 1).any (fun c => !c.decided && c.ending.isNone && c.reject.isNone) = true
    ∧ evenPar 16 (1 : BitVec 16).toNat = false
    ∧ (mportAt ported 15).writes.find? (fun x => x.id = fld (4095 : BitVec 16) 0 12) = none := by decide +kernel

theorem wit_flag_update : 2 ^ 32 - 1 < 2 ^ 32 ∧ 4 < 5 ∧ (flagAt State.reset 0).scope = 7 := by decide +kernel
/-- Two releases from node 5, after a write of its that still waits; the later one is of narrower scope. -/
def released (scope : Nat) (add : Bool) : RemoteRel := { port := 0, num := 3, src := 5, slot := 4095, add := add, val := 2 ^ 32 - 1, scope := scope, arr := 2, fc := 0 }
def releases : State :=
  withPort 3 { mport0 with queue := [memWriteOf (.peer 5 1)] }
    { up with remoteRels := [released 4 false, { released 3 true with arr := 3 }], arrNo := 4 }
theorem wit_remote_release : live releases = true ∧ nextRel releases = some { released 3 true with arr := 3 }
    ∧ (released 3 true).src ≠ myNode releases := by decide +kernel
theorem wit_remote_release_system : (let s : State := { up with remoteRels := [released 4 false] }
    live s = true ∧ nextRel s = some (released 4 false)) := by decide +kernel

/-- FLAG_ACQUIRE of slot 0 at system scope with a TIMEOUT of 64 FC, and one without. -/
def dAcquire : Descriptor := desc [(0, 0x61), (8, 5), (268, 4), (352, 64)]
def dAcquireNoTime : Descriptor := desc [(0, 0x61), (8, 5), (268, 4)]
def acquiring (d : Descriptor) : State := withCmds [running 1 d] (atSlot 4000 ready)
def acquired : Cmd := { running 1 dAcquire with met := true, invEnd := 32 }
theorem wit_acquire_met : cmdOf (acquiring dAcquire) 1 = some (running 1 dAcquire) ∧ fScope dAcquire ≥ 3
    ∧ (flagAt (acquiring dAcquire) (fIdx dAcquire)).scope = 7 := by decide +kernel
theorem wit_acquire_timeout : (let c := running 1 dAcquire
    let s := acquiring dAcquire
    live s = true ∧ byTag s 5 = some c ∧ dOp c.desc = 0x61 ∧ c.dispatched = true ∧ c.met = false ∧ c.decided = false ∧ c.ending = none
    ∧ c.reject = none ∧ fTimeout c.desc ≠ 0 ∧ s.clocks.fc ≥ c.dispatchFc + fTimeout c.desc ∧ cmdOf s c.uid = some c) := by decide +kernel
theorem wit_acquire_waits : byTag (acquiring dAcquireNoTime) 5 = some (running 1 dAcquireNoTime) ∧ fTimeout dAcquireNoTime = 0 := by decide +kernel
theorem wit_invalidation_end : (let s := withCmds [acquired] (atSlot 4000 ready)
    live s = true ∧ byTag s 5 = some acquired ∧ acquired.met = true ∧ acquired.invEnd ≠ 0 ∧ s.clocks.fc ≥ acquired.invEnd) := by decide +kernel

/-! ### Work items, the array, attention timers -/

/-- GEMM of one output over 64 positions in S64, and one with a held operand; their four slots. -/
def dGemm : Descriptor := desc [(0, 1), (8, 5), (180, 4), (256, 1), (288, 1), (320, 64), (368, 1), (372, 1), (380, 1), (384, 1)]
def dHeld : Descriptor := desc [(0, 1), (8, 5), (180, 4), (256, 1), (288, 1), (320, 64), (368, 1), (372, 1), (380, 1), (384, 1), (388, 2)]
/-- One of 262 144 positions with SPLIT_LONG. -/
def dLong : Descriptor := desc [(0, 1), (8, 5), (28, 1), (180, 4), (256, 1), (288, 1), (320, 262144), (368, 1), (372, 1), (380, 1), (384, 1)]
def gemm (d : Descriptor) : Cmd := { slotted [0x10000, 0x20000, 0, 0x30000] (running 1 d) with itemNext := 1, itemTotal := 1 }
def job0 : Job :=
  { uid := 1, item := 0, todo := [], firsts := 0, flight := [], pq := [], seconds := 0, second := true, step := 1, wait := [],
    fetched := true, outs := [acc0], parked := [], bufs := [], rows := [], rescale := [], hurt := 0 }
def bankSt (n : Nat) : Bank := { bank0 with st := n, uid := 1, group := 2 ^ 32 }
/-- Block 319 of a chip with region 7, with the command in flight. -/
def up7 : State := { ready with boot := { up.boot with present := 0x80 } }
def at319 (x : Block) (d : Descriptor) : State := withBlock 319 x (withCmds [gemm d] up7)
def stepping : State := at319 { block0 with job := some job0, banks := [bankSt 1, { bankSt 2 with item := 1 }, bank0, bank0] } dGemm

theorem wit_place : (let s : State := { withCmds [gemm dGemm] up7 with front := { (withCmds [gemm dGemm] up7).front with items := [(1, 0)] } }
    live s = true ∧ blockPresent s 319 = true ∧ placeFirst (refill s) 319 = some (gemm dGemm, 0) ∧ wantsWalk (refill s) (gemm dGemm) = false) := by
  decide +kernel
def fed (used : Nat) : State :=
  { at319 { block0 with feed := [(1, 0)] } dLong with regions := [(7, { region0 with psum := [(9, 0, used)] })] }
theorem wit_psum : (let s := fed (655360 - 8192)
    live s = true ∧ blockPresent s 319 = true ∧ feedHead s 319 = some (gemm dLong, 0) ∧ (blockAt s 319).retired = false
    ∧ itemReady s (gemm dLong) 0 = true ∧ psumHeld s 319 (gemm dLong) 0 = false
    ∧ ((regionAt s (319 / 40)).psum.map (fun e => e.2.2)).sum + psumNeed s 319 (gemm dLong) 0 ≤ psumArea s) := by decide +kernel
theorem wit_psum_waits : (let s := fed (655361 - 8192)
    feedHead s 319 = some (gemm dLong, 0) ∧ psumHeld s 319 (gemm dLong) 0 = false
    ∧ ((regionAt s (319 / 40)).psum.map (fun e => e.2.2)).sum + psumNeed s 319 (gemm dLong) 0 > psumArea s) := by decide +kernel
theorem wit_array_step : blockRuns stepping 319 = true ∧ (blockAt stepping 319).job = some job0 ∧ cmdOf stepping job0.uid = some (gemm dGemm)
    ∧ job0.fetched = true ∧ 0 < job0.step ∧ (blockAt stepping 319).banks.length = 4
    ∧ (nextProd stepping 319 (gemm dGemm) job0).any (fun r => bankFor (blockAt stepping 319) job0 r.2 == some 0
        && stepReady stepping 319 job0 r.2 && decide (job0.step + 1 < r.2.steps)) = true
    ∧ (∀ code ∈ [1, 2, 4, 8], fires code 319 stepping = none) := by decide +kernel
theorem wit_stationary : (let s := at319 { block0 with job := some job0 } dHeld
    blockRuns s 319 = true ∧ (blockAt s 319).job = some job0 ∧ cmdOf s job0.uid = some (gemm dHeld) ∧ job0.fetched = true ∧ job0.wait = []
    ∧ (nextProd s 319 (gemm dHeld) job0).any (fun r => r.2.held.isSome && (sliceDue (blockAt s 319) r.2 job0.step).isSome) = true
    ∧ drainStuck s 319 = false) := by decide +kernel
/-- Two groups wait to drain; the one that closed earlier goes to the epilogue, which is empty or holds a tile. -/
def closed (es : List Epi) : State :=
  at319 { block0 with epi := es, banks := [bank0, { bankSt 2 with order := 4 }, { bankSt 2 with order := 3 }, bankSt 1] } dGemm
def tile0 : Epi := { uid := 1, item := 0, group := 2 ^ 32, acc := acc0 }
theorem wit_drain : (∀ es ∈ [[], [tile0]], (let s := closed es
    blockRuns s 319 = true ∧ drainNext (blockAt s 319) = some 2 ∧ (∀ k ∈ (blockAt s 319).banks, k.st ≠ 3)
    ∧ feedFrozen (blockAt s 319) = false ∧ drainRoom s 319 ((blockAt s 319).banks.getD 2 bank0) = true)) := by decide +kernel
def draining (k : Bank) : State := at319 { block0 with job := some job0, banks := [bank0, bank0, bank0, { k with st := 3 }] } dGemm
theorem wit_drain_end : (∀ k ∈ [bankSt 3, { bankSt 3 with bypass := true }, { bankSt 3 with way := 1 },
      { bankSt 3 with way := 2, next := some (1, 0, acc0) }],
    blockRuns (draining k) 319 = true ∧ feedFrozen (blockAt (draining k) 319) = false
    ∧ (List.range 4).find? (fun i => ((blockAt (draining k) 319).banks.getD i bank0).st = 3) = some 3) := by decide +kernel
/-- The same product with ROTARY on A and its buffers at 10000h. -/
def dPro : Descriptor := dGemm ||| desc [(432, 2), (544, 0x10000)]
theorem wit_prologue : (let s := at319 { block0 with feed := [(1, 0)] } dPro
    blockRuns s 319 = true ∧ proNext s 319 = some (gemm dPro, 0, 0)) := by decide +kernel
theorem wit_epilogue : (let s := at319 { block0 with epi := [tile0] } dGemm
    blockRuns s 319 = true ∧ writeFull s 319 = false ∧ proNext s 319 = none ∧ (blockAt s 319).bvu = none ∧ (blockAt s 319).epi = tile0 :: []
    ∧ cmdOf s tile0.uid = some (gemm dGemm) ∧ gatePairs dGemm = false ∧ tileWaits (blockAt s 319) (gemm dGemm) tile0 = false
    ∧ (∀ code ∈ [5, 6, 7], fires code 319 s = none)) := by decide +kernel
def landed (n : Nat) : Arrival := { present := false, got := n, want := n, poison := false }
def landing (n : Nat) : State := at319 { block0 with arrivals := [(0, landed n)] } dGemm
theorem wit_arrival : live (landing 4) = true ∧ (blockAt (landing 4) 319).arrivals.find? (fun x => x.1 = 0) = some (0, landed 4)
    ∧ (landed 4).present = false ∧ (landed 4).got ≥ (landed 4).want := by decide +kernel

/-- ATTN_CACHED of sequence 0, one head of width 32, with a deadline of 64 FC. -/
def dCached : Descriptor := desc [(0, 0x12), (8, 5), (180, 5), (192, 64), (512, 1)]
def packing : Cmd := { running 1 dCached with walked := true, packSet := 1, itemTotal := 1 }
def overdue : State := atSlot 4000 (withOd [(0x2200, 2, 1)] (withCmds [packing] up7))
theorem wit_pack_timeout : live overdue = true ∧ byTag overdue 5 = some packing ∧ packing.packSet ≠ 0 ∧ packing.packGo = false
    ∧ packDue overdue packing.packSet = true := by decide +kernel
theorem wit_deadline : dOp packing.desc = 0x12 ∧ paced overdue packing = true ∧ acting packing = true ∧ packing.flags.getLsbD 4 = false
    ∧ overdue.clocks.fc = packing.acceptFc + dDeadline packing.desc + 3936 ∧ cmdOf overdue packing.uid = some packing
    ∧ allStaged overdue packing = false := by decide +kernel

/-! ### The paged cache -/

/-- A number from (low bit, value) pairs. -/
def fields (l : List (Nat × Nat)) : Nat := (l.map fun x => x.2 * 2 ^ x.1).sum
/-- The bytes of a number at an address, as cells of memory. -/
def cells (a n v : Nat) : Memory := (List.range n).filterMap fun i => if bits v (8 * i) 8 = 0 then none else some (a + i, BitVec.ofNat 8 (bits v (8 * i) 8))
/-- Tables, each a sequence with its root and the entries of its leaf: directory in leaf slot twice the sequence, leaf after it. -/
abbrev Tabs := List (Nat × List (Nat × Nat) × List Nat)
def dirOf (seq : Nat) : Nat := 2 * seq
def memOf (ops : List Nat) (metas : List (Nat × Nat)) (ts : Tabs) : Memory :=
  ((List.range ops.length).flatMap fun i => cells (0x10000 + 16 * i) 16 (ops.getD i 0))
  ++ (metas.flatMap fun m => cells (0x100000 + 16 * m.1) 16 m.2)
  ++ (ts.flatMap fun t => cells (0x200000 + 4096 * dirOf t.1) 16 (sealEntry (mkDir 1 (dirOf t.1 + 1) 1))
      ++ (List.range t.2.2.length).flatMap fun i => cells (0x200000 + 4096 * (dirOf t.1 + 1) + 16 * i) 16 (sealEntry (t.2.2.getD i 0)))
  ++ (ts.flatMap fun t => cells (0x300000 + 64 * t.1) 64 (sealRoot (fields ((96, dirOf t.1) :: t.2.1))))

/-- A table of one head of width 32: one sealed BF16 page in frame 0, and frame 1 open with `used` tokens. -/
def liveRoot (used : Nat) : List (Nat × Nat) :=
  [(0, 1), (17, 2), (32, 1), (64, 1), (128, if used = 0 then 0 else 1), (152, used), (157, if used = 0 then 0 else 1), (160, 16 + used)]
/-- Frames 2 to 5 are free, linked in this order. -/
def metas : List (Nat × Nat) := [(0, 1), (2, 3 * 2 ^ 16), (3, 4 * 2 ^ 16), (4, 5 * 2 ^ 16), (5, noFrame * 2 ^ 16)]
/-- One pool of eight frames, sixteen leaf slots, four sequences of one layer. -/
def cacheOf (ops : List Nat) (ts : Tabs) : State :=
  { ready with
    od := [(0x320001, 0x100000), (0x320002, 0x200000), (0x320003, 16), (0x320010, 0x400000), (0x320020, 0x10000), (0x320030, 8 * 2 ^ 24),
           (0x320060, 8), (0x330001, 4), (0x330002, 1), (0x330003, 0x300000)]
    mem := memOf ops metas ts
    paged := { Paged.atReset with heads := [(0, 2)], free := [(0, 4)], leafHead := 12, leafFree := 4, live := [0] } }
def withPaged (p : Paged) (s : State) : State := { s with paged := p }

/-- Sequence 0 is live with two sealed pages, 1 is free, 2 is live with two pages, the second of them empty. -/
def tabs : Tabs := [(0, [(0, 1), (17, 2), (32, 1), (64, 2), (160, 32)], [mkLeaf 1 2 0 0 1, mkLeaf 1 2 1 16 1]),
  (2, [(0, 1), (17, 2), (32, 1), (64, 2), (160, 16)], [mkLeaf 1 2 0 0 1, mkLeaf 0 0 0 0 1])]
def tables (ops : List Nat) : State := cacheOf ops tabs
/-- PT_EDIT of a sequence with a list of operations at 10000h; the copy as it is at its start. -/
def dEdit (seq n : Nat) : Descriptor := desc [(0, 0x21), (8, 5), (180, 1), (256, seq), (355, n)]
def opWord (code a b : Nat) : Nat := code + a * 2 ^ 8 + b * 2 ^ 64
def rootOf (seq : Nat) : Nat := fields ((96, dirOf seq) :: ((tabs.find? fun t => t.1 = seq).map (·.2.1)).getD [(32, 1)])
def editOf (seq : Nat) : EditWork :=
  let v := rootOf seq
  { edit0 with started := true, old := v, root := v, cut := rPages v, sources := [pinOf 1 512 (rootOf 2)] }
def editCmd (seq n : Nat) (e : EditWork) : Cmd := { slotted [0x10000] (running 1 (dEdit seq n)) with edit := some e }
def ok (r : OpRes) : Bool := match r with | .ok _ => true | _ => false
def isInvalid (r : OpRes) : Bool := match r with | .invalid => true | _ => false
def isLimit (r : OpRes) : Bool := match r with | .limit => true | _ => false

/-- CREATE of one head of width 32 with INT8 pages; RELEASE; TRUNCATE to one page; UNMAP of page 1; FORK of pages 0 and 1 of
sequence 2; SET_ATTR. -/
def oCreate : Nat := opWord 1 (3 * 2 ^ 9) 0
def oRelease : Nat := opWord 2 0 0
def oTruncate : Nat := opWord 3 1 16
def oUnmap : Nat := opWord 4 (1 + 2 ^ 16) 0
def oFork : Nat := opWord 5 2 2
def oSetAttr : Nat := opWord 6 (3 * 2 ^ 9 + 4 * 2 ^ 18) 0
/-- What the edit rows assume, with operation w next and v after it. -/
def editHyp (seq w v : Nat) : Bool :=
  let s0 := tables [w, v]
  let e := editOf seq
  let c := editCmd seq 2 e
  let s := withCmds [c] s0
  byTag s 5 = some c && cmdOf s c.uid = some c && homeRuns s (cSeq c.desc) && dOp c.desc = 0x21 && c.dispatched && acting c && e.started
    && decide (e.op + 1 < nOps c.desc) && opCode (opAt s c e.op) = opCode w && !opReserved (opAt s c e.op) && !opReserved (opAt s c (e.op + 1))
def editRes (seq w : Nat) : OpRes := let s := tables []; applyOp s (editOf seq) w
def forked : State := cacheOf [oFork] [(0, [(0, 1), (17, 2), (32, 1)], []), tabs.getD 1 (0, [], [])]
theorem wit_edit_rows : (editHyp 1 oCreate oSetAttr && editHyp 0 oRelease oCreate && editHyp 0 oTruncate oSetAttr && editHyp 0 oUnmap oSetAttr
    && editHyp 0 oFork oSetAttr && editHyp 0 oSetAttr oRelease) = true := by decide +kernel
theorem wit_edit_admitted : (ok (editRes 1 oCreate) && ok (editRes 0 oRelease) && ok (editRes 0 oTruncate) && ok (editRes 0 oUnmap)
    && ok (applyOp forked { editOf 0 with cut := 0 } oFork) && ok (editRes 0 oSetAttr)) = true := by decide +kernel
theorem wit_edit_refused : (isInvalid (editRes 0 oCreate) && isInvalid (editRes 1 oRelease) && isInvalid (editRes 0 (opWord 3 3 0))
    && isInvalid (editRes 0 (opWord 4 (1 + 2 * 2 ^ 16) 0)) && isInvalid (editRes 0 oFork) && isInvalid (editRes 1 oSetAttr)) = true := by
  decide +kernel
theorem wit_edit_limit : (let e := editOf 0
    isLimit (opFork (tables []) { e with sources := [{ pinOf 1 512 (rootOf 2) with pages := 65537 }] } (opWord 5 (2 + 65535 * 2 ^ 24) 2))) = true := by
  decide +kernel
/-- The last operation of a list: what its commit assumes; `need` leaf slots are asked for. -/
def commitHyp (s0 : State) (seq need : Nat) : Bool :=
  let e := editOf seq
  let c := editCmd seq 1 e
  let s := withCmds [c] s0
  byTag s 5 = some c && cmdOf s c.uid = some c && homeRuns s (cSeq c.desc) && acting c && decide (e.op + 1 = nOps c.desc)
    && !opReserved (opAt s c e.op) && ok (applyOp s e (opAt s c e.op))
    && (match applyAll s c (List.range (nOps c.desc)) (editFresh c e s) with
        | (0, .ok e2) => !editTorn s e2 && (newLeaves e2).length + (if dirChanges e2 then 1 else 0) = need
        | _ => false)
theorem wit_commit : (commitHyp (tables [oCreate]) 1 1 && commitHyp (tables [oSetAttr]) 0 0
    && decide (rEpoch (rootNat (tables []) 0 0) < 0xFFFFFFFF) && decide (1 ≤ (tables []).paged.leafFree)) = true := by decide +kernel
def fewLeaves : State := withPaged { (tables []).paged with leafFree := 1 } (tables [oTruncate])
theorem wit_commit_limit : (commitHyp fewLeaves 0 2 && decide (fewLeaves.paged.leafFree < 2)) = true := by decide +kernel
theorem wit_commit_epoch : (let s := cacheOf [oSetAttr] [(0, [(0, 1), (17, 2), (32, 0xFFFFFFFF)], [])]
    commitHyp s 0 0 && rEpoch (rootNat s 0 0) = 0xFFFFFFFF) = true := by decide +kernel

/-! ### Walks, appends, pools -/

def oneTab (used : Nat) : Tabs := [(0, liveRoot used, [mkLeaf 1 2 0 0 1])]
def walker (d : Descriptor) : Cmd := running 1 d
def toWalk : WalkReq := { uid := 1, next := 0, last := 65536 }
def walks (ts : Tabs) : State := { withCmds [walker dCached] (cacheOf [] ts) with regions := [(1, { region0 with walks := [toWalk] })] }
theorem wit_walk : (let s := walks (oneTab 3)
    regionRuns s 1 = true ∧ nextWalk s 1 = some toWalk ∧ fires 0x15 1 s = none ∧ cmdOf s 1 = some (walker dCached)
    ∧ (walker dCached).decided = false ∧ (walker dCached).ending = none ∧ (walker dCached).reject = none ∧ (walker dCached).pin = none
    ∧ listsPoisoned s (walker dCached) = false ∧ rootBad s 0 0 = false ∧ rLive (rootNat s 0 0) = true
    ∧ rKvh (rootNat s 0 0) + 1 = aKvHeads dCached ∧ headDim (rDim (rootNat s 0 0)) = aD dCached
    ∧ cSeq dCached = 0 ∧ cLayer dCached = 0) := by decide +kernel
theorem wit_walk_free : (let s := walks []
    nextWalk s 1 = some toWalk ∧ rootBad s 0 0 = false ∧ rLive (rootNat s 0 0) = false) := by decide +kernel
theorem wit_walk_torn : (let s : State := { walks [] with mem := [(0x300000, 1)] }
    nextWalk s 1 = some toWalk ∧ rootBad s 0 0 = true ∧ (walker dCached).retried = false) := by decide +kernel
theorem wit_walk_fault : (let s : State := { walks [] with rel := { Rel.atReset with armed := [(0x15, 1, false)] } }
    regionRuns s 1 = true ∧ nextWalk s 1 = some toWalk ∧ fires 0x15 1 s ≠ none) := by decide +kernel
theorem wit_place_walk : (let s : State := { withCmds [walker dCached] (cacheOf [] []) with front :=
      { (withCmds [walker dCached] ready).front with items := [(1, 0)] } }
    live s = true ∧ blockPresent s 79 = true ∧ placeFirst (refill s) 79 = some (walker dCached, 0)
    ∧ wantsWalk (refill s) (walker dCached) = true) := by decide +kernel

/-- KV_APPEND of n tokens at position p, and PAGE_RESTORE of page 0. -/
def dAppend (n p : Nat) : Descriptor := desc [(0, 0x20), (8, 5), (180, 2), (280, n), (297, p)]
def dRestore : Descriptor := desc [(0, 0x23), (8, 5), (180, 2), (333, 1)]
def appending (d : Descriptor) (w : AppendWork) : Cmd := { running 1 d with append := some w }
def appendAt (ts : Tabs) (d : Descriptor) (w : AppendWork) : State := withCmds [appending d w] (cacheOf [] ts)
def granted (d : Descriptor) : AppendWork := { append0 d with sealed := [2], opens := [3], ready := true }
/-- What the append rows assume of every command and state. -/
def appendHyp (ts : Tabs) (d : Descriptor) (w : AppendWork) : Bool :=
  let s := appendAt ts d w
  let c := appending d w
  byTag s 5 = some c && cmdOf s c.uid = some c && acting c && homeRuns s (cSeq d) && !rootBad s (cSeq d) (cLayer d)
def oneDropped : Tabs := [(0, liveRoot 0, [mkLeaf 2 2 0 0 1])]
theorem wit_append : (appendHyp (oneTab 15) (dAppend 1 31) (append0 (dAppend 1 31)) && appendHyp oneDropped dRestore (granted dRestore)) = true := by
  decide +kernel
/-- What its allocation assumes, with the root's word v. -/
theorem wit_allocation : (let d := dAppend 1 31
    let s := appendAt (oneTab 15) d (append0 d)
    let c := appending d (append0 d)
    let v := rootNat s 0 0
    allocRuns s && c.dispatched && rootTurn s c && allocTurn s c && appendFault v d = none && allocReady s v d
      && !(poolSpent s (rSealedPool v) (frameNeed s v d).1 || poolSpent s (rOpenPool v) (frameNeed s v d).2.1)
      && decide ((frameNeed s v d).2.2 ≤ s.paged.leafFree + leafDeferred s)) = true := by decide +kernel
/-- Its request has arrived, before that of a command of another table. -/
def asked (n : Nat) (c : Cmd) : Cmd := { c with asked := n }
theorem wit_allocation_asked : (let d := dAppend 100 31
    let c := asked 1 (appending d (append0 d))
    let s := withCmds [c, asked 2 { appending (d ||| desc [(8, 2), (256, 1)]) (append0 d) with uid := 2 }] (cacheOf [] (oneTab 15))
    allocRuns s && c.dispatched && rootTurn s c && byTag s 5 = some c && cmdOf s c.uid = some c && s.front.cmds.all frameWaits
      && s.front.cmds.all (fun x => decide (x.asked ≠ 0 ∧ c.asked ≤ x.asked)) && !allocReady s (rootNat s 0 0) d) = true := by decide +kernel
theorem wit_allocation_waits : (let d := dAppend 100 31
    let s := appendAt (oneTab 15) d (append0 d)
    let v := rootNat s 0 0
    appendFault v d = none && !allocReady s v d
      && !(poolSpent s (rSealedPool v) (frameNeed s v d).1 || poolSpent s (rOpenPool v) (frameNeed s v d).2.1)
      && decide ((frameNeed s v d).2.2 ≤ s.paged.leafFree + leafDeferred s)) = true := by decide +kernel
theorem wit_allocation_fault : (appendFault (rootNat (appendAt (oneTab 15) (dAppend 1 32) (append0 (dAppend 1 32))) 0 0) (dAppend 1 32)).isSome = true := by
  decide +kernel
theorem wit_token : (let w := granted (dAppend 1 19)
    let s := appendAt (oneTab 3) (dAppend 1 19) w
    let c := appending (dAppend 1 19) w
    w.ready && decide (w.tokens < nTok c.desc) && decide (c.writesOut = 0) && w.promoted.isNone && rOpen (rootNat s 0 0)
      && decide (rUsed (rootNat s 0 0) < 15)) = true := by decide +kernel
theorem wit_promotion : (let w := granted (dAppend 1 31)
    let s := appendAt (oneTab 15) (dAppend 1 31) w
    w.ready && decide (w.tokens < 1) && w.promoted.isNone && rOpen (rootNat s 0 0) && rUsed (rootNat s 0 0) = 15) = true := by decide +kernel
theorem wit_restore : (let w := granted dRestore
    let s := appendAt oneDropped dRestore w
    w.ready && w.promoted.isNone && nextRestore s (rootNat s 0 0) (appending dRestore w) w = some 0) = true := by decide +kernel
theorem wit_promotion_commit : (let w := { granted (dAppend 1 31) with promoted := some 2, sealed := [] }
    let s := appendAt (oneTab 15) (dAppend 1 31) w
    w.ready && w.promoted = some 2 && !commitBad s (rootNat s 0 0) (appending (dAppend 1 31) w) w) = true := by decide +kernel
theorem wit_restore_commit : (let w := { granted dRestore with promoted := some 2, sealed := [] }
    let s := appendAt oneDropped dRestore w
    w.ready && w.promoted = some 2 && !commitBad s (rootNat s 0 0) (appending dRestore w) w) = true := by decide +kernel

/-- The pool is dropping; the Peat ring is off, or of one entry. -/
def dropping (ring : Nat) : State :=
  withOd [(0x3220, 1, 1), (0x3220, 2, ring), (0x3210, 0x10, 6), (0x3210, 0x20, 7)]
    (withPaged { (cacheOf [] []).paged with dropNum := 2 ^ 32 - 1, held := [] } (cacheOf [] [(0, (2, 1) :: liveRoot 0, [mkLeaf 1 2 0 0 1])]))
theorem wit_drop : (let s := dropping 0x80000
    allocRuns s && victim s 0 = some (0, 0) && dropActive s 0 && !dropHeld s && dropHeld (dropping 0)
    && !tableBusy s 0) = true := by decide +kernel
theorem wit_drop_waits : (let s := withCmds [appending (dAppend 1 31) { append0 (dAppend 1 31) with ready := true }] (dropping 0x80000)
    allocRuns s && victim s 0 = some (0, 0) && dropActive s 0 && tableBusy s 0) = true := by decide +kernel
def heldRequest (ring : Nat) : State := withPaged { (cacheOf [] []).paged with held := [(0, 0, 3)] } (dropping ring)
theorem wit_request : (allocRuns (heldRequest 0x80000) && (heldRequest 0x80000).paged.held = (0, 0, 3) :: [] && !peatFull (heldRequest 0x80000)
    && peatFull (heldRequest 0)) = true := by decide +kernel
def retiring (r : Nat × Nat × Nat) (l : List Cmd) : State := withPaged { (cacheOf [] []).paged with retired := [r], pinCtr := 1 } (withCmds l (cacheOf [] []))
def pinned : Cmd := { walker dCached with pin := some (pinOf 1 0 0) }
theorem wit_free : ((retiring (0, 6, 1) []).paged.retired.find? (freeable (retiring (0, 6, 1) [])) = some (0, 6, 1)
    && poolOf (retiring (0, 6, 1) []) 6 = some 0
    && (retiring (1, 6, 1) []).paged.retired.find? (freeable (retiring (1, 6, 1) [])) = some (1, 6, 1)
    && (retiring (0, 6, 1) [pinned]).paged.retired.all fun r => !freeable (retiring (0, 6, 1) [pinned]) r) = true := by decide +kernel
/-- The pool shrinks to three frames; frame 6 holds page 0 of the table. -/
def shrinking : State :=
  withOd [(0x3200, 0x60, 3)] { cacheOf [] [] with mem := memOf [] (metas ++ [(6, 1)]) [(0, liveRoot 0, [mkLeaf 1 2 6 0 1])] }
theorem wit_shrink : (poolOn shrinking 0 && movable shrinking 0 = some (6, 0, 0) && usable shrinking 0 = 2 :: []
    && decide (shrinking.paged.leafFree ≥ 2)) = true := by decide +kernel

/-! ### Dictionary writes and state requests -/

def withMgmt (m : Mgmt) (s : State) : State := { s with mgmt := m }
def withSec (x : Sec) (s : State) : State := { s with sec := x }
def withLink (p : Nat) (l : LinkPort) (s : State) : State := { s with links := tput p l s.links }

theorem wit_write_missing : writeOf (.dictWrite 0x2000 9 [0]) = some (0x2000, 9, [0]) ∧ live up = true ∧ odFind 0x2000 9 = none
    ∧ odFind 0xFFFF 0 = none := by decide +kernel
theorem wit_write_read_only : writeOf (.dictWrite 0x1000 0 [0]) = some (0x1000, 0, [0])
    ∧ (odFind 0x1000 0).any (fun r => decide (r.acc < 2) && !writePasses up (.dictWrite 0x1000 0 [0])) = true := by decide +kernel
theorem wit_write_locked : (let s := withSec { Sec.atReset with lifecycle := 2 } up
    lifeAbort s 0x6100 1 = some 0x05000001 ∧ (odFind 0x6100 1).any (fun r => decide (r.acc ≥ 2)) = true) := by decide +kernel
theorem wit_write_recovering : (let s := withMgmt { up.mgmt with recovering := true } up
    live s = true ∧ lifeAbort s 0x2100 1 = none ∧ s.mgmt.recovering = true
    ∧ (odFind 0x2100 1).any (fun r => decide (r.acc ≥ 2)) = true) := by decide +kernel
theorem wit_write_state : (inSt 4).mgmt.st = 4 ∧ (inSt 4).mgmt.recovering = false ∧ ¬ (0x2100 = 0x6000 ∧ 1 = 3)
    ∧ lifeAbort (inSt 4) 0x2100 1 = none := by decide +kernel
theorem wit_write_length : stateAbort up 0x2100 1 = none ∧ (odFind 0x2100 1).any (fun r => tySize r.ty != 0 && [(0 : Byte)].length != tySize r.ty) = true := by
  decide +kernel

theorem wit_rwq : writeOf (.dictWrite 0x2000 1 [2]) = some (0x2000, 1, [2]) ∧ (odFind 0x2000 1).any (fun r => r.acc = 3) = true
    ∧ writePasses up (.dictWrite 0x2000 1 [2]) = true ∧ up.mgmt.st = 2 := by decide +kernel
def bounded (ws : List RwqWrite) (stop : Bool) : State := withMgmt { up.mgmt with rwq := ws, stopPending := stop } up
theorem wit_boundary_stop : quiescent (bounded [] true) = true ∧ (bounded [] true).mgmt.rwq = [] ∧ (bounded [] true).mgmt.stopPending = true := by
  decide +kernel
theorem wit_boundary_port : (let s := bounded [{ key := 0x220006, value := 4 }, { key := 0x220006, value := 16 }] false
    quiescent s = true ∧ s.mgmt.rwq ≠ [] ∧ (∀ w ∈ s.mgmt.rwq, w.key / 256 = 0x2200)
    ∧ s.mgmt.rwq.reverse.find? (fun w => w.key = odKey 0x2200 6) = some { key := 0x220006, value := 16 }) := by decide +kernel
theorem wit_boundary_profile : (let s := bounded [{ key := odKey 0x2000 1, value := 2 }] false
    quiescent s = true ∧ s.mgmt.rwq = [{ key := odKey 0x2000 1, value := 2 }] ∧ 2 ≠ odv s 0x2000 2) := by decide +kernel
theorem wit_switch : (let s : State := { up with front := { up.front with switching := some 2 } }
    live s = true ∧ s.front.switching = some 2) := by decide +kernel
theorem wit_requests : live up = true ∧ up.mgmt.recovering = false ∧ (inSt 1).mgmt.st = 1 ∧ (inSt 3).mgmt.st = 3 ∧ up.mgmt.st = 2
    ∧ live (inSt 4) = true ∧ ¬ ((inSt 4).mgmt.st = 1 ∨ (inSt 4).mgmt.st = 3) := by decide +kernel

theorem wit_func_disable : (let c := running 1 (dNop 5)
    let s := withOd [(0x2100, 2, 512)] (withCmds [c, running 2 dGemm] up)
    writePasses s (.funcDisable 0) = true ∧ (cmdOf s 2).any (fun c => opClass (dOp c.desc) = some 0 && !c.decided && c.ending.isNone && c.reject.isNone)
    ∧ bit (odv s 0x2100 1) 0 = true ∧ odv up 0x2100 2 = 0 ∧ writePasses up (.funcDisable 0x1FF) = true) := by decide +kernel
theorem wit_commits : writePasses up (.biasCommit 1) = true ∧ writePasses up (.routeCommit 1) = true := by decide +kernel
theorem wit_flag_reset : writePasses up (.flagReset 4095) = true := by decide +kernel
theorem wit_pool_shrink : writePasses (cacheOf [] []) (.poolShrink 0 8) = true ∧ writePasses (cacheOf [] []) (.poolShrink 7 0) = true := by
  decide +kernel
theorem wit_acc_select : writePasses up (.accSelect 79) = true ∧ fld (79 : Word) 0 9 = 79 := by decide +kernel
theorem wit_tx_key_slot : writePasses (withLink 5 { link0 with slots := [(1, keySlot0)] } up) (.txKeySlot 5 1) = true := by decide +kernel
theorem wit_sp_restored : writePasses (withBlock 79 { block0 with spLost := true } up) (.spRestored 79) = true := by decide +kernel
theorem wit_plain_write : (odFind 0x3010 1).any (fun r => r.acc != 3) = true ∧ writePasses up (.dictWrite 0x3010 1 [0, 0, 0, 0]) = true := by
  decide +kernel

theorem wit_retrain : (let s := withLink 5 { link0 with st := 4 } (inSt 3)
    live s = true ∧ s.mgmt.recovering = false ∧ s.mgmt.st ∈ [1, 2, 3] ∧ (linkAt s 5).st = 4
    ∧ ¬ ((linkAt up 0).st = 3 ∨ (linkAt up 0).st = 4)) := by decide +kernel
theorem wit_inject : writePasses up (.inject 0x204F09) = false ∧ writePasses up (.inject 0x24F09) = true := by decide +kernel
theorem wit_inject_not : (∀ a b d, kindInfo (fld (0x43 : Word) 0 8) ≠ some (a, b, d, true)) ∧ up.sec.lifecycle ≠ 2 ∧ (0x43 : Word).toNat < 2 ^ 18 := by
  refine ⟨fun a b d h => ?_, by decide +kernel⟩
  have : kindInfo (fld (0x43 : Word) 0 8) = some (0, 4, 3, false) := by decide +kernel
  rw [this] at h; simp at h
def inFault (acked : Nat) : State :=
  { inSt 4 with rel := { Rel.atReset with log := [(1, 0), (2, 0)], count := 2, acked := acked, noAuto := true } }
theorem wit_ack : writePasses (inFault 0) (.errorAck 1) = true ∧ (inFault 0).mgmt.st = 4
    ∧ unacked { inFault 0 with rel := { (inFault 0).rel with acked := 1 } } = 1
    ∧ writePasses (inFault 0) (.errorAck 2) = true ∧ (inFault 0).rel.noAuto = true ∧ (inFault 0).rel.fatal = false
    ∧ unacked { inFault 0 with rel := { (inFault 0).rel with acked := 2 } } = 0 := by decide +kernel

theorem wit_key_slot : writePasses up (.linkKeySlot 5 1 (List.replicate 72 7)) = true := by decide +kernel
theorem wit_key_clear : writePasses up (.keyClear 5 3) = true := by decide +kernel
def unlocked (n : Nat) : State := withSec { Sec.atReset with lifecycle := 2, grant := 5, duration := 1, failRow := 11, holdUntil := n } (atSlot 3000000000 up)
theorem wit_relock : writePasses (unlocked 0) (.relock 1) = true ∧ (unlocked 0).sec.grant ≠ 0 ∧ writePasses up (.relock 1) = true ∧ up.sec.grant = 0 := by
  decide +kernel
theorem wit_duration : (unlocked 0).sec.grant ≠ 0 ∧ (unlocked 0).sec.duration ≠ 0
    ∧ refNow (unlocked 0) ≥ (unlocked 0).sec.grantRef + (unlocked 0).sec.duration * 100000000 := by decide +kernel
theorem wit_hold_end : (unlocked 200000000).sec.holdUntil ≠ 0 ∧ refNow (unlocked 200000000) ≥ (unlocked 200000000).sec.holdUntil := by decide +kernel
theorem wit_hold : live (unlocked 200000001) = true ∧ refNow (unlocked 200000001) < (unlocked 200000001).sec.holdUntil := by decide +kernel
theorem wit_unlock_bad : writePasses (unlocked 0) (.unlockResponse (List.replicate 96 0)) = true
    ∧ unlockGood (unlocked 0) (List.replicate 96 0) = false := by decide +kernel
/-- The answer to a challenge, signed by the key of the part's owner. -/
def unlockSig : List Byte := toBytesBE 96 0x6de68dc0506594cdf3caa01d61d01026332393908cd18d9245df8bb0a925fa7097a6b5abd74bb3d4e6f84522ad9b19b7388e0c011e1eb49f7daed5dc711608064d1194317a50bb2b7042938baa57965ec8de7de5b3890a19fddc1b46abc4f5a8
def owned : State :=
  let s := unlocked 0
  { s with sec := { s.sec with ownerKeyHash := signerHash, ownerPub := signer, nonce := 5, serial := 7, attempts := 3 } }
theorem owned_challenge : challengeBytes owned
    = toBytesBE 16 (0x5 * 256 ^ 15) ++ List.replicate 32 0 ++ toBytesBE 16 0x07000000000000000200000003000000 := by decide +kernel
theorem wit_unlock_good : writePasses owned (.unlockResponse unlockSig) = true ∧ unlockGood owned unlockSig = true := by
  refine ⟨by decide +kernel, ?_⟩
  simp only [unlockGood, owned_challenge]
  decide +kernel

/-! ### Dictionary frames and messages -/

def frOf (cs idx sub aux : Nat) (pay : List Word) : List Word := mkFrame cs 7 (idx + sub * 2 ^ 16 + aux * 2 ^ 24) pay
def frRead (idx sub : Nat) : List Word := frOf 1 idx sub 0 []
theorem wit_dtp_frame : live up = true ∧ up.mgmt.inbox = [] ∧ fires 0x26 0 up = none ∧ frameFault [0, 0] false = 0x01000002
    ∧ frameFault [1, 0, 0] false = 0x01000001 ∧ frameFault (frRead 0x1000 0) false = 0 := by decide +kernel
theorem wit_read : frCs (frRead 0x1000 0) = 1 ∧ (match readCheck up false 0x1000 0 with | .inr _ => true | .inl _ => false) = true
    ∧ readCheck up false 0x1000 1 = .inl 0x02000002 := by decide +kernel
theorem wit_snapshot : frameFault (frOf 5 0 0 0 [0x1000, 0x21000]) false = 0 ∧ frCs (frOf 5 0 0 0 []) = 5
    ∧ frPay (frOf 5 0 0 0 [0x1000, 0x21000]) = [0x1000] ++ 0x21000 :: []
    ∧ (match readCheck up false (fld (0x21000 : Word) 0 16) (fld (0x21000 : Word) 16 8) with | .inl _ => true | .inr _ => false) = true
    ∧ frameFault (frOf 5 0 0 0 []) false = 0 ∧ (frPay (frOf 5 0 0 0 [])).length = 0 := by decide +kernel
theorem wit_describe : frameFault (frOf 6 0x2100 1 0 []) false = 0 ∧ frCs (frOf 6 0x2100 1 0 []) = 6 := by decide +kernel
theorem wit_write : frameFault (frOf 2 0x2100 1 8 [0, 0]) false = 0 ∧ frCs (frOf 2 0x2100 1 8 [0, 0]) = 2 ∧ tooLarge 0x2100 1 = false
    ∧ frAux (frOf 2 0x2100 1 8 [0, 0]) ≤ 8 ∧ tooLarge 0x8100 3 = true := by decide +kernel
theorem wit_seg_read : frameFault (frOf 3 0x1008 0 0 [0]) false = 0 ∧ frCs (frOf 3 0x1008 0 0 [0]) = 3
    ∧ fld ((frPay (frOf 3 0x1008 0 0 [0])).getD 0 0) 0 16 = 0
    ∧ (match readCheck up true 0x1008 0 with | .inr r => decide ((odBytes up r 0x1008 0).length ≤ 1024) | .inl _ => false) = true := by decide +kernel
def certified (n : Nat) : State := withSec { Sec.atReset with cert := List.replicate n 1 } up
theorem wit_seg_read_long : (match readCheck (certified 1025) true 0x8100 3 with
    | .inr r => decide ((odBytes (certified 1025) r 0x8100 3).length > 1024) | .inl _ => false) = true := by decide +kernel
theorem crc16_lt (l : List Byte) : crc16 l < 2 ^ 16 := by
  have bit : ∀ (m : List Nat) (c : Nat), c < 2 ^ 16 →
      m.foldl (fun c _ => if c ≥ 32768 then (c * 2 % 65536) ^^^ 0x1021 else c * 2) c < 2 ^ 16 := by
    intro m
    induction m with
    | nil => exact fun c h => h
    | cons _ _ ih =>
      intro c h
      refine ih _ ?_
      show (if c ≥ 32768 then _ else _) < _
      split
      · exact Nat.xor_lt_two_pow (by omega) (by omega)
      · omega
  have all : ∀ (m : List Byte) (c : Nat), c < 2 ^ 16 → m.foldl (fun c b =>
      (List.range 8).foldl (fun c _ => if c ≥ 32768 then (c * 2 % 65536) ^^^ 0x1021 else c * 2) (c ^^^ (b.toNat * 256))) c < 2 ^ 16 := by
    intro m
    induction m with
    | nil => exact fun c h => h
    | cons b _ ih =>
      intro c h
      rw [List.foldl_cons]; refine ih _ (bit _ _ ?_); exact Nat.xor_lt_two_pow h (by have := b.isLt; omega)
  unfold crc16; exact all l 0xFFFF (by omega)

/-- A first segment of a write of the certificate: a frame of 258 payload words passes the frame's checks. -/
theorem wit_seg_write_frame (pay : List Word) (hl : pay.length = 258) (h0 : bits (wordN pay 0) 17 15 = 0) :
    frameFault (mkFrame 4 7 0x038100 pay) false = 0 ∧ frPay (mkFrame 4 7 0x038100 pay) = pay ∧ frCs (mkFrame 4 7 0x038100 pay) = 4 := by
  have e : mkFrame 4 7 0x038100 pay = (0x01020704#32 :: 0x00038100#32 :: pay) ++ [BitVec.ofNat 32 (crc16 (wordBytes (0x01020704#32 :: 0x00038100#32 :: pay)))] := by
    simp only [mkFrame, hl]; rfl
  rw [e]
  generalize hb : (0x01020704#32 :: 0x00038100#32 :: pay) = body
  have hbl : body.length = 260 := by rw [← hb]; simp [hl]
  have hc := crc16_lt (wordBytes body)
  generalize hx : crc16 (wordBytes body) = x at hc
  have hw : ∀ i < 260, wordN (body ++ [BitVec.ofNat 32 x]) i = wordN body i := by
    intro i hi; simp [wordN, List.getElem?_append_left (hbl ▸ hi : i < body.length)]
  have hlast : wordN (body ++ [BitVec.ofNat 32 x]) 260 = x := by
    simp [wordN, hbl]; omega
  have w0 : wordN (body ++ [BitVec.ofNat 32 x]) 0 = 0x01020704 := by rw [hw 0 (by decide), ← hb]; rfl
  have w1 : wordN (body ++ [BitVec.ofNat 32 x]) 1 = 0x00038100 := by rw [hw 1 (by decide), ← hb]; rfl
  have hn : frNpay (body ++ [BitVec.ofNat 32 x]) = 258 := by rw [frNpay, w0]; rfl
  have hcs : frCs (body ++ [BitVec.ofNat 32 x]) = 4 := by rw [frCs, w0]; rfl
  have ha : frAux (body ++ [BitVec.ofNat 32 x]) = 0 := by rw [frAux, w1]; rfl
  have hp : frPay (body ++ [BitVec.ofNat 32 x]) = pay := by
    rw [frPay, hn, ← hb]; simp [hl]
  have hs : frameShape (body ++ [BitVec.ofNat 32 x]) = true := by
    simp [frameShape, hp, hn, ha, hcs, h0]
  have b1 : bits x 0 16 = x := by simp only [bits]; omega
  have b2 : bits x 16 16 = 0 := by simp only [bits]; omega
  refine ⟨?_, hp, hcs⟩
  have ht : (body ++ [BitVec.ofNat 32 x]).take 260 = body := by rw [← hbl]; simp
  simp [frameFault, hbl, hn, hs, hlast, b1, b2, w0, hx, ht]
  decide
def frLong : List Word := 0 :: 1025 :: List.replicate 256 0
theorem wit_seg_write : frLong.length = 258 ∧ bits (wordN frLong 0) 17 15 = 0 ∧ fld (frLong.getD 0 0) 0 16 = 0 ∧ fld (frLong.getD 0 0) 16 1 = 0
    ∧ wordN frLong 1 = 1025 ∧ (wordBytes (frLong.drop 2)).length = 1024 ∧ up.mgmt.recovering = false ∧ up.mgmt.st ≠ 0 := by decide +kernel
/-- The whole of a short entry in one segment. -/
def frShort : List Word := frOf 4 0x2100 1 0 [0x10000, 2, 0]
theorem wit_seg_write_whole : frameFault frShort false = 0 ∧ frCs frShort = 4 ∧ fld ((frPay frShort).getD 0 0) 0 16 = 0
    ∧ fld ((frPay frShort).getD 0 0) 16 1 = 1 ∧ wordN (frPay frShort) 1 ≤ 65536
    ∧ ((frPay frShort).drop 2).length = (wordN (frPay frShort) 1 + 3) / 4
    ∧ (∀ b ∈ (wordBytes ((frPay frShort).drop 2)).drop (wordN (frPay frShort) 1), b = 0) := by decide +kernel
theorem wit_cancel : frameFault (frOf 0xF 0 0 0 []) false = 0 ∧ frCs (frOf 0xF 0 0 0 []) = 0x0F := by decide +kernel
def oldSession : Session := { write := false, key := 0, next := 1, total := 0, data := [], lastMc := 0, expired := false }
theorem wit_session : (let s := withMgmt { up.mgmt with mctp := some oldSession } (atSlot 4000000 up)
    sessionOf s .mctp = some oldSession ∧ mcNow s ≥ oldSession.lastMc + 1000000) := by decide +kernel
theorem wit_acc_window : up.sec.lifecycle ≠ 2 ∧ (unlocked 0).sec.lifecycle = 2
    ∧ (withSec { Sec.atReset with lifecycle := 2, grant := 14 } up).sec.grant.testBit 0 = false := by decide +kernel

/-- A packet that is one message: for any endpoint, from endpoint 9, with its tag owned by the sender. -/
def packet (body : List Byte) : List Word :=
  let ps := [1, 0, 9, 0xC8] ++ body
  frOf 0x20 0 0 ps.length (bytesWords ps)
theorem wit_packet : (let ws := packet [0, 0x80, 2]
    let ps := (wordBytes (frPay ws)).take (frAux ws)
    frameFault ws false = 0 ∧ frCs ws = 0x20 ∧ byteN ps 0 % 16 = 1 ∧ byteN ps 1 = 0 ∧ (byteN ps 3).testBit 3 = true
    ∧ (byteN ps 3).testBit 6 = true ∧ (byteN ps 3).testBit 7 = true ∧ byteN ps 4 = 0 ∧ byteN ps 6 ∈ [1, 2, 4, 5, 6]
    ∧ up.mgmt.inbox.length < 4) := by decide +kernel
def msg (body : List Byte) : McMsg := { src := 9, tag := 0, body := body }
def spoken (n : Nat) (body : List Byte) : State := withMgmt { up.mgmt with inbox := [msg body], spdm := n } up
theorem wit_message : live (spoken 0 []) = true ∧ (spoken 0 []).mgmt.inbox = msg [] :: [] := by decide +kernel
theorem wit_control : msgKind [0, 0x80, 1, 0, 9] = 1 ∧ byteN [0, 0x80, 1, 0, 9] 3 % 4 < 2 ∧ byteN [0, 0x80, 1, 0, 9] 4 ≠ 0
    ∧ msgKind [0, 0x80, 2] = 2 ∧ msgKind [0, 0x80, 4, 0x7F] = 4 ∧ byteN [0, 0x80, 4, 0x7F] 3 ∈ [0xFF, 0, 5, 0x7F]
    ∧ msgKind [0, 0x80, 5] = 5 ∧ msgKind [0, 0x80, 6] = 6 ∧ byteN [0, 0x80, 6] 3 = 0 := by decide +kernel
theorem wit_vendor : (let b : List Byte := [0x7F, 0x0F, 0x4A, 0x2C, 0x11, 1]
    byteN b 0 = 0x7F ∧ ofBytesBE ((b.drop 1).take 4) = 0x0F4A2C11 ∧ byteN b 5 = 1 ∧ b.length % 4 = 2
    ∧ ofBytesBE (([0x7F, 0, 0, 0, 0, 1].drop 1).take 4) ≠ 0x0F4A2C11) := by decide +kernel
theorem wit_spdm : [0x84, 0xE1, 0xE3, 0x81, 0x82, 0x83, 0xE0].map (fun r => msgKind [5, 0x13, r]) = [0x584, 0x5E1, 0x5E3, 0x581, 0x582, 0x583, 0x5E0]
    ∧ msgKind [5, 0x13, 0xE4] ∉ [0x584, 0x5E1, 0x5E3, 0x581, 0x582, 0x583, 0x5E0] ∧ byteN [5, 0x13, 0xE4] 0 = 5
    ∧ (spoken 2 []).mgmt.spdm < 3 ∧ (spoken 3 []).mgmt.spdm ≥ 3 ∧ (spoken 3 []).sec.cert = [] ∧ (certified 4).sec.cert ≠ [] := by decide +kernel

/-! ### Links -/

/-- Node 0 of a ring of four; port 0 is UP, encrypted or not, with a packet of 300 bytes arriving in class 1 of VC0. -/
def arriving : RxPacket := { kind := 0, src := 1, addr := 0x1000, len := 300, got := 208, poison := false, pktId := 3, outPort := 7, drop := false }
def linked (l : LinkPort) : State :=
  { up with od := [(0x400001, 0), (0x400002, 4), (0x400003, 1), (0x400004, 1)], links := [(0, { l with st := 2 }), (1, { link0 with st := 2 })] }
def tx (ftype vc cls : Nat) (tail : Bool) (dst body : Nat) : TxFlit :=
  { ftype := ftype, vc := vc, dclass := cls, tail := tail, dst := dst, src := 1, body := BitVec.ofNat 1920 body, from_ := 6, inIdx := 0, pkt := 0 }
def flit (x : TxFlit) : Flit := flitOf (flitHeader x 0 0 true 0 1 2 0) x.body
def receiver : State := linked { link0 with packets := [(1, arriving)], used := [(1, 5)] }
def fSmall : Flit := flit (tx 3 1 0 true 0 (fields [(0, 0x2000), (52, 64), (64, 3)]))
def fFlag : Flit := flit (tx 4 1 0 true 0 (fields [(0, 4095), (12, 4), (64, 3)]))
def fAck : Flit := flit (tx 5 2 0 true 0 (fields [(0, 3), (35, 1)]))
def fHead : Flit := flit (tx 1 0 0 true 0 (fields [(8, 208), (32, 0x3000), (128, 3)]))
def fHeadLong : Flit := flit (tx 1 0 0 false 0 (fields [(8, 16900), (32, 0x3000), (128, 3)]))
def fData : Flit := flit (tx 2 0 1 true 0 7)
def fAbort : Flit := flit (tx 8 0 1 true 0 0)
def fForeign : Flit := flit (tx 3 1 0 true 2 (fields [(52, 64)]))
/-- What reception assumes of a good flit of a type, in order. -/
def inOrder (t : Nat) (f : Flit) : Bool :=
  rxOk receiver 0 f t && flitGood f && (openFlit receiver 0 f).isSome && fSeq f = (linkAt receiver 0).rxSeq && fVc f != 3
theorem wit_receiver : (∀ code ∈ [0x30, 0x31, 0x33], fires code 0 receiver = none) ∧ (∀ c ∈ receiver.front.cmds, c.coll = none) := by decide +kernel
theorem wit_small : (inOrder 3 fSmall && fDst fSmall = myNode receiver && decide (fld (fBody fSmall) 52 7 ≤ 64) && fld (fBody fSmall) 59 1 = 0
    && decide (fld (fBody fSmall) 0 52 + fld (fBody fSmall) 52 7 ≤ 2 ^ 52)) = true := by decide +kernel
theorem wit_flag : (inOrder 4 fFlag && fDst fFlag = myNode receiver) = true := by decide +kernel
theorem wit_ack_flit : (inOrder 5 fAck && fDst fAck = myNode receiver && fld (fBody fAck) (128 * 0 + 35) 1 = 1) = true := by decide +kernel
theorem wit_head : (let h := headerPacket (fBody fHead) 1
    inOrder 1 fHead && fVc fHead = 0 && fTail fHead && h.kind = 0 && decide (1 ≤ h.len) && decide (h.len ≤ 16900) && !h.poison
      && decide (h.addr + (flitBytes 240 32 h (fBody fHead)).length ≤ 2 ^ 52)) = true := by decide +kernel
theorem wit_head_long : (inOrder 1 fHeadLong && fVc fHeadLong = 0 && !fTail fHeadLong) = true := by decide +kernel
theorem wit_data : (inOrder 2 fData && fVc fData = 0 && (linkAt receiver 0).packets.find? (fun e => e.1 = fClass fData) = some (fClass fData, arriving)
    && fTail fData && !arriving.drop && !arriving.poison
    && decide (arriving.addr + arriving.got + (flitBytes 240 0 arriving (fBody fData)).length ≤ 2 ^ 52)) = true := by decide +kernel
theorem wit_abort : (inOrder 8 fAbort && fVc fAbort = 0 && fDst fAbort = myNode receiver) = true := by decide +kernel
theorem wit_forward : (inOrder 3 fForeign && fDst fForeign != myNode receiver && routePort receiver (fSrc fForeign) (fDst fForeign) = some 0
    && !portDead receiver 0 && decide (fDst fForeign < nodeCount receiver)) = true := by decide +kernel
def fLate : Flit := flitOf (flitHeader (tx 3 1 0 true 0 0) 7 0 true 0 1 2 0) 0
theorem wit_flit_torn : fecGood clean = true ∧ fecGood torn = false ∧ torn.first = true ∧ rxOk receiver 0 fLate 3 = true ∧ flitGood fLate = true
    ∧ openFlit receiver 0 fLate ≠ none ∧ fSeq fLate ≠ (linkAt receiver 0).rxSeq := by decide +kernel
theorem wit_flit_failed : rxOk receiver 0 fSmall 3 = true ∧ (linkAt receiver 0).refetch = false
    ∧ (let s := linked { link0 with refetch := true, fails := 15 }
       rxOk s 0 fSmall 3 = true ∧ (linkAt s 0).refetch = true ∧ fSeq fSmall = (linkAt s 0).rxSeq ∧ (linkAt s 0).fails + 1 ≥ odv s 0x4000 8) := by
  decide +kernel
/-- A NULL flit and a HEARTBEAT that acknowledge and return credits. -/
def fNull : Flit := flit (tx 0 0 0 false 0 0)
def fBeat : Flit := flit (tx 6 0 0 false 0 (fields [(0, 9), (16, 5), (32, 77)]))
theorem wit_null : (rxOk receiver 0 fNull 0 && flitGood fNull && (openFlit receiver 0 fNull).isSome && fld fNull 32 1 = 1) = true := by decide +kernel
theorem wit_heartbeat : (rxOk receiver 0 fBeat 6 && flitGood fBeat && (openFlit receiver 0 fBeat).isSome) = true := by decide +kernel

def queued : TxFlit := tx 3 1 0 true 2 0
def sending (l : LinkPort) : State := linked l
def nextSent (s : State) : Option TxFlit := (if (linkAt s 0).bulk3 then [2, 1, 0, 3] else [2, 1, 3, 0]).findSome? (nextOf s 0)
theorem wit_slot_training : (let s : State := withLink 0 { link0 with st := 1 } (linked link0)
    live s = true ∧ (linkAt s 0).st = 1) := by decide +kernel
theorem wit_slot_retry : (linkAt (sending { link0 with retryReq := true }) 0).st = 2 ∧ (linkAt (sending { link0 with retryReq := true }) 0).acked = false
    ∧ (linkAt (sending { link0 with retryReq := true }) 0).retryReq = true := by decide +kernel
theorem wit_slot_heartbeat : (linkAt (sending { link0 with hbDue := true }) 0).hbDue = true
    ∧ (linkAt (sending { link0 with hbDue := true }) 0).retryReq = false := by decide +kernel
theorem wit_slot_resend : (linkAt (sending { link0 with resend := [{ seq := 0, tx := queued, flit := 0 }] }) 0).resend
    = { seq := 0, tx := queued, flit := 0 } :: [] := by decide +kernel
theorem wit_slot_new : (let s := sending { link0 with txq := [queued] }
    (linkAt s 0).retry.length < 512 ∧ nextSent s = some queued) := by decide +kernel
theorem wit_slot_idle : nextSent (sending link0) = none := by decide +kernel
theorem wit_heartbeat_send : (let s := atSlot 4096 (linked link0)
    live s = true ∧ (linkAt s 0).st = 2 ∧ s.clocks.fc ≥ (linkAt s 0).hbFc + 4096) := by decide +kernel
theorem wit_retry_resend : (let s := linked { link0 with refetch := true, reqAge := 64 }
    (linkAt s 0).refetch = true ∧ (linkAt s 0).reqAge ≥ 64) := by decide +kernel

/-- Fuses that repair block 1 at row 3 and column 16; the state after them. -/
def repaired : FuseValues := { someFuses with repair := [(16, 16), (3, 16)] }
theorem wit_repair : strapped.boot.pwrGood = true ∧ strapped.boot.resetN = true ∧ strapped.boot.dead = false ∧ strapped.boot.strapDone = true
    ∧ strapped.boot.fuseDone = false
    ∧ after (fun t => decide ((bypassed t 1) = (3, 16) ∧ (bypassed t 1).1 ≤ 16 ∧ (bypassed t 1).2 ≤ 16)) (exec (.fuseLoadDone repaired) strapped)
        = some true := by decide +kernel

def peer (acked : Bool) : TrainingFlit := { node := 1, dimX := 4, dimY := 1, dimZ := 1, port := 1, encrypt := false, acked := acked }
def trainee (l : LinkPort) : State := withLink 0 { l with st := 1 } (atSlot 1500000 (linked link0))
theorem wit_training : (trainingAgrees (trainee link0) 0 (peer false) && !trainingAgrees (trainee link0) 0 { peer false with port := 0 }
    && decide ((linkAt (trainee link0) 0).good + 1 < 16) && decide ((linkAt (trainee { link0 with good := 15 }) 0).good + 1 ≥ 16)
    && (linkAt (trainee link0) 0).st = 1 && live (trainee link0) && decide (refNow (trainee link0) ≥ (linkAt (trainee link0) 0).trainRef + 100000)) = true := by
  decide +kernel
theorem wit_retry_request : (let s := linked { link0 with askedSeq := 4095, askedRun := 15 }
    (linkAt s 0).st = 2 ∧ 15 + 1 ≥ odv s 0x4000 8 ∧ 1 < odv s 0x4000 8) := by decide +kernel
theorem wit_hb_timeout : (let s := atSlot 3000000000 (linked link0)
    refNow s ≥ (linkAt s 0).hbRef + odv s 0x4000 6 ∧ refNow (linked link0) < (linkAt (linked link0) 0).hbRef + odv (linked link0) 0x4000 6) := by decide +kernel
theorem wit_phy : (let s := fun (n : Nat) => withOd [(0x4010, 0x15, 1)] (withLink 5 { link0 with st := n } up)
    live (s 5) = true ∧ odv (s 5) 0x4010 (0x10 + 5) = 1 ∧ (linkAt (s 5) 5).phyReady = false ∧ (linkAt (s 0) 5).st = 0 ∧ (linkAt (s 5) 5).st = 5
    ∧ (linkAt (s 3) 5).st = 3) := by decide +kernel
theorem wit_phy_loss : (linkAt (linked { link0 with phyReady := true }) 0).phyReady = true ∧ (linkAt (linked { link0 with phyReady := true }) 0).st = 2
    ∧ (linkAt (withLink 0 { link0 with phyReady := true, st := 4 } up) 0).st = 4 := by decide +kernel
theorem wit_e2e : (let c := running 1 dCopy
    let e : E2e := { pktId := 0, uid := 1, port := 0, refAt := 0 }
    let s : State := { atSlot 3000000000 (withCmds [c] ready) with e2e := [e] }
    live s = true ∧ byTag s 5 = some c ∧ cmdOf s c.uid = some c ∧ e ∈ s.e2e ∧ e.uid = c.uid ∧ refNow s ≥ e.refAt + odv s 0x4000 7
    ∧ c.decided = false ∧ c.ending = none ∧ c.reject = none) := by decide +kernel

/-! ### Reports, recoveries, tests, watches -/

def rep (code sev unit : Nat) : Report :=
  { code := code, severity := sev, unit := unit, cell := 0, action := 0, injected := false, addr := 0, tag := none, level := 0, dep := 0 }
def withRel (r : Rel) (s : State) : State := { s with rel := r }
/-- Reports at the collector of a block, a region or the apex. -/
def reported (k : Nat) (l : List Report) : State := withRel { Rel.atReset with queues := [(k, l)] } up
theorem wit_collector : live (reported 3000 [rep 0x25 2 0, rep 0x28 1 15, rep 0x28 1 3]) = true
    ∧ nextReport (tget [] (reported 3000 [rep 0x25 2 0, rep 0x28 1 15, rep 0x28 1 3]).rel.queues (1000 * 3 + 0)) = some (2, rep 0x28 1 3) := by
  decide +kernel
theorem wit_corrected : (let s := withRel { Rel.atReset with corrected := [(512 * 0x10, 1023)] } up
    nextReport [rep 0x10 0 0] = some (0, rep 0x10 0 0) ∧ (tget 0 s.rel.corrected (512 * 0x10) + 1) % 1024 = 0 ∧ canLog s (rep 0x10 0 0) = true
    ∧ (tget 0 up.rel.corrected (512 * 0x10) + 1) % 1024 ≠ 0) := by decide +kernel
def fullLog : State := withRel { Rel.atReset with log := (List.range 1023).map fun i => (i + 1, 0), count := 1023 } up
theorem wit_log_full : canLog fullLog (rep 0x25 2 0) = false ∧ canLog up (rep 0x25 2 0) = true := by decide +kernel
theorem wit_unit_fault : nextReport [rep 9 3 319] = some (0, rep 9 3 319) ∧ kindInfo 9 = some (0, 3, 1, true) ∧ kindInfo 0x16 = some (0, 3, 2, true)
    ∧ kindInfo 0x20 = some (0, 3, 3, true) ∧ up.rel.recov = [] ∧ bit (odv up 0x6200 1) 2 = false
    ∧ bit (odv (withOd [(0x6200, 1, 4)] up) 0x6200 1) 2 = true ∧ nextReport [rep 0x43 4 0] = some (0, rep 0x43 4 0) := by decide +kernel

def recov (level unit : Nat) (begun : Bool) (bs : List (List Nat)) : Recovery := { level := level, unit := unit, entry := 1, begun := begun, batches := bs }
def recovering (r : Recovery) (s : State) : State := withRel { s.rel with recov := [r] } s
theorem wit_block_recovery : (let r := recov 1 79 false []
    let s := recovering r up
    live s = true ∧ s.rel.recov.find? (fun x => x.level = 1 && x.unit = 79 && !x.begun) = some r ∧ retireNow s 79 = false
    ∧ retireNow (withOd [(0x6200, 1, 2)] s) 79 = true) := by decide +kernel
def validating (level : Nat) (bs : List (List Nat)) : State := recovering (recov level (if level = 1 then 79 else if level = 2 then 1 else 0) true bs) up
theorem wit_revalidation : live (validating 1 [[79]]) = true ∧ fires 9 79 (validating 1 [[79]]) = none
    ∧ (validating 1 [[79]]).rel.recov.find? (fun x => x.begun && (x.batches.headD []).contains 79) = some (recov 1 79 true [[79]])
    ∧ (validating 2 [[79, 78]]).rel.recov.find? (fun x => x.begun && (x.batches.headD []).contains 79) = some (recov 2 1 true [[79, 78]])
    ∧ (validating 2 [[79], [78]]).rel.recov.find? (fun x => x.begun && (x.batches.headD []).contains 79) = some (recov 2 1 true [[79], [78]])
    ∧ (validating 3 [[79]]).rel.recov.find? (fun x => x.begun && (x.batches.headD []).contains 79) = some (recov 3 0 true [[79]])
    ∧ blockPresent (validating 3 [[79]]) 79 = true ∧ (blockAt (validating 3 [[79]]) 79).retired = false := by decide +kernel
theorem wit_region_recovery : (let r := recov 2 1 false []
    let s := recovering r (withBlock 79 { block0 with feed := [(1, 0)] } (withCmds [gemm dGemm] ready))
    live s = true ∧ s.rel.recov.find? (fun x => x.level = 2 && x.unit = 1 && !x.begun) = some r ∧ (blockAt s (40 * 1 + 39)).retired = false
    ∧ cmdOf s 1 = some (gemm dGemm) ∧ (gemm dGemm).decided = false ∧ (gemm dGemm).ending = none ∧ (gemm dGemm).reject = none
    ∧ usesRegion s 1 (gemm dGemm) = true) := by decide +kernel
theorem wit_warm_reset : (let r := recov 3 0 false []
    let s := recovering r (withLink 5 { link0 with st := 2 } ready)
    live s = true ∧ s.rel.recov.find? (fun x => x.level = 3 && !x.begun) = some r ∧ blockPresent s 0 = true ∧ (blockAt s 0).retired = false
    ∧ (linkAt s 5).st ∈ [1, 2, 4] ∧ (∀ e ∈ s.groups, e.2.st ≠ 1)) := by decide +kernel

def testable (n : Nat) : State := withOd [(0x6200, 7, 1), (0x6200, 8, 1)] (atSlot n up)
theorem wit_service_test : regionInService (testable 1500000) 1 = true ∧ odv (testable 1500000) 0x6200 7 ≠ 0 ∧ nextTested (testable 1500000) 1 = some 40
    ∧ (regionAt (testable 1500000) 1).lastTest + 100000 * odv (testable 1500000) 0x6200 7 ≤ refNow (testable 1500000)
    ∧ refNow (testable 1499999) < (regionAt (testable 1499999) 1).lastTest + 100000 * odv (testable 1499999) 0x6200 7 := by decide +kernel
theorem wit_test_done : (let s := withBlock 79 { block0 with testing := true } up
    live s = true ∧ s.boot.stage = 15 ∧ (blockAt s 79).testing = true ∧ blockFree (blockAt s 79) = true ∧ (blockAt s 79).gated = false
    ∧ blockFrozen s 79 = false ∧ fires 9 79 s = none) := by decide +kernel
theorem wit_scrub : regionInService (testable 1500000) 1 = true ∧ (∀ code ∈ [0x10, 0x11, 0x12], fires code 1 (testable 1500000) = none)
    ∧ (regionAt (testable 1500000) 1).lastScrub + 100000 * odv (testable 1500000) 0x6200 8 ≤ refNow (testable 1500000)
    ∧ refNow (testable 1499999) < (regionAt (testable 1499999) 1).lastScrub + 100000 * odv (testable 1499999) 0x6200 8
    ∧ (tget [] (testable 1500000).rel.queues (2000 + 1)).length + 16 ≤ 16 := by decide +kernel
theorem wit_scrub_lines : 2 ^ 46 - 1 < 2 ^ 46 ∧ 2 ^ 46 ≤ 2 ^ 46 + 1 ∧ 2 ^ 46 + 1 < 2 ^ 47 ∧ 2 ^ 47 ≤ 2 ^ 47 + 16383 := by decide
theorem wit_scrub_data : 79 / 40 = 1 ∧ (blockAt (withBlock 79 { block0 with job := some job0 } up) 79).job = some job0 := by decide +kernel
/-- A watch at its limit, and one slot short of it. -/
def watched (back : Nat) : State :=
  let n := 1500 * odv up 0x6300 1
  let s := withBlock 79 { block0 with feed := [(1, 0)], mire := n - back } ready
  withRel { Rel.atReset with mire := 1500 * odv up 0x6300 3 - back } { s with
    regions := [(1, { region0 with walks := [toWalk], mire := 1500 * odv up 0x6300 2 - back })]
    front := { s.front with cmds := [cmd 1 (dNop 5)] } }
theorem wit_watch : live (watched 0) = true ∧ (watched 0).power.trip = false
    ∧ ∀ l ∈ [(1, 79), (2, 1), (3, 0)], (watchOf (watched 0) l.1 l.2).2.1 = true ∧ fires (watchOf (watched 0) l.1 l.2).1 l.2 (watched 0) = none
      ∧ (watchOf (watched 0) l.1 l.2).2.2.2 ≤ (watchOf (watched 0) l.1 l.2).2.2.1
      ∧ (watchOf (watched 1) l.1 l.2).2.2.1 < (watchOf (watched 1) l.1 l.2).2.2.2 := by decide +kernel
theorem wit_window : (let s : State := { up with clocks := { slot := 0, fc := 0, opSlot := 5400000000000 } }
    live s = true ∧ s.rel.windowOp + 360000000000 ≤ opRef s ∧ opRef up < up.rel.windowOp + 360000000000) := by decide +kernel

/-! ### Numbers and the invariant -/

theorem wit_top_k : (let xs : List (Word × Nat) := [(0x7FC00000, 0), (0x3F800000, 2 ^ 32 - 1), (0xBF800000, 5)]
    1 ≤ 64 ∧ (xs.map (·.2)).Nodup ∧ (∀ x ∈ xs, x.2 < 2 ^ 32)) := by decide +kernel
theorem wit_inv : EngineInv up := by constructor <;> decide +kernel
theorem wit_inv_step : (match Sys2Proof.Machine.step { up with pending := [.idcode] } with | .next _ => true | _ => false) = true := by decide +kernel

end Sys2Proof.Tests
end

section
/-! The fields of a packed number and of a completion record (Table 09.14). -/

namespace Sys2Proof.Machine

/-! ### Bit fields -/

theorem bits_lt (n lo w : Nat) : bits n lo w < 2 ^ w := Nat.mod_lt _ (Nat.two_pow_pos w)

theorem fld_lt {k : Nat} (d : BitVec k) (lo w : Nat) : fld d lo w < 2 ^ w := bits_lt _ _ _

@[simp] theorem fld_mod {k : Nat} (d : BitVec k) (lo w : Nat) : fld d lo w % 2 ^ w = fld d lo w :=
  Nat.mod_eq_of_lt (fld_lt d lo w)

theorem bits_eq_zero {n lo : Nat} (w : Nat) (h : n < 2 ^ lo) : bits n lo w = 0 := by
  simp [bits, Nat.div_eq_of_lt h]

theorem bits_zero_of_lt {n w : Nat} (h : n < 2 ^ w) : bits n 0 w = n := by
  simp [bits, Nat.mod_eq_of_lt h]

/-- What stands at bit `k` and above does not reach a field that ends below it. -/
theorem bits_add_high (n c : Nat) {lo w k : Nat} (h : lo + w ≤ k) : bits (n + c * 2 ^ k) lo w = bits n lo w := by
  obtain ⟨j, rfl⟩ := Nat.exists_eq_add_of_le h
  have split_high : c * 2 ^ (lo + w + j) = 2 ^ lo * (2 ^ w * (c * 2 ^ j)) := by ring
  simp [bits, split_high, Nat.add_mul_div_left _ _ (Nat.two_pow_pos lo)]

/-! ### Packed fields -/

/-- Bits that a list of fields takes. -/
def packWidth (fs : List (Nat × Nat)) : Nat := (fs.map (·.1)).sum

@[simp] theorem packWidth_nil : packWidth [] = 0 := rfl

@[simp] theorem packWidth_cons (f : Nat × Nat) (fs : List (Nat × Nat)) : packWidth (f :: fs) = f.1 + packWidth fs := rfl

theorem packWidth_take_le (fs : List (Nat × Nat)) (i : Nat) (h : i < fs.length) :
    packWidth (fs.take i) + fs[i].1 ≤ packWidth fs := by
  induction fs generalizing i with
  | nil => cases h
  | cons f fs ih =>
    cases i with
    | zero => simp
    | succ i =>
      have := ih i (Nat.lt_of_succ_lt_succ h)
      simp only [List.take_succ_cons, packWidth_cons, List.getElem_cons_succ]
      omega

theorem pack_lt (fs : List (Nat × Nat)) : pack fs < 2 ^ packWidth fs := by
  induction fs with
  | nil => simp [pack]
  | cons f fs ih =>
    obtain ⟨w, v⟩ := f
    have low : v % 2 ^ w < 2 ^ w := Nat.mod_lt _ (Nat.two_pow_pos w)
    calc pack ((w, v) :: fs) = v % 2 ^ w + 2 ^ w * pack fs := rfl
      _ < 2 ^ w * (pack fs + 1) := by rw [Nat.mul_succ]; omega
      _ ≤ 2 ^ w * 2 ^ packWidth fs := Nat.mul_le_mul_left _ ih
      _ = 2 ^ packWidth ((w, v) :: fs) := by rw [packWidth_cons, Nat.pow_add]

/-- Each packed field reads back, cut to its width, above the fields before it. -/
theorem bits_pack (fs : List (Nat × Nat)) (i : Nat) (h : i < fs.length) :
    bits (pack fs) (packWidth (fs.take i)) fs[i].1 = fs[i].2 % 2 ^ fs[i].1 := by
  induction fs generalizing i with
  | nil => cases h
  | cons f fs ih =>
    obtain ⟨w, v⟩ := f
    cases i with
    | zero => simp [bits, pack]
    | succ i =>
      have above : (v % 2 ^ w + 2 ^ w * pack fs) / 2 ^ w = pack fs := by
        rw [Nat.add_mul_div_left _ _ (Nat.two_pow_pos w), Nat.div_eq_of_lt (Nat.mod_lt _ (Nat.two_pow_pos w)), Nat.zero_add]
      have := ih i (Nat.lt_of_succ_lt_succ h)
      simpa [bits, pack, Nat.pow_add, ← Nat.div_div_eq_div_mul, above] using this

/-! ### Records -/

/-- The CRC-16 register stays within its 16 bits. -/
theorem crc16_lt_two_pow (l : List Byte) : crc16 l < 2 ^ 16 := by
  refine foldl_holds (· < 2 ^ 16) (by decide) fun c b hc => ?_
  refine foldl_holds (· < 2 ^ 16) (Nat.xor_lt_two_pow hc (by have := b.isLt; omega)) fun c _ hc => ?_
  split
  · exact Nat.xor_lt_two_pow (by omega) (by decide)
  · omega

/-- The check of a record, over the fields below it. -/
def recordCheck (fs : List (Nat × Nat)) : Nat := crc16 (toBytes 30 (pack fs))

theorem record_toNat {fs : List (Nat × Nat)} (h : packWidth fs ≤ 240) :
    (record fs).toNat = pack fs + recordCheck fs * 2 ^ 240 := by
  have hp : pack fs < 2 ^ 240 := (pack_lt fs).trans_le (Nat.pow_le_pow_right (by decide) h)
  have hc : recordCheck fs < 2 ^ 16 := crc16_lt_two_pow _
  have room : pack fs + recordCheck fs * 2 ^ 240 < 2 ^ 256 := by omega
  rw [record, BitVec.toNat_ofNat, ← recordCheck, Nat.mod_eq_of_lt room]

/-- A field of a record below its check is that field of the packed values. -/
theorem fld_record {fs : List (Nat × Nat)} (h : packWidth fs ≤ 240) {lo w : Nat} (hw : lo + w ≤ 240) :
    fld (record fs) lo w = bits (pack fs) lo w := by
  rw [fld, record_toNat h, bits_add_high _ _ hw]

theorem fld_record_getElem {fs : List (Nat × Nat)} (h : packWidth fs ≤ 240) (i : Nat) (hi : i < fs.length) :
    fld (record fs) (packWidth (fs.take i)) fs[i].1 = fs[i].2 % 2 ^ fs[i].1 := by
  rw [fld_record h ((packWidth_take_le fs i hi).trans h), bits_pack]

theorem fld_record_above {fs : List (Nat × Nat)} {lo w : Nat} (h : packWidth fs ≤ lo) (hw : lo + w ≤ 240) :
    fld (record fs) lo w = 0 := by
  rw [fld_record (by omega) hw]
  exact bits_eq_zero w ((pack_lt fs).trans_le (Nat.pow_le_pow_right (by decide) h))

/-- Bytes 30 and 31 of a record hold the CRC-16 of the bytes before them. -/
theorem fld_record_check {fs : List (Nat × Nat)} (h : packWidth fs ≤ 240) :
    fld (record fs) 240 16 = crc16 (toBytes 30 (fld (record fs) 0 240)) := by
  have hp : pack fs < 2 ^ 240 := (pack_lt fs).trans_le (Nat.pow_le_pow_right (by decide) h)
  have hc : recordCheck fs < 2 ^ 16 := crc16_lt_two_pow _
  have low : fld (record fs) 0 240 = pack fs := by rw [fld_record h le_rfl, bits_zero_of_lt hp]
  rw [low, fld, record_toNat h, bits, Nat.add_mul_div_right _ _ (Nat.two_pow_pos 240), Nat.div_eq_of_lt hp, Nat.zero_add,
    Nat.mod_eq_of_lt hc, recordCheck]

end Sys2Proof.Machine
end

section
/-! What a descriptor row does: the row's command is one descriptor on the ingress port, which is refused or
accepted (R258, R260, R261). -/

namespace Sys2Proof.Machine

/-- A row whose descriptor spells its command takes that descriptor from the port. -/
theorem exec_of_descriptorOf {i : Instr} {d : Descriptor} {s : State} (h : descriptorOf i = some d) (hl : live s = true) :
    exec i s = .next { takeDescriptor d s with pending := s.pending } := by
  unfold descriptorOf at h
  split at h
  all_goals simp only [Option.ite_none_right_eq_some, Option.some.injEq, reduceCtorEq] at h
  all_goals obtain ⟨spelled, rfl⟩ := h; exact event_of (by simp [hl, spelled])

/-! ### Refusal -/

theorem topUp_eq (s : State) : topUp s = { s with front := { s.front with credits := (topUp s).front.credits } } := by
  unfold topUp; split <;> rfl

/-- A refusal adds its record; besides, it touches credits, counters and the queues of reports. -/
theorem refuse_eq (d : Descriptor) (status : Nat) (inj : Bool) (s : State) :
    refuse d status inj s
      = { s with front := { s.front with refusals := s.front.refusals ++ [(s.clocks.fc, refusalRecord d status)]
                                         credits := (refuse d status inj s).front.credits }
                 od := (refuse d status inj s).od, rel := (refuse d status inj s).rel } := by
  unfold refuse
  dsimp only
  split
  · rw [topUp_eq, report_eq, odBump_eq]
  · rw [topUp_eq, odBump_eq]

/-! ### Acceptance -/

/-- The command with the outcome of the front-end checks and of the commands it waits on strictly (R261, R278). -/
def checkedCmd (d : Descriptor) (s : State) : Cmd :=
  let c := { newCmd s d with reject := frontCheck s (odv s 0x3100 1) (odv s 0x4300 1) d }
  if dStrict d && (waited s d).any (fun x => x.decided && !statusOk x.status) then addReject c (stDepFailed, noDetail) else c

/-- The lines of 128 bytes that hold the argument block (R264). -/
def argLines (d : Descriptor) : List Nat :=
  if dArgSlots d = 0 then []
  else (List.range ((dArgAddr d + 16 * dArgSlots d - 1) / 128 - dArgAddr d / 128 + 1)).map fun i => dArgAddr d / 128 + i

/-- The command that acceptance puts in flight. -/
def acceptedCmd (d : Descriptor) (s : State) : Cmd :=
  if dArgSlots d = 0 then checkArgs s (checkedCmd d s) else { checkedCmd d s with argWait := argLines d }

@[simp] theorem present_front (q : MemReq) (s : State) : (present q s).front = s.front := by
  unfold present
  split
  · split <;> rfl
  · rfl

/-- A write of the engine's own, which no command waits for, leaves the command ports alone. -/
theorem hostWrite_engine_front (a : Nat) (bs : List Byte) (prio : Bool) (s : State) :
    (hostWrite a bs false .engine prio s).front = s.front :=
  foldl_holds (fun t : State => t.front = s.front) rfl fun t q ht => (present_front q t).trans ht

@[simp] theorem trace_front (kind cls unit payload : Nat) (s : State) : (trace kind cls unit payload s).front = s.front := by
  unfold trace
  split
  · exact hostWrite_engine_front ..
  · rfl

theorem enqueueArgs_front (ls : List Nat) (o : MemOwner) (s : State) :
    (ls.foldl (fun s l => enqueue (lineRead (l % 2 ^ 45) o false) s) s).front = s.front :=
  foldl_holds (fun t : State => t.front = s.front) rfl fun _ _ ht => ht

/-- Acceptance puts one command at the end of those in flight, under the next number. -/
theorem accept_front (d : Descriptor) (s : State) :
    (accept d s).front = { s.front with cmds := s.front.cmds ++ [acceptedCmd d s], nextUid := s.front.nextUid + 1
                                        credits := (accept d s).front.credits } := by
  unfold accept
  dsimp only
  rw [topUp_eq]
  simp only [trace_front, enqueueArgs_front]
  rfl

theorem addReject_desc (c : Cmd) (r : Nat × Nat) : (addReject c r).desc = c.desc := by
  unfold addReject
  split
  · split <;> rfl
  · rfl

/-- A failure of a later check does not replace one of lower or equal precedence number (R284). -/
theorem addReject_reject {c : Cmd} {r r0 : Nat × Nat} (h : c.reject = some r0) (hp : statusPrec r0.1 ≤ statusPrec r.1) :
    (addReject c r).reject = some r0 := by
  have stands : ¬ statusPrec r.1 < statusPrec r0.1 := by omega
  simp [addReject, h, stands]

theorem checkArgs_desc (s : State) (c : Cmd) : (checkArgs s c).desc = c.desc := by
  unfold checkArgs
  dsimp only
  split
  · exact addReject_desc _ _
  · rfl

/-- The slot checks leave a status of the front end's checks of steps 1 to 3. -/
theorem checkArgs_reject (s : State) {c : Cmd} {r : Nat × Nat} (h : c.reject = some r) (hp : statusPrec r.1 ≤ 3) :
    (checkArgs s c).reject = some r := by
  unfold checkArgs
  dsimp only
  split
  · exact addReject_reject h hp
  · exact h

theorem checkedCmd_desc (d : Descriptor) (s : State) : (checkedCmd d s).desc = d := by
  unfold checkedCmd
  dsimp only
  split
  · exact addReject_desc _ _
  · rfl

theorem checkedCmd_reject {d : Descriptor} {s : State} {r : Nat × Nat}
    (h : frontCheck s (odv s 0x3100 1) (odv s 0x4300 1) d = some r) (hp : statusPrec r.1 ≤ 3) :
    (checkedCmd d s).reject = some r := by
  unfold checkedCmd
  dsimp only
  split
  · exact addReject_reject h (hp.trans (by decide))
  · exact h

theorem acceptedCmd_desc (d : Descriptor) (s : State) : (acceptedCmd d s).desc = d := by
  unfold acceptedCmd
  split
  · rw [checkArgs_desc, checkedCmd_desc]
  · exact checkedCmd_desc d s

theorem acceptedCmd_reject {d : Descriptor} {s : State} {r : Nat × Nat}
    (h : frontCheck s (odv s 0x3100 1) (odv s 0x4300 1) d = some r) (hp : statusPrec r.1 ≤ 3) :
    (acceptedCmd d s).reject = some r := by
  unfold acceptedCmd
  split
  · exact checkArgs_reject s (checkedCmd_reject h hp) hp
  · exact checkedCmd_reject h hp

theorem byTag_accept {d : Descriptor} {s : State} (h : byTag s (dTag d) = none) :
    byTag (accept d s) (dTag d) = some (acceptedCmd d s) := by
  unfold byTag at h ⊢
  rw [accept_front]
  simp [h, acceptedCmd_desc]

/-! ### Packing sets released by a fence (R181) -/

/-- On the command ports, only the packing state of commands in flight differs. -/
def PacksOnly (s t : State) : Prop :=
  ∃ g : Cmd → Cmd, (∀ x, ∃ p q, g x = { x with packGo := p, packed := q })
    ∧ t.front = { s.front with cmds := s.front.cmds.map g }

theorem PacksOnly.refl (s : State) : PacksOnly s s := ⟨id, fun x => ⟨x.packGo, x.packed, rfl⟩, by simp⟩

theorem PacksOnly.trans {s t u : State} (h : PacksOnly s t) (k : PacksOnly t u) : PacksOnly s u := by
  obtain ⟨g, hg, ht⟩ := h
  obtain ⟨f, hf, hu⟩ := k
  refine ⟨f ∘ g, fun x => ?_, by rw [hu, ht, List.map_map]⟩
  obtain ⟨p, q, hgx⟩ := hg x
  obtain ⟨p', q', hfx⟩ := hf (g x)
  exact ⟨p', q', by rw [Function.comp, hfx, hgx]⟩

theorem PacksOnly.refusals {s t : State} (h : PacksOnly s t) : t.front.refusals = s.front.refusals := by
  obtain ⟨g, _, ht⟩ := h
  rw [ht]

/-- A tag names the same command, its packing state apart. -/
theorem PacksOnly.byTag {s t : State} {tag : Nat} {c : Cmd} (h : PacksOnly s t) (hc : byTag s tag = some c) :
    ∃ p q, byTag t tag = some { c with packGo := p, packed := q } := by
  obtain ⟨g, hg, ht⟩ := h
  have sameTag : (fun x : Cmd => decide (dTag x.desc = tag)) ∘ g = fun x => decide (dTag x.desc = tag) := by
    funext x
    obtain ⟨p, q, hx⟩ := hg x
    simp [hx]
  obtain ⟨p, q, hgc⟩ := hg c
  refine ⟨p, q, ?_⟩
  unfold Machine.byTag at hc ⊢
  rw [ht, List.find?_map, sameTag, hc, Option.map_some, hgc]

/-- What the release of packing set `f` does to a command, when the commands of `who` go as one. -/
def packReleased (f : Nat) (who : List Nat) (c : Cmd) : Cmd :=
  if c.packSet = f && c.walked && !c.packGo then { c with packGo := true, packed := who.contains c.uid } else c

theorem packReleased_eq (f : Nat) (who : List Nat) (c : Cmd) :
    ∃ p q, packReleased f who c = { c with packGo := p, packed := q } := by
  unfold packReleased
  split
  · exact ⟨true, _, rfl⟩
  · exact ⟨c.packGo, c.packed, rfl⟩

@[simp] theorem odBump_front (i j n : Nat) (s : State) : (odBump i j n s).front = s.front := rfl

theorem packRelease_packs (f : Nat) (s : State) : PacksOnly s (packRelease f s) := by
  unfold packRelease
  split
  · exact .refl s
  · refine ⟨packReleased f ?who, packReleased_eq f _, ?front⟩
    case front =>
      simp only [apply_ite State.front, odBump_front, ite_self]
      rfl

theorem releaseFenced_packs (s : State) : PacksOnly s (releaseFenced s) := by
  refine foldl_holds (PacksOnly s) (.refl s) fun t f ht => ?_
  split
  · exact ht.trans (packRelease_packs f t)
  · exact ht

/-! ### Judgement -/

/-- The state in which a descriptor that had a credit is judged. -/
def creditSpent (s : State) : State := { s with front := { s.front with credits := s.front.credits - 1 } }

@[simp] theorem creditSpent_front (s : State) :
    (creditSpent s).front = { s.front with credits := s.front.credits - 1 } := rfl

section
variable {d : Descriptor} {s : State} (hcr : s.front.credits > 0) (hinj : fires 0x23 0 s = none)
include hcr hinj

/-- The two cases of R260 and what the report of a failed check names, in order. -/
theorem submit_eq : submit d s =
    if dCrcOk d = false then refuse d 0x0103 false (creditSpent s)
    else if (byTag s (dTag d)).isSome then refuse d 0x0104 false (creditSpent s)
    else accept d (creditSpent s) := by
  have quiet : fires 0x23 0 { s with front := { s.front with credits := s.front.credits - 1 } } = none := hinj
  have funded : ¬ s.front.credits = 0 := by omega
  simp [submit, funded, quiet, creditSpent, byTag]

theorem takeDescriptor_refused (h : dCrcOk d = false ∨ (byTag s (dTag d)).isSome = true) :
    takeDescriptor d s = refuse d (if dCrcOk d then 0x0104 else 0x0103) false (creditSpent s) := by
  have refused : submit d s = refuse d (if dCrcOk d then 0x0104 else 0x0103) false (creditSpent s) := by
    rw [submit_eq hcr hinj]
    cases hk : dCrcOk d with
    | false => rfl
    | true => simp [h.resolve_left (by simp [hk])]
  have noNumber : (submit d s).front.nextUid = s.front.nextUid := by rw [refused, refuse_eq]; rfl
  rw [takeDescriptor, if_pos noNumber, refused]

theorem takeDescriptor_accepted (hok : dCrcOk d = true) (htag : byTag s (dTag d) = none) :
    takeDescriptor d s = releaseFenced (accept d (creditSpent s)) := by
  have accepted : submit d s = accept d (creditSpent s) := by simp [submit_eq hcr hinj, hok, htag]
  have numbered : (submit d s).front.nextUid ≠ s.front.nextUid := by rw [accepted, accept_front]; simp
  rw [takeDescriptor, if_neg numbered, accepted]

end

end Sys2Proof.Machine
end

section
/-! The statements on refusal, on the order of streams and fences, and on the field rules (chapter 09). -/

namespace Sys2Proof.Machine

/-! ### Refused descriptors (R260) -/

/-- The record of a refusal, field by field (Table 09.14). -/
theorem refusalRecord_fields (d : Descriptor) {status : Nat} (h : status < 2 ^ 16) :
    let r := refusalRecord d status
    fld r 0 9 = dTag d ∧ fld r 9 6 = dStream d ∧ fld r 15 1 = 1 ∧ fld r 16 8 = dOp d ∧ fld r 24 8 = 0
      ∧ fld r 32 16 = status ∧ fld r 48 16 = 0 ∧ fld r 64 32 = dUser d ∧ fld r 96 144 = 0
      ∧ fld r 240 16 = crc16 (toBytes 30 (fld r 0 240)) := by
  let fs : List (Nat × Nat) :=
    [(9, dTag d), (6, dStream d), (1, 1), (8, dOp d), (8, 0), (16, status), (16, 0), (32, dUser d)]
  have width : packWidth fs = 96 := rfl
  have fits : packWidth fs ≤ 240 := width.trans_le (by decide)
  have field (i : Nat) (hi : i < 8) := fld_record_getElem fits i hi
  exact ⟨(field 0 (by decide)).trans (fld_mod d 8 9), (field 1 (by decide)).trans (fld_mod d 17 6), field 2 (by decide),
    (field 3 (by decide)).trans (fld_mod d 0 8), field 4 (by decide), (field 5 (by decide)).trans (Nat.mod_eq_of_lt h),
    field 6 (by decide), (field 7 (by decide)).trans (fld_mod d 96 32), fld_record_above width.le (by decide),
    fld_record_check fits⟩

/-- Settles O16: a refused descriptor leaves its record and nothing of a command; an accepted one leaves no record. -/
theorem refusedDescriptors : Obligations.RefusedDescriptors := by
  intro i d s hd hl hcr hinj
  refine ⟨fun hbad => ?_, fun hok htag => ?_⟩
  · have hs : (if dCrcOk d then 0x0104 else 0x0103) < 2 ^ 16 := by split <;> decide
    obtain ⟨tag, stream, refused, op, z24, status, flags, user, counts, check⟩ := refusalRecord_fields d hs
    refine ⟨_, refusalRecord d (if dCrcOk d then 0x0104 else 0x0103), exec_of_descriptorOf hd hl, ?_⟩
    rw [takeDescriptor_refused hcr hinj hbad, refuse_eq]
    exact ⟨rfl, tag, stream, refused, op, z24, status, flags, user, counts, check, rfl, rfl, rfl, rfl⟩
  · refine ⟨_, exec_of_descriptorOf hd hl, ?_⟩
    rw [takeDescriptor_accepted hcr hinj hok htag]
    dsimp only
    rw [(releaseFenced_packs _).refusals, accept_front, creditSpent_front]

/-! ### Streams and fences (R275, R276) -/

theorem nextDispatch_spec {s : State} {c : Cmd} (h : nextDispatch s = some c) :
    c ∈ s.front.cmds ∧ dispatchable s c = true := by
  obtain ⟨stream, _, hfind⟩ := List.exists_of_findSome?_eq_some h
  exact List.mem_filter.mp (List.mem_of_find?_eq_some hfind)

theorem orderMet_of_dispatchable {s : State} {c : Cmd} (h : dispatchable s c = true) : orderMet s c = true := by
  simp only [dispatchable, Bool.and_eq_true] at h
  obtain ⟨⟨⟨_, order⟩, _⟩, _⟩ := h
  exact order

/-- In an ordered stream, and for a command with `FENCE`, the rule asks for every earlier command of the stream. -/
theorem orderMet_iff_of_serial {s : State} {c : Cmd} (h : (bit (odv s 0x2200 1) (dStream c.desc) || dFence c.desc) = true) :
    orderMet s c = true ↔
      ∀ x ∈ s.front.cmds, x.uid < c.uid → dStream x.desc = dStream c.desc → x.decided = true := by
  unfold orderMet
  rw [if_pos h]
  simp only [List.isEmpty_iff, List.filter_eq_nil_iff]
  grind

/-- Elsewhere it asks for those with `FENCE`. -/
theorem orderMet_iff_of_parallel {s : State} {c : Cmd} (h : ¬ (bit (odv s 0x2200 1) (dStream c.desc) || dFence c.desc) = true) :
    orderMet s c = true ↔
      ∀ x ∈ s.front.cmds, x.uid < c.uid → dStream x.desc = dStream c.desc → dFence x.desc = true → x.decided = true := by
  unfold orderMet
  rw [if_neg h]
  simp only [Bool.not_eq_true', List.any_eq_false, List.mem_filter]
  grind

/-- Settles O19: the scheduler names only a command whose order rule is met. -/
theorem fenceOrder : Obligations.FenceOrder := by
  refine ⟨fun s c hc => ?_, fun s c hs => orderMet_iff_of_serial (by simp [hs])⟩
  obtain ⟨inFlight, ready⟩ := nextDispatch_spec hc
  have order := orderMet_of_dispatchable ready
  refine ⟨inFlight, fun fenced => (orderMet_iff_of_serial (by simp [fenced])).mp order, fun x hx old same fenced => ?_⟩
  by_cases serial : (bit (odv s 0x2200 1) (dStream c.desc) || dFence c.desc) = true
  · exact (orderMet_iff_of_serial serial).mp order x hx old same
  · exact (orderMet_iff_of_parallel serial).mp order x hx old same fenced

/-! ### Field rules (R270, R353) -/

theorem least_eq_none {l : List Nat} (h : least l = none) : l = [] := by
  cases l with
  | nil => rfl
  | cons n l =>
    have found : (least (n :: l)).isSome = true := by
      unfold least
      rw [List.foldl_cons]
      exact foldl_holds (fun m : Option Nat => m.isSome = true) rfl fun _ _ _ => rfl
    simp [h] at found

/-- A failing check of step 3 rejects with DESC_INVALID, where steps 1 and 2 of R261 find nothing. -/
theorem frontCheck_stepThree {s : State} {b r : Nat} {d : Descriptor} {f : Nat} (hst : s.mgmt.st = 2)
    (hstop : s.mgmt.stopPending = false) (hk : dKaolin d = false)
    (hclass : ∀ k, opClass (dOp d) = some k → k < 9 → bit (odv s 0x2100 1) k = true) (hf : f ∈ stepThree s b r d) :
    ∃ det, frontCheck s b r d = some (0x0100, det) := by
  unfold frontCheck
  cases hop : opClass (dOp d) with
  | none => exact ⟨0, rfl⟩
  | some k =>
    cases hleast : least (stepThree s b r d) with
    | none => simp [least_eq_none hleast] at hf
    | some det => exact ⟨det, by simpa [hst, hstop, hk] using hclass k hop⟩

theorem deadline_mem_stepThree (s : State) (b r : Nat) {d : Descriptor} (hd : dDeadline d ≠ 0)
    (hop : dOp d ∉ [0x10, 0x11, 0x12, 0x18]) : 192 ∈ stepThree s b r d := by
  have fails : failIf (dDeadline d != 0 && !(dOp d = 0x10 || dOp d = 0x11 || dOp d = 0x12 || dOp d = 0x18)) 192 = [192] := by
    simp_all [failIf]
  simp only [stepThree, fails, List.mem_append, List.mem_singleton, true_or, or_true]

/-- A group that is neither READY nor FAILED fails its check (R353). -/
theorem failIf_groupState {st : Nat} (h : st ∉ [1, 2]) (f : Nat) : failIf (st != 1 && st != 2) f = [f] := by
  simp_all [failIf]

theorem group_mem_stepThree (s : State) (b r : Nat) {d : Descriptor} (hop : dOp d ∈ [0x40, 0x41])
    (hg : (groupAt s (fld d 260 8)).st ∉ [1, 2]) : 260 ∈ stepThree s b r d := by
  have collective : dOp d = 0x40 ∨ dOp d = 0x41 := by simpa using hop
  simp only [stepThree, failIf_groupState hg, if_pos collective, List.mem_append, List.mem_singleton, or_true, true_or]

theorem expertGroup_mem_stepThree (s : State) (b r : Nat) {d : Descriptor} (hop : dOp d = 0x31)
    (hg : (groupAt s (fld d 302 8)).st ∉ [1, 2]) : 302 ∈ stepThree s b r d := by
  simp only [stepThree, failIf_groupState hg, if_pos hop, List.mem_append, List.mem_singleton, or_true, true_or]

/-- Settles O23: the field rules are checks of step 3, and no later check replaces their status. -/
theorem fieldRulesReject : Obligations.FieldRulesReject := by
  intro i d s hd hl hcr hinj hok htag hst hstop hk hclass hrule
  obtain ⟨f, hf⟩ : ∃ f, f ∈ stepThree (creditSpent s) (odv s 0x3100 1) (odv s 0x4300 1) d := by
    obtain ⟨late, hop⟩ | ⟨hop, hg⟩ | ⟨hop, hg⟩ := hrule
    · exact ⟨192, deadline_mem_stepThree _ _ _ late hop⟩
    · exact ⟨260, group_mem_stepThree _ _ _ hop hg⟩
    · exact ⟨302, expertGroup_mem_stepThree _ _ _ hop hg⟩
  obtain ⟨det, hdet⟩ := frontCheck_stepThree (s := creditSpent s) hst hstop hk hclass hf
  have rejected : (acceptedCmd d (creditSpent s)).reject = some (0x0100, det) := acceptedCmd_reject hdet (le_refl 3)
  obtain ⟨p, q, found⟩ := (releaseFenced_packs _).byTag (byTag_accept (d := d) (s := creditSpent s) htag)
  refine ⟨_, { acceptedCmd d (creditSpent s) with packGo := p, packed := q }, det, exec_of_descriptorOf hd hl, ?_,
    acceptedCmd_desc d (creditSpent s), rejected⟩
  rw [takeDescriptor_accepted hcr hinj hok htag]
  exact found

end Sys2Proof.Machine
end

section
/-! The flag slots stand through every operation that follows an update of one: reports, writes of host memory and of
landing areas, wake events, what the links send and the rounds of a group's exchange. -/

namespace Sys2Proof.Machine

/-! ### Alternatives and repetition -/

theorem ite_flags {c : Prop} [Decidable c] {s t u : State} (ht : t.flags = s.flags) (hu : u.flags = s.flags) :
    (if c then t else u).flags = s.flags := by
  split
  · exact ht
  · exact hu

theorem foldl_flags {β : Type} {f : State → β → State} {l : List β} {s : State} (hf : ∀ t x, (f t x).flags = t.flags) :
    (l.foldl f s).flags = s.flags :=
  foldl_holds (fun t : State => t.flags = s.flags) rfl fun t x ht => (hf t x).trans ht

/-! ### Reports and commands -/

@[simp] theorem report_flags (code unit cell action addr : Nat) (tag : Option Nat) (inj : Bool) (s : State) :
    (report code unit cell action addr tag inj s).flags = s.flags := by
  rw [report_eq]

@[simp] theorem endCmd_flags (uid status detail : Nat) (s : State) : (endCmd uid status detail s).flags = s.flags := by
  rw [endCmd_eq]

@[simp] theorem noteTables_flags (a n : Nat) (s : State) : (noteTables a n s).flags = s.flags := ite_flags rfl rfl

@[simp] theorem countPoison_flags (uid : Nat) (ks : List Nat) (s : State) : (countPoison uid ks s).flags = s.flags :=
  ite_flags rfl rfl

/-! ### Host memory and scratchpads -/

@[simp] theorem present_flags (q : MemReq) (s : State) : (present q s).flags = s.flags := by
  unfold present
  split
  · exact ite_flags rfl rfl
  · rfl

@[simp] theorem hostWriteAs_flags (a : Nat) (bs : List Byte) (bad : Bool) (o : MemOwner) (prio : Bool) (s : State) :
    (hostWriteAs a bs bad o prio s).flags = s.flags := by
  have presented : ∀ (qs : List MemReq) (t : State), (qs.foldl (fun s q => present q s) t).flags = t.flags :=
    fun _ _ => foldl_flags fun t q => present_flags q t
  cases o <;> exact presented _ _

@[simp] theorem hostWrite_flags (a : Nat) (bs : List Byte) (bad : Bool) (o : MemOwner) (prio : Bool) (s : State) :
    (hostWrite a bs bad o prio s).flags = s.flags := ite_flags (hostWriteAs_flags ..) (hostWriteAs_flags ..)

@[simp] theorem writeBad_flags (uid blk a : Nat) (bs : List Byte) (bad : Nat → Nat → Bool) (prio : Bool) (s : State) :
    (writeBad uid blk a bs bad prio s).flags = s.flags :=
  (foldl_flags fun _ _ => hostWrite_flags ..).trans (by simp)

@[simp] theorem writeMarked_flags (uid blk a : Nat) (bs : List Byte) (bad : Nat → Nat → Bool) (prio : Bool) (s : State) :
    (writeMarked uid blk a bs bad prio s).flags = s.flags := by
  simp [writeMarked]

@[simp] theorem spWrite_flags (b a : Nat) (bs : List Byte) (bad : Bool) (s : State) : (spWrite b a bs bad s).flags = s.flags :=
  ite_flags rfl rfl

@[simp] theorem spoil_flags (b : Option Nat) (a n : Nat) (s : State) : (spoil b a n s).flags = s.flags := by
  cases b <;> rfl

@[simp] theorem trace_flags (kind cls unit payload : Nat) (s : State) : (trace kind cls unit payload s).flags = s.flags :=
  ite_flags (hostWrite_flags ..) rfl

/-! ### Wake events and acquires (R308, R309, R416) -/

@[simp] theorem wake_flags (always : Bool) (s : State) : (wake always s).flags = s.flags :=
  ite_flags ((trace_flags ..).trans (foldl_flags fun _ _ => ite_flags rfl rfl)) rfl

@[simp] theorem meetAcquire_flags (uid fc : Nat) (s : State) : (meetAcquire uid fc s).flags = s.flags := by
  unfold meetAcquire
  split
  · rfl
  · exact (wake_flags ..).trans (ite_flags (ite_flags rfl rfl) (ite_flags rfl rfl))

@[simp] theorem evalAcquire_flags (fc : Nat) (s : State) (c : Cmd) : (evalAcquire fc s c).flags = s.flags :=
  ite_flags (meetAcquire_flags ..) rfl

/-! ### Arrival tiles (R152, R153, R367) -/

@[simp] theorem abortArrival_flags (p k : Nat) (s : State) : (abortArrival p k s).flags = s.flags := by
  unfold abortArrival
  split
  · rfl
  · exact ite_flags (spoil_flags ..) rfl

@[simp] theorem landTile_flags (x : RxPacket) (bs : List Byte) (s : State) : (landTile x bs s).flags = s.flags := by
  simp [landTile]

theorem landFlit_flags {p : Nat} {x : TxFlit} {s t : State} (h : landFlit p x s = some t) : t.flags = s.flags := by
  unfold landFlit at h
  dsimp only at h
  split at h
  · split at h
    · cases h
    · cases h
      exact ite_flags rfl (landTile_flags ..)
  · split at h
    · cases h
      rfl
    · split at h
      · cases h
        exact abortArrival_flags ..
      · cases h
        exact ite_flags rfl (landTile_flags ..)

@[simp] theorem drainHold_flags (p : Nat) (s : State) : (drainHold p s).flags = s.flags := by
  refine foldl_holds (fun a : State × List TxFlit × List Nat => a.1.flags = s.flags) rfl fun a x ha => ?_
  dsimp only
  split
  · exact ha
  · split
    · next t landed =>
      have ht : t.flags = s.flags := (landFlit_flags landed).trans ha
      exact ite_flags ht ht
    · exact ha

/-! ### What this node sends (R336, R337) -/

@[simp] theorem awaitAck_flags (uid port : Nat) (s : State) : (awaitAck uid port s).flags = s.flags := ite_flags rfl rfl

@[simp] theorem sendLocal_flags (uid dst : Nat) (mk : Nat → Nat → List TxFlit) (s : State) :
    (sendLocal uid dst mk s).flags = s.flags := by
  unfold sendLocal
  split
  · rfl
  · exact ite_flags (endCmd_flags ..) (awaitAck_flags ..)

@[simp] theorem sendSmall_flags (uid tag dst addr : Nat) (bs : List Byte) (bad : Bool) (s : State) :
    (sendSmall uid tag dst addr bs bad s).flags = s.flags := by
  simp [sendSmall]

@[simp] theorem sendRelease_flags (uid tag dst slot scope : Nat) (add : Bool) (val : Nat) (s : State) :
    (sendRelease uid tag dst slot scope add val s).flags = s.flags := by
  simp [sendRelease]

@[simp] theorem sendPacket_flags (uid tag kind dst addr : Nat) (bs : List Byte) (bad : Bool) (s : State) :
    (sendPacket uid tag kind dst addr bs bad s).flags = s.flags := sendLocal_flags ..

@[simp] theorem sendBytes_flags (uid tag dst addr : Nat) (bs : List Byte) (bad : Nat → Nat → Bool) (s : State) :
    (sendBytes uid tag dst addr bs bad s).flags = s.flags := foldl_flags fun _ _ => sendPacket_flags ..

/-! ### The exchange of a group (R358 to R361, R365) -/

@[simp] theorem failGroup_flags (g : Nat) (s : State) : (failGroup g s).flags = s.flags :=
  (foldl_flags fun _ _ => ite_flags (endCmd_flags ..) rfl).trans (ite_flags rfl rfl)

@[simp] theorem sendRows_flags (c : Cmd) (g : Group) (j src srcRow base dstRow rows : Nat) (s : State) :
    (sendRows c g j src srcRow base dstRow rows s).flags = s.flags := by
  refine (foldl_flags fun t p => ite_flags (writeMarked_flags ..) ?_).trans (drawn_flags s)
  exact (sendBytes_flags ..).trans (countPoison_flags ..)

@[simp] theorem sendArrival_flags (c : Cmd) (g : Group) (j srcRow dst rows : Nat) (s : State) :
    (sendArrival c g j srcRow dst rows s).flags = s.flags := by
  have counted : ∀ (b : Bool) (ks : List Nat), (if b then countPoison c.uid ks (drawn s) else drawn s).flags = s.flags :=
    fun _ _ => ite_flags (countPoison_flags ..) rfl
  exact ite_flags ((drainHold_flags ..).trans (counted ..)) ((sendPacket_flags ..).trans (counted ..))

@[simp] theorem sendData_flags (c : Cmd) (s : State) : (sendData c s).flags = s.flags := by
  unfold sendData
  split
  · rfl
  · exact foldl_flags fun t p => ite_flags (sendRows_flags ..) (sendRows_flags ..)

@[simp] theorem startRound_flags (c : Cmd) (second : Bool) (word : Option (Nat × (Nat → Nat))) (s : State) :
    (startRound c second word s).flags = s.flags := by
  refine foldl_flags fun t j => (sendRelease_flags ..).trans ?_
  cases word
  · rfl
  · exact sendSmall_flags ..

@[simp] theorem roundOver_flags (c : Cmd) (second counts : Bool) (s : State) : (roundOver c second counts s).flags = s.flags :=
  wake_flags ..

@[simp] theorem writeCounts_flags (c : Cmd) (s : State) : (writeCounts c s).flags = s.flags := by
  unfold writeCounts
  split
  · exact ite_flags (hostWrite_flags ..) rfl
  · rfl

@[simp] theorem secondRound_flags (c : Cmd) (s : State) : (secondRound c s).flags = s.flags := by
  refine (startRound_flags ..).trans ?_
  split
  · exact writeCounts_flags ..
  · rfl

@[simp] theorem stagePhase_flags (c : Cmd) (s : State) : (stagePhase c s).flags = s.flags := by
  simp only [stagePhase, apply_ite State.flags, startRound_flags, hostWrite_flags, modCmd_flags, ite_self]
  refine (foldl_flags fun _ _ => ite_flags (sendArrival_flags ..) rfl).trans ?_
  exact foldl_holds (fun a : State × Nat => a.1.flags = s.flags) rfl fun _ _ ha => (writeBad_flags ..).trans ha

/-- A round that ends sends, stages, opens the second round or fails the group: none of it touches a slot. -/
@[simp] theorem examineRound_flags (g : Nat) (s : State) : (examineRound g s).flags = s.flags := by
  unfold examineRound
  split
  · rfl
  · next c _ =>
    split
    · rfl
    · refine ite_flags rfl (ite_flags (ite_flags ?_ rfl) (ite_flags ?_ rfl))
      · simp only [apply_ite State.flags, secondRound_flags, stagePhase_flags, sendData_flags, roundOver_flags, ite_self]
      · have ended : ∀ f, (if collKind c.desc = 4 then modCmd c.uid f (roundOver c true (collKind c.desc = 2) s)
            else roundOver c true (collKind c.desc = 2) s).flags = s.flags :=
          fun _ => ite_flags (roundOver_flags ..) (roundOver_flags ..)
        dsimp only
        split
        · split
          · exact ite_flags ((failGroup_flags ..).trans (ended _)) ((sendData_flags ..).trans (ended _))
          · exact ended _
        · exact ended _

@[simp] theorem examine_flags (g : Nat) (s : State) : (examine g s).flags = s.flags := by
  simp [examine]

end Sys2Proof.Machine
end

section
/-! The statement on the update of a flag slot (chapter 10). -/

namespace Sys2Proof.Machine

/-- What follows an update changes no slot. -/
@[simp] theorem afterUpdate_flags (i : Nat) (s : State) : (afterUpdate i s).flags = s.flags := by
  unfold afterUpdate
  refine (foldl_flags fun _ _ => ite_flags (examine_flags ..) rfl).trans ?_
  refine (foldl_flags fun _ _ => ite_flags (evalAcquire_flags ..) rfl).trans ?_
  have reported : (if (fires 0x21 0 s).isSome then report 0x21 0 i 0 0 none true (disarm 0x21 0 s) else s).flags = s.flags :=
    ite_flags (report_flags ..) rfl
  exact ite_flags reported ((hostWrite_flags ..).trans reported)

/-- The slot as a release leaves it (R304). -/
def releasedFlag (f : Flag) (add : Bool) (val scope src : Nat) (remote : Bool) (fc : Nat) : Flag :=
  { value := if add then (f.value + val) % 2 ^ 32 else val % 2 ^ 32
    scope := if add then min f.scope scope else scope
    src := src, remote := remote, setFc := fc }

/-- Of a release only the write of its own slot changes flag slots; a set's failure signal (R360) does not. -/
theorem applyRelease_flags (i : Nat) (add : Bool) (val scope src : Nat) (remote : Bool) (fc : Nat) (s : State) :
    (applyRelease i add val scope src remote fc s).flags
      = (putFlag i (releasedFlag (flagAt s i) add val scope src remote fc) s).flags :=
  (afterUpdate_flags ..).trans (ite_flags rfl (foldl_flags fun _ _ => ite_flags (failGroup_flags ..) rfl))

theorem flagAt_applyRelease (i n : Nat) (add : Bool) (val scope src : Nat) (remote : Bool) (fc : Nat) (s : State) :
    flagAt (applyRelease i add val scope src remote fc s) n
      = if n = i then releasedFlag (flagAt s i) add val scope src remote fc else flagAt s n := by
  rw [flagAt, applyRelease_flags]
  exact flagAt_putFlag ..

/-- Settles O28: the slot reads as the release leaves it, since all that follows the update leaves the slots alone. A
recorded scope of 7 is above the release's own, so the narrower of the two is the release's. -/
theorem flagUpdateRules : Obligations.FlagUpdateRules := by
  intro i add remote val scope src fc s hval hscope
  have own : flagAt (applyRelease i add val scope src remote fc s) i = releasedFlag (flagAt s i) add val scope src remote fc := by
    rw [flagAt_applyRelease, if_pos rfl]
  refine ⟨fun hadd => ?_, fun hadd => ?_, ?_, ?_, fun j hj => ?_⟩
  · subst hadd
    rw [own]
    exact ⟨Nat.mod_eq_of_lt hval, rfl⟩
  · subst hadd
    rw [own]
    refine ⟨rfl, rfl, fun unset => ?_⟩
    exact Nat.min_eq_right (by omega)
  · rw [own]; rfl
  · rw [own]; rfl
  · rw [flagAt_applyRelease, if_neg hj]

end Sys2Proof.Machine
end

section
/-! The statement on the Marl cap (chapter 14). -/

namespace Sys2Proof.Machine

/-! ### What the dictionary shows (R409) -/

theorem odNow_capInForce (s : State) : odNow s 0x5000 2 = capInForce s := rfl

theorem odNow_marlCapCode (s : State) : odNow s 0x5000 4 = s.power.code := rfl

/-! ### A sample of slot D (R409) -/

/-- The power manager's record once a frame has carried the code. -/
def withSample (c : BitVec 4) (p : Power) : Power :=
  let run := if c.toNat = p.lastCode then p.codeRun + 1 else 1
  { p with lastCode := c.toNat, codeRun := run, code := if run ≥ 2 then c.toNat else p.code }

theorem exec_marlCapRequest (c : BitVec 4) {s : State} (runs : live s = true) (frames : s.boot.frames = true) :
    exec (.marlCapRequest c) s = .next { s with power := withSample c s.power } := by
  have enabled : (live s && s.boot.frames) = true := by simp [runs, frames]
  exact congrArg Host.Outcome.next (if_pos enabled)

@[simp] theorem withSample_lastCode (c : BitVec 4) (p : Power) : (withSample c p).lastCode = c.toNat := rfl

theorem withSample_codeRun_pos (c : BitVec 4) (p : Power) : 0 < (withSample c p).codeRun := by
  show 0 < if c.toNat = p.lastCode then p.codeRun + 1 else 1
  split <;> omega

/-- The second sample in a row of one value puts it in force. -/
theorem withSample_code_of_eq {c : BitVec 4} {p : Power} (same : c.toNat = p.lastCode) (seen : 0 < p.codeRun) :
    (withSample c p).code = c.toNat := by
  have twice : p.codeRun + 1 ≥ 2 := by omega
  simp [withSample, ← same, twice]

/-- A value that the sample before did not carry leaves the code in force. -/
theorem withSample_code_of_ne {c : BitVec 4} {p : Power} (new : c.toNat ≠ p.lastCode) :
    (withSample c p).code = p.code := by
  simp [withSample, new]

/-- Whatever the record held before the first of two samples, the second one's code counts if the first was equal. -/
theorem withSample_withSample_code (a b : BitVec 4) (p : Power) :
    (withSample b (withSample a p)).code = if a = b then b.toNat else (withSample a p).code := by
  split
  case isTrue same => exact withSample_code_of_eq (congrArg BitVec.toNat same.symm) (withSample_codeRun_pos a p)
  case isFalse other => exact withSample_code_of_ne fun equal => other (BitVec.eq_of_toNat_eq equal.symm)

/-- Settles O9: the dictionary reads the record itself, and the first sample counts at least once, so that an equal
second one is the second in a row. -/
theorem marlCapInForce : Obligations.MarlCapInForce := by
  refine ⟨fun s => ⟨odNow_capInForce s, odNow_marlCapCode s⟩, fun a b s runs frames => ?_⟩
  have code := withSample_withSample_code a b s.power
  refine ⟨_, _, exec_marlCapRequest a runs frames, exec_marlCapRequest b runs frames, code, ?bound, rfl, rfl⟩
  case bound =>
    have fourBits := b.isLt
    show (withSample b (withSample a s.power)).code ≤ max 15 (withSample a s.power).code
    rw [code]
    split <;> omega

end Sys2Proof.Machine
end

section
/-! The statement on the voltage request that stays unanswered (chapter 16). -/

namespace Sys2Proof.Machine

/-! ### Entering FAULT (R382) -/

/-- A change of the dictionary's state counts only in its own counter. -/
theorem odv_setSt_other (n : Nat) {k l : Nat} (s : State) (other : odKey k l ≠ odKey 0x1F80 4) :
    odv (setSt n s) k l = odv s k l := by
  unfold setSt
  split
  · rfl
  · exact odv_odBump_other _ other

/-- Ending the commands in flight writes no dictionary entry, so FAULT shows only in the entry on its state. -/
theorem odv_enterFault_other {k l : Nat} (s : State) (other : odKey k l ≠ odKey 0x1F80 4) :
    odv (enterFault s) k l = odv s k l := by
  obtain ⟨f, b, r, e, q, ended⟩ := endCmds_eq s.front.cmds stResetAbort noDetail s
  exact (odv_setSt_other 4 _ other).trans (odv_of_od (by rw [ended]) k l)

@[simp] theorem enterFault_st (s : State) : (enterFault s).mgmt.st = 4 := setSt_st 4 _

@[simp] theorem enterFault_boot (s : State) : (enterFault s).boot = s.boot := by
  obtain ⟨f, b, r, e, q, o, entered⟩ := enterFault_eq s
  rw [entered]

@[simp] theorem enterFault_power (s : State) : (enterFault s).power = s.power := by
  obtain ⟨f, b, r, e, q, o, entered⟩ := enterFault_eq s
  rw [entered]

/-! ### The timeout (R477) -/

/-- The timeout as `AVS_TIMEOUTS` and the power manager's record hold it. -/
def avsCounted (s : State) : State :=
  odBump 0x2300 5 1 { s with power := { s.power with avsLate := true } }

theorem odv_avsCounted (s : State) : odv (avsCounted s) 0x2300 5 = (odv s 0x2300 5 + 1) % 2 ^ 32 :=
  odv_odBump_same (w := 32) _ (by decide)

theorem odv_bootFail_avsTimeouts (code : Nat) (s : State) : odv (bootFail code s) 0x2300 5 = odv s 0x2300 5 :=
  odv_enterFault_other _ (by decide)

/-- A request that is due and not yet counted is counted; start-up ends with it. -/
theorem exec_avsTimeout {s : State} (runs : live s = true) (waits : s.power.avsWait = true)
    (uncounted : s.power.avsLate = false) (due : refNow s ≥ s.power.avsRef + 100000) :
    exec .avsTimeout s = .next { (if s.boot.stage = 3 ∧ s.boot.failure = 0 then bootFail 7 (avsCounted s) else avsCounted s)
      with pending := s.pending } :=
  event_of (by simp [runs, waits, uncounted, due])

/-- Settles O7: the counter is raised before the stage of start-up decides, and FAULT leaves it and the power manager's
record as they are. -/
theorem voltageTimeout : Obligations.VoltageTimeout := by
  intro s runs waits uncounted due
  refine ⟨_, exec_avsTimeout runs waits uncounted due, ?_⟩
  by_cases starting : s.boot.stage = 3 ∧ s.boot.failure = 0
  case pos =>
    rw [if_pos starting]
    have counted := (odv_bootFail_avsTimeouts 7 (avsCounted s)).trans (odv_avsCounted s)
    exact ⟨counted, enterFault_power _, fun _ => ⟨enterFault_st _, enterFault_boot _⟩, fun outside => absurd starting outside⟩
  case neg =>
    rw [if_neg starting]
    exact ⟨odv_avsCounted s, rfl, fun inside => absurd inside starting, fun _ => rfl⟩

end Sys2Proof.Machine
end

section
/-! The statement on the responses to the unlock challenge (chapter 17). -/

namespace Sys2Proof.Machine

/-! ### A write of one entry (R376) -/

theorem writeAbort_of_lifeAbort {s : State} {r : OdRow} {i j e : Nat} (bs : List Byte) (writable : ¬ r.acc < 2)
    (forbids : lifeAbort s i j = some e) : writeAbort s r i j bs = e := by
  simp [writeAbort, firstAbort, abIf, writable, forbids]

section
variable {s : State} {r : OdRow} {i j : Nat} {bs : List Byte}

theorem writeAbort_of_writePasses {row : Instr} (writes : writeOf row = some (i, j, bs)) (entry : odFind i j = some r)
    (passes : writePasses s row = true) : writeAbort s r i j bs = 0 := by
  simpa only [writePasses, writes, entry, decide_eq_true_eq] using passes

theorem odWrite_of_writeAbort (entry : odFind i j = some r) (fails : writeAbort s r i j bs ≠ 0) :
    odWrite i j bs s = (writeAbort s r i j bs, s) := by
  simp [odWrite, odExists, entry, fails]

theorem odWrite_of_passes (entry : odFind i j = some r) (now : r.acc ≠ 3) (passes : writeAbort s r i j bs = 0) :
    odWrite i j bs s = applyWrite i j bs s := by
  simp [odWrite, odExists, entry, now, passes]

end

/-! ### The entry `UNLOCK_RESPONSE` (Table 17.9) -/

def unlockResponseRow : OdRow := odDom 0x8300 2 1 4 96 128

theorem odFind_unlockResponse : odFind 0x8300 2 = some unlockResponseRow := by decide

/-- Step 3 of the checks comes before every check of the dictionary's state and of the response (R376, R496). -/
theorem writeAbort_unlockResponse_of_held {s : State} (bs : List Byte) (held : refNow s < s.sec.holdUntil) :
    writeAbort s unlockResponseRow 0x8300 2 bs = abLocked :=
  writeAbort_of_lifeAbort bs (by decide) (by simp [lifeAbort, unlockHeld, held])

/-- The state after a response that is answered with `code` and leaves `t`. -/
def unlockAnswered (s : State) (code : Nat) (t : State) : State :=
  { t with mgmt := { t.mgmt with lastAbort := code }, pending := s.pending }

theorem exec_unlockResponse {bs : List Byte} {s t : State} {code : Nat} (runs : live s = true)
    (written : odWrite 0x8300 2 bs s = (code, t)) :
    exec (.unlockResponse bs) s = .next (unlockAnswered s code t) := by
  refine (event_of runs).trans ?_
  simp only [writeEntryReq, written]
  rfl

theorem exec_unlockResponse_verified {bs : List Byte} {s t : State} {code : Nat} (runs : live s = true)
    (passes : writePasses s (.unlockResponse bs) = true) (verified : unlockResponse bs s = (code, t)) :
    exec (.unlockResponse bs) s = .next (unlockAnswered s code t) :=
  exec_unlockResponse runs <|
    (odWrite_of_passes odFind_unlockResponse (by decide) (writeAbort_of_writePasses rfl odFind_unlockResponse passes)).trans verified

/-! ### The two outcomes of a verification (R494 to R497) -/

/-- The security unit's record once a response has failed: one more failure in a row, a hold and a new challenge. -/
def responseFailed (s : State) : Sec :=
  { s.sec with failRow := s.sec.failRow + 1, holdUntil := refNow s + 1000000 * 2 ^ min (s.sec.failRow + 1) 10
               attempts := (s.sec.attempts + 1) % 2 ^ 32, nonce := Config.nonce s.fresh }

/-- A response that fails touches the security unit's record, the report queues and the dictionary's counters. -/
theorem unlockResponse_failed {bs : List Byte} {s : State} (bad : unlockGood s bs = false) :
    ∃ queues counters, unlockResponse bs s = (abLocked,
      { s with sec := responseFailed s, fresh := s.fresh + 1, rel := { s.rel with queues := queues }, od := counters }) := by
  unfold unlockResponse
  rw [if_neg (by simp [bad])]
  dsimp only
  rw [report_eq]
  exact ⟨_, _, rfl⟩

/-- The functions that a response asks for: all of them when it is a signature alone. -/
def grantAsked (bs : List Byte) : Nat := if bs.length = 128 then bits (ofBytes (grantBytes bs)) 0 4 else 15

theorem grantAsked_eq (bs : List Byte) :
    grantAsked bs = if bs.length = 128 then bits (ofBytes (bs.take 32)) 0 4 else 15 :=
  if_ctx_congr Iff.rfl (fun long => by rw [grantBytes, if_pos long]) fun _ => rfl

/-- Seconds until the unlock ends; 0 when it has no expiry. -/
def durationAsked (bs : List Byte) : Nat := if bs.length = 128 then bits (ofBytes (grantBytes bs)) 32 32 else 0

/-- The security unit's record once an unlock is granted and the test access port holds `tapIr`. -/
def unlockGranted (bs : List Byte) (tapIr : Nat) (s : State) : Sec :=
  { s.sec with grant := grantAsked bs, grantRef := refNow s, duration := durationAsked bs, unlocks := s.sec.unlocks + 1
               unionGrant := s.sec.unionGrant ||| grantAsked bs, failRow := 0, holdUntil := 0, tapIr := tapIr
               attempts := (s.sec.attempts + 1) % 2 ^ 32, nonce := Config.nonce s.fresh }

/-- Some function of the unlock in force is not asked for again (R497). -/
def dropsFunction (bs : List Byte) (s : State) : Bool := (List.range 4).any fun i => bit s.sec.grant i && !bit (grantAsked bs) i

/-- Closing debug functions, where it happens, disarms the points and may change the test access instruction. -/
theorem closeDebug_if_eq (closes : Bool) (s : State) :
    ∃ tapIr armed, (if closes then closeDebug s else s)
      = { s with rel := { s.rel with armed := armed }, sec := { s.sec with tapIr := tapIr } } := by
  cases closes with
  | true => exact ⟨_, _, rfl⟩
  | false => exact ⟨s.sec.tapIr, s.rel.armed, rfl⟩

/-- A grant touches the security unit's record and the armed points. -/
theorem unlockResponse_granted {bs : List Byte} {s : State} (good : unlockGood s bs = true) :
    ∃ tapIr armed, unlockResponse bs s = (0,
      { s with sec := unlockGranted bs tapIr s, fresh := s.fresh + 1, rel := { s.rel with armed := armed } }) := by
  obtain ⟨tapIr, armed, closed⟩ := closeDebug_if_eq (dropsFunction bs s) s
  refine ⟨tapIr, armed, ?_⟩
  unfold dropsFunction grantAsked at closed
  unfold unlockResponse
  rw [if_pos good]
  dsimp only
  rw [closed]
  rfl

/-- Settles O47: the hold is checked before anything of the response is, and a response that is verified has one of two
outcomes. -/
theorem unlockHoldBack : Obligations.UnlockHoldBack := by
  intro bs s runs
  refine ⟨fun held => ?held, fun passes bad => ?failed, fun passes good => ?granted⟩
  case held =>
    have locked := writeAbort_unlockResponse_of_held bs held
    have unwritten := odWrite_of_writeAbort odFind_unlockResponse (by rw [locked]; decide)
    rw [locked] at unwritten
    exact exec_unlockResponse runs unwritten
  case failed =>
    obtain ⟨queues, counters, failed⟩ := unlockResponse_failed bad
    refine ⟨_, exec_unlockResponse_verified runs passes failed, rfl, ?_, rfl, rfl, rfl, rfl, rfl⟩
    show refNow s + 1000000 * 2 ^ min (s.sec.failRow + 1) 10 = _
    omega
  case granted =>
    obtain ⟨tapIr, armed, granted⟩ := unlockResponse_granted good
    exact ⟨_, exec_unlockResponse_verified runs passes granted, rfl, rfl, rfl, rfl, grantAsked_eq bs, rfl, rfl, rfl⟩

end Sys2Proof.Machine
end

section
/-! The statement on the invariant of the engine (Safety.lean). -/

namespace Sys2Proof.Machine

-- one proof at a time, for the memory that the check allows
set_option Elab.async false

/-- Each command's own lemma, with no part of the state held. -/
theorem exec_within {s : State} (h : EngineInv s) (c : Instr) : WithinO false false false false false s (exec c s) := by
  have w : Within false false false false false s s := EngineInv.within h
  cases c with
  | gemm _ => exact execGemm_keeps w
  | gemmMultipassComplex _ => exact execGemmMultipassComplex_keeps w
  | gemmMultipassFp32 _ => exact execGemmMultipassFp32_keeps w
  | attnFwd _ => exact execAttnFwd_keeps w
  | attnBwd _ => exact execAttnBwd_keeps w
  | attnCached _ => exact execAttnCached_keeps w
  | attnMerge _ => exact execAttnMerge_keeps w
  | routePages _ => exact execRoutePages_keeps w
  | kvAppend _ => exact execKvAppend_keeps w
  | ptEdit _ => exact execPtEdit_keeps w
  | create _ => exact execCreate_keeps w
  | release _ => exact execRelease_keeps w
  | truncate _ => exact execTruncate_keeps w
  | unmap _ => exact execUnmap_keeps w
  | fork _ => exact execFork_keeps w
  | setAttr _ => exact execSetAttr_keeps w
  | pageDrop _ => exact execPageDrop_keeps w
  | pageRestore _ => exact execPageRestore_keeps w
  | scan _ => exact execScan_keeps w
  | moeRoute _ => exact execMoeRoute_keeps w
  | topk _ => exact execTopk_keeps w
  | allGather _ => exact execAllGather_keeps w
  | reduceScatter _ => exact execReduceScatter_keeps w
  | allToAll _ => exact execAllToAll_keeps w
  | collectiveAttnMerge _ => exact execCollectiveAttnMerge_keeps w
  | permute _ => exact execPermute_keeps w
  | copy _ => exact execCopy_keeps w
  | siltCopy _ => exact execSiltCopy_keeps w
  | flagReleaseSet _ => exact execFlagReleaseSet_keeps w
  | flagReleaseAdd _ => exact execFlagReleaseAdd_keeps w
  | flagAcquire _ => exact execFlagAcquire_keeps w
  | fence _ => exact execFence_keeps w
  | hint _ => exact execHint_keeps w
  | nop _ => exact execNop_keeps w
  | ingressProtocolError => exact execIngressProtocolError_keeps w
  | argBlockReadDone _ => exact execArgBlockReadDone_keeps w
  | commandDispatch => exact execCommandDispatch_keeps w
  | workItemPlace _ => exact execWorkItemPlace_keeps w
  | psumReservationGrant _ => exact execPsumReservationGrant_keeps w
  | walkRequest _ => exact execWalkRequest_keeps w
  | arrayStep _ => exact execArrayStep_keeps w
  | stationaryLoadDone _ => exact execStationaryLoadDone_keeps w
  | tileDrain _ => exact execTileDrain_keeps w
  | drainEnd _ => exact execDrainEnd_keeps w
  | prologueTile _ => exact execPrologueTile_keeps w
  | epilogueTile _ => exact execEpilogueTile_keeps w
  | packTimeout _ => exact execPackTimeout_keeps w
  | deadlineExpiry _ _ => exact execDeadlineExpiry_keeps w
  | arrivalTilePresent _ _ => exact execArrivalTilePresent_keeps w
  | frameAllocation _ => exact execFrameAllocation_keeps w
  | appendTokenCommit _ => exact execAppendTokenCommit_keeps w
  | pagePromotion _ => exact execPagePromotion_keeps w
  | promotionCommit _ => exact execPromotionCommit_keeps w
  | pageDropAuto _ => exact execPageDropAuto_keeps w
  | peatRequestPost => exact execPeatRequestPost_keeps w
  | retiredObjectFree => exact execRetiredObjectFree_keeps w
  | poolShrinkMove _ => exact execPoolShrinkMove_keeps w
  | quiescentBoundary => exact execQuiescentBoundary_keeps w
  | profileSwitchComplete => exact execProfileSwitchComplete_keeps w
  | completionDecided _ => exact execCompletionDecided_keeps w
  | completionRecordSend => exact execCompletionRecordSend_keeps w
  | cplCredit => exact execCplCredit_keeps w
  | funcDisable _ => exact execFuncDisable_keeps w
  | dictWrite _ _ _ => exact execDictWrite_keeps w
  | read _ _ => exact execRead_keeps w
  | write _ _ => exact execWrite_keeps w
  | segRead _ _ => exact execSegRead_keeps w
  | segWrite _ _ => exact execSegWrite_keeps w
  | snapshot _ _ => exact execSnapshot_keeps w
  | describe _ _ => exact execDescribe_keeps w
  | cancel _ _ => exact execCancel_keeps w
  | sessionTimeout _ => exact execSessionTimeout_keeps w
  | mctp _ => exact execMctp_keeps w
  | setEndpointId => exact execSetEndpointId_keeps w
  | getEndpointId => exact execGetEndpointId_keeps w
  | getMctpVersionSupport => exact execGetMctpVersionSupport_keeps w
  | getMessageTypeSupport => exact execGetMessageTypeSupport_keeps w
  | getVendorDefinedMessageSupport => exact execGetVendorDefinedMessageSupport_keeps w
  | dictionaryMessage => exact execDictionaryMessage_keeps w
  | getVersion => exact execGetVersion_keeps w
  | getCapabilities => exact execGetCapabilities_keeps w
  | negotiateAlgorithms => exact execNegotiateAlgorithms_keeps w
  | getDigests => exact execGetDigests_keeps w
  | getCertificate => exact execGetCertificate_keeps w
  | challenge => exact execChallenge_keeps w
  | getMeasurements => exact execGetMeasurements_keeps w
  | spdmUnsupportedRequest => exact execSpdmUnsupportedRequest_keeps w
  | requestOperational => exact execRequestOperational_keeps w
  | requestStopped => exact execRequestStopped_keeps w
  | biasCommit _ => exact execBiasCommit_keeps w
  | routeCommit _ => exact execRouteCommit_keeps w
  | flagReset _ => exact execFlagReset_keeps w
  | portRetrain _ _ => exact execPortRetrain_keeps w
  | errorAck _ => exact execErrorAck_keeps w
  | inject _ => exact execInject_keeps w
  | spRestored _ => exact execSpRestored_keeps w
  | poolShrink _ _ => exact execPoolShrink_keeps w
  | accSelect _ => exact execAccSelect_keeps w
  | accWindow => exact execAccWindow_keeps w
  | linkKeySlot _ _ _ => exact execLinkKeySlot_keeps w
  | txKeySlot _ _ => exact execTxKeySlot_keeps w
  | keyClear _ _ => exact execKeyClear_keeps w
  | unlockResponse _ => exact execUnlockResponse_keeps w
  | relock _ => exact execRelock_keeps w
  | unlockHoldEnd => exact execUnlockHoldEnd_keeps w
  | unlockDurationEnd => exact execUnlockDurationEnd_keeps w
  | remoteFlagApply => exact execRemoteFlagApply_keeps w
  | acquireTimeout _ => exact execAcquireTimeout_keeps w
  | acquireInvalidationEnd _ => exact execAcquireInvalidationEnd_keeps w
  | nullFlit _ _ _ => exact execNullFlit_keeps w
  | headFlit _ _ _ => exact execHeadFlit_keeps w
  | dataFlit _ _ _ => exact execDataFlit_keeps w
  | smallFlit _ _ _ => exact execSmallFlit_keeps w
  | flagFlit _ _ _ => exact execFlagFlit_keeps w
  | ackFlit _ _ _ => exact execAckFlit_keeps w
  | heartbeatFlit _ _ _ => exact execHeartbeatFlit_keeps w
  | ctrlTraining _ _ => exact execCtrlTraining_keeps w
  | ctrlRetryRequest _ _ => exact execCtrlRetryRequest_keeps w
  | abortFlit _ _ _ => exact execAbortFlit_keeps w
  | flitSlot _ => exact execFlitSlot_keeps w
  | heartbeatSend _ => exact execHeartbeatSend_keeps w
  | retryRequestResend _ => exact execRetryRequestResend_keeps w
  | hbTimeout _ => exact execHbTimeout_keeps w
  | e2eTimeout _ => exact execE2eTimeout_keeps w
  | trainingTimeout _ => exact execTrainingTimeout_keeps w
  | phyReady _ => exact execPhyReady_keeps w
  | phyLockLoss _ => exact execPhyLockLoss_keeps w
  | memRequestIssue _ => exact execMemRequestIssue_keeps w
  | memReqCredit _ => exact execMemReqCredit_keeps w
  | memReadResponse _ _ _ _ => exact execMemReadResponse_keeps w
  | memWriteResponse _ _ => exact execMemWriteResponse_keeps w
  | memRespTimeout _ _ _ => exact execMemRespTimeout_keeps w
  | droopTrip _ => exact execDroopTrip_keeps w
  | stretchEnd _ => exact execStretchEnd_keeps w
  | powerLoopEval _ _ => exact execPowerLoopEval_keeps w
  | blockGated _ => exact execBlockGated_keeps w
  | thermalEval _ => exact execThermalEval_keeps w
  | thermalTrip _ => exact execThermalTrip_keeps w
  | thermalTripEnd _ => exact execThermalTripEnd_keeps w
  | marlCapRequest _ => exact execMarlCapRequest_keeps w
  | marlFrame => exact execMarlFrame_keeps w
  | trimPeriodEnd _ => exact execTrimPeriodEnd_keeps w
  | marginFloorReport _ _ => exact execMarginFloorReport_keeps w
  | trimCheckEnd _ => exact execTrimCheckEnd_keeps w
  | avsAck => exact execAvsAck_keeps w
  | avsTimeout => exact execAvsTimeout_keeps w
  | rampAdmissionStep => exact execRampAdmissionStep_keeps w
  | rampClose => exact execRampClose_keeps w
  | fallingRampStep _ => exact execFallingRampStep_keeps w
  | preRampStep => exact execPreRampStep_keeps w
  | errorReportAccept _ _ => exact execErrorReportAccept_keeps w
  | scrub _ _ _ _ => exact execScrub_keeps w
  | inServiceTest _ => exact execInServiceTest_keeps w
  | blockTestDone _ _ => exact execBlockTestDone_keeps w
  | blockRecovery _ => exact execBlockRecovery_keeps w
  | revalidationDone _ _ => exact execRevalidationDone_keeps w
  | regionRecovery _ => exact execRegionRecovery_keeps w
  | apexWarmReset _ => exact execApexWarmReset_keeps w
  | mireWatchExpiry _ _ => exact execMireWatchExpiry_keeps w
  | correctedWindow => exact execCorrectedWindow_keeps w
  | pwrGoodRise => exact execPwrGoodRise_keeps w
  | pwrGoodFall => exact execPwrGoodFall_keeps w
  | resetNFall => exact execResetNFall_keeps w
  | resetNRise => exact execResetNRise_keeps w
  | strapSample _ => exact execStrapSample_keeps w
  | pllLock => exact execPllLock_keeps w
  | fuseLoadDone _ => exact execFuseLoadDone_keeps w
  | firmwareVerifyDone _ => exact execFirmwareVerifyDone_keeps w
  | controlCoresStarted => exact execControlCoresStarted_keeps w
  | selfTestBatchDone _ => exact execSelfTestBatchDone_keeps w
  | pllLockLoss => exact execPllLockLoss_keeps w
  | idcode => exact execIdcode_keeps w
  | bypass => exact execBypass_keeps w
  | extest => exact execExtest_keeps w
  | pllLockTimeout => exact execPllLockTimeout_keeps w
  | staticBootCodeStart => exact execStaticBootCodeStart_keeps w
  | ieee1687InstrumentAccess => exact execIeee1687InstrumentAccess_keeps w
  | unknownOpcode _ => exact execUnknownOpcode_keeps w
  | hintIntervalEnd => exact execHintIntervalEnd_keeps w
  | preRampExpiry _ => exact execPreRampExpiry_keeps w

/-- Settles O60: a step with a command at the front is that command's row, and any other is a slot of time. -/
theorem engineInvKept : Obligations.EngineInvKept := by
  intro s t inv stepped
  unfold step at stepped
  split at stepped
  case h_1 =>
    cases stepped
    have w : Within false false false false false s s := EngineInv.within inv
    exact (idleSlot_keeps w).inv
  case h_2 c rest _ =>
    have popped : EngineInv { s with pending := rest } := ⟨inv.mem, inv.sp, inv.st, inv.cap, inv.therm, inv.code, inv.vid, inv.ramp⟩
    exact ((exec_within popped c).next t stepped).inv

end Sys2Proof.Machine
end

section
/-! The statement on what every row answers (R457 to R464). -/

namespace Sys2Proof.Machine

-- one proof at a time, for the memory that the check allows
set_option Elab.async false

/-- What a row of the engine's logic can answer: no change, or an event that needs that logic. -/
inductive LogicRow (s : State) : Out → Prop where
  | idle : LogicRow s (.next s)
  | event {ok : Bool} {t : State} (needs : ok = true → live s = true) : LogicRow s (event ok s t)

theorem LogicRow.completes {s : State} {o : Out} (h : LogicRow s o) : ∃ t, o = .next t ∧ t.pending = s.pending := by
  cases h with
  | idle => exact ⟨s, rfl, rfl⟩
  | event => exact event_next _ _ _

theorem LogicRow.ignored {s : State} {o : Out} (h : LogicRow s o) (still : live s = false) : o = .next s := by
  cases h with
  | idle => rfl
  | event needs => exact event_not (Bool.eq_false_iff.2 fun ok => by simp [needs ok] at still)

/-! ### Parts of the logic -/

theorem live_of_regionRuns {s : State} {r : Nat} (h : regionRuns s r = true) : live s = true := by
  simp only [regionRuns, Bool.and_eq_true] at h; exact h.1.1

theorem live_of_regionInService {s : State} {r : Nat} (h : regionInService s r = true) : live s = true := by
  simp only [regionInService, Bool.and_eq_true] at h; exact live_of_regionRuns h.2

theorem live_of_homeRuns {s : State} {seq : Nat} (h : homeRuns s seq = true) : live s = true := live_of_regionRuns h

theorem live_of_allocRuns {s : State} (h : allocRuns s = true) : live s = true := live_of_regionRuns h

theorem live_of_blockRuns {s : State} {b : Nat} (h : blockRuns s b = true) : live s = true := by
  simp only [blockRuns, Bool.and_eq_true] at h; tauto

theorem live_of_quiescent {s : State} (h : quiescent s = true) : live s = true := by
  simp only [quiescent, Bool.and_eq_true] at h; tauto

theorem live_of_rxOk {s : State} {p t : Nat} {f : Flit} (h : rxOk s p f t = true) : live s = true := by
  simp only [rxOk, Bool.and_eq_true] at h; tauto

/-! ### Rows of one shape -/

theorem descriptorRow_logic (ok : Bool) (d : Descriptor) (s : State) : LogicRow s (descriptorRow ok d s) :=
  .event (by simp +contextual)

theorem writeRow_logic (i j : Nat) (bs : List Byte) (s : State) : LogicRow s (writeRow i j bs s) := .event id

theorem requestRow_logic (cs : Nat) (tr : Transport) (ws : List Word) (s : State) : LogicRow s (requestRow cs tr ws s) :=
  .event (by simp +contextual)

theorem messageRow_logic (kind : Nat → Bool) (s : State) : LogicRow s (messageRow kind s) := by
  unfold messageRow
  split
  · exact .idle
  · exact .event (by simp +contextual)

theorem editOp_logic (code tag : Nat) (s : State) : LogicRow s (editOp code tag s) := by
  unfold editOp
  split
  · exact .idle
  · split
    · exact .idle
    · dsimp only
      split
      · exact .event (by grind [live_of_homeRuns])
      · split
        · exact .idle
        · exact .event (by grind [live_of_homeRuns])

theorem pagePromotion_logic (tag : Nat) (s : State) : LogicRow s (execPagePromotion tag s) := by
  unfold execPagePromotion
  dsimp only
  repeat' split
  all_goals first | exact .idle | exact .event (by grind [live_of_homeRuns])

/-! ### Every row -/

theorem exec_logic {c : Instr} (logic : boundaryRow c = false) (s : State) : LogicRow s (exec c s) := by
  cases c with
  | gemm | gemmMultipassComplex | gemmMultipassFp32 | attnFwd | attnBwd | attnCached | attnMerge | routePages
  | kvAppend | ptEdit | pageDrop | pageRestore | scan | moeRoute | topk | allGather | reduceScatter | allToAll
  | collectiveAttnMerge | permute | copy | siltCopy | flagReleaseSet | flagReleaseAdd | flagAcquire | fence | hint
  | nop | unknownOpcode =>
    exact descriptorRow_logic ..
  | create | release | truncate | unmap | fork | setAttr =>
    exact editOp_logic ..
  | funcDisable | dictWrite | requestOperational | requestStopped | biasCommit | routeCommit | flagReset
  | portRetrain | errorAck | inject | spRestored | poolShrink | accSelect | linkKeySlot | txKeySlot | keyClear
  | unlockResponse | relock =>
    exact writeRow_logic ..
  | read | write | segRead | segWrite | snapshot | describe | cancel =>
    exact requestRow_logic ..
  | setEndpointId | getEndpointId | getMctpVersionSupport | getMessageTypeSupport | getVendorDefinedMessageSupport
  | dictionaryMessage | getVersion | getCapabilities | negotiateAlgorithms | getDigests | getCertificate | challenge
  | getMeasurements | spdmUnsupportedRequest =>
    dsimp only [exec,
      execSetEndpointId, execGetEndpointId, execGetMctpVersionSupport, execGetMessageTypeSupport,
      execGetVendorDefinedMessageSupport, execDictionaryMessage, execGetVersion, execGetCapabilities,
      execNegotiateAlgorithms, execGetDigests, execGetCertificate, execChallenge, execGetMeasurements,
      execSpdmUnsupportedRequest]
    exact messageRow_logic ..
  | pagePromotion =>
    exact pagePromotion_logic ..
  | nullFlit | headFlit | dataFlit | smallFlit | flagFlit | ackFlit | heartbeatFlit | abortFlit =>
    exact .event live_of_rxOk
  | ingressProtocolError | completionRecordSend | cplCredit | mctp | accWindow | unlockHoldEnd | unlockDurationEnd
  | ctrlTraining | ctrlRetryRequest | flitSlot | heartbeatSend | retryRequestResend | hbTimeout | trainingTimeout
  | phyReady | phyLockLoss | memReqCredit | memReadResponse | memWriteResponse | droopTrip | stretchEnd
  | powerLoopEval | blockGated | thermalEval | thermalTrip | thermalTripEnd | marlCapRequest | trimPeriodEnd
  | marginFloorReport | trimCheckEnd | avsAck | avsTimeout | rampAdmissionStep | rampClose | fallingRampStep
  | blockTestDone | mireWatchExpiry | correctedWindow | firmwareVerifyDone | controlCoresStarted | selfTestBatchDone
  | pllLockLoss | preRampExpiry =>
    exact .event (by simp +contextual)
  | marlFrame =>
    exact .event (by simp +contextual)
  | quiescentBoundary =>
    exact .event fun ok => live_of_quiescent (by simp only [Bool.and_eq_true] at ok; exact ok.1)
  | scrub =>
    exact .event (by grind [live_of_regionInService])
  | argBlockReadDone | commandDispatch | workItemPlace | psumReservationGrant | packTimeout | deadlineExpiry
  | arrivalTilePresent | profileSwitchComplete | completionDecided | sessionTimeout | remoteFlagApply
  | acquireTimeout | acquireInvalidationEnd | e2eTimeout | memRequestIssue | memRespTimeout | preRampStep
  | errorReportAccept | blockRecovery | revalidationDone | regionRecovery | apexWarmReset | hintIntervalEnd =>
    dsimp only [exec,
      execArgBlockReadDone, execCommandDispatch, execWorkItemPlace, execPsumReservationGrant, execPackTimeout,
      execDeadlineExpiry, execArrivalTilePresent, execProfileSwitchComplete, execCompletionDecided,
      execSessionTimeout, execRemoteFlagApply, execAcquireTimeout, execAcquireInvalidationEnd, execE2eTimeout,
      execMemRequestIssue, execMemRespTimeout, execPreRampStep, execErrorReportAccept, execBlockRecovery,
      execRevalidationDone, execRegionRecovery, execApexWarmReset, execHintIntervalEnd]
    repeat' split
    all_goals first | exact .idle | exact .event (by simp +contextual)
  | arrayStep | stationaryLoadDone | tileDrain | drainEnd | prologueTile | epilogueTile =>
    dsimp only [exec,
      execArrayStep, execStationaryLoadDone, execTileDrain, execDrainEnd, execPrologueTile, execEpilogueTile]
    repeat' split
    all_goals first | exact .idle | exact .event (by grind [live_of_blockRuns])
  | walkRequest =>
    dsimp only [exec, execWalkRequest]
    repeat' split
    all_goals first | exact .idle | exact .event live_of_regionRuns
  | frameAllocation | pageDropAuto | peatRequestPost | retiredObjectFree | poolShrinkMove =>
    dsimp only [exec,
      execFrameAllocation, execPageDropAuto, execPeatRequestPost, execRetiredObjectFree, execPoolShrinkMove]
    repeat' split
    all_goals first | exact .idle | exact .event (by grind [live_of_allocRuns])
  | appendTokenCommit | promotionCommit =>
    dsimp only [exec, execAppendTokenCommit, execPromotionCommit]
    repeat' split
    all_goals first | exact .idle | exact .event (by grind [live_of_homeRuns])
  | inServiceTest =>
    dsimp only [exec, execInServiceTest]
    repeat' split
    all_goals first | exact .idle | exact .event (by grind [live_of_regionInService])
  | pwrGoodRise | pwrGoodFall | resetNFall | resetNRise | strapSample | pllLock | fuseLoadDone | idcode | bypass
  | extest | pllLockTimeout | staticBootCodeStart | ieee1687InstrumentAccess =>
    cases logic

/-- A boundary row is an event, with a condition of its own. -/
theorem exec_boundary_completes {c : Instr} (boundary : boundaryRow c = true) (s : State) :
    ∃ t, exec c s = .next t ∧ t.pending = s.pending := by
  cases c with
  | pwrGoodRise | pwrGoodFall | resetNFall | resetNRise | strapSample | pllLock | fuseLoadDone | idcode | bypass
  | extest | pllLockTimeout | staticBootCodeStart | ieee1687InstrumentAccess =>
    exact event_next _ _ _
  | _ => cases boundary

/-- Settles O3: a row outside the boundary is no change or an event that the logic must run for; every event keeps the
queue. -/
theorem commandsCompleteOrAreIgnored : Obligations.CommandsCompleteOrAreIgnored := by
  refine ⟨fun c s => ?_, fun c s still logic => (exec_logic logic s).ignored still⟩
  cases row : boundaryRow c with
  | true => exact exec_boundary_completes row s
  | false => exact (exec_logic row s).completes

end Sys2Proof.Machine
end

section
/-! What an operation may touch. `Frame ps s t` says that `t` is `s` but for the parts that `ps` lists, the command ports
and the reliability unit taken part by part. For a given list it is, by definition, an equation
`t = { s with od := t.od, … }`, and every other field of `t` is the field of `s`. -/

namespace Sys2Proof.Machine

-- one proof at a time, for the memory that the check allows
set_option Elab.async false

/-- The parts of the state. -/
inductive StatePart where
  | pending | clocks | boot | mgmt | od | credits | egress | nextUid | cmds | refusals | sent | lastStream | items
  | switching | spoiled | mem | memPoison | sp | spPoison | ports | blocks | regions | flags | localRels | remoteRels
  | paged | links | e2e | acks | nextPkt | arrNo | groups | power | log | count | acked | queues | armed | recov
  | corrected | windowOp | faults | noAuto | fatal | parity | mire | sec | marl | fresh

/-- `p` is one of `ps`. -/
def StatePart.among (p : StatePart) : List StatePart → Bool
  | [] => false
  | q :: r => p.ctorIdx == q.ctorIdx || p.among r

/-- Of an old and a new value of part `p`, the one that stands when the parts `ps` may change. -/
def pick {α : Type} (ps : List StatePart) (p : StatePart) (old new : α) : α := bif p.among ps then new else old

/-- `s` with the parts `ps` of `t`. -/
def patch (ps : List StatePart) (s t : State) : State :=
  { pending := pick ps .pending s.pending t.pending,
      clocks := pick ps .clocks s.clocks t.clocks,
      boot := pick ps .boot s.boot t.boot,
      mgmt := pick ps .mgmt s.mgmt t.mgmt,
      od := pick ps .od s.od t.od,
      mem := pick ps .mem s.mem t.mem,
      memPoison := pick ps .memPoison s.memPoison t.memPoison,
      sp := pick ps .sp s.sp t.sp,
      spPoison := pick ps .spPoison s.spPoison t.spPoison,
      ports := pick ps .ports s.ports t.ports,
      blocks := pick ps .blocks s.blocks t.blocks,
      regions := pick ps .regions s.regions t.regions,
      flags := pick ps .flags s.flags t.flags,
      localRels := pick ps .localRels s.localRels t.localRels,
      remoteRels := pick ps .remoteRels s.remoteRels t.remoteRels,
      paged := pick ps .paged s.paged t.paged,
      links := pick ps .links s.links t.links,
      e2e := pick ps .e2e s.e2e t.e2e,
      acks := pick ps .acks s.acks t.acks,
      nextPkt := pick ps .nextPkt s.nextPkt t.nextPkt,
      arrNo := pick ps .arrNo s.arrNo t.arrNo,
      groups := pick ps .groups s.groups t.groups,
      power := pick ps .power s.power t.power,
      sec := pick ps .sec s.sec t.sec,
      marl := pick ps .marl s.marl t.marl,
      fresh := pick ps .fresh s.fresh t.fresh,
    front := {
      credits := pick ps .credits s.front.credits t.front.credits,
      egress := pick ps .egress s.front.egress t.front.egress,
      nextUid := pick ps .nextUid s.front.nextUid t.front.nextUid,
      cmds := pick ps .cmds s.front.cmds t.front.cmds,
      refusals := pick ps .refusals s.front.refusals t.front.refusals,
      sent := pick ps .sent s.front.sent t.front.sent,
      lastStream := pick ps .lastStream s.front.lastStream t.front.lastStream,
      items := pick ps .items s.front.items t.front.items,
      switching := pick ps .switching s.front.switching t.front.switching,
      spoiled := pick ps .spoiled s.front.spoiled t.front.spoiled },
    rel := {
      log := pick ps .log s.rel.log t.rel.log,
      count := pick ps .count s.rel.count t.rel.count,
      acked := pick ps .acked s.rel.acked t.rel.acked,
      queues := pick ps .queues s.rel.queues t.rel.queues,
      armed := pick ps .armed s.rel.armed t.rel.armed,
      recov := pick ps .recov s.rel.recov t.rel.recov,
      corrected := pick ps .corrected s.rel.corrected t.rel.corrected,
      windowOp := pick ps .windowOp s.rel.windowOp t.rel.windowOp,
      faults := pick ps .faults s.rel.faults t.rel.faults,
      noAuto := pick ps .noAuto s.rel.noAuto t.rel.noAuto,
      fatal := pick ps .fatal s.rel.fatal t.rel.fatal,
      parity := pick ps .parity s.rel.parity t.rel.parity,
      mire := pick ps .mire s.rel.mire t.rel.mire } }

/-- `t` differs from `s` in the parts `ps` at most. -/
def Frame (ps : List StatePart) (s t : State) : Prop := t = patch ps s t

/-- Every part of `ps` is one of `qs`. -/
def StatePart.sub (ps qs : List StatePart) : Bool := ps.all fun p => p.among qs

theorem StatePart.among_of_sub {p : StatePart} {ps qs : List StatePart} (sub : StatePart.sub ps qs = true) (h : p.among ps = true) :
    p.among qs = true := by
  induction ps with
  | nil => cases h
  | cons q r ih =>
    simp only [StatePart.sub, List.all_cons, Bool.and_eq_true] at sub
    simp only [StatePart.among, Bool.or_eq_true, beq_iff_eq] at h
    obtain h | h := h
    · have same : ∀ l, p.among l = q.among l := fun l => by
        induction l with
        | nil => rfl
        | cons _ _ ihl => simp only [StatePart.among, h, ihl]
      rw [same]; exact sub.1
    · exact ih sub.2 h

variable {α : Type} {ps qs us : List StatePart} {s t u : State}

@[simp] theorem pick_pick (p : StatePart) (a b c : α) : pick ps p (pick ps p a b) c = pick ps p a c := by
  unfold pick; cases p.among ps <;> rfl

theorem pick_pick_of_sub {p : StatePart} (sub : StatePart.sub ps qs = true) (a b : α) :
    pick qs p a (pick ps p a b) = pick ps p a b := by
  unfold pick
  cases inP : p.among ps with
  | true => rw [StatePart.among_of_sub sub inP]; rfl
  | false => cases p.among qs <;> rfl

theorem Frame.refl (s : State) : Frame ps s s := by
  have same {β : Type} (p : StatePart) (a : β) : pick ps p a a = a := by unfold pick; cases p.among ps <;> rfl
  simp only [Frame, patch, same]

theorem Frame.mono (h : Frame ps s t) (sub : StatePart.sub ps qs = true := by rfl) : Frame qs s t := by
  have kept : patch qs s (patch ps s t) = patch ps s t := by simp only [patch, pick_pick_of_sub sub]
  have h' : t = patch ps s t := h
  calc t = patch ps s t := h'
    _ = patch qs s (patch ps s t) := kept.symm
    _ = patch qs s t := by rw [← h']

theorem Frame.trans (h : Frame ps s t) (k : Frame ps t u) : Frame ps s u := by
  have h' : t = patch ps s t := h
  calc u = patch ps t u := k
    _ = patch ps (patch ps s t) u := by rw [← h']
    _ = patch ps s u := by simp only [patch, pick_pick]

/-- A further change, within the parts of the whole. -/
theorem Frame.after (k : Frame qs t u) (h : Frame ps s t) (sub : StatePart.sub qs ps = true := by rfl) : Frame ps s u :=
  h.trans (k.mono sub)

theorem Frame.ite {c : Prop} [Decidable c] (h : Frame ps s t) (k : Frame ps s u) : Frame ps s (if c then t else u) := by
  split
  · exact h
  · exact k

theorem Frame.foldl {β : Type} {f : State → β → State} {l : List β} (hf : ∀ t x, Frame ps t (f t x)) (h : Frame ps s t) :
    Frame ps s (l.foldl f t) :=
  foldl_holds (Frame ps s) h fun _ x hx => hx.trans (hf _ x)

/-! ### Shared operations -/

theorem Frame.get {β : Sort _} (h : Frame ps s t) (f : State → β) : f t = f (patch ps s t) := congrArg f h

theorem odPut_frame (i j v : Nat) (s : State) : Frame [.od] s (odPut i j v s) := rfl

theorem odBump_frame (i j n : Nat) (s : State) : Frame [.od] s (odBump i j n s) := rfl

theorem drawn_frame (s : State) : Frame [.fresh] s (drawn s) := rfl

theorem modBlock_frame (b : Nat) (f : Block → Block) (s : State) : Frame [.blocks] s (modBlock b f s) := rfl

theorem modRegion_frame (r : Nat) (f : Region → Region) (s : State) : Frame [.regions] s (modRegion r f s) := rfl

theorem modLink_frame (p : Nat) (f : LinkPort → LinkPort) (s : State) : Frame [.links] s (modLink p f s) := rfl

theorem putGroup_frame (g : Nat) (x : Group) (s : State) : Frame [.groups] s (putGroup g x s) := rfl

theorem putFlag_frame (i : Nat) (x : Flag) (s : State) : Frame [.flags] s (putFlag i x s) := rfl

theorem modCmd_frame (u : Nat) (f : Cmd → Cmd) (s : State) : Frame [.cmds] s (modCmd u f s) := rfl

theorem putCmd_frame (c : Cmd) (s : State) : Frame [.cmds] s (putCmd c s) := rfl

theorem flagCmd_frame (u i : Nat) (s : State) : Frame [.cmds] s (flagCmd u i s) := rfl

theorem apexProgress_frame (s : State) : Frame [.mire] s (apexProgress s) := rfl

theorem blockProgress_frame (b : Nat) (s : State) : Frame [.blocks] s (blockProgress b s) := rfl

theorem regionProgress_frame (r : Nat) (s : State) : Frame [.regions] s (regionProgress r s) := rfl

theorem reportAs_frame (k level dep code unit cell action addr : Nat) (tag : Option Nat) (inj : Bool) (s : State) :
    Frame [.queues, .od] s (reportAs k level dep code unit cell action addr tag inj s) := reportAs_eq ..

theorem report_frame (code unit cell action addr : Nat) (tag : Option Nat) (inj : Bool) (s : State) :
    Frame [.queues, .od] s (report code unit cell action addr tag inj s) := report_eq ..

theorem disarm_frame (code unit : Nat) (s : State) : Frame [.armed, .od] s (disarm code unit s) := rfl

theorem setSt_frame (n : Nat) (s : State) : Frame [.mgmt, .od] s (setSt n s) := by
  unfold setSt; exact .ite (.refl s) rfl

theorem endCmd_frame (uid status detail : Nat) (s : State) :
    Frame [.cmds, .items, .blocks, .regions, .e2e, .localRels] s (endCmd uid status detail s) := endCmd_eq ..

end Sys2Proof.Machine
end

section
/-! What the operations that follow an update of a flag slot may touch: writes of host memory and of landing areas, wake
events, what the links send and the rounds of a group's exchange. Local releases that wait are only ever dropped. -/

namespace Sys2Proof.Machine

-- one proof at a time, for the memory that the check allows
set_option Elab.async false

variable {ps qs : List StatePart} {s t u : State}

/-! ### Host memory and scratchpads -/

/-- What a write of host memory touches that no command waits for. -/
def memParts : List StatePart := [.mem, .memPoison, .ports, .blocks, .regions, .fresh]

/-- What a write of a command touches. -/
def cmdWriteParts : List StatePart := .cmds :: .spoiled :: memParts

theorem present_frame (q : MemReq) (s : State) : Frame [.ports, .blocks] s (present q s) := by
  unfold present
  split
  · exact .ite rfl rfl
  · rfl

/-- What a write leaves before its owner counts it. -/
theorem stored_frame (a : Nat) (bs : List Byte) (bad : Bool) (qs : List MemReq) (s : State) :
    Frame memParts s (qs.foldl (fun s q => present q s) { s with
      mem := memWrite a bs s.mem, memPoison := poisonWrite a bs.length bad s.memPoison,
      regions := dropLines a bs.length s.regions }) :=
  .foldl (fun t q => (present_frame q t).mono) rfl

theorem hostWriteAs_frame (a : Nat) (bs : List Byte) (bad : Bool) (o : MemOwner) (prio : Bool) (s : State) :
    Frame (.cmds :: memParts) s (hostWriteAs a bs bad o prio s) := by
  cases o with
  | cmd uid b => exact .after (modCmd_frame uid _ _) (stored_frame ..).mono
  | _ => exact (stored_frame ..).mono

theorem hostWrite_frame (a : Nat) (bs : List Byte) (bad : Bool) (o : MemOwner) (prio : Bool) (s : State) :
    Frame (.cmds :: memParts) s (hostWrite a bs bad o prio s) :=
  .ite (.after (hostWriteAs_frame ..) (drawn_frame s).mono) (hostWriteAs_frame ..)

/-- The owners that are no command's. -/
def MemOwner.free : MemOwner → Bool
  | .cmd _ _ => false
  | _ => true

theorem hostWriteAs_free_frame {o : MemOwner} (free : o.free = true) (a : Nat) (bs : List Byte) (bad prio : Bool) (s : State) :
    Frame memParts s (hostWriteAs a bs bad o prio s) := by
  cases o with
  | cmd => cases free
  | _ => exact stored_frame ..

/-- A write that no command makes leaves the commands alone. -/
theorem hostWrite_free_frame {o : MemOwner} (free : o.free = true) (a : Nat) (bs : List Byte) (bad prio : Bool) (s : State) :
    Frame memParts s (hostWrite a bs bad o prio s) :=
  .ite (.after (hostWriteAs_free_frame free ..) (drawn_frame s).mono) (hostWriteAs_free_frame free ..)

theorem noteTables_frame (a n : Nat) (s : State) : Frame [.spoiled] s (noteTables a n s) := .ite (.refl s) rfl

theorem countPoison_frame (uid : Nat) (ks : List Nat) (s : State) : Frame [.cmds] s (countPoison uid ks s) :=
  .ite (.refl s) rfl

theorem writeBad_frame (uid blk a : Nat) (bs : List Byte) (bad : Nat → Nat → Bool) (prio : Bool) (s : State) :
    Frame cmdWriteParts s (writeBad uid blk a bs bad prio s) :=
  .foldl (fun _ _ => (hostWrite_frame ..).mono) (.after (hostWrite_frame ..) (noteTables_frame ..).mono)

theorem writeMarked_frame (uid blk a : Nat) (bs : List Byte) (bad : Nat → Nat → Bool) (prio : Bool) (s : State) :
    Frame cmdWriteParts s (writeMarked uid blk a bs bad prio s) := .after (countPoison_frame ..) (writeBad_frame ..)

theorem spWrite_frame (b a : Nat) (bs : List Byte) (bad : Bool) (s : State) :
    Frame [.sp, .spPoison, .fresh] s (spWrite b a bs bad s) := by
  cases bad <;> rfl

theorem spoil_frame (b : Option Nat) (a n : Nat) (s : State) : Frame [.mem, .regions, .sp, .fresh] s (spoil b a n s) := by
  cases b <;> rfl

/-! ### Trace and wake events -/

def traceParts : List StatePart := .od :: memParts

def wakeParts : List StatePart := .power :: traceParts

theorem trace_frame (kind cls unit payload : Nat) (s : State) : Frame traceParts s (trace kind cls unit payload s) :=
  .ite (.after (odBump_frame ..) (hostWrite_free_frame (o := .engine) rfl ..).mono) (.refl s)

theorem wake_frame (always : Bool) (s : State) : Frame wakeParts s (wake always s) :=
  .ite (.after (trace_frame ..) (.foldl (fun _ _ => .ite (.refl _) rfl) rfl)) (.refl s)

theorem invalidateCaches_frame (s : State) : Frame [.regions] s (invalidateCaches s) := rfl

theorem meetAcquire_frame (uid fc : Nat) (s : State) : Frame (.cmds :: wakeParts) s (meetAcquire uid fc s) := by
  unfold meetAcquire
  split
  · exact .refl s
  · have met : ∀ (mis : Bool) (f : Cmd → Cmd), Frame (.cmds :: wakeParts) s
        (modCmd uid f (if mis then odBump 0x2400 3 1 (flagCmd uid 6 s) else s)) :=
      fun _ _ => .after (modCmd_frame ..) (.ite rfl (.refl s))
    exact .after (wake_frame ..) (.ite (.after (invalidateCaches_frame _) (met ..)) (met ..))

theorem evalAcquire_frame (fc : Nat) (s : State) (c : Cmd) : Frame (.cmds :: wakeParts) s (evalAcquire fc s c) :=
  .ite (meetAcquire_frame ..) (.refl s)

/-! ### Arrival tiles -/

/-- What the landing of a tile and the end of its packet touch. -/
def landParts : List StatePart := [.links, .blocks, .mem, .regions, .sp, .spPoison, .fresh]

theorem abortArrival_frame (p k : Nat) (s : State) : Frame landParts s (abortArrival p k s) := by
  unfold abortArrival
  split
  · exact .refl s
  · exact .ite (.after (spoil_frame ..) (.after (modBlock_frame ..) (modLink_frame ..).mono)) (modLink_frame ..).mono

theorem landTile_frame (x : RxPacket) (bs : List Byte) (s : State) : Frame landParts s (landTile x bs s) := by
  unfold landTile
  exact .after (modBlock_frame ..) (spWrite_frame ..).mono

theorem landFlit_frame {p : Nat} {x : TxFlit} {s t : State} (h : landFlit p x s = some t) : Frame landParts s t := by
  unfold landFlit at h
  dsimp only at h
  split at h
  · split at h
    · cases h
    · cases h
      exact .after (modLink_frame ..) (.ite (.refl s) (.after (landTile_frame ..) (modBlock_frame ..).mono))
  · split at h
    · cases h
      exact .refl s
    · split at h
      · cases h
        exact abortArrival_frame ..
      · cases h
        exact .after (modLink_frame ..) (.ite (.refl s) (landTile_frame ..))

theorem drainHold_frame (p : Nat) (s : State) : Frame landParts s (drainHold p s) := by
  unfold drainHold
  refine .after (modLink_frame ..) ?_
  refine foldl_holds (fun a : State × List TxFlit × List Nat => Frame landParts s a.1) (.refl s) fun a x ha => ?_
  dsimp only
  split
  · exact ha
  · split
    · next t landed =>
      have ht : Frame landParts s t := ha.trans (landFlit_frame landed)
      exact .ite (.after (modLink_frame ..) ht) ht
    · exact ha

/-! ### Parts that change while waiting local releases are only dropped -/

/-- `Frame`, where a local release that waits afterwards waited before. -/
structure Drops (ps : List StatePart) (s t : State) : Prop where
  frame : Frame ps s t
  rels : ∀ r ∈ t.localRels, r ∈ s.localRels

theorem Drops.refl (s : State) : Drops ps s s := ⟨.refl s, fun _ h => h⟩

theorem Drops.trans (h : Drops ps s t) (k : Drops ps t u) : Drops ps s u :=
  ⟨h.frame.trans k.frame, fun r hr => h.rels r (k.rels r hr)⟩

theorem Drops.after (k : Drops qs t u) (h : Drops ps s t) (sub : StatePart.sub qs ps = true := by rfl) : Drops ps s u :=
  h.trans ⟨k.frame.mono sub, k.rels⟩

/-- A change that leaves the waiting local releases alone. -/
theorem Drops.afterFrame (k : Frame qs t u) (h : Drops ps s t) (sub : StatePart.sub qs ps = true := by rfl)
    (kept : StatePart.among .localRels qs = false := by rfl) : Drops ps s u := by
  have same : u.localRels = t.localRels := by
    have picked : u.localRels = pick qs .localRels t.localRels u.localRels := k.get State.localRels
    rwa [pick, kept] at picked
  exact h.trans ⟨k.mono sub, fun _ hr => same ▸ hr⟩

theorem Drops.ite {c : Prop} [Decidable c] (h : Drops ps s t) (k : Drops ps s u) : Drops ps s (if c then t else u) := by
  split
  · exact h
  · exact k

theorem Drops.foldl {β : Type} {f : State → β → State} {l : List β} (hf : ∀ t x, Drops ps t (f t x)) (h : Drops ps s t) :
    Drops ps s (l.foldl f t) :=
  foldl_holds (Drops ps s) h fun _ x hx => hx.trans (hf _ x)

/-- What an early end touches. -/
def endParts : List StatePart := [.cmds, .items, .blocks, .regions, .e2e, .localRels]

theorem endCmd_drops (uid status detail : Nat) (s : State) : Drops endParts s (endCmd uid status detail s) := by
  refine ⟨endCmd_frame .., fun r hr => ?_⟩
  unfold endCmd at hr
  split at hr
  · exact hr
  · dsimp only at hr
    split at hr
    · exact hr
    · rw [releaseArrivals_eq] at hr
      exact (List.mem_filter.1 hr).1

/-! ### What this node sends -/

def sendParts : List StatePart := .links :: .nextPkt :: endParts

theorem awaitAck_frame (uid port : Nat) (s : State) : Frame [.nextPkt, .e2e, .cmds] s (awaitAck uid port s) := .ite rfl rfl

theorem sendLocal_drops (uid dst : Nat) (mk : Nat → Nat → List TxFlit) (s : State) :
    Drops sendParts s (sendLocal uid dst mk s) := by
  unfold sendLocal
  split
  · exact .refl s
  · exact .ite (.after (endCmd_drops ..) (.refl s)) (.afterFrame (awaitAck_frame ..) (.afterFrame (modLink_frame ..) (.refl s)))

theorem sendSmall_drops (uid tag dst addr : Nat) (bs : List Byte) (bad : Bool) (s : State) :
    Drops sendParts s (sendSmall uid tag dst addr bs bad s) := by
  unfold sendSmall; exact sendLocal_drops ..

theorem sendRelease_drops (uid tag dst slot scope : Nat) (add : Bool) (val : Nat) (s : State) :
    Drops sendParts s (sendRelease uid tag dst slot scope add val s) := by
  unfold sendRelease; exact sendLocal_drops ..

theorem sendPacket_drops (uid tag kind dst addr : Nat) (bs : List Byte) (bad : Bool) (s : State) :
    Drops sendParts s (sendPacket uid tag kind dst addr bs bad s) := sendLocal_drops ..

theorem sendBytes_drops (uid tag dst addr : Nat) (bs : List Byte) (bad : Nat → Nat → Bool) (s : State) :
    Drops sendParts s (sendBytes uid tag dst addr bs bad s) := .foldl (fun _ _ => sendPacket_drops ..) (.refl s)

/-! ### The exchange of a group -/

/-- What an exchange touches: what it sends, writes, lands and wakes, and its group. -/
def exchangeParts : List StatePart :=
  [.od, .cmds, .items, .spoiled, .mem, .memPoison, .sp, .spPoison, .ports, .blocks, .regions, .localRels, .links, .e2e, .nextPkt,
   .groups, .power, .fresh]

theorem failGroup_drops (g : Nat) (s : State) : Drops (.groups :: endParts) s (failGroup g s) :=
  .foldl (fun t _ => .ite (.after (endCmd_drops ..) (.refl t)) (.refl t)) (.ite (.afterFrame (putGroup_frame ..) (.refl s)) (.refl s))

theorem sendRows_drops (c : Cmd) (g : Group) (j src srcRow base dstRow rows : Nat) (s : State) :
    Drops exchangeParts s (sendRows c g j src srcRow base dstRow rows s) :=
  .foldl (fun t _ => .ite (.afterFrame (writeMarked_frame ..) (.refl t))
    (.after (sendBytes_drops ..) (.afterFrame (countPoison_frame ..) (.refl t)))) (.afterFrame (drawn_frame s) (.refl s))

theorem sendArrival_drops (c : Cmd) (g : Group) (j srcRow dst rows : Nat) (s : State) :
    Drops exchangeParts s (sendArrival c g j srcRow dst rows s) := by
  have counted : ∀ (b : Bool) (ks : List Nat), Drops exchangeParts s (if b then countPoison c.uid ks (drawn s) else drawn s) :=
    fun _ _ => .ite (.afterFrame (countPoison_frame ..) (.afterFrame (drawn_frame s) (.refl s))) (.afterFrame (drawn_frame s) (.refl s))
  exact .ite (.afterFrame (drainHold_frame ..) (.afterFrame (modLink_frame ..) (counted ..))) (.after (sendPacket_drops ..) (counted ..))

theorem sendData_drops (c : Cmd) (s : State) : Drops exchangeParts s (sendData c s) := by
  unfold sendData
  split
  · exact .refl s
  · refine .foldl (fun t p => ?_) (.afterFrame (modCmd_frame ..) (.refl s))
    exact .ite (.afterFrame (modCmd_frame ..) (sendRows_drops ..)) (sendRows_drops ..)

theorem startRound_drops (c : Cmd) (second : Bool) (word : Option (Nat × (Nat → Nat))) (s : State) :
    Drops exchangeParts s (startRound c second word s) := by
  unfold startRound
  refine .foldl (fun t j => .after (sendRelease_drops ..) ?_) (.afterFrame (putGroup_frame ..) (.refl s))
  cases word with
  | none => exact .refl t
  | some => exact .after (sendSmall_drops ..) (.refl t)

theorem roundOver_drops (c : Cmd) (second counts : Bool) (s : State) : Drops exchangeParts s (roundOver c second counts s) := by
  unfold roundOver
  exact .afterFrame (wake_frame ..) (.afterFrame (putGroup_frame ..) (.refl s))

theorem writeCounts_drops (c : Cmd) (s : State) : Drops exchangeParts s (writeCounts c s) := by
  unfold writeCounts
  split
  · exact .ite (.afterFrame (hostWrite_frame ..) (.refl s)) (.refl s)
  · exact .refl s

theorem secondRound_drops (c : Cmd) (s : State) : Drops exchangeParts s (secondRound c s) := by
  unfold secondRound
  refine .after (startRound_drops ..) ?_
  dsimp only
  split
  · exact .after (writeCounts_drops ..) (.afterFrame (modCmd_frame ..) (.refl s))
  · exact .afterFrame (modCmd_frame ..) (.refl s)

theorem stagePhase_drops (c : Cmd) (s : State) : Drops exchangeParts s (stagePhase c s) := by
  unfold stagePhase
  dsimp only
  refine .ite ?noted (.after (startRound_drops ..) (.afterFrame (hostWrite_frame ..) ?noted))
  refine .afterFrame (modCmd_frame ..) (.foldl (fun t _ => .ite (sendArrival_drops ..) (.refl t)) ?_)
  refine foldl_holds (fun a : State × Nat => Drops exchangeParts s a.1) (.refl s) fun a m staged => ?_
  exact .afterFrame (writeBad_frame ..) (.afterFrame (drawn_frame a.1) staged)

theorem examineRound_drops (g : Nat) (s : State) : Drops exchangeParts s (examineRound g s) := by
  unfold examineRound
  split
  · exact .refl s
  · next c _ =>
    split
    · exact .refl s
    · refine .ite (.refl s) (.ite (.ite ?first (.refl s)) (.ite ?second (.refl s)))
      case first =>
        exact .ite (.after (secondRound_drops ..) (roundOver_drops ..))
          (.ite (.after (stagePhase_drops ..) (roundOver_drops ..)) (.after (sendData_drops ..) (roundOver_drops ..)))
      case second =>
        have ended : ∀ f, Drops exchangeParts s (if collKind c.desc = 4 then modCmd c.uid f (roundOver c true (collKind c.desc = 2) s)
            else roundOver c true (collKind c.desc = 2) s) :=
          fun _ => .ite (.afterFrame (modCmd_frame ..) (roundOver_drops ..)) (roundOver_drops ..)
        dsimp only
        split
        · split
          · exact .ite (.after (failGroup_drops ..) (ended _)) (.after (sendData_drops ..) (ended _))
          · exact ended _
        · exact ended _

theorem examine_drops (g : Nat) (s : State) : Drops exchangeParts s (examine g s) :=
  (examineRound_drops ..).trans (examineRound_drops ..)

/-! ### Updates of a slot -/

/-- What follows an update of a slot touches: reports, the mirror, acquires and exchanges. -/
def updateParts : List StatePart := .queues :: .armed :: exchangeParts

theorem afterUpdate_drops (i : Nat) (s : State) : Drops updateParts s (afterUpdate i s) := by
  unfold afterUpdate
  refine .foldl (fun t _ => .ite (.after (examine_drops ..) (.refl t)) (.refl t)) ?_
  refine .foldl (fun t _ => .ite (.afterFrame (evalAcquire_frame ..) (.refl t)) (.refl t)) ?_
  have reported : Drops updateParts s (if (fires 0x21 0 s).isSome then report 0x21 0 i 0 0 none true (disarm 0x21 0 s) else s) :=
    .ite (.afterFrame (report_frame ..) (.afterFrame (disarm_frame ..) (.refl s))) (.refl s)
  exact .ite reported (.afterFrame (hostWrite_frame ..) reported)

theorem applyRelease_drops (i : Nat) (add : Bool) (val scope src : Nat) (remote : Bool) (fc : Nat) (s : State) :
    Drops (.flags :: updateParts) s (applyRelease i add val scope src remote fc s) := by
  unfold applyRelease
  refine .after (afterUpdate_drops ..) (.ite (.afterFrame (putFlag_frame ..) (.refl s)) ?_)
  exact .foldl (fun t _ => .ite (.after (failGroup_drops ..) (.refl t)) (.refl t)) (.afterFrame (putFlag_frame ..) (.refl s))

theorem resetFlag_drops (i : Nat) (s : State) : Drops (.flags :: updateParts) s (resetFlag i s) :=
  .after (afterUpdate_drops ..) (.afterFrame (putFlag_frame ..) (.refl s))

end Sys2Proof.Machine
end

section
/-! The statement on a slot of time without a command (chapter 01). -/

namespace Sys2Proof.Machine

-- one proof at a time, for the memory that the check allows
set_option Elab.async false

/-! ### Tables filled number by number -/

theorem tget_foldl_tput {α : Type} (d : α) (f : Nat → α) (l : List Nat) (t : List (Nat × α)) (n : Nat) :
    tget d (l.foldl (fun t b => tput b (f b) t) t) n = if n ∈ l then f n else tget d t n := by
  induction l generalizing t with
  | nil => simp
  | cons b r ih =>
    rw [List.foldl_cons, ih, tget_tput]
    by_cases later : n ∈ r
    · simp [later]
    · by_cases here : n = b <;> simp [later, here]

/-! ### Idle AC -/

theorem idleCause_bounds (s : State) (b : Nat) : 1 ≤ idleCause s b ∧ idleCause s b ≤ 12 := by
  unfold idleCause
  dsimp only
  repeat' split
  all_goals decide

/-! ### The parts of a slot -/

/-- A slot once its AC and its clocks have been counted, before any local release is applied. -/
def slotCounted (s : State) : State :=
  let lengthened := (((countingBlocks s).filter fun b => (blockAt s b).stretching).map fun b => blockAcs s (blockAt s b)).sum
  let fill := if fillerAcs s = 0 then 0 else Config.freeNat s.fresh % (fillerAcs s + 1)
  let t := odBump 0x5010 4 fill (odBump 0x5100 7 lengthened s)
  drawn { t with
    blocks := (countingBlocks s).foldl (fun t b => tput b (idleBlock s b) t) s.blocks
    clocks := { slot := s.clocks.slot + 1, fc := s.clocks.fc + pulses (16 - apexStep t) s.clocks.slot
                opSlot := s.clocks.opSlot + (if s.mgmt.st = 2 ∨ s.mgmt.st = 3 then 1 else 0) } }

theorem tick_live {s : State} (runs : live s = true) : tick s = applyLocal (slotCounted s) := by
  have notStill : ¬ (!live s) = true := by simp [runs]
  exact if_neg notStill

theorem tick_still {s : State} (still : live s = false) :
    tick s = { s with clocks := { s.clocks with slot := s.clocks.slot + 1 } } := by
  have stands : (!live s) = true := by simp [still]
  exact if_pos stands

/-- The counters that a slot raises say nothing of the apex step. -/
theorem apexStep_odBump {i j : Nat} (n : Nat) (s : State) (other : odKey 0x5200 3 ≠ odKey i j) :
    apexStep (odBump i j n s) = apexStep s := by
  unfold apexStep
  rw [odv_odBump_other s other]
  rfl

theorem slotCounted_clocks (s : State) : (slotCounted s).clocks =
    { slot := s.clocks.slot + 1, fc := s.clocks.fc + pulses (16 - apexStep s) s.clocks.slot
      opSlot := s.clocks.opSlot + (if s.mgmt.st = 2 ∨ s.mgmt.st = 3 then 1 else 0) } := by
  unfold slotCounted
  simp only [drawn_clocks]
  rw [apexStep_odBump _ _ (by decide), apexStep_odBump _ _ (by decide)]

theorem slotCounted_frame (s : State) : Frame [.blocks, .clocks, .od, .fresh] s (slotCounted s) := rfl

theorem blockAt_slotCounted (s : State) (b : Nat) :
    blockAt (slotCounted s) b = if b ∈ countingBlocks s then idleBlock s b else blockAt s b := tget_foldl_tput ..

theorem applyLocal_drops (s : State) :
    Drops (.flags :: updateParts) { s with localRels := s.localRels.filter fun r => !(r.fc < s.clocks.fc) } (applyLocal s) :=
  .foldl (fun _ _ => applyRelease_drops ..) (.refl _)

theorem applyLocal_of_nil {s : State} (none : s.localRels = []) : applyLocal s = s := by
  unfold applyLocal
  rw [none]
  show { s with localRels := [] } = s
  rw [← none]

theorem mireTick_frame (s : State) : Frame [.blocks, .regions, .mire] s (mireTick s) := .ite (.refl s) rfl

/-- A Mire watch counts beside the AC of a block. -/
theorem mireTick_acs (s : State) (b : Nat) :
    (blockAt (mireTick s) b).idleAc = (blockAt s b).idleAc ∧ (blockAt (mireTick s) b).busyAc = (blockAt s b).busyAc := by
  unfold mireTick
  split
  · exact ⟨rfl, rfl⟩
  · refine foldl_holds (fun t : List (Nat × Block) => (tget block0 t b).idleAc = (blockAt s b).idleAc
      ∧ (tget block0 t b).busyAc = (blockAt s b).busyAc) ⟨rfl, rfl⟩ fun t n ht => ?_
    have same (m : Nat) : (tget block0 (tput n { tget block0 t n with mire := m } t) b).idleAc = (blockAt s b).idleAc
        ∧ (tget block0 (tput n { tget block0 t n with mire := m } t) b).busyAc = (blockAt s b).busyAc := by
      rw [tget_tput]
      split
      · next here => subst here; exact ht
      · exact ht
    dsimp only
    split
    · exact same _
    · split
      · exact same _
      · exact ht

/-! ### The whole slot -/

theorem idleSlot_clocks (s : State) : (idleSlot s).clocks =
    { slot := s.clocks.slot + 1
      fc := s.clocks.fc + (if live s then pulses (16 - apexStep s) s.clocks.slot else 0)
      opSlot := s.clocks.opSlot + (if live s = true ∧ (s.mgmt.st = 2 ∨ s.mgmt.st = 3) then 1 else 0) } := by
  have watched : (idleSlot s).clocks = (tick s).clocks := (mireTick_frame (tick s)).get State.clocks
  rw [watched]
  cases runs : live s with
  | false => rw [tick_still runs]; simp
  | true =>
    rw [tick_live runs]
    have applied : (applyLocal (slotCounted s)).clocks = (slotCounted s).clocks := (applyLocal_drops _).frame.get State.clocks
    rw [applied, slotCounted_clocks]
    simp

/-- What waits after the slot waited before it and is not older than the new FC. -/
theorem idleSlot_localRels {s : State} (runs : live s = true) :
    ∀ r ∈ (idleSlot s).localRels, r ∈ s.localRels ∧ ¬ r.fc < (idleSlot s).clocks.fc := by
  have watched : (idleSlot s).localRels = (tick s).localRels := (mireTick_frame (tick s)).get State.localRels
  have counted : (slotCounted s).localRels = s.localRels := rfl
  have clock : (idleSlot s).clocks = (slotCounted s).clocks := by rw [idleSlot_clocks, slotCounted_clocks]; simp [runs]
  rw [watched, tick_live runs, clock]
  intro r hr
  have kept := (applyLocal_drops _).rels r hr
  rw [counted, List.mem_filter] at kept
  simpa using kept

theorem tick_of_nil {s : State} (runs : live s = true) (none : s.localRels = []) : tick s = slotCounted s := by
  rw [tick_live runs, applyLocal_of_nil (show (slotCounted s).localRels = [] from none)]

theorem idleSlot_frame {s : State} (quiet : live s = false ∨ s.localRels = []) :
    Frame [.clocks, .blocks, .regions, .od, .fresh, .mire] s (idleSlot s) := by
  refine .after (mireTick_frame _) ?_
  cases runs : live s with
  | false => rw [tick_still runs]; rfl
  | true =>
    rw [tick_of_nil runs (quiet.resolve_left (by simp [runs]))]
    exact (slotCounted_frame s).mono

theorem idleSlot_acs {s : State} (runs : live s = true) (none : s.localRels = []) (b : Nat) :
    (blockAt (idleSlot s) b).idleAc = (if b ∈ countingBlocks s then idleBlock s b else blockAt s b).idleAc
    ∧ (blockAt (idleSlot s) b).busyAc = (blockAt s b).busyAc := by
  obtain ⟨idle, busy⟩ := mireTick_acs (tick s) b
  rw [tick_of_nil runs none, blockAt_slotCounted] at idle busy
  refine ⟨by rw [idleSlot, tick_of_nil runs none]; exact idle, ?_⟩
  rw [idleSlot, tick_of_nil runs none, busy]
  split <;> rfl

/-- Settles O2: the release of a slot comes after its counting and changes no clock, and the Mire watches come last. -/
theorem idleStepRules : Obligations.IdleStepRules := by
  have stepped {s : State} (empty : s.pending = []) : step s = .next (idleSlot s) := by unfold step; rw [empty]
  refine ⟨fun s empty => ⟨_, stepped empty, ?_, ?_, ?_, idleSlot_localRels, idleSlot_frame⟩,
    fun s empty runs none => ⟨_, stepped empty, fun b hb => ?_, fun b hb => ?_, fun b => (idleSlot_acs runs none b).2⟩⟩
  · rw [idleSlot_clocks]
  · rw [idleSlot_clocks]
  · rw [idleSlot_clocks]
  · obtain ⟨low, high⟩ := idleCause_bounds s b
    refine ⟨low, high, ?_⟩
    rw [(idleSlot_acs runs none b).1, if_pos hb]
    rfl
  · rw [(idleSlot_acs runs none b).1, if_neg hb]

end Sys2Proof.Machine
end

section
/-! The statements on the power loop, the thermal loop and the Marl frame (chapters 14 and 16). -/

namespace Sys2Proof.Machine

-- one proof at a time, for the memory that the check allows
set_option Elab.async false

theorem ite_holds {α : Type} {c : Prop} [Decidable c] {a b : α} (P : α → Prop) (ha : P a) (hb : P b) : P (if c then a else b) := by
  split
  · exact ha
  · exact hb

/-! ### What follows a change of step (R407, R408, R416) -/

/-- The power manager's records of two states differ in the ramp governor's part at most. -/
def RampOnly (s t : State) : Prop :=
  t.power = { s.power with rampOpen := t.power.rampOpen, rampMc := t.power.rampMc, rampStep := t.power.rampStep
                           rampLevel := t.power.rampLevel }

theorem RampOnly.of_eq {s t : State} (h : t.power = s.power) : RampOnly s t := by unfold RampOnly; rw [h]

theorem RampOnly.trans {s t u : State} (h : RampOnly s t) (k : RampOnly t u) : RampOnly s u := by
  unfold RampOnly at *
  rw [k, h]

theorem trace_power (kind cls unit payload : Nat) (s : State) : (trace kind cls unit payload s).power = s.power :=
  (trace_frame kind cls unit payload s).get State.power

theorem wake_ramp (always : Bool) (s : State) : RampOnly s (wake always s) := by
  refine ite_holds (RampOnly s) ?_ (.of_eq rfl)
  refine .trans (.trans (t := odBump 0x5020 4 1 { s with power := { s.power with
    rampOpen := true, rampMc := mcNow s, rampStep := 0, rampLevel := s.power.filler } }) rfl (.of_eq ?_)) (.of_eq (trace_power ..))
  exact foldl_holds (fun u : State => u.power = _) rfl fun u b hu => ite_holds (fun v : State => v.power = _) hu hu

theorem ungate_frame (s : State) : Frame [.blocks] s (ungate s) := rfl

theorem afterStep_frame (old : Nat) (s : State) : Frame wakeParts s (afterStep old s) := by
  have told : ∀ n : Nat, Frame wakeParts s (trace 5 0 0 n (if old = 0 then odBump 0x5200 2 1 s else s)) :=
    fun _ => .after (trace_frame ..) (.ite (odBump_frame ..).mono (.refl s))
  exact .ite (.refl s) (.ite (.after (wake_frame ..) (.after (ungate_frame _) (told _))) (told _))

theorem afterStep_ramp (old : Nat) (s : State) : RampOnly s (afterStep old s) := by
  have told : ∀ n : Nat, RampOnly s (trace 5 0 0 n (if old = 0 then odBump 0x5200 2 1 s else s)) := fun n =>
    .of_eq ((trace_power ..).trans (ite_holds (fun u : State => u.power = s.power) rfl rfl))
  refine ite_holds (RampOnly s) (.of_eq rfl) (ite_holds (RampOnly s) (.trans (.trans (told _) (.of_eq rfl)) (wake_ramp ..)) (told _))

/-- The step in force and every field that the loops rule stand through what follows a change of step. -/
theorem RampOnly.fields {s t : State} (h : RampOnly s t) :
    t.power.cap = s.power.cap ∧ t.power.therm = s.power.therm ∧ t.power.filler = s.power.filler ∧ t.power.calmRef = s.power.calmRef
      ∧ t.power.vid = s.power.vid ∧ t.power.trim = s.power.trim ∧ t.power.tempMax = s.power.tempMax ∧ t.power.trip = s.power.trip := by
  unfold RampOnly at h
  rw [h]
  exact ⟨rfl, rfl, rfl, rfl, rfl, rfl, rfl, rfl⟩

/-! ### The power loop (R410) -/

theorem powerLoop_frame (est amps : Nat) (s : State) : Frame [.power] s (powerLoop est amps s) :=
  .ite rfl (.ite rfl (.ite rfl (.ite rfl (.ite rfl rfl))))

/-- The loop's own fields after an evaluation, rule by rule. -/
theorem powerLoop_rules (est amps : Nat) (s : State) :
    let cap := capInForce s
    let calm := est * 100 ≤ 95 * cap ∧ refNow s ≥ s.power.calmRef + 10000
    let p := (powerLoop est amps s).power
    (est * 100 > 125 * cap → p.filler = 0 ∧ p.cap = min 15 (s.power.cap + 4))
    ∧ (est * 100 ≤ 125 * cap → est > cap → s.power.filler > 0 → p.filler = s.power.filler - 10 ∧ p.cap = s.power.cap)
    ∧ (est * 100 ≤ 125 * cap → est > cap → s.power.filler = 0 → p.filler = 0 ∧ p.cap = min 15 (s.power.cap + 1))
    ∧ (est ≤ cap → calm → s.power.cap > 0 → p.cap = s.power.cap - 1 ∧ p.filler = s.power.filler ∧ p.calmRef = refNow s)
    ∧ (est ≤ cap → calm → s.power.cap = 0 → p.cap = 0
        ∧ p.filler = max s.power.filler (min (s.power.filler + 10) (odv s 0x5010 1)))
    ∧ (est ≤ cap → ¬ calm → p.cap = s.power.cap ∧ p.filler = s.power.filler) := by
  dsimp only
  have past (near : est * 100 ≤ 125 * capInForce s) : ¬ est * 100 > 125 * capInForce s := by omega
  have below (under : est ≤ capInForce s) : est * 100 ≤ 125 * capInForce s ∧ ¬ est > capInForce s := by omega
  refine ⟨fun far => ?_, fun near beyond fill => ?_, fun near beyond none => ?_, fun under quiet step => ?_,
    fun under quiet none => ?_, fun under busy => ?_⟩
  · simp only [powerLoop, if_pos far, and_self]
  · simp only [powerLoop, if_neg (past near), if_pos (And.intro beyond fill), and_self]
  · simp only [powerLoop, if_neg (past near), none, Nat.lt_irrefl, and_false, if_false, if_pos beyond, and_self]
  all_goals obtain ⟨near, notBeyond⟩ := below under
  · have low : ¬ est * 100 > 95 * capInForce s := by omega
    simp [powerLoop, past near, notBeyond, step, low, quiet.2]
  · have low : ¬ est * 100 > 95 * capInForce s := by omega
    simp [powerLoop, past near, notBeyond, none, low, quiet.2]
  · by_cases high : est * 100 > 95 * capInForce s
    · simp [powerLoop, past near, notBeyond, high]
    · have recent : ¬ refNow s ≥ s.power.calmRef + 10000 := fun due => busy ⟨by omega, due⟩
      simp [powerLoop, past near, notBeyond, high, recent]

/-- No rule of the loop touches the thermal step or the voltage. -/
theorem powerLoop_others (est amps : Nat) (s : State) : (powerLoop est amps s).power.therm = s.power.therm
    ∧ (powerLoop est amps s).power.vid = s.power.vid ∧ (powerLoop est amps s).power.trim = s.power.trim := by
  unfold powerLoop
  dsimp only
  repeat' split
  all_goals exact ⟨rfl, rfl, rfl⟩

/-- Settles O10: what follows a change of step leaves the loop's own fields, so that each rule reads off its branch. -/
theorem powerLoopRules : Obligations.PowerLoopRules := by
  intro est amps s runs
  refine ⟨_, event_of runs, ?_⟩
  obtain ⟨cap, therm, filler, calm, vid, trim, _⟩ := (afterStep_ramp (stepInForce s) (powerLoop est amps s)).fields
  have frame : Frame wakeParts s (afterStep (stepInForce s) (powerLoop est amps s)) :=
    .after (afterStep_frame ..) (powerLoop_frame ..).mono
  obtain ⟨therm', vid', trim'⟩ := powerLoop_others est amps s
  dsimp only
  rw [cap, therm, filler, calm, vid, trim]
  exact ⟨powerLoop_rules est amps s, therm', vid', trim', frame.get State.front, frame.get State.links, frame.get State.flags,
    frame.get State.sp, frame.get State.paged, frame.get State.mgmt⟩

/-! ### The thermal loop (R411, R412) -/

theorem thermalStep_frame (temp : Int) (s : State) : Frame [.power] s (thermalStep temp s) := .ite rfl (.ite rfl rfl)

/-- The thermal step after an evaluation, and what no evaluation touches. -/
theorem thermalStep_rules (temp : Int) (s : State) :
    let lim : Int := odv s 0x5200 4 * 8
    let p := (thermalStep temp s).power
    p.tempMax = temp ∧ p.cap = s.power.cap
    ∧ (temp ≥ lim → p.therm = min 15 (s.power.therm + 1))
    ∧ (temp < lim → (temp > lim - 24 ∨ s.power.therm = 0 ∨ refNow s < max s.power.coolRef s.power.thermRef + 100000) →
        p.therm = s.power.therm)
    ∧ (temp ≤ lim - 24 → s.power.therm > 0 → refNow s ≥ max s.power.coolRef s.power.thermRef + 100000 →
        p.therm = s.power.therm - 1) := by
  dsimp only
  refine ⟨?_, ?_, fun hot => ?_, fun cool stays => ?_, fun cold some late => ?_⟩
  · exact ite_holds (fun u : State => u.power.tempMax = temp) rfl (ite_holds (fun u : State => u.power.tempMax = temp) rfl rfl)
  · exact ite_holds (fun u : State => u.power.cap = s.power.cap) rfl (ite_holds (fun u : State => u.power.cap = s.power.cap) rfl rfl)
  · simp [thermalStep, hot]
  · have notHot : ¬ temp ≥ (odv s 0x5200 4 : Int) * 8 := by omega
    unfold thermalStep
    dsimp only
    rw [if_neg notHot, if_neg]
    rintro ⟨some, cold, late⟩
    rw [if_neg (by omega)] at late
    omega
  · have notHot : ¬ temp ≥ (odv s 0x5200 4 : Int) * 8 := by omega
    have notWarm : ¬ temp > (odv s 0x5200 4 : Int) * 8 - 24 := by omega
    unfold thermalStep
    dsimp only
    rw [if_neg notHot, if_neg notWarm, if_pos ⟨some, cold, late⟩]

theorem blockAt_foldl_modBlock {f : Block → Block} (idem : ∀ x, f (f x) = f x) (l : List Nat) (s : State) (n : Nat) :
    blockAt (l.foldl (fun s b => modBlock b f s) s) n = if n ∈ l then f (blockAt s n) else blockAt s n := by
  induction l generalizing s with
  | nil => simp
  | cons b r ih =>
    rw [List.foldl_cons, ih, blockAt_modBlock]
    by_cases later : n ∈ r
    · by_cases here : n = b
      · subst here; simp [later, idem]
      · simp [later, here]
    · by_cases here : n = b
      · subst here; simp [later]
      · simp [later, here]

/-- A trip before its report. -/
def tripGated (temp : Int) (s : State) : State :=
  (presentBlocks s).foldl (fun s b => modBlock b (fun x => { x with gated := true }) s)
    { s with power := { s.power with trip := true, tempMax := temp } }

theorem tripGated_frame (temp : Int) (s : State) : Frame [.power, .blocks] s (tripGated temp s) :=
  .foldl (fun _ _ => rfl) rfl

theorem tripGated_power (temp : Int) (s : State) : (tripGated temp s).power = { s.power with trip := true, tempMax := temp } :=
  foldl_holds (fun u : State => u.power = _) rfl fun _ _ hu => hu

theorem thermalTrip_frame (temp : Int) (s : State) : Frame [.power, .blocks, .queues, .od] s (thermalTrip temp s) :=
  .after (report_frame ..) (tripGated_frame ..).mono

theorem thermalTrip_power (temp : Int) (s : State) : (thermalTrip temp s).power = { s.power with trip := true, tempMax := temp } :=
  ((report_frame ..).get State.power).trans (tripGated_power ..)

theorem thermalTrip_gated (temp : Int) {s : State} {b : Nat} (present : b ∈ presentBlocks s) :
    (blockAt (thermalTrip temp s) b).gated = true := by
  have reported : (thermalTrip temp s).blocks = (tripGated temp s).blocks :=
    (report_frame 0x34 0 0 0 0 none false (tripGated temp s)).get State.blocks
  have gated := blockAt_foldl_modBlock (f := fun x => { x with gated := true }) (fun _ => rfl) (presentBlocks s)
    { s with power := { s.power with trip := true, tempMax := temp } } b
  rw [if_pos present] at gated
  have same : blockAt (thermalTrip temp s) b = blockAt (tripGated temp s) b := congrArg (tget block0 · b) reported
  rw [same, tripGated, gated]

/-- A trip sets the apex to the factor of step 8, as far as its clamp goes. -/
theorem apexStep_of_trip {s : State} (trip : s.power.trip = true) : min 8 (odv s 0x5200 3) ≤ apexStep s := by
  rw [apexStep, if_pos trip]
  omega

/-- The end of a trip before the ramp opens. -/
def tripEnded (temp : Int) (s : State) : State :=
  ungate { s with power := { s.power with trip := false, tempMax := temp, therm := 15, thermRef := refNow s } }

theorem thermalTripEnd_frame (temp : Int) (s : State) : Frame wakeParts s (thermalTripEnd temp s) :=
  .after (wake_frame ..) (.after (afterStep_frame ..) (show Frame _ s (tripEnded temp s) from rfl))

theorem thermalTripEnd_ramp (temp : Int) (s : State) : RampOnly (tripEnded temp s) (thermalTripEnd temp s) :=
  (afterStep_ramp ..).trans (wake_ramp ..)

/-- Settles O11: what follows a change of step leaves the fields of the loop as the evaluation, or the end of the trip, has
set them. -/
theorem thermalRows : Obligations.ThermalRows := by
  intro temp s runs
  refine ⟨?eval, fun hot untripped => ?trip, fun cool tripped => ?ends⟩
  case eval =>
    refine ⟨_, event_of runs, ?_⟩
    obtain ⟨cap, therm, _, _, _, _, hottest, _⟩ := (afterStep_ramp (stepInForce s) (thermalStep temp s)).fields
    have frame : Frame wakeParts s (afterStep (stepInForce s) (thermalStep temp s)) :=
      .after (afterStep_frame ..) (thermalStep_frame ..).mono
    obtain ⟨temp', cap', rules⟩ := thermalStep_rules temp s
    dsimp only
    rw [cap, therm, hottest]
    refine ⟨temp', cap', ?_, frame.get State.front, frame.get State.flags, rules⟩
    rw [← cap, ← therm]
    rfl
  case trip =>
    have limit : temp ≥ odDefault (odKey 0x5200 6) * 8 := hot
    refine ⟨_, event_of (by simp [runs, limit, untripped]), thermalTrip_power temp s, fun b hb => thermalTrip_gated temp hb, ?_,
      (thermalTrip_frame temp s).get State.front, (thermalTrip_frame temp s).get State.flags⟩
    exact apexStep_of_trip (s := { thermalTrip temp s with pending := s.pending })
      (by rw [show ({ thermalTrip temp s with pending := s.pending } : State).power = _ from thermalTrip_power temp s])
  case ends =>
    obtain ⟨_, therm, _, _, _, _, hottest, trip⟩ := (thermalTripEnd_ramp temp s).fields
    exact ⟨_, event_of (by simp [runs, cool, tripped]), trip, therm, hottest, (thermalTripEnd_frame temp s).get State.front,
      (thermalTripEnd_frame temp s).get State.flags⟩

/-! ### The Marl frame (R465 to R468) -/

theorem fld_ofNat {k n lo w : Nat} (h : n < 2 ^ k) : fld (BitVec.ofNat k n) lo w = bits n lo w := by
  rw [fld, BitVec.toNat_ofNat, Nat.mod_eq_of_lt h]

/-- A slot of a frame shows each of its fields, cut to its width. -/
theorem fld_slot (fs : List (Nat × Nat)) (width : packWidth fs ≤ 24) (i : Nat) (h : i < fs.length) :
    fld (BitVec.ofNat 24 (pack fs)) (packWidth (fs.take i)) fs[i].1 = fs[i].2 % 2 ^ fs[i].1 := by
  rw [fld_ofNat ((pack_lt fs).trans_le (Nat.pow_le_pow_right (by decide) width)), bits_pack]

/-- Settles O14: each slot is a packed word, and its fields stand one above the other. -/
theorem marlFrameRow : Obligations.MarlFrameRow := by
  intro s runs frames
  refine ⟨_, _, _, _, _, _, _, event_of (by simp [runs, frames]), rfl, rfl, rfl, ?_, ?_, ?_, ?_, ?_, ?_, ?_⟩
  · exact fld_slot [(8, _), (8, _), (4, stepInForce s), (3, _), (1, _)] (by simp) 2 (by simp)
  · refine (fld_slot [(8, _), (8, _), (4, _), (3, _), (1, b2n s.power.rampOpen)] (by simp) 4 (by simp)).trans ?_
    cases s.power.rampOpen <;> rfl
  · exact fld_slot [(8, errorRegister s), (8, _), (4, _), (4, _)] (by simp) 0 (by simp)
  · exact fld_slot [(8, _), (8, _), (4, s.boot.stage), (4, _)] (by simp) 2 (by simp)
  · exact fld_slot [(8, _), (8, _), (4, _), (4, s.mgmt.st)] (by simp) 3 (by simp)
  · exact fld_slot [(16, s.marl.num), (4, 10)] (by simp) 0 (by simp)
  · exact fld_slot [(20, _), (4, s.power.lastCode)] (by simp) 1 (by simp)

end Sys2Proof.Machine
end

section
/-! The statement on block clocks and ramps (chapter 14). -/

namespace Sys2Proof.Machine

-- one proof at a time, for the memory that the check allows
set_option Elab.async false

/-- Block 39 of region 0, under an in-service test, while step 15 marks it. -/
def markedUnderTest : State :=
  { State.reset with
    boot := { Boot.atReset with resetN := true, pll := true, present := 1 }
    power := { Power.atReset with cap := 15 }
    blocks := [(39, { block0 with testing := true })] }

theorem markedUnderTest_keeps_clock : exec (.blockGated 39) markedUnderTest = .next markedUnderTest :=
  event_not (by decide)

/-- Refutes O13: a block under test is idle by the statement's measure, but the step that marks it does not gate it before
the test has ended (R407). -/
theorem not_blockClockAndRampRows : ¬ Obligations.BlockClockAndRampRows := by
  intro h
  obtain ⟨_, _, gated, _⟩ := h.1 39 markedUnderTest (by decide)
  have stopped := gated (by decide) (by decide) (by decide) (by decide)
  rw [markedUnderTest_keeps_clock] at stopped
  have clock := congrArg (fun o : Out => match o with | .next t => (blockAt t 39).gated | _ => false) stopped
  exact absurd clock (by decide)

end Sys2Proof.Machine
end

section
/-! The statements on start-up, self-test and test access (chapters 15 to 17). -/

namespace Sys2Proof.Machine

-- one proof at a time, for the memory that the check allows
set_option Elab.async false

/-! ### Straps, fuses and the PLL (R462 to R464, R478, R480) -/

theorem strapBad_eq (v : BitVec 24) :
    (fld v 11 13 != 0 || decide (fld v 0 2 = 3)) = decide (v.toNat / 2048 ≠ 0 ∨ v.toNat % 4 = 3) := by
  have width := v.isLt
  have high : fld v 11 13 = v.toNat / 2048 := Nat.mod_eq_of_lt (by omega)
  have low : fld v 0 2 = v.toNat % 4 := by simp [fld, bits]
  rw [high, low, Bool.decide_or, decide_not]
  rfl

/-- Until the PLL and the fuses are both there, start-up waits. -/
theorem bootAdvance_waits {s : State} (h : s.boot.pll = false ∨ s.boot.fuseDone = false) : bootAdvance s = s := by
  have waits : (!(s.boot.pll && s.boot.fuseDone && s.boot.stage ≤ 2 && s.boot.failure = 0)) = true := by
    obtain h | h := h <;> simp [h]
  exact if_pos waits

theorem bootFail_boot (code : Nat) (s : State) : (bootFail code s).boot = { s.boot with failure := code } := enterFault_boot _

theorem bootFail_st (code : Nat) (s : State) : (bootFail code s).mgmt.st = 4 := enterFault_st _

/-- The present regions: those strapped and not fused off (R31). -/
def strappedRegions (s : State) : BitVec 8 := BitVec.ofNat 8 (s.boot.straps.toNat / 8 % 256) &&& ~~~ s.boot.fuseDisable

/-- Step 6 of start-up begins with the present regions known. -/
def regionsKnown (s : State) : State :=
  { s with boot := { s.boot with present := strappedRegions s, stage := 3 }
           power := { s.power with vidTarget := vidFor s 0 } }

/-- What follows the end of steps 2 to 4. -/
theorem bootAdvance_eq {s : State} (pll : s.boot.pll = true) (fuses : s.boot.fuseDone = true) (early : s.boot.stage ≤ 2)
    (good : s.boot.failure = 0) : bootAdvance s =
      if s.boot.strapBad then bootFail 3 s else if s.boot.fuseBad then bootFail 2 s
      else if strappedRegions s = 0 then bootFail 4 s else startVoltage (regionsKnown s) := by
  have due : ¬ (!(s.boot.pll && s.boot.fuseDone && s.boot.stage ≤ 2 && s.boot.failure = 0)) = true := by
    simp [pll, fuses, early, good]
  exact if_neg due

/-- Step 6 asks for the fused voltage, unless it stands already: then the image is read. -/
theorem startVoltage_cases {s : State} (idle : s.power.avsWait = false) :
    (startVoltage s).boot.present = s.boot.present ∧ (startVoltage s).boot.failure = s.boot.failure
    ∧ (startVoltage s).boot.frames = s.boot.frames ∧ (startVoltage s).mgmt = s.mgmt
    ∧ (((startVoltage s).power.avsWait = true ∧ (startVoltage s).boot.stage = s.boot.stage)
      ∨ ((startVoltage s).power.vid = (startVoltage s).power.vidTarget
        ∧ (startVoltage s).boot.stage = 4 + (startVoltage s).boot.location ∧ (startVoltage s).boot.location ≤ 1)) := by
  unfold startVoltage
  split
  case isTrue same =>
    refine ⟨rfl, rfl, rfl, rfl, .inr ⟨same, rfl, ?_⟩⟩
    show (if fld s.boot.straps 0 2 = 1 then 1 else 0) ≤ 1
    split <;> decide
  case isFalse differs =>
    have asks : ¬ (s.power.avsWait = true ∨ s.power.vid = s.power.vidTarget) := by simp [idle, differs]
    unfold avsRequest
    dsimp only
    rw [if_neg asks]
    exact ⟨rfl, rfl, rfl, rfl, .inl ⟨rfl, rfl⟩⟩

/-- The state in which start-up goes on once the PLL has locked. -/
def pllLocked (s : State) : State :=
  { s with boot := { s.boot with pll := true, frames := true, staticCode := false, stage := 2 } }

/-- The failure code of steps 2 to 4, 0 where they pass: the lowest-numbered failing step. -/
def bootCode (s : State) : Nat :=
  if s.boot.strapBad then 3 else if s.boot.fuseBad then 2 else if strappedRegions s = 0 then 4 else 0

/-- Start-up after a lock that follows fuse load. -/
theorem bootAdvance_pllLocked {s : State} (fuses : s.boot.fuseDone = true) (good : s.boot.failure = 0)
    (idle : s.power.avsWait = false) :
    let t := bootAdvance (pllLocked s)
    t.boot.frames = true ∧ t.boot.failure = bootCode s ∧ (bootCode s ≠ 0 → t.mgmt.st = 4)
    ∧ (bootCode s = 0 → t.boot.present = strappedRegions s ∧ t.mgmt.st = s.mgmt.st
        ∧ ((t.power.avsWait = true ∧ t.boot.stage = 3)
           ∨ (t.power.vid = t.power.vidTarget ∧ t.boot.stage = 4 + t.boot.location ∧ t.boot.location ≤ 1))) := by
  have fails (code : Nat) (some : code ≠ 0) : (bootFail code (pllLocked s)).boot.frames = true
      ∧ (bootFail code (pllLocked s)).boot.failure = code ∧ (code ≠ 0 → (bootFail code (pllLocked s)).mgmt.st = 4)
      ∧ ∀ P : Prop, code = 0 → P := by
    rw [bootFail_boot, bootFail_st]
    exact ⟨rfl, rfl, fun _ => rfl, fun _ zero => absurd zero some⟩
  dsimp only
  rw [bootAdvance_eq (s := pllLocked s) rfl fuses (le_refl 2) good]
  unfold bootCode
  by_cases straps : s.boot.strapBad = true
  · rw [if_pos straps, if_pos (show (pllLocked s).boot.strapBad = true from straps)]
    obtain ⟨frames, failure, st, never⟩ := fails 3 (by decide)
    exact ⟨frames, failure, st, never _⟩
  · rw [if_neg straps, if_neg (show ¬ (pllLocked s).boot.strapBad = true from straps)]
    by_cases bad : s.boot.fuseBad = true
    · rw [if_pos bad, if_pos (show (pllLocked s).boot.fuseBad = true from bad)]
      obtain ⟨frames, failure, st, never⟩ := fails 2 (by decide)
      exact ⟨frames, failure, st, never _⟩
    · rw [if_neg bad, if_neg (show ¬ (pllLocked s).boot.fuseBad = true from bad)]
      by_cases none : strappedRegions s = 0
      · rw [if_pos none, if_pos (show strappedRegions (pllLocked s) = 0 from none)]
        obtain ⟨frames, failure, st, never⟩ := fails 4 (by decide)
        exact ⟨frames, failure, st, never _⟩
      · rw [if_neg none, if_neg (show ¬ strappedRegions (pllLocked s) = 0 from none)]
        obtain ⟨present, failure, frames, mgmt, out⟩ := startVoltage_cases (s := regionsKnown (pllLocked s)) idle
        exact ⟨frames, failure.trans good, fun some => absurd rfl some, fun _ => ⟨present, congrArg Mgmt.st mgmt, out⟩⟩

/-- Settles O6: before the PLL and the fuses are both there start-up waits; then the lowest failing step names the code. -/
theorem startUpRows : Obligations.StartUpRows := by
  refine ⟨fun s power reset => ⟨fun v alive first => ?_, fun off static => ?_, fun alive strapped unlocked good => ⟨fun unfused => ?_, ?_⟩,
    fun f alive strapped unfused unlocked => ?_⟩, fun s power reset alive strapped unlocked good fuses idle => ?_⟩
  · refine (event_of (by simp [power, reset, alive, first])).trans ?_
    exact congrArg (fun wrong => Host.Outcome.next { s with boot := { s.boot with
      straps := v, strapDone := true, stage := 1, strapBad := wrong } }) (strapBad_eq v)
  · exact event_of (by simp [power, reset, off, static])
  · refine (event_of (by simp [power, reset, alive, strapped, unlocked, good])).trans ?_
    exact congrArg (fun t : State => Host.Outcome.next { t with pending := s.pending }) (bootAdvance_waits (s := pllLocked s) (.inr unfused))
  · refine ⟨_, event_of (by simp [power, reset, alive, strapped, unlocked, good]), setSt_st 4 _, ?_, ?_⟩
    · exact (setSt_frame 4 { s with boot := { s.boot with failure := 1, staticCode := true } }).get State.boot
    · exact (setSt_frame 4 { s with boot := { s.boot with failure := 1, staticCode := true } }).get State.front
  · refine ⟨_, event_of (by simp [power, reset, alive, strapped, unfused]), ?_⟩
    rw [bootAdvance_waits (s := loadFuses f s) (.inl unlocked)]
    refine ⟨rfl, rfl, rfl, rfl, rfl, rfl, ?_, rfl⟩
    simp [loadFuses, marker]
  · exact ⟨_, event_of (by simp [power, reset, alive, strapped, unlocked, good]), bootAdvance_pllLocked fuses good idle⟩

end Sys2Proof.Machine
end

section
/-! The statements on the queue and the reset state (chapters 13, 16 and 17). -/

namespace Sys2Proof.Machine

-- one proof at a time, for the memory that the check allows
set_option Elab.async false

/-- Settles O1: the step pops the front command and runs it. -/
theorem stepRunsFrontCommand : Obligations.StepRunsFrontCommand := by
  intro c rest s front
  unfold step
  rw [front]

/-- Settles O4: each value is read off the reset state. -/
theorem stateAfterReset : Obligations.StateAfterReset :=
  ⟨rfl, rfl, rfl, rfl, fun _ _ => rfl, fun _ => ⟨rfl, rfl, rfl, rfl⟩, rfl, rfl, rfl, rfl, fun _ => rfl, rfl⟩

/-- Settles O5: both pins leave the state that the loss of power leaves, but for the pins. -/
theorem resetAndPowerRows : Obligations.ResetAndPowerRows := by
  refine ⟨⟨fun s high => ⟨_, event_of high, ?_⟩, fun s low => ⟨_, event_of (by simp [low]), ?_⟩, fun s good low => ?_⟩,
    fun s good high => ⟨_, _, event_of good, event_of high, rfl, ?_⟩⟩
  · exact ⟨Bool.and_false _, rfl, rfl, rfl, rfl, rfl, rfl, rfl, rfl, rfl, rfl, rfl, rfl, rfl, rfl, rfl, rfl, rfl, rfl, rfl, rfl, rfl⟩
  · exact ⟨rfl, rfl, rfl, rfl, rfl, rfl, rfl, rfl, rfl⟩
  · exact event_of (by simp [good, low])
  · rw [high]

/-- Settles O59: empty tables are canonical, and the reset values lie within their bounds. -/
theorem engineInvAtReset : Obligations.EngineInvAtReset :=
  ⟨rfl, rfl, Nat.zero_le 4, Nat.zero_le 15, Nat.zero_le 15, Nat.zero_le 15, by decide, Nat.zero_le 7⟩

end Sys2Proof.Machine
end

section
/-! The firmware image, the self-test and the test access port (chapters 15 to 17). -/

namespace Sys2Proof.Machine

-- one proof at a time, for the memory that the check allows
set_option Elab.async false

/-! ### Passes over a list of blocks -/

/-- A fold that handles `b` reaches `Q` where handling `b` does and handling anything keeps it. -/
theorem foldl_reaches {α β : Type} {f : α → β → α} {b : β} (P Q : α → Prop) (keep : ∀ a c, P a → P (f a c))
    (reach : ∀ a, P a → Q (f a b)) (stay : ∀ a c, P a → Q a → Q (f a c)) {l : List β} (mem : b ∈ l) {a : α} (start : P a) :
    Q (l.foldl f a) := by
  induction l generalizing a with
  | nil => cases mem
  | cons c r ih =>
    rw [List.foldl_cons]
    obtain rfl | later := List.mem_cons.mp mem
    · have both : P (f a b) ∧ Q (f a b) := ⟨keep a b start, reach a start⟩
      exact (foldl_holds (fun a => P a ∧ Q a) both fun a c h => ⟨keep a c h.1, stay a c h.1 h.2⟩).2
    · exact ih later (keep a c start)

/-- A fold that gives each block of a list its new state `g`, where doing so twice is doing it once. -/
theorem blockAt_foldl_each {f : State → Nat → State} {g : Nat → Block → Block} (P : State → Prop)
    (keep : ∀ s b, P s → P (f s b)) (one : ∀ s b n, P s → blockAt (f s b) n = if n = b then g b (blockAt s n) else blockAt s n)
    (idem : ∀ b x, g b (g b x) = g b x) (l : List Nat) {s : State} (start : P s) (n : Nat) :
    blockAt (l.foldl f s) n = if n ∈ l then g n (blockAt s n) else blockAt s n := by
  induction l generalizing s with
  | nil => simp
  | cons b r ih =>
    rw [List.foldl_cons, ih (keep s b start), one s b n start]
    by_cases here : n = b
    · subst here; simp [idem]
    · simp [here]

/-- A pass that leaves the retired blocks and changes the others. -/
theorem blockAt_unless_retired (f : Block → Block) (s : State) (b n : Nat) :
    blockAt (if (blockAt s b).retired then s else modBlock b f s) n
      = if n = b then (if (blockAt s n).retired then blockAt s n else f (blockAt s n)) else blockAt s n := by
  by_cases here : n = b
  · subst here
    rw [if_pos rfl]
    split <;> simp [blockAt_modBlock]
  · rw [if_neg here]
    split <;> simp [blockAt_modBlock, here]

/-- What batch `k` makes of block `b` (R482). -/
def underBatch (k : Nat) (trip : Bool) (b : Nat) (x : Block) : Block :=
  if x.retired then x else { x with gated := !decide (b % 40 / 4 = k) || trip, testing := decide (b % 40 / 4 = k) }

theorem selfTestGate_frame (k : Nat) (s : State) : Frame [.blocks] s (selfTestGate k s) :=
  .foldl (fun _ _ => .ite (.refl _) (modBlock_frame ..)) (.refl s)

theorem blockAt_selfTestGate (k : Nat) (s : State) (n : Nat) : blockAt (selfTestGate k s) n
    = if n ∈ presentBlocks s then underBatch k s.power.trip n (blockAt s n) else blockAt s n := by
  refine blockAt_foldl_each (g := underBatch k s.power.trip) (fun u => u.power = s.power) (fun u b hu => ?_) (fun u b n hu => ?_)
    (fun b x => ?_) _ rfl n
  · exact ite_holds (fun u : State => u.power = s.power) hu hu
  · dsimp only
    rw [hu, blockAt_unless_retired]
    rfl
  · by_cases retired : x.retired = true <;> simp [underBatch, retired]

/-! ### The end of a batch -/

theorem retireBlock_frame (b dep : Nat) (s : State) : Frame [.blocks, .queues, .od] s (retireBlock b dep s) :=
  .after (reportAs_frame ..) (modBlock_frame ..).mono

theorem blockAt_retireBlock (b dep : Nat) (s : State) (n : Nat) :
    (blockAt (retireBlock b dep s) n).retired = if n = b then true else (blockAt s n).retired := by
  have reported (u : State) : blockAt (reportAs (1000 + b) 0 dep 0x42 b 0 4 0 none false u) n = blockAt u n :=
    congrArg (tget block0 · n) ((reportAs_frame ..).get State.blocks)
  rw [retireBlock, reported, blockAt_modBlock]
  split <;> rfl

/-- A batch that has run retires one of its blocks whose signature differs. -/
def judge (failed : List Nat) (s : State) (b : Nat) : State :=
  if b % 40 / 4 = s.boot.batch ∧ (failed.contains b ∨ (fires 9 b s).isSome) then
    retireBlock b 0 (if (fires 9 b s).isSome then disarm 9 b s else s)
  else s

theorem judge_frame (failed : List Nat) (s : State) (b : Nat) : Frame [.blocks, .queues, .od, .armed] s (judge failed s b) :=
  .ite (.after (retireBlock_frame ..) (.ite (disarm_frame ..).mono (.refl _))) (.refl s)

/-- The batch that has run, with its failed blocks retired. -/
def judged (failed : List Nat) (s : State) : State := (presentBlocks s).foldl (judge failed) s

theorem judged_frame (failed : List Nat) (s : State) : Frame [.blocks, .queues, .od, .armed] s (judged failed s) :=
  .foldl (judge_frame failed) (.refl s)

theorem judged_retired {failed : List Nat} {s : State} {b : Nat} (present : b ∈ presentBlocks s) (batch : b % 40 / 4 = s.boot.batch)
    (fails : b ∈ failed) : (blockAt (judged failed s) b).retired = true := by
  have boot (u : State) (c : Nat) (hu : u.boot = s.boot) : (judge failed u c).boot = s.boot :=
    ((judge_frame failed u c).get State.boot).trans hu
  refine foldl_reaches (fun u => u.boot = s.boot) (fun u => (blockAt u b).retired = true) boot (fun u hu => ?_) (fun u c hu hb => ?_)
    present rfl
  · rw [judge, if_pos ⟨hu ▸ batch, .inl (List.contains_iff_mem.mpr fails)⟩, blockAt_retireBlock, if_pos rfl]
  · refine ite_holds (fun u : State => (blockAt u b).retired = true) ?_ hb
    have before : (blockAt (if (fires 9 c u).isSome then disarm 9 c u else u) b).retired = true :=
      ite_holds (fun u : State => (blockAt u b).retired = true) hb hb
    rw [blockAt_retireBlock, before]
    exact ite_self true

/-- A batch without failures retires nothing. -/
theorem judged_none {s : State} (armed : ∀ b, fires 9 b s = none) : judged [] s = s :=
  foldl_holds (fun u => u = s) rfl fun u b hu => by
    subst hu
    simp [judge, armed]

/-- The end of the tenth batch, with some block in service (R482). -/
def testEnded (s : State) : State :=
  let u := (presentBlocks s).foldl (fun s b => if (blockAt s b).retired then s
    else modBlock b (fun x => { x with gated := marked (stepInForce s) b, testing := false }) s) s
  { u with sp := [], spPoison := [] }

theorem testEnded_frame (s : State) : Frame [.blocks, .sp, .spPoison] s (testEnded s) := by
  unfold testEnded
  exact .after (show Frame [.sp, .spPoison] _ _ from rfl) (.foldl (fun _ _ => .ite (.refl _) (modBlock_frame ..)) (.refl s) : Frame [.blocks] s _).mono

/-- The blocks in service run again, but for those that the step in force gates. -/
theorem blockAt_testEnded {s : State} {b : Nat} (present : b ∈ presentBlocks s) (fit : (blockAt s b).retired = false) :
    blockAt (testEnded s) b = { blockAt s b with gated := marked (stepInForce s) b, testing := false } := by
  have each := blockAt_foldl_each (f := fun s b => if (blockAt s b).retired then s
      else modBlock b (fun x => { x with gated := marked (stepInForce s) b, testing := false }) s)
    (g := fun b x => if x.retired then x else { x with gated := marked (stepInForce s) b, testing := false })
    (fun u => u.power = s.power) (fun u b hu => ite_holds (fun u : State => u.power = s.power) hu hu)
    (fun u c n hu => ?_) (fun c x => ?_) (presentBlocks s) rfl b
  · rw [if_pos present, if_neg (by simp [fit])] at each
    exact each
  · have step : stepInForce u = stepInForce s := by rw [stepInForce, hu]; rfl
    rw [blockAt_unless_retired, step]
  · by_cases retired : x.retired = true <;> simp [retired]

/-- What follows a batch: the next, or after the tenth PREOP with the stores at zero. -/
theorem batchDone_eq (failed : List Nat) (s : State) : batchDone failed s =
    if (judged failed s).boot.batch < 9 then selfTestGate ((judged failed s).boot.batch + 1)
      { judged failed s with boot := { (judged failed s).boot with batch := (judged failed s).boot.batch + 1 } }
    else if allRetired (judged failed s) then bootFail 8 (judged failed s) else enterPreop (testEnded (judged failed s)) := rfl

/-- A batch before the tenth. -/
theorem batchDone_early {s : State} (failed : List Nat) (early : s.boot.batch < 9) :
    (batchDone failed s).boot = { s.boot with batch := s.boot.batch + 1 }
    ∧ ∀ b ∈ presentBlocks s, b % 40 / 4 = s.boot.batch → b ∈ failed → (blockAt (batchDone failed s) b).retired = true := by
  have boot : (judged failed s).boot = s.boot := (judged_frame failed s).get State.boot
  rw [batchDone_eq, boot, if_pos early]
  refine ⟨(selfTestGate_frame ..).get State.boot, fun b present batch fails => ?_⟩
  have retired := judged_retired present batch fails
  rw [blockAt_selfTestGate]
  refine ite_holds (fun x : Block => x.retired = true) ?_ retired
  exact ite_holds (fun x : Block => x.retired = true) retired retired

/-- The tenth batch, where none failed and some block is in service. -/
theorem batchDone_last {s : State} (last : s.boot.batch = 9) (armed : ∀ b, fires 9 b s = none)
    (some : ∃ b ∈ presentBlocks s, (blockAt s b).retired = false) : batchDone [] s = enterPreop (testEnded s) := by
  obtain ⟨b, present, fit⟩ := some
  have fitted : ¬ allRetired s = true := fun all => by
    have retired := List.all_eq_true.mp all b present
    rw [fit] at retired
    cases retired
  rw [batchDone_eq, judged_none armed, if_neg (by omega), if_neg fitted]

theorem enterPreop_frame (s : State) : Frame [.boot, .mgmt, .od] s (enterPreop s) :=
  .after (setSt_frame ..) (show Frame [.boot] s _ from rfl)

theorem enterPreop_boot (s : State) : (enterPreop s).boot = { s.boot with stage := 15 } := (setSt_frame ..).get State.boot

/-! ### The firmware image (R481, R488) -/

theorem strapMode_eq (v : BitVec 24) : fld v 0 2 = v.toNat % 4 := by simp [fld, bits]

theorem firmwareDone_good {bad : Bool} {s : State} {img : List Byte} (good : checkImage s bad (imageBase s.boot.location) = .inr img) :
    (firmwareDone bad s).boot = { s.boot with image := img, verified := true, stage := 7 } ∧ (firmwareDone bad s).mgmt = s.mgmt := by
  unfold firmwareDone
  rw [good]
  exact ⟨rfl, rfl⟩

theorem firmwareDone_fallback {bad : Bool} {s : State} {code : Nat} (fails : checkImage s bad (imageBase s.boot.location) = .inl code)
    (other : s.boot.straps.toNat % 4 = 2 ∧ s.boot.location = 0) :
    firmwareDone bad s = { s with boot := { s.boot with location := 1, fallback := true, stage := 5 } } := by
  unfold firmwareDone
  rw [fails]
  exact if_pos (by rwa [strapMode_eq])

theorem firmwareDone_fails {bad : Bool} {s : State} {code : Nat} (fails : checkImage s bad (imageBase s.boot.location) = .inl code)
    (last : ¬ (s.boot.straps.toNat % 4 = 2 ∧ s.boot.location = 0)) : firmwareDone bad s = bootFail code s := by
  unfold firmwareDone
  rw [fails]
  exact if_neg (by rwa [strapMode_eq])

/-- The fields of the identification code (R75). -/
theorem idcode_fields : fld idcode 28 4 = 2 ∧ fld idcode 12 16 = 0x4A34 ∧ fld idcode 0 1 = 1 := by
  have width : pack [(1, 1), (11, Config.jtagMfr.toNat), (16, 0x4A34), (4, 2)] < 2 ^ 32 := pack_lt _
  have field := bits_pack [(1, 1), (11, Config.jtagMfr.toNat), (16, 0x4A34), (4, 2)]
  refine ⟨?_, ?_, ?_⟩ <;> rw [idcode, fld_ofNat width]
  · exact field 3 (by decide)
  · exact field 2 (by decide)
  · exact field 0 (by decide)

/-- Settles O8: an image ends in one of three ways, a batch in the next or in PREOP, and each test row selects its register. -/
theorem firmwareSelfTestAndTapRows : Obligations.FirmwareSelfTestAndTapRows := by
  refine ⟨fun s alive => ⟨fun bad stage good => ?image, fun stage good => ?start, fun failed stage good cool early => ?batch,
    fun stage good cool last armed some => ?tenth, event_of alive⟩, fun s power => ?tap⟩
  case image =>
    refine ⟨_, event_of (by simp [alive, stage, good]), fun img passes => firmwareDone_good passes, fun code fails => ⟨fun other => ?_, fun last => ?_⟩⟩
    · rw [firmwareDone_fallback fails other]
    · rw [firmwareDone_fails fails last]
      exact ⟨bootFail_st .., bootFail_boot ..⟩
  case start =>
    refine ⟨_, event_of (by simp [alive, stage, good]), ?_, fun b present => ?_⟩
    · exact congrArg (fun u : State => { u with pending := s.pending })
        (selfTestGate_frame 0 { s with boot := { s.boot with stage := 8, batch := 0 } })
    · refine (blockAt_selfTestGate ..).trans ((if_pos present).trans ?_)
      show underBatch 0 s.power.trip b (blockAt s b) = _
      have gates : (!decide (b % 40 / 4 = 0) || s.power.trip) = decide (b % 40 / 4 ≠ 0 ∨ s.power.trip = true) := by
        rw [Bool.decide_or, decide_not, Bool.decide_eq_true]
      rw [underBatch, gates]
  case batch => exact ⟨_, event_of (by simp [alive, stage, good, cool]), batchDone_early failed early⟩
  case tenth =>
    refine ⟨_, event_of (by simp [alive, stage, good, cool]), ?_⟩
    rw [batchDone_last last armed some]
    have boot : (testEnded s).boot = s.boot := (testEnded_frame s).get State.boot
    refine ⟨setSt_st .., ?_, (enterPreop_frame ..).get State.sp, (enterPreop_frame ..).get State.spPoison, fun b present fit => ?_⟩
    · exact (enterPreop_boot _).trans (by rw [boot])
    · have block : blockAt (enterPreop (testEnded s)) b = blockAt (testEnded s) b :=
        congrArg (tget block0 · b) ((enterPreop_frame ..).get State.blocks)
      show (blockAt (enterPreop (testEnded s)) b).gated = _ ∧ (blockAt (enterPreop (testEnded s)) b).testing = _
      rw [block, blockAt_testEnded present fit]
      exact ⟨rfl, rfl⟩
  case tap =>
    refine ⟨⟨idcode, event_of power, idcode_fields⟩, event_of power, (event_of power).trans ?_, (event_of power).trans ?_⟩
    · simp only [Bool.and_eq_true, Bool.not_eq_true']
    · simp only [tapInstruments, Bool.or_eq_true, Bool.and_eq_true, decide_eq_true_eq]

end Sys2Proof.Machine
end

section
/-! The statements on accepted descriptors, credits, wait tags and argument blocks (chapter 09). -/

namespace Sys2Proof.Machine

-- one proof at a time, for the memory that the check allows
set_option Elab.async false

/-- An event that keeps the queue answers the state that its effect leaves. -/
theorem event_exact {ok : Bool} {s t : State} (h : ok = true) (queue : t.pending = s.pending) : event ok s t = .next t := by
  rw [event_of h, ← queue]

/-! ### The least failing field (R503) -/

theorem least_eq_some {l : List Nat} {b : Nat} (h : least l = some b) : b ∈ l ∧ ∀ a ∈ l, b ≤ a := by
  have general (l : List Nat) (m : Option Nat) : ∀ b,
      l.foldl (fun m n => some (match m with | none => n | some k => min k n)) m = some b →
      (b ∈ l ∨ m = some b) ∧ (∀ a ∈ l, b ≤ a) ∧ ∀ k, m = some k → b ≤ k := by
    induction l generalizing m with
    | nil =>
      rintro b rfl
      exact ⟨.inr rfl, by simp, by simp⟩
    | cons n l ih =>
      intro b found
      obtain ⟨mem, below, least⟩ := ih _ b found
      cases m <;> grind
  obtain ⟨mem, below, _⟩ := general l none b h
  exact ⟨mem.resolve_right (by simp), below⟩

/-! ### Commands and tags -/

theorem mem_of_byTag {s : State} {tag : Nat} {c : Cmd} (h : byTag s tag = some c) : c ∈ s.front.cmds := List.mem_of_find?_eq_some h

theorem uid_of_cmdOf {s : State} {uid : Nat} {c : Cmd} (h : cmdOf s uid = some c) : c.uid = uid := by
  simpa using List.find?_some h

theorem mem_of_cmdOf {s : State} {uid : Nat} {c : Cmd} (h : cmdOf s uid = some c) : c ∈ s.front.cmds := List.mem_of_find?_eq_some h

/-- The record put under a number is the one found there, with the descriptor that stood. -/
theorem cmdOf_putCmd_same {s : State} {c x : Cmd} (h : cmdOf s x.uid = some c) :
    cmdOf (putCmd x s) x.uid = some { x with desc := c.desc } := by
  have found : (s.front.cmds.map fun y => if y.uid = x.uid then { x with desc := y.desc } else y).find? (fun y => y.uid = x.uid)
      = some { x with desc := c.desc } := by
    have same : (fun y : Cmd => decide (y.uid = x.uid)) ∘ (fun y => if y.uid = x.uid then { x with desc := y.desc } else y)
        = fun y => decide (y.uid = x.uid) := by
      funext y
      by_cases hy : y.uid = x.uid <;> simp [hy]
    have first : s.front.cmds.find? (fun y => y.uid = x.uid) = some c := h
    rw [List.find?_map, same, first]
    simp [uid_of_cmdOf h]
  exact found

theorem mem_putCmd_of_ne {s : State} {x y : Cmd} (h : y ∈ s.front.cmds) (other : y.uid ≠ x.uid) : y ∈ (putCmd x s).front.cmds :=
  List.mem_map.mpr ⟨y, h, if_neg other⟩

/-! ### Accepted descriptors (R258, R261) -/

theorem addReject_eq (c : Cmd) (r : Nat × Nat) : addReject c r = { c with reject := (addReject c r).reject } := by
  unfold addReject
  split
  · split <;> rfl
  · rfl

theorem checkArgs_eq (s : State) (c : Cmd) :
    checkArgs s c = { c with argDone := true, reject := (checkArgs s c).reject } := by
  unfold checkArgs
  dsimp only
  split
  · rw [addReject_eq]
  · rfl

/-- Beside the outcome of its checks and the lines it awaits, an accepted command is a new command. -/
theorem acceptedCmd_eq (d : Descriptor) (s : State) :
    ∃ reject argWait argDone, acceptedCmd d s = { newCmd s d with reject := reject, argWait := argWait, argDone := argDone } := by
  have checked : checkedCmd d s = { newCmd s d with reject := (checkedCmd d s).reject } := by
    unfold checkedCmd
    dsimp only
    split
    · rw [addReject_eq]
    · rfl
  unfold acceptedCmd
  split
  · rw [checkArgs_eq, checked]
    exact ⟨_, _, _, rfl⟩
  · rw [checked]
    exact ⟨_, _, _, rfl⟩

/-- Acceptance touches the command ports, the memory ports that fetch the argument block, and what a trace entry touches. -/
theorem accept_frame (d : Descriptor) (s : State) : Frame (.credits :: .nextUid :: .cmds :: traceParts) s (accept d s) := by
  unfold accept
  have credits (t : State) : Frame [.credits] t (topUp t) := topUp_eq t
  exact .after (credits _) (.after (trace_frame ..) (.foldl (fun _ _ => rfl) rfl))

theorem packRelease_frame (f : Nat) (s : State) : Frame [.cmds, .od] s (packRelease f s) := by
  unfold packRelease
  split
  · exact .refl s
  · have released (who : List Nat) : Frame [.cmds, .od] s
        { s with front := { s.front with cmds := s.front.cmds.map (packReleased f who) } } := rfl
    have counted (who : List Nat) (n : Nat) := Frame.ite (c := n = 0) (released who) (.after (odBump_frame 0x3010 3 n _) (released who))
    exact .ite (counted _ _) (.after (odBump_frame ..) (counted _ _))

theorem releaseFenced_frame (s : State) : Frame [.cmds, .od] s (releaseFenced s) :=
  .foldl (fun _ _ => .ite (packRelease_frame ..) (.refl _)) (.refl s)

/-- The release of packing sets leaves number and descriptor of every command. -/
theorem PacksOnly.names {s t : State} (h : PacksOnly s t) :
    t.front.cmds.map (fun x => (x.uid, x.desc)) = s.front.cmds.map fun x => (x.uid, x.desc) := by
  obtain ⟨g, hg, ht⟩ := h
  rw [ht, List.map_map]
  refine List.map_congr_left fun x _ => ?_
  obtain ⟨p, q, hx⟩ := hg x
  rw [Function.comp, hx]

/-- Settles O15: the command taken from the port is the new one at the end of those in flight; packing sets released by its
fence change only their members' packing state. -/
theorem acceptedDescriptors : Obligations.AcceptedDescriptors := by
  intro i d s spelled runs funded unarmed good free
  have fresh : byTag (creditSpent s) (dTag d) = none := free
  have entry (k l : Nat) : odv (creditSpent s) k l = odv s k l := odv_of_od rfl k l
  obtain ⟨reject, argWait, argDone, shape⟩ := acceptedCmd_eq d (creditSpent s)
  have front := accept_front d (creditSpent s)
  obtain ⟨p, q, found⟩ := (releaseFenced_packs _).byTag (byTag_accept fresh)
  have packs := releaseFenced_packs (accept d (creditSpent s))
  have released := releaseFenced_frame (accept d (creditSpent s))
  have frame := released.after (accept_frame d (creditSpent s))
  have row := exec_of_descriptorOf spelled runs
  rw [takeDescriptor_accepted funded unarmed good free] at row
  generalize releaseFenced (accept d (creditSpent s)) = t at *
  generalize accept d (creditSpent s) = a at *
  have queue : t.pending = s.pending := frame.get State.pending
  rw [← queue] at row
  rw [shape] at found front
  refine ⟨t, _, row, found, rfl, rfl, rfl, rfl, rfl, rfl, entry 0x3100 1, entry 0x4300 1, entry 0x3000 1, ?_, ?_,
    frame.get (·.front.refusals), frame.get (·.front.sent), frame.get State.links, frame.get State.flags, frame.get State.sp,
    frame.get State.paged, frame.get State.mgmt, frame.get State.power⟩
  · rw [packs.names, front, List.map_append]
    rfl
  · have kept : t.front.nextUid = a.front.nextUid := released.get (·.front.nextUid)
    rw [kept, front]
    rfl

/-! ### Beats without a credit (R256) -/

/-- A report of a full queue that is neither uncorrected nor fatal counts as lost; else it joins the queue. -/
theorem ingressError_full {s : State} (full : (tget [] s.rel.queues 3000).length ≥ 16) : ingressError s = odBump 0x6000 4 1 s :=
  if_pos ⟨full, by decide, by decide⟩

theorem ingressError_room {s : State} (room : (tget [] s.rel.queues 3000).length < 16) : ∃ r : Report, r.code = 0x25 ∧ r.severity = 2
    ∧ ingressError s = { s with rel := { s.rel with queues := tput 3000 (tget [] s.rel.queues 3000 ++ [r]) s.rel.queues } } :=
  ⟨_, rfl, rfl, if_neg fun full => absurd full.1 (by omega : ¬ (tget [] s.rel.queues 3000).length ≥ 16)⟩

/-- Settles O17: both rows run the same report, which never draws a number. -/
theorem noCreditNoCommand : Obligations.NoCreditNoCommand := by
  intro s runs
  have frame : Frame [.queues, .od] s (ingressError s) := report_frame ..
  refine ⟨fun i d spelled broke => ?_, ⟨_, event_exact runs (frame.get State.pending), ?_, fun room => ?_,
    fun full => ?_⟩, event_of runs⟩
  · have ignored : submit d s = ingressError s := if_pos broke
    have noNumber : (submit d s).front.nextUid = s.front.nextUid := by rw [ignored]; exact frame.get (·.front.nextUid)
    have taken : takeDescriptor d s = ingressError s := (if_pos noNumber).trans ignored
    rw [exec_of_descriptorOf spelled runs, taken]
    exact (event_of runs).symm
  · exact frame.mono (qs := [.log, .count, .acked, .queues, .armed, .recov, .corrected, .windowOp, .faults, .noAuto, .fatal, .parity, .mire, .od])
  · obtain ⟨r, code, severity, joined⟩ := ingressError_room room
    rw [joined]
    exact ⟨rfl, r, code, severity, rfl⟩
  · rw [ingressError_full full]
    exact ⟨rfl, odv_odBump_same (w := 32) _ (by decide)⟩

/-! ### Wait tags (R277) -/

theorem mem_waits {s : State} {d : Descriptor} {u : Nat} : u ∈ (newCmd s d).waits ↔
    ∃ i < 4, dWaitValid d i = true ∧ ∃ x, byTag s (dWaitTag d i) = some x ∧ x.decided = false ∧ x.uid = u := by
  simp only [newCmd, waited, List.mem_filterMap, List.mem_range]
  constructor
  · rintro ⟨x, ⟨i, bound, held⟩, undecided⟩
    by_cases valid : dWaitValid d i = true
    · rw [if_pos valid] at held
      by_cases decided : x.decided = true
      · simp [decided] at undecided
      · simp only [decided] at undecided
        exact ⟨i, bound, valid, x, held, by simpa using decided, by simpa using undecided⟩
    · simp [valid] at held
  · rintro ⟨i, bound, valid, x, held, undecided, rfl⟩
    exact ⟨x, ⟨i, bound, by rw [if_pos valid, held]⟩, by simp [undecided]⟩

/-- A valid wait on the own tag fails its check of step 3. -/
theorem ownWait_mem_stepThree (s : State) (b r : Nat) {d : Descriptor} {i : Nat} (bound : i < 4) (valid : dWaitValid d i = true)
    (own : dWaitTag d i = dTag d) : 32 + 16 * i ∈ stepThree s b r d := by
  have fails : 32 + 16 * i ∈ (List.range 4).flatMap fun i =>
      failIf (dWaitValid d i && dWaitTag d i = dTag d) (32 + 16 * i) ++ failIf (fld d (41 + 16 * i) 6 != 0) (41 + 16 * i) :=
    List.mem_flatMap.mpr ⟨i, List.mem_range.mpr bound, List.mem_append_left _ (by simp [failIf, valid, own])⟩
  simp only [stepThree, List.mem_append]
  simp only [fails, true_or, or_true]

theorem frontCheck_ne_none {s : State} {b r : Nat} {d : Descriptor} {f : Nat} (fails : f ∈ stepThree s b r d) : frontCheck s b r d ≠ none := by
  unfold frontCheck
  split
  · simp
  · split
    · simp
    · cases hleast : least (stepThree s b r d) with
      | none => simp [least_eq_none hleast] at fails
      | some det => simp

/-- Settles O18: the list of waits is read off the tags in flight, whose holders have earlier numbers. -/
theorem waitTagsAtAcceptance : Obligations.WaitTagsAtAcceptance := by
  refine ⟨fun s d u => mem_waits, fun s d older u waits => ?_, fun s d i bound valid own a b => frontCheck_ne_none (ownWait_mem_stepThree s a b bound valid own)⟩
  obtain ⟨i, _, _, x, held, _, rfl⟩ := mem_waits.mp waits
  exact older x (mem_of_byTag held)

/-! ### Argument blocks (R264, R266) -/

/-- The slots of a block as read. -/
def slotsRead (s : State) (d : Descriptor) : List (BitVec 128) :=
  (List.range (dArgSlots d)).map fun i =>
    BitVec.ofNat 128 (ofBytes (((hostBytes s (dArgAddr d) (16 * dArgSlots d)).drop (16 * i)).take 16))

/-- The slot checks of a command that no check has rejected yet. -/
theorem checkArgs_outcome (s : State) {c : Cmd} (clean : c.reject = none) :
    (argFaults s c.desc c.slots = [] → (checkArgs s c).reject = none)
    ∧ (argFaults s c.desc c.slots ≠ [] → ∃ det ∈ argFaults s c.desc c.slots,
        (∀ b ∈ argFaults s c.desc c.slots, det ≤ b) ∧ (checkArgs s c).reject = some (0x0100, det)) := by
  unfold checkArgs
  dsimp only
  cases first : least (argFaults s c.desc c.slots) with
  | none =>
    have none := least_eq_none first
    exact ⟨fun _ => clean, fun some => absurd none some⟩
  | some det =>
    obtain ⟨mem, below⟩ := least_eq_some first
    refine ⟨fun none => by simp [none] at mem, fun _ => ⟨det, mem, below, ?_⟩⟩
    simp [addReject, clean, stDescInvalid]

/-- The command of a failed block: rejected with ARG_INVALID, `DETAIL` naming the field. -/
def argRejected (c : Cmd) (det : Nat) (s : State) : Cmd :=
  { c with slots := slotsRead s c.desc, argDone := true, flags := c.flags ||| 8, reject := some (0x0105, det) }

section
variable {c : Cmd} {s : State} (unarmed : fires 0x24 0 s = none)
include unarmed

theorem argBlockDone_good (failed : c.argFail = false) (poisoned : c.argPoison = false)
    (crc : crc32c (hostBytes s (dArgAddr c.desc) (16 * dArgSlots c.desc)) = dArgCrc c.desc) :
    argBlockDone c s = putCmd (checkArgs s { c with slots := slotsRead s c.desc, argDone := true }) s := by
  unfold argBlockDone slotsRead
  simp [unarmed, failed, poisoned, crc]

theorem argBlockDone_bad (clean : c.reject = none) (bad : c.argFail = true ∨ c.argPoison = true
      ∨ crc32c (hostBytes s (dArgAddr c.desc) (16 * dArgSlots c.desc)) ≠ dArgCrc c.desc) :
    ∃ det, argBlockDone c s
      = putCmd (argRejected c det s) (report 0x24 0 0 0 (dArgAddr c.desc) (some (dTag c.desc)) false s) := by
  have reject (det : Nat) : addReject { c with slots := slotsRead s c.desc, argDone := true, flags := c.flags ||| 8 } (stArgInvalid, det)
      = argRejected c det s := by
    simp [addReject, clean, stArgInvalid, argRejected]
  unfold argBlockDone
  simp only [unarmed, Option.isSome_none, Bool.false_eq_true, if_false, or_false]
  by_cases lost : (c.argFail || c.argPoison) = true
  · exact ⟨128, (if_pos lost).trans (congrArg (putCmd · _) (reject 128))⟩
  · have crc : crc32c (hostBytes s (dArgAddr c.desc) (16 * dArgSlots c.desc)) ≠ dArgCrc c.desc := by
      simp only [Bool.or_eq_true, not_or] at lost
      exact (bad.resolve_left lost.1).resolve_left lost.2
    exact ⟨224, (if_neg lost).trans ((if_pos crc).trans (congrArg (putCmd · _) (reject 224)))⟩

end

theorem argBlockDone_frame (c : Cmd) (s : State) : Frame [.cmds, .queues, .od, .armed] s (argBlockDone c s) := by
  have armed : Frame [.cmds, .queues, .od, .armed] s (if (fires 0x24 0 s).isSome then disarm 0x24 0 s else s) :=
    .ite (disarm_frame ..).mono (.refl s)
  have reported (x : Cmd) (inj : Bool) := (putCmd_frame x _).after ((report_frame 0x24 0 0 0 (dArgAddr c.desc) (some (dTag c.desc)) inj _).after armed)
  exact .ite (reported _ _) (.ite (reported _ _) ((putCmd_frame ..).after armed))

/-- The row, on a command whose last line has come. -/
theorem exec_argBlockReadDone {s : State} {tag : Nat} {c : Cmd} (runs : live s = true) (held : byTag s tag = some c)
    (unread : c.argDone = false) (came : c.argWait = []) (going : c.ending = none) (undecided : c.decided = false) :
    exec (.argBlockReadDone tag) s = .next (argBlockDone c s) := by
  show execArgBlockReadDone tag s = _
  unfold execArgBlockReadDone
  rw [held]
  exact event_exact (by simp [runs, unread, came, going, undecided]) ((argBlockDone_frame c s).get State.pending)

/-- Settles O21: a good block puts the checked command; a bad one puts it rejected, beside a report. -/
theorem argumentBlockRows : Obligations.ArgumentBlockRows := by
  intro s tag c runs held unread came known going undecided clean unarmed
  have row := exec_argBlockReadDone runs held unread came going undecided
  refine ⟨fun failed poisoned crc => ?_, fun bad => ?_⟩
  · let taken : Cmd := { c with slots := slotsRead s c.desc, argDone := true }
    rw [argBlockDone_good unarmed failed poisoned crc] at row
    have named : checkArgs s taken = { taken with reject := (checkArgs s taken).reject } := checkArgs_eq s taken
    have uid : (checkArgs s taken).uid = c.uid := by rw [named]
    refine ⟨checkArgs s taken, row.trans ?_, named, checkArgs_outcome s (c := taken) clean⟩
    unfold putCmd
    rw [uid]
  · obtain ⟨det, rejected⟩ := argBlockDone_bad unarmed clean bad
    have frame := report_frame 0x24 0 0 0 (dArgAddr c.desc) (some (dTag c.desc)) false s
    have cmds : (report 0x24 0 0 0 (dArgAddr c.desc) (some (dTag c.desc)) false s).front.cmds = s.front.cmds := frame.get (·.front.cmds)
    have known' : cmdOf (report 0x24 0 0 0 (dArgAddr c.desc) (some (dTag c.desc)) false s) c.uid = some c := by
      unfold cmdOf
      rw [cmds]
      exact known
    rw [rejected] at row
    refine ⟨_, argRejected c det s, det, row, cmdOf_putCmd_same (x := argRejected c det s) known', rfl,
      fun y mem other => mem_putCmd_of_ne (by rw [cmds]; exact mem) other, ?_⟩
    exact ((putCmd_frame ..).after frame.mono :
      Frame [.cmds, .log, .count, .acked, .queues, .armed, .recov, .corrected, .windowOp, .faults, .noAuto, .fatal, .parity, .mire, .od] s _)

end Sys2Proof.Machine
end

section
/-! What the operations on page tables, pools and the Peat ring may touch (chapter 07). -/

namespace Sys2Proof.Machine

-- one proof at a time, for the memory that the check allows
set_option Elab.async false

variable {ps : List StatePart} {s : State}

/-! ### Tables -/

/-- What the allocator touches: its own record, and what its writes touch. -/
def poolParts : List StatePart := .paged :: memParts

theorem dropLeaf_frame (l : Nat) (s : State) : Frame [.regions] s (dropLeaf l s) := rfl

theorem writeRoot_frame (seq layer v : Nat) (o : MemOwner) (s : State) : Frame (.cmds :: memParts) s (writeRoot seq layer v o s) :=
  hostWrite_frame ..

theorem writeEntry_frame (slot i e : Nat) (o : MemOwner) (s : State) : Frame (.cmds :: memParts) s (writeEntry slot i e o s) :=
  .after (dropLeaf_frame ..) (hostWrite_frame ..)

theorem writeSlot_frame (slot : Nat) (e : Nat → Nat) (o : MemOwner) (s : State) : Frame (.cmds :: memParts) s (writeSlot slot e o s) :=
  .after (dropLeaf_frame ..) (hostWrite_frame ..)

section
variable {o : MemOwner} (free : o.free = true)
include free

theorem writeRoot_free_frame (seq layer v : Nat) (s : State) : Frame memParts s (writeRoot seq layer v o s) :=
  hostWrite_free_frame free ..

theorem writeEntry_free_frame (slot i e : Nat) (s : State) : Frame memParts s (writeEntry slot i e o s) :=
  .after (dropLeaf_frame ..) (hostWrite_free_frame free ..)

theorem writeSlot_free_frame (slot : Nat) (e : Nat → Nat) (s : State) : Frame memParts s (writeSlot slot e o s) :=
  .after (dropLeaf_frame ..) (hostWrite_free_frame free ..)

end

/-! ### Frames and leaf slots -/

theorem writeMeta_frame (f v : Nat) (s : State) : Frame memParts s (writeMeta f v s) := hostWrite_free_frame rfl ..

theorem linkTo_frame (p : Nat) (prev : Option Nat) (n : Nat) (s : State) : Frame poolParts s (linkTo p prev n s) := by
  cases prev with
  | none => rfl
  | some f => exact (writeMeta_frame ..).mono

theorem dropNote_frame (p : Nat) (s : State) : Frame [.paged] s (dropNote p s) := .ite rfl (.ite rfl (.refl s))

theorem dropNoteOf_frame (f : Nat) (s : State) : Frame [.paged] s (dropNoteOf f s) := by
  unfold dropNoteOf
  split
  · exact dropNote_frame ..
  · exact .refl s

theorem takeFrame_frame (p f : Nat) (s : State) : Frame poolParts s (takeFrame p f s) :=
  .after (dropNote_frame ..) (.after (show Frame [.paged] (linkTo p _ _ s) _ from rfl) (linkTo_frame ..))

theorem takeFrames_frame (p n : Nat) (s : State) : Frame poolParts s (takeFrames p n s).2 :=
  .foldl (fun _ _ => takeFrame_frame ..) (.refl s)

theorem pushFrame_frame (f : Nat) (s : State) : Frame poolParts s (pushFrame f s) := by
  unfold pushFrame
  split
  · exact .refl s
  · exact .after (dropNote_frame ..) (.after (show Frame [.paged] (writeMeta f _ s) _ from rfl) (writeMeta_frame ..).mono)

theorem takeLeaf_frame (s : State) : Frame [.paged] s (takeLeaf s).2 := rfl

theorem takeLeaves_frame (n : Nat) (s : State) : Frame [.paged] s (takeLeaves n s).2 := by
  induction n generalizing s with
  | zero => exact .refl s
  | succ k ih => exact .after (ih _) (takeLeaf_frame s)

theorem pushLeaf_frame (n : Nat) (s : State) : Frame poolParts s (pushLeaf n s) :=
  .after (show Frame [.paged] (hostWrite _ _ false .engine false s) _ from rfl) (hostWrite_free_frame rfl ..).mono

theorem chain_frame {link : Nat → Nat → State → State} (one : ∀ f m s, Frame ps s (link f m s)) (end_ : Nat) (l : List Nat) (s : State) :
    Frame ps s (chain link end_ l s) := by
  induction l generalizing s with
  | nil => exact .refl s
  | cons f r ih => exact (one ..).trans (ih _)

theorem metaLinks_frame (ls : List (Nat × Nat)) (s : State) : Frame memParts s (metaLinks ls s) :=
  .foldl (fun _ _ => rfl) (.refl s)

theorem initPool_frame (p : Nat) (keep : Bool) (s : State) : Frame poolParts s (initPool p keep s) :=
  .ite rfl (.after (dropNote_frame ..) (.after (show Frame [.paged] (metaLinks _ s) _ from rfl) (metaLinks_frame ..).mono))

theorem initLeaves_frame (s : State) : Frame poolParts s (initLeaves s) :=
  .after (show Frame [.paged] (chain _ _ _ s) _ from rfl) (chain_frame (ps := memParts) (fun _ _ _ => hostWrite_free_frame rfl ..) ..).mono

theorem retireFrame_frame (f : Nat) (s : State) : Frame poolParts s (retireFrame f s) :=
  .after (dropNoteOf_frame ..) (.after (show Frame [.paged] (writeMeta f _ s) _ from rfl) (writeMeta_frame ..).mono)

theorem retireLeaf_frame (n : Nat) (s : State) : Frame [.paged] s (retireLeaf n s) := rfl

theorem freeObject_frame (r : Nat × Nat × Nat) (s : State) : Frame poolParts s (freeObject r s) :=
  .ite (.after (pushFrame_frame ..) rfl) (.after (pushLeaf_frame ..) rfl)

theorem raiseRefs_frame (f seq layer page : Nat) (s : State) : Frame memParts s (raiseRefs f seq layer page s) := writeMeta_frame ..

theorem lowerRefs_frame (f : Nat) (s : State) : Frame poolParts s (lowerRefs f s) := by
  unfold lowerRefs
  dsimp only
  split
  · exact retireFrame_frame ..
  · split <;> exact (writeMeta_frame ..).mono

theorem returnFrames_frame (c : Cmd) (s : State) : Frame poolParts s (returnFrames c s) := by
  unfold returnFrames
  split
  · exact .refl s
  · exact .foldl (fun _ _ => pushLeaf_frame ..) (.foldl (fun _ _ => pushFrame_frame ..) (.refl s))

/-! ### Actions and the Peat ring -/

theorem actionTorn_drops (uid : Nat) (s : State) : Drops (.od :: endParts) s (actionTorn uid s) := by
  unfold actionTorn
  split
  · exact .refl s
  · have flagged : Drops endParts s (flagCmd uid 3 s) := .afterFrame (flagCmd_frame uid 3 s) (.refl s)
    exact .ite (.afterFrame (odBump_frame ..) (.after (endCmd_drops ..) (.after flagged (.refl s))))
      (.afterFrame (odBump_frame ..) (.afterFrame (modCmd_frame ..) (.after flagged (.refl s))))

/-- What a Peat entry touches. -/
def peatParts : List StatePart := .od :: poolParts

theorem peatPost_frame (seq layer page pos0 fmt num : Nat) (req : Bool) (s : State) :
    Frame peatParts s (peatPost seq layer page pos0 fmt num req s) := by
  unfold peatPost
  exact .after (odPut_frame ..) (.after (show Frame [.paged] (hostWrite _ _ false (.peat _) false s) _ from rfl)
    (hostWrite_free_frame rfl ..).mono)

theorem postRequest_frame (table page num : Nat) (s : State) : Frame peatParts s (postRequest table page num s) := peatPost_frame ..

theorem requestPage_frame (table page : Nat) (s : State) : Frame peatParts s (requestPage table page s) := by
  unfold requestPage
  split
  · exact .ite (.refl s) (.ite rfl (.after (postRequest_frame ..) rfl))
  · exact .refl s

theorem peatForget_frame (table page : Nat) (s : State) : Frame [.paged] s (peatForget table page s) := rfl

theorem dropPage_frame (table page : Nat) (o : MemOwner) (s : State) : Frame (.cmds :: peatParts) s (dropPage table page o s) := by
  unfold dropPage
  exact .after (odBump_frame ..) (.after (peatPost_frame ..) (.after (show Frame [.paged] (retireFrame _ _) _ from rfl)
    (.after (retireFrame_frame ..) (writeEntry_frame ..).mono)))

theorem dropPage_free_frame (table page : Nat) {o : MemOwner} (free : o.free = true) (s : State) :
    Frame peatParts s (dropPage table page o s) := by
  unfold dropPage
  exact .after (odBump_frame ..) (.after (peatPost_frame ..) (.after (show Frame [.paged] (retireFrame _ _) _ from rfl)
    (.after (retireFrame_frame ..) (writeEntry_free_frame free ..).mono)))

theorem movePage_frame (f g t i : Nat) (s : State) : Frame poolParts s (movePage f g t i s) := by
  unfold movePage
  exact .after (retireLeaf_frame ..) (.after (retireLeaf_frame ..) (.after (retireFrame_frame ..) (.after (raiseRefs_frame ..)
    (.after (writeRoot_free_frame rfl ..) (.after (writeSlot_free_frame rfl ..) (.after (writeSlot_free_frame rfl ..)
    (.after (takeLeaf_frame _) (.after (takeLeaf_frame _) (.foldl (fun _ _ => (hostWrite_free_frame rfl ..).mono)
    (hostWrite_free_frame rfl ..).mono)))))))))

/-! ### Appends and restores -/

theorem markSat_frame (uid : Nat) (b : Bool) (s : State) : Frame [.cmds] s (markSat uid b s) := .ite (flagCmd_frame ..) (.refl s)

theorem writeSealed_frame (uid frame fmt dim header : Nat) (k v : List (List (List Nat))) (bad : Bool) (s : State) :
    Frame (.cmds :: memParts) s (writeSealed uid frame fmt dim header k v bad s) := by
  unfold writeSealed
  exact .after (countPoison_frame ..) (.after (hostWriteAs_frame ..) (markSat_frame ..).mono)

theorem askFrames_frame (c : Cmd) (s : State) : Frame [.cmds, .paged] s (askFrames c s) := .ite (.refl s) rfl

theorem writeToken_frame (uid : Nat) (s : State) : Frame (.cmds :: memParts) s (writeToken uid s) := by
  unfold writeToken
  split
  · exact .refl s
  · split
    · exact .refl s
    · refine .after (hostWrite_frame ..) (.after (countPoison_frame ..) (.foldl (fun _ _ => ?_) (.ite (.foldl (fun _ _ => hostWrite_frame ..) ?_) ?_)))
      · exact .after (hostWrite_frame ..) (.after (hostWriteAs_frame ..) (hostWriteAs_frame ..))
      all_goals exact .after (markSat_frame ..) (.ite (drawn_frame s).mono (.refl s))

/-- What an answer of the allocator touches. -/
def allocParts : List StatePart := [.cmds, .items, .blocks, .regions, .e2e, .localRels, .od, .paged, .mem, .memPoison, .ports, .fresh]

theorem actionTorn_frame (uid : Nat) (s : State) : Frame (.od :: endParts) s (actionTorn uid s) := (actionTorn_drops uid s).1

theorem endCmd_frame' (uid status detail : Nat) (s : State) : Frame endParts s (endCmd uid status detail s) := (endCmd_drops uid status detail s).1

/-- The frames and leaf slots of a granted request. -/
theorem granted_frame (c : Cmd) (w : AppendWork) (p q n m k : Nat) (s : State) :
    Frame allocParts s (modCmd c.uid (fun c => { c with append := some w })
      (takeLeaves k (takeFrames q m (takeFrames p n s).2).2).2) :=
  .after (modCmd_frame ..) (.after (takeLeaves_frame ..) (.after (takeFrames_frame ..) (takeFrames_frame ..).mono))

theorem allocate_frame {c : Cmd} {s t : State} (h : allocate c s = some t) : Frame allocParts s t := by
  revert h
  unfold allocate
  dsimp only
  split
  · rintro ⟨⟩; exact (actionTorn_frame ..).mono
  · split
    · rintro ⟨⟩; exact (endCmd_frame' ..).mono
    · split
      · rintro ⟨⟩; exact (actionTorn_frame ..).mono
      · split
        · rintro ⟨⟩; exact (endCmd_frame' ..).mono
        · split
          · rintro ⟨⟩
          · rintro ⟨⟩
            exact .ite (.after (writeToken_frame ..) (granted_frame ..)) (granted_frame ..)

theorem allocEvent_frame (c : Cmd) (s : State) : Frame allocParts s (allocEvent c s) := by
  unfold allocEvent
  dsimp only
  have asked : Frame allocParts s (askFrames c s) := (askFrames_frame c s).mono
  split
  · exact asked
  · next c' _ =>
    refine .ite ?_ asked
    cases answer : allocate c' (askFrames c s) with
    | none => exact asked
    | some t => exact asked.trans (allocate_frame answer)

theorem commitToken_frame (c : Cmd) (w : AppendWork) (v : Nat) (s : State) : Frame (.cmds :: memParts) s (commitToken c w v s) := by
  unfold commitToken
  dsimp only
  refine .ite (.after (writeToken_frame ..) ?_) ?_
  all_goals exact .after (modCmd_frame ..) (.after (writeRoot_frame ..) (.ite (raiseRefs_frame ..).mono (.refl s)))

theorem promote_frame (c : Cmd) (w : AppendWork) (v : Nat) (s : State) : Frame (.cmds :: memParts) s (promote c w v s) := by
  unfold promote
  exact .after (modCmd_frame ..) (.ite (.after (flagCmd_frame ..) (writeSealed_frame ..)) (writeSealed_frame ..))

theorem rebuild_frame (c : Cmd) (w : AppendWork) (v i : Nat) (s : State) : Frame (.cmds :: memParts) s (rebuild c w v i s) := by
  unfold rebuild
  exact .after (modCmd_frame ..) (.after (writeSealed_frame ..) (.ite (.after (show Frame [.fresh] (markSat _ _ s) _ from rfl) (markSat_frame ..).mono)
    (markSat_frame ..).mono))

theorem commitPage_frame (c : Cmd) (w : AppendWork) (v f : Nat) (s : State) : Frame (.cmds :: poolParts) s (commitPage c w v f s) := by
  have committed (g : Cmd → Cmd) (n i e r : Nat) (u : State) (h : Frame (.cmds :: memParts) s u) : Frame (.cmds :: poolParts) s
      (modCmd c.uid g (retireFrame n (writeRoot (cSeq c.desc) (cLayer c.desc) r (.cmd c.uid 320) (raiseRefs f (cSeq c.desc) (cLayer c.desc) i u)))) :=
    .after (modCmd_frame ..) (.after (retireFrame_frame ..) (.after (writeRoot_frame ..) (.after (raiseRefs_frame ..) h.mono)))
  unfold commitPage
  dsimp only
  refine .ite (.after (writeToken_frame ..) ?_) ?_
  all_goals exact committed _ _ _ 0 _ _ (.ite (.after (writeEntry_frame ..) (writeSlot_frame ..)) (writeEntry_frame ..))

theorem commitRestore_frame (c : Cmd) (w : AppendWork) (v f : Nat) (s : State) : Frame (.cmds :: peatParts) s (commitRestore c w v f s) := by
  unfold commitRestore
  exact .after (odBump_frame ..) (.after (modCmd_frame ..) (.after (peatForget_frame ..) (.after (raiseRefs_frame ..) (writeEntry_frame ..).mono)))

end Sys2Proof.Machine
end

section
/-! The statement on completions and their records (chapters 09 and 10). -/

namespace Sys2Proof.Machine

-- one proof at a time, for the memory that the check allows
set_option Elab.async false

/-! ### Lists of commands -/

theorem cmdOf_map {s t : State} {f : Cmd → Cmd} (names : ∀ x, (f x).uid = x.uid) (h : t.front.cmds = s.front.cmds.map f) (uid : Nat) :
    cmdOf t uid = (cmdOf s uid).map f := by
  have same : (fun c : Cmd => decide (c.uid = uid)) ∘ f = fun c => decide (c.uid = uid) := by
    funext x
    simp [names]
  unfold cmdOf
  rw [h, List.find?_map, same]

theorem cmdOf_isSome_of_mem {s : State} {c : Cmd} (h : c ∈ s.front.cmds) : ∃ c', cmdOf s c.uid = some c' :=
  Option.isSome_iff_exists.mp (List.find?_isSome.mpr ⟨c, h, by simp⟩)

/-! ### The decision (R278, R280) -/

/-- The record of a command that has just been decided. -/
def decidedCmd (c : Cmd) (fc status detail : Nat) : Cmd :=
  { c with decided := true, decidedFc := fc, status := status
           detail := if status = stDescInvalid ∨ status = stLimit ∨ status = stArgInvalid then detail else noDetail
           pin := none, edit := none, append := none, pages := [], partials := [], held := [], coll := none }

/-- What the decision does to a command in flight: it waits for `uid` no more, may be held to the next FC, and may fail with it. -/
def Told (uid : Nat) (x y : Cmd) : Prop :=
  ∃ ready reject, y = { x with waits := x.waits.filter (· != uid), readyFc := ready, reject := reject }

/-- A decision puts the decided record and tells every command. -/
theorem decideCmd_cmds {uid : Nat} {s : State} {c : Cmd} (h : cmdOf s uid = some c) (status detail : Nat) :
    ∃ told : Cmd → Cmd, (∀ x, Told uid x (told x))
      ∧ (decideCmd uid status detail s).front.cmds = (putCmd (decidedCmd c s.clocks.fc status detail) s).front.cmds.map told := by
  let u := putCmd (decidedCmd c s.clocks.fc status detail) (returnFrames c s)
  let told : Cmd → Cmd := fun x =>
    let y := { x with waits := x.waits.filter (· != uid), readyFc := if !x.dispatched && waitedOn u c x then u.clocks.fc + 1 else x.readyFc }
    if x.waits.contains uid && dStrict x.desc && !statusOk status && !x.decided then addReject y (stDepFailed, noDetail) else y
  have frame := returnFrames_frame c s
  refine ⟨told, fun x => ?_, ?_⟩
  · dsimp only [told]
    split
    · rw [addReject_eq]
      exact ⟨_, _, rfl⟩
    · exact ⟨_, x.reject, rfl⟩
  · have clock : (returnFrames c s).clocks = s.clocks := frame.get State.clocks
    have returned : (returnFrames c s).front.cmds = s.front.cmds := frame.get (·.front.cmds)
    have cmds : u.front.cmds = (putCmd (decidedCmd c s.clocks.fc status detail) s).front.cmds := by
      dsimp only [u, putCmd]
      rw [returned]
    unfold decideCmd
    rw [h]
    dsimp only
    rw [trace_front, clock, ← cmds]
    split <;> rfl

/-- The names of the commands in flight: number and descriptor, in order. -/
def names (s : State) : List (Nat × Descriptor) := s.front.cmds.map fun x => (x.uid, x.desc)

/-- After the decision: the record is found under its number, the commands keep their names, and none waits on it. -/
theorem decideCmd_spec {uid : Nat} {s : State} {c : Cmd} (h : cmdOf s uid = some c) (status detail : Nat) :
    (∃ x, cmdOf (decideCmd uid status detail s) uid = some x ∧ x.decided = true ∧ x.decidedFc = s.clocks.fc ∧ x.pin = none ∧ x.status = status)
    ∧ names (decideCmd uid status detail s) = names s
    ∧ ∀ y ∈ (decideCmd uid status detail s).front.cmds, uid ∉ y.waits := by
  obtain ⟨told, tells, cmds⟩ := decideCmd_cmds h status detail
  have named (x : Cmd) : (told x).uid = x.uid ∧ (told x).desc = x.desc := by
    obtain ⟨_, _, eq⟩ := tells x
    rw [eq]
    exact ⟨rfl, rfl⟩
  obtain rfl : c.uid = uid := uid_of_cmdOf h
  refine ⟨?_, ?_, fun y mem => ?_⟩
  · have found := cmdOf_putCmd_same (s := s) (x := decidedCmd c s.clocks.fc status detail) h
    have here : cmdOf (decideCmd c.uid status detail s) c.uid
        = (cmdOf (putCmd (decidedCmd c s.clocks.fc status detail) s) c.uid).map told := cmdOf_map (fun x => (named x).1) cmds _
    obtain ⟨_, _, eq⟩ := tells (decidedCmd c s.clocks.fc status detail)
    refine ⟨told (decidedCmd c s.clocks.fc status detail), here.trans (congrArg (Option.map told) found), ?_⟩
    rw [eq]
    exact ⟨rfl, rfl, rfl, rfl⟩
  · unfold names
    rw [cmds, List.map_map]
    refine (List.map_congr_left (g := fun x : Cmd => (x.uid, x.desc)) fun x _ => by simp [named]).trans ?_
    exact (List.map_map ..).trans (List.map_congr_left fun x _ => by
      by_cases same : x.uid = c.uid
      · simp [Function.comp, same, decidedCmd]
      · simp [Function.comp, decidedCmd, same])
  · rw [cmds] at mem
    obtain ⟨x, _, rfl⟩ := List.mem_map.mp mem
    obtain ⟨_, _, eq⟩ := tells x
    rw [eq]
    simp

/-! ### Before the decision (R285, R301) -/

theorem spoilPlaces_frame (c : Cmd) (s : State) : Frame [.mem, .regions, .sp, .fresh] s (spoilPlaces c s) := by
  unfold spoilPlaces
  exact .foldl (fun _ _ => .ite (.refl _) (.foldl (fun _ _ => .ite (spoil_frame ..) (.foldl (fun _ _ => spoil_frame ..) (.refl _))) (.refl _)))
    (.ite (spoil_frame ..) (.refl s))

theorem spoilOutputs_frame (c : Cmd) (status : Nat) (s : State) : Frame [.mem, .regions, .sp, .fresh] s (spoilOutputs c status s) :=
  .ite (spoilPlaces_frame ..) (.refl s)

theorem spoilOverlap_frame (c : Cmd) (s : State) : Frame [.mem, .regions, .sp, .fresh] s (spoilOverlap c s) :=
  .ite (spoilPlaces_frame ..) (.refl s)

/-- A count of a command's record, which keeps its name. -/
theorem countReceived_cmds (c : Cmd) (s : State) : ∃ g : Cmd → Cmd, (∀ x, (g x).uid = x.uid ∧ (g x).desc = x.desc)
    ∧ (countReceived c s).front.cmds = s.front.cmds.map g ∧ (countReceived c s).clocks = s.clocks := by
  unfold countReceived
  split
  · next k _ =>
    refine ⟨_, fun x => ?_, rfl, rfl⟩
    split <;> exact ⟨rfl, rfl⟩
  · exact ⟨id, fun _ => ⟨rfl, rfl⟩, by simp, rfl⟩

/-- The state in which a command that is no collective is decided, and its status. -/
theorem complete_eq {c : Cmd} {s : State} (local_ : isColl c.desc = false) : ∃ (status detail : Nat) (u : State),
    complete c s = decideCmd c.uid status detail u ∧ Frame [.mem, .regions, .sp, .fresh] (countReceived c s) u
    ∧ status = (match c.ending with
        | some e => e.1
        | none => if c.marked ≠ [] then 0x0300 else if c.flags ≠ 0 then 1 else 0) := by
  unfold complete
  dsimp only
  cases ending : c.ending with
  | none => exact ⟨_, _, _, rfl, spoilOverlap_frame .., rfl⟩
  | some e =>
    refine ⟨e.1, e.2, _, rfl, ?_, rfl⟩
    have untold : tellGroup c (spoilOutputs c e.1 (countReceived c s)) = spoilOutputs c e.1 (countReceived c s) :=
      if_neg (by simp [local_])
    rw [untold]
    exact spoilOutputs_frame ..

/-- The completion of a command in flight. -/
theorem complete_spec {c : Cmd} {s : State} (mem : c ∈ s.front.cmds) (local_ : isColl c.desc = false) :
    (∃ x, cmdOf (complete c s) c.uid = some x ∧ x.decided = true ∧ x.decidedFc = s.clocks.fc ∧ x.pin = none
      ∧ x.status = (match c.ending with
        | some e => e.1
        | none => if c.marked ≠ [] then 0x0300 else if c.flags ≠ 0 then 1 else 0))
    ∧ names (complete c s) = names s
    ∧ ∀ y ∈ (complete c s).front.cmds, c.uid ∉ y.waits := by
  obtain ⟨status, detail, u, decided, frame, outcome⟩ := complete_eq (s := s) local_
  obtain ⟨g, keeps, cmds, clocks⟩ := countReceived_cmds c s
  have before : u.front.cmds = s.front.cmds.map g := (frame.get (·.front.cmds)).trans cmds
  have clock : u.clocks = s.clocks := (frame.get State.clocks).trans clocks
  obtain ⟨c', found⟩ := cmdOf_isSome_of_mem mem
  have here : cmdOf u c.uid = some (g c') := by rw [cmdOf_map (fun x => (keeps x).1) before, found]; rfl
  obtain ⟨⟨x, known, isDecided, fc, pin, st⟩, named, waits⟩ := decideCmd_spec here status detail
  rw [decided]
  refine ⟨⟨x, known, isDecided, fc.trans (congrArg Clocks.fc clock), pin, st.trans outcome⟩, named.trans ?_, waits⟩
  unfold names
  rw [before, List.map_map]
  exact List.map_congr_left fun x _ => by simp [keeps]

/-! ### The row (R279, R280) -/

theorem exec_completionDecided {s : State} {tag : Nat} {c : Cmd} (held : byTag s tag = some c) :
    exec (.completionDecided tag) s = event (live s && decidable s c) s (complete c s) := by
  show execCompletionDecided tag s = _
  unfold execCompletionDecided
  rw [held]

theorem decidable_eq_true {s : State} {c : Cmd} : decidable s c = true ↔ c.decided = false ∧ c.writesOut = 0
    ∧ (c.ending.isSome = true ∨ (c.dispatched = true ∧ workDone s c = true ∧ c.acksOut = 0 ∧ s.clocks.fc ≥ c.readyFc)) := by
  simp only [decidable, Bool.and_eq_true, Bool.or_eq_true, decide_eq_true_eq, Bool.not_eq_true']
  tauto

theorem workDone_fence (s : State) {c : Cmd} (fence : dOp c.desc = 0x62) : workDone s c = true ↔
    ∀ x ∈ s.front.cmds, x.uid < c.uid → bit (fld c.desc 256 64) (dStream x.desc) = true → x.decided = true := by
  have met : workDone s c = fenceMet s c := by simp [workDone, fence]
  rw [met]
  simp only [fenceMet, Bool.not_eq_true', List.any_eq_false, Bool.and_eq_true, decide_eq_true_eq]
  grind

/-! ### The record that goes next (R280, R281) -/

/-- The decision of `a` is the earlier one, or of the same FC with a tag that is not higher. -/
def Sooner (a x : Cmd) : Prop := a.decidedFc < x.decidedFc ∨ (a.decidedFc = x.decidedFc ∧ dTag a.desc ≤ dTag x.desc)

theorem nextRecord_spec {s : State} {c : Cmd} (h : nextRecord s = some c) :
    c ∈ s.front.cmds ∧ c.decided = true ∧ ∀ x ∈ s.front.cmds, x.decided = true → Sooner c x := by
  have general (l : List Cmd) (b : Option Cmd) : ∀ c, l.foldl (fun b c =>
      if !c.decided then b
      else match b with
        | none => some c
        | some x => if c.decidedFc < x.decidedFc || (c.decidedFc == x.decidedFc && dTag c.desc < dTag x.desc) then some c else b) b = some c →
      ((c ∈ l ∧ c.decided = true) ∨ b = some c) ∧ (∀ x ∈ l, x.decided = true → Sooner c x) ∧ ∀ x, b = some x → Sooner c x := by
    induction l generalizing b with
    | nil =>
      rintro c rfl
      exact ⟨.inr rfl, by simp, fun x hx => by obtain rfl := Option.some.inj hx; exact .inr ⟨rfl, le_refl _⟩⟩
    | cons a l ih =>
      intro c found
      obtain ⟨from_, rest, first⟩ := ih _ c found
      clear ih found
      simp only [Sooner] at rest first ⊢
      cases b <;> by_cases decided : a.decided = true <;> grind
  obtain ⟨mem, sooner, _⟩ := general s.front.cmds none c h
  obtain ⟨mem, decided⟩ := mem.resolve_right (by simp)
  exact ⟨mem, decided, sooner⟩

theorem sendRecord_frame (s : State) : Frame [.credits, .egress, .cmds, .refusals, .sent] s (sendRecord s) := by
  unfold sendRecord
  have credits (t : State) : Frame [.credits] t (topUp t) := topUp_eq t
  split
  · exact .after (credits _) rfl
  · rfl
  · exact .refl s

/-- One record leaves: the oldest refusal, or the record of the soonest decided command. -/
theorem sendRecord_spec {s : State} (waiting : recordWaiting s = true) : (sendRecord s).front.egress = s.front.egress - 1 ∧
    ((∃ r rest, s.front.refusals = r :: rest ∧ (sendRecord s).front.refusals = rest ∧ (sendRecord s).front.sent = s.front.sent ++ [r.2]
        ∧ (sendRecord s).front.cmds = s.front.cmds)
    ∨ (∃ c, nextRecord s = some c ∧ (sendRecord s).front.sent = s.front.sent ++ [cmdRecord c] ∧ (sendRecord s).front.refusals = s.front.refusals
        ∧ (sendRecord s).front.cmds = s.front.cmds.filter (fun x => x.uid != c.uid)
        ∧ ∀ r, s.front.refusals.head? = some r → c.decidedFc < r.1 ∨ (c.decidedFc = r.1 ∧ dTag c.desc ≤ bits r.2.toNat 0 9))) := by
  have topped (t : State) : (topUp t).front.egress = t.front.egress ∧ (topUp t).front.refusals = t.front.refusals
      ∧ (topUp t).front.sent = t.front.sent ∧ (topUp t).front.cmds = t.front.cmds := by
    rw [topUp_eq]
    exact ⟨rfl, rfl, rfl, rfl⟩
  unfold sendRecord
  dsimp only
  cases refusal : refusalNext s with
  | some r =>
    have first : s.front.refusals.head? = some r := by
      unfold refusalNext at refusal
      split at refusal
      · split at refusal <;> simp_all
      · exact refusal
    obtain ⟨rest, list⟩ := List.head?_eq_some_iff.mp first
    dsimp only
    obtain ⟨egress, refusals, sent, cmds⟩ := topped { s with front := { s.front with
      refusals := s.front.refusals.tail, sent := s.front.sent ++ [r.2], egress := s.front.egress - 1 } }
    exact ⟨egress, .inl ⟨r, rest, list, refusals.trans (by rw [list]; rfl), sent, cmds⟩⟩
  | none =>
    cases next : nextRecord s with
    | some c =>
      refine ⟨rfl, .inr ⟨c, rfl, rfl, rfl, rfl, fun r first => ?_⟩⟩
      unfold refusalNext at refusal
      simp only [first, next] at refusal
      simp only [ite_eq_right_iff, reduceCtorEq, imp_false, Bool.or_eq_true, decide_eq_true_eq, Bool.and_eq_true, beq_iff_eq] at refusal
      omega
    | none =>
      unfold refusalNext at refusal
      unfold recordWaiting at waiting
      simp only [next] at refusal waiting
      cases list : s.front.refusals <;> simp_all

/-- Settles O22: the enabling condition is read off the command, the decision tells every command, and the record that leaves
is the soonest. -/
theorem completionRows : Obligations.CompletionRows := by
  refine ⟨fun s tag c runs held => ⟨fun waits => ?_, fun undecided written ready local_ => ?_⟩,
    fun s tag c runs held fence dispatched undecided going written acked due => ?_, fun s runs credit waiting => ?_⟩
  · rw [exec_completionDecided held]
    refine event_not ?_
    have stands : ¬ decidable s c = true := fun ok => by
      obtain ⟨undecided, written, ready⟩ := decidable_eq_true.mp ok
      obtain decided | open_ | ⟨going, none⟩ := waits
      · simp [undecided] at decided
      · exact open_ written
      · simp only [going, Option.isSome_none, Bool.false_eq_true, false_or] at ready
        obtain ⟨dispatched, done, acked, due⟩ := ready
        obtain idle | busy | owed | early := none
        · simp [idle] at dispatched
        · simp [busy] at done
        · exact owed acked
        · omega
    simp [stands]
  · have row := exec_completionDecided (s := s) held
    rw [event_of (by simp [runs, decidable_eq_true.mpr ⟨undecided, written, ready⟩])] at row
    obtain ⟨⟨x, known, decided, fc, pin, status⟩, named, waits⟩ := complete_spec (mem_of_byTag held) local_
    exact ⟨_, x, row, known, decided, fc, pin, status, named, waits⟩
  · have local_ : isColl c.desc = false := by simp [isColl, fence]
    rw [exec_completionDecided held]
    refine ⟨fun all => ?_, fun ⟨x, mem, earlier, masked, open_⟩ => event_not ?_⟩
    · have done := (workDone_fence s fence).mpr all
      obtain ⟨⟨x, known, decided, _⟩, _⟩ := complete_spec (mem_of_byTag held) local_
      exact ⟨_, x, event_of (by simp [runs, decidable_eq_true.mpr ⟨undecided, written, .inr ⟨dispatched, done, acked, due⟩⟩]), known, decided⟩
    · have busy : workDone s c = false := by
        by_contra done
        have decided := (workDone_fence s fence).mp (by simpa using done) x mem earlier masked
        simp [open_] at decided
      simp [decidable, going, busy]
  · obtain ⟨egress, leaves⟩ := sendRecord_spec waiting
    have frame : Frame [.credits, .egress, .cmds, .refusals, .sent, .mire] s (apexProgress (sendRecord s)) :=
      .after (apexProgress_frame _) (sendRecord_frame s).mono
    refine ⟨apexProgress (sendRecord s), event_exact (by simp [runs, credit, waiting]) (frame.get State.pending), ?_, egress, ?_⟩
    · have whole := (sendRecord_frame s).mono (qs := [.credits, .egress, .nextUid, .cmds, .refusals, .sent, .lastStream, .items, .switching, .spoiled])
      exact congrArg apexProgress whole
    · obtain refused | ⟨c, next, sent, refusals, cmds, later⟩ := leaves
      · exact .inl refused
      · obtain ⟨mem, decided, sooner⟩ := nextRecord_spec next
        exact .inr ⟨c, mem, decided, sent, refusals, cmds, sooner, later⟩

end Sys2Proof.Machine
end

section
/-! The statement on the memory ports (chapters 10 and 16). -/

namespace Sys2Proof.Machine

-- one proof at a time, for the memory that the check allows
set_option Elab.async false

/-! ### Addresses and ports (R294) -/

theorem portOf_lt (a : Nat) : portOf a < 16 := by
  have low (n lo : Nat) : bits n lo 4 < 2 ^ 4 := bits_lt ..
  exact Nat.xor_lt_two_pow (Nat.xor_lt_two_pow (Nat.xor_lt_two_pow (low ..) (low ..)) (low ..)) (low ..)

/-- A bit field from bit 7 up is a field of the line number. -/
theorem bits_line (a k w : Nat) : bits a (7 + k) w = bits (a / 128) k w := by
  have line : 2 ^ (7 + k) = 128 * 2 ^ k := by rw [Nat.pow_add]
  rw [bits, bits, line, Nat.div_div_eq_div_mul]

theorem portOf_line {a a' : Nat} (same : a / 128 = a' / 128) : portOf a = portOf a' := by
  have field (k : Nat) : bits a (7 + k) 4 = bits a' (7 + k) 4 := by rw [bits_line, bits_line, same]
  unfold portOf
  rw [field 0, field 4, field 8, field 12]

/-- A request joins the end of its port's queue; reads it overtakes only learn which bytes it writes. -/
theorem queue_enqueue (q : MemReq) (s : State) : ((mportAt (enqueue q s) (portOf q.addr)).queue.map (·.addr))
    = (mportAt s (portOf q.addr)).queue.map (·.addr) ++ [q.addr] := by
  have address (r : MemReq) : (overtaken q r).addr = r.addr := by
    unfold overtaken
    split <;> rfl
  unfold enqueue
  rw [mportAt_putMport, if_pos rfl, List.map_append, List.map_map]
  exact congrArg (· ++ [q.addr]) (List.map_congr_left fun r _ => address r)

theorem mportAt_enqueue_other {q : MemReq} {n : Nat} (other : n ≠ portOf q.addr) (s : State) : mportAt (enqueue q s) n = mportAt s n := by
  unfold enqueue
  rw [mportAt_putMport, if_neg other]

/-! ### Requests that may go (R294) -/

/-- The requests that may go are those that none of the same line precedes. -/
theorem mem_freeReqs {q : MemReq} {l : List MemReq} {seen : List Nat} : q ∈ freeReqs l seen ↔
    ∃ pre rest, l = pre ++ q :: rest ∧ (∀ x ∈ pre, x.addr ≠ q.addr) ∧ q.addr ∉ seen := by
  induction l generalizing seen with
  | nil => simp [freeReqs]
  | cons a r ih =>
    unfold freeReqs
    by_cases blocked : seen.contains a.addr = true
    · rw [if_pos blocked, ih]
      have before : a.addr ∈ seen := by simpa using blocked
      constructor
      · rintro ⟨pre, rest, rfl, first, new⟩
        refine ⟨a :: pre, rest, rfl, fun x mem => ?_, new⟩
        obtain rfl | mem := List.mem_cons.mp mem
        · exact fun same => new (same ▸ before)
        · exact first x mem
      · rintro ⟨pre, rest, split, first, new⟩
        obtain _ | ⟨b, pre⟩ := pre
        · obtain ⟨rfl, rfl⟩ := List.cons.inj split
          exact absurd before new
        · obtain ⟨rfl, rfl⟩ := List.cons.inj split
          exact ⟨pre, rest, rfl, fun x mem => first x (List.mem_cons_of_mem _ mem), new⟩
    · rw [if_neg blocked, List.mem_cons, ih]
      have after : a.addr ∉ seen := by simpa using blocked
      constructor
      · rintro (rfl | ⟨pre, rest, rfl, first, new⟩)
        · exact ⟨[], r, rfl, by simp, after⟩
        · rw [List.mem_cons, not_or] at new
          refine ⟨a :: pre, rest, rfl, fun x mem => ?_, new.2⟩
          obtain rfl | mem := List.mem_cons.mp mem
          · exact fun same => new.1 same.symm
          · exact first x mem
      · rintro ⟨pre, rest, split, first, new⟩
        obtain _ | ⟨b, pre⟩ := pre
        · exact .inl (List.cons.inj split).1.symm
        · obtain ⟨rfl, rfl⟩ := List.cons.inj split
          refine .inr ⟨pre, rest, rfl, fun x mem => first x (List.mem_cons_of_mem _ mem), ?_⟩
          rw [List.mem_cons, not_or]
          exact ⟨fun same => first a (List.mem_cons_self ..) same.symm, new⟩

/-- An identifier is free for a further request of the kind (R470). -/
def hasRoom (p : MemPort) (q : MemReq) : Bool := decide ((if q.write then p.writes.length else p.reads.length) < 4096)

/-- The requests of region `r` that may go from a port. -/
def ready (p : MemPort) (r : Nat) : List MemReq := ((freeReqs p.queue []).filter (hasRoom p)).filter fun q => reqRegion q = r

/-- The better of the best so far and the next. -/
def better {α : Type} (f : α → α → α) : Option α → α → Option α
  | none, q => some q
  | some x, q => some (f x q)

/-- The best of a list, by a comparison of two, is one of it, and stands wherever the list is not empty. -/
theorem best_of_list {α : Type} (f : α → α → α) (pick : ∀ x q, f x q = x ∨ f x q = q) (l : List α) :
    (∀ q, l.foldl (better f) none = some q → q ∈ l)
    ∧ (l ≠ [] → l.foldl (better f) none ≠ none) := by
  have general (l : List α) (x : α) : ∃ q, l.foldl (better f) (some x) = some q
      ∧ (q = x ∨ q ∈ l) := by
    induction l generalizing x with
    | nil => exact ⟨x, rfl, .inl rfl⟩
    | cons a l ih =>
      obtain ⟨q, found, from_⟩ := ih (f x a)
      refine ⟨q, found, ?_⟩
      obtain same | same := pick x a <;> rw [same] at from_ <;> grind
  obtain _ | ⟨a, l⟩ := l
  · simp
  · obtain ⟨q, found, from_⟩ := general l a
    rw [List.foldl_cons]
    refine ⟨fun q' h => ?_, fun _ none => ?_⟩
    · obtain rfl := Option.some.inj (found.symm.trans h)
      exact List.mem_cons.mpr from_
    · exact Option.some_ne_none q (found.symm.trans none)

/-- Of a region, the one of its ready requests that goes first (R194). -/
def bestOf (s : State) (p : MemPort) (r : Nat) : Option MemReq :=
  (ready p r).foldl (fun m q => match m with | none => some q | some x => if reqBefore s x q then some x else some q) none

theorem bestOf_spec (s : State) (p : MemPort) (r : Nat) :
    (∀ q, bestOf s p r = some q → q ∈ ready p r) ∧ (ready p r ≠ [] → bestOf s p r ≠ none) := by
  have same : bestOf s p r = (ready p r).foldl (better fun x q => if reqBefore s x q then x else q) none := by
    unfold bestOf
    congr 1
    funext m q
    cases m with
    | none => rfl
    | some x => exact (apply_ite some _ _ _).symm
  rw [same]
  exact best_of_list (fun x q => if reqBefore s x q then x else q) (fun x q => by split <;> simp) (ready p r)

/-- The regions of a port, the one after the last served first. -/
def turns (p : MemPort) : List Nat := (List.range 9).map fun i => (p.lastRegion + 1 + i) % 9

theorem nextRequest_eq (s : State) (n : Nat) : nextRequest s n = (turns (mportAt s n)).findSome? (bestOf s (mportAt s n)) := rfl

/-- The request that goes is one of the port that none of its line precedes, and has room. -/
theorem nextRequest_spec {s : State} {n : Nat} {q : MemReq} (h : nextRequest s n = some q) :
    (∃ pre rest, (mportAt s n).queue = pre ++ q :: rest ∧ ∀ x ∈ pre, x.addr ≠ q.addr) ∧ hasRoom (mportAt s n) q = true := by
  rw [nextRequest_eq] at h
  obtain ⟨r, _, found⟩ := List.exists_of_findSome?_eq_some h
  have mem := (bestOf_spec ..).1 q found
  rw [ready, List.mem_filter, List.mem_filter] at mem
  obtain ⟨pre, rest, queue, first, _⟩ := mem_freeReqs.mp mem.1.1
  exact ⟨⟨pre, rest, queue, first⟩, mem.1.2⟩

theorem hasRoom_of_both {p : MemPort} (reads : p.reads.length < 4096) (writes : p.writes.length < 4096) (q : MemReq) : hasRoom p q = true := by
  unfold hasRoom
  cases q.write <;> simpa

/-! ### Turns (R18) -/

/-- With room for either kind, a waiting request makes the port find one. -/
theorem nextRequest_ne_none {s : State} {n : Nat} (regions : ∀ x ∈ (mportAt s n).queue, reqRegion x ≤ 8)
    (reads : (mportAt s n).reads.length < 4096) (writes : (mportAt s n).writes.length < 4096) (some : (mportAt s n).queue ≠ []) :
    nextRequest s n ≠ none := by
  obtain ⟨q, rest, queue⟩ := List.exists_cons_of_ne_nil some
  have known : reqRegion q ≤ 8 := regions q (by simp [queue])
  have free : q ∈ ready (mportAt s n) (reqRegion q) := by
    have first : q ∈ freeReqs (mportAt s n).queue [] := mem_freeReqs.mpr ⟨[], rest, queue, by simp, by simp⟩
    simp [ready, first, hasRoom_of_both reads writes]
  have turn : reqRegion q ∈ turns (mportAt s n) := by
    refine List.mem_map.mpr ⟨(reqRegion q + 9 - ((mportAt s n).lastRegion + 1) % 9) % 9, List.mem_range.mpr (Nat.mod_lt _ (by decide)), ?_⟩
    omega
  intro none
  rw [nextRequest_eq, List.findSome?_eq_none_iff] at none
  exact (bestOf_spec ..).2 (List.ne_nil_of_mem free) (none _ turn)

/-- No region before the served one has a request that could go. -/
theorem earlier_turn_blocked {s : State} {n : Nat} {q x : MemReq} {i k : Nat} {pre rest : List MemReq}
    (reads : (mportAt s n).reads.length < 4096) (writes : (mportAt s n).writes.length < 4096) (served : nextRequest s n = some q)
    (bound : k < 9) (before : i < k) (turnQ : reqRegion q = ((mportAt s n).lastRegion + 1 + k) % 9)
    (turnX : reqRegion x = ((mportAt s n).lastRegion + 1 + i) % 9) (queue : (mportAt s n).queue = pre ++ x :: rest) :
    ∃ y ∈ pre, y.addr = x.addr := by
  by_contra none
  have first : x ∈ freeReqs (mportAt s n).queue [] :=
    mem_freeReqs.mpr ⟨pre, rest, queue, fun y mem same => none ⟨y, mem, same⟩, by simp⟩
  have free : x ∈ ready (mportAt s n) (reqRegion x) := by simp [ready, first, hasRoom_of_both reads writes]
  rw [nextRequest_eq, List.findSome?_eq_some_iff] at served
  obtain ⟨l₁, r, l₂, order, found, skipped⟩ := served
  have region : reqRegion q = r := by
    have mem := (bestOf_spec ..).1 q found
    rw [ready, List.mem_filter] at mem
    simpa using mem.2
  have at_ (j : Nat) (hj : j < 9) : (turns (mportAt s n))[j]'(by simp [turns, hj]) = ((mportAt s n).lastRegion + 1 + j) % 9 := by simp [turns]
  have length : l₁.length < 9 := by
    have total : (turns (mportAt s n)).length = 9 := by simp [turns]
    rw [order] at total
    simp at total
    omega
  have here : ((mportAt s n).lastRegion + 1 + l₁.length) % 9 = r := by
    rw [← at_ _ length]
    simp [order]
  have place : l₁.length = k := by omega
  have early : reqRegion x ∈ l₁ := by
    have got : l₁[i]'(by omega) = reqRegion x := by
      rw [turnX, ← at_ i (by omega)]
      simp only [order]
      rw [List.getElem_append_left]
    exact got ▸ List.getElem_mem _
  exact (bestOf_spec ..).2 (List.ne_nil_of_mem free) (skipped _ early)

/-! ### Issue (R469, R470) -/

/-- Fewer than 4 096 outstanding requests leave an identifier free. -/
theorem freeId_spec {os : List Outst} (room : os.length < 4096) : freeId os < 4096 ∧ ∀ o ∈ os, o.id ≠ freeId os := by
  have some : ∃ i, (List.range 4096).find? (fun i => !os.any fun o => o.id = i) = some i := by
    by_contra none
    have taken : ∀ i < 4096, i ∈ os.map (·.id) := by
      have all := List.find?_eq_none.mp (Option.not_isSome_iff_eq_none.mp fun h => none (Option.isSome_iff_exists.mp h))
      intro i bound
      have := all i (List.mem_range.mpr bound)
      simpa using this
    have sub : List.range 4096 ⊆ os.map (·.id) := fun i mem => taken i (List.mem_range.mp mem)
    have count := (List.nodup_range.subperm sub).length_le
    simp at count
    omega
  obtain ⟨i, found⟩ := some
  have eq : freeId os = i := by
    unfold freeId
    rw [found]
    rfl
  rw [eq]
  refine ⟨List.mem_range.mp (List.mem_of_find?_eq_some found), fun o mem same => ?_⟩
  have free := List.find?_some found
  simp only [Bool.not_eq_true', List.any_eq_false, decide_eq_true_eq] at free
  exact free o mem same

theorem erase_of_first {q : MemReq} {pre rest : List MemReq} (first : ∀ x ∈ pre, x.addr ≠ q.addr) : (pre ++ q :: rest).erase q = pre ++ rest := by
  have new : q ∉ pre := fun mem => first q mem rfl
  rw [List.erase_append_right _ new, List.erase_cons_head]

theorem unstall_frame (b : Nat) (s : State) : Frame [.blocks, .ports] s (unstall b s) :=
  .ite (.refl s) (.foldl (fun _ _ => rfl) rfl)

theorem issueRequest_frame (n : Nat) (q : MemReq) (s : State) : Frame [.blocks, .ports] s (issueRequest n q s) := by
  unfold issueRequest
  dsimp only
  split
  · exact .ite (.after (unstall_frame ..) rfl) rfl
  · rfl

/-- Settles O24: the request that goes is the first of its line, and the turns are searched from the region after the last. -/
theorem memoryPortOrder : Obligations.MemoryPortOrder := by
  refine ⟨fun a => rfl, fun a a' => portOf_line, portOf_lt, fun q s => ⟨queue_enqueue q s, fun n other => mportAt_enqueue_other other s⟩,
    fun n q s runs bound credit served => ?issue, fun n s regions reads writes => ⟨nextRequest_ne_none regions reads writes,
      fun q x i k pre rest served => earlier_turn_blocked reads writes served⟩,
    fun n s runs bound => event_of (by simp [runs, bound])⟩
  case issue =>
    obtain ⟨⟨pre, rest, queue, first⟩, room⟩ := nextRequest_spec served
    have space : (if q.write then (mportAt s n).writes else (mportAt s n).reads).length < 4096 := by
      simpa [hasRoom, apply_ite List.length] using room
    obtain ⟨fresh, unused⟩ := freeId_spec space
    have row : exec (.memRequestIssue n) s = .next (issueRequest n q s) := by
      show execMemRequestIssue n s = _
      unfold execMemRequestIssue
      rw [served]
      exact event_exact (by simp [runs, bound, credit]) ((issueRequest_frame n q s).get State.pending)
    refine ⟨pre, rest, freeId (if q.write then (mportAt s n).writes else (mportAt s n).reads), queue, first, space, unused, fresh, ?_⟩
    rw [row]
    unfold issueRequest putMport
    dsimp only
    rw [queue, erase_of_first first]
    cases q.write <;> rfl

end Sys2Proof.Machine
end

section
/-! The statements on write responses, received releases and acquires (chapters 09, 10 and 15). -/

namespace Sys2Proof.Machine

-- one proof at a time, for the memory that the check allows
set_option Elab.async false

/-! ### Tables -/

/-- What `g` shows of an entry stands through a map that keeps it. -/
theorem tget_map_of {α β : Type} {g : α → β} {f : Nat → α → α} (keeps : ∀ k x, g (f k x) = g x) (d : α) (l : List (Nat × α)) (n : Nat) :
    g (tget d (l.map fun e => (e.1, f e.1 e.2)) n) = g (tget d l n) := by
  induction l with
  | nil => rfl
  | cons e l ih =>
    simp only [List.map_cons, tget]
    split
    · exact keeps ..
    · exact ih

/-- What is read from a table is one of its entries, or the default. -/
theorem tget_mem {α : Type} (d : α) (l : List (Nat × α)) (n : Nat) : (n, tget d l n) ∈ l ∨ tget d l n = d := by
  induction l with
  | nil => exact .inr rfl
  | cons e l ih =>
    obtain ⟨k, v⟩ := e
    simp only [tget]
    split
    · next same => subst same; exact .inl (List.mem_cons_self ..)
    · exact ih.imp (List.mem_cons_of_mem _) id

/-- What holds of an entry stands through a map that keeps it. -/
theorem tget_map_holds {α : Type} {P : α → Prop} {f : Nat → α → α} (keeps : ∀ k x, P x → P (f k x)) {d : α} {l : List (Nat × α)} {n : Nat}
    (h : P (tget d l n)) : P (tget d (l.map fun e => (e.1, f e.1 e.2)) n) := by
  induction l with
  | nil => exact h
  | cons e l ih =>
    simp only [List.map_cons, tget] at h ⊢
    split
    · next same => rw [if_pos same] at h; exact keeps _ _ h
    · next other => rw [if_neg other] at h; exact ih h

/-! ### Commands in flight after an operation -/

theorem cmdOf_of_cmds {s t : State} (h : t.front.cmds = s.front.cmds) (uid : Nat) : cmdOf t uid = cmdOf s uid :=
  congrArg (List.find? fun c : Cmd => decide (c.uid = uid)) h

/-- A change of one command, under its number. -/
theorem cmdOf_modCmd {s : State} {uid : Nat} {c : Cmd} {f : Cmd → Cmd} (names : ∀ x, (f x).uid = x.uid) (h : cmdOf s uid = some c) :
    cmdOf (modCmd uid f s) uid = some (f c) := by
  have mapped := cmdOf_map (s := s) (t := modCmd uid f s) (f := fun x => if x.uid = uid then f x else x)
    (fun x => by split <;> simp [names]) rfl uid
  rw [mapped, h]
  simp [uid_of_cmdOf h]

/-- The record of a command that ends early (R285). -/
def endedCmd (status detail : Nat) (c : Cmd) : Cmd :=
  { c with ending := some (c.reject.getD (status, detail)), pin := none, acksOut := 0, pages := [] }

theorem purge_cmds (uid : Nat) (s : State) : (purge uid s).front.cmds = s.front.cmds := rfl

/-- An early end puts the ended record. -/
theorem endCmd_cmds {uid status detail : Nat} {s : State} {c : Cmd} (h : cmdOf s uid = some c) (undecided : c.decided = false)
    (going : c.ending = none) : (endCmd uid status detail s).front.cmds = (putCmd (endedCmd status detail c) s).front.cmds := by
  unfold endCmd
  rw [h]
  dsimp only
  rw [if_neg (by simp [undecided, going]), purge_cmds, releaseArrivals_eq]
  rfl

theorem cmdOf_endCmd {uid status detail : Nat} {s : State} {c : Cmd} (h : cmdOf s uid = some c) (undecided : c.decided = false)
    (going : c.ending = none) : cmdOf (endCmd uid status detail s) uid = some (endedCmd status detail c) := by
  obtain rfl := uid_of_cmdOf h
  exact (cmdOf_of_cmds (endCmd_cmds h undecided going) _).trans (cmdOf_putCmd_same (x := endedCmd status detail c) h)

/-- An early end leaves the lines of every region's read cache. -/
theorem lines_endCmd (uid status detail : Nat) (s : State) (r : Nat) :
    (regionAt (endCmd uid status detail s) r).lines = (regionAt s r).lines := by
  have purged (u : State) (regions : u.regions = s.regions) : (regionAt (purge uid u) r).lines = (regionAt s r).lines := by
    unfold regionAt purge
    rw [← regions]
    exact tget_map_of (g := Region.lines)
      (f := fun _ x => regionForget (fun v _ => v == uid) { x with walks := x.walks.filter fun w => w.uid != uid })
      (fun _ _ => rfl) region0 u.regions r
  unfold endCmd
  split
  · rfl
  · refine ite_holds (fun u : State => (regionAt u r).lines = (regionAt s r).lines) rfl (purged _ ?_)
    rw [releaseArrivals_eq]
    rfl

/-! ### Write responses (R295, R439) -/

/-- A write that is over is no longer outstanding. -/
def writeOver (n : Nat) (o : Outst) (s : State) : State :=
  putMport n { mportAt s n with writes := (mportAt s n).writes.filter fun x => x.id != o.id } s

theorem writeOver_writes (n : Nat) (o : Outst) (s : State) : ∀ x ∈ (mportAt (writeOver n o s) n).writes, x.id ≠ o.id := by
  unfold writeOver
  rw [mportAt_putMport, if_pos rfl]
  intro x mem
  simpa using (List.mem_filter.mp mem).2

section
variable {n u b : Nat} {o : Outst} {s : State} (kept : o.drop = false) (owner : o.req.owner = .cmd u b)
include kept owner

/-- A good acknowledgement. -/
theorem writeDone_good : writeDone n o false false s = modCmd u (fun c => { c with writesOut := c.writesOut - 1 }) (writeOver n o s) := by
  unfold writeDone
  simp [kept, owner, writeOver]

/-- A failed write is reported, and its command ends. -/
theorem writeDone_failed (inj : Bool) : writeDone n o true inj s = endCmd u stMemFault noDetail
    (modCmd u (fun c => { c with writesOut := c.writesOut - 1 }) (report 0x29 n 0 0 o.req.addr none inj (writeOver n o s))) := by
  unfold writeDone
  simp [kept, owner, writeOver]

/-- What a failed write leaves and whom it ends. -/
theorem writeDone_failed_spec (inj : Bool) : (writeDone n o true inj s).mem = s.mem ∧ (writeDone n o true inj s).sp = s.sp
    ∧ (∀ x ∈ (mportAt (writeDone n o true inj s) n).writes, x.id ≠ o.id)
    ∧ ∀ c, cmdOf s u = some c → c.decided = false → c.ending = none → c.reject = none →
        ∃ x, cmdOf (writeDone n o true inj s) u = some x ∧ x.ending = some (0x0301, 0xFFFF) := by
  have reported := report_frame 0x29 n 0 0 o.req.addr none inj (writeOver n o s)
  have counted : Frame [.cmds, .queues, .od] (writeOver n o s) (modCmd u (fun c => { c with writesOut := c.writesOut - 1 })
    (report 0x29 n 0 0 o.req.addr none inj (writeOver n o s))) := .after (modCmd_frame ..) reported.mono
  have ended : Frame (.queues :: .od :: endParts) (writeOver n o s) (writeDone n o true inj s) := by
    rw [writeDone_failed kept owner]
    exact .after (endCmd_frame' ..) counted.mono
  refine ⟨ended.get State.mem, ended.get State.sp, ?_, fun c found undecided going clean => ?_⟩
  · have same : mportAt (writeDone n o true inj s) n = mportAt (writeOver n o s) n := congrArg (tget mport0 · n) (ended.get State.ports)
    rw [same]
    exact writeOver_writes n o s
  · have found' : cmdOf (report 0x29 n 0 0 o.req.addr none inj (writeOver n o s)) u = some c :=
      (cmdOf_of_cmds (reported.get (·.front.cmds)) u).trans found
    have less := cmdOf_modCmd (f := fun c => { c with writesOut := c.writesOut - 1 }) (fun _ => rfl) found'
    rw [writeDone_failed kept owner]
    exact ⟨_, cmdOf_endCmd less undecided going, by simp [endedCmd, clean, stMemFault, noDetail]⟩

end

theorem writeDone_pending (n : Nat) (o : Outst) (failed inj : Bool) (s : State) : (writeDone n o failed inj s).pending = s.pending := by
  unfold writeDone
  dsimp only
  refine ite_holds (fun u : State => u.pending = s.pending) rfl ?_
  have reported : (if failed = true then report 0x29 n 0 0 o.req.addr none inj (writeOver n o s) else writeOver n o s).pending = s.pending :=
    ite_holds (fun u : State => u.pending = s.pending) ((report_frame ..).get State.pending) rfl
  split
  · exact ite_holds (fun u : State => u.pending = s.pending) (((endCmd_frame' ..).get State.pending).trans reported) reported
  · exact reported
  · exact reported

/-- Settles O27: the response and the timeout both end the request first, then count it in its command and, where it failed, end
the command. -/
theorem writeResponseRow : Obligations.WriteResponseRow := by
  intro n rsp s runs bound unarmed
  refine ⟨fun o u b even found kept owner => ?_, fun stray => ?_, fun id o u b found write kept owner late => ?_⟩
  · have row (failed : Bool) (status : (fld rsp 12 2 != 0) = failed) :
        exec (.memWriteResponse n rsp) s = .next (writeDone n o failed false s) := by
      have taken : memWriteResponse n rsp s = writeDone n o failed false s := by
        unfold memWriteResponse
        simp [found, even, unarmed, status]
      refine (event_exact (by simp [runs, bound]) ?_).trans (congrArg Host.Outcome.next taken)
      rw [taken]
      exact writeDone_pending ..
    refine ⟨fun good => ⟨_, row false (by simp [good]), ?_⟩, fun failed => ⟨_, row true (by simpa using failed), writeDone_failed_spec kept owner false⟩⟩
    rw [writeDone_good kept owner]
    exact ⟨rfl, writeOver_writes n o s, rfl⟩
  · have taken : memWriteResponse n rsp s = report 0x29 n 0 0 0 none false s := by
      unfold memWriteResponse
      obtain odd | unknown := stray
      · simp [odd]
      · simp [unknown]
    refine ⟨_, event_exact (by simp [runs, bound]) ?_, ?_⟩
    all_goals rw [taken]
    · exact (report_frame ..).get State.pending
    · exact (report_frame ..).mono (qs := [.log, .count, .acked, .queues, .armed, .recov, .corrected, .windowOp, .faults, .noAuto, .fatal, .parity, .mire, .od])
  · have taken : memTimeout n o s = writeDone n o true false s := if_pos write
    have row : exec (.memRespTimeout n true id) s = .next (writeDone n o true false s) := by
      show execMemRespTimeout n true id s = _
      unfold execMemRespTimeout
      simp only [if_true, found]
      rw [taken]
      exact event_exact (by simp [runs, bound, late]) (writeDone_pending ..)
    obtain ⟨mem, _, ended, ends⟩ := writeDone_failed_spec (n := n) (s := s) kept owner false
    exact ⟨_, row, mem, ended, ends⟩

/-! ### Received releases (R305, R306) -/

/-- The release that is applied next is ready, and none that is ready comes before it. -/
theorem nextRel_spec {s : State} {r : RemoteRel} (h : nextRel s = some r) :
    r ∈ s.remoteRels ∧ relReady s r = true ∧ ∀ x ∈ s.remoteRels, relReady s x = true → x.fc > r.fc ∨ (x.fc = r.fc ∧ x.port ≥ r.port) := by
  have general (l : List RemoteRel) (m : Option RemoteRel) : ∀ r, l.foldl (fun m r =>
      match m with
      | none => some r
      | some x => if relBefore r x then some r else some x) m = some r →
      (r ∈ l ∨ m = some r) ∧ (∀ x ∈ l, x.fc > r.fc ∨ (x.fc = r.fc ∧ x.port ≥ r.port))
        ∧ ∀ x, m = some x → x.fc > r.fc ∨ (x.fc = r.fc ∧ x.port ≥ r.port) := by
    induction l generalizing m with
    | nil =>
      rintro r rfl
      exact ⟨.inr rfl, by simp, fun x hx => by obtain rfl := Option.some.inj hx; exact .inr ⟨rfl, le_refl _⟩⟩
    | cons a l ih =>
      intro r found
      obtain ⟨from_, rest, first⟩ := ih _ r found
      clear ih found
      cases m with
      | none => grind
      | some y => by_cases before : relBefore a y = true <;> simp only [relBefore, decide_eq_true_eq] at before <;> grind [relBefore]
  obtain ⟨mem, order, _⟩ := general _ none r h
  obtain ⟨mem, ready⟩ := List.mem_filter.mp (mem.resolve_right (by simp))
  exact ⟨mem, ready, fun x hx hr => order x (List.mem_filter.mpr ⟨hx, hr⟩)⟩

/-- No write of the sender that arrived before waits at a port or is outstanding there. -/
theorem peerWritesDone_spec {s : State} {src arr : Nat} (done : peerWritesDone s src arr = true) (n : Nat) (q : MemReq)
    (mem : q ∈ (mportAt s n).queue ++ (mportAt s n).writes.map (·.req)) (a : Nat) (owner : q.owner = .peer src a) : ¬ a < arr := by
  intro early
  have port : (n, mportAt s n) ∈ s.ports ∨ mportAt s n = mport0 := tget_mem ..
  obtain port | empty := port
  · simp only [peerWritesDone, Bool.not_eq_true', List.any_eq_false, Bool.or_eq_true, not_or] at done
    obtain ⟨queue, writes⟩ := done _ port
    obtain mem | mem := List.mem_append.mp mem
    · exact queue (List.any_eq_true.mpr ⟨q, mem, by simp [owner, early]⟩)
    · obtain ⟨o, outstanding, same⟩ := List.mem_map.mp mem
      subst same
      exact writes (List.any_eq_true.mpr ⟨o, outstanding, by simp [owner, early]⟩)
  · rw [empty] at mem
    simp [mport0] at mem

/-- A received release after it has been applied, before its acknowledgement. -/
def relApplied (r : RemoteRel) (s : State) : State :=
  applyRelease r.slot r.add r.val r.scope r.src true s.clocks.fc { s with remoteRels := s.remoteRels.filter fun x => x.arr != r.arr }

theorem relApplied_frame (r : RemoteRel) (s : State) : Frame (.flags :: .remoteRels :: updateParts) s (relApplied r s) :=
  .after (applyRelease_drops ..).1 rfl

theorem relApplied_remoteRels (r : RemoteRel) (s : State) : (relApplied r s).remoteRels = s.remoteRels.filter fun x => x.arr != r.arr :=
  (applyRelease_drops r.slot r.add r.val r.scope r.src true s.clocks.fc { s with remoteRels := s.remoteRels.filter fun x => x.arr != r.arr }).1.get
    State.remoteRels

/-- The acknowledgement of an applied release. -/
def relAcked (r : RemoteRel) (node : Nat) (s : State) : State :=
  apexProgress (if r.src = node then modCmd r.num (fun c => { c with acksOut := c.acksOut - 1 }) s else pushAck r.src r.num 1 s)

theorem relAcked_frame (r : RemoteRel) (node : Nat) (s : State) : Frame [.cmds, .acks, .mire] s (relAcked r node s) :=
  .after (apexProgress_frame _) (.ite rfl rfl)

/-- Settles O29: the release is taken from the list, applied to its slot and acknowledged, and the last two leave each other's
parts alone. -/
theorem remoteReleaseRow : Obligations.RemoteReleaseRow := by
  intro r s runs next
  obtain ⟨mem, ready, first⟩ := nextRel_spec next
  have applied := relApplied_frame r s
  have acked := relAcked_frame r (myNode s) (relApplied r s)
  have queue : (relAcked r (myNode s) (relApplied r s)).pending = s.pending := (acked.get State.pending).trans (applied.get State.pending)
  have row : exec .remoteFlagApply s = .next (relAcked r (myNode s) (relApplied r s)) := by
    show execRemoteFlagApply s = _
    unfold execRemoteFlagApply
    rw [next]
    exact event_exact runs queue
  have slot (j : Nat) : flagAt (relAcked r (myNode s) (relApplied r s)) j
      = if j = r.slot then releasedFlag (flagAt s r.slot) r.add r.val r.scope r.src true s.clocks.fc else flagAt s j := by
    have same : flagAt (relAcked r (myNode s) (relApplied r s)) j = flagAt (relApplied r s) j := congrArg (tget flag0 · j) (acked.get State.flags)
    rw [same, relApplied, flagAt_applyRelease]
    rfl
  have own := slot r.slot
  rw [if_pos rfl] at own
  refine ⟨mem, first, fun system n q => ?_, _, row, ?_, ?_, ?_, ?_, fun j other => ?_, ?_, fun remote => ?_⟩
  · exact peerWritesDone_spec (by simpa [relReady, system] using ready) n q
  · rw [own]; rfl
  · rw [own]; rfl
  · rw [own]; rfl
  · rw [own]; rfl
  · rw [slot, if_neg other]
  · exact (acked.get State.remoteRels).trans (relApplied_remoteRels r s)
  · have acks : (relApplied r s).acks = s.acks := applied.get State.acks
    unfold relAcked
    rw [if_neg remote]
    show (relApplied r s).acks ++ _ = _
    rw [acks]

/-! ### Acquires (R309 to R311) -/

theorem odv_trace_other (kind cls unit payload : Nat) {k l : Nat} (s : State) (other : odKey k l ≠ odKey 0x7200 6) :
    odv (trace kind cls unit payload s) k l = odv s k l := by
  refine ite_holds (fun u : State => odv u k l = odv s k l) ?_ rfl
  exact (odv_odBump_other _ other).trans (odv_of_od ((hostWrite_free_frame rfl ..).get State.od) k l)

theorem odv_wake_other (always : Bool) {k l : Nat} (s : State) (traced : odKey k l ≠ odKey 0x7200 6) (counted : odKey k l ≠ odKey 0x5020 4) :
    odv (wake always s) k l = odv s k l := by
  refine ite_holds (fun u : State => odv u k l = odv s k l) ((odv_trace_other _ _ _ _ _ traced).trans ?_) rfl
  refine (foldl_holds (fun u : State => odv u k l = _) rfl fun u b hu => ite_holds (fun u : State => odv u k l = _) hu ?_).trans
    (odv_odBump_other _ counted)
  exact hu

theorem hostWriteAs_regions (a : Nat) (bs : List Byte) (bad : Bool) (o : MemOwner) (prio : Bool) (s : State) :
    (hostWriteAs a bs bad o prio s).regions = dropLines (addr52 a) bs.length s.regions := by
  have stored (l : List MemReq) (u : State) : (l.foldl (fun s q => present q s) u).regions = u.regions :=
    foldl_holds (fun t : State => t.regions = u.regions) rfl fun t q ht => ((present_frame q t).get State.regions).trans ht
  unfold hostWriteAs
  dsimp only
  split <;> exact stored ..

/-- A write of host memory drops the lines that it touches from every read cache. -/
theorem hostWrite_regions (a : Nat) (bs : List Byte) (bad : Bool) (o : MemOwner) (prio : Bool) (s : State) :
    (hostWrite a bs bad o prio s).regions = dropLines (addr52 a) bs.length s.regions := by
  have length : (freeBytes s bs.length).length = bs.length := by simp [freeBytes]
  unfold hostWrite
  split
  · rw [hostWriteAs_regions, length]
    rfl
  · exact hostWriteAs_regions ..

/-- An emptied read cache stays empty when lines are dropped. -/
theorem lines_dropLines_of_empty {a n r : Nat} {rs : List (Nat × Region)} (empty : (tget region0 rs r).lines = []) :
    (tget region0 (dropLines a n rs) r).lines = [] := by
  refine ite_holds (fun rs => (tget region0 rs r).lines = []) empty ?_
  refine foldl_holds (fun rs => (tget region0 rs r).lines = []) empty fun rs i h => ?_
  exact tget_map_holds (P := fun x => x.lines = [])
    (f := fun _ (x : Region) => { x with lines := tdel (a / 128 + i) x.lines, staged := tdel (a / 128 + i) x.staged, discard := x.discard })
    (fun _ x hx => by rw [hx]; rfl) h

theorem lines_trace_of_empty {kind cls unit payload r : Nat} {s : State} (empty : (regionAt s r).lines = []) :
    (regionAt (trace kind cls unit payload s) r).lines = [] := by
  refine ite_holds (fun u : State => (regionAt u r).lines = []) ?_ empty
  show (tget region0 (hostWrite _ _ false .engine false s).regions r).lines = []
  rw [hostWrite_regions]
  exact lines_dropLines_of_empty empty

theorem lines_wake_of_empty {always : Bool} {r : Nat} {s : State} (empty : (regionAt s r).lines = []) :
    (regionAt (wake always s) r).lines = [] := by
  refine ite_holds (fun u : State => (regionAt u r).lines = []) (lines_trace_of_empty ?_) empty
  exact foldl_holds (fun u : State => (regionAt u r).lines = []) empty fun u b hu => ite_holds (fun u : State => (regionAt u r).lines = []) hu hu

theorem lines_invalidateCaches (s : State) (r : Nat) : (regionAt (invalidateCaches s) r).lines = [] := by
  have emptied (l : List (Nat × Region)) (f : Nat × Region → List Nat) : (tget region0 (l.map fun e =>
      (e.1, { e.2 with lines := [], staged := [], discard := f e })) r).lines = [] := by
    induction l with
    | nil => rfl
    | cons e l ih =>
      simp only [List.map_cons, tget]
      split
      · rfl
      · exact ih
  exact emptied ..

/-- The condition under which a met acquire is flagged (R311). -/
theorem scopeMismatch_iff (f : Flag) (d : Descriptor) : scopeMismatch f d = true ↔ f.scope = 7 ∨ f.scope < fScope d := by
  simp [scopeMismatch]

/-- What a met acquire does to its own record; `inv` says whether it invalidates. -/
def metCmd (fc : Nat) (inv : Bool) (c : Cmd) : Cmd :=
  { c with met := true, countA := fc - c.dispatchFc, invEnd := if inv then fc + 32 else 0 }

/-- A met acquire before the wake event that follows. -/
def acquireMet (uid fc : Nat) (mis inv : Bool) (s : State) : State :=
  modCmd uid (metCmd fc inv) (if mis then odBump 0x2400 3 1 (flagCmd uid 6 s) else s)

section
variable {uid fc : Nat} {c : Cmd} {s : State} {mis inv : Bool}

theorem meetAcquire_eq (h : cmdOf s uid = some c) (mis_ : mis = scopeMismatch (flagAt s (fIdx c.desc)) c.desc)
    (inv_ : inv = decide (fScope c.desc ≥ 3)) :
    meetAcquire uid fc s = wake false (if inv then invalidateCaches (acquireMet uid fc mis inv s) else acquireMet uid fc mis inv s) := by
  subst mis_ inv_
  unfold meetAcquire
  rw [h]
  rfl

theorem cmdOf_acquireMet (h : cmdOf s uid = some c) :
    cmdOf (acquireMet uid fc mis inv s) uid = some (metCmd fc inv { c with flags := if mis then c.flags ||| 64 else c.flags }) := by
  refine cmdOf_modCmd (fun _ => rfl) ?_
  cases mis with
  | false => exact h
  | true => exact cmdOf_modCmd (f := fun c => { c with flags := c.flags ||| BitVec.ofNat 16 (2 ^ 6) }) (fun _ => rfl) h

theorem odv_acquireMet : odv (acquireMet uid fc mis inv s) 0x2400 3 = if mis then (odv s 0x2400 3 + 1) % 2 ^ 32 else odv s 0x2400 3 := by
  cases mis with
  | false => rfl
  | true => exact odv_odBump_same (w := 32) (flagCmd uid 6 s) (by decide)

end

/-- The timeout of a waiting acquire. -/
def acquireTimedOut (c : Cmd) (s : State) : State :=
  odBump 0x2400 5 1 (modCmd c.uid (fun x => { x with countA := fTimeout x.desc }) (endCmd c.uid stTimeout noDetail s))

theorem acquireTimedOut_frame (c : Cmd) (s : State) : Frame (.od :: endParts) s (acquireTimedOut c s) :=
  .after (odBump_frame ..) (.after (modCmd_frame ..) (endCmd_frame' ..).mono)

/-- Settles O30: the record, the counter and the caches are set before the wake event, which leaves all three. -/
theorem acquireRows : Obligations.AcquireRows := by
  refine ⟨fun u fc c s known => ?met, fun tag c s runs held => ⟨fun op dispatched unmet undecided going clean timed late known => ?_,
    fun untimed => ?_, fun met waits over_ => ?_⟩⟩
  case met =>
    obtain ⟨mis, mis_⟩ : ∃ mis, mis = scopeMismatch (flagAt s (fIdx c.desc)) c.desc := ⟨_, rfl⟩
    obtain ⟨inv, inv_⟩ : ∃ inv, inv = decide (fScope c.desc ≥ 3) := ⟨_, rfl⟩
    have flagged := scopeMismatch_iff (flagAt s (fIdx c.desc)) c.desc
    rw [← mis_] at flagged
    dsimp only
    rw [meetAcquire_eq known mis_ inv_, ← flagged]
    have cached : (if inv then invalidateCaches (acquireMet u fc mis inv s) else acquireMet u fc mis inv s).front.cmds
        = (acquireMet u fc mis inv s).front.cmds := by cases inv <;> rfl
    have woken := wake_frame false (if inv then invalidateCaches (acquireMet u fc mis inv s) else acquireMet u fc mis inv s)
    have record := (cmdOf_of_cmds ((woken.get (·.front.cmds)).trans cached) u).trans (cmdOf_acquireMet known)
    have counter : odv (wake false (if inv then invalidateCaches (acquireMet u fc mis inv s) else acquireMet u fc mis inv s)) 0x2400 3
        = if mis then (odv s 0x2400 3 + 1) % 2 ^ 32 else odv s 0x2400 3 := by
      refine (odv_wake_other _ _ (by decide) (by decide)).trans (Eq.trans ?_ (odv_acquireMet (uid := u) (fc := fc) (inv := inv)))
      cases inv <;> rfl
    refine ⟨⟨_, record, rfl, rfl, ?_, fun flag => ?_, fun plain => ?_⟩, fun wide r => ?_, fun flag => ?_, fun plain => ?_, ?_⟩
    · simp [metCmd, inv_]
    · exact if_pos flag
    · exact if_neg plain
    · rw [if_pos (show inv = true by simp [inv_, wide])]
      exact lines_wake_of_empty (lines_invalidateCaches ..)
    · rw [counter, if_pos flag]
    · rw [counter, if_neg plain]
    · refine (woken.get State.flags).trans ?_
      cases inv <;> cases mis <;> rfl
  · have queue : (acquireTimedOut c s).pending = s.pending := (acquireTimedOut_frame c s).get State.pending
    have row : exec (.acquireTimeout tag) s = .next (acquireTimedOut c s) := by
      show execAcquireTimeout tag s = _
      unfold execAcquireTimeout
      rw [held]
      refine event_exact ?_ queue
      simp [runs, op, dispatched, unmet, undecided, going, timed, late]
    have ended := cmdOf_endCmd (status := stTimeout) (detail := noDetail) known undecided going
    refine ⟨_, _, row, cmdOf_modCmd (f := fun x => { x with countA := fTimeout x.desc }) (fun _ => rfl) ended, ?_, unmet, rfl, ?_, fun r => ?_,
      (acquireTimedOut_frame c s).get State.flags, (acquireTimedOut_frame c s).get State.mem⟩
    · show some (c.reject.getD (stTimeout, noDetail)) = _
      rw [clean]
      rfl
    · refine (odv_odBump_same (w := 32) _ (by decide)).trans ?_
      exact congrArg (fun n => (n + 1) % 2 ^ 32) (odv_of_od ((endCmd_frame' ..).get State.od) _ _)
    · exact lines_endCmd c.uid stTimeout noDetail s r
  · show execAcquireTimeout tag s = _
    unfold execAcquireTimeout
    rw [held]
    exact event_not (by simp [untimed])
  · show execAcquireInvalidationEnd tag s = _
    unfold execAcquireInvalidationEnd
    rw [held]
    exact event_of (by simp [runs, met, waits, over_])

end Sys2Proof.Machine
end

section
/-! The statements on placement and on partial sums (chapters 01, 02 and 09). -/

namespace Sys2Proof.Machine

-- one proof at a time, for the memory that the check allows
set_option Elab.async false

/-! ### Writes that no command makes -/

/-- What a write touches that no command makes: it never waits behind a block's write queue. -/
def storeParts : List StatePart := [.mem, .memPoison, .ports, .regions, .fresh]

theorem present_free_frame {q : MemReq} (free : q.owner.free = true) (s : State) : Frame [.ports] s (present q s) := by
  unfold present
  split
  · next owner => rw [owner] at free; cases free
  · rfl

theorem lineWrites_owner {a : Nat} {bs : List Byte} {bad : Bool} {o : MemOwner} {prio : Bool} {q : MemReq} (mem : q ∈ lineWrites a bs bad o prio) :
    q.owner = o := by
  unfold lineWrites at mem
  split at mem
  · cases mem
  · obtain ⟨i, _, rfl⟩ := List.mem_map.mp mem
    rfl

/-- A fold over a list whose every element keeps the frame. -/
theorem Frame.foldl_mem {β : Type} {ps : List StatePart} {f : State → β → State} {l : List β} {s t : State}
    (one : ∀ x ∈ l, ∀ u, Frame ps u (f u x)) (h : Frame ps s t) : Frame ps s (l.foldl f t) := by
  induction l generalizing t with
  | nil => exact h
  | cons x r ih => exact ih (fun y mem => one y (List.mem_cons_of_mem _ mem)) (h.trans (one x (List.mem_cons_self ..) t))

section
variable {o : MemOwner} (free : o.free = true)
include free

theorem hostWriteAs_store_frame (a : Nat) (bs : List Byte) (bad prio : Bool) (s : State) :
    Frame storeParts s (hostWriteAs a bs bad o prio s) := by
  have stored : Frame storeParts s ((lineWrites (addr52 a) bs bad o prio).foldl (fun s q => present q s) { s with
      mem := memWrite (addr52 a) bs s.mem, memPoison := poisonWrite (addr52 a) bs.length bad s.memPoison
      regions := dropLines (addr52 a) bs.length s.regions }) :=
    .foldl_mem (fun q mem u => (present_free_frame (lineWrites_owner mem ▸ free) u).mono) rfl
  cases o with
  | cmd => cases free
  | _ => exact stored

/-- A write that no command makes stands in no block's write queue. -/
theorem hostWrite_store_frame (a : Nat) (bs : List Byte) (bad prio : Bool) (s : State) : Frame storeParts s (hostWrite a bs bad o prio s) :=
  .ite (.after (hostWriteAs_store_frame free ..) (drawn_frame s).mono) (hostWriteAs_store_frame free ..)

end

theorem trace_store_frame (kind cls unit payload : Nat) (s : State) : Frame (.od :: storeParts) s (trace kind cls unit payload s) :=
  .ite (.after (odBump_frame ..) (hostWrite_store_frame rfl ..).mono) (.refl s)

theorem blockAt_trace (kind cls unit payload : Nat) (s : State) (n : Nat) : blockAt (trace kind cls unit payload s) n = blockAt s n :=
  congrArg (tget block0 · n) ((trace_store_frame ..).get State.blocks)

/-! ### Placement (R17, R286) -/

theorem splitCmd_frame (s : State) (c : Cmd) : Frame [.cmds, .items] s (splitCmd s c) := rfl

theorem refill_frame (s : State) : Frame [.cmds, .items] s (refill s) := .foldl splitCmd_frame (.refl s)

/-- What the first place found says of the block or its region. -/
theorem placeFirst_spec {s : State} {b place : Nat} {c : Cmd} (h : placeFirst s b = some (c, place)) :
    (wantsWalk s c = true → (regionAt s (b / 40)).walks.length < 64)
    ∧ (wantsWalk s c = false → blockAble s b c (placedItem s c place) = true) := by
  obtain ⟨i, _, found⟩ := List.exists_of_findSome?_eq_some h
  split at found
  · cases found
  · next c' _ =>
    by_cases walk : wantsWalk s c' = true
    · rw [if_pos walk] at found
      split at found
      · next room =>
        cases found
        exact ⟨fun _ => room, fun not => by simp [walk] at not⟩
      · cases found
    · rw [if_neg walk] at found
      split at found
      · cases found
      · split at found
        · next takes =>
          cases found
          refine ⟨fun yes => absurd yes walk, fun _ => ?_⟩
          simp only [blockTakes, Bool.and_eq_true] at takes
          exact takes.1
        · cases found

/-- A block that may take an item (R286, R442 to R444). -/
theorem blockAble_spec {s : State} {b item : Nat} {c : Cmd} (h : blockAble s b c item = true) :
    let x := blockAt s b
    x.retired = false ∧ x.inReset = false ∧ x.testing = false ∧ x.gated = false ∧ marked (stepInForce s) b = false
      ∧ blockFrozen s b = false ∧ x.feed.length < 32 ∧ (x.spLost = true → spInput c = false) := by
  simp only [blockAble, Bool.and_eq_true, Bool.not_eq_true', decide_eq_true_eq, Bool.or_eq_true] at h
  grind

/-- An item that enters a feed queue. -/
theorem feedItem_frame (b : Nat) (c : Cmd) (place : Nat) (s : State) :
    Frame (.items :: .cmds :: .blocks :: .queues :: .armed :: .od :: storeParts) s (feedItem b c place s) := by
  unfold feedItem
  exact .after (trace_store_frame ..) (.after (modBlock_frame ..) (.after (modCmd_frame ..) (.after (show Frame [.items] (ite _ _ s) _ from rfl)
    (.ite (.after (report_frame ..) (disarm_frame ..).mono) (.refl s)))))

theorem feedItem_spec (b : Nat) (c : Cmd) (place : Nat) (s : State) :
    (blockAt (feedItem b c place s) b).feed = (blockAt s b).feed ++ [(c.uid, placedItem s c place)]
    ∧ (blockAt (feedItem b c place s) b).weight = weightOf ((blockAt s b).feed.length + 1)
    ∧ (∀ n, n ≠ b → blockAt (feedItem b c place s) n = blockAt s n) ∧ (c.uid, place) ∉ (feedItem b c place s).front.items := by
  have fed (n : Nat) : blockAt (feedItem b c place s) n = if n = b then
      { blockAt s b with feed := (blockAt s b).feed ++ [(c.uid, placedItem s c place)], weight := weightOf ((blockAt s b).feed.length + 1) }
      else blockAt s n := by
    have reported (inj : Bool) (m : Nat) : blockAt (if inj = true then report 0x13 (b / 40) 0 2 0 none true (disarm 0x13 (b / 40) s) else s) m = blockAt s m :=
      ite_holds (fun u : State => blockAt u m = blockAt s m) (congrArg (tget block0 · m) ((report_frame ..).get State.blocks)) rfl
    unfold feedItem
    rw [blockAt_trace, blockAt_modBlock]
    by_cases here : n = b
    · rw [if_pos here, if_pos here, ← reported (fires 0x13 (b / 40) s).isSome b]
      rfl
    · rw [if_neg here, if_neg here, ← reported (fires 0x13 (b / 40) s).isSome n]
      rfl
  refine ⟨by rw [fed, if_pos rfl], by rw [fed, if_pos rfl], fun n other => by rw [fed, if_neg other], ?_⟩
  unfold feedItem
  rw [trace_front]
  simp [modBlock, putBlock, modCmd]

theorem weightOf_eq (n : Nat) : weightOf (n + 1) = max 1 (min 8 ((n + 4) / 4)) := rfl

/-- Settles O31: refilling changes the commands and the pending list only, so that what holds of the block or the region after it
held before. -/
theorem workItemPlacement : Obligations.WorkItemPlacement := by
  intro b place c s runs present found
  have filled := refill_frame s
  have queue : (refill s).pending = s.pending := filled.get State.pending
  have sameBlock (n : Nat) : blockAt (refill s) n = blockAt s n := congrArg (tget block0 · n) (filled.get State.blocks)
  have sameRegion (n : Nat) : regionAt (refill s) n = regionAt s n := congrArg (tget region0 · n) (filled.get State.regions)
  have placed : placeItem b s = some (if wantsWalk (refill s) c then
      modRegion (b / 40) (fun r => { r with walks := r.walks ++ [{ uid := c.uid, next := 0, last := 65536 }] }) (refill s)
      else feedItem b c place (refill s)) := by
    unfold placeItem
    dsimp only
    rw [found]
    rfl
  have row : ∀ t, placeItem b s = some t → t.pending = s.pending → exec (.workItemPlace b) s = .next t := fun t ht keeps => by
    show execWorkItemPlace b s = _
    unfold execWorkItemPlace
    rw [ht]
    exact event_exact (by simp [runs, present]) keeps
  obtain ⟨room, able⟩ := placeFirst_spec found
  refine ⟨fun walk => ⟨?_, ?_⟩, fun feed => ⟨?_, ?_⟩⟩
  · rw [← sameRegion]
    exact room walk
  · rw [if_pos walk] at placed
    refine ⟨_, row _ placed queue, ?_, rfl, filled.get State.blocks⟩
    rw [regionAt_modRegion, if_pos rfl, sameRegion]
  · have spec := blockAble_spec (able feed)
    have frozen : blockFrozen (refill s) b = blockFrozen s b := by
      rw [show refill s = patch [.cmds, .items] s (refill s) from filled]
      rfl
    have step : stepInForce (refill s) = stepInForce s := by rw [stepInForce, show (refill s).power = s.power from filled.get State.power]; rfl
    rw [sameBlock, frozen, step] at spec
    exact spec
  · rw [if_neg (by simp [feed])] at placed
    obtain ⟨fed, weight, others, gone⟩ := feedItem_spec b c place (refill s)
    have frame := (feedItem_frame b c place (refill s)).after
      (filled.mono (qs := .items :: .cmds :: .blocks :: .queues :: .armed :: .od :: storeParts))
    rw [sameBlock] at fed weight
    exact ⟨_, row _ placed (frame.get State.pending), fed, weight, fun n other => (others n other).trans (sameBlock n), gone,
      frame.get State.sp, frame.get State.flags, frame.get State.links, frame.get State.paged, frame.get State.power, frame.get State.mgmt⟩

/-! ### Partial sums (Table 01.10) -/

theorem psumArea_eq (s : State) : psumArea s = (match odv s 0x2000 2 with | 0 => 1048576 | 1 => 655360 | _ => 262144) := by
  unfold psumArea storeMiB
  generalize odv s 0x2000 2 = profile
  match profile with
  | 0 => rfl
  | 1 => rfl
  | _ + 2 => rfl

/-- Settles O32: room is the last of the row's conditions. -/
theorem partialSumReservation : Obligations.PartialSumReservation := by
  intro b item c s runs present head fit ready unheld
  have row : exec (.psumReservationGrant b) s = event (live s && blockPresent s b && !(blockAt s b).retired && itemReady s c item
      && !psumHeld s b c item && decide (((regionAt s (b / 40)).psum.map (·.2.2)).sum + psumNeed s b c item ≤ psumArea s)) s (psumGrant b c item s) := by
    show execPsumReservationGrant b s = _
    unfold execPsumReservationGrant
    rw [head]
  refine ⟨⟨fun room => ?_, fun full => ?_⟩, psumArea_eq s⟩
  · rw [row]
    exact event_of (by simpa [runs, present, fit, ready, unheld] using room)
  · rw [row]
    exact event_not (by simpa [runs, present, fit, ready, unheld] using full)

end Sys2Proof.Machine
end

section
/-! What the rows that write one dictionary entry answer (R375 to R378). -/

namespace Sys2Proof.Machine

-- one proof at a time, for the memory that the check allows
set_option Elab.async false

/-! ### Bytes of a value -/

theorem ofBytes_range_shift (n k j : Nat) :
    ofBytes ((List.range k).map fun i => BitVec.ofNat 8 (n / 2 ^ (8 * (i + j)))) = n / 2 ^ (8 * j) % 2 ^ (8 * k) := by
  induction k generalizing j with
  | zero => simp [ofBytes, Nat.mod_one]
  | succ k ih =>
    rw [List.range_succ_eq_map, List.map_cons, List.map_map, ofBytes]
    have rest := ih (j + 1)
    have shift : ((fun i => BitVec.ofNat 8 (n / 2 ^ (8 * (i + j)))) ∘ Nat.succ) = fun i => BitVec.ofNat 8 (n / 2 ^ (8 * (i + (j + 1)))) := by
      funext i
      simp only [Function.comp]
      congr 3
      omega
    rw [shift, rest]
    have head : (BitVec.ofNat 8 (n / 2 ^ (8 * (0 + j)))).toNat = n / 2 ^ (8 * j) % 2 ^ 8 := by simp
    have next : n / 2 ^ (8 * (j + 1)) = n / 2 ^ (8 * j) / 2 ^ 8 := by rw [Nat.div_div_eq_div_mul, ← Nat.pow_add, Nat.mul_add]
    have power : 2 ^ (8 * (k + 1)) = 2 ^ 8 * 2 ^ (8 * k) := by rw [← Nat.pow_add]; congr 1; omega
    have byte : (256 : Nat) = 2 ^ 8 := rfl
    rw [head, next, power, Nat.mod_mul, byte]

/-- The value of the bytes of a value. -/
theorem ofBytes_toBytes (k n : Nat) : ofBytes (toBytes k n) = n % 2 ^ (8 * k) := by
  have whole := ofBytes_range_shift n k 0
  rw [Nat.mul_zero, Nat.pow_zero, Nat.div_one] at whole
  exact whole

@[simp] theorem length_toBytes (k n : Nat) : (toBytes k n).length = k := by simp [toBytes]

/-! ### The row -/

/-- A row that writes one entry runs the write. -/
theorem exec_of_writeOf {row : Instr} {w : Nat × Nat × List Byte} (h : writeOf row = some w) (s : State) :
    exec row s = writeRow w.1 w.2.1 w.2.2 s := by
  cases row with
  | funcDisable | dictWrite | requestOperational | requestStopped | biasCommit | routeCommit | flagReset | portRetrain | errorAck
  | inject | spRestored | poolShrink | accSelect | linkKeySlot | txKeySlot | keyClear | unlockResponse | relock =>
    obtain rfl := Option.some.inj h
    rfl
  | _ => exact nomatch h

/-- The outcome of a write: its abort code and the state that it leaves. -/
theorem exec_written {row : Instr} {i j code : Nat} {bs : List Byte} {s t : State} (h : writeOf row = some (i, j, bs)) (runs : live s = true)
    (written : odWrite i j bs s = (code, t)) (queue : t.pending = s.pending) : exec row s = .next (aborted code t) := by
  have result : writeEntryReq i j bs s = aborted code t := by rw [writeEntryReq, written]; rfl
  rw [exec_of_writeOf h]
  refine (event_exact runs ?_).trans (congrArg Host.Outcome.next result)
  rw [result]
  exact queue

theorem exec_rejected {row : Instr} {i j : Nat} {bs : List Byte} {s : State} {r : OdRow} (h : writeOf row = some (i, j, bs)) (runs : live s = true)
    (entry : odFind i j = some r) (fails : writeAbort s r i j bs ≠ 0) : exec row s = .next (aborted (writeAbort s r i j bs) s) :=
  exec_written h runs (odWrite_of_writeAbort entry fails) rfl

/-- A row whose write passes every check does what the entry's write does, and answers its outcome. -/
theorem exec_accepted {row : Instr} {i j code : Nat} {bs : List Byte} {s t : State} {r : OdRow} (h : writeOf row = some (i, j, bs))
    (runs : live s = true) (entry : odFind i j = some r) (now : r.acc ≠ 3) (passes : writePasses s row = true)
    (effect : applyWrite i j bs s = (code, t)) (queue : t.pending = s.pending) : exec row s = .next (aborted code t) :=
  exec_written h runs ((odWrite_of_passes entry now (writeAbort_of_writePasses h entry passes)).trans effect) queue

theorem odFind_of_writePasses {row : Instr} {i j : Nat} {bs : List Byte} {s : State} (h : writeOf row = some (i, j, bs))
    (passes : writePasses s row = true) : ∃ r, odFind i j = some r := by
  unfold writePasses at passes
  rw [h] at passes
  cases found : odFind i j with
  | none => simp [found] at passes
  | some r => exact ⟨r, rfl⟩

/-! ### The checks in order (R376) -/

/-- The checks of a write, as a list. -/
def checkList (s : State) (r : OdRow) (idx sub : Nat) (bs : List Byte) : List (Option Nat) :=
  let v := ofBytes bs
  [abIf (decide (r.acc < 2)) abReadOnly, lifeAbort s idx sub, stateAbort s idx sub, lengthAbort r bs.length,
    absentAbort s idx sub v, reservedAbort r v, rangeAbort s r sub v bs.length, tableAbort s idx sub, poolAbort s idx sub v,
    layoutAbort s idx sub v, unitAbort s idx sub v bs, abIf (r.acc = 3 && decide (s.mgmt.rwq.length ≥ 1024)) abBusy]

theorem writeAbort_eq (s : State) (r : OdRow) (idx sub : Nat) (bs : List Byte) :
    writeAbort s r idx sub bs = firstAbort (checkList s r idx sub bs) := rfl

/-- The first check that fails names the code. -/
theorem firstAbort_of {l : List (Option Nat)} {pre post : List (Option Nat)} {e : Nat} (split : l = pre ++ some e :: post)
    (pass : ∀ x ∈ pre, x = none) : firstAbort l = e := by
  subst split
  have skipped : pre.findSome? id = none := List.findSome?_eq_none_iff.mpr pass
  simp [firstAbort, List.findSome?_append, skipped]

/-- Where no code is 0, a write passes only if every check does. -/
theorem firstAbort_eq_zero {l : List (Option Nat)} (codes : ∀ e, some e ∈ l → e ≠ 0) (h : firstAbort l = 0) : ∀ x ∈ l, x = none := by
  unfold firstAbort at h
  cases found : l.findSome? id with
  | none => exact List.findSome?_eq_none_iff.mp found
  | some e =>
    obtain ⟨x, mem, same⟩ := List.exists_of_findSome?_eq_some found
    rw [found] at h
    subst same
    exact absurd h (codes e mem)

/-! ### No check's code is 0 -/

theorem abIf_eq_some {b : Bool} {code e : Nat} : abIf b code = some e ↔ b = true ∧ code = e := by
  cases b <;> simp [abIf]

section
variable (s : State) (r : OdRow) (i j v n : Nat) (bs : List Byte)

theorem lifeAbort_ne_zero : lifeAbort s i j ≠ some 0 := by
  unfold lifeAbort
  split <;> simp [abIf_eq_some, abLocked, abLifecycle]

theorem stateAbort_ne_zero : stateAbort s i j ≠ some 0 := by
  unfold stateAbort
  split <;> simp [abIf_eq_some, abRecovering, abStateForbids]

theorem lengthAbort_ne_zero : lengthAbort r n ≠ some 0 := by
  unfold lengthAbort
  split <;> simp [abIf_eq_some, abTypeLength]

theorem absentAbort_ne_zero : absentAbort s i j v ≠ some 0 := by
  simp [absentAbort, abIf_eq_some, abRegionAbsent]

theorem reservedAbort_ne_zero : reservedAbort r v ≠ some 0 := by
  simp [reservedAbort, abIf_eq_some, abReservedBits]

theorem rowRange_ne_zero : rowRange r v n ≠ some 0 := by
  unfold rowRange
  split_ifs <;> simp [abIf_eq_some, abRangeInvalid, abRangeHigh, abRangeLow]

theorem rangeAbort_ne_zero : rangeAbort s r j v n ≠ some 0 := by
  have row := rowRange_ne_zero r v n
  unfold rangeAbort
  split
  · next found => rwa [found] at row
  · split_ifs <;> simp [abIf_eq_some, abRangeInvalid, abRangeHigh]

theorem tableAbort_ne_zero : tableAbort s i j ≠ some 0 := by
  unfold tableAbort
  dsimp only
  split_ifs <;> simp [abIf_eq_some, abTableBusy]

theorem poolAbort_ne_zero : poolAbort s i j v ≠ some 0 := by
  unfold poolAbort
  dsimp only
  split_ifs <;> simp [abIf_eq_some, abPoolInUse, abValueConflict]

theorem layoutAbort_ne_zero : layoutAbort s i j v ≠ some 0 := by
  unfold layoutAbort
  dsimp only
  split_ifs <;> simp [abIf_eq_some, abValueConflict]

theorem unitAbort_ne_zero : unitAbort s i j v bs ≠ some 0 := by
  unfold unitAbort
  dsimp only
  split_ifs <;> simp [abIf_eq_some, abValueConflict, abPortState, abStateForbids]

end

/-- A write that passes passes every check. -/
theorem passes_all {s : State} {r : OdRow} {i j : Nat} {bs : List Byte} (h : writeAbort s r i j bs = 0) :
    ∀ x ∈ checkList s r i j bs, x = none := by
  refine firstAbort_eq_zero (fun e mem zero => ?_) h
  subst zero
  simp only [checkList, List.mem_cons, List.mem_nil_iff, or_false] at mem
  obtain h | h | h | h | h | h | h | h | h | h | h | h := mem
  · exact absurd (abIf_eq_some.mp h.symm).2 (by decide)
  · exact lifeAbort_ne_zero _ _ _ h.symm
  · exact stateAbort_ne_zero _ _ _ h.symm
  · exact lengthAbort_ne_zero _ _ h.symm
  · exact absentAbort_ne_zero _ _ _ _ h.symm
  · exact reservedAbort_ne_zero _ _ h.symm
  · exact rangeAbort_ne_zero _ _ _ _ _ h.symm
  · exact tableAbort_ne_zero _ _ _ h.symm
  · exact poolAbort_ne_zero _ _ _ _ h.symm
  · exact layoutAbort_ne_zero _ _ _ _ h.symm
  · exact unitAbort_ne_zero _ _ _ _ _ h.symm
  · exact absurd (abIf_eq_some.mp h.symm).2 (by decide)

section
variable {s : State} {r : OdRow} {i j : Nat} {bs : List Byte} (h : writeAbort s r i j bs = 0)
include h

theorem lengthAbort_of_passes : lengthAbort r bs.length = none := passes_all h _ (by simp [checkList])

theorem rangeAbort_of_passes : rangeAbort s r j (ofBytes bs) bs.length = none := passes_all h _ (by simp [checkList])

theorem unitAbort_of_passes : unitAbort s i j (ofBytes bs) bs = none := passes_all h _ (by simp [checkList])

end

/-- Entries whose value no other check than that of their unit looks at: up to that check, the state and the value decide. -/
theorem writeAbort_eq_unitAbort {s : State} {r : OdRow} {i j : Nat} {bs : List Byte} (acc : r.acc = 2 ∨ r.acc = 4)
    (away : i ∉ [0x9000, 0x6200, 0x3100, 0x4300, 0x3200, 0x3210, 0x4110, 0x4200]) (life : lifeAbort s i j = none)
    (state : stateAbort s i j = none) (long : lengthAbort r bs.length = none) (reserved : reservedAbort r (ofBytes bs) = none)
    (range : rangeAbort s r j (ofBytes bs) bs.length = none) : writeAbort s r i j bs = (unitAbort s i j (ofBytes bs) bs).getD 0 := by
  simp only [List.mem_cons, List.mem_nil_iff, or_false, not_or] at away
  obtain ⟨window, region, bias, route, pool, marks, landing, map_⟩ := away
  have writable : decide (r.acc < 2) = false := decide_eq_false (by omega)
  have now : decide (r.acc = 3) = false := decide_eq_false (by omega)
  have absent : absentAbort s i j (ofBytes bs) = none := by simp [absentAbort, abIf, window, region]
  have table : tableAbort s i j = none := by simp [tableAbort, bias, route]
  have frames : poolAbort s i j (ofBytes bs) = none := by simp [poolAbort, pool, marks]
  have layout : layoutAbort s i j (ofBytes bs) = none := by simp [layoutAbort, landing, map_]
  rw [writeAbort_eq, checkList, writable, now, life, state, long, absent, reserved, range, table, frames, layout]
  cases unitAbort s i j (ofBytes bs) bs <;> rfl

/-- In PREOP, OPERATIONAL and STOPPED without a warm reset, the state forbids no write. -/
theorem stateAbort_none {s : State} (normal : s.mgmt.recovering = false) (state : s.mgmt.st ∈ [1, 2, 3]) (i j : Nat) : stateAbort s i j = none := by
  simp only [List.mem_cons, List.mem_nil_iff, or_false] at state
  unfold stateAbort
  rw [if_neg (by simp [normal])]
  have allowed : (s.mgmt.st = 0 || (s.mgmt.st = 4 && !(i = 0x6000 && j = 3))) = false := by
    have notInit : ¬ s.mgmt.st = 0 := by omega
    have notFault : ¬ s.mgmt.st = 4 := by omega
    simp [notInit, notFault]
  rw [allowed]
  rfl

end Sys2Proof.Machine
end

section
/-! The statements on the checks of a write and on what the writes of configuration, port, error and key entries do
(chapters 10, 11, 13, 15 and 17). -/

namespace Sys2Proof.Machine

-- one proof at a time, for the memory that the check allows
set_option Elab.async false

/-! ### Checks (R376) -/

section
variable {s : State} {r : OdRow} {i j : Nat} {bs : List Byte}

theorem abIf_true (code : Nat) : abIf true code = some code := rfl

theorem abIf_false (code : Nat) : abIf false code = none := rfl

theorem writeAbort_readOnly (fixed : r.acc < 2) : writeAbort s r i j bs = 0x02000003 :=
  firstAbort_of (pre := []) (by rw [decide_eq_true fixed]; rfl) (by simp)

variable (writable : r.acc ≥ 2)
include writable

theorem writable_check : abIf (decide (r.acc < 2)) abReadOnly = none := by
  rw [decide_eq_false (by omega : ¬ r.acc < 2)]
  rfl

/-- Steps 1 to 4 pass up to the dictionary's state, which forbids. -/
theorem writeAbort_of_stateAbort {e : Nat} (life : lifeAbort s i j = none) (forbids : stateAbort s i j = some e) : writeAbort s r i j bs = e :=
  firstAbort_of (pre := [none, none]) (by rw [writable_check writable, life, forbids]; rfl) (by simp)

theorem writeAbort_of_lengthAbort {e : Nat} (life : lifeAbort s i j = none) (state : stateAbort s i j = none)
    (long : lengthAbort r bs.length = some e) : writeAbort s r i j bs = e :=
  firstAbort_of (pre := [none, none, none]) (by rw [writable_check writable, life, state, long]; rfl) (by simp)

end

/-- Settles O42: the checks form one list, whose first failure is the answer. -/
theorem writeChecks : Obligations.WriteChecks := by
  intro row i j bs s writes runs
  refine ⟨fun missing => ?_, fun r entry => ⟨fun fails => ?_, fun fixed => writeAbort_readOnly fixed,
    fun writable e life => writeAbort_of_lifeAbort bs (by omega) life, fun writable life recovering => ?_,
    fun writable life normal forbids => ?_, fun writable life state sized wrong => ?_⟩⟩
  · refine exec_written writes runs ?_ rfl
    simp only [odWrite, odExists, missing]
    rfl
  · have abort : writeAbort s r i j bs ≠ 0 := by simpa [writePasses, writes, entry] using fails
    exact ⟨exec_rejected writes runs entry abort, abort⟩
  · exact writeAbort_of_stateAbort writable life (if_pos recovering)
  · refine writeAbort_of_stateAbort writable life ?_
    have state : (s.mgmt.st = 0 || (s.mgmt.st = 4 && !(i = 0x6000 && j = 3))) = true := by
      obtain zero | ⟨fault, other⟩ := forbids
      · simp [zero]
      · simp [fault]; tauto
    unfold stateAbort
    rw [if_neg (by simp [normal]), state]
    rfl
  · refine writeAbort_of_lengthAbort writable life state ?_
    unfold lengthAbort
    rw [if_pos sized, bne_iff_ne.mpr wrong]
    rfl

/-! ### A write of a threshold notes the pool (R213) -/

/-- OPERATIONAL, with no frame in pool 0 and its dropping to end at 8 frames. -/
def thresholdsOpen : State := odPut 0x3210 0x20 8 { State.reset with boot := { Boot.atReset with resetN := true, pll := true }, mgmt := { Mgmt.atReset with st := 2 } }

/-- Refutes O44: the last clause leaves out the thresholds of OD 3210h, where a write also notes whether dropping from the pool is
under way. -/
theorem not_configWriteRows : ¬ Obligations.ConfigWriteRows := by
  intro h
  obtain ⟨_, _, _, _, _, _, _, _, plain⟩ := h thresholdsOpen (by decide)
  obtain ⟨t, row, frame, _⟩ := plain 0x3210 0x10 [3, 0, 0, 0] (odRow 0x3210 0x10 8 4 2 0 0 (2 ^ 24)) (by decide) (by decide)
    (by decide +kernel) (by decide)
  have noted : exec (.dictWrite 0x3210 0x10 [3, 0, 0, 0]) thresholdsOpen
      = .next (aborted 0 (dropNote 0 (odPut 0x3210 0x10 3 thresholdsOpen))) :=
    exec_accepted (r := odRow 0x3210 0x10 8 4 2 0 0 (2 ^ 24)) rfl (by decide) (by decide) (by decide) (by decide +kernel) rfl (by decide +kernel)
  have kept : t.paged.dropping = [] := by rw [frame]; rfl
  rw [noted] at row
  obtain rfl := Host.Outcome.next.inj row
  have dropping : (aborted 0 (dropNote 0 (odPut 0x3210 0x10 3 thresholdsOpen))).paged.dropping = [0] := by decide +kernel
  rw [dropping] at kept
  cases kept

/-! ### Ports, injection and acknowledgement (R348, R451, R453) -/

def portRetrainRow : OdRow := odRow 0x4010 0x30 6 2 4 0 1 1

theorem odFind_portRetrain {p : Nat} (bound : p < 6) : odFind 0x4010 (0x30 + p) = some portRetrainRow := by
  interval_cases p <;> decide

/-- The checks of a retrain pass up to the port's state. -/
theorem writeAbort_portRetrain {s : State} {p : Nat} (bound : p < 6) (normal : s.mgmt.recovering = false) (state : s.mgmt.st ∈ [1, 2, 3]) :
    writeAbort s portRetrainRow 0x4010 (0x30 + p) (toBytes 1 1) = if (linkAt s p).st = 3 ∨ (linkAt s p).st = 4 then 0 else 0x04000005 := by
  have life : lifeAbort s 0x4010 (0x30 + p) = none := by simp [lifeAbort, abIf]
  have port : (0x30 + p) % 16 = p := by omega
  have within : 0x30 ≤ 0x30 + p ∧ 0x30 + p < 0x40 := by omega
  rw [writeAbort_eq_unitAbort (.inr rfl) (by decide) life (stateAbort_none normal state _ _) rfl rfl rfl]
  simp only [unitAbort, port, within, abIf]
  by_cases idle : (linkAt s p).st = 3 ∨ (linkAt s p).st = 4
  · rw [if_pos idle]
    obtain mismatch | down := idle
    · simp [mismatch]
    · simp [down]
  · rw [if_neg idle]
    simp [not_or.mp idle, abPortState]

theorem linkAt_putLink (p n : Nat) (x : LinkPort) (s : State) : linkAt (putLink p x s) n = if n = p then x else linkAt s n := by
  by_cases same : n = p
  · subst same
    rw [if_pos rfl]
    exact tget_tput_same link0 s.links n x
  · rw [if_neg same]
    exact tget_tput_other link0 s.links x same

/-- A port that starts training keeps its key slots; every other port stands. -/
theorem startTraining_spec (p : Nat) (s : State) :
    (linkAt (startTraining p s) p).st = (if encrypted s p = true ∧ keyOk s p = false then 5 else 1)
    ∧ (linkAt (startTraining p s) p).slots = (linkAt s p).slots ∧ ∀ q, q ≠ p → linkAt (startTraining p s) q = linkAt s q := by
  unfold startTraining
  refine ⟨?_, ?_, fun q other => ?_⟩
  · simp [linkAt_putLink]
  · simp [linkAt_putLink]
  · exact (linkAt_putLink ..).trans (if_neg other)

def injectRow : OdRow := (odFull 0x6100 1 1 4 4 0).masked (2 ^ 18 - 1)

theorem odFind_inject : odFind 0x6100 1 = some injectRow := by decide

theorem ofBytes_word (v : Word) : ofBytes (toBytes 4 v.toNat) = v.toNat := by
  rw [ofBytes_toBytes]
  exact Nat.mod_eq_of_lt v.isLt

/-- A point that the table does not list as injectable is out of range. -/
theorem writeAbort_inject {s : State} {v : Word} (small : v.toNat < 2 ^ 18) (open_ : s.sec.lifecycle ≠ 2) (normal : s.mgmt.recovering = false)
    (state : s.mgmt.st ∈ [1, 2, 3]) (fixed : ∀ a b d, kindInfo (fld v 0 8) ≠ some (a, b, d, true)) :
    writeAbort s injectRow 0x6100 1 (toBytes 4 v.toNat) = 0x03000003 := by
  have life : lifeAbort s 0x6100 1 = none := by simp [lifeAbort, debugClosed, open_, abIf]
  have reserved : reservedAbort injectRow v.toNat = none := by
    have masked : v.toNat ||| injectRow.mask = injectRow.mask := by
      refine Nat.eq_of_testBit_eq fun k => ?_
      have row : injectRow.mask = 2 ^ 18 - 1 := rfl
      rw [Nat.testBit_or, row, Nat.testBit_two_pow_sub_one]
      by_cases low : k < 18
      · simp [low]
      · rw [Nat.testBit_lt_two_pow (small.trans_le (Nat.pow_le_pow_right (by decide) (by omega)))]
        rfl
    simp [reservedAbort, masked, abIf]
  have range : rangeAbort s injectRow 1 v.toNat 4 = some 0x03000003 := by
    have fits : rowRange injectRow v.toNat 4 = none := by
      have width : v.toNat ≤ injectRow.hi := Nat.le_of_lt_succ (v.isLt.trans_le (by decide))
      have low : ¬ (v.toNat < injectRow.lo ∨ (0 < v.toNat ∧ v.toNat < injectRow.gap)) := by
        simp [injectRow, odFull, odRow, OdRow.masked]
      unfold rowRange
      rw [if_neg (by decide), if_neg (by omega), if_neg low]
      simp [injectRow, odFull, odRow, OdRow.masked, Nat.mod_one, abIf]
    have listed : (match kindInfo (bits v.toNat 0 8) with | some (_, _, _, i) => !i | none => true) = true := by
      split
      · next a b d i found =>
        cases i with
        | true => exact absurd found (fixed a b d)
        | false => rfl
      · rfl
    unfold rangeAbort
    rw [fits]
    have idx : injectRow.idx = 0x6100 := rfl
    simp only [idx]
    exact congrArg (abIf · abRangeInvalid) listed
  rw [writeAbort_eq]
  simp only [checkList]
  rw [ofBytes_word, length_toBytes, life, stateAbort_none normal state, reserved, range]
  rfl

theorem applyWrite_inject (bs : List Byte) (s : State) : applyWrite 0x6100 1 bs s = (0, { s with rel := { s.rel with
    armed := s.rel.armed ++ [(bits (ofBytes bs) 0 8, bits (ofBytes bs) 8 9, bit (ofBytes bs) 17)] } }) := rfl

theorem exec_inject {s : State} (v : Word) (runs : live s = true) (passes : writePasses s (.inject v) = true) :
    exec (.inject v) s = .next (answered { s with rel := { s.rel with armed := s.rel.armed ++ [(fld v 0 8, fld v 8 9, v.getLsbD 17)] } }) := by
  have row := exec_accepted rfl runs odFind_inject (by decide) passes (applyWrite_inject _ _) rfl
  rw [ofBytes_word] at row
  exact row

/-- The last number acknowledged by a write of `n` (R451). -/
def ackNumber (n : Nat) (s : State) : Nat :=
  if serialLe n s.rel.count then (if serialLe s.rel.acked n then n else s.rel.acked) else s.rel.count

/-- Entries up to `a` acknowledged. -/
def ackedUpTo (a : Nat) (s : State) : State := { s with rel := { s.rel with acked := a } }

/-- Every entry of a FAULT without a fatal fault is acknowledged. -/
def ackRestarts (a : Nat) (s : State) : Prop :=
  s.mgmt.st = 4 ∧ s.rel.noAuto = true ∧ s.rel.fatal = false ∧ unacked (ackedUpTo a s) = 0

/-- The warm reset that the acknowledgement of every entry starts. -/
def ackRestarted (s : State) : State :=
  { s with rel := { s.rel with noAuto := false
                               recov := [{ level := 3, unit := 0, entry := lastFault s, begun := false, batches := [] }] }
           mgmt := { s.mgmt with recovering := true } }

def errorAckTo (a : Nat) (s : State) : State :=
  let u := ackedUpTo a s
  if u.mgmt.st = 4 ∧ u.rel.noAuto ∧ !u.rel.fatal ∧ unacked u = 0 then ackRestarted u else u

theorem errorAck_eq (n : Nat) (s : State) : errorAck n s = errorAckTo (ackNumber n s) s := rfl

def errorAckRow : OdRow := odFull 0x6000 3 1 4 4 0

theorem odFind_errorAck : odFind 0x6000 3 = some errorAckRow := by decide

theorem applyWrite_errorAck (bs : List Byte) (s : State) : applyWrite 0x6000 3 bs s = (0, errorAck (ofBytes bs) s) := rfl

theorem pending_errorAck (n : Nat) (s : State) : (errorAck n s).pending = s.pending :=
  ite_holds (fun u : State => u.pending = s.pending) rfl rfl

theorem exec_errorAck_bytes {s : State} {n : Nat} (runs : live s = true) (passes : writePasses s (.errorAck n) = true) :
    exec (.errorAck n) s = .next (aborted 0 (errorAck (ofBytes (toBytes 4 n)) s)) :=
  exec_accepted rfl runs odFind_errorAck (by decide) passes (applyWrite_errorAck _ _) (pending_errorAck _ _)

theorem exec_errorAck {s : State} {n : Nat} (runs : live s = true) (bound : n < 2 ^ 32) (passes : writePasses s (.errorAck n) = true) :
    exec (.errorAck n) s = .next (aborted 0 (errorAckTo (ackNumber n s) s)) := by
  have value : ofBytes (toBytes 4 n) = n := by
    rw [ofBytes_toBytes]
    exact Nat.mod_eq_of_lt bound
  have same : aborted 0 (errorAck (ofBytes (toBytes 4 n)) s) = aborted 0 (errorAckTo (ackNumber n s) s) := by rw [value, errorAck_eq]
  exact (exec_errorAck_bytes runs passes).trans (congrArg Host.Outcome.next same)

/-- Without a restart, only the acknowledgement moves. -/
theorem errorAckTo_stays {a : Nat} {s : State} (stays : ¬ ackRestarts a s) : errorAckTo a s = ackedUpTo a s := by
  refine if_neg fun starts => stays ?_
  obtain ⟨fault, manual, mild, left⟩ := starts
  exact ⟨fault, manual, (Bool.not_eq_true' _).mp mild, left⟩

theorem errorAckTo_restarts {a : Nat} {s : State} (restarts : ackRestarts a s) : errorAckTo a s = ackRestarted (ackedUpTo a s) := by
  obtain ⟨fault, manual, mild, left⟩ := restarts
  exact if_pos ⟨fault, manual, (Bool.not_eq_true' _).mpr mild, left⟩

theorem exec_portRetrain {s : State} {p : Nat} (runs : live s = true) (bound : p < 6) (normal : s.mgmt.recovering = false)
    (state : s.mgmt.st ∈ [1, 2, 3]) (idle : (linkAt s p).st = 3 ∨ (linkAt s p).st = 4) :
    exec (.portRetrain p 1) s = .next (aborted 0 (startTraining p s)) := by
  have abort := (writeAbort_portRetrain bound normal state).trans (if_pos idle)
  have port : 0x30 + p - 0x30 = p := by omega
  refine exec_written rfl runs ((odWrite_of_passes (odFind_portRetrain bound) (by decide) abort).trans ?_) rfl
  show (0, startTraining (0x30 + p - 0x30) s) = _
  rw [port]

theorem exec_portRetrain_busy {s : State} {p : Nat} (runs : live s = true) (bound : p < 6) (normal : s.mgmt.recovering = false)
    (state : s.mgmt.st ∈ [1, 2, 3]) (busy : ¬ ((linkAt s p).st = 3 ∨ (linkAt s p).st = 4)) :
    exec (.portRetrain p 1) s = .next (aborted 0x04000005 s) := by
  have abort := (writeAbort_portRetrain bound normal state).trans (if_neg busy)
  refine (exec_rejected rfl runs (odFind_portRetrain bound) (by rw [abort]; decide)).trans ?_
  rw [abort]

theorem exec_inject_fixed {s : State} {v : Word} (runs : live s = true) (small : v.toNat < 2 ^ 18) (open_ : s.sec.lifecycle ≠ 2)
    (normal : s.mgmt.recovering = false) (state : s.mgmt.st ∈ [1, 2, 3])
    (fixed : ∀ a b d, kindInfo (fld v 0 8) ≠ some (a, b, d, true)) : exec (.inject v) s = .next (aborted 0x03000003 s) := by
  have abort := writeAbort_inject small open_ normal state fixed
  refine (exec_rejected rfl runs odFind_inject (by rw [abort]; decide)).trans ?_
  rw [abort]

/-- What an acknowledgement up to `a` leaves, as the statement O45 has it. -/
theorem errorAckTo_spec {o : Out} {a : Nat} {s : State} (row : o = .next (aborted 0 (errorAckTo a s))) :
    (¬ ackRestarts a s → o = .next (answered (ackedUpTo a s)))
    ∧ (ackRestarts a s → ∃ t, o = .next t ∧ t.mgmt.recovering = true ∧ t.rel.acked = a ∧ t.rel.noAuto = false
      ∧ t.rel.recov.map (fun r => (r.level, r.begun)) = [(3, false)] ∧ t.mem = s.mem ∧ t.front = s.front) := by
  subst row
  refine ⟨fun stays => ?_, fun restarts => ?_⟩
  · rw [errorAckTo_stays stays]
    rfl
  · rw [errorAckTo_restarts restarts]
    exact ⟨_, rfl, rfl, rfl, rfl, rfl, rfl, rfl⟩

/-- Settles O45: the port's state is the one check of a retrain that depends on the port, and the row of a point is checked before
its unit. -/
theorem portAndErrorWriteRows : Obligations.PortAndErrorWriteRows := by
  intro s runs
  refine ⟨fun p bound normal state => ⟨fun idle => ?_, exec_portRetrain_busy runs bound normal state⟩,
    fun v passes => exec_inject v runs passes, fun v => exec_inject_fixed runs, fun n bound passes => ?_⟩
  · obtain ⟨st, slots, others⟩ := startTraining_spec p s
    exact ⟨_, exec_portRetrain runs bound normal state idle, rfl, st, slots, others⟩
  · exact errorAckTo_spec (exec_errorAck runs bound passes)

end Sys2Proof.Machine
end

section
/-! The statement on key slots, the end of an unlock and the end of a hold (chapters 11 and 17). -/

namespace Sys2Proof.Machine

-- one proof at a time, for the memory that the check allows
set_option Elab.async false

theorem thas_tput_same {α : Type} (n : Nat) (v : α) (t : List (Nat × α)) : thas n (tput n v t) = true := by
  induction t with
  | nil => simp [tput, thas]
  | cons e rest ih =>
    unfold tput
    split
    · simp [thas]
    · split
      · simp [thas]
      · simpa [thas] using .inr (by simpa [thas] using ih)

theorem thas_filter_key {α : Type} (k : Nat) (p : Nat → Bool) (t : List (Nat × α)) :
    thas k (t.filter fun e => p e.1) = (thas k t && p k) := by
  rw [Bool.eq_iff_iff]
  simp only [thas, Bool.and_eq_true, List.any_eq_true, List.mem_filter, beq_iff_eq]
  constructor
  · rintro ⟨e, ⟨mem, kept⟩, rfl⟩
    exact ⟨⟨e, mem, rfl⟩, kept⟩
  · rintro ⟨⟨e, mem, rfl⟩, kept⟩
    exact ⟨e, ⟨mem, kept⟩, rfl⟩

/-! ### Key slots (R344 to R346) -/

section
variable (p slot v : Nat) (bs : List Byte) (s : State)

/-- The key and salt from byte `o` of a written slot, with its counter at 0. -/
def keyHalf (o : Nat) : KeyMat :=
  { key := BitVec.ofNat 256 (ofBytes ((bs.drop o).take 32)), salt := BitVec.ofNat 32 (ofBytes ((bs.drop (o + 32)).take 4)), ctr := 0 }

/-- The port with its slot written. -/
def keyStored : State := modLink p (fun l => { l with slots := tput slot { tx := keyHalf bs 0, rx := keyHalf bs 36 } l.slots }) s

theorem keyWrite_eq : keyWrite p slot bs s = keyStored p slot bs s ∨ keyWrite p slot bs s = startTraining p (keyStored p slot bs s) := by
  unfold keyWrite
  dsimp only
  split
  · exact .inr rfl
  · exact .inl rfl

theorem slots_keyWrite : (linkAt (keyWrite p slot bs s) p).slots = tput slot { tx := keyHalf bs 0, rx := keyHalf bs 36 } (linkAt s p).slots := by
  have stored : (linkAt (keyStored p slot bs s) p).slots = tput slot { tx := keyHalf bs 0, rx := keyHalf bs 36 } (linkAt s p).slots := by
    unfold keyStored modLink
    rw [linkAt_putLink, if_pos rfl]
  obtain plain | trains := keyWrite_eq p slot bs s
  · rw [plain, stored]
  · rw [trains, (startTraining_spec p _).2.1, stored]

theorem linkAt_keyWrite_other {q : Nat} (other : q ≠ p) : linkAt (keyWrite p slot bs s) q = linkAt s q := by
  have stored : linkAt (keyStored p slot bs s) q = linkAt s q := (linkAt_putLink ..).trans (if_neg other)
  obtain plain | trains := keyWrite_eq p slot bs s
  · rw [plain, stored]
  · rw [trains, (startTraining_spec p _).2.2 q other, stored]

theorem keyWrite_links : keyWrite p slot bs s = { s with links := (keyWrite p slot bs s).links } := by
  obtain plain | trains := keyWrite_eq p slot bs s
  · rw [plain]
    rfl
  · rw [trains]
    rfl

end

def keySlotRow (slot : Nat) : OdRow := odDom 0x8200 (0x10 + 0x10 * slot) 6 5 72 72

theorem odFind_keySlot {p slot : Nat} (port : p < 6) (bound : slot < 2) :
    odFind 0x8200 (0x10 + 0x10 * slot + p) = some (keySlotRow slot) := by
  interval_cases slot <;> interval_cases p <;> decide

/-- A domain entry of one length takes no other. -/
theorem length_of_domain {s : State} {r : OdRow} {i j : Nat} {bs : List Byte} (passes : writeAbort s r i j bs = 0)
    (domain : tySize r.ty = 0) (exactly : r.lo = r.hi) (plain : ¬ (r.idx = 0x8300 ∧ r.sub = 2)) : bs.length = r.hi := by
  by_contra wrong
  have range := rangeAbort_of_passes passes
  have fails : rowRange r (ofBytes bs) bs.length = some abRangeInvalid := by
    unfold rowRange
    rw [if_pos domain, if_neg plain, if_pos exactly]
    exact abIf_eq_some.mpr ⟨bne_iff_ne.mpr wrong, rfl⟩
  unfold rangeAbort at range
  rw [fails] at range
  cases range

section
variable {s : State} {p slot v : Nat} {bs : List Byte} (runs : live s = true) (port : p < 6)
include runs port

theorem exec_linkKeySlot (bound : slot < 2) (passes : writePasses s (.linkKeySlot p slot bs) = true) :
    exec (.linkKeySlot p slot bs) s = .next (aborted 0 (keyWrite p slot bs s)) := by
  have low : 0x10 + 0x10 * slot + p < 0x30 := by omega
  have effect : applyWrite 0x8200 (0x10 + 0x10 * slot + p) bs s = (0, keyWrite p slot bs s) := by
    have its : (0x10 + 0x10 * slot + p) % 16 = p := by omega
    have number : (0x10 + 0x10 * slot + p) / 16 - 1 = slot := by omega
    show (0, if 0x10 + 0x10 * slot + p < 0x30 then _ else _) = _
    rw [if_pos low, its, number]
  refine exec_accepted rfl runs (odFind_keySlot port bound) (show (5 : Nat) ≠ 3 by decide) passes effect ?_
  rw [keyWrite_links]

def keyClearRow : OdRow := (odRow 0x8200 0x50 6 9 4 0 1 3).masked 3

theorem exec_keyClear (small : v < 4) (passes : writePasses s (.keyClear p v) = true) :
    exec (.keyClear p v) s = .next (aborted 0 (keyClear p v s)) := by
  have entry : odFind 0x8200 (0x50 + p) = some keyClearRow := by interval_cases p <;> decide
  have effect : applyWrite 0x8200 (0x50 + p) (toBytes 1 v) s = (0, keyClear p v s) := by
    have its : (0x50 + p) % 16 = p := by omega
    have value : ofBytes (toBytes 1 v) = v := (ofBytes_toBytes 1 v).trans (Nat.mod_eq_of_lt (by omega))
    show (0, if 0x50 + p < 0x30 then _ else if 0x50 + p < 0x40 then _ else keyClear ((0x50 + p) % 16) (ofBytes (toBytes 1 v)) s) = _
    rw [if_neg (by omega), if_neg (by omega), its, value]
  exact exec_accepted rfl runs entry (by decide) passes effect rfl

end

/-! ### The end of an unlock (R492, R494, R495) -/

theorem endUnlock_spec {s : State} (granted : s.sec.grant ≠ 0) :
    (endUnlock s).sec.grant = 0 ∧ (endUnlock s).sec.duration = 0 ∧ (endUnlock s).rel = { s.rel with armed := [] }
      ∧ ((endUnlock s).sec.tapIr = 3 → (endUnlock s).sec.tapOk = true) ∧ (endUnlock s).mgmt = s.mgmt
      ∧ (endUnlock s).mem = s.mem ∧ (endUnlock s).front = s.front ∧ (endUnlock s).od = s.od
      ∧ (endUnlock s).pending = s.pending := by
  have ends : endUnlock s = closeDebug { s with sec := { s.sec with grant := 0, duration := 0 } } := if_neg granted
  rw [ends]
  refine ⟨rfl, rfl, rfl, fun instrument => ?_, rfl, rfl, rfl, rfl, rfl⟩
  have kept : ¬ (s.sec.tapIr = 3 ∧ s.sec.tapOk = false) := fun both => by
    simp [closeDebug, both] at instrument
  by_contra closed
  simp_all [closeDebug]

def relockRow : OdRow := odRow 0x8300 5 1 2 4 0 1 1

theorem exec_relock {s : State} (runs : live s = true) (passes : writePasses s (.relock 1) = true) :
    exec (.relock 1) s = .next (aborted 0 (endUnlock s)) := by
  have queue : (endUnlock s).pending = s.pending := ite_holds (fun u : State => u.pending = s.pending) rfl rfl
  exact exec_accepted (r := relockRow) rfl runs (by decide) (by decide) passes rfl queue

/-- Settles O46: each row is its operation on the unlock or on the slots of one port. -/
theorem keyAndRelockRows : Obligations.KeyAndRelockRows := by
  intro s runs
  refine ⟨fun p slot bs port bound passes => ?write, fun p v port small passes => ?clear, fun passes granted => ?relock,
    fun passes none => ?idle, fun granted timed past => ?ended, fun held past => ?hold⟩
  case write =>
    have abort := writeAbort_of_writePasses rfl (odFind_keySlot port bound) passes
    have same := keyWrite_links p slot bs s
    refine ⟨length_of_domain abort rfl rfl (fun both => absurd both.1 (by show ¬ (0x8200 = 0x8300); decide)), _,
      exec_linkKeySlot runs port bound passes, congrArg (aborted 0) same, ?_⟩
    have slots : (linkAt (aborted 0 (keyWrite p slot bs s)) p).slots = _ := slots_keyWrite p slot bs s
    rw [slots]
    dsimp only
    rw [tget_tput_same]
    exact ⟨thas_tput_same .., ⟨rfl, rfl⟩, fun k other => tget_tput_other _ _ _ other, fun q other => linkAt_keyWrite_other p slot bs s other⟩
  case clear =>
    refine ⟨_, exec_keyClear runs port small passes, rfl, fun q other => ?_, fun k => ?_⟩
    · exact (linkAt_putLink ..).trans (if_neg other)
    · have slots : (linkAt (aborted 0 (keyClear p v s)) p).slots = (linkAt s p).slots.filter fun e => !bit v e.1 := by
        show (linkAt (putLink p _ s) p).slots = _
        rw [linkAt_putLink, if_pos rfl]
      rw [slots]
      exact thas_filter_key k (fun k => !bit v k) _
  case relock =>
    obtain ⟨grant, duration, rel, tap, mgmt, mem, front, od, _⟩ := endUnlock_spec granted
    refine ⟨_, exec_relock runs passes, ?_, grant, duration, rel, tap, mem, front, od⟩
    show { (endUnlock s).mgmt with lastAbort := 0 } = _
    rw [mgmt]
  case idle =>
    have stays : endUnlock s = s := if_pos none
    rw [exec_relock runs passes, stays]
    rfl
  case ended =>
    obtain ⟨grant, duration, rel, tap, mgmt, mem, front, od, queue⟩ := endUnlock_spec granted
    exact ⟨_, event_exact (by simp [runs, granted, timed, past]) queue, grant, duration, rel, tap, mgmt, mem, front, od⟩
  case hold =>
    have passed : unlockHeld s = false := decide_eq_false (Nat.not_lt.mpr past)
    exact event_exact (by simp [runs, held, passed]) rfl

end Sys2Proof.Machine
end

section
/-! What the loss of a port and the entry of FAULT may touch (R347, R382). -/

namespace Sys2Proof.Machine

-- one proof at a time, for the memory that the check allows
set_option Elab.async false

/-! ### Ports -/

theorem startTraining_frame (p : Nat) (s : State) : Frame [.links] s (startTraining p s) := rfl

theorem pushTx_frame (p : Nat) (fs : List TxFlit) (s : State) : Frame [.links] s (pushTx p fs s) := rfl

theorem pushAck_frame (dst pkt kind : Nat) (s : State) : Frame [.acks] s (pushAck dst pkt kind s) := rfl

theorem cutPacket_frame (x : RxPacket) (s : State) : Frame [.mem, .regions, .sp, .fresh] s (cutPacket x s) :=
  .ite (.refl s) (spoil_frame ..)

theorem unreachable_frame (src pkt : Nat) (s : State) : Frame [.acks] s (unreachable src pkt s) := by
  unfold unreachable
  split
  · exact .ite (.refl s) (pushAck_frame ..)
  · exact .refl s

/-- What the loss of a port touches: its landing packets, acknowledgements and the commands that waited on it. -/
def portParts : List StatePart := [.links, .blocks, .mem, .regions, .sp, .spPoison, .fresh, .acks, .cmds, .items, .e2e, .localRels]

theorem portDrop_drops (p st : Nat) (s : State) : Drops portParts s (portDrop p st s) := by
  refine .foldl (fun _ _ => .after (endCmd_drops ..) (.refl _)) ?_
  refine .foldl (fun _ _ => .afterFrame (unreachable_frame ..) (.refl _)) ?_
  refine .afterFrame (drainHold_frame ..) (.afterFrame (modLink_frame ..) ?_)
  refine .foldl (fun t k => ?_) ?_
  · exact .ite (.afterFrame (pushTx_frame ..) (.refl t))
      (.ite (.afterFrame (modLink_frame ..) (.refl t)) (.ite (.afterFrame (cutPacket_frame ..) (.refl t)) (.refl t)))
  · exact .afterFrame (show Frame [.links] _ _ from rfl)
      (.foldl (fun t x => .ite (.afterFrame (modLink_frame ..) (.refl t)) (.refl t)) (.refl s))

/-! ### Entering FAULT -/

/-- Every command in flight ends with RESET_ABORT. -/
def resetAborts (s : State) : State := s.front.cmds.foldl (fun s c => endCmd c.uid stResetAbort noDetail s) s

theorem resetAborts_drops (s : State) : Drops endParts s (resetAborts s) := .foldl (fun _ _ => .after (endCmd_drops ..) (.refl _)) (.refl s)

theorem enterFault_drops (s : State) : Drops (.mgmt :: .od :: endParts) s (enterFault s) :=
  .afterFrame (setSt_frame ..) (.afterFrame (qs := [.mgmt]) rfl (.after (resetAborts_drops s) (.refl s)))

theorem enterFault_mgmt (s : State) : (enterFault s).mgmt = { s.mgmt with st := 4, stopPending := false } := by
  obtain ⟨f, b, r, e, l, o, same⟩ := enterFault_eq s
  rw [same]

end Sys2Proof.Machine
end

section
/-! The statement on the quiescent boundary, the profile switch and the state requests (R11, R29, R377, R378, R381). -/

namespace Sys2Proof.Machine

-- one proof at a time, for the memory that the check allows
set_option Elab.async false

/-! ### Lists of pending writes -/

theorem foldl_stays {α β : Type} {f : β → α → β} {l : List α} {b : β} (stays : ∀ a ∈ l, f b a = b) : l.foldl f b = b := by
  induction l with
  | nil => rfl
  | cons a rest ih =>
    rw [List.foldl_cons, stays a (by simp)]
    exact ih fun x mem => stays x (by simp [mem])

/-- Every key lies below that of entry `i`. -/
def KeysBelow (i : Nat) (ws : List RwqWrite) : Prop := ∀ w ∈ ws, w.key < odKey i 0

theorem touched_of_below {i lo n : Nat} {ws : List RwqWrite} (below : KeysBelow i ws) (above : odKey i 0 ≤ lo) : touched ws lo n = false := by
  refine List.any_eq_false.mpr fun w mem => ?_
  have key := below w mem
  simp only [Bool.and_eq_true, decide_eq_true_eq, not_and]
  omega

/-- The pending values stored, and the boundary counted where there is one. -/
def pendingStored (s : State) : State :=
  let u : State := { s with od := s.mgmt.rwq.foldl (fun t w => tput w.key w.value t) s.od, mgmt := { s.mgmt with rwq := [] } }
  if s.mgmt.rwq.isEmpty then u else odBump 0x1F81 2 1 u

/-- A pending stop turns into STOPPED. -/
def stopTaken (s : State) : State :=
  if s.mgmt.stopPending then setSt 3 { s with mgmt := { s.mgmt with stopPending := false } } else s

section
variable {ws : List RwqWrite} (below : KeysBelow 0x3200 ws) (old : State) (s : State)
include below

theorem applyNode_below : applyNode old.od ws s = s := by
  refine if_pos ?_
  rw [touched_of_below below (by decide)]
  rfl

theorem applyGroups_below : applyGroups ws s = s := by
  refine foldl_stays fun g mem => if_neg ?_
  have clear (i : Nat) (large : 0x3200 ≤ i) : touched ws (odKey i g) 1 = false :=
    touched_of_below below (by unfold odKey; omega)
  simp [clear]

theorem applyMap_below : applyMap old.od ws s = s := by
  refine if_pos ?_
  rw [touched_of_below below (by decide)]
  rfl

theorem applyPools_below : (List.range 8).foldl (fun s p => applyPool old ws p s) s = s := by
  refine foldl_stays fun p mem => ?_
  have clear (j : Nat) : touched ws (odKey 0x3200 j) 1 = false := touched_of_below below (by unfold odKey; omega)
  unfold applyPool
  rw [clear, clear, clear, clear]
  rfl

theorem applyLeaves_below : applyLeaves ws s = s := by
  unfold applyLeaves
  rw [touched_of_below below (by decide)]
  rfl

theorem applyRoots_below : applyRoots ws s = s := by
  unfold applyRoots
  rw [touched_of_below below (by decide)]
  rfl

theorem applyPorts_below : (List.range 6).foldl (fun s p => applyPort ws p s) s = s := by
  refine foldl_stays fun p mem => ?_
  unfold applyPort
  rw [touched_of_below below (by unfold odKey; omega)]
  rfl

theorem applyRetire_below : applyRetire ws s = s := by
  unfold applyRetire
  rw [touched_of_below below (by decide)]
  rfl

end

theorem boundary_of_below {s : State} (below : KeysBelow 0x3200 s.mgmt.rwq) :
    boundary s = stopTaken (topUp (applyProfile s.mgmt.rwq (pendingStored s))) := by
  unfold boundary
  dsimp only
  rw [applyNode_below below, applyGroups_below below, applyMap_below below, applyPools_below below, applyLeaves_below below,
    applyRoots_below below, applyPorts_below below, applyRetire_below below]
  rfl

theorem applyProfile_untouched {ws : List RwqWrite} {s : State} (clear : touched ws (odKey 0x2000 1) 1 = false) : applyProfile ws s = s := by
  unfold applyProfile
  rw [clear]
  rfl

/-- The last pending value of a key is the one that stands. -/
theorem find_stored (k : Nat) (ws : List RwqWrite) (od : List (Nat × Nat)) :
    (ws.foldl (fun t w => tput w.key w.value t) od).find? (fun e => e.1 = k) =
      match ws.reverse.find? (fun w => w.key = k) with
      | some w => some (k, w.value)
      | none => od.find? (fun e => e.1 = k) := by
  induction ws using List.reverseRecOn with
  | nil => rfl
  | append_singleton ws w ih =>
    rw [List.foldl_append, List.foldl_cons, List.foldl_nil, List.reverse_append, List.reverse_singleton, List.singleton_append, List.find?_cons]
    by_cases same : w.key = k
    · subst same
      simp [find_tput_same]
    · rw [find_tput_other _ _ (Ne.symm same), ih]
      simp [same]

section
variable {s : State} {i j : Nat}

theorem odv_pendingStored_last {w : RwqWrite} (away : odKey i j ≠ odKey 0x1F81 2)
    (last : s.mgmt.rwq.reverse.find? (fun w => w.key = odKey i j) = some w) : odv (pendingStored s) i j = w.value := by
  have stored (m : Mgmt) : odv { s with od := s.mgmt.rwq.foldl (fun t w => tput w.key w.value t) s.od, mgmt := m } i j = w.value := by
    simp only [odv]
    rw [find_stored, last]
  exact ite_holds (fun u : State => odv u i j = w.value) (stored _) ((odv_odBump_other _ away).trans (stored _))

theorem odv_pendingStored_other (away : odKey i j ≠ odKey 0x1F81 2) (unwritten : ∀ w ∈ s.mgmt.rwq, w.key ≠ odKey i j) :
    odv (pendingStored s) i j = odv s i j := by
  have none : s.mgmt.rwq.reverse.find? (fun w => w.key = odKey i j) = none :=
    List.find?_eq_none.mpr fun w mem => by simpa using unwritten w (List.mem_reverse.mp mem)
  have stored (m : Mgmt) : odv { s with od := s.mgmt.rwq.foldl (fun t w => tput w.key w.value t) s.od, mgmt := m } i j = odv s i j := by
    simp only [odv]
    rw [find_stored, none]
  exact ite_holds (fun u : State => odv u i j = odv s i j) (stored _) ((odv_odBump_other _ away).trans (stored _))

theorem odv_pendingStored_count (some_ : s.mgmt.rwq ≠ []) (unwritten : ∀ w ∈ s.mgmt.rwq, w.key ≠ odKey 0x1F81 2) :
    odv (pendingStored s) 0x1F81 2 = (odv s 0x1F81 2 + 1) % 2 ^ 32 := by
  have none : s.mgmt.rwq.reverse.find? (fun w => w.key = odKey 0x1F81 2) = none :=
    List.find?_eq_none.mpr fun w mem => by simpa using unwritten w (List.mem_reverse.mp mem)
  have stored (m : Mgmt) : odv { s with od := s.mgmt.rwq.foldl (fun t w => tput w.key w.value t) s.od, mgmt := m } 0x1F81 2 = odv s 0x1F81 2 := by
    simp only [odv]
    rw [find_stored, none]
  have counted : pendingStored s = odBump 0x1F81 2 1 _ := if_neg (by simpa using some_)
  rw [counted, odv_odBump_same (w := 32) _ (by decide), stored]

end

/-! ### The end of a boundary -/

theorem pendingStored_frame (s : State) : Frame [.od, .mgmt] s (pendingStored s) := .ite rfl rfl

theorem pendingStored_mgmt (s : State) : (pendingStored s).mgmt = { s.mgmt with rwq := [] } :=
  ite_holds (fun u : State => u.mgmt = { s.mgmt with rwq := [] }) rfl rfl

theorem topUp_frame (s : State) : Frame [.credits] s (topUp s) := .ite rfl (.refl s)

theorem stopTaken_frame (s : State) : Frame [.mgmt, .od] s (stopTaken s) := .ite (.after (setSt_frame ..) rfl) (.refl s)

theorem stopTaken_mgmt (s : State) :
    (stopTaken s).mgmt.st = (if s.mgmt.stopPending then 3 else s.mgmt.st) ∧ (stopTaken s).mgmt.stopPending = false
      ∧ (stopTaken s).mgmt.rwq = s.mgmt.rwq := by
  unfold stopTaken
  cases pending : s.mgmt.stopPending with
  | true =>
    rw [if_pos rfl, setSt_eq]
    exact ⟨rfl, rfl, rfl⟩
  | false => exact ⟨rfl, pending, rfl⟩

theorem odv_stopTaken_other {i j : Nat} {s : State} (away : odKey i j ≠ odKey 0x1F80 4) : odv (stopTaken s) i j = odv s i j :=
  ite_holds (fun u : State => odv u i j = odv s i j) (odv_setSt_other _ _ away) rfl

/-! ### A change of the profile (R29) -/

theorem tget_map_every {α : Type} {P : α → Prop} {f : Nat × α → α} (every : ∀ e, P (f e)) {d : α} (start : P d) (l : List (Nat × α)) (n : Nat) :
    P (tget d (l.map fun e => (e.1, f e)) n) := by
  induction l with
  | nil => exact start
  | cons e l ih =>
    simp only [List.map_cons, tget]
    split
    · exact every _
    · exact ih

/-- No line, no leaf and no summary is cached. -/
def NoneCached (x : Region) : Prop := x.lines = [] ∧ x.leaves = [] ∧ x.loam = []

theorem applyProfile_switches {ws : List RwqWrite} {s : State} (written : touched ws (odKey 0x2000 1) 1 = true)
    (changes : odv s 0x2000 1 ≠ odv s 0x2000 2) :
    (applyProfile ws s).front.switching = some (odv s 0x2000 1) ∧ ∀ r, NoneCached (regionAt (applyProfile ws s) r) := by
  have taken : (touched ws (odKey 0x2000 1) 1 && odv s 0x2000 1 != odv s 0x2000 2) = true := by simp [written, changes]
  have regions : (applyProfile ws s).regions = (invalidateCaches s).regions.map fun e =>
      (e.1, { e.2 with leaves := [], loam := [], psum := [], parts := [] }) := by
    unfold applyProfile
    rw [if_pos taken]
  have invalid (r : Nat) : (tget region0 (invalidateCaches s).regions r).lines = [] := by
    unfold invalidateCaches
    exact tget_map_every (P := fun x : Region => x.lines = []) (fun _ => rfl) rfl s.regions r
  refine ⟨by unfold applyProfile; rw [if_pos taken]; rfl, fun r => ?_⟩
  unfold NoneCached regionAt
  rw [regions]
  exact ⟨tget_map_holds (P := fun x : Region => x.lines = []) (f := fun _ x => { x with leaves := [], loam := [], psum := [], parts := [] })
      (fun _ _ h => h) (invalid r),
    tget_map_every (P := fun x : Region => x.leaves = []) (fun _ => rfl) rfl _ r,
    tget_map_every (P := fun x : Region => x.loam = []) (fun _ => rfl) rfl _ r⟩

/-! ### A boundary empties the list -/

section
variable (old : State) (od : List (Nat × Nat)) (ws : List RwqWrite) (s : State)

theorem applyNode_mgmt : (applyNode od ws s).mgmt = s.mgmt :=
  ite_holds (fun u : State => u.mgmt = s.mgmt) rfl
    (ite_holds (fun u : State => u.mgmt = s.mgmt) ((report_frame ..).get State.mgmt) rfl)

theorem resetFlag_mgmt (i : Nat) : (resetFlag i s).mgmt = s.mgmt := (resetFlag_drops i s).frame.get State.mgmt

theorem applyGroup_mgmt (g : Nat) : (applyGroup g s).mgmt = s.mgmt := by
  unfold applyGroup
  rw [resetFlag_mgmt, resetFlag_mgmt]
  rfl

theorem applyGroups_mgmt : (applyGroups ws s).mgmt = s.mgmt :=
  foldl_holds (fun u : State => u.mgmt = s.mgmt) rfl fun u g kept =>
    ite_holds (fun v : State => v.mgmt = s.mgmt) ((applyGroup_mgmt u g).trans kept) kept

theorem applyMap_mgmt : (applyMap od ws s).mgmt = s.mgmt := by
  refine ite_holds (fun u : State => u.mgmt = s.mgmt) rfl (ite_holds (fun u : State => u.mgmt = s.mgmt) ((report_frame ..).get State.mgmt) ?_)
  refine foldl_holds (fun u : State => u.mgmt = s.mgmt) ?_ fun u i kept => (resetFlag_mgmt u i).trans kept
  exact foldl_holds (fun u : State => u.mgmt = s.mgmt) rfl fun u i kept => kept

theorem applyPool_mgmt (p : Nat) : (applyPool old ws p s).mgmt = s.mgmt := by
  refine ite_holds (fun u : State => u.mgmt = s.mgmt) rfl (((initPool_frame ..).get State.mgmt).trans ?_)
  have frames : ∀ u : State, u.mgmt = s.mgmt → (if touched ws (odKey 0x3200 (0x30 + p)) 1 then odPut 0x3200 (0x60 + p) (poolCount u p) u else u).mgmt
      = s.mgmt := fun u kept => ite_holds (fun v : State => v.mgmt = s.mgmt) kept kept
  exact ite_holds (fun u : State => u.mgmt = s.mgmt) (frames s rfl) (frames s rfl)

theorem applyLeaves_mgmt : (applyLeaves ws s).mgmt = s.mgmt :=
  ite_holds (fun u : State => u.mgmt = s.mgmt) ((initLeaves_frame _).get State.mgmt) rfl

theorem applyRoots_mgmt : (applyRoots ws s).mgmt = s.mgmt := ite_holds (fun u : State => u.mgmt = s.mgmt) rfl rfl

theorem applyProfile_mgmt : (applyProfile ws s).mgmt = s.mgmt := ite_holds (fun u : State => u.mgmt = s.mgmt) rfl rfl

theorem applyPort_mgmt (p : Nat) : (applyPort ws p s).mgmt = s.mgmt := by
  refine ite_holds (fun u : State => u.mgmt = s.mgmt) rfl (ite_holds (fun u : State => u.mgmt = s.mgmt) ?_ ?_)
  · exact ite_holds (fun u : State => u.mgmt = s.mgmt) rfl ((portDrop_drops ..).frame.get State.mgmt)
  · exact ite_holds (fun u : State => u.mgmt = s.mgmt) rfl rfl

/-- The blocks of a list that a mask names retire. -/
def retireNamed (m : Nat) (l : List Nat) : State :=
  l.foldl (fun s b => if m.testBit b ∧ !(blockAt s b).retired then retireBlock b 0 s else s) s

theorem retireNamed_mgmt (m : Nat) (l : List Nat) : (retireNamed s m l).mgmt = s.mgmt :=
  foldl_holds (fun u : State => u.mgmt = s.mgmt) rfl fun _ _ kept =>
    ite_holds (fun v : State => v.mgmt = s.mgmt) (((retireBlock_frame ..).get State.mgmt).trans kept) kept

theorem applyRetire_eq : applyRetire ws s = if touched ws (odKey 0x6200 3) 1 then
      (if allRetired (retireNamed s (odv s 0x6200 3) (presentBlocks s)) then enterFault (retireNamed s (odv s 0x6200 3) (presentBlocks s))
        else retireNamed s (odv s 0x6200 3) (presentBlocks s))
    else s := rfl

theorem applyRetire_rwq : (applyRetire ws s).mgmt.rwq = s.mgmt.rwq := by
  rw [applyRetire_eq]
  have retired := retireNamed_mgmt s (odv s 0x6200 3) (presentBlocks s)
  generalize retireNamed s (odv s 0x6200 3) (presentBlocks s) = u at retired ⊢
  refine ite_holds (fun u : State => u.mgmt.rwq = s.mgmt.rwq) (ite_holds (fun u : State => u.mgmt.rwq = s.mgmt.rwq) ?_ ?_) rfl
  · rw [enterFault_mgmt, retired]
  · rw [retired]

/-- The entries applied, up to the retirement of blocks. -/
def configured : State :=
  let s := applyMap old.od ws (applyGroups ws (applyNode old.od ws s))
  let s := applyRoots ws (applyLeaves ws ((List.range 8).foldl (fun s p => applyPool old ws p s) s))
  (List.range 6).foldl (fun s p => applyPort ws p s) (applyProfile ws s)

theorem configured_mgmt : (configured old ws s).mgmt = s.mgmt := by
  have ports (u : State) : ((List.range 6).foldl (fun s p => applyPort ws p s) u).mgmt = u.mgmt :=
    foldl_holds (fun v : State => v.mgmt = u.mgmt) rfl fun v p kept => (applyPort_mgmt ws v p).trans kept
  have pools (u : State) : ((List.range 8).foldl (fun s p => applyPool old ws p s) u).mgmt = u.mgmt :=
    foldl_holds (fun v : State => v.mgmt = u.mgmt) rfl fun v p kept => (applyPool_mgmt old ws v p).trans kept
  unfold configured
  rw [ports, applyProfile_mgmt, applyRoots_mgmt, applyLeaves_mgmt, pools, applyMap_mgmt, applyGroups_mgmt, applyNode_mgmt]

theorem boundary_eq : boundary s = stopTaken (topUp (applyRetire s.mgmt.rwq (configured s s.mgmt.rwq (pendingStored s)))) := rfl

theorem boundary_rwq : (boundary s).mgmt.rwq = [] := by
  rw [boundary_eq, (stopTaken_mgmt _).2.2, (topUp_frame _).get State.mgmt]
  refine (applyRetire_rwq ..).trans ?_
  rw [configured_mgmt, pendingStored_mgmt]

end

/-! ### The four kinds of boundary that O43 names -/

section
variable {s : State}

theorem boundary_without_writes (none : s.mgmt.rwq = []) (stops : s.mgmt.stopPending = true) :
    Frame [.credits, .mgmt, .od] s (boundary s) ∧ (boundary s).mgmt.st = 3 ∧ (boundary s).mgmt.stopPending = false := by
  have plain : applyProfile s.mgmt.rwq (pendingStored s) = pendingStored s := applyProfile_untouched (by rw [none]; rfl)
  rw [boundary_of_below (by rw [none]; exact fun w mem => absurd mem (List.not_mem_nil)), plain]
  obtain ⟨st, stop, _⟩ := stopTaken_mgmt (topUp (pendingStored s))
  have mgmt : (topUp (pendingStored s)).mgmt = { s.mgmt with rwq := [] } :=
    ((topUp_frame _).get State.mgmt).trans (pendingStored_mgmt s)
  refine ⟨.after (stopTaken_frame _) (.after (topUp_frame _) (pendingStored_frame s).mono), ?_, stop⟩
  rw [st, mgmt]
  exact if_pos stops

/-- A boundary whose writes are of the command port's entries only. -/
theorem boundary_of_port_writes (some_ : s.mgmt.rwq ≠ []) (port : ∀ w ∈ s.mgmt.rwq, w.key / 256 = 0x2200) :
    odv (boundary s) 0x1F81 2 = (odv s 0x1F81 2 + 1) % 2 ^ 32
    ∧ (∀ j w, j < 256 → s.mgmt.rwq.reverse.find? (fun w => w.key = odKey 0x2200 j) = some w → odv (boundary s) 0x2200 j = w.value)
    ∧ (boundary s).mgmt.st = (if s.mgmt.stopPending then 3 else s.mgmt.st) ∧ (boundary s).mgmt.stopPending = false
    ∧ Frame [.credits, .mgmt, .od] s (boundary s) := by
  have within : ∀ w ∈ s.mgmt.rwq, odKey 0x2200 0 ≤ w.key ∧ w.key < odKey 0x2300 0 := fun w mem => by
    have key := port w mem
    unfold odKey
    omega
  have plain : applyProfile s.mgmt.rwq (pendingStored s) = pendingStored s := by
    refine applyProfile_untouched (List.any_eq_false.mpr fun w mem => ?_)
    have key := (within w mem).1
    have apart : odKey 0x2000 1 + 1 < odKey 0x2200 0 := by decide
    simp only [Bool.and_eq_true, decide_eq_true_eq, not_and]
    omega
  have below : KeysBelow 0x3200 s.mgmt.rwq := fun w mem => (within w mem).2.trans (by decide)
  rw [boundary_of_below below, plain]
  obtain ⟨st, stop, _⟩ := stopTaken_mgmt (topUp (pendingStored s))
  have mgmt : (topUp (pendingStored s)).mgmt = { s.mgmt with rwq := [] } :=
    ((topUp_frame _).get State.mgmt).trans (pendingStored_mgmt s)
  have values {i j : Nat} (away : odKey i j ≠ odKey 0x1F80 4) :
      odv (stopTaken (topUp (pendingStored s))) i j = odv (pendingStored s) i j :=
    (odv_stopTaken_other away).trans (odv_of_od ((topUp_frame _).get State.od) i j)
  refine ⟨?_, fun j w small last => ?_, ?_, stop, .after (stopTaken_frame _) (.after (topUp_frame _) (pendingStored_frame s).mono)⟩
  · rw [values (by decide)]
    refine odv_pendingStored_count some_ fun w mem same => ?_
    have key := (within w mem).1
    rw [same] at key
    exact absurd key (by decide)
  · rw [values (by unfold odKey; omega)]
    exact odv_pendingStored_last (by unfold odKey; omega) last
  · rw [st, mgmt]

/-- A boundary that writes another profile. -/
theorem boundary_of_profile {p : Nat} (one : s.mgmt.rwq = [{ key := odKey 0x2000 1, value := p }]) (changes : p ≠ odv s 0x2000 2) :
    (boundary s).front.switching = some p ∧ ∀ r, NoneCached (regionAt (boundary s) r) := by
  have asked : odv (pendingStored s) 0x2000 1 = p :=
    odv_pendingStored_last (w := { key := odKey 0x2000 1, value := p }) (by decide) (by rw [one]; rfl)
  have held : odv (pendingStored s) 0x2000 2 = odv s 0x2000 2 :=
    odv_pendingStored_other (by decide) fun w mem => by
      rw [one, List.mem_singleton] at mem
      subst mem
      show odKey 0x2000 1 ≠ odKey 0x2000 2
      decide
  have below : KeysBelow 0x3200 s.mgmt.rwq := fun w mem => by
    rw [one, List.mem_singleton] at mem
    subst mem
    show odKey 0x2000 1 < odKey 0x3200 0
    decide
  have frame : Frame [.credits, .mgmt, .od] (applyProfile s.mgmt.rwq (pendingStored s)) (boundary s) := by
    rw [boundary_of_below below]
    exact .after (stopTaken_frame _) (topUp_frame _).mono
  obtain ⟨switching, cleared⟩ := applyProfile_switches (ws := s.mgmt.rwq) (s := pendingStored s) (by rw [one]; rfl) (by rw [asked, held]; exact changes)
  refine ⟨(frame.get (·.front.switching)).trans (switching.trans (congrArg some asked)), fun r => ?_⟩
  have regions : regionAt (boundary s) r = _ := frame.get (regionAt · r)
  rw [regions]
  exact cleared r

end

/-! ### State requests (R381) -/

def stateRequestRow : OdRow := odRow 0x1F80 2 1 2 4 0 1 3

/-- Whether the state admits the request `v`. -/
def requestAdmitted (s : State) (v : Nat) : Bool := (v = 2 && (s.mgmt.st = 1 || s.mgmt.st = 3)) || (v = 3 && s.mgmt.st = 2)

section
variable {s : State} {v : Nat}

theorem writeAbort_admitted (normal : s.mgmt.recovering = false) (known : v = 2 ∨ v = 3) (admitted : requestAdmitted s v = true) :
    writeAbort s stateRequestRow 0x1F80 2 (toBytes 1 v) = 0 := by
  have state : s.mgmt.st ∈ [1, 2, 3] := by
    simp only [requestAdmitted, Bool.or_eq_true, Bool.and_eq_true, decide_eq_true_eq] at admitted
    simp only [List.mem_cons, List.mem_nil_iff, or_false]
    omega
  have value : ofBytes (toBytes 1 v) = v := by obtain rfl | rfl := known <;> rfl
  have life : lifeAbort s 0x1F80 2 = none := by simp [lifeAbort, abIf]
  rw [writeAbort_eq_unitAbort (.inr rfl) (by decide) life (stateAbort_none normal state _ _) rfl
    (by obtain rfl | rfl := known <;> rfl) (by obtain rfl | rfl := known <;> rfl), value]
  show ((abIf (!requestAdmitted s v) abStateForbids).getD 0) = 0
  rw [admitted]
  rfl

theorem writeAbort_not_admitted (normal : s.mgmt.recovering = false) (known : v = 1 ∨ v = 2 ∨ v = 3) (refused : requestAdmitted s v = false) :
    writeAbort s stateRequestRow 0x1F80 2 (toBytes 1 v) = 0x04000001 := by
  have value : ofBytes (toBytes 1 v) = v := by obtain rfl | rfl | rfl := known <;> rfl
  have life : lifeAbort s 0x1F80 2 = none := by simp [lifeAbort, abIf]
  cases state : stateAbort s 0x1F80 2 with
  | some e =>
    have code : e = 0x04000001 := by
      unfold stateAbort at state
      rw [if_neg (by simp [normal])] at state
      exact (abIf_eq_some.mp state).2.symm
    subst code
    exact writeAbort_of_stateAbort (by decide) life state
  | none =>
    rw [writeAbort_eq_unitAbort (.inr rfl) (by decide) life state rfl
      (by obtain rfl | rfl | rfl := known <;> rfl) (by obtain rfl | rfl | rfl := known <;> rfl), value]
    show ((abIf (!requestAdmitted s v) abStateForbids).getD 0) = _
    rw [refused]
    rfl

theorem odFind_stateRequest : odFind 0x1F80 2 = some stateRequestRow := by decide

theorem exec_request_refused {row : Instr} (runs : live s = true) (writes : writeOf row = some (0x1F80, 2, toBytes 1 v))
    (normal : s.mgmt.recovering = false) (known : v = 1 ∨ v = 2 ∨ v = 3) (refused : requestAdmitted s v = false) :
    exec row s = .next (aborted 0x04000001 s) := by
  have abort := writeAbort_not_admitted normal known refused
  refine (exec_rejected writes runs odFind_stateRequest (by rw [abort]; decide)).trans ?_
  rw [abort]

/-- What enters OPERATIONAL: the state, and the restored voltage with its check (R381, R403). -/
def operational (s : State) : State :=
  avsRequest { setSt 2 s with power := { (setSt 2 s).power with
    trim := odv (setSt 2 s) 0x5100 3, trimCheck := true, trimRef := refNow (setSt 2 s)
    vidTarget := vidFor { setSt 2 s with power := { (setSt 2 s).power with trimCheck := true, trimRef := refNow (setSt 2 s) } }
      (odv (setSt 2 s) 0x5100 3) } }

theorem stateRequest_operational (s : State) : stateRequest 2 s = topUp (wake false (operational s)) := rfl

theorem avsRequest_power (s : State) : (avsRequest s).power.trim = s.power.trim ∧ (avsRequest s).power.trimCheck = s.power.trimCheck
    ∧ (avsRequest s).power.trimRef = s.power.trimRef :=
  ite_holds (fun u : State => u.power.trim = s.power.trim ∧ u.power.trimCheck = s.power.trimCheck ∧ u.power.trimRef = s.power.trimRef)
    ⟨rfl, rfl, rfl⟩ ⟨rfl, rfl, rfl⟩

theorem avsRequest_frame (s : State) : Frame [.power] s (avsRequest s) := .ite (.refl s) rfl

theorem operational_frame (s : State) : Frame [.power, .mgmt, .od] s (operational s) :=
  .after (avsRequest_frame _) (.after (show Frame [.power] (setSt 2 s) _ from rfl) (setSt_frame 2 s).mono)

theorem operational_power (s : State) :
    (operational s).power.trim = odv s 0x5100 3 ∧ (operational s).power.trimCheck = true ∧ (operational s).power.trimRef = refNow s := by
  obtain ⟨trim, check, ref⟩ := avsRequest_power { setSt 2 s with power := { (setSt 2 s).power with
    trim := odv (setSt 2 s) 0x5100 3, trimCheck := true, trimRef := refNow (setSt 2 s)
    vidTarget := vidFor { setSt 2 s with power := { (setSt 2 s).power with trimCheck := true, trimRef := refNow (setSt 2 s) } }
      (odv (setSt 2 s) 0x5100 3) } }
  refine ⟨trim.trans (odv_setSt_other 2 s (by decide)), check, ref.trans ?_⟩
  exact (setSt_frame 2 s).get refNow

theorem operational_st (s : State) : (operational s).mgmt.st = 2 := by
  have frame : Frame [.power] (setSt 2 s) (operational s) := .after (avsRequest_frame _) rfl
  rw [frame.get State.mgmt, setSt_eq]
  rfl

theorem odv_operational_other {i j : Nat} (away : odKey i j ≠ odKey 0x1F80 4) (s : State) : odv (operational s) i j = odv s i j := by
  have frame : Frame [.power] (setSt 2 s) (operational s) := .after (avsRequest_frame _) rfl
  exact (odv_of_od (frame.get State.od) i j).trans (odv_setSt_other 2 s away)

/-- What the wake event of OPERATIONAL and its grant of credits leave. -/
theorem stateRequest_spec (s : State) :
    (stateRequest 2 s).mgmt.st = 2 ∧ (stateRequest 2 s).power.trim = odv s 0x5100 3 ∧ (stateRequest 2 s).power.trimCheck = true
      ∧ (stateRequest 2 s).power.trimRef = refNow s
      ∧ (stateRequest 2 s).front = { s.front with
          credits := if s.front.refusals.length < 16 then max s.front.credits (odv s 0x2200 6) else s.front.credits } := by
  obtain ⟨trim, check, ref⟩ := operational_power s
  have front : (operational s).front = s.front := (operational_frame s).get State.front
  have st := operational_st s
  have limit := odv_operational_other (i := 0x2200) (j := 6) (by decide) s
  rw [stateRequest_operational]
  generalize operational s = u at *
  have ramp := wake_ramp false u
  have woken := wake_frame false u
  have st' : (wake false u).mgmt.st = 2 := (congrArg Mgmt.st (woken.get State.mgmt)).trans st
  have front' : (wake false u).front = s.front := (woken.get State.front).trans front
  have limit' : odv (wake false u) 0x2200 6 = odv s 0x2200 6 := (odv_wake_other false u (by decide) (by decide)).trans limit
  generalize wake false u = w at *
  have granted := topUp_frame w
  have power : (topUp w).power = w.power := granted.get State.power
  refine ⟨(congrArg Mgmt.st (granted.get State.mgmt)).trans st', ?_, ?_, ?_, ?_⟩
  · rw [power, ramp]
    exact trim
  · rw [power, ramp]
    exact check
  · rw [power, ramp]
    exact ref
  · unfold topUp
    rw [front', st', limit']
    by_cases room : s.front.refusals.length < 16
    · rw [if_pos ⟨Nat.le_refl 2, room⟩, if_pos room]
    · rw [if_neg fun both => room both.2, if_neg room, front']

theorem stateRequest_frame (s : State) : Frame (.mgmt :: .credits :: wakeParts) s (stateRequest 2 s) :=
  .after (topUp_frame _) (.after (wake_frame ..) (operational_frame s).mono)

end

/-! ### The end of a profile switch (R29) -/

theorem profileSwitched_spec (p : Nat) (s : State) :
    let t := wake true (odBump 0x2000 3 1 (odPut 0x2000 2 p { s with front := { s.front with switching := none } }))
    odv t 0x2000 2 = p ∧ odv t 0x2000 3 = (odv s 0x2000 3 + 1) % 2 ^ 32 ∧ Frame (.switching :: wakeParts) s t
      ∧ t.front = { s.front with switching := none } := by
  have frame : Frame (.switching :: wakeParts) s _ :=
    .after (wake_frame true (odBump 0x2000 3 1 (odPut 0x2000 2 p { s with front := { s.front with switching := none } }))) rfl
  have counts : odv (odPut 0x2000 2 p { s with front := { s.front with switching := none } }) 0x2000 3 = odv s 0x2000 3 :=
    odv_odPut_other _ _ (by decide)
  refine ⟨?_, ?_, frame, (wake_frame ..).get State.front⟩
  · rw [odv_wake_other _ _ (by decide) (by decide), odv_odBump_other _ (by decide), odv_odPut_same]
  · rw [odv_wake_other _ _ (by decide) (by decide), odv_odBump_same (w := 32) _ (by decide), counts]

/-! ### The statement -/

theorem queueWrite_waits {s : State} {i j v : Nat} (waits : s.mgmt.st = 2 ∨ quiescent s = false) :
    queueWrite i j v s = { s with mgmt := { s.mgmt with rwq := s.mgmt.rwq ++ [{ key := odKey i j, value := v }] } } := by
  refine if_neg fun both => ?_
  obtain ⟨idle, quiet⟩ := both
  obtain operational | busy := waits
  · have st : s.mgmt.st = 1 ∨ s.mgmt.st = 3 := idle
    omega
  · have same : quiescent s = true := quiet
    rw [busy] at same
    cases same

/-- Settles O43: a list of keys below OD 3200h, as each of the named ones is, reaches no entry with an effect but the profile. -/
theorem dictionaryStateRows : Obligations.DictionaryStateRows := by
  refine ⟨⟨fun row i j bs r s writes runs entry queued passes waits => ?queue, fun s quiet waits => ?boundary, fun p s runs switching => ?switched⟩,
    fun s runs normal => ⟨fun admits => ?operational, fun refuses => ?refused, fun operational => ?stopped, fun other => ?notStopped, ?preop⟩⟩
  case queue =>
    have abort := writeAbort_of_writePasses writes entry passes
    refine exec_written writes runs (code := 0) ?_ rfl
    simp only [odWrite, odExists, entry, abort, queued, queueWrite_waits waits]
    rfl
  case boundary =>
    have admits : (quiescent s && (!s.mgmt.rwq.isEmpty || s.mgmt.stopPending)) = true := by
      obtain some_ | stops := waits
      · simp [quiet, some_]
      · simp [quiet, stops]
    refine ⟨{ boundary s with pending := s.pending }, event_of admits, boundary_rwq s, fun none => ?_, fun some_ port => ?_, fun p one changes => ?_⟩
    · have stops : s.mgmt.stopPending = true := waits.resolve_left fun some_ => some_ none
      obtain ⟨frame, st, stop⟩ := boundary_without_writes none stops
      exact ⟨st, stop, frame.get State.sp, frame.get State.flags, frame.get State.links⟩
    · obtain ⟨count, last, st, stop, frame⟩ := boundary_of_port_writes some_ port
      have same : { boundary s with pending := s.pending } = boundary s := by
        have queue : (boundary s).pending = s.pending := frame.get State.pending
        rw [← queue]
      rw [same]
      exact ⟨count, last, st, stop, frame⟩
    · exact boundary_of_profile one changes
  case switched =>
    obtain ⟨profile, count, frame, front⟩ := profileSwitched_spec p s
    refine ⟨_, ?_, profile, count, front, frame.get State.sp, frame.get State.flags, frame.get State.links, frame.get State.paged⟩
    show execProfileSwitchComplete s = _
    unfold execProfileSwitchComplete
    rw [switching]
    exact event_exact runs (frame.get State.pending)
  case operational =>
    have abort := writeAbort_admitted (v := 2) normal (.inl rfl) (by obtain one | three := admits <;> simp [requestAdmitted, *])
    obtain ⟨st, trim, check, ref, front⟩ := stateRequest_spec s
    have frame := stateRequest_frame s
    have row : exec .requestOperational s = .next (aborted 0 (stateRequest 2 s)) :=
      exec_written rfl runs (odWrite_of_passes odFind_stateRequest (by decide) abort) (frame.get State.pending)
    generalize stateRequest 2 s = t at *
    exact ⟨_, row, st, rfl, trim, check, ref, front, frame.get State.sp, frame.get State.flags, frame.get State.links, frame.get State.paged⟩
  case refused =>
    exact exec_request_refused (v := 2) runs rfl normal (by decide) (by simpa [requestAdmitted] using refuses)
  case stopped =>
    have abort := writeAbort_admitted (v := 3) normal (.inr rfl) (by simp [requestAdmitted, operational])
    exact exec_written rfl runs (odWrite_of_passes odFind_stateRequest (by decide) abort) rfl
  case notStopped =>
    exact exec_request_refused (v := 3) runs rfl normal (by decide) (by simpa [requestAdmitted] using other)
  case preop =>
    exact exec_request_refused (v := 1) runs rfl normal (by decide) rfl

end Sys2Proof.Machine
end

section
/-! The statement on the lanes of a port and on the rows and columns of a repaired block (R74, R319). -/

namespace Sys2Proof.Machine

-- one proof at a time, for the memory that the check allows
set_option Elab.async false

/-! ### Lanes (R319) -/

/-- Fields of one width, taken one after the other, are the value again. -/
theorem pack_bits (w n x : Nat) : pack ((List.range n).map fun i => (w, bits x (w * i) w)) = x % 2 ^ (w * n) := by
  induction n generalizing x with
  | zero => simp [pack, Nat.mod_one]
  | succ n ih =>
    have shift (i : Nat) : bits x (w * (i + 1)) w = bits (x / 2 ^ w) (w * i) w := by
      unfold bits
      rw [Nat.div_div_eq_div_mul, ← Nat.pow_add, Nat.mul_succ, Nat.add_comm w]
    have first : bits x (w * 0) w = x % 2 ^ w := by simp [bits]
    have rest : ((List.range n).map Nat.succ).map (fun i => (w, bits x (w * i) w)) = (List.range n).map fun i => (w, bits (x / 2 ^ w) (w * i) w) := by
      rw [List.map_map]
      refine List.map_congr_left fun i _ => ?_
      show (w, bits x (w * (i + 1)) w) = _
      rw [shift]
    rw [List.range_succ_eq_map, List.map_cons, rest, first]
    show x % 2 ^ w % 2 ^ w + 2 ^ w * pack _ = _
    rw [ih, Nat.mod_mod, Nat.mul_succ, Nat.add_comm (w * n), Nat.pow_add, Nat.mod_mul]

theorem toNat_laneOf (f : Flit) (i : Nat) : (laneOf f i).toNat = bits f.toNat (256 * i) 256 :=
  (BitVec.toNat_ofNat ..).trans (Nat.mod_eq_of_lt (bits_lt ..))

/-- Byte `k` of a lane lies within the lane's 256 bits. -/
theorem bits_bits {x lo w k n : Nat} (within : k + n ≤ w) : bits (bits x lo w) k n = bits x (lo + k) n := by
  refine Nat.eq_of_testBit_eq fun j => ?_
  simp only [bits, Nat.testBit_mod_two_pow, Nat.testBit_div_two_pow]
  by_cases small : j < n
  · have inner : j + k < w := by omega
    have place : j + k + lo = j + (lo + k) := by omega
    simp [small, inner, place]
  · simp [small]

theorem ofLanes_lanes (f : Flit) : ofLanes ((List.range 8).map (laneOf f)) = f := by
  have fields : ((List.range 8).map (laneOf f)).map (fun b => (256, b.toNat)) = (List.range 8).map fun i => (256, bits f.toNat (256 * i) 256) := by
    rw [List.map_map]
    refine List.map_congr_left fun i _ => ?_
    show (256, (laneOf f i).toNat) = _
    rw [toNat_laneOf]
  unfold ofLanes
  rw [fields, pack_bits]
  have width : 256 * 8 = 2048 := rfl
  rw [width, Nat.mod_eq_of_lt f.isLt]
  exact (BitVec.ofNat_toNat 2048 f).trans (BitVec.setWidth_eq f)

/-! ### Fuse load -/

theorem startVoltage_sec (s : State) : (startVoltage s).sec = s.sec :=
  ite_holds (fun u : State => u.sec = s.sec) rfl ((avsRequest_frame s).get State.sec)

theorem bootFail_sec (code : Nat) (s : State) : (bootFail code s).sec = s.sec := (enterFault_drops _).frame.get State.sec

theorem bootAdvance_sec (s : State) : (bootAdvance s).sec = s.sec := by
  refine ite_holds (fun u : State => u.sec = s.sec) rfl (ite_holds (fun u : State => u.sec = s.sec) (bootFail_sec ..)
    (ite_holds (fun u : State => u.sec = s.sec) (bootFail_sec ..) (ite_holds (fun u : State => u.sec = s.sec) (bootFail_sec ..) ?_)))
  exact startVoltage_sec _

/-! ### Repair (R74) -/

/-- The physical place of logical row or column `i` where `q` is bypassed. -/
theorem place_lt {q i j : Nat} (h : i < j) : (if i < q then i else i + 1) < if j < q then j else j + 1 := by
  split <;> split <;> omega

/-- The 16 logical places are the 17 physical ones but the bypassed one. -/
theorem exists_place_iff {q : Nat} (bound : q ≤ 16) (n : Nat) : (∃ i < 16, (if i < q then i else i + 1) = n) ↔ n < 17 ∧ n ≠ q := by
  constructor
  · rintro ⟨i, small, rfl⟩
    split <;> omega
  · rintro ⟨small, other⟩
    by_cases below : n < q
    · exact ⟨n, by omega, if_pos below⟩
    · exact ⟨n - 1, by omega, (if_neg (by omega)).trans (by omega)⟩

/-- Settles O53: eight fields of 256 bits make the flit; and both directions of a block are one map of places. -/
theorem lanesAndRepair : Obligations.LanesAndRepair := by
  refine ⟨fun f i k lane byte => ?_, ofLanes_lanes, fun f s power released alive strapped unfused => ?_, fun s b row col => ?_⟩
  · show bits (laneOf f i).toNat (8 * k) 8 = bits f.toNat (8 * (32 * i + k)) 8
    rw [toNat_laneOf, bits_bits (by omega)]
    congr 1
    omega
  · refine ⟨_, event_of (by simp [power, released, alive, strapped, unfused]), fun b => ?_⟩
    show ((bootAdvance (loadFuses f s)).sec.repair.getD b (16, 16)) = _
    rw [bootAdvance_sec]
    rfl
  · exact ⟨fun i j h => ⟨place_lt h, place_lt h⟩, exists_place_iff row, exists_place_iff col⟩

end Sys2Proof.Machine
end

section
/-! The statement on the states of a port: training, loss, retry requests and the end-to-end timeout (R324 to R327, R344 to R348). -/

namespace Sys2Proof.Machine

-- one proof at a time, for the memory that the check allows
set_option Elab.async false

/-! ### Operations that leave every port's state alone -/

/-- Every port has the same state in both. -/
structure SameSt (s t : State) : Prop where
  at_ : ∀ q, (linkAt t q).st = (linkAt s q).st

section
variable {s t u : State}

theorem SameSt.refl (s : State) : SameSt s s := ⟨fun _ => rfl⟩

theorem SameSt.trans (h : SameSt s t) (k : SameSt t u) : SameSt s u := ⟨fun q => (k.at_ q).trans (h.at_ q)⟩

theorem SameSt.of_links (h : t.links = s.links) : SameSt s t := ⟨fun q => by unfold linkAt; rw [h]⟩

theorem SameSt.foldl {β : Type} {f : State → β → State} {l : List β} (hf : ∀ t x, SameSt t (f t x)) : SameSt s (l.foldl f s) :=
  foldl_holds (SameSt s) (.refl s) fun _ x kept => kept.trans (hf _ x)

theorem SameSt.ite {c : Prop} [Decidable c] (h : SameSt s t) (k : SameSt s u) : SameSt s (if c then t else u) :=
  ite_holds (SameSt s) h k

theorem modLink_sameSt (p : Nat) (f : LinkPort → LinkPort) (s : State) (keeps : ∀ l, (f l).st = l.st := by intro; rfl) :
    SameSt s (modLink p f s) := by
  refine ⟨fun q => ?_⟩
  rw [linkAt_modLink]
  split
  · next same => rw [keeps, same]
  · rfl

theorem landTile_links (x : RxPacket) (bs : List Byte) (s : State) : (landTile x bs s).links = s.links := by
  have frame : Frame [.blocks, .sp, .spPoison, .fresh] s (landTile x bs s) := by
    unfold landTile
    exact .after (modBlock_frame ..) (spWrite_frame ..).mono
  exact frame.get State.links

theorem abortArrival_sameSt (p k : Nat) (s : State) : SameSt s (abortArrival p k s) := by
  unfold abortArrival
  split
  · exact .refl s
  · have released : SameSt s (modLink p (fun l => { l with packets := tdel k l.packets }) s) := modLink_sameSt ..
    exact .ite (released.trans (.of_links ((spoil_frame ..).get State.links))) released

theorem landFlit_sameSt {p : Nat} {x : TxFlit} (h : landFlit p x s = some t) : SameSt s t := by
  have landed (y : RxPacket) (bs : List Byte) (u : State) (dead : Bool) (same : u.links = s.links) :
      SameSt s (if dead then s else landTile y bs u) := .ite (.refl s) (.of_links ((landTile_links y bs u).trans same))
  unfold landFlit at h
  dsimp only at h
  split at h
  · split at h
    · cases h
    · cases h
      refine .trans ?_ (modLink_sameSt p _ _)
      exact landed _ _ _ _ rfl
  · split at h
    · cases h
      exact .refl s
    · split at h
      · cases h
        exact abortArrival_sameSt ..
      · cases h
        refine .trans ?_ (modLink_sameSt p _ _)
        exact landed _ _ _ _ rfl

theorem drainHold_sameSt (p : Nat) (s : State) : SameSt s (drainHold p s) := by
  unfold drainHold
  refine .trans ?_ (modLink_sameSt ..)
  refine foldl_holds (fun a : State × List TxFlit × List Nat => SameSt s a.1) (.refl s) fun a x kept => ?_
  dsimp only
  split
  · exact kept
  · split
    · next t flit => exact kept.trans ((landFlit_sameSt flit).trans (.ite (modLink_sameSt ..) (.refl t)))
    · exact kept

end

/-! ### The loss of a port (R346, R347) -/

/-- The port's own record when it drops to state `st`. -/
def droppedPort (st : Nat) (l : LinkPort) : LinkPort :=
  { l with st := st, retry := [], resend := [], txq := [], lock := [], packets := l.packets.filter (fun k => k.1 ≥ 8), hbDue := false
           retryReq := false, refetch := false }

/-- The credits of forwarded flits that waited go back to their input ports. -/
def portCredits (l : List TxFlit) (s : State) : State :=
  l.foldl (fun s x => if x.from_ < 6 then
    modLink x.from_ (fun y => { y with owed := tput x.inIdx (tget 0 y.owed x.inIdx + 1) y.owed }) s else s) s

/-- Only the dropped port changes its state. -/
theorem st_portDrop (p st q : Nat) (s : State) : (linkAt (portDrop p st s) q).st = if q = p then st else (linkAt s q).st := by
  have dropped (u : State) (same : SameSt s u) : (linkAt (modLink p (droppedPort st) u) q).st = if q = p then st else (linkAt s q).st := by
    rw [linkAt_modLink]
    split
    · rfl
    · exact same.at_ q
  have ends (l : List E2e) (u : State) : SameSt u (l.foldl (fun s e => endCmd e.uid stLinkLost noDetail s) u) :=
    .foldl fun v e => .of_links ((endCmd_frame ..).get State.links)
  have answers (l : List (Nat × Nat)) (u : State) : SameSt u (l.foldl (fun s x => unreachable x.1 x.2 s) u) :=
    .foldl fun v x => .of_links ((unreachable_frame ..).get State.links)
  refine ((ends ..).at_ q).trans (((answers ..).at_ q).trans (((drainHold_sameSt ..).at_ q).trans (dropped _ ?_)))
  refine .trans ?packets (.foldl fun v k => ?cut)
  case packets =>
    refine .trans (t := portCredits (linkAt s p).txq s) (.foldl fun v x => .ite (modLink_sameSt ..) (.refl v)) ⟨fun q => ?_⟩
    exact tget_map_of (g := LinkPort.st) (f := fun _ l => { l with packets := l.packets.map fun k => (k.1, if k.2.outPort = p then { k.2 with drop := true } else k.2) }) (fun _ _ => rfl) link0 _ q
  case cut =>
    exact .ite (modLink_sameSt ..) (.ite (modLink_sameSt ..) (.ite (.of_links ((cutPacket_frame ..).get State.links)) (.refl v)))

theorem portLost_frame (p : Nat) (s : State) : Frame (.queues :: .armed :: .od :: portParts) s (portLost p s) := by
  have disarmed : Frame (.queues :: .armed :: .od :: portParts) s (if (fires 0x32 p s).isSome then disarm 0x32 p s else s) :=
    .ite (disarm_frame ..).mono (.refl s)
  exact .after (report_frame ..) (.after (odBump_frame ..) (.after (portDrop_drops ..).frame disarmed))

theorem portLost_pending (p : Nat) (s : State) : (portLost p s).pending = s.pending := by
  have frame := portLost_frame p s
  generalize portLost p s = t at frame ⊢
  exact frame.get State.pending

section
variable {p : Nat} {s : State}

theorem st_portLost (q : Nat) : (linkAt (portLost p s) q).st = if q = p then 3 else (linkAt s q).st := by
  have reported (inj : Bool) (u : State) : (linkAt (report 0x32 p 0 0 0 none inj u) q).st = (linkAt u q).st := by
    have frame := report_frame 0x32 p 0 0 0 none inj u
    generalize report 0x32 p 0 0 0 none inj u = t at frame ⊢
    exact frame.get fun v => (linkAt v q).st
  have disarmed : SameSt s (if (fires 0x32 p s).isSome then disarm 0x32 p s else s) := .ite (.of_links rfl) (.refl s)
  unfold portLost
  dsimp only
  refine (reported ..).trans ?_
  have counted (u : State) : (linkAt (odBump 0x4010 (0xD0 + p) 1 u) q).st = (linkAt u q).st := rfl
  rw [counted, st_portDrop, disarmed.at_]

theorem odv_report_other {code unit cell action addr : Nat} {tag : Option Nat} {inj : Bool} {k l : Nat} (other : odKey k l ≠ odKey 0x6000 4)
    (u : State) : odv (report code unit cell action addr tag inj u) k l = odv u k l := by
  refine ite_holds (fun v : State => odv v k l = odv u k l) (odv_odBump_other _ other) rfl

theorem odv_disarm_other {code unit k l : Nat} (other : odKey k l ≠ odKey 0x6100 3) (u : State) : odv (disarm code unit u) k l = odv u k l :=
  odv_odBump_other _ other

theorem od_portDrop (p st : Nat) (u : State) : (portDrop p st u).od = u.od := by
  have frame := (portDrop_drops p st u).frame
  generalize portDrop p st u = t at frame ⊢
  exact frame.get State.od

/-- A lost port counts once in its own counter (OD 4010h.D0+p). -/
theorem odv_portLost (bound : p < 6) : odv (portLost p s) 0x4010 (0xD0 + p) = (odv s 0x4010 (0xD0 + p) + 1) % 2 ^ 32 := by
  have away (i j : Nat) (h : i ≠ 0x4010) (small : j < 256) : odKey 0x4010 (0xD0 + p) ≠ odKey i j := by
    unfold odKey
    omega
  have width : (match odFind 0x4010 (0xD0 + p) with | some r => 8 * tySize r.ty | none => 64) = 32 := by interval_cases p <;> decide
  have quiet : odv (if (fires 0x32 p s).isSome then disarm 0x32 p s else s) 0x4010 (0xD0 + p) = odv s 0x4010 (0xD0 + p) := by
    split
    · exact odv_disarm_other (away 0x6100 3 (by decide) (by decide)) s
    · rfl
  have before : odv (portDrop p 3 (if (fires 0x32 p s).isSome then disarm 0x32 p s else s)) 0x4010 (0xD0 + p) = odv s 0x4010 (0xD0 + p) :=
    (odv_of_od (od_portDrop ..) _ _).trans quiet
  unfold portLost
  dsimp only
  rw [odv_report_other (away 0x6000 4 (by decide) (by decide)), odv_odBump_same _ width, before]

end

/-! ### Training (R344, R345) -/

section
variable {s t : State} {p : Nat} {g : TrainingFlit}

/-- The parameters of the mesh are not those of a port's status. -/
theorem trainingAgrees_peer (n : Nat) (bound : p < 6) : trainingAgrees (odPut 0x4010 (0x50 + p) n s) p g = trainingAgrees s p g := by
  have mesh (j : Nat) (small : j < 256) : odv (odPut 0x4010 (0x50 + p) n s) 0x4000 j = odv s 0x4000 j :=
    odv_odPut_other _ _ (by unfold odKey; omega)
  have cipher : odv (odPut 0x4010 (0x50 + p) n s) 0x4010 (0x40 + p) = odv s 0x4010 (0x40 + p) :=
    odv_odPut_other _ _ (by unfold odKey; omega)
  have node : myNode (odPut 0x4010 (0x50 + p) n s) = myNode s := mesh 1 (by decide)
  have x : dimX (odPut 0x4010 (0x50 + p) n s) = dimX s := mesh 2 (by decide)
  have y : dimY (odPut 0x4010 (0x50 + p) n s) = dimY s := mesh 3 (by decide)
  have z : dimZ (odPut 0x4010 (0x50 + p) n s) = dimZ s := mesh 4 (by decide)
  have next : neighbour (odPut 0x4010 (0x50 + p) n s) p = neighbour s p := by
    simp only [neighbour, coordOf, dimSize, node, x, y, z]
  have cipher' : encrypted (odPut 0x4010 (0x50 + p) n s) p = encrypted s p := by
    unfold encrypted
    rw [cipher]
  unfold trainingAgrees
  rw [next, x, y, z, cipher']

theorem linkAt_odPut (i j n q : Nat) (s : State) : linkAt (odPut i j n s) q = linkAt s q := rfl

/-- The port as a good training flit leaves it. -/
def trained (g : TrainingFlit) (s : State) (l : LinkPort) : LinkPort :=
  if l.good + 1 ≥ 16 ∧ (l.acked || g.acked) = true then
    { link0 with st := 2, phyReady := l.phyReady, slots := l.slots, hold := l.hold, packets := l.packets, acked := true
                 hbRef := refNow s, hbFc := s.clocks.fc }
  else { l with good := l.good + 1, acked := l.acked || g.acked }

theorem training_eq (bound : p < 6) : training p g s = putLink p
    (if trainingAgrees s p g then trained g s (linkAt s p) else { linkAt s p with st := 4 }) (odPut 0x4010 (0x50 + p) g.node s) := by
  unfold training
  dsimp only
  rw [trainingAgrees_peer _ bound]
  cases trainingAgrees s p g with
  | false => rfl
  | true =>
    unfold trained
    by_cases enough : (linkAt s p).good + 1 ≥ 16 ∧ ((linkAt s p).acked || g.acked) = true
    · rw [if_neg (by decide), if_pos rfl, if_pos enough, if_pos enough]
      rfl
    · rw [if_neg (by decide), if_pos rfl, if_neg enough, if_neg enough]

theorem training_spec (bound : p < 6) (trains : (linkAt s p).st = 1) :
    odv (training p g s) 0x4010 (0x50 + p) = g.node
    ∧ (trainingAgrees s p g = false → (linkAt (training p g s) p).st = 4)
    ∧ (trainingAgrees s p g = true → (linkAt s p).good + 1 ≥ 16 → ((linkAt s p).acked = true ∨ g.acked = true) →
        (linkAt (training p g s) p).st = 2 ∧ (linkAt (training p g s) p).txSeq = 0 ∧ (linkAt (training p g s) p).rxSeq = 0
        ∧ (linkAt (training p g s) p).retry = [] ∧ (linkAt (training p g s) p).used = []
        ∧ (linkAt (training p g s) p).slots = (linkAt s p).slots)
    ∧ (trainingAgrees s p g = true → (linkAt s p).good + 1 < 16 →
        (linkAt (training p g s) p).st = 1 ∧ (linkAt (training p g s) p).good = (linkAt s p).good + 1)
    ∧ Frame [.links, .od] s (training p g s) ∧ ∀ q, q ≠ p → linkAt (training p g s) q = linkAt s q := by
  rw [training_eq bound]
  refine ⟨odv_odPut_same .., fun other => ?_, fun agrees many seen => ?_, fun agrees few => ?_, rfl, fun q other => ?_⟩
  · rw [linkAt_putLink, if_pos rfl, if_neg (by simp [other])]
  · rw [linkAt_putLink, if_pos rfl, if_pos agrees]
    unfold trained
    rw [if_pos ⟨many, by simpa using seen⟩]
    exact ⟨rfl, rfl, rfl, rfl, rfl, rfl⟩
  · rw [linkAt_putLink, if_pos rfl, if_pos agrees]
    unfold trained
    rw [if_neg (by omega)]
    exact ⟨trains, rfl⟩
  · rw [linkAt_putLink, if_neg other]
    rfl

end

/-! ### The statement -/

theorem retryRequest_kept {s : State} {p seq : Nat}
    (few : (if seq = (linkAt s p).askedSeq then (linkAt s p).askedRun + 1 else 1) < odv s 0x4000 8) :
    retryRequest p seq s = putLink p { linkAt s p with
      askedSeq := seq, askedRun := if seq = (linkAt s p).askedSeq then (linkAt s p).askedRun + 1 else 1
      retry := (linkAt s p).retry.filter fun x => (x.seq + 4096 - seq) % 4096 < 2048
      resend := (linkAt s p).retry.filter fun x => (x.seq + 4096 - seq) % 4096 < 2048 } s :=
  if_neg (Nat.not_le.mpr few)

theorem retryRequest_lost {s : State} {p seq : Nat}
    (many : (if seq = (linkAt s p).askedSeq then (linkAt s p).askedRun + 1 else 1) ≥ odv s 0x4000 8) :
    ∃ u, retryRequest p seq s = portLost p u ∧ Frame [.links] s u := ⟨_, if_pos many, rfl⟩

/-- A lost port, as the statements on ports have it. -/
theorem portLost_down {s u : State} {p : Nat} (bound : p < 6) (frame : Frame [.links] s u) :
    (linkAt (portLost p u) p).st = 3 ∧ odv (portLost p u) 0x4010 (0xD0 + p) = (odv s 0x4010 (0xD0 + p) + 1) % 2 ^ 32
      ∧ (portLost p u).flags = s.flags ∧ (portLost p u).paged = s.paged := by
  have lost := portLost_frame p u
  have st : (linkAt (portLost p u) p).st = 3 := (st_portLost p).trans (if_pos rfl)
  have count : odv (portLost p u) 0x4010 (0xD0 + p) = (odv s 0x4010 (0xD0 + p) + 1) % 2 ^ 32 := by
    have counter : odv u 0x4010 (0xD0 + p) = odv s 0x4010 (0xD0 + p) := odv_of_od (frame.get State.od) _ _
    rw [odv_portLost bound, counter]
  generalize portLost p u = t at lost st count ⊢
  exact ⟨st, count, (lost.get State.flags).trans (frame.get State.flags), (lost.get State.paged).trans (frame.get State.paged)⟩

/-- A port whose PHY becomes ready trains where that was all it waited for. -/
theorem phyReady_spec (s : State) (p : Nat) :
    let l := linkAt s p
    let t := if l.st = 0 ∨ (l.st = 5 ∧ keyOk s p) then startTraining p (putLink p { l with phyReady := true } s)
      else putLink p { l with phyReady := true } s
    Frame [.links] s t ∧ (linkAt t p).phyReady = true
      ∧ (l.st = 0 → (linkAt t p).st = (if encrypted s p = true ∧ keyOk s p = false then 5 else 1))
      ∧ (l.st = 5 → (linkAt t p).st = (if keyOk s p then 1 else 5))
      ∧ (l.st ≠ 0 → l.st ≠ 5 → (linkAt t p).st = l.st) ∧ ∀ q, q ≠ p → linkAt t q = linkAt s q := by
  dsimp only
  have keyed : keyOk (putLink p { linkAt s p with phyReady := true } s) p = keyOk s p := by
    unfold keyOk
    rw [linkAt_putLink, if_pos rfl]
    rfl
  obtain ⟨st, _, others⟩ := startTraining_spec p (putLink p { linkAt s p with phyReady := true } s)
  rw [keyed] at st
  have ready : (linkAt (startTraining p (putLink p { linkAt s p with phyReady := true } s)) p).phyReady = true := by
    unfold startTraining
    dsimp only
    rw [linkAt_putLink, if_pos rfl, linkAt_putLink, if_pos rfl]
  have apart (q : Nat) (other : q ≠ p) : linkAt (putLink p { linkAt s p with phyReady := true } s) q = linkAt s q :=
    (linkAt_putLink ..).trans (if_neg other)
  by_cases trains : (linkAt s p).st = 0 ∨ ((linkAt s p).st = 5 ∧ keyOk s p = true)
  · rw [if_pos trains]
    refine ⟨.after (startTraining_frame ..) rfl, ready, fun off => st, fun waits => ?_, fun on free => ?_, fun q other => (others q other).trans (apart q other)⟩
    · have key : keyOk s p = true := by
        obtain off | ⟨_, key⟩ := trains
        · omega
        · exact key
      rw [st, key]
      simp
    · omega
  · rw [if_neg trains]
    refine ⟨rfl, ?_, fun off => absurd (.inl off) trains, fun waits => ?_, fun on free => ?_, apart⟩
    · rw [linkAt_putLink, if_pos rfl]
    · have key : keyOk s p = false := by simpa [waits] using fun key => trains (.inr ⟨waits, key⟩)
      rw [linkAt_putLink, if_pos rfl, key]
      exact waits
    · rw [linkAt_putLink, if_pos rfl]

/-- An early end leaves no acknowledgement awaited for its command. -/
theorem e2e_endCmd {uid status detail : Nat} {s : State} {c : Cmd} (h : cmdOf s uid = some c) (undecided : c.decided = false)
    (going : c.ending = none) : ∀ y ∈ (endCmd uid status detail s).e2e, y.uid ≠ uid := by
  intro y mem
  unfold endCmd at mem
  rw [h] at mem
  dsimp only at mem
  rw [if_neg (by simp [undecided, going])] at mem
  have kept := (List.mem_filter.mp mem).2
  simpa using kept

/-- Settles O52: a loss is one operation, which counts the port once; training ends in one of three records. -/
theorem linkStateRows : Obligations.LinkStateRows := by
  intro s runs
  refine ⟨fun p bound => ⟨fun g trains => ?training, fun trains late => ?timeout, fun seq up => ⟨fun few => ?kept, fun many => ?refused⟩,
    fun up late => ?heartbeat, fun up early => ?early, fun enabled unready => ?ready, fun ready carried => ?lock, fun ready other => ?idle⟩,
    fun tag c e held cmd waits owner late undecided going plain => ?ended⟩
  case training =>
    obtain ⟨peer, mismatch, up, good, frame, others⟩ := training_spec (g := g) bound trains
    have row : exec (.ctrlTraining p g) s = .next (training p g s) :=
      event_exact (by simp [runs, bound, trains]) (frame.get State.pending)
    generalize training p g s = t at *
    exact ⟨t, row, peer, mismatch, up, good, frame, others⟩
  case timeout =>
    exact event_exact (by simp [runs, bound, trains, late]) rfl
  case kept =>
    have same := retryRequest_kept few
    refine ⟨_, event_exact (by simp [runs, bound, up]) (by rw [same]; rfl), ?_⟩
    rw [same, linkAt_putLink, if_pos rfl]
    exact ⟨rfl, rfl, rfl, up, fun q other => (linkAt_putLink ..).trans (if_neg other)⟩
  case refused =>
    obtain ⟨u, same, frame⟩ := retryRequest_lost many
    have lost := portLost_down bound frame
    rw [← same] at lost
    have queue : (retryRequest p seq s).pending = s.pending := by
      rw [same, portLost_pending]
      exact frame.get State.pending
    exact ⟨_, event_exact (by simp [runs, bound, up]) queue, lost⟩
  case heartbeat =>
    exact ⟨_, event_exact (by simp [runs, bound, up, late]) (portLost_pending p s), portLost_down bound (.refl s)⟩
  case early =>
    exact event_not (by simp [early])
  case ready =>
    obtain ⟨frame, isReady, off, key, other, others⟩ := phyReady_spec s p
    exact ⟨_, event_exact (by simp [runs, bound, enabled, unready]) (frame.get State.pending), frame, isReady, off, key, other, others⟩
  case lock =>
    have lost : (if (linkAt s p).st = 1 ∨ (linkAt s p).st = 2 then portLost p (putLink p { linkAt s p with phyReady := false } s)
        else putLink p { linkAt s p with phyReady := false } s) = portLost p (putLink p { linkAt s p with phyReady := false } s) := if_pos carried
    refine ⟨_, (event_exact (by simp [runs, bound, ready]) ?_).trans (congrArg Host.Outcome.next lost), portLost_down bound rfl⟩
    rw [lost, portLost_pending]
    rfl
  case idle =>
    have stays : (if (linkAt s p).st = 1 ∨ (linkAt s p).st = 2 then portLost p (putLink p { linkAt s p with phyReady := false } s)
        else putLink p { linkAt s p with phyReady := false } s) = putLink p { linkAt s p with phyReady := false } s := if_neg other
    refine (event_exact (by simp [runs, bound, ready]) ?_).trans (congrArg Host.Outcome.next stays)
    rw [stays]
    rfl
  case ended =>
    have due : (live s && s.e2e.any fun e => e.uid = c.uid && decide (refNow s ≥ e.refAt + odv s 0x4000 7)) = true := by
      rw [runs, Bool.true_and]
      exact List.any_eq_true.mpr ⟨e, waits, by simp [owner, late]⟩
    have frame := endCmd_frame c.uid stLinkLost noDetail s
    refine ⟨endCmd c.uid stLinkLost noDetail s, endedCmd stLinkLost noDetail c, ?_, cmdOf_endCmd cmd undecided going, ?_, fun y mem => ?_,
      frame.get State.mem, frame.get State.links, frame.get State.flags⟩
    · show execE2eTimeout tag s = _
      unfold execE2eTimeout
      rw [held]
      exact event_exact due (frame.get State.pending)
    · simp [endedCmd, plain, stLinkLost, noDetail]
    · exact e2e_endCmd cmd undecided going y mem

end Sys2Proof.Machine
end

section
/-! The statement on the packing timeout and the deadline of a paced command (chapter 6). -/

namespace Sys2Proof.Machine

-- one proof at a time, for the memory that the check allows
set_option Elab.async false

/-- A release of a set that has members changes the set's commands only. -/
theorem packRelease_cmds {f : Nat} {s : State} (due : packMembers s f ≠ []) :
    ∃ who, (packRelease f s).front.cmds = s.front.cmds.map (packReleased f who) := by
  have front : ∃ who, (packRelease f s).front = { s.front with cmds := s.front.cmds.map (packReleased f who) } := by
    unfold packRelease
    split
    · next none => exact absurd none due
    · refine ⟨?who, ?front⟩
      case front =>
        simp only [apply_ite State.front, odBump_front, ite_self]
        rfl
  obtain ⟨who, front⟩ := front
  exact ⟨who, congrArg Front.cmds front⟩

theorem packMembers_of_packDue {s : State} {f : Nat} (due : packDue s f = true) : packMembers s f ≠ [] := fun none => by
  unfold packDue at due
  rw [none] at due
  cases due

/-- After its release, no walked command of a set waits. -/
theorem packGo_of_released {f : Nat} {who : List Nat} {cs : List Cmd} :
    ∀ x ∈ cs.map (packReleased f who), x.packSet = f → x.walked = true → x.packGo = true := by
  intro x mem its walked
  obtain ⟨y, _, rfl⟩ := List.mem_map.mp mem
  by_cases waits : (y.packSet = f && y.walked && !y.packGo) = true
  · unfold packReleased
    rw [if_pos waits]
  · have same : packReleased f who y = y := if_neg waits
    rw [same] at its walked ⊢
    simpa [its, walked] using waits

/-- Settles O36: a release leaves no walked member waiting; a deadline marks one record. -/
theorem attentionTimerRows : Obligations.AttentionTimerRows := by
  intro tag late c s runs held
  refine ⟨fun set waits due => ?packs, fun attention pacing running unmarked time unstaged cmd => ?deadline⟩
  case packs =>
    obtain ⟨who, cmds⟩ := packRelease_cmds (packMembers_of_packDue due)
    have frame := packRelease_frame c.packSet s
    have released := packGo_of_released (f := c.packSet) (who := who) (cs := s.front.cmds)
    rw [← cmds] at released
    refine ⟨_, ?row, released, ?none, frame⟩
    case row =>
      show execPackTimeout tag s = _
      unfold execPackTimeout
      rw [held]
      exact event_exact (by simp [runs, set, waits, due]) (frame.get State.pending)
    case none =>
      refine List.filter_eq_nil_iff.mpr fun x mem member => ?_
      simp only [Bool.and_eq_true, Bool.not_eq_true', beq_iff_eq] at member
      obtain ⟨⟨⟨⟨_, walked⟩, waiting⟩, its⟩, _⟩ := member
      rw [released x mem its walked] at waiting
      cases waiting
  case deadline =>
    have unset : bit c.flags.toNat 4 = false := unmarked
    have admits : (live s && (dOp c.desc = 0x10 || dOp c.desc = 0x11 || dOp c.desc = 0x12 || dOp c.desc = 0x18) && paced s c && acting c
        && !bit c.flags.toNat 4 && decide (s.clocks.fc = deadlineAt c + late) && !allStaged s c) = true := by
      have fc : s.clocks.fc = deadlineAt c + late := time
      obtain op | op | op | op := attention <;> simp [runs, op, pacing, running, unset, fc, unstaged]
    have noted := cmdOf_modCmd (f := fun x => { x with deadlineOver := satN 16 late }) (fun _ => rfl) cmd
    have marked := cmdOf_modCmd (f := fun x => { x with flags := x.flags ||| BitVec.ofNat 16 (2 ^ 4) }) (fun _ => rfl) noted
    refine ⟨odBump 0x3010 5 1 (flagCmd c.uid 4 (modCmd c.uid (fun x => { x with deadlineOver := satN 16 late }) s)), _, ?row, marked, rfl, ?count, rfl⟩
    case row =>
      show execDeadlineExpiry tag late s = _
      unfold execDeadlineExpiry
      rw [held]
      dsimp only
      exact event_exact admits rfl
    case count => exact odv_odBump_same (w := 32) _ (by decide)

end Sys2Proof.Machine
end

section
/-! The statement on the top-k reduction (R67, R68): the order is strict and total on positions, and insertion keeps the `k` first. -/

namespace Sys2Proof.Machine

-- one proof at a time, for the memory that the check allows
set_option Elab.async false

/-! ### The order of values -/

/-- A value at a lower exponent is scaled by the difference. -/
theorem fxAt_lower (x : Fx) {e f : Int} (low : f ≤ e) (small : e ≤ x.exp) : fxAt x f = fxAt x e * 2 ^ (e - f).toNat := by
  have steps : (x.exp - f).toNat = (x.exp - e).toNat + (e - f).toNat := by omega
  unfold fxAt
  dsimp only
  rw [steps, Nat.pow_add]
  split <;> push_cast <;> ring

/-- Two values compare alike at every exponent below theirs. -/
theorem fxLt_iff {x y : Fx} {f : Int} (hx : f ≤ x.exp) (hy : f ≤ y.exp) : fxLt x y = true ↔ fxAt x f < fxAt y f := by
  have left : min x.exp y.exp ≤ x.exp := Int.min_le_left ..
  have right : min x.exp y.exp ≤ y.exp := Int.min_le_right ..
  have low : f ≤ min x.exp y.exp := Int.le_min.mpr ⟨hx, hy⟩
  have positive : (0 : Int) < 2 ^ (min x.exp y.exp - f).toNat := Int.pow_pos (by decide)
  rw [fxAt_lower x low left, fxAt_lower y low right, mul_lt_mul_iff_left₀ positive]
  exact decide_eq_true_iff

theorem fxLt_irrefl (x : Fx) : fxLt x x = false := decide_eq_false (lt_irrefl _)

theorem fxLt_trans {x y z : Fx} (h : fxLt x y = true) (k : fxLt y z = true) : fxLt x z = true := by
  have lx : min x.exp (min y.exp z.exp) ≤ x.exp := by omega
  have ly : min x.exp (min y.exp z.exp) ≤ y.exp := by omega
  have lz : min x.exp (min y.exp z.exp) ≤ z.exp := by omega
  exact (fxLt_iff lx lz).mpr (((fxLt_iff lx ly).mp h).trans ((fxLt_iff ly lz).mp k))

/-- Of values that are level with a third, neither is below the other. -/
theorem fxLt_of_level {x y z : Fx} (h : fxLt y x = false) (k : fxLt z y = false) : fxLt z x = false := by
  have lx : min x.exp (min y.exp z.exp) ≤ x.exp := by omega
  have ly : min x.exp (min y.exp z.exp) ≤ y.exp := by omega
  have lz : min x.exp (min y.exp z.exp) ≤ z.exp := by omega
  rw [← Bool.not_eq_true, fxLt_iff ly lx] at h
  rw [← Bool.not_eq_true, fxLt_iff lz ly] at k
  rw [← Bool.not_eq_true, fxLt_iff lz lx]
  omega

theorem valGt_irrefl (v : Val) : valGt v v = false := by
  cases v with
  | fin x => exact fxLt_irrefl x
  | inf n => cases n <;> rfl
  | nan => rfl

/-- A value not above a second, which is not above a third, is not above the third. -/
theorem valGt_of_level {u v w : Val} (h : valGt u v = false) (k : valGt v w = false) : valGt u w = false := by
  cases u with
  | nan => rfl
  | fin x =>
    cases v with
    | nan => cases h
    | fin y =>
      cases w with
      | nan => cases k
      | fin z => exact fxLt_of_level (x := x) (y := y) (z := z) h k
      | inf m => simp_all [valGt]
    | inf n => cases w <;> simp_all [valGt]
  | inf n =>
    cases v with
    | nan => cases h
    | fin y => cases w <;> simp_all [valGt]
    | inf m => cases n <;> cases m <;> cases w <;> simp_all [valGt]

theorem valGt_asymm {u v : Val} (h : valGt u v = true) : valGt v u = false := by
  cases u with
  | nan => cases h
  | fin x =>
    cases v with
    | nan => rfl
    | fin y =>
      have above : fxLt y x = true := h
      refine Bool.eq_false_iff.mpr fun below => ?_
      have self := fxLt_trans above (show fxLt x y = true from below)
      rw [fxLt_irrefl] at self
      cases self
    | inf m => simp_all [valGt]
  | inf n => cases v <;> simp_all [valGt]

theorem valGt_trans {u v w : Val} (h : valGt u v = true) (k : valGt v w = true) : valGt u w = true := by
  by_contra not
  have level : valGt u w = false := by simpa using not
  have below : valGt w v = false := valGt_asymm k
  have none := valGt_of_level level below
  rw [h] at none
  cases none

/-! ### The order of entries -/

theorem topBefore_iff {a b : TopE} : topBefore a b = true ↔
    valGt (w32 a.1) (w32 b.1) = true ∨ (valGt (w32 b.1) (w32 a.1) = false ∧ a.2 < b.2) := by
  simp [topBefore]

theorem topBefore_irrefl (a : TopE) : topBefore a a = false := by simp [topBefore, valGt_irrefl]

theorem topBefore_trans {a b c : TopE} (h : topBefore a b = true) (k : topBefore b c = true) : topBefore a c = true := by
  rw [topBefore_iff] at h k ⊢
  by_cases above : valGt (w32 a.1) (w32 c.1) = true
  · exact .inl above
  have level : valGt (w32 a.1) (w32 c.1) = false := by simpa using above
  obtain ab | ⟨ba, first⟩ := h
  · obtain bc | ⟨cb, _⟩ := k
    · exact .inl (valGt_trans ab bc)
    · have none := valGt_of_level level cb
      rw [ab] at none
      cases none
  · obtain bc | ⟨cb, second⟩ := k
    · have none := valGt_of_level ba level
      rw [bc] at none
      cases none
    · exact .inr ⟨valGt_of_level cb ba, first.trans second⟩

theorem topBefore_total {a b : TopE} (apart : a.2 ≠ b.2) (h : topBefore a b = false) : topBefore b a = true := by
  rw [← Bool.not_eq_true, topBefore_iff, not_or, not_and] at h
  obtain ⟨below, later⟩ := h
  rw [topBefore_iff]
  by_cases above : valGt (w32 b.1) (w32 a.1) = true
  · exact .inl above
  · have ordered := later (by simpa using above)
    exact .inr ⟨by simpa using below, by omega⟩

/-! ### Insertion -/

theorem topInsert_perm (e : TopE) (l : List TopE) : (topInsert e l).Perm (e :: l) := by
  induction l with
  | nil => exact .refl _
  | cons x r ih =>
    unfold topInsert
    split
    · exact .refl _
    · exact (ih.cons x).trans (.swap ..)

theorem topInsert_sorted {e : TopE} {l : List TopE} (sorted : l.Pairwise fun a b => topBefore a b = true)
    (fresh : ∀ x ∈ l, x.2 ≠ e.2) : (topInsert e l).Pairwise fun a b => topBefore a b = true := by
  induction l with
  | nil => exact List.pairwise_singleton ..
  | cons x r ih =>
    obtain ⟨first, rest⟩ := List.pairwise_cons.mp sorted
    unfold topInsert
    split
    · next before =>
      refine List.pairwise_cons.mpr ⟨fun y mem => ?_, sorted⟩
      obtain rfl | mem := List.mem_cons.mp mem
      · exact before
      · exact topBefore_trans before (first y mem)
    · next after =>
      refine List.pairwise_cons.mpr ⟨fun y mem => ?_, ih rest fun y mem => fresh y (List.mem_cons_of_mem _ mem)⟩
      obtain rfl | mem := List.mem_cons.mp ((topInsert_perm e r).mem_iff.mp mem)
      · exact topBefore_total (Ne.symm (fresh x (List.mem_cons_self ..))) (by simpa using after)
      · exact first y mem

/-- The `k` first of the entries `ys`, in order. -/
structure FirstOf (k : Nat) (ys l : List TopE) : Prop where
  sorted : l.Pairwise fun a b => topBefore a b = true
  from_ : ∀ x ∈ l, x ∈ ys
  size : l.length = min k ys.length
  full : ∀ x ∈ ys, x ∉ l → l.length = k
  rest : ∀ x ∈ ys, x ∉ l → ∀ y ∈ l, topBefore y x = true

/-- Insertion and a cut at `k` keep the `k` first. -/
theorem FirstOf.insert {k : Nat} {ys l : List TopE} {e : TopE} (h : FirstOf k ys l) (fresh : ∀ x ∈ ys, x.2 ≠ e.2) :
    FirstOf k (ys ++ [e]) ((topInsert e l).take k) := by
  have perm := topInsert_perm e l
  have sorted := topInsert_sorted h.sorted fun x mem => fresh x (h.from_ x mem)
  have length : (topInsert e l).length = l.length + 1 := perm.length_eq
  have parts : (topInsert e l).take k ++ (topInsert e l).drop k = topInsert e l := List.take_append_drop ..
  have cut : ∀ y ∈ (topInsert e l).take k, ∀ x ∈ (topInsert e l).drop k, topBefore y x = true := by
    rw [← parts] at sorted
    exact (List.pairwise_append.mp sorted).2.2
  have dropped (x : TopE) (mem : x ∈ topInsert e l) (out : x ∉ (topInsert e l).take k) : x ∈ (topInsert e l).drop k := by
    rw [← parts] at mem
    exact (List.mem_append.mp mem).resolve_left out
  have size := h.size
  -- an entry that the insertion does not hold was left out before, when the list was full
  have left (x : TopE) (mem : x ∈ ys ++ [e]) (out : x ∉ topInsert e l) : x ∈ ys ∧ x ∉ l := by
    have notIn : ¬ x ∈ e :: l := fun here => out (perm.mem_iff.mpr here)
    rw [List.mem_cons, not_or] at notIn
    obtain mem | mem := List.mem_append.mp mem
    · exact ⟨mem, notIn.2⟩
    · exact absurd (List.mem_singleton.mp mem) notIn.1
  refine ⟨sorted.sublist (List.take_sublist ..), fun x mem => ?_, ?_, fun x mem out => ?_, fun x mem out y kept => ?_⟩
  · obtain rfl | mem := List.mem_cons.mp (perm.mem_iff.mp (List.mem_of_mem_take mem))
    · simp
    · exact List.mem_append_left _ (h.from_ x mem)
  · rw [List.length_take, length, size, List.length_append, List.length_singleton]
    omega
  · rw [List.length_take, length]
    by_cases held : x ∈ topInsert e l
    · have more := List.length_pos_of_mem (dropped x held out)
      rw [List.length_drop, length] at more
      omega
    · obtain ⟨earlier, notIn⟩ := left x mem held
      have full := h.full x earlier notIn
      omega
  · by_cases held : x ∈ topInsert e l
    · exact cut y kept x (dropped x held out)
    · obtain ⟨earlier, notIn⟩ := left x mem held
      have full := h.full x earlier notIn
      obtain rfl | older := List.mem_cons.mp (perm.mem_iff.mp (List.mem_of_mem_take kept))
      · -- the last entry of the full list is the one that gives way
        have one : 0 < ((topInsert y l).drop k).length := by
          rw [List.length_drop, length]
          omega
        obtain ⟨z, last⟩ := List.exists_mem_of_length_pos one
        have before := cut y kept z last
        obtain rfl | inside := List.mem_cons.mp (perm.mem_iff.mp (List.mem_of_mem_drop last))
        · rw [topBefore_irrefl] at before
          cases before
        · exact topBefore_trans before (h.rest x earlier notIn z inside)
      · exact h.rest x earlier notIn y older

theorem firstOf_foldl (k : Nat) (xs : List TopE) (apart : (xs.map (·.2)).Nodup) :
    FirstOf k xs (xs.foldl (fun a e => (topInsert e a).take k) []) := by
  induction xs using List.reverseRecOn with
  | nil => exact ⟨.nil, by simp, by simp, by simp, by simp⟩
  | append_singleton ys e ih =>
    rw [List.map_append, List.nodup_append] at apart
    obtain ⟨nodup, _, disjoint⟩ := apart
    rw [List.foldl_append]
    exact (ih nodup).insert fun x mem => disjoint _ (List.mem_map_of_mem mem) _ (by simp)

/-- Settles O58: the first `k` of a strict order that is total on entries of distinct positions. -/
theorem topKOrder : Obligations.TopKOrder := by
  intro k xs _ _ apart _
  have first := firstOf_foldl k xs apart
  intro above
  have same (a b : TopE) : above a b ↔ topBefore a b = true := by
    rw [topBefore_iff]
    simp only [above]
    generalize w32 a.1 = u
    generalize w32 b.1 = v
    cases u with
    | nan => cases v <;> simp [valGt]
    | fin x => cases v with
      | nan => simp [valGt]
      | fin y => cases above : fxLt y x <;> simp [valGt, above]
      | inf m => cases m <;> simp [valGt]
    | inf n => cases v with
      | nan => simp [valGt]
      | fin y => cases n <;> simp [valGt]
      | inf m => cases n <;> cases m <;> simp [valGt]
  have cut : (xs.foldl (fun a e => (topInsert e a).take k) []).take k = xs.foldl (fun a e => (topInsert e a).take k) [] :=
    List.take_of_length_le (by rw [first.size]; exact Nat.min_le_left ..)
  refine ⟨xs.foldl (fun a e => (topInsert e a).take k) [], ?_, first.size, first.from_, first.sorted.imp fun h => (same _ _).mpr h,
    fun x mem out y kept => (same y x).mpr (first.rest x mem out y kept)⟩
  unfold topK
  dsimp only
  rw [cut]

end Sys2Proof.Machine
end

section
/-! The statement on tests in service, scrubs, the Mire watch and the hourly window (R427, R436 to R438, R450). -/

namespace Sys2Proof.Machine

-- one proof at a time, for the memory that the check allows
set_option Elab.async false

/-! ### Reports that join their queue (R435, R436) -/

/-- The severity of a code (Table 15.4); 5 where it names none. -/
def severityOf (code : Nat) : Nat :=
  match kindInfo code with
  | some (_, v, _, _) => v
  | none => 5

/-- The record of a report that stands on its own. -/
def reportOf (code unit cell action addr : Nat) (tag : Option Nat) (inj : Bool) : Report :=
  { code := code, severity := severityOf code, unit := unit, cell := cell, action := action, injected := inj, addr := addr, tag := tag
    level := 0, dep := 0 }

section
variable {code unit cell action addr : Nat} {tag : Option Nat} {inj : Bool} {s : State}

/-- A report for which there is room, or of a fault, joins the end of its collector's queue. -/
theorem report_joins (joins : (tget [] s.rel.queues (collectorOf code unit)).length < 16 ∨ severityOf code = 3 ∨ severityOf code = 4) :
    report code unit cell action addr tag inj s = { s with rel := { s.rel with
      queues := tput (collectorOf code unit)
        (tget [] s.rel.queues (collectorOf code unit) ++ [reportOf code unit cell action addr tag inj]) s.rel.queues } } := by
  refine if_neg fun full => ?_
  obtain ⟨long, mild, notFatal⟩ := full
  obtain room | fault | fatal := joins
  · omega
  · exact mild fault
  · exact notFatal fatal

theorem queues_report (joins : (tget [] s.rel.queues (collectorOf code unit)).length < 16 ∨ severityOf code = 3 ∨ severityOf code = 4) :
    tget [] (report code unit cell action addr tag inj s).rel.queues (collectorOf code unit)
      = tget [] s.rel.queues (collectorOf code unit) ++ [reportOf code unit cell action addr tag inj] := by
  rw [report_joins joins]
  exact tget_tput_same ..

end

/-- A unit with a fault in its collector's queue does nothing. -/
theorem blockFrozen_of_queue {s : State} {b : Nat} {x : Report} (mem : x ∈ tget [] s.rel.queues (1000 + b)) (fault : x.severity = 3) :
    blockFrozen s b = true := by
  have any : (tget [] s.rel.queues (1000 + b)).any (fun r => r.severity == 3) = true := List.any_eq_true.mpr ⟨x, mem, by simp [fault]⟩
  simp [blockFrozen, any]

theorem regionFrozen_of_queue {s : State} {r : Nat} {x : Report} (mem : x ∈ tget [] s.rel.queues (2000 + r)) (fault : x.severity = 3) :
    regionFrozen s r = true := by
  have any : (tget [] s.rel.queues (2000 + r)).any (fun q => q.severity == 3) = true := List.any_eq_true.mpr ⟨x, mem, by simp [fault]⟩
  simp [regionFrozen, any]

/-! ### The end of a test -/

section
variable {s : State} {b : Nat} (quiet : fires 9 b s = none)
include quiet

theorem testDone_passed : testDone b true s = modBlock b (fun x => { x with testing := false }) s := by
  unfold testDone
  rw [quiet]
  rfl

theorem testDone_failed : testDone b false s = report 9 b 0 3 0 none false (modBlock b (fun x => { x with testing := false }) s) := by
  unfold testDone
  rw [quiet]
  rfl

end

/-! ### Scrubs (R437, R438) -/

section
variable {r : Nat} {inj : Bool} {s : State}

/-- Every bad line of region `x` at address key `l` is gone. -/
def LineGone (l : Nat) (x : Region) : Prop :=
  (l < 2 ^ 46 → thas l x.lines = false) ∧ (2 ^ 46 ≤ l → l < 2 ^ 47 → thas (l - 2 ^ 46) x.leaves = false)
  ∧ (2 ^ 47 ≤ l → thas (l - 2 ^ 47) x.loam = false)

/-- A region without the line that key `l` names. -/
def lineDropped (l : Nat) (x : Region) : Region :=
  if l < 2 ^ 46 then { x with lines := tdel l x.lines }
  else if l < 2 ^ 47 then { x with leaves := tdel (l - 2 ^ 46) x.leaves } else { x with loam := tdel (l - 2 ^ 47) x.loam }

theorem thas_tdel {α : Type} (k n : Nat) (t : List (Nat × α)) : thas k (tdel n t) = (thas k t && k != n) := thas_filter_key k (fun k => k != n) t

theorem lineGone_lineDropped (l : Nat) (x : Region) : LineGone l (lineDropped l x) := by
  refine ⟨fun low => ?_, fun above low => ?_, fun above => ?_⟩
  · rw [lineDropped, if_pos low]
    simp [thas_tdel]
  · rw [lineDropped, if_neg (by omega), if_pos low]
    simp [thas_tdel]
  · rw [lineDropped, if_neg (by omega), if_neg (by omega)]
    simp [thas_tdel]

theorem LineGone.kept {l : Nat} {x : Region} (h : LineGone l x) (m : Nat) : LineGone l (lineDropped m x) := by
  obtain ⟨line, leaf, summary⟩ := h
  unfold lineDropped
  split
  · exact ⟨fun low => by rw [thas_tdel, line low, Bool.false_and], leaf, summary⟩
  · split
    · exact ⟨line, fun above low => by rw [thas_tdel, leaf above low, Bool.false_and], summary⟩
    · exact ⟨line, leaf, fun above => by rw [thas_tdel, summary above, Bool.false_and]⟩

theorem regionAt_dropBadLine (l : Nat) : regionAt (dropBadLine r l inj s) r = lineDropped l (regionAt s r) := by
  have regions : (dropBadLine r l inj s).regions = (modRegion r (lineDropped l) s).regions := (report_frame ..).get State.regions
  unfold regionAt at *
  rw [regions]
  exact (regionAt_modRegion ..).trans (if_pos rfl)

theorem dropBadLine_frame (l : Nat) : Frame [.queues, .od, .regions] s (dropBadLine r l inj s) :=
  .after (report_frame ..) (modRegion_frame ..).mono

theorem hurtBlock_frame (b : Nat) : Frame [.queues, .od, .blocks] s (hurtBlock r b inj s) :=
  .after (report_frame ..) (modBlock_frame ..).mono

/-- A block whose operands are bad: every output of its group is poisoned. -/
def hurtGroup (x : Block) : Block := { x with job := x.job.map fun (j : Job) => { j with hurt := j.hurt ||| (2 ^ 16 - 1) } }

theorem hurtGroup_idem (x : Block) : hurtGroup (hurtGroup x) = hurtGroup x := by
  unfold hurtGroup
  cases x.job with
  | none => rfl
  | some j => simp

theorem blockAt_hurtBlock (b n : Nat) : blockAt (hurtBlock r b inj s) n = if n = b then hurtGroup (blockAt s n) else blockAt s n := by
  have blocks : (hurtBlock r b inj s).blocks = (modBlock b hurtGroup s).blocks := (report_frame ..).get State.blocks
  have same : blockAt (hurtBlock r b inj s) n = blockAt (modBlock b hurtGroup s) n := by
    unfold blockAt
    rw [blocks]
  rw [same, blockAt_modBlock]
  split
  · next here => rw [here]
  · rfl

end

/-! The parts of a scrub, in their order. -/

section
variable (r single : Nat) (data lines : List Nat) (s : State)

/-- The time of the scrub noted. -/
def scrubbed : State := modRegion r (fun x => { x with lastScrub := refNow s }) s

def singlesReported : State := (List.range single).foldl (fun s _ => report 0x10 r 0 2 0 none false s) (scrubbed r s)

def dataHurt : State := (data.filter fun b => b / 40 = r).foldl (fun s b => hurtBlock r b false s) (singlesReported r single s)

def linesDropped : State := lines.foldl (fun s l => dropBadLine r l false s) (dataHurt r single data s)

theorem singlesReported_frame : Frame [.queues, .od, .regions] s (singlesReported r single s) :=
  .foldl (fun _ _ => (report_frame ..).mono) (modRegion_frame ..).mono

theorem dataHurt_frame : Frame [.queues, .od, .blocks] (singlesReported r single s) (dataHurt r single data s) :=
  .foldl (fun _ _ => hurtBlock_frame _) (.refl _)

theorem linesDropped_frame : Frame [.queues, .od, .regions] (dataHurt r single data s) (linesDropped r single data lines s) :=
  .foldl (fun _ _ => dropBadLine_frame _) (.refl _)

theorem linesDropped_whole : Frame [.queues, .od, .regions, .blocks] s (linesDropped r single data lines s) :=
  .after (linesDropped_frame ..) (.after (dataHurt_frame ..) (singlesReported_frame ..).mono)

variable {r s} in
/-- With no point armed, a scrub is its three parts. -/
theorem scrub_eq (quiet : ∀ code ∈ [0x10, 0x11, 0x12], fires code r s = none) : scrub r single data lines s = linesDropped r single data lines s := by
  have armed : (linesDropped r single data lines s).rel.armed = s.rel.armed := (linesDropped_whole ..).get (·.rel.armed)
  have still (code : Nat) (mem : code ∈ [0x10, 0x11, 0x12]) : fires code r (linesDropped r single data lines s) = none := by
    rw [← quiet code mem]
    unfold fires
    rw [armed]
  show scrubInjected r (linesDropped r single data lines s) = _
  generalize linesDropped r single data lines s = t at still
  unfold scrubInjected
  rw [still 0x10 (by simp)]
  dsimp only
  rw [still 0x11 (by simp)]
  dsimp only
  rw [still 0x12 (by simp)]

theorem lastScrub_linesDropped : (regionAt (linesDropped r single data lines s) r).lastScrub = refNow s := by
  have noted : (regionAt (dataHurt r single data s) r).lastScrub = refNow s := by
    have regions : (dataHurt r single data s).regions = (scrubbed r s).regions :=
      ((dataHurt_frame r single data s).get State.regions).trans
        (foldl_holds (fun u : State => u.regions = (scrubbed r s).regions) rfl fun u _ kept => ((report_frame ..).get State.regions).trans kept)
    unfold regionAt
    rw [regions]
    exact congrArg Region.lastScrub ((regionAt_modRegion ..).trans (if_pos rfl))
  refine foldl_holds (fun u : State => (regionAt u r).lastScrub = refNow s) noted fun u l kept => ?_
  rw [regionAt_dropBadLine]
  unfold lineDropped
  split
  · exact kept
  · split <;> exact kept

variable {lines} in
theorem lineGone_linesDropped {l : Nat} (mem : l ∈ lines) : LineGone l (regionAt (linesDropped r single data lines s) r) := by
  refine foldl_reaches (fun _ => True) (fun u => LineGone l (regionAt u r)) (fun _ _ _ => trivial) (fun u _ => ?_) (fun u m _ gone => ?_) mem trivial
  · rw [regionAt_dropBadLine]
    exact lineGone_lineDropped ..
  · rw [regionAt_dropBadLine]
    exact gone.kept m

variable {r data s} in
theorem job_linesDropped {b : Nat} {j : Job} (mem : b ∈ data) (its : b / 40 = r) (held : (blockAt s b).job = some j) :
    (blockAt (linesDropped r single data lines s) b).job = some { j with hurt := j.hurt ||| (2 ^ 16 - 1) } := by
  have each := blockAt_foldl_each (f := fun s b => hurtBlock r b false s) (g := fun _ => hurtGroup) (fun _ => True) (fun _ _ _ => trivial)
    (fun u b n _ => blockAt_hurtBlock b n) (fun _ => hurtGroup_idem) (data.filter fun b => b / 40 = r) (s := singlesReported r single s) trivial b
  have blocks : (linesDropped r single data lines s).blocks = (dataHurt r single data s).blocks := (linesDropped_frame ..).get State.blocks
  have before : blockAt (singlesReported r single s) b = blockAt s b := by
    have same : (singlesReported r single s).blocks = s.blocks := (singlesReported_frame ..).get State.blocks
    unfold blockAt
    rw [same]
  rw [if_pos (by simp [mem, its]), before] at each
  have here : blockAt (linesDropped r single data lines s) b = hurtGroup (blockAt s b) := by
    unfold blockAt at each ⊢
    rw [blocks]
    exact each
  rw [here, hurtGroup, held]
  rfl

/-- Single-bit errors, while there is room, are one report each. -/
theorem queues_singlesReported (room : (tget [] s.rel.queues (2000 + r)).length + single ≤ 16) :
    tget [] (singlesReported r single s).rel.queues (2000 + r)
      = tget [] s.rel.queues (2000 + r) ++ List.replicate single (reportOf 0x10 r 0 2 0 none false) := by
  induction single with
  | zero => simp [singlesReported, scrubbed, modRegion, putRegion]
  | succ n ih =>
    have earlier := ih (by omega)
    have step : singlesReported r (n + 1) s = report 0x10 r 0 2 0 none false (singlesReported r n s) := by
      unfold singlesReported
      rw [List.range_succ, List.foldl_append]
      rfl
    have collector : collectorOf 0x10 r = 2000 + r := rfl
    have joined := queues_report (code := 0x10) (unit := r) (cell := 0) (action := 2) (addr := 0) (tag := none) (inj := false)
      (s := singlesReported r n s) (.inl (by rw [collector, earlier, List.length_append, List.length_replicate]; omega))
    rw [collector, earlier] at joined
    rw [step, joined, List.append_assoc, List.replicate_succ']

end

/-! ### The Mire watch (R450) -/

/-- The watch of a unit cleared by a progress event. -/
def watchCleared (level unit : Nat) (s : State) : State :=
  if level = 1 then blockProgress unit s else if level = 2 then regionProgress unit s else apexProgress s

/-- An expiry: one report of the unit's fault, one count. -/
def watchExpired (level unit : Nat) (s : State) : State :=
  report (watchOf s level unit).1 unit 0 0 0 none false (odBump 0x6300 4 1 (watchCleared level unit s))

section
variable {level unit : Nat} {s : State}

theorem watchCleared_frame : Frame [.blocks, .regions, .mire] s (watchCleared level unit s) := .ite rfl (.ite rfl rfl)

theorem watchExpired_frame : Frame [.blocks, .regions, .mire, .queues, .od] s (watchExpired level unit s) :=
  .after (report_frame ..) (.after (odBump_frame ..) watchCleared_frame.mono)

theorem watchCode_severity : severityOf (watchOf s level unit).1 = 3 := by
  unfold watchOf
  split
  · rfl
  · split <;> rfl

/-- The report is at the end of its collector's queue. -/
theorem mem_watchExpired (k : Nat) (its : collectorOf (watchOf s level unit).1 unit = k) :
    ∃ x ∈ tget [] (watchExpired level unit s).rel.queues k, x.code = (watchOf s level unit).1 ∧ x.severity = 3 := by
  subst its
  refine ⟨reportOf (watchOf s level unit).1 unit 0 0 0 none false, ?_, rfl, watchCode_severity⟩
  unfold watchExpired
  rw [queues_report (.inr (.inl watchCode_severity))]
  simp

theorem odv_watchExpired : odv (watchExpired level unit s) 0x6300 4 = (odv s 0x6300 4 + 1) % 2 ^ 32 := by
  have before : odv (watchCleared level unit s) 0x6300 4 = odv s 0x6300 4 := odv_of_od (watchCleared_frame.get State.od) _ _
  unfold watchExpired
  rw [odv_report_other (by decide), odv_odBump_same (w := 32) _ (by decide), before]

theorem watchExpired_spec (known : 1 ≤ level ∧ level ≤ 3) :
    (level = 1 → (blockAt (watchExpired level unit s) unit).mire = 0 ∧ blockFrozen (watchExpired level unit s) unit = true)
    ∧ (level = 2 → (regionAt (watchExpired level unit s) unit).mire = 0 ∧ regionFrozen (watchExpired level unit s) unit = true)
    ∧ (level = 3 → (watchExpired level unit s).rel.mire = 0
        ∧ ∃ x ∈ tget [] (watchExpired level unit s).rel.queues 3000, x.code = 0x22 ∧ x.severity = 3) := by
  have frame : Frame [.queues, .od] (watchCleared level unit s) (watchExpired level unit s) :=
    .after (report_frame ..) (odBump_frame ..).mono
  refine ⟨fun block => ?_, fun region => ?_, fun apex => ?_⟩
  · subst block
    obtain ⟨x, mem, _, fault⟩ := mem_watchExpired (s := s) (level := 1) (unit := unit) (1000 + unit) rfl
    have blocks : (watchExpired 1 unit s).blocks = (blockProgress unit s).blocks := frame.get State.blocks
    refine ⟨?_, blockFrozen_of_queue mem fault⟩
    unfold blockAt
    rw [blocks]
    exact congrArg Block.mire ((blockAt_modBlock ..).trans (if_pos rfl))
  · subst region
    obtain ⟨x, mem, _, fault⟩ := mem_watchExpired (s := s) (level := 2) (unit := unit) (2000 + unit) rfl
    have regions : (watchExpired 2 unit s).regions = (regionProgress unit s).regions := frame.get State.regions
    refine ⟨?_, regionFrozen_of_queue mem fault⟩
    unfold regionAt
    rw [regions]
    exact congrArg Region.mire ((regionAt_modRegion ..).trans (if_pos rfl))
  · subst apex
    obtain ⟨x, mem, code, fault⟩ := mem_watchExpired (s := s) (level := 3) (unit := unit) 3000 rfl
    exact ⟨frame.get (·.rel.mire), x, mem, code, fault⟩

variable (quiet : fires (watchOf s level unit).1 unit s = none)
include quiet

theorem exec_mireWatchExpiry : exec (.mireWatchExpiry level unit) s =
    event (live s && decide (1 ≤ level ∧ level ≤ 3) && !s.power.trip && (watchOf s level unit).2.1
      && (false || decide ((watchOf s level unit).2.2.1 ≥ (watchOf s level unit).2.2.2))) s (watchExpired level unit s) := by
  show execMireWatchExpiry level unit s = _
  unfold execMireWatchExpiry
  dsimp only
  rw [quiet]
  rfl

end

/-! ### The statement -/

/-- Settles O57: each row is an event on its due time; a scrub's three parts are folds over what the lines and blocks hold. -/
theorem testScrubAndWatchRows : Obligations.TestScrubAndWatchRows := by
  refine ⟨fun r b s serves on next => ⟨fun due => ?tested, fun early => ?untested⟩,
    fun b s runs staged testing free ungated thawed quiet => ⟨?passed, ?failed⟩,
    fun r single data lines s serves quiet => ⟨fun due => ?scrubbed, fun early => event_not (by simp [early])⟩,
    fun level unit s runs cool low high watched quiet => ⟨fun limit => ?expired, fun short => ?short⟩,
    fun s runs => ⟨fun due => event_exact (by simp [runs, due]) rfl, fun early => event_not (by simp [early])⟩⟩
  case tested =>
    refine ⟨modRegion r (fun x => { x with lastTest := refNow s, testNext := b % 40 + 1 }) (modBlock b (fun x => { x with testing := true }) s),
      ?_, rfl, ?_, fun b' other => ?_, ?_, ?_⟩
    · show execInServiceTest r s = _
      unfold execInServiceTest
      rw [next]
      exact event_exact (by simp [serves, on, due]) rfl
    · show (blockAt (modBlock b (fun x => { x with testing := true }) s) b).testing = true
      rw [blockAt_modBlock, if_pos rfl]
    · show blockAt (modBlock b (fun x => { x with testing := true }) s) b' = blockAt s b'
      exact (blockAt_modBlock ..).trans (if_neg other)
    · exact congrArg Region.lastTest ((regionAt_modRegion ..).trans (if_pos rfl))
    · exact congrArg Region.testNext ((regionAt_modRegion ..).trans (if_pos rfl))
  case untested =>
    show execInServiceTest r s = _
    unfold execInServiceTest
    rw [next]
    exact event_not (by simp [early])
  case passed =>
    have row := testDone_passed quiet
    refine ⟨_, (event_exact (by simp [runs, staged, testing, free, ungated, thawed]) (by rw [row]; rfl)).trans (congrArg Host.Outcome.next row),
      rfl, ?_, fun b' other => (blockAt_modBlock ..).trans (if_neg other)⟩
    exact congrArg Block.testing ((blockAt_modBlock ..).trans (if_pos rfl))
  case failed =>
    have row := testDone_failed quiet
    have joined := queues_report (code := 9) (unit := b) (cell := 0) (action := 3) (addr := 0) (tag := none) (inj := false)
      (s := modBlock b (fun x => { x with testing := false }) s) (.inr (.inl rfl))
    have frame := report_frame 9 b 0 3 0 none false (modBlock b (fun x => { x with testing := false }) s)
    have queue : (testDone b false s).pending = s.pending := by
      rw [row]
      exact frame.get State.pending
    refine ⟨_, (event_exact (by simp [runs, staged, testing, free, ungated, thawed]) queue).trans (congrArg Host.Outcome.next row),
      ?_, blockFrozen_of_queue (x := reportOf 9 b 0 3 0 none false) ?_ rfl, reportOf 9 b 0 3 0 none false, joined, rfl, rfl, rfl⟩
    · have blocks : (report 9 b 0 3 0 none false (modBlock b (fun x => { x with testing := false }) s)).blocks
        = (modBlock b (fun x => { x with testing := false }) s).blocks := frame.get State.blocks
      unfold blockAt
      rw [blocks]
      exact congrArg Block.testing ((blockAt_modBlock ..).trans (if_pos rfl))
    · rw [show 1000 + b = collectorOf 9 b from rfl, joined]
      simp
  case scrubbed =>
    have row := scrub_eq single data lines quiet
    have frame := linesDropped_whole r single data lines s
    have time := lastScrub_linesDropped r single data lines s
    have gone : ∀ l ∈ lines, LineGone l _ := fun l mem => lineGone_linesDropped r single data s mem
    have hurt : ∀ b ∈ data, ∀ j, b / 40 = r → (blockAt s b).job = some j → _ := fun b mem j its held => job_linesDropped single lines mem its held
    have exact_ : exec (.scrub r single data lines) s = .next (linesDropped r single data lines s) := by
      rw [← row]
      refine event_exact (by simp [serves, due]) ?_
      rw [row]
      exact frame.get State.pending
    refine ⟨_, exact_, time, frame.get State.mem, frame.get State.sp, frame.get State.front, gone, hurt, fun noData noLines room => ?_⟩
    subst noData noLines
    exact ⟨reportOf 0x10 r 0 2 0 none false, rfl, rfl, rfl, queues_singlesReported r single s room⟩
  case expired =>
    have frame := watchExpired_frame (level := level) (unit := unit) (s := s)
    obtain ⟨block, region, apex⟩ := watchExpired_spec (unit := unit) (s := s) ⟨low, high⟩
    refine ⟨_, (exec_mireWatchExpiry quiet).trans (event_exact ?_ (frame.get State.pending)), odv_watchExpired, block, region, apex⟩
    simp [runs, cool, low, high, watched, limit]
  case short =>
    exact (exec_mireWatchExpiry quiet).trans (event_not (by simp [short]))

end Sys2Proof.Machine
end

section
/-! The statements on the operations of a PT_EDIT before its last (R219, Table 07.10). -/

namespace Sys2Proof.Machine

-- one proof at a time, for the memory that the check allows
set_option Elab.async false

/-! ### Bit fields written -/

/-- A number with a field written: what is above, the field, what is below. -/
theorem putBits_eq (n lo w v : Nat) : putBits n lo w v = 2 ^ lo * (2 ^ w * (n / 2 ^ lo / 2 ^ w) + v % 2 ^ w) + n % 2 ^ lo := by
  have whole : n = 2 ^ lo * (n / 2 ^ lo) + n % 2 ^ lo := (Nat.div_add_mod ..).symm
  have upper : n / 2 ^ lo = 2 ^ w * (n / 2 ^ lo / 2 ^ w) + n / 2 ^ lo % 2 ^ w := (Nat.div_add_mod ..).symm
  have field : 2 ^ lo * (n / 2 ^ lo) = 2 ^ lo * (2 ^ w * (n / 2 ^ lo / 2 ^ w)) + n / 2 ^ lo % 2 ^ w * 2 ^ lo := by
    calc 2 ^ lo * (n / 2 ^ lo) = 2 ^ lo * (2 ^ w * (n / 2 ^ lo / 2 ^ w) + n / 2 ^ lo % 2 ^ w) := by rw [← upper]
      _ = _ := by ring
  have written : 2 ^ lo * (2 ^ w * (n / 2 ^ lo / 2 ^ w) + v % 2 ^ w) = 2 ^ lo * (2 ^ w * (n / 2 ^ lo / 2 ^ w)) + v % 2 ^ w * 2 ^ lo := by ring
  unfold putBits bits
  rw [written]
  omega

theorem testBit_putBits (n lo w v j : Nat) :
    (putBits n lo w v).testBit j = if lo ≤ j ∧ j < lo + w then v.testBit (j - lo) else n.testBit j := by
  have low : n % 2 ^ lo < 2 ^ lo := Nat.mod_lt _ (Nat.two_pow_pos lo)
  have cut : v % 2 ^ w < 2 ^ w := Nat.mod_lt _ (Nat.two_pow_pos w)
  rw [putBits_eq, Nat.testBit_two_pow_mul_add _ low]
  by_cases below : j < lo
  · rw [if_pos below, if_neg (by omega), Nat.testBit_mod_two_pow]
    simp [below]
  · rw [if_neg below, Nat.testBit_two_pow_mul_add _ cut]
    by_cases within : j - lo < w
    · rw [if_pos within, if_pos (by omega), Nat.testBit_mod_two_pow]
      simp [within]
    · have place : j - lo - w + w + lo = j := by omega
      rw [if_neg within, if_neg (by omega), Nat.testBit_div_two_pow, Nat.testBit_div_two_pow, place]

theorem testBit_bits (n lo w j : Nat) : (bits n lo w).testBit j = (decide (j < w) && n.testBit (lo + j)) := by
  unfold bits
  rw [Nat.testBit_mod_two_pow, Nat.testBit_div_two_pow, Nat.add_comm]

theorem bits_putBits_same (n lo w v : Nat) : bits (putBits n lo w v) lo w = v % 2 ^ w := by
  refine Nat.eq_of_testBit_eq fun j => ?_
  rw [testBit_bits, testBit_putBits, Nat.testBit_mod_two_pow]
  by_cases within : j < w
  · rw [if_pos (by omega), Nat.add_sub_cancel_left]
  · simp [within]

theorem bits_putBits_other {n lo w v k m : Nat} (apart : k + m ≤ lo ∨ lo + w ≤ k) : bits (putBits n lo w v) k m = bits n k m := by
  refine Nat.eq_of_testBit_eq fun j => ?_
  rw [testBit_bits, testBit_bits, testBit_putBits]
  by_cases within : j < m
  · rw [if_neg (by omega)]
  · simp [within]

theorem rLive_iff {v : Nat} : rLive v = true ↔ bits v 0 2 = 1 := by
  have live (one : bits v 0 2 = 1) : rootFree v = false := by
    have some_ : v ≠ 0 := by
      rintro rfl
      cases one
    simp [rootFree, one, some_]
  unfold rLive
  constructor
  · intro h
    exact of_decide_eq_true (Bool.and_eq_true _ _ ▸ h).1
  · intro one
    simp [one, live one]

theorem rLive_eq_false {v : Nat} (h : bits v 0 2 ≠ 1) : rLive v = false := Bool.eq_false_iff.mpr fun live => h (rLive_iff.mp live)

/-! ### Entries of an edited table -/

section
variable {s : State} {e f : EditWork} {i : Nat}

theorem editEntry_congr (entries : f.entries = e.entries) (cut : f.cut = e.cut) (old : f.old = e.old) : editEntry s f i = editEntry s e i := by
  unfold editEntry
  rw [entries, cut, old]

/-- Dropping the open page leaves the entries. -/
theorem dropOpen_spec (e : EditWork) : (dropOpen e).entries = e.entries ∧ (dropOpen e).cut = e.cut ∧ (dropOpen e).old = e.old
    ∧ (dropOpen e).lower = e.lower ∧ rOpen (dropOpen e).root = false ∧ rEpoch (dropOpen e).root = rEpoch e.root := by
  unfold dropOpen
  split
  · refine ⟨rfl, rfl, rfl, rfl, ?_, ?_⟩
    · show decide (bits _ 157 1 = 1) = false
      rw [bits_putBits_same]
      rfl
    · show bits _ 32 32 = _
      rw [bits_putBits_other (by decide), bits_putBits_other (by decide), bits_putBits_other (by decide)]
      rfl
  · next closed => exact ⟨rfl, rfl, rfl, rfl, by simpa using closed, rfl⟩

theorem editEntry_dropOpen : editEntry s (dropOpen e) i = editEntry s e i := by
  obtain ⟨entries, cut, old, _⟩ := dropOpen_spec e
  exact editEntry_congr entries cut old

theorem editEntry_unmapFrom (n : Nat) : editEntry s (unmapFrom s n e) i = if i < n then editEntry s e i else 0 := by
  have found : ((e.entries.filter fun x => x.1 < n).find? fun x => x.1 = i) = if i < n then e.entries.find? (fun x => x.1 = i) else none := by
    rw [List.find?_filter]
    split
    · next kept =>
      refine congrArg (List.find? · e.entries) (funext fun x => ?_)
      by_cases here : x.1 = i
      · simp [here, kept]
      · simp [here]
    · next gone =>
      refine List.find?_eq_none.mpr fun x _ => ?_
      simp only [decide_eq_true_eq, not_and]
      omega
  unfold editEntry unmapFrom
  dsimp only
  rw [found]
  by_cases kept : i < n
  · rw [if_pos kept, if_pos kept]
    cases e.entries.find? fun x => x.1 = i with
    | some x => rfl
    | none => simp [kept]
  · rw [if_neg kept, if_neg kept]
    exact if_neg (by omega)

/-- Entries put one after the other over a range. -/
theorem find_putRange (f : Nat → Nat) (lo n : Nat) (l : List (Nat × Nat)) :
    ((List.range n).foldl (fun l k => tput (lo + k) (f k) l) l).find? (fun x => x.1 = i) =
      if lo ≤ i ∧ i < lo + n then some (i, f (i - lo)) else l.find? (fun x => x.1 = i) := by
  induction n with
  | zero => simp
  | succ n ih =>
    rw [List.range_succ, List.foldl_append, List.foldl_cons, List.foldl_nil]
    by_cases here : i = lo + n
    · subst here
      rw [find_tput_same, if_pos (by omega), Nat.add_sub_cancel_left]
    · rw [find_tput_other _ _ here, ih]
      by_cases within : lo ≤ i ∧ i < lo + n
      · rw [if_pos within, if_pos (by omega)]
      · rw [if_neg within, if_neg (by omega)]

theorem editEntry_put {g : Nat → Nat} {lo n : Nat} (entries : f.entries = (List.range n).foldl (fun l k => tput (lo + k) (g k) l) e.entries)
    (cut : f.cut = e.cut) (old : f.old = e.old) :
    editEntry s f i = if lo ≤ i ∧ i < lo + n then g (i - lo) else editEntry s e i := by
  unfold editEntry
  rw [entries, find_putRange, cut, old]
  by_cases within : lo ≤ i ∧ i < lo + n
  · rw [if_pos within, if_pos within]
  · rw [if_neg within, if_neg within]

end

/-! ### Each operation (Table 07.10) -/

section
variable {s : State} {e e1 : EditWork} {w : Nat}

/-- The fields of the root that a CREATE writes (Table 07.4). -/
def createdFields (e : EditWork) (w : Nat) : List (Nat × Nat) :=
  [(2, 1), (2, bits (opA w) 28 2), (4, 0), (6, bits (opA w) 0 6), (3, bits (opA w) 6 3), (3, bits (opA w) 9 3), (3, bits (opA w) 12 3),
    (3, bits (opA w) 15 3), (3, bits (opA w) 18 3), (3, 0), (32, rEpoch e.root), (17, 0), (7, bits (opA w) 21 7), (72, 0), (21, bits (opB w) 0 20)]

def createdRoot (e : EditWork) (w : Nat) : Nat := pack (createdFields e w)

/-- A packed field whose value fits reads back. -/
theorem bits_pack_of {fs : List (Nat × Nat)} {i lo k v : Nat} (place : packWidth (fs.take i) = lo) (field : fs[i]? = some (k, v))
    (fits : v < 2 ^ k) : bits (pack fs) lo k = v := by
  obtain ⟨h, here⟩ := List.getElem?_eq_some_iff.mp field
  have read := bits_pack fs i h
  rw [here, place] at read
  exact read.trans (Nat.mod_eq_of_lt fits)

theorem opCreate_spec (done : opCreate s e w = .ok e1) : rLive e.root = false ∧ e1.root = createdRoot e w := by
  unfold opCreate at done
  dsimp only at done
  split at done
  · cases done
  · next free =>
    split at done
    · cases done
    · cases done
      exact ⟨by simpa using free, rfl⟩

theorem bits_lt_of_le (n lo : Nat) {w k : Nat} (h : w ≤ k) : bits n lo w < 2 ^ k :=
  (bits_lt n lo w).trans_le (Nat.pow_le_pow_right (by decide) h)

theorem rOpen_createdRoot (e : EditWork) (w : Nat) : rOpen (createdRoot e w) = false := by
  have zeros : bits (createdRoot e w) 88 72 = 0 := bits_pack_of (i := 13) (by simp [createdFields]) rfl (by decide)
  have inner : bits (bits (createdRoot e w) 88 72) 69 1 = bits (createdRoot e w) 157 1 := bits_bits (by decide)
  unfold rOpen
  rw [← inner, zeros]
  rfl

theorem rNext_createdRoot (e : EditWork) (w : Nat) : rNext (createdRoot e w) = bits (opB w) 0 20 :=
  bits_pack_of (i := 14) (by simp [createdFields]) rfl (bits_lt_of_le _ _ (by decide))

theorem createdRoot_spec (e : EditWork) (w : Nat) : rLive (createdRoot e w) = true ∧ rPages (createdRoot e w) = 0
    ∧ rOpen (createdRoot e w) = false ∧ rKvh (createdRoot e w) = bits (opA w) 0 6 ∧ rDim (createdRoot e w) = bits (opA w) 6 3
    ∧ rFmt (createdRoot e w) = bits (opA w) 9 3 ∧ rEpoch (createdRoot e w) = rEpoch e.root ∧ rNext (createdRoot e w) = bits (opB w) 0 20 :=
  ⟨rLive_iff.mpr (bits_pack_of (i := 0) rfl rfl (by decide)), bits_pack_of (i := 11) rfl rfl (by decide), rOpen_createdRoot e w,
    bits_pack_of (i := 3) rfl rfl (bits_lt ..), bits_pack_of (i := 4) rfl rfl (bits_lt ..), bits_pack_of (i := 5) rfl rfl (bits_lt ..),
    bits_pack_of (i := 10) rfl rfl (bits_lt ..), rNext_createdRoot e w⟩

/-- A root that keeps its epoch alone. -/
theorem releasedRoot_spec (v : Nat) : rLive (rEpoch v * 2 ^ 32) = false ∧ rEpoch (rEpoch v * 2 ^ 32) = rEpoch v := by
  refine ⟨rLive_eq_false ?_, ?_⟩
  · have low := bits_add_high 0 (rEpoch v) (lo := 0) (w := 2) (k := 32) (by decide)
    rw [Nat.zero_add] at low
    rw [low]
    decide
  · have small : rEpoch v < 2 ^ 32 := bits_lt ..
    generalize rEpoch v = x at small ⊢
    unfold rEpoch bits
    omega

theorem opRelease_spec (done : opRelease s e = .ok e1) : rLive e.root = true ∧ rLive e1.root = false ∧ rEpoch e1.root = rEpoch e.root
    ∧ (∀ i, editEntry s e1 i = 0) ∧ e1.lower = e.lower ++ editFrames s e 0 (rPages e.root) := by
  unfold opRelease at done
  split at done
  · cases done
  · next live =>
    split at done
    · cases done
    · cases done
      obtain ⟨entries, cut, old, lower, _, epoch⟩ := dropOpen_spec (unmapFrom s 0 e)
      generalize dropOpen (unmapFrom s 0 e) = d at *
      obtain ⟨dead, kept⟩ := releasedRoot_spec d.root
      have copied (r i : Nat) : editEntry s { d with root := r } i = editEntry s (unmapFrom s 0 e) i :=
        editEntry_congr (f := { d with root := r }) entries cut old
      exact ⟨by simpa using live, dead, kept.trans epoch, fun i => (copied _ i).trans (editEntry_unmapFrom 0), lower⟩

theorem opTruncate_spec (done : opTruncate s e w = .ok e1) : bits (opA w) 0 17 ≤ rPages e.root ∧ rPages e1.root = bits (opA w) 0 17
    ∧ rOpen e1.root = false ∧ rNext e1.root = bits (opB w) 0 20 ∧ rEpoch e1.root = rEpoch e.root
    ∧ ∀ i, editEntry s e1 i = if i < bits (opA w) 0 17 then editEntry s e i else 0 := by
  have small : bits (opA w) 0 17 < 2 ^ 17 := bits_lt ..
  have next : bits (opB w) 0 20 < 2 ^ 21 := bits_lt_of_le _ _ (by decide)
  unfold opTruncate at done
  dsimp only at done
  generalize bits (opA w) 0 17 = n at done small ⊢
  generalize bits (opB w) 0 20 = k at done next ⊢
  split at done
  · cases done
  · next fits =>
    split at done
    · cases done
    · cases done
      obtain ⟨entries, cut, old, _, closed, epoch⟩ := dropOpen_spec (unmapFrom s n e)
      generalize dropOpen (unmapFrom s n e) = d at *
      have within : n ≤ rPages e.root := by
        simp only [Bool.or_eq_true, decide_eq_true_eq, not_or] at fits
        exact Nat.le_of_not_lt fits.2
      have kept (r i : Nat) : editEntry s { d with root := r } i = editEntry s (unmapFrom s n e) i :=
        editEntry_congr (f := { d with root := r }) entries cut old
      refine ⟨within, ?_, ?_, ?_, ?_, fun i => (kept _ i).trans (editEntry_unmapFrom _)⟩
      · show bits (putBits _ 160 21 _) 64 17 = _
        rw [bits_putBits_other (by decide), bits_putBits_same]
        exact Nat.mod_eq_of_lt small
      · show decide (bits (putBits _ 160 21 _) 157 1 = 1) = false
        rw [bits_putBits_other (by decide), bits_putBits_other (by decide)]
        exact closed
      · show bits (putBits _ 160 21 _) 160 21 = _
        rw [bits_putBits_same]
        exact Nat.mod_eq_of_lt next
      · show bits (putBits _ 160 21 _) 32 32 = _
        rw [bits_putBits_other (by decide), bits_putBits_other (by decide)]
        exact epoch

theorem opUnmap_spec (done : opUnmap s e w = .ok e1) : e1.root = e.root ∧ ∀ i, editEntry s e1 i
    = if bits (opA w) 0 16 ≤ i ∧ i < bits (opA w) 0 16 + bits (opA w) 16 17 then 0 else editEntry s e i := by
  unfold opUnmap at done
  dsimp only at done
  split at done
  · cases done
  · split at done
    · cases done
    · cases done
      exact ⟨rfl, fun i => editEntry_put (g := fun _ => 0) rfl rfl rfl⟩

theorem opSetAttr_spec (done : opSetAttr e w = .ok e1) : rFmt e1.root = bits (opA w) 9 3 ∧ rSinks e1.root = bits (opA w) 18 3
    ∧ rWindow e1.root = bits (opA w) 21 7 ∧ rPri e1.root = bits (opA w) 28 2 ∧ rPages e1.root = rPages e.root
    ∧ rDir e1.root = rDir e.root ∧ rEpoch e1.root = rEpoch e.root ∧ ∀ i, editEntry s e1 i = editEntry s e i := by
  unfold opSetAttr at done
  dsimp only at done
  split at done
  · cases done
  · cases done
    refine ⟨?_, ?_, ?_, ?_, ?_, ?_, ?_, fun i => editEntry_congr rfl rfl rfl⟩
    · show bits _ 17 3 = _
      rw [bits_putBits_other (by decide), bits_putBits_other (by decide), bits_putBits_other (by decide), bits_putBits_same]
      exact Nat.mod_eq_of_lt (bits_lt ..)
    · show bits _ 26 3 = _
      rw [bits_putBits_other (by decide), bits_putBits_other (by decide), bits_putBits_same]
      exact Nat.mod_eq_of_lt (bits_lt ..)
    · show bits _ 81 7 = _
      rw [bits_putBits_other (by decide), bits_putBits_same]
      exact Nat.mod_eq_of_lt (bits_lt ..)
    · show bits _ 2 2 = _
      rw [bits_putBits_same]
      exact Nat.mod_eq_of_lt (bits_lt ..)
    · show bits _ 64 17 = _
      rw [bits_putBits_other (by decide), bits_putBits_other (by decide), bits_putBits_other (by decide), bits_putBits_other (by decide)]
      rfl
    · show bits _ 96 24 = _
      rw [bits_putBits_other (by decide), bits_putBits_other (by decide), bits_putBits_other (by decide), bits_putBits_other (by decide)]
      rfl
    · show bits _ 32 32 = _
      rw [bits_putBits_other (by decide), bits_putBits_other (by decide), bits_putBits_other (by decide), bits_putBits_other (by decide)]
      rfl

/-- The entry that a FORK leaves for the source's entry `x`. -/
def forkedEntry (x : Nat) : Nat := mkLeaf (bits x 0 2) (bits x 2 3) (bits x 8 24) (bits x 32 20) 0

theorem forkedEntry_spec (x : Nat) : bits (forkedEntry x) 0 2 = bits x 0 2 ∧ bits (forkedEntry x) 8 24 = bits x 8 24 :=
  ⟨bits_pack_of (i := 0) rfl rfl (bits_lt ..), bits_pack_of (i := 3) rfl rfl (bits_lt ..)⟩

theorem ok_of_ite {p : Prop} [Decidable p] {x y : EditWork} (h : (if p then OpRes.limit else .ok x) = .ok y) : x = y := by
  split at h
  · cases h
  · cases h
    rfl

theorem opFork_spec (done : opFork s e w = .ok e1) : ∃ p ∈ e.sources, 256 * p.seq + p.layer = 256 * bits (opA w) 0 16 + bits (opA w) 16 8
    ∧ rPages e1.root = max (rPages e.root) (bits (opA w) 24 16 + bits (opB w) 0 17)
    ∧ ∀ i, editEntry s e1 i = if bits (opA w) 24 16 ≤ i ∧ i < bits (opA w) 24 16 + bits (opB w) 0 17 then forkedEntry (pageEntry s p.dir i)
        else editEntry s e i := by
  unfold opFork at done
  dsimp only at done
  split at done
  · cases done
  · next p found =>
    refine ⟨p, List.mem_of_find?_eq_some found, by simpa using List.find?_some found, ?_⟩
    generalize bits (opA w) 24 16 = lo at done ⊢
    generalize bits (opB w) 0 17 = n at done ⊢
    split at done
    · cases done
    · split at done
      · cases done
      · next small =>
        split at done
        · cases done
        · split at done
          · cases done
          · have same := ok_of_ite done
            subst same
            · refine ⟨?_, fun i => ?_⟩
              · show rPages (if decide (lo + n > rPages e.root) = true then putBits e.root 64 17 (lo + n) else e.root) = _
                by_cases grows : lo + n > rPages e.root
                · rw [if_pos (decide_eq_true grows)]
                  refine (bits_putBits_same ..).trans ((Nat.mod_eq_of_lt (by omega)).trans ?_)
                  omega
                · rw [if_neg (by simpa using grows)]
                  omega
              · have put := editEntry_put (s := s) (i := i) (e := e) (g := fun k => forkedEntry (pageEntry s p.dir (lo + k))) (lo := lo) (n := n)
                  (f := { e with
                    raise := e.raise ++ ((((List.range n).map fun k => (lo + k, pageEntry s p.dir (lo + k))).filter fun x => bits x.2 0 2 = 1).map fun x => (bits x.2 8 24, x.1))
                    entries := ((List.range n).map fun k => (lo + k, pageEntry s p.dir (lo + k))).foldl
                      (fun l x => tput x.1 (mkLeaf (bits x.2 0 2) (bits x.2 2 3) (bits x.2 8 24) (bits x.2 32 20) 0) l) e.entries
                    root := if decide (lo + n > rPages e.root) then putBits e.root 64 17 (lo + n) else e.root })
                  (by rw [List.foldl_map]; rfl) rfl rfl
                rw [put]
                by_cases within : lo ≤ i ∧ i < lo + n
                · have place : lo + (i - lo) = i := by omega
                  rw [if_pos within, if_pos within, place]
                · rw [if_neg within, if_neg within]

end

/-- Settles O38: an operation writes fields of the root apart from the others, or puts entries over a range. -/
theorem pageTableEditEffects : Obligations.PageTableEditEffects := by
  intro s e e1 w
  refine ⟨fun done => ?create, opRelease_spec, opTruncate_spec, opUnmap_spec, fun done => ?fork, opSetAttr_spec⟩
  case create =>
    obtain ⟨free, root⟩ := opCreate_spec done
    obtain ⟨live, pages, closed, heads, width, fmt, epoch, next⟩ := createdRoot_spec e w
    rw [root]
    exact ⟨free, live, pages, closed, heads, width, fmt, epoch, next⟩
  case fork =>
    obtain ⟨p, source, named, pages, entries⟩ := opFork_spec done
    refine ⟨p, source, named, pages, fun i => ⟨fun within => ?_, fun without => (entries i).trans (if_neg without)⟩⟩
    rw [entries i, if_pos within]
    exact forkedEntry_spec _

/-! ### The rows (R219, R220) -/

section
variable {tag code : Nat} {row : Instr} {c : Cmd} {s : State}

theorem exec_editOp (known : (row, code) ∈ [(Instr.create tag, 1), (.release tag, 2), (.truncate tag, 3), (.unmap tag, 4), (.fork tag, 5), (.setAttr tag, 6)]) :
    exec row s = editOp code tag s := by
  simp only [List.mem_cons, List.mem_nil_iff, or_false] at known
  obtain h | h | h | h | h | h := known <;> cases h <;> rfl

theorem editStep_invalid {e : EditWork} (clean : opReserved (opAt s c e.op) = false) (result : applyOp s e (opAt s c e.op) = .invalid) :
    editStep c e s = endCmd c.uid stDescInvalid (opDetail e.op) s := by
  unfold editStep
  dsimp only
  rw [clean, result]
  rfl

theorem editStep_limit {e : EditWork} (clean : opReserved (opAt s c e.op) = false) (result : applyOp s e (opAt s c e.op) = .limit) :
    editStep c e s = endCmd c.uid stLimit (opDetail e.op) s := by
  unfold editStep
  dsimp only
  rw [clean, result]
  rfl

theorem editStep_copied {e e1 : EditWork} (clean : opReserved (opAt s c e.op) = false) (more : e.op + 1 < nOps c.desc)
    (next : opReserved (opAt s c (e.op + 1)) = false) (result : applyOp s e (opAt s c e.op) = .ok e1) :
    editStep c e s = modCmd c.uid (fun x => { x with edit := some { e1 with op := e.op + 1 } }) s := by
  unfold editStep
  dsimp only
  rw [clean, result]
  dsimp only
  rw [if_neg (by decide), if_neg (by omega), next]
  rfl

end

/-- Settles O37: a middle operation is one change of the command's copy, or the command's early end. -/
theorem pageTableEditRows : Obligations.PageTableEditRows := by
  intro tag code row c e s known held cmd copy runs op dispatched running started more its clean next
  have row_ (queue : (editStep c e s).pending = s.pending) : exec row s = .next (regionProgress (homeRegion s (cSeq c.desc)) (editStep c e s)) := by
    rw [exec_editOp known]
    unfold editOp
    rw [held]
    dsimp only
    rw [copy]
    dsimp only
    rw [if_pos started]
    exact event_exact (by simp [runs, op, dispatched, running, its]; omega) queue
  have undecided : c.decided = false ∧ c.ending = none ∧ c.reject = none := by
    simpa [acting, and_assoc] using running
  obtain ⟨undecided, going, plain⟩ := undecided
  refine ⟨fun e1 result => ?copied, fun st fails => ?fails⟩
  case copied =>
    have step := editStep_copied clean more next result
    rw [step] at row_
    exact ⟨_, row_ rfl, cmdOf_modCmd (f := fun x => { x with edit := some { e1 with op := e.op + 1 } }) (fun _ => rfl) cmd, rfl⟩
  case fails =>
    have step : editStep c e s = endCmd c.uid st (opDetail e.op) s := by
      obtain ⟨result, rfl⟩ | ⟨result, rfl⟩ := fails
      · exact editStep_invalid clean result
      · exact editStep_limit clean result
    have frame := endCmd_frame c.uid st (opDetail e.op) s
    rw [step] at row_
    refine ⟨_, endedCmd st (opDetail e.op) c, row_ (frame.get State.pending), cmdOf_endCmd cmd undecided going, ?_,
      frame.get State.mem, frame.get State.paged, frame.get State.flags, frame.get State.links, frame.get State.od⟩
    simp [endedCmd, plain, opDetail]

end Sys2Proof.Machine
end

section
/-! What the operations on pools and the Peat ring leave in the allocator's record, and the statement on drops, held
requests, freed objects and moves (chapter 7). -/

namespace Sys2Proof.Machine

-- one proof at a time, for the memory that the check allows
set_option Elab.async false

/-! ### The allocator's record -/

/-- Writes to host memory leave the allocator's record. -/
theorem paged_of_memFrame {s t : State} (h : Frame memParts s t) : t.paged = s.paged := h.get State.paged

/-- `t`'s record of the allocator is `p` but for the set of pools that are dropping. -/
def PagedBut (p : Paged) (t : State) : Prop := t.paged = { p with dropping := t.paged.dropping }

namespace PagedBut

variable {p : Paged} {t : State}

theorem retired (h : PagedBut p t) : t.paged.retired = p.retired := (congrArg Paged.retired (show t.paged = { p with dropping := t.paged.dropping } from h)).trans rfl
theorem free (h : PagedBut p t) : t.paged.free = p.free := (congrArg Paged.free (show t.paged = { p with dropping := t.paged.dropping } from h)).trans rfl
theorem heads (h : PagedBut p t) : t.paged.heads = p.heads := (congrArg Paged.heads (show t.paged = { p with dropping := t.paged.dropping } from h)).trans rfl
theorem leafFree (h : PagedBut p t) : t.paged.leafFree = p.leafFree := (congrArg Paged.leafFree (show t.paged = { p with dropping := t.paged.dropping } from h)).trans rfl
theorem leafHead (h : PagedBut p t) : t.paged.leafHead = p.leafHead := (congrArg Paged.leafHead (show t.paged = { p with dropping := t.paged.dropping } from h)).trans rfl
theorem pinCtr (h : PagedBut p t) : t.paged.pinCtr = p.pinCtr := (congrArg Paged.pinCtr (show t.paged = { p with dropping := t.paged.dropping } from h)).trans rfl
theorem peat (h : PagedBut p t) : t.paged.peat = p.peat := (congrArg Paged.peat (show t.paged = { p with dropping := t.paged.dropping } from h)).trans rfl

end PagedBut

theorem dropNote_paged (p : Nat) (s : State) : PagedBut s.paged (dropNote p s) := by
  unfold dropNote PagedBut
  dsimp only
  split
  · rfl
  · split <;> rfl

theorem dropNoteOf_paged (f : Nat) (s : State) : PagedBut s.paged (dropNoteOf f s) := by
  unfold dropNoteOf
  split
  · exact dropNote_paged ..
  · rfl

theorem writeMeta_paged (f v : Nat) (s : State) : (writeMeta f v s).paged = s.paged := (writeMeta_frame f v s).get State.paged

theorem retireFrame_paged (f : Nat) (s : State) :
    PagedBut { s.paged with retired := s.paged.retired ++ [(0, f, s.paged.pinCtr)] } (retireFrame f s) := by
  unfold retireFrame
  have same := writeMeta_paged f (putBits (metaOf s f) 0 16 0) s
  dsimp only
  generalize writeMeta f (putBits (metaOf s f) 0 16 0) s = w at same ⊢
  rw [← same]
  exact dropNoteOf_paged ..

theorem pushFrame_paged {f p : Nat} {s : State} (its : poolOf s f = some p) :
    PagedBut { s.paged with heads := tput p f s.paged.heads, free := tput p (tget 0 s.paged.free p + 1) s.paged.free } (pushFrame f s) := by
  unfold pushFrame
  rw [its]
  have same := writeMeta_paged f (putBits (putBits (metaOf s f) 0 16 0) 16 24 (tget noFrame s.paged.heads p)) s
  dsimp only
  generalize writeMeta f (putBits (putBits (metaOf s f) 0 16 0) 16 24 (tget noFrame s.paged.heads p)) s = w at same ⊢
  rw [← same]
  exact dropNote_paged ..

theorem pushLeaf_paged (n : Nat) (s : State) :
    (pushLeaf n s).paged = { s.paged with leafHead := n, leafFree := s.paged.leafFree + 1 } := by
  have same : (hostWrite (leafAddr s n) (toBytes 8 s.paged.leafHead) false .engine false s).paged = s.paged :=
    (hostWrite_free_frame rfl ..).get State.paged
  unfold pushLeaf
  dsimp only
  rw [same]

theorem linkTo_paged (p : Nat) (prev : Option Nat) (n : Nat) (s : State) :
    (linkTo p prev n s).paged = { s.paged with heads := (linkTo p prev n s).paged.heads } := by
  cases prev with
  | none => rfl
  | some f =>
    have same : (linkTo p (some f) n s).paged = s.paged := writeMeta_paged ..
    rw [same]

theorem takeFrame_paged (p f : Nat) (s : State) :
    PagedBut { s.paged with heads := (takeFrame p f s).paged.heads, free := tput p (tget 0 s.paged.free p - 1) s.paged.free } (takeFrame p f s) := by
  unfold takeFrame
  dsimp only
  generalize (if (poolStack s p).findIdx (fun x => decide (x = f)) = 0 then none
    else some ((poolStack s p).getD ((poolStack s p).findIdx (fun x => decide (x = f)) - 1) 0)) = prev
  have linked := linkTo_paged p prev (nextFree s f) s
  generalize linkTo p prev (nextFree s f) s = w at linked ⊢
  have done := dropNote_paged p { w with paged := { w.paged with free := tput p (tget 0 s.paged.free p - 1) w.paged.free } }
  rw [done.heads]
  rw [linked] at done ⊢
  exact done

theorem peatPost_paged (seq layer page pos0 fmt num : Nat) (req : Bool) (s : State) :
    (peatPost seq layer page pos0 fmt num req s).paged = { s.paged with peatOut := s.paged.peatOut ++ [peatPosted s] } := by
  unfold peatPost
  dsimp only
  generalize toBytes 16 (sealEntry _) = bs
  have same : (hostWrite (odv s 0x3220 2 + 16 * (peatPosted s % peatSize s)) bs false (.peat (peatPosted s)) false s).paged = s.paged :=
    (hostWrite_free_frame rfl ..).get State.paged
  rw [odPut_paged]
  dsimp only
  rw [same]

theorem peatPost_posted (seq layer page pos0 fmt num : Nat) (req : Bool) (s : State) :
    odv (peatPost seq layer page pos0 fmt num req s) 0x3220 4 = (peatPosted s + 1) % 2 ^ 32 := odv_odPut_same ..

theorem peatPost_od_other {k l : Nat} (seq layer page pos0 fmt num : Nat) (req : Bool) (s : State) (h : odKey k l ≠ odKey 0x3220 4) :
    odv (peatPost seq layer page pos0 fmt num req s) k l = odv s k l := by
  unfold peatPost
  dsimp only
  rw [odv_odPut_other _ _ h]
  exact odv_of_od ((hostWrite_free_frame (o := .peat (peatPosted s)) rfl ..).get State.od) ..

/-! ### A drop -/

/-- The entry of a table's page. -/
def dropEntry (s : State) (table page : Nat) : Nat := pageEntry s (rDir (rootNat s (table / 256) (table % 256))) page

/-- The page as the Peat list keeps it. -/
def droppedPage (s : State) (table page : Nat) : Dropped :=
  { seq := table / 256, layer := table % 256, page := page, num := s.paged.dropNum, asked := false
    head := if (poolOf s (bits (dropEntry s table page) 8 24)).isSome then hostNat s (frameAddr s (bits (dropEntry s table page) 8 24)) 28 else 0 }

/-- The state with a frame retired and a page in the Peat list. -/
def droppedFrom (w : State) (f num : Nat) (x : Dropped) : State :=
  { retireFrame f w with paged := { (retireFrame f w).paged with dropNum := (num + 1) % 2 ^ 32, peat := (retireFrame f w).paged.peat ++ [x] } }

/-- A drop marks the entry, retires the frame, lists the page, posts it and counts. -/
theorem dropPage_steps (table page : Nat) (s : State) : ∃ w pos fmt, Frame memParts s w ∧ dropPage table page .engine s =
    odBump 0x3220 6 1 (peatPost (table / 256) (table % 256) page pos fmt s.paged.dropNum false
      (droppedFrom w (bits (dropEntry s table page) 8 24) s.paged.dropNum (droppedPage s table page))) :=
  ⟨_, _, _, writeEntry_free_frame rfl .., rfl⟩

theorem droppedFrom_paged (w : State) (f num : Nat) (x : Dropped) :
    PagedBut { w.paged with retired := w.paged.retired ++ [(0, f, w.paged.pinCtr)], dropNum := (num + 1) % 2 ^ 32, peat := w.paged.peat ++ [x] }
      (droppedFrom w f num x) := by
  have gone := retireFrame_paged f w
  unfold droppedFrom
  generalize retireFrame f w = r at gone ⊢
  unfold PagedBut at *
  dsimp only
  rw [gone]

theorem dropPage_paged (table page : Nat) (s : State) :
    PagedBut { s.paged with
      retired := s.paged.retired ++ [(0, bits (dropEntry s table page) 8 24, s.paged.pinCtr)]
      dropNum := (s.paged.dropNum + 1) % 2 ^ 32, peat := s.paged.peat ++ [droppedPage s table page]
      peatOut := (dropPage table page .engine s).paged.peatOut } (dropPage table page .engine s) := by
  obtain ⟨w, pos, fmt, marked, steps⟩ := dropPage_steps table page s
  have same : w.paged = s.paged := marked.get State.paged
  have gone := droppedFrom_paged w (bits (dropEntry s table page) 8 24) s.paged.dropNum (droppedPage s table page)
  rw [steps]
  generalize droppedFrom w _ _ _ = r at gone ⊢
  rw [same] at gone
  unfold PagedBut at *
  rw [show ∀ u, (odBump 0x3220 6 1 u).paged = u.paged from fun _ => odPut_paged .., peatPost_paged]
  dsimp only
  rw [gone]

theorem dropPage_od (table page : Nat) (s : State) :
    odv (dropPage table page .engine s) 0x3220 6 = (odv s 0x3220 6 + 1) % 2 ^ 64 := by
  obtain ⟨w, pos, fmt, marked, steps⟩ := dropPage_steps table page s
  have same : (droppedFrom w (bits (dropEntry s table page) 8 24) s.paged.dropNum (droppedPage s table page)).od = s.od :=
    ((retireFrame_frame _ w).get State.od).trans (marked.get State.od)
  rw [steps, odv_odBump_same (w := 64) _ (by decide), peatPost_od_other _ _ _ _ _ _ _ _ (by decide), odv_of_od same]

/-! ### A move -/

theorem takeLeaf_paged (s : State) : (takeLeaf s).2.paged =
    { s.paged with leafHead := hostNat s (leafAddr s s.paged.leafHead) 8, leafFree := s.paged.leafFree - 1 } := rfl

/-- Two leaf slots from the top of their stack. -/
theorem takeLeaf_twice (s : State) : ∃ n, (takeLeaf (takeLeaf s).2).2.paged = { s.paged with leafHead := n, leafFree := s.paged.leafFree - 2 } :=
  ⟨hostNat (takeLeaf s).2 (leafAddr (takeLeaf s).2 (takeLeaf s).2.paged.leafHead) 8, by
    rw [takeLeaf_paged (takeLeaf s).2, takeLeaf_paged s, Nat.sub_sub]⟩

theorem PagedBut.retireLeaf {p : Paged} {t : State} (h : PagedBut p t) (n : Nat) :
    PagedBut { p with retired := p.retired ++ [(1, n, p.pinCtr)] } (retireLeaf n t) := by
  show { t.paged with retired := t.paged.retired ++ [(1, n, t.paged.pinCtr)] } = _
  rw [h]
  rfl

/-- A frame and two leaf slots retired. -/
theorem retired_three (f a d : Nat) (s : State) :
    PagedBut { s.paged with retired := s.paged.retired ++ [(0, f, s.paged.pinCtr), (1, a, s.paged.pinCtr), (1, d, s.paged.pinCtr)] }
      (retireLeaf d (retireLeaf a (retireFrame f s))) := by
  have gone := ((retireFrame_paged f s).retireLeaf a).retireLeaf d
  simpa using gone

/-- A move ends in the retirement of the frame, the leaf and the directory, and took two leaf slots before. -/
theorem movePage_retires (f g t i : Nat) (s : State) : ∃ w a d, movePage f g t i s = retireLeaf d (retireLeaf a (retireFrame f w))
    ∧ ∃ n, w.paged = { s.paged with leafHead := n, leafFree := s.paged.leafFree - 2 } := by
  unfold movePage
  dsimp only
  refine ⟨_, _, _, rfl, ?_⟩
  have copied (us : List Nat) (bs : List Byte) (dst : Nat) : Frame memParts s
      (us.foldl (fun s u => hostWrite (dst + 64 * u) ((bs.drop (64 * u)).take 64) true .engine false s) (hostWrite dst bs false .engine false s)) :=
    .foldl (fun _ _ => hostWrite_free_frame rfl ..) (hostWrite_free_frame rfl ..)
  rw [paged_of_memFrame (raiseRefs_frame ..), paged_of_memFrame (writeRoot_free_frame rfl ..), paged_of_memFrame (writeSlot_free_frame rfl ..),
    paged_of_memFrame (writeSlot_free_frame rfl ..), ← paged_of_memFrame (copied ..)]
  exact takeLeaf_twice _

theorem movePage_paged (f g t i : Nat) (s : State) : ∃ a d, PagedBut { s.paged with
      retired := s.paged.retired ++ [(0, f, s.paged.pinCtr), (1, a, s.paged.pinCtr), (1, d, s.paged.pinCtr)]
      leafHead := (movePage f g t i s).paged.leafHead, leafFree := s.paged.leafFree - 2 } (movePage f g t i s) := by
  obtain ⟨w, a, d, moved, n, before⟩ := movePage_retires f g t i s
  have gone := retired_three f a d w
  rw [← moved] at gone
  refine ⟨a, d, ?_⟩
  rw [gone.leafHead]
  rw [before] at gone ⊢
  exact gone

theorem shrinkMove_pending (r f g t i p : Nat) (s : State) :
    (regionProgress r (movePage f g t i (takeFrame p g s))).pending = s.pending := by
  have moved := movePage_frame f g t i (takeFrame p g s)
  have taken := takeFrame_frame p g s
  rw [regionProgress_pending]
  generalize movePage f g t i (takeFrame p g s) = u at moved ⊢
  generalize takeFrame p g s = w at moved taken
  exact (moved.get State.pending).trans (taken.get State.pending)

/-! ### A freed object -/

theorem freeObject_retired (r : Nat × Nat × Nat) (s : State) :
    (freeObject r s).paged.retired = s.paged.retired.filter fun x => !(x.1 == r.1 && x.2.1 == r.2.1) := by
  unfold freeObject
  dsimp only
  split
  · generalize home : ({ s with paged := _, regions := _ } : State) = w
    have kept : w.paged.retired = s.paged.retired.filter fun x => !(x.1 == r.1 && x.2.1 == r.2.1) := by rw [← home]
    rw [← kept]
    cases its : poolOf w r.2.1 with
    | none =>
      unfold pushFrame
      rw [its]
    | some p => exact (pushFrame_paged its).retired
  · rw [pushLeaf_paged]

theorem freeObject_frame_free {r : Nat × Nat × Nat} {s : State} {p : Nat} (frame : r.1 = 0) (its : poolOf s r.2.1 = some p) :
    tget noFrame (freeObject r s).paged.heads p = r.2.1
    ∧ tget 0 (freeObject r s).paged.free p = tget 0 s.paged.free p + 1 ∧ (freeObject r s).paged.leafFree = s.paged.leafFree := by
  unfold freeObject
  dsimp only
  rw [if_pos frame]
  generalize home : ({ s with paged := _, regions := _ } : State) = w
  have its : poolOf w r.2.1 = some p := by rw [← home]; exact its
  have pushed := pushFrame_paged its
  refine ⟨?_, ?_, ?_⟩
  · rw [pushed.heads]; exact tget_tput_same ..
  · rw [pushed.free]
    show tget 0 (tput _ _ _) p = _
    rw [tget_tput_same, ← home]
  · rw [pushed.leafFree, ← home]

theorem freeObject_leaf {r : Nat × Nat × Nat} {s : State} (leaf : r.1 ≠ 0) :
    (freeObject r s).paged.leafHead = r.2.1 ∧ (freeObject r s).paged.leafFree = s.paged.leafFree + 1
    ∧ (freeObject r s).paged.free = s.paged.free := by
  unfold freeObject
  dsimp only
  rw [if_neg leaf, pushLeaf_paged]
  exact ⟨rfl, rfl, rfl⟩

/-! ### The four rows -/

/-- Settles O41: each row is one change of the allocator's record. -/
theorem poolAndPeatRows : Obligations.PoolAndPeatRows := by
  intro s runs
  refine ⟨fun pool table i small its active => ⟨fun busy => ?busy, fun idle => ⟨fun held => ?held, fun go => ?dropped⟩⟩,
    fun table i n rest held => ⟨fun full => ?full, fun room => ?posted⟩, fun none => ?none, fun r its => ⟨?pins, ?freed⟩,
    fun pool f g table i rest small on its top leaves => ?moved⟩
  case busy =>
    show execPageDropAuto pool s = _
    unfold execPageDropAuto
    rw [its]
    exact event_not (by simp [busy])
  case held =>
    have row : exec (.pageDropAuto pool) s = .next (regionProgress ((presentRegions s).headD 0) (odBump 0x3220 8 1 s)) := by
      show execPageDropAuto pool s = _
      unfold execPageDropAuto
      rw [its]
      dsimp only
      rw [if_pos held]
      exact event_exact (by simp [runs, small, active, idle]) rfl
    exact ⟨_, row, odv_odBump_same (w := 32) s (by decide), rfl, rfl⟩
  case dropped =>
    have frame := dropPage_free_frame table i (o := .engine) rfl s
    have row : exec (.pageDropAuto pool) s = .next (regionProgress ((presentRegions s).headD 0) (dropPage table i .engine s)) := by
      show execPageDropAuto pool s = _
      unfold execPageDropAuto
      rw [its]
      dsimp only
      rw [go, if_neg (by decide)]
      exact event_exact (by simp [runs, small, active, idle]) (frame.get State.pending)
    have record := dropPage_paged table i s
    have count := dropPage_od table i s
    generalize dropPage table i .engine s = t at frame row record count
    exact ⟨_, row, record.retired, (congrArg Paged.dropNum record).trans rfl, ⟨droppedPage s table i, record.peat, rfl, rfl, rfl, rfl, rfl⟩,
      record.free, count, frame.get State.front, frame.get State.sp, frame.get State.flags⟩
  case full =>
    show execPeatRequestPost s = _
    unfold execPeatRequestPost
    rw [held]
    exact event_not (by simp [full])
  case posted =>
    let waiting : State := { s with paged := { s.paged with held := rest } }
    have frame := postRequest_frame table i n waiting
    have row : exec .peatRequestPost s = .next (postRequest table i n waiting) := by
      show execPeatRequestPost s = _
      unfold execPeatRequestPost
      rw [held]
      exact event_exact (by simp [runs, room]) (frame.get State.pending)
    exact ⟨_, row, peatPost_paged .., peatPost_posted .., frame.get State.front, frame.get State.sp, frame.get State.flags⟩
  case none =>
    show execRetiredObjectFree s = _
    unfold execRetiredObjectFree
    rw [List.find?_eq_none.mpr (by simpa using none)]
  case pins =>
    have may := List.find?_some its
    unfold freeable at may
    simpa using may
  case freed =>
    have frame := freeObject_frame r s
    have row : exec .retiredObjectFree s = .next (regionProgress ((presentRegions s).headD 0) (freeObject r s)) := by
      show execRetiredObjectFree s = _
      unfold execRetiredObjectFree
      rw [its]
      exact event_exact runs (frame.get State.pending)
    exact ⟨_, row, freeObject_retired r s, fun p frame its => freeObject_frame_free frame its, fun leaf => freeObject_leaf leaf,
      congrArg Front.items (frame.get State.front), frame.get State.sp, frame.get State.flags⟩
  case moved =>
    have taken := takeFrame_frame pool g s
    have record := takeFrame_paged pool g s
    have frame := movePage_frame f g table i (takeFrame pool g s)
    obtain ⟨a, d, moved⟩ := movePage_paged f g table i (takeFrame pool g s)
    have row : exec (.poolShrinkMove pool) s
        = .next (regionProgress ((presentRegions s).headD 0) (movePage f g table i (takeFrame pool g s))) := by
      show execPoolShrinkMove pool s = _
      unfold execPoolShrinkMove
      rw [its, top]
      exact event_exact (by simp [runs, small, on, leaves]) (shrinkMove_pending ..)
    generalize movePage f g table i (takeFrame pool g s) = t at frame row moved
    generalize takeFrame pool g s = u at frame moved taken record
    refine ⟨_, a, d, row, ?_, ?_, ?_, (frame.get State.front).trans (taken.get State.front),
      (frame.get State.sp).trans (taken.get State.sp), (frame.get State.flags).trans (taken.get State.flags)⟩
    · refine moved.retired.trans ?_
      show u.paged.retired ++ _ = _
      rw [record.retired, record.pinCtr]
    · refine moved.leafFree.trans ?_
      show u.paged.leafFree - 2 = _
      rw [record.leafFree]
    · show tget 0 t.paged.free pool = _
      rw [moved.free]
      show tget 0 u.paged.free pool = _
      rw [record.free]
      exact tget_tput_same ..

end Sys2Proof.Machine
end

section
/-! What a page-table walk leaves of the pin counter, and the statement on walk requests (chapter 7). -/

namespace Sys2Proof.Machine

-- one proof at a time, for the memory that the check allows
set_option Elab.async false

/-! ### What a walk keeps -/

/-- What a walk touches besides the allocator's record. -/
def walkParts : List StatePart := [.cmds, .items, .blocks, .regions, .e2e, .localRels, .od, .queues, .mem, .memPoison, .ports, .fresh]

/-- The queue of waiting commands and the pin counter stand. -/
def PinsKept (s t : State) : Prop := t.pending = s.pending ∧ t.paged.pinCtr = s.paged.pinCtr

namespace PinsKept

variable {s t u : State}

theorem of_frame (h : Frame walkParts s t) : PinsKept s t := ⟨h.get State.pending, congrArg Paged.pinCtr (h.get State.paged)⟩

theorem refl (s : State) : PinsKept s s := ⟨rfl, rfl⟩

theorem trans (h : PinsKept s t) (k : PinsKept t u) : PinsKept s u := ⟨k.1.trans h.1, k.2.trans h.2⟩

theorem after (k : PinsKept t u) (h : PinsKept s t) : PinsKept s u := h.trans k

theorem ite {c : Prop} [Decidable c] (h : PinsKept s t) (k : PinsKept s u) : PinsKept s (if c then t else u) := by
  split
  · exact h
  · exact k

theorem foldl {α : Type} {f : State → α → State} {l : List α} (step : ∀ t a, PinsKept t (f t a)) (h : PinsKept s t) :
    PinsKept s (l.foldl f t) := by
  induction l generalizing t with
  | nil => exact h
  | cons a r ih => exact ih (h.trans (step t a))

end PinsKept

theorem peatPost_pins (seq layer page pos0 fmt num : Nat) (req : Bool) (s : State) :
    PinsKept s (peatPost seq layer page pos0 fmt num req s) :=
  ⟨(peatPost_frame ..).get State.pending, (congrArg Paged.pinCtr (peatPost_paged seq layer page pos0 fmt num req s)).trans rfl⟩

theorem requestPage_pins (table page : Nat) (s : State) : PinsKept s (requestPage table page s) := by
  unfold requestPage
  split
  · exact .ite (.refl s) (.ite ⟨rfl, rfl⟩ (.after (peatPost_pins ..) ⟨rfl, rfl⟩))
  · exact .refl s

theorem walkTorn_frame (uid : Nat) (s : State) : Frame walkParts s (walkTorn uid s) := by
  unfold walkTorn
  split
  · exact .refl s
  · exact .ite (.after (odBump_frame ..) (.after (endCmd_frame ..) (flagCmd_frame ..).mono))
      (.after (odBump_frame ..) (.after (modCmd_frame ..) (.after (show Frame [.items, .blocks, .regions, .e2e, .localRels] _ (purge uid _) from rfl)
        (flagCmd_frame ..).mono)))

theorem packJoin_frame (uid : Nat) (s : State) : Frame [.cmds, .od] s (packJoin uid s) := by
  unfold packJoin
  split
  · exact .refl s
  · next c _ =>
    dsimp only
    have joined (x : Nat × Nat × State) (h : Frame [.cmds, .od] s x.2.2) :
        Frame [.cmds, .od] s (modCmd uid (fun c => { c with packSet := x.1, packT := x.2.1 }) x.2.2) := .after (modCmd_frame ..) h
    have known (mine : Option Cmd) (few : Cmd → Prop) [DecidablePred few] : Frame [.cmds, .od] s (match mine with
        | some x => if few x then (x.packSet, x.packT, s) else (uid, odv s 0x3010 1, packRelease x.packSet s)
        | none => (uid, odv s 0x3010 1, s)).2.2 := by
      split
      · split
        · exact .refl s
        · exact packRelease_frame ..
      · exact .refl s
    have result := joined _ (known ((packSets s).findSome? fun f => (packMembers s f).find? fun x => x.uid != uid && packKey s x == packKey s c)
      fun x => ((packMembers s x.packSet).map fun m => packRows m.desc).sum + packRows c.desc ≤ 64)
    exact .ite (.refl s) (.ite (modCmd_frame ..).mono (.ite (.after (packRelease_frame ..) result) result))

theorem finishWalk_frame (uid : Nat) (s : State) : Frame walkParts s (finishWalk uid s) := by
  unfold finishWalk
  split
  · exact .refl s
  · exact .ite (.ite (endCmd_frame ..).mono (.after (packJoin_frame ..) (modCmd_frame ..).mono))
      (.ite (endCmd_frame ..).mono (modCmd_frame ..).mono)

theorem meetDropped_pins (uid : Nat) (s : State) : PinsKept s (meetDropped uid s) := by
  unfold meetDropped
  split
  · exact .refl s
  · refine .ite (.of_frame (finishWalk_frame ..)) ?_
    split
    · exact .foldl (fun _ _ => requestPage_pins ..) (.of_frame (modCmd_frame ..).mono)
    · exact .of_frame (.after (finishWalk_frame ..) (.after (flagCmd_frame ..) (modCmd_frame ..).mono))
    · exact .of_frame (endCmd_frame ..).mono

theorem cacheLeaf_frame (r slot : Nat) (s : State) : Frame [.regions] s (cacheLeaf r slot s) := .ite (.refl s) (modRegion_frame ..)

theorem walkPages_pins (r uid : Nat) (s : State) : PinsKept s (walkPages r uid s) := by
  unfold walkPages
  split
  · exact .refl s
  split
  · exact .refl s
  dsimp only
  refine .ite (.of_frame (.after (walkTorn_frame ..) (modRegion_frame ..).mono)) (.after (meetDropped_pins ..) (.of_frame ?_))
  refine .after (modCmd_frame ..) (.foldl (fun _ _ => (trace_frame ..).mono) (.foldl (fun _ _ => .ite ?_ (.refl _))
    (.foldl (fun _ _ => (cacheLeaf_frame ..).mono) (.refl s))))
  exact .after (odBump_frame ..) (.after (report_frame ..) (flagCmd_frame ..).mono)

theorem takePin_pinCtr (c : Cmd) (s : State) : (takePin c s).paged.pinCtr = (s.paged.pinCtr + 1) % 2 ^ 32 :=
  congrArg Paged.pinCtr (paged_of_memFrame (writeRoot_free_frame rfl ..))

theorem takePin_pending (c : Cmd) (s : State) : (takePin c s).pending = s.pending := (writeRoot_free_frame (o := .engine) rfl ..).get State.pending

/-- The record of a command that a first failed check sends back to be walked again (R223). -/
def walkedAgain (c : Cmd) : Cmd :=
  { c with
    itemTotal := if dOp c.desc = 0x12 then aKvHeads c.desc else c.itemTotal, retried := true, pin := none, pages := [], walked := false
    stalled := false, itemNext := 0, done := [], partials := [], held := [], bands := [], loads := [], packGo := false, packSet := 0 }

theorem walkTorn_first {uid : Nat} {c : Cmd} {s : State} (cmd : cmdOf s uid = some c) (first : c.retried = false) :
    walkTorn uid s = odBump 0x3300 5 1 (modCmd uid walkedAgain (purge uid (flagCmd uid 3 s))) := by
  unfold walkTorn
  rw [cmd]
  dsimp only
  rw [first]
  rfl

theorem cmdOf_walkTorn {uid : Nat} {c : Cmd} {s : State} (cmd : cmdOf s uid = some c) (first : c.retried = false) :
    cmdOf (walkTorn uid s) uid = some (walkedAgain { c with flags := c.flags ||| BitVec.ofNat 16 (2 ^ 3) }) := by
  rw [walkTorn_first cmd first]
  have flagged : cmdOf (purge uid (flagCmd uid 3 s)) uid = some { c with flags := c.flags ||| BitVec.ofNat 16 (2 ^ 3) } :=
    cmdOf_modCmd (f := fun c => { c with flags := c.flags ||| BitVec.ofNat 16 (2 ^ 3) }) (fun _ => rfl) cmd
  exact cmdOf_modCmd (fun _ => rfl) flagged

theorem odv_walkTorn {uid : Nat} {c : Cmd} {s : State} (cmd : cmdOf s uid = some c) (first : c.retried = false) :
    odv (walkTorn uid s) 0x3300 5 = (odv s 0x3300 5 + 1) % 2 ^ 32 := by
  rw [walkTorn_first cmd first]
  exact odv_odBump_same (w := 32) _ (by decide)

/-! ### The row -/

/-- A walk that does not go on later leaves the walk queue. -/
def walkServed (region uid : Nat) (t : State) : State :=
  let stays : Bool := match cmdOf t uid with
    | some c => c.stalled && acting c
    | none => false
  regionProgress region (if stays then t else modRegion region (fun x => { x with walks := x.walks.filter fun y => y.uid != uid }) t)

theorem walkServed_frame (region uid : Nat) (t : State) : Frame [.regions] t (walkServed region uid t) :=
  .after (regionProgress_frame ..) (.ite (.refl t) (modRegion_frame ..))

section
variable {region : Nat} {w : WalkReq} {c : Cmd} {s : State} (runs : regionRuns s region = true) (next : nextWalk s region = some w)
include runs next

theorem exec_walk_armed (armed : fires 0x15 region s ≠ none) :
    exec (.walkRequest region) s = .next (report 0x15 region 0 5 0 none true (disarm 0x15 region s)) := by
  show execWalkRequest region s = _
  unfold execWalkRequest
  rw [next]
  dsimp only
  rw [if_pos (Option.isSome_iff_ne_none.mpr armed)]
  exact event_exact runs ((report_frame 0x15 region 0 5 0 none true (disarm 0x15 region s)).get State.pending)

theorem exec_walk_served (idle : fires 0x15 region s = none) (queue : (serveWalk region w.uid s).pending = s.pending) :
    exec (.walkRequest region) s = .next (walkServed region w.uid (serveWalk region w.uid s)) := by
  show execWalkRequest region s = _
  unfold execWalkRequest
  rw [next]
  dsimp only
  rw [if_neg (by simp [idle])]
  exact event_exact runs (((walkServed_frame ..).get State.pending).trans queue)

end

/-- Settles O33: a walk is served by one of four answers, by what its root shows. -/
theorem walkRequestRow : Obligations.WalkRequestRow := by
  intro region w c s runs next
  refine ⟨fun armed => ⟨_, exec_walk_armed runs next armed, ?armed⟩, fun idle cmd undecided going plain unpinned clean =>
    ⟨fun good live_ heads dim => ?pinned, fun good gone => ?ended, fun bad first => ?torn⟩⟩
  case armed =>
    have frame : Frame [.queues, .armed, .od] s _ := .after (report_frame 0x15 region 0 5 0 none true _) (disarm_frame 0x15 region s).mono
    generalize report _ _ _ _ _ _ _ _ = t at frame ⊢
    have rel : t.rel = { s.rel with queues := t.rel.queues, armed := t.rel.armed } := frame.get State.rel
    refine Eq.trans frame ?_
    rw [rel]
    rfl
  case pinned =>
    have served : serveWalk region w.uid s = walkPages region w.uid (takePin c s) := by
      unfold serveWalk
      simp [cmd, unpinned, clean, good, live_, heads, dim]
    have kept := walkPages_pins region w.uid (takePin c s)
    rw [← served] at kept
    refine ⟨_, exec_walk_served runs next idle (kept.1.trans (takePin_pending c s)), ?_⟩
    exact (congrArg Paged.pinCtr ((walkServed_frame ..).get State.paged)).trans (kept.2.trans (takePin_pinCtr c s))
  case ended =>
    have served : serveWalk region w.uid s = endCmd w.uid stDescInvalid 576 s := by
      unfold serveWalk
      simp [cmd, unpinned, clean, good, gone]
    have frame := endCmd_frame w.uid stDescInvalid 576 s
    have its := cmdOf_endCmd (status := stDescInvalid) (detail := 576) cmd undecided going
    rw [← served] at frame its
    have row := exec_walk_served runs next idle (frame.get State.pending)
    have left := walkServed_frame region w.uid (serveWalk region w.uid s)
    refine ⟨_, endedCmd stDescInvalid 576 c, row, (cmdOf_of_cmds (left.get fun t => t.front.cmds) _).trans its, ?_,
      (left.get State.paged).trans (frame.get State.paged), (left.get State.mem).trans (frame.get State.mem),
      (left.get State.flags).trans (frame.get State.flags)⟩
    simp [endedCmd, plain, stDescInvalid]
  case torn =>
    have served : serveWalk region w.uid s = walkTorn w.uid s := by
      unfold serveWalk
      simp [cmd, unpinned, clean, bad]
    have frame : Frame [.cmds, .items, .blocks, .regions, .e2e, .localRels, .od] s (walkTorn w.uid s) := by
      rw [walkTorn_first cmd first]
      rfl
    have its := cmdOf_walkTorn cmd first
    have count := odv_walkTorn cmd first
    rw [← served] at frame its count
    have row := exec_walk_served runs next idle (frame.get State.pending)
    have left := walkServed_frame region w.uid (serveWalk region w.uid s)
    exact ⟨_, _, row, (cmdOf_of_cmds (left.get fun t => t.front.cmds) _).trans its, rfl, rfl, going, (odv_of_od (left.get State.od) ..).trans count,
      (left.get State.paged).trans (frame.get State.paged), (left.get State.mem).trans (frame.get State.mem)⟩

end Sys2Proof.Machine
end

section
/-! Why the statement on appends does not hold: a retired frame may end the dropping from its pool (chapter 7). -/

namespace Sys2Proof.Machine

-- one proof at a time, for the memory that the check allows
set_option Elab.async false

/-! ### The retirement that ends a pool's dropping (R213) -/

theorem dropNote_full {p : Nat} {s : State} (full : odv s 0x3210 (0x20 + p) ≤ tget 0 s.paged.free p + deferred s p) :
    (dropNote p s).paged.dropping = setDel p s.paged.dropping := by
  unfold dropNote
  dsimp only
  rw [if_pos full]

theorem poolOf_of_od {s t : State} (same : t.od = s.od) (f : Nat) : poolOf t f = poolOf s f := by
  unfold poolOf
  simp only [odv_of_od same]

/-- A retired frame counts among those that come back: with the last one short of `HIGH` it ends the dropping. -/
theorem retireFrame_full {f p : Nat} {s : State} (its : poolOf s f = some p)
    (full : odv s 0x3210 (0x20 + p) ≤ tget 0 s.paged.free p + 1) : (retireFrame f s).paged.dropping = setDel p s.paged.dropping := by
  unfold retireFrame dropNoteOf
  have same := writeMeta_paged f (putBits (metaOf s f) 0 16 0) s
  have od : (writeMeta f (putBits (metaOf s f) 0 16 0) s).od = s.od := (writeMeta_frame ..).get State.od
  dsimp only
  generalize writeMeta f (putBits (metaOf s f) 0 16 0) s = w at same od ⊢
  rw [same]
  let u : State := { w with paged := { s.paged with retired := s.paged.retired ++ [(0, f, s.paged.pinCtr)] } }
  have pool : poolOf u f = some p := (poolOf_of_od (t := u) od f).trans its
  show (match poolOf u f with | some p => dropNote p u | none => u).paged.dropping = _
  rw [pool]
  refine (dropNote_full ?_).trans rfl
  have one : 1 ≤ deferred u p := by
    unfold deferred
    refine List.length_pos_of_mem (a := (0, f, s.paged.pinCtr)) (List.mem_filter.mpr ⟨by simp [u], ?_⟩)
    simp [pool]
  have threshold : odv u 0x3210 (0x20 + p) = odv s 0x3210 (0x20 + p) := odv_of_od od ..
  rw [threshold]
  exact full.trans (Nat.add_le_add_left one _)

/-- The commit of a page retires the open frame; nothing after it touches the allocator's record. -/
theorem commitPage_retires (c : Cmd) (w : AppendWork) (v f : Nat) (s : State) :
    ∃ u, Frame (.cmds :: memParts) s u ∧ (commitPage c w v f s).paged = (retireFrame (rOpenFrame v) u).paged := by
  unfold commitPage
  dsimp only
  have written (go : Prop) [Decidable go] (u : State) : (if go then writeToken c.uid u else u).paged = u.paged :=
    (show Frame (.cmds :: memParts) u (if go then writeToken c.uid u else u) from .ite (writeToken_frame ..) (.refl u)).get State.paged
  rw [written]
  exact ⟨_, .after (writeRoot_frame ..) (.after (raiseRefs_frame ..) (.ite (.after (writeEntry_frame ..) (writeSlot_frame ..)) (writeEntry_frame ..))), rfl⟩

/-! ### A table whose open page is full -/

/-- The root of a live table without a sealed page, with 15 tokens in open frame 1. -/
def fullOpenRoot : Nat := sealRoot (1 + 2 * 2 ^ 17 + 2 ^ 32 + 2 ^ 128 + 15 * 2 ^ 152 + 2 ^ 157 + 15 * 2 ^ 160)

/-- A KV_APPEND of one token at position 15, promoted into frame 2. -/
def lastTokenWork : AppendWork :=
  { tokens := 0, pages := 0, sealed := [], opens := [], leaves := [3], ready := true, promoted := some 2, page := 0 }

/-- Pool 0 has 8 frames, 6 of them free, and drops until 7 are. -/
def oneFrameShort : State :=
  { State.reset with
    boot := { Boot.atReset with pwrGood := true, resetN := true, pll := true, present := 1 }, mgmt := { Mgmt.atReset with st := 2 }
    od := [(0x320001, 0x100000), (0x320002, 0x200000), (0x320003, 16), (0x320010, 0x400000), (0x320020, 0x10000), (0x320030, 8 * 2 ^ 24),
      (0x321010, 6), (0x321020, 7), (0x330001, 4), (0x330002, 1), (0x330003, 0x300000)]
    mem := memWrite 0x300000 (toBytes 64 fullOpenRoot) []
    paged := { Paged.atReset with heads := [(0, 3)], free := [(0, 6)], leafHead := 4, leafFree := 4, live := [0], dropping := [0] } }

def lastTokenCmd : Cmd :=
  { newCmd oneFrameShort (BitVec.ofNat 1024 (0x20 + 5 * 2 ^ 8 + 2 * 2 ^ 180 + 2 ^ 280 + 15 * 2 ^ 297)) with
    uid := 1, argDone := true, dispatched := true, append := some lastTokenWork }

def lastToken : State := { oneFrameShort with front := { oneFrameShort.front with cmds := [lastTokenCmd], nextUid := 2 } }

theorem lastToken_root : rootNat lastToken 0 0 = fullOpenRoot := by decide +kernel

theorem lastToken_good : commitBad lastToken fullOpenRoot lastTokenCmd lastTokenWork = false := by decide +kernel

theorem lastToken_found : byTag lastToken 5 = some lastTokenCmd ∧ cmdOf lastToken lastTokenCmd.uid = some lastTokenCmd := by decide +kernel

theorem lastToken_runs : exec (.promotionCommit 5) lastToken =
    .next (regionProgress 0 (commitPage lastTokenCmd lastTokenWork fullOpenRoot 2 lastToken)) := by
  have frame := commitPage_frame lastTokenCmd lastTokenWork fullOpenRoot 2 lastToken
  show execPromotionCommit 5 lastToken = _
  unfold execPromotionCommit
  rw [lastToken_found.1]
  dsimp only
  rw [show lastTokenCmd.append = some lastTokenWork from rfl]
  dsimp only
  rw [show lastTokenWork.promoted = some 2 from rfl]
  dsimp only
  rw [show cSeq lastTokenCmd.desc = 0 by decide +kernel, show cLayer lastTokenCmd.desc = 0 by decide +kernel, lastToken_root, lastToken_good,
    if_neg (by decide), if_pos (by decide +kernel), show homeRegion lastToken 0 = 0 by decide +kernel]
  generalize commitPage _ _ _ _ _ = t at frame ⊢
  exact event_exact (by decide +kernel) (frame.get State.pending)

/-- Refutes O40: the commit of a page retires the open frame, and a retired frame may be the one that ends the dropping from its
pool, which the last clause but one leaves out. -/
theorem not_appendRows : ¬ Obligations.AppendRows := by
  intro h
  have root : rootNat lastToken (cSeq lastTokenCmd.desc) (cLayer lastTokenCmd.desc) = fullOpenRoot := by decide +kernel
  obtain ⟨_, _, _, _, commits⟩ := h 5 lastTokenCmd lastTokenWork lastToken lastToken_found.1 lastToken_found.2 rfl rfl
    (by decide +kernel) (by decide +kernel)
  dsimp only at commits
  rw [root] at commits
  obtain ⟨t, _, _, row, _, _, _, _, _, _, _, paged, _⟩ := (commits 2 rfl rfl rfl lastToken_good).1 (by decide +kernel)
  rw [lastToken_runs] at row
  obtain rfl := Host.Outcome.next.inj row
  obtain ⟨u, frame, retired⟩ := commitPage_retires lastTokenCmd lastTokenWork fullOpenRoot 2 lastToken
  have same : u.paged = lastToken.paged := frame.get State.paged
  have ends : (retireFrame (rOpenFrame fullOpenRoot) u).paged.dropping = setDel 0 u.paged.dropping := by
    have od : u.od = lastToken.od := frame.get State.od
    refine retireFrame_full ((poolOf_of_od od _).trans (by decide +kernel)) ?_
    rw [odv_of_od od, same]
    decide +kernel
  have kept : (regionProgress 0 (commitPage lastTokenCmd lastTokenWork fullOpenRoot 2 lastToken)).paged.dropping = [0] := by rw [paged]; rfl
  rw [regionProgress_paged, retired, ends, same] at kept
  cases kept

end Sys2Proof.Machine
end

section
/-! The error log, the choice of a collector's next report, and the statement on its acceptance (chapter 15). -/

namespace Sys2Proof.Machine

-- one proof at a time, for the memory that the check allows
set_option Elab.async false

/-! ### Order of acceptance (R435) -/

/-- Report `r` at place `i` goes before report `x` at place `j`, or is it. -/
def GoesFirst (r : Report) (i : Nat) (x : Report) (j : Nat) : Prop :=
  severityRank r.severity < severityRank x.severity
    ∨ (severityRank r.severity = severityRank x.severity ∧ (r.unit < x.unit ∨ (r.unit = x.unit ∧ i ≤ j)))

/-- `m` is the report accepted first among the first `n` of a queue. -/
def AcceptedFirst (q : List Report) (n : Nat) (m : Option (Nat × Report)) : Prop :=
  match m with
  | none => n = 0
  | some (i, r) => i < n ∧ q[i]? = some r ∧ ∀ j x, j < n → q[j]? = some x → GoesFirst r i x j

theorem acceptedFirst_succ {q : List Report} {n i : Nat} {r x : Report} (here : q[n]? = some x) (first : AcceptedFirst q n (some (i, r))) :
    AcceptedFirst q (n + 1) (if severityRank x.severity < severityRank r.severity
      || (severityRank x.severity = severityRank r.severity && decide (x.unit < r.unit)) then some (n, x) else some (i, r)) := by
  obtain ⟨before, its, least⟩ := first
  have split_ {j : Nat} {y : Report} (bound : j < n + 1) (found : q[j]? = some y) : (j = n ∧ y = x) ∨ j < n := by
    by_cases last : j = n
    · subst last
      exact .inl ⟨rfl, Option.some.inj (found.symm.trans here)⟩
    · exact .inr (by omega)
  split
  · next better =>
    simp only [Bool.or_eq_true, Bool.and_eq_true, decide_eq_true_eq] at better
    refine ⟨by omega, here, fun j y bound found => ?_⟩
    obtain ⟨rfl, rfl⟩ | earlier := split_ bound found
    · exact .inr ⟨rfl, .inr ⟨rfl, le_refl _⟩⟩
    · have order := least j y earlier found
      unfold GoesFirst at order ⊢
      omega
  · next worse =>
    simp only [Bool.or_eq_true, Bool.and_eq_true, decide_eq_true_eq] at worse
    refine ⟨by omega, its, fun j y bound found => ?_⟩
    obtain ⟨rfl, rfl⟩ | earlier := split_ bound found
    · unfold GoesFirst
      omega
    · exact least j y earlier found

/-- One place of the queue against the best so far. -/
def betterReport (q : List Report) (m : Option (Nat × Report)) (i : Nat) : Option (Nat × Report) :=
  match m, q[i]? with
  | none, some r => some (i, r)
  | some (j, x), some r =>
    if severityRank r.severity < severityRank x.severity
        || (severityRank r.severity = severityRank x.severity && decide (r.unit < x.unit)) then some (i, r) else some (j, x)
  | m, none => m

theorem betterReport_none {q : List Report} {n : Nat} {x : Report} (here : q[n]? = some x) : betterReport q none n = some (n, x) := by
  unfold betterReport
  rw [here]

theorem betterReport_some {q : List Report} {n : Nat} {x : Report} (here : q[n]? = some x) (m : Nat × Report) :
    betterReport q (some m) n = if severityRank x.severity < severityRank m.2.severity
      || (severityRank x.severity = severityRank m.2.severity && decide (x.unit < m.2.unit)) then some (n, x) else some m := by
  unfold betterReport
  rw [here]

theorem nextReport_eq (q : List Report) : nextReport q = (List.range q.length).foldl (betterReport q) none := rfl

theorem acceptedFirst_foldl (q : List Report) {n : Nat} (bound : n ≤ q.length) : AcceptedFirst q n ((List.range n).foldl (betterReport q) none) := by
  induction n with
  | zero => rfl
  | succ n ih =>
    rw [List.range_succ, List.foldl_append]
    have before := ih (by omega)
    have here : q[n]? = some q[n] := List.getElem?_eq_getElem (by omega)
    show AcceptedFirst q (n + 1) (betterReport q ((List.range n).foldl (betterReport q) none) n)
    cases best : (List.range n).foldl (betterReport q) none with
    | none =>
      have none_ : n = 0 := by rw [best] at before; exact before
      rw [betterReport_none here]
      refine ⟨by omega, here, fun j x bound found => ?_⟩
      obtain rfl : j = n := by omega
      obtain rfl := Option.some.inj (found.symm.trans here)
      exact .inr ⟨rfl, .inr ⟨rfl, le_refl _⟩⟩
    | some m =>
      rw [best] at before
      rw [betterReport_some here]
      exact acceptedFirst_succ here before

theorem nextReport_spec {q : List Report} {i : Nat} {r : Report} (next : nextReport q = some (i, r)) :
    q[i]? = some r ∧ ∀ j x, q[j]? = some x → GoesFirst r i x j := by
  have first := acceptedFirst_foldl q (le_refl _)
  rw [← nextReport_eq, next] at first
  obtain ⟨_, its, least⟩ := first
  exact ⟨its, fun j x found => least j x (List.getElem?_eq_some_iff.mp found).1 found⟩

/-! ### The log (R436, R451) -/

/-- The number of the next entry. -/
def nextEntry (s : State) : Nat := (s.rel.count + 1) % 2 ^ 32

/-- The state with a report in the log, before the entry is traced. -/
def loggedIn (r : Report) (s : State) : State :=
  { s with rel := { s.rel with
    log := tput (nextEntry s) (logWord s (nextEntry s) 0 false r) (s.rel.log.filter fun e => e.1 % 1024 != nextEntry s % 1024)
    count := nextEntry s } }

theorem logReport_can {r : Report} {s : State} (can : canLog s r = true) :
    logReport r s = (nextEntry s, trace 4 0 0 (pack [(32, nextEntry s), (8, r.code), (4, r.action)]) (loggedIn r s)) := if_pos can

theorem logReport_cannot {r : Report} {s : State} (full : canLog s r = false) : logReport r s = (0, odBump 0x6000 4 1 s) :=
  if_neg (by simp [full])

theorem logReport_frame (r : Report) (s : State) : Frame (.log :: .count :: traceParts) s (logReport r s).2 := by
  cases can : canLog s r with
  | true =>
    rw [logReport_can can]
    exact .after (trace_frame ..) (show Frame [.log, .count] s (loggedIn r s) from rfl)
  | false =>
    rw [logReport_cannot can]
    exact (odBump_frame ..).mono

theorem odv_logReport_other {r : Report} {s : State} {k l : Nat} (lost : odKey k l ≠ odKey 0x6000 4) (traced : odKey k l ≠ odKey 0x7200 6) :
    odv (logReport r s).2 k l = odv s k l := by
  cases can : canLog s r with
  | true =>
    rw [logReport_can can]
    exact odv_trace_other _ _ _ _ _ traced
  | false =>
    rw [logReport_cannot can]
    exact odv_odBump_other _ lost

/-- The first two fields of a packed word of 512 bits, under a check in its last 32. -/
theorem word_start (n c crc : Nat) (l : List (Nat × Nat)) :
    (BitVec.ofNat 512 (pack ((32, n) :: (8, c) :: l) + crc * 2 ^ 480)).toNat % 2 ^ 32 = n % 2 ^ 32
    ∧ (BitVec.ofNat 512 (pack ((32, n) :: (8, c) :: l) + crc * 2 ^ 480)).toNat / 2 ^ 32 % 2 ^ 8 = c % 2 ^ 8 := by
  have packed : pack ((32, n) :: (8, c) :: l) = n % 2 ^ 32 + 2 ^ 32 * (c % 2 ^ 8 + 2 ^ 8 * pack l) := rfl
  rw [BitVec.toNat_ofNat, packed]
  generalize pack l = rest
  omega

/-- An entry's word begins with its number and the kind. -/
theorem logWord_start (s : State) (n ended : Nat) (replayed : Bool) (r : Report) :
    (logWord s n ended replayed r).toNat % 2 ^ 32 = n % 2 ^ 32
    ∧ (logWord s n ended replayed r).toNat / 2 ^ 32 % 2 ^ 8 = r.code % 2 ^ 8 := by
  unfold logWord
  dsimp only
  generalize crc32c _ = crc
  exact word_start ..

theorem logReport_rel {r : Report} {s : State} : (logReport r s).2.rel.recov = s.rel.recov ∧ (logReport r s).2.mgmt = s.mgmt :=
  ⟨(logReport_frame r s).get fun t => t.rel.recov, (logReport_frame r s).get State.mgmt⟩

/-- A report that can be logged takes the next number, under which its word stands. -/
theorem logReport_entry {r : Report} {s : State} (can : canLog s r = true) :
    (logReport r s).2.rel.count = nextEntry s
    ∧ tget 0#512 (logReport r s).2.rel.log (logReport r s).2.rel.count = logWord s (nextEntry s) 0 false r := by
  rw [logReport_can can]
  have rel : (trace 4 0 0 (pack [(32, nextEntry s), (8, r.code), (4, r.action)]) (loggedIn r s)).rel = (loggedIn r s).rel :=
    (trace_frame ..).get State.rel
  dsimp only
  rw [rel]
  exact ⟨rfl, tget_tput_same ..⟩

/-! ### What no acceptance touches -/

/-- The collectors' queues stand, as do scratchpads and flags, and host memory with trace off. -/
def CollectorKept (s t : State) : Prop :=
  t.pending = s.pending ∧ t.rel.queues = s.rel.queues ∧ t.sp = s.sp ∧ t.flags = s.flags ∧ odv t 0x7200 1 = odv s 0x7200 1
    ∧ (odv s 0x7200 1 ≠ 1 → t.mem = s.mem)

namespace CollectorKept

variable {s t u : State}

theorem refl (s : State) : CollectorKept s s := ⟨rfl, rfl, rfl, rfl, rfl, fun _ => rfl⟩

theorem after (k : CollectorKept t u) (h : CollectorKept s t) : CollectorKept s u := by
  obtain ⟨pending, queues, sp, flags, od, mem⟩ := h
  obtain ⟨pending', queues', sp', flags', od', mem'⟩ := k
  exact ⟨pending'.trans pending, queues'.trans queues, sp'.trans sp, flags'.trans flags, od'.trans od,
    fun off => (mem' (by rwa [od])).trans (mem off)⟩

theorem ite {c : Prop} [Decidable c] (h : CollectorKept s t) (k : CollectorKept s u) : CollectorKept s (if c then t else u) := by
  split
  · exact h
  · exact k

end CollectorKept

theorem trace_collector (kind cls unit payload : Nat) (s : State) : CollectorKept s (trace kind cls unit payload s) := by
  have frame := trace_frame kind cls unit payload s
  refine ⟨frame.get State.pending, frame.get fun t => t.rel.queues, frame.get State.sp, frame.get State.flags,
    odv_trace_other _ _ _ _ _ (by decide), fun off => ?_⟩
  unfold trace
  rw [if_neg fun on => off on.1]

theorem odBump_collector {i j : Nat} (n : Nat) (s : State) (other : odKey 0x7200 1 ≠ odKey i j) : CollectorKept s (odBump i j n s) :=
  ⟨rfl, rfl, rfl, rfl, odv_odBump_other _ other, fun _ => rfl⟩

theorem logReport_collector (r : Report) (s : State) : CollectorKept s (logReport r s).2 := by
  cases can : canLog s r with
  | true =>
    rw [logReport_can can]
    exact .after (trace_collector ..) ⟨rfl, rfl, rfl, rfl, rfl, fun _ => rfl⟩
  | false =>
    rw [logReport_cannot can]
    exact odBump_collector _ _ (by decide)

theorem enterFault_collector (s : State) : CollectorKept s (enterFault s) := by
  have frame := (enterFault_drops s).frame
  exact ⟨frame.get State.pending, frame.get fun t => t.rel.queues, frame.get State.sp, frame.get State.flags,
    odv_enterFault_other _ (by decide), fun _ => frame.get State.mem⟩

theorem beginRecovery_collector (level unit entry : Nat) (keep : Recovery → Bool) (s : State) :
    CollectorKept s (beginRecovery level unit entry keep s) := ⟨rfl, rfl, rfl, rfl, rfl, fun _ => rfl⟩

theorem noteEscalation_collector (level unit dep : Nat) (s : State) : CollectorKept s (noteEscalation level unit dep s) :=
  .after (odBump_collector _ _ (by decide)) (logReport_collector ..)

theorem fatalFault_collector (dep : Nat) (s : State) : CollectorKept s (fatalFault dep s) := by
  have ended (t : State) : CollectorKept t
      { t with rel := { t.rel with fatal := true, recov := [] }, mgmt := { t.mgmt with recovering := false } } :=
    ⟨rfl, rfl, rfl, rfl, rfl, fun _ => rfl⟩
  exact .after (ended _) (.after (enterFault_collector _) (logReport_collector ..))

theorem apexFault_collector (entry : Nat) (s : State) : CollectorKept s (apexFault entry s) := by
  have stopped (t : State) : CollectorKept t { t with rel := { t.rel with noAuto := true, recov := [] } } := ⟨rfl, rfl, rfl, rfl, rfl, fun _ => rfl⟩
  have restarts (t : State) : CollectorKept t { t with mgmt := { t.mgmt with recovering := true } } := ⟨rfl, rfl, rfl, rfl, rfl, fun _ => rfl⟩
  exact .ite (.after (stopped _) (enterFault_collector s)) (.after (restarts _) (beginRecovery_collector ..))

/-- The record of a block's faults (R440), which only a block fault joins. -/
def faultNoted (level : Nat) (r : Report) (s : State) : State :=
  if level = 1 then
    { s with rel := { s.rel with faults := s.rel.faults.filter (fun e => decide (opRef s < e.2 + 8640000000000)) ++ [(r.unit, opRef s)] } }
  else s

theorem faultNoted_frame (level : Nat) (r : Report) (s : State) : Frame [.faults] s (faultNoted level r s) := .ite rfl (.refl s)

theorem faultNoted_collector (level : Nat) (r : Report) (s : State) : CollectorKept s (faultNoted level r s) :=
  .ite ⟨rfl, rfl, rfl, rfl, rfl, fun _ => rfl⟩ (.refl s)

theorem unitFault_collector (r : Report) (s : State) : CollectorKept s (unitFault r s) := by
  have logged (level action : Nat) : CollectorKept s (logReport { r with action := action } (faultNoted level r s)).2 :=
    .after (logReport_collector ..) (faultNoted_collector ..)
  unfold unitFault
  dsimp only
  split
  · exact logged _ _
  · exact .ite (.after (apexFault_collector ..) (logged _ _)) (.after (beginRecovery_collector ..) (logged _ _))
  · exact .after (beginRecovery_collector ..) (.after (noteEscalation_collector ..) (logged _ _))
  · exact .after (apexFault_collector ..) (.after (noteEscalation_collector ..) (logged _ _))
  · exact .after (fatalFault_collector ..) (logged _ _)

theorem plainReport_collector (r : Report) (s : State) : CollectorKept s (plainReport r s) := by
  have counted (k n : Nat) : CollectorKept s { s with rel := { s.rel with corrected := tput k n s.rel.corrected } } :=
    ⟨rfl, rfl, rfl, rfl, rfl, fun _ => rfl⟩
  exact .ite (.ite (.after (logReport_collector ..) (.after (odBump_collector _ _ (by decide)) (counted ..)))
      (.after (odBump_collector _ _ (by decide)) (counted ..)))
    (.ite (.after (logReport_collector ..) (odBump_collector _ _ (by decide))) (logReport_collector ..))

/-! ### What each severity does -/

section
variable {r : Report} {s : State}

/-- A corrected report counts, and is logged at a multiple of 1 024. -/
theorem plainReport_corrected (mild : r.severity = 0) :
    tget 0 (plainReport r s).rel.corrected (512 * r.code + r.unit) = tget 0 s.rel.corrected (512 * r.code + r.unit) + 1
    ∧ odv (plainReport r s) 0x6000 5 = (odv s 0x6000 5 + 1) % 2 ^ 64
    ∧ ((tget 0 s.rel.corrected (512 * r.code + r.unit) + 1) % 1024 ≠ 0 →
        (plainReport r s).rel.count = s.rel.count ∧ (plainReport r s).rel.log = s.rel.log)
    ∧ ((tget 0 s.rel.corrected (512 * r.code + r.unit) + 1) % 1024 = 0 → canLog s r = true → (plainReport r s).rel.count = nextEntry s) := by
  unfold plainReport
  rw [if_pos mild]
  dsimp only
  generalize counted : odBump 0x6000 5 1 _ = u
  have record : tget 0 u.rel.corrected (512 * r.code + r.unit) = tget 0 s.rel.corrected (512 * r.code + r.unit) + 1 := by
    rw [← counted]
    exact tget_tput_same ..
  have total : odv u 0x6000 5 = (odv s 0x6000 5 + 1) % 2 ^ 64 := by
    rw [← counted, odv_odBump_same (w := 64) _ (by decide)]
    rfl
  have log : u.rel.count = s.rel.count ∧ u.rel.log = s.rel.log ∧ canLog u r = canLog s r := by
    rw [← counted]
    exact ⟨rfl, rfl, rfl⟩
  split
  · next full =>
    refine ⟨?_, (odv_logReport_other (by decide) (by decide)).trans total, fun short => absurd full short, fun _ can => ?_⟩
    · rw [← record]
      exact congrArg (tget 0 · _) ((logReport_frame r u).get fun t => t.rel.corrected)
    · rw [(logReport_entry (log.2.2.trans can)).1]
      unfold nextEntry
      rw [log.1]
  · next short => exact ⟨record, total, fun _ => ⟨log.1, log.2.1⟩, fun full => absurd full short⟩

/-- A report that is neither corrected nor a fault is logged. -/
theorem plainReport_logged (plain : r.severity ≠ 0) : ∃ action u, plainReport r s = (logReport { r with action := action } u).2
    ∧ Frame [.od] s u ∧ odv u 0x6000 4 = odv s 0x6000 4 ∧ (r.severity = 1 → odv u 0x6000 6 = (odv s 0x6000 6 + 1) % 2 ^ 64) := by
  unfold plainReport
  rw [if_neg plain]
  by_cases contained : r.severity = 1
  · rw [if_pos contained]
    exact ⟨_, _, rfl, odBump_frame .., odv_odBump_other _ (by decide), fun _ => odv_odBump_same (w := 64) _ (by decide)⟩
  · rw [if_neg contained]
    exact ⟨r.action, s, rfl, .refl s, rfl, fun h => absurd h contained⟩

/-- A unit fault that meets no recovery begins its own, under the number of its entry. -/
theorem unitFault_first {cls lv : Nat} {inj : Bool} (kind : kindInfo r.code = some (cls, 3, lv, inj)) (idle : s.rel.recov = []) :
    ∃ action, unitFault r s = if lv = 3 then
        apexFault (logReport { r with action := action } (faultNoted lv r s)).1 (logReport { r with action := action } (faultNoted lv r s)).2
      else beginRecovery lv r.unit (logReport { r with action := action } (faultNoted lv r s)).1 (fun _ => true)
        (logReport { r with action := action } (faultNoted lv r s)).2 := by
  have alone : (faultNoted lv r s).rel.recov = [] := ((faultNoted_frame lv r s).get fun t => t.rel.recov).trans idle
  have own : meets (faultNoted lv r s) lv r.unit = 1 := by
    unfold meets
    rw [alone]
    simp
  refine ⟨faultAction (faultNoted lv r s) lv r.unit 1, ?_⟩
  unfold unitFault
  rw [kind]
  dsimp only
  rw [show (if lv = 1 then ({ s with rel := { s.rel with
      faults := s.rel.faults.filter (fun e => decide (opRef s < e.2 + 8640000000000)) ++ [(r.unit, opRef s)] } } : State) else s)
    = faultNoted lv r s from rfl, own]
  rfl

theorem canLog_faultNoted (lv action : Nat) : canLog (faultNoted lv r s) { r with action := action } = canLog s r := by
  have log : (faultNoted lv r s).rel.log = s.rel.log := (faultNoted_frame lv r s).get fun t => t.rel.log
  have acked : (faultNoted lv r s).rel.acked = s.rel.acked := (faultNoted_frame lv r s).get fun t => t.rel.acked
  unfold canLog unacked
  rw [log, acked]

/-- The entry that a fault is logged under, or 0. -/
theorem logReport_fst (r : Report) (s : State) : (logReport r s).1 = if canLog s r then (logReport r s).2.rel.count else 0 := by
  cases can : canLog s r with
  | true =>
    rw [if_pos rfl, (logReport_entry can).1, logReport_can can]
  | false =>
    rw [if_neg (by decide), logReport_cannot can]

/-- A block or region fault with no recovery in progress. -/
theorem unitFault_unit {cls lv : Nat} {inj : Bool} (kind : kindInfo r.code = some (cls, 3, lv, inj)) (idle : s.rel.recov = []) (unit : lv ≠ 3) :
    (unitFault r s).rel.recov = [{ level := lv, unit := r.unit, entry := if canLog s r then (unitFault r s).rel.count else 0
                                   begun := false, batches := [] }]
    ∧ (unitFault r s).mgmt.st = s.mgmt.st := by
  obtain ⟨action, own⟩ := unitFault_first kind idle
  rw [if_neg unit] at own
  have entry := logReport_fst { r with action := action } (faultNoted lv r s)
  rw [canLog_faultNoted] at entry
  have noted := faultNoted_frame lv r s
  have frame := logReport_frame { r with action := action } (faultNoted lv r s)
  generalize faultNoted lv r s = u at *
  generalize logReport { r with action := action } u = l at *
  have recov : l.2.rel.recov = [] := (frame.get fun t => t.rel.recov).trans ((noted.get fun t => t.rel.recov).trans idle)
  have mgmt : l.2.mgmt = s.mgmt := (frame.get State.mgmt).trans (noted.get State.mgmt)
  rw [own]
  refine ⟨?_, congrArg Mgmt.st mgmt⟩
  show l.2.rel.recov.filter _ ++ _ = _
  rw [recov, entry]
  rfl

/-- A fault of the apex with no recovery in progress. -/
theorem unitFault_apex {cls : Nat} {inj : Bool} (kind : kindInfo r.code = some (cls, 3, 3, inj)) (idle : s.rel.recov = []) :
    (bit (odv s 0x6200 1) 2 = false → (unitFault r s).mgmt.recovering = true ∧ (unitFault r s).mgmt.st = s.mgmt.st
      ∧ ∃ e, (unitFault r s).rel.recov = [{ level := 3, unit := 0, entry := e, begun := false, batches := [] }])
    ∧ (bit (odv s 0x6200 1) 2 = true → (unitFault r s).mgmt.st = 4 ∧ (unitFault r s).rel.noAuto = true ∧ (unitFault r s).rel.recov = []) := by
  obtain ⟨action, own⟩ := unitFault_first kind idle
  rw [if_pos rfl] at own
  have noted := faultNoted_frame 3 r s
  have frame := logReport_frame { r with action := action } (faultNoted 3 r s)
  have mode : odv (logReport { r with action := action } (faultNoted 3 r s)).2 0x6200 1 = odv s 0x6200 1 :=
    (odv_logReport_other (by decide) (by decide)).trans (odv_of_od (noted.get State.od) ..)
  generalize faultNoted 3 r s = u at *
  generalize logReport { r with action := action } u = l at *
  have recov : l.2.rel.recov = [] := (frame.get fun t => t.rel.recov).trans ((noted.get fun t => t.rel.recov).trans idle)
  have mgmt : l.2.mgmt = s.mgmt := (frame.get State.mgmt).trans (noted.get State.mgmt)
  rw [own]
  unfold apexFault
  rw [mode]
  refine ⟨fun auto => ?_, fun manual => ?_⟩
  · rw [if_neg (by simp [auto])]
    refine ⟨rfl, (show l.2.mgmt.st = s.mgmt.st by rw [mgmt]), l.1, ?_⟩
    show l.2.rel.recov.filter _ ++ _ = _
    rw [recov]
    rfl
  · rw [if_pos manual]
    exact ⟨enterFault_st _, rfl, rfl⟩

theorem fatalFault_spec (dep : Nat) : (fatalFault dep s).mgmt.st = 4 ∧ (fatalFault dep s).rel.fatal = true ∧ (fatalFault dep s).rel.recov = []
    ∧ (fatalFault dep s).mgmt.recovering = false := ⟨enterFault_st _, rfl, rfl, rfl⟩

end

/-! ### The row -/

/-- The state whose collector `k` has given up the report at place `i`. -/
def dequeued (k i : Nat) (s : State) : State :=
  { s with rel := { s.rel with queues := tput k ((tget [] s.rel.queues k).eraseIdx i) s.rel.queues } }

theorem acceptReport_eq (k i : Nat) (r : Report) (s : State) : acceptReport k i r s =
    if r.severity = 3 then unitFault r (dequeued k i s)
    else if r.severity = 4 then fatalFault r.dep (dequeued k i s) else plainReport r (dequeued k i s) := rfl

theorem acceptReport_collector (k i : Nat) (r : Report) (s : State) : CollectorKept (dequeued k i s) (acceptReport k i r s) :=
  .ite (unitFault_collector ..) (.ite (fatalFault_collector ..) (plainReport_collector ..))

/-- What leaving its queue does to a report's surroundings: nothing that its acceptance looks at. -/
def SameLog (s u : State) : Prop :=
  u.rel.recov = s.rel.recov ∧ u.rel.corrected = s.rel.corrected ∧ u.rel.count = s.rel.count ∧ u.rel.log = s.rel.log
    ∧ u.rel.acked = s.rel.acked ∧ u.mgmt = s.mgmt ∧ u.od = s.od

theorem dequeued_sameLog (k i : Nat) (s : State) : SameLog s (dequeued k i s) := ⟨rfl, rfl, rfl, rfl, rfl, rfl, rfl⟩

theorem SameLog.canLog {s u : State} (h : SameLog s u) (r : Report) : canLog u r = canLog s r := by
  obtain ⟨_, _, _, log, acked, _⟩ := h
  unfold Machine.canLog unacked
  rw [log, acked]

/-- Settles O54: the queue gives up its first report, which is counted, logged or answered by its severity. -/
theorem errorCollectorRow : Obligations.ErrorCollectorRow := by
  intro level unit i r s runs next
  obtain ⟨its, least⟩ := nextReport_spec next
  have accepted := acceptReport_collector (1000 * level + unit) i r s
  have steps := acceptReport_eq (1000 * level + unit) i r s
  have row (queue : (acceptReport (1000 * level + unit) i r s).pending = s.pending) :
      exec (.errorReportAccept level unit) s = .next (acceptReport (1000 * level + unit) i r s) := by
    show execErrorReportAccept level unit s = _
    unfold execErrorReportAccept
    dsimp only
    rw [next]
    exact event_exact runs queue
  have left : tget [] (dequeued (1000 * level + unit) i s).rel.queues (1000 * level + unit)
      = (tget [] s.rel.queues (1000 * level + unit)).eraseIdx i := tget_tput_same ..
  have same := dequeued_sameLog (1000 * level + unit) i s
  have parts : (dequeued (1000 * level + unit) i s).pending = s.pending ∧ (dequeued (1000 * level + unit) i s).mem = s.mem
    ∧ (dequeued (1000 * level + unit) i s).sp = s.sp ∧ (dequeued (1000 * level + unit) i s).flags = s.flags := ⟨rfl, rfl, rfl, rfl⟩
  generalize dequeued (1000 * level + unit) i s = u at accepted steps left same parts
  generalize acceptReport (1000 * level + unit) i r s = t at accepted steps row
  have can := same.canLog
  obtain ⟨recov, corrected, count, log, _, mgmt, od⟩ := same
  have entries (k l : Nat) : odv u k l = odv s k l := odv_of_od od k l
  obtain ⟨pending', mem', sp', flags'⟩ := parts
  obtain ⟨pending, queues, sp, flags, _, mem⟩ := accepted
  rw [entries] at mem
  refine ⟨its, least, t, row (pending.trans pending'), by rw [queues, left], fun off => ⟨(mem off).trans mem', sp.trans sp', flags.trans flags'⟩,
    fun mild => ?corrected, fun contained => ?contained, fun serious calm alive => ?logged, fun cls lv inj fault kind idle => ?fault,
    fun fatal => ?fatal⟩
  case corrected =>
    rw [if_neg (by omega), if_neg (by omega)] at steps
    rw [steps, ← corrected, ← count, ← log, ← can, ← entries]
    exact plainReport_corrected mild
  case contained =>
    rw [if_neg (by omega), if_neg (by omega)] at steps
    obtain ⟨action, v, logs, _, _, total⟩ := plainReport_logged (s := u) (r := r) (by omega)
    rw [steps, logs, odv_logReport_other (by decide) (by decide), ← entries]
    exact total contained
  case logged =>
    rw [if_neg calm, if_neg alive] at steps
    obtain ⟨action, v, logs, frame, lost, _⟩ := plainReport_logged (s := u) (r := r) serious
    have rel : v.rel = u.rel := frame.get State.rel
    have stays : canLog v { r with action := action } = canLog s r := by
      rw [← can]
      unfold canLog unacked
      rw [rel]
    have kept := logReport_rel (r := { r with action := action }) (s := v)
    have boundary : v.mgmt = s.mgmt := (frame.get State.mgmt).trans mgmt
    rw [steps, logs]
    refine ⟨by rw [kept.1, rel, recov], by rw [kept.2, boundary], fun logs => ?_, fun full => ?_⟩
    · obtain ⟨number, word⟩ := logReport_entry (stays.trans logs)
      have start := logWord_start v (nextEntry v) 0 false { r with action := action }
      have next : nextEntry v = (s.rel.count + 1) % 2 ^ 32 := by
        unfold nextEntry
        rw [rel, count]
      rw [word, number]
      refine ⟨next, start.1.trans ?_, start.2⟩
      rw [next, Nat.mod_mod]
    · rw [logReport_cannot (stays.trans full), odv_odBump_same (w := 32) _ (by decide), lost, entries, ← count, ← log, ← rel]
      exact ⟨rfl, rfl, rfl⟩
  case fault =>
    rw [if_pos fault] at steps
    rw [← recov] at idle
    rw [steps, ← can, ← mgmt, ← entries]
    refine ⟨fun unit => unitFault_unit kind idle (by omega), fun apex => ?_, fun apex => ?_⟩
    · subst apex
      exact (unitFault_apex kind idle).1
    · subst apex
      exact (unitFault_apex kind idle).2
  case fatal =>
    rw [if_neg (by omega), if_pos fatal] at steps
    rw [steps]
    exact fatalFault_spec ..

end Sys2Proof.Machine
end

section
/-! What early ends, the reset of a block and the end of a recovery leave of blocks and regions (chapter 15). -/

namespace Sys2Proof.Machine

-- one proof at a time, for the memory that the check allows
set_option Elab.async false

/-! ### Tables -/

theorem tget_filter_key {α : Type} (p : Nat → Bool) (d : α) (l : List (Nat × α)) (n : Nat) :
    tget d (l.filter fun e => p e.1) n = if p n then tget d l n else d := by
  induction l with
  | nil => simp [tget]
  | cons e l ih =>
    obtain ⟨k, v⟩ := e
    by_cases same : k = n
    · subst same
      cases kept : p k with
      | true => simp [kept, tget]
      | false => simpa [kept] using ih
    · cases kept : p k with
      | true => simpa [kept, tget, same] using ih
      | false => simpa [kept, tget, same] using ih

/-! ### Blocks under early ends -/

/-- An early end does nothing, or purges the command's work after its arrivals are given back. -/
theorem endCmd_cases (uid status detail : Nat) (s : State) : endCmd uid status detail s = s
    ∨ ∃ c u, u.blocks = (releaseArrivals c s).blocks ∧ u.regions = s.regions ∧ endCmd uid status detail s = purge uid u := by
  unfold endCmd
  split
  · exact .inl rfl
  · next c _ =>
    dsimp only
    split
    · exact .inl rfl
    · refine .inr ⟨c, _, ?_, ?_, rfl⟩
      · unfold releaseArrivals
        dsimp only
        split <;> rfl
      · rw [releaseArrivals_eq]
        rfl

/-- `g` shows nothing of the work that a block forgets, nor of its arrivals. -/
def Apart {β : Type} (g : Block → β) : Prop :=
  (∀ gone x, g (blockForget gone x) = g x) ∧ ∀ x l, g { x with arrivals := l } = g x

section
variable {β : Type} {g : Block → β} (apart : Apart g)
include apart

theorem releaseArrivals_apart (c : Cmd) (s : State) (n : Nat) : g (blockAt (releaseArrivals c s) n) = g (blockAt s n) := by
  unfold releaseArrivals
  dsimp only
  split
  · exact tget_map_of (g := g) (f := fun _ x => { x with arrivals := x.arrivals.filter _ }) (fun _ x => apart.2 x _) block0 s.blocks n
  · rfl

theorem endCmd_apart (uid status detail : Nat) (s : State) (n : Nat) : g (blockAt (endCmd uid status detail s) n) = g (blockAt s n) := by
  obtain same | ⟨c, u, blocks, _, purged⟩ := endCmd_cases uid status detail s
  · rw [same]
  · rw [purged, ← releaseArrivals_apart apart c s n]
    refine (tget_map_of (g := g) (f := fun _ x => blockForget (fun v _ => v == uid) x) (fun _ x => apart.1 _ x) block0 u.blocks n).trans ?_
    rw [blocks]
    rfl

theorem resetAborts_apart (s : State) (n : Nat) : g (blockAt (resetAborts s) n) = g (blockAt s n) :=
  foldl_holds (fun u : State => g (blockAt u n) = g (blockAt s n)) rfl fun _ _ kept => (endCmd_apart apart ..).trans kept

theorem enterFault_apart (s : State) (n : Nat) : g (blockAt (enterFault s) n) = g (blockAt s n) := by
  have blocks : (enterFault s).blocks = (resetAborts s).blocks := (setSt_frame ..).get State.blocks
  rw [show blockAt (enterFault s) n = blockAt (resetAborts s) n from congrArg (tget block0 · n) blocks]
  exact resetAborts_apart apart s n

end

theorem retired_apart : Apart Block.retired := ⟨fun _ _ => rfl, fun _ _ => rfl⟩
theorem gated_apart : Apart Block.gated := ⟨fun _ _ => rfl, fun _ _ => rfl⟩
theorem testing_apart : Apart Block.testing := ⟨fun _ _ => rfl, fun _ _ => rfl⟩
theorem inReset_apart : Apart Block.inReset := ⟨fun _ _ => rfl, fun _ _ => rfl⟩

/-! ### Work items of a block -/

theorem mem_itemsIn {x : Block} {e : Nat × Nat} : e ∈ itemsIn x ↔ e ∈ x.feed ∨ (∃ j, x.job = some j ∧ (j.uid, j.item) = e)
    ∨ (∃ k ∈ x.banks, k.st ≠ 0 ∧ (k.uid, k.item) = e) ∨ ∃ p, (x.bvu = some p ∨ p ∈ x.epi) ∧ (p.uid, p.item) = e := by
  unfold itemsIn
  rw [List.mem_eraseDups]
  simp only [List.mem_append, List.mem_map, List.mem_filter, Option.mem_toList, bne_iff_ne, and_assoc, or_assoc]
  cases x.job <;> simp [eq_comm]

theorem mem_itemsIn_forget {gone : Nat → Nat → Bool} {x : Block} {e : Nat × Nat} (stays : gone e.1 e.2 = false) (mem : e ∈ itemsIn x) :
    e ∈ itemsIn (blockForget gone x) := by
  rw [mem_itemsIn] at mem ⊢
  obtain fed | ⟨j, job, rfl⟩ | ⟨k, bank, used, rfl⟩ | ⟨p, waits, rfl⟩ := mem
  · exact .inl (List.mem_filter.mpr ⟨fed, by simp [stays]⟩)
  · refine .inr (.inl ⟨j, ?_, rfl⟩)
    show (if x.job.any (fun j => gone j.uid j.item) then none else x.job) = some j
    rw [job, if_neg (by simp [stays])]
  · exact .inr (.inr (.inl ⟨k, List.mem_map.mpr ⟨k, bank, if_neg (by simp [stays])⟩, used, rfl⟩))
  · refine .inr (.inr (.inr ⟨p, ?_, rfl⟩))
    obtain bvu | epi := waits
    · exact .inl (by show x.bvu.filter _ = some p; rw [bvu]; simp [stays])
    · exact .inr (List.mem_filter.mpr ⟨epi, by simp [stays]⟩)

/-! ### Partial sums and items under an early end -/

/-- No partial sum of item `e` is left in region `g`, or block `b` still holds the item. -/
def SumsHeld (b g : Nat) (e : Nat × Nat) (s : State) : Prop :=
  (∀ p ∈ (regionAt s g).psum, (p.1, p.2.1) ≠ e) ∨ e ∈ itemsIn (blockAt s b)

theorem psum_purge {P : Nat × Nat × Nat → Prop} {uid g : Nat} {u : State} (h : ∀ p ∈ (regionAt u g).psum, P p) :
    ∀ p ∈ (regionAt (purge uid u) g).psum, P p :=
  tget_map_holds (P := fun x : Region => ∀ p ∈ x.psum, P p)
    (f := fun _ x => regionForget (fun v _ => v == uid) { x with walks := x.walks.filter fun w => w.uid != uid })
    (fun _ _ h p mem => h p (List.mem_filter.mp mem).1) h

theorem psum_endCmd {P : Nat × Nat × Nat → Prop} (uid status detail : Nat) {g : Nat} {s : State} (h : ∀ p ∈ (regionAt s g).psum, P p) :
    ∀ p ∈ (regionAt (endCmd uid status detail s) g).psum, P p := by
  obtain same | ⟨c, u, _, regions, purged⟩ := endCmd_cases uid status detail s
  · rwa [same]
  · rw [purged]
    refine psum_purge ?_
    rwa [show regionAt u g = regionAt s g from congrArg (tget region0 · g) regions]

theorem psum_enterFault {P : Nat × Nat × Nat → Prop} {g : Nat} {s : State} (h : ∀ p ∈ (regionAt s g).psum, P p) :
    ∀ p ∈ (regionAt (enterFault s) g).psum, P p := by
  have regions : (enterFault s).regions = (resetAborts s).regions := (setSt_frame ..).get State.regions
  rw [show regionAt (enterFault s) g = regionAt (resetAborts s) g from congrArg (tget region0 · g) regions]
  exact foldl_holds (fun u : State => ∀ p ∈ (regionAt u g).psum, P p) h fun u c kept => psum_endCmd _ _ _ kept

/-- The sums of the command that ends are gone, and the items of every other stay in their block. -/
theorem endCmd_sumsHeld (uid status detail : Nat) {b g : Nat} {e : Nat × Nat} {s : State} (h : SumsHeld b g e s) :
    SumsHeld b g e (endCmd uid status detail s) := by
  obtain none | holds := h
  · exact .inl (psum_endCmd _ _ _ none)
  obtain same | ⟨c, u, blocks, _, purged⟩ := endCmd_cases uid status detail s
  · rw [same]
    exact .inr holds
  rw [purged]
  by_cases its : e.1 = uid
  · refine .inl ?_
    have cleared : ∀ p ∈ (regionAt (purge uid u) g).psum, p.1 ≠ uid :=
      tget_map_every (P := fun x : Region => ∀ p ∈ x.psum, p.1 ≠ uid) (fun _ p mem => by simpa using (List.mem_filter.mp mem).2)
        (fun _ mem => absurd mem List.not_mem_nil) u.regions g
    exact fun p mem same => cleared p mem ((congrArg Prod.fst same).trans its)
  · refine .inr ?_
    have before : e ∈ itemsIn (blockAt u b) := by
      rw [show blockAt u b = blockAt (releaseArrivals c s) b from congrArg (tget block0 · b) blocks]
      unfold releaseArrivals
      dsimp only
      split
      · exact tget_map_holds (P := fun x : Block => e ∈ itemsIn x) (f := fun _ x => { x with arrivals := x.arrivals.filter _ })
          (fun _ _ h => h) holds
      · exact holds
    exact tget_map_holds (P := fun x : Block => e ∈ itemsIn x) (f := fun _ x => blockForget (fun v _ => v == uid) x)
      (fun _ _ h => mem_itemsIn_forget (by simpa using its) h) before

/-! ### Lost work (R441, R443) -/

theorem replay_frame (b uid : Nat) (items : List Nat) (hurt : Bool) (s : State) : Frame [.cmds, .items] s (replay b uid items hurt s) := by
  unfold replay
  split
  · exact .refl s
  · exact .ite (.after (flagCmd_frame ..) (.after (putCmd_frame ..) (show Frame [.items] _ _ from rfl)))
      (.after (putCmd_frame ..) (show Frame [.items] _ _ from rfl))

/-- What holds before, and survives replays and early ends, holds after the work of a block is lost. -/
theorem loseWork_holds {P : State → Prop} {b : Nat} {s : State} (replays : ∀ uid items hurt t, P t → P (replay b uid items hurt t))
    (ends : ∀ uid t, P t → P (endCmd uid stResetAbort noDetail t)) (start : P s) : P (loseWork b s).2.2 := by
  unfold loseWork
  refine foldl_holds (fun a : Nat × Bool × State => P a.2.2) start fun a uid kept => ?_
  dsimp only
  split
  · exact kept
  · split
    · exact kept
    · split
      · exact replays _ _ _ _ kept
      · exact ends _ _ kept

theorem loseWork_frame (b : Nat) (s : State) : Frame endParts s (loseWork b s).2.2 :=
  loseWork_holds (P := Frame endParts s) (fun _ _ _ _ h => .after (replay_frame ..) h) (fun _ _ h => .after (endCmd_frame' ..) h) (.refl s)

theorem loseWork_apart {β : Type} {g : Block → β} (apart : Apart g) (b : Nat) (s : State) (n : Nat) :
    g (blockAt (loseWork b s).2.2 n) = g (blockAt s n) :=
  loseWork_holds (P := fun u => g (blockAt u n) = g (blockAt s n))
    (fun _ _ _ _ h => (congrArg (fun l => g (tget block0 l n)) ((replay_frame ..).get State.blocks)).trans h)
    (fun _ _ h => (endCmd_apart apart ..).trans h) rfl

theorem loseWork_sumsHeld {b g : Nat} {e : Nat × Nat} {s : State} (h : SumsHeld b g e s) : SumsHeld b g e (loseWork b s).2.2 := by
  refine loseWork_holds (P := SumsHeld b g e) (fun uid items hurt t kept => ?_) (fun _ _ kept => endCmd_sumsHeld _ _ _ kept) h
  have frame := replay_frame b uid items hurt t
  unfold SumsHeld at kept ⊢
  rwa [show regionAt (replay b uid items hurt t) g = regionAt t g from congrArg (tget region0 · g) (frame.get State.regions),
    show blockAt (replay b uid items hurt t) b = blockAt t b from congrArg (tget block0 · b) (frame.get State.blocks)]

/-! ### The reset of a block -/

/-- A block after its reset. -/
def clearedBlock (x : Block) : Block :=
  { block0 with
    spLost := true, retired := x.retired, stretching := x.stretching, gated := x.gated, ramp := x.ramp, idleRun := x.idleRun
    filler := x.filler, busyAc := x.busyAc, idleAc := x.idleAc, splitSteps := x.splitSteps }

/-- A reset is a change of the region's reservations, of traffic and scratchpad, and the block anew. -/
theorem resetBlock_cases (b : Nat) (s : State) : ∃ u, resetBlock b s = putBlock b (clearedBlock (blockAt s b)) (spClear b u)
    ∧ Frame [.ports, .links] (modRegion (b / 40) (regionForget fun u i => (itemsIn (blockAt s b)).contains (u, i)) s) u := by
  unfold resetBlock
  refine ⟨_, rfl, ?_⟩
  have stalled (l : List MemReq) (v : State) : Frame [.ports] v (l.foldl (fun s q => enqueue q s) v) :=
    .foldl (fun _ _ => rfl) (.refl v)
  exact .after (show Frame [.ports] _ (disownReads b _) from rfl) (.after (show Frame [.links] _ _ from rfl) (stalled _ _).mono)

theorem resetBlock_frame (b : Nat) (s : State) : Frame [.ports, .links, .sp, .spPoison, .blocks, .regions] s (resetBlock b s) := by
  obtain ⟨u, steps, frame⟩ := resetBlock_cases b s
  rw [steps]
  exact .after (show Frame [.blocks] _ (putBlock b _ _) from rfl) (.after (show Frame [.sp, .spPoison] _ (spClear b u) from rfl)
    (.after frame (modRegion_frame ..).mono))

theorem blockAt_resetBlock (b : Nat) (s : State) (n : Nat) :
    blockAt (resetBlock b s) n = if n = b then clearedBlock (blockAt s b) else blockAt s n := by
  obtain ⟨u, steps, frame⟩ := resetBlock_cases b s
  rw [steps]
  refine (tget_tput ..).trans ?_
  split
  · rfl
  · exact congrArg (tget block0 · n) (frame.get State.blocks)

theorem spByte_resetBlock (b : Nat) (s : State) (n : Nat) {a : Nat} (bound : a < 2 ^ 20) :
    spByte (resetBlock b s) n a = if n = b then 0 else spByte s n a := by
  obtain ⟨u, steps, frame⟩ := resetBlock_cases b s
  have same : u.sp = s.sp := frame.get State.sp
  have block : spKey n a / 2 ^ 20 = n := by
    unfold spKey
    omega
  rw [steps]
  show tget 0 (u.sp.filter fun c => c.1 / 2 ^ 20 != b) (spKey n a) = _
  rw [tget_filter_key (fun k => k / 2 ^ 20 != b) 0 u.sp (spKey n a), same, block]
  by_cases here : n = b
  · simp [here]
  · simp [here, spByte, memGet]

/-- No sum of the block's items is left in its region. -/
theorem psum_resetBlock (b : Nat) (s : State) :
    (regionAt (resetBlock b s) (b / 40)).psum = (regionAt s (b / 40)).psum.filter fun e => !(itemsIn (blockAt s b)).contains (e.1, e.2.1) := by
  obtain ⟨u, steps, frame⟩ := resetBlock_cases b s
  have regions : (resetBlock b s).regions = (modRegion (b / 40) (regionForget fun u i => (itemsIn (blockAt s b)).contains (u, i)) s).regions := by
    rw [steps]
    exact frame.get State.regions
  rw [show regionAt (resetBlock b s) (b / 40) = regionAt (modRegion (b / 40) (regionForget fun u i => (itemsIn (blockAt s b)).contains (u, i)) s) (b / 40)
    from congrArg (tget region0 · (b / 40)) regions, regionAt_modRegion, if_pos rfl]
  rfl

end Sys2Proof.Machine
end

section
/-! The end of a recovery, its next batch, and the statement on block recoveries and their tests (chapter 15). -/

namespace Sys2Proof.Machine

-- one proof at a time, for the memory that the check allows
set_option Elab.async false

theorem odv_reportAs_other {k level dep code unit cell action addr : Nat} {tag : Option Nat} {inj : Bool} {i j : Nat}
    (other : odKey i j ≠ odKey 0x6000 4) (s : State) : odv (reportAs k level dep code unit cell action addr tag inj s) i j = odv s i j :=
  ite_holds (fun u : State => odv u i j = odv s i j) (odv_odBump_other _ other) rfl

/-! ### The next batch -/

/-- `r` in the place of the recovery of its unit. -/
def swapIn (r q : Recovery) : Recovery := if q.level = r.level && q.unit = r.unit then r else q

theorem nextBatch_cons {r : Recovery} {l : List Nat} {rest : List (List Nat)} (more : r.batches = l :: rest) (s : State) :
    nextBatch r s = startBatch l { s with rel := { s.rel with recov := s.rel.recov.map (swapIn r) } } := by
  unfold nextBatch
  rw [more]
  rfl

theorem startBatch_frame (l : List Nat) (s : State) : Frame [.blocks] s (startBatch l s) := .foldl (fun _ _ => modBlock_frame ..) (.refl s)

theorem blockAt_startBatch (l : List Nat) (s : State) (n : Nat) :
    blockAt (startBatch l s) n = if n ∈ l then { blockAt s n with testing := true } else blockAt s n :=
  blockAt_foldl_each (g := fun _ x => { x with testing := true }) (fun _ => True) (fun _ _ _ => trivial)
    (fun s b n _ => by
      rw [blockAt_modBlock]
      split
      · next same => rw [same]
      · rfl) (fun _ _ => rfl) l trivial n

theorem nextBatch_frame {r : Recovery} {l : List Nat} {rest : List (List Nat)} (more : r.batches = l :: rest) (s : State) :
    Frame [.blocks, .recov] s (nextBatch r s) := by
  rw [nextBatch_cons more]
  exact .after (startBatch_frame ..) (show Frame [.recov] s _ from rfl)

theorem blockAt_nextBatch {r : Recovery} {l : List Nat} {rest : List (List Nat)} (more : r.batches = l :: rest) (s : State) (n : Nat) :
    blockAt (nextBatch r s) n = if n ∈ l then { blockAt s n with testing := true } else blockAt s n := by
  rw [nextBatch_cons more, blockAt_startBatch]
  rfl

theorem nextBatch_recov {r q : Recovery} {l : List Nat} {rest : List (List Nat)} (more : r.batches = l :: rest) {s : State}
    (mem : q ∈ s.rel.recov) (its : q.level = r.level ∧ q.unit = r.unit) : r ∈ (nextBatch r s).rel.recov := by
  rw [nextBatch_cons more, (startBatch_frame ..).get fun t => t.rel.recov]
  exact List.mem_map.mpr ⟨q, mem, by simp [swapIn, its]⟩

/-! ### The end of a recovery -/

/-- What the end of a block's or region's recovery touches. -/
def endedParts : List StatePart := [.recov, .queues, .mgmt, .od, .cmds, .items, .blocks, .regions, .e2e, .localRels]

def delisted (r : Recovery) (s : State) : State :=
  { s with rel := { s.rel with recov := s.rel.recov.filter fun q => !(q.level = r.level && q.unit = r.unit) } }

/-- The region of a region's recovery out of reset. -/
def regionFreed (r : Recovery) (s : State) : State := if r.level = 2 then modRegion r.unit (fun x => { x with inReset := false }) s else s

/-- After a warm reset, every region out of reset. -/
def regionsFreed (r : Recovery) (s : State) : State :=
  if r.level = 3 then { s with regions := s.regions.map fun e => (e.1, { e.2 with inReset := false }) } else s

/-- The recovery off the list, its regions out of reset, and its report. -/
def offList (r : Recovery) (s : State) : State :=
  reportAs 3000 r.level r.entry 0x40 r.unit 0 0 0 none false (regionsFreed r (regionFreed r (delisted r s)))

theorem delisted_frame (r : Recovery) (s : State) : Frame [.recov] s (delisted r s) := rfl
theorem regionFreed_frame (r : Recovery) (s : State) : Frame [.regions] s (regionFreed r s) := .ite (modRegion_frame ..) (.refl s)
theorem regionsFreed_frame (r : Recovery) (s : State) : Frame [.regions] s (regionsFreed r s) := .ite rfl (.refl s)

theorem freed_frame (r : Recovery) (s : State) : Frame [.recov, .regions] s (regionsFreed r (regionFreed r (delisted r s))) :=
  .after (regionsFreed_frame ..) (.after (regionFreed_frame ..) (delisted_frame r s).mono)

theorem offList_frame (r : Recovery) (s : State) : Frame [.recov, .regions, .queues, .od] s (offList r s) :=
  .after (reportAs_frame ..) (freed_frame r s).mono

theorem offList_recov (r : Recovery) (s : State) : ∀ q ∈ (offList r s).rel.recov, ¬ (q.level = r.level ∧ q.unit = r.unit) := by
  have reported : (offList r s).rel.recov = (regionsFreed r (regionFreed r (delisted r s))).rel.recov :=
    (reportAs_frame ..).get fun t => t.rel.recov
  have freed : (regionsFreed r (regionFreed r (delisted r s))).rel.recov = (delisted r s).rel.recov :=
    ((regionsFreed_frame r _).get fun t => t.rel.recov).trans ((regionFreed_frame r _).get fun t => t.rel.recov)
  rw [reported, freed]
  rintro q mem ⟨level, unit⟩
  simpa [level, unit] using (List.mem_filter.mp mem).2

theorem odv_offList {i j : Nat} (other : odKey i j ≠ odKey 0x6000 4) (r : Recovery) (s : State) : odv (offList r s) i j = odv s i j :=
  (odv_reportAs_other other _).trans (odv_of_od ((freed_frame r s).get State.od) i j)

theorem psum_offList {P : Nat × Nat × Nat → Prop} {g : Nat} {r : Recovery} {s : State} (local_ : r.level ≠ 3)
    (h : ∀ p ∈ (regionAt s g).psum, P p) : ∀ p ∈ (regionAt (offList r s) g).psum, P p := by
  have stays : regionsFreed r (regionFreed r (delisted r s)) = regionFreed r (delisted r s) := if_neg local_
  have reported : (offList r s).regions = (regionsFreed r (regionFreed r (delisted r s))).regions := (reportAs_frame ..).get State.regions
  rw [stays] at reported
  have freed : (regionAt (regionFreed r (delisted r s)) g).psum = (regionAt s g).psum := by
    refine ite_holds (fun u : State => (regionAt u g).psum = (regionAt s g).psum) ?_ rfl
    rw [regionAt_modRegion]
    split
    · next its => rw [its]; rfl
    · rfl
  rwa [show regionAt (offList r s) g = regionAt (regionFreed r (delisted r s)) g from congrArg (tget region0 · g) reported, freed]

/-- The state that leaves a warm reset, before its boundary. -/
def resetOver (u : State) : State := { u with mgmt := { u.mgmt with recovering := false, stopPending := false } }

theorem endRecovery_eq (r : Recovery) (s : State) : endRecovery r s =
    if allRetired (offList r s) then
      enterFault { offList r s with mgmt := { (offList r s).mgmt with recovering := if r.level = 3 then false else (offList r s).mgmt.recovering } }
    else if r.level = 3 then setSt 1 (boundary (resetOver (offList r s))) else offList r s := rfl

section
variable {r : Recovery} (local_ : r.level ≠ 3)
include local_

/-- The recovery of a block or region leaves the list; with no block left the dictionary enters FAULT. -/
theorem endRecovery_local (s : State) : endRecovery r s = if allRetired (offList r s) then enterFault (offList r s) else offList r s := by
  rw [endRecovery_eq, if_neg local_, if_neg local_]

theorem endRecovery_frame (s : State) : Frame endedParts s (endRecovery r s) := by
  rw [endRecovery_local local_]
  exact .ite (.after (enterFault_drops _).frame (offList_frame ..).mono) (offList_frame ..).mono

theorem endRecovery_apart {β : Type} {g : Block → β} (apart : Apart g) (s : State) (n : Nat) :
    g (blockAt (endRecovery r s) n) = g (blockAt s n) := by
  have before : g (blockAt (offList r s) n) = g (blockAt s n) := congrArg (fun l => g (tget block0 l n)) ((offList_frame r s).get State.blocks)
  rw [endRecovery_local local_]
  exact ite_holds (fun u : State => g (blockAt u n) = g (blockAt s n)) ((enterFault_apart apart ..).trans before) before

theorem endRecovery_recov (s : State) : ∀ q ∈ (endRecovery r s).rel.recov, ¬ (q.level = r.level ∧ q.unit = r.unit) := by
  rw [endRecovery_local local_]
  refine ite_holds (fun u : State => ∀ q ∈ u.rel.recov, ¬ (q.level = r.level ∧ q.unit = r.unit)) ?_ (offList_recov r s)
  rw [(enterFault_drops _).frame.get fun t => t.rel.recov]
  exact offList_recov r s

theorem odv_endRecovery {i j : Nat} (lost : odKey i j ≠ odKey 0x6000 4) (state : odKey i j ≠ odKey 0x1F80 4) (s : State) :
    odv (endRecovery r s) i j = odv s i j := by
  rw [endRecovery_local local_]
  exact ite_holds (fun u : State => odv u i j = odv s i j) ((odv_enterFault_other _ state).trans (odv_offList lost r s)) (odv_offList lost r s)

theorem psum_endRecovery {P : Nat × Nat × Nat → Prop} {g : Nat} {s : State} (h : ∀ p ∈ (regionAt s g).psum, P p) :
    ∀ p ∈ (regionAt (endRecovery r s) g).psum, P p := by
  rw [endRecovery_local local_]
  exact ite_holds (fun u : State => ∀ p ∈ (regionAt u g).psum, P p) (psum_enterFault (psum_offList local_ h)) (psum_offList local_ h)

end

/-! ### Block recovery -/

theorem retireNow_of {s t : State} (od : ∀ i j, odKey i j ≠ odKey 0x6200 11 → odv t i j = odv s i j) (faults : t.rel.faults = s.rel.faults)
    (clocks : t.clocks = s.clocks) (b : Nat) : retireNow t b = retireNow s b := by
  unfold retireNow opRef
  rw [od _ _ (by decide), od _ _ (by decide), faults, clocks]

theorem blockAt_retireBlock_eq (b dep : Nat) (s : State) (n : Nat) : blockAt (retireBlock b dep s) n =
    if n = b then { block0 with
      retired := true, gated := true, weight := (blockAt s b).weight, spLost := (blockAt s b).spLost, busyAc := (blockAt s b).busyAc
      idleAc := (blockAt s b).idleAc, splitSteps := (blockAt s b).splitSteps } else blockAt s n := by
  have reported (u : State) : blockAt (reportAs (1000 + b) 0 dep 0x42 b 0 4 0 none false u) n = blockAt u n :=
    congrArg (tget block0 · n) ((reportAs_frame ..).get State.blocks)
  rw [retireBlock, reported, blockAt_modBlock]

/-- The block empty and counted, before its test or its retirement. -/
def blockEmptied (r : Recovery) (s : State) : State :=
  odBump 0x6200 11 1 (resetBlock r.unit (noteEnded r.entry (loseWork r.unit s).1 (loseWork r.unit s).2.1 (loseWork r.unit s).2.2))

theorem blockRecovery_eq (r : Recovery) (s : State) : blockRecovery r s =
    if retireNow (blockEmptied r s) r.unit then
      endRecovery { r with begun := true, batches := [[r.unit]] } (retireBlock r.unit r.entry (blockEmptied r s))
    else nextBatch { r with begun := true, batches := [[r.unit]] } (blockEmptied r s) := rfl

/-- What emptying a block touches. -/
def emptiedParts : List StatePart :=
  [.cmds, .items, .blocks, .regions, .e2e, .localRels, .log, .ports, .links, .sp, .spPoison, .od]

theorem noteEnded_frame (n ended : Nat) (replayed : Bool) (s : State) : Frame [.log] s (noteEnded n ended replayed s) := rfl

theorem blockEmptied_frame (r : Recovery) (s : State) : Frame emptiedParts s (blockEmptied r s) :=
  .after (odBump_frame ..) (.after (resetBlock_frame ..) (.after (noteEnded_frame ..) (loseWork_frame ..).mono))

/-- The state whose block is reset. -/
def workLost (r : Recovery) (s : State) : State := noteEnded r.entry (loseWork r.unit s).1 (loseWork r.unit s).2.1 (loseWork r.unit s).2.2

theorem blockAt_blockEmptied (r : Recovery) (s : State) : blockAt (blockEmptied r s) r.unit = clearedBlock (blockAt (workLost r s) r.unit) :=
  (blockAt_resetBlock r.unit (workLost r s) r.unit).trans (if_pos rfl)

theorem retired_blockEmptied (r : Recovery) (s : State) : (blockAt (blockEmptied r s) r.unit).retired = (blockAt s r.unit).retired := by
  rw [blockAt_blockEmptied]
  exact loseWork_apart retired_apart r.unit s r.unit

theorem odv_blockEmptied (r : Recovery) (s : State) : odv (blockEmptied r s) 0x6200 11 = (odv s 0x6200 11 + 1) % 2 ^ 32
    ∧ ∀ i j, odKey i j ≠ odKey 0x6200 11 → odv (blockEmptied r s) i j = odv s i j := by
  have before : (resetBlock r.unit (workLost r s)).od = s.od :=
    ((resetBlock_frame ..).get State.od).trans ((loseWork_frame ..).get State.od)
  refine ⟨?_, fun i j other => (odv_odBump_other _ other).trans (odv_of_od before i j)⟩
  rw [← odv_of_od before]
  exact odv_odBump_same (w := 32) _ (by decide)

theorem spByte_blockEmptied (r : Recovery) (s : State) (n : Nat) {a : Nat} (bound : a < 2 ^ 20) :
    spByte (blockEmptied r s) n a = if n = r.unit then 0 else spByte s n a := by
  have same : (workLost r s).sp = s.sp := (loseWork_frame ..).get State.sp
  refine (spByte_resetBlock r.unit (workLost r s) n bound).trans ?_
  unfold spByte
  rw [same]

/-- No sum of an item that the block held is left in its region. -/
theorem psum_blockEmptied (r : Recovery) (s : State) :
    ∀ p ∈ (regionAt (blockEmptied r s) (r.unit / 40)).psum, (p.1, p.2.1) ∉ itemsIn (blockAt s r.unit) := by
  intro p mem held
  have filtered : (regionAt (blockEmptied r s) (r.unit / 40)).psum = (regionAt (workLost r s) (r.unit / 40)).psum.filter
      fun e => !(itemsIn (blockAt (workLost r s) r.unit)).contains (e.1, e.2.1) := psum_resetBlock r.unit (workLost r s)
  rw [filtered, List.mem_filter] at mem
  have kept : SumsHeld r.unit (r.unit / 40) (p.1, p.2.1) (loseWork r.unit s).2.2 := loseWork_sumsHeld (.inr held)
  obtain none | holds := kept
  · exact none p mem.1 rfl
  · have out : (p.1, p.2.1) ∉ itemsIn (blockAt (workLost r s) r.unit) := by simpa using mem.2
    exact out holds

/-- What a block's recovery keeps and counts, whether the block is tested or retired. -/
structure Emptied (r : Recovery) (s t : State) : Prop where
  queue : t.pending = s.pending
  mem : t.mem = s.mem
  count : odv t 0x6200 11 = (odv s 0x6200 11 + 1) % 2 ^ 32
  sums : ∀ p ∈ (regionAt t (r.unit / 40)).psum, (p.1, p.2.1) ∉ itemsIn (blockAt s r.unit)
  scratch : t.sp = (blockEmptied r s).sp

theorem emptied_blockEmptied (r : Recovery) (s : State) : Emptied r s (blockEmptied r s) where
  queue := (blockEmptied_frame r s).get State.pending
  mem := (blockEmptied_frame r s).get State.mem
  count := (odv_blockEmptied r s).1
  sums := psum_blockEmptied r s
  scratch := rfl

theorem Emptied.retired {r q : Recovery} {s t : State} (h : Emptied r s t) (local_ : q.level ≠ 3) :
    Emptied r s (endRecovery q (retireBlock r.unit r.entry t)) := by
  have retired := retireBlock_frame r.unit r.entry t
  have regions : regionAt (retireBlock r.unit r.entry t) (r.unit / 40) = regionAt t (r.unit / 40) :=
    congrArg (tget region0 · (r.unit / 40)) (retired.get State.regions)
  have counted : odv (retireBlock r.unit r.entry t) 0x6200 11 = odv t 0x6200 11 := odv_reportAs_other (by decide) _
  have queue : (retireBlock r.unit r.entry t).pending = t.pending := retired.get State.pending
  have mem : (retireBlock r.unit r.entry t).mem = t.mem := retired.get State.mem
  have sp : (retireBlock r.unit r.entry t).sp = t.sp := retired.get State.sp
  generalize retireBlock r.unit r.entry t = u at *
  have ended := endRecovery_frame local_ u
  exact {
    queue := (ended.get State.pending).trans (queue.trans h.queue)
    mem := (ended.get State.mem).trans (mem.trans h.mem)
    count := (odv_endRecovery local_ (by decide) (by decide) u).trans (counted.trans h.count)
    sums := psum_endRecovery local_ (by rw [regions]; exact h.sums)
    scratch := (ended.get State.sp).trans (sp.trans h.scratch) }

theorem Emptied.tested {r q : Recovery} {s t : State} (h : Emptied r s t) {l : List Nat} {rest : List (List Nat)}
    (more : q.batches = l :: rest) : Emptied r s (nextBatch q t) := by
  have frame := nextBatch_frame more t
  have regions : regionAt (nextBatch q t) (r.unit / 40) = regionAt t (r.unit / 40) :=
    congrArg (tget region0 · (r.unit / 40)) (frame.get State.regions)
  exact {
    queue := (frame.get State.pending).trans h.queue
    mem := (frame.get State.mem).trans h.mem
    count := (odv_of_od (frame.get State.od) ..).trans h.count
    sums := by rw [regions]; exact h.sums
    scratch := (frame.get State.sp).trans h.scratch }

theorem emptied_blockRecovery {r : Recovery} (block : r.level = 1) (s : State) : Emptied r s (blockRecovery r s) := by
  rw [blockRecovery_eq]
  split
  · exact (emptied_blockEmptied r s).retired (by simp [block])
  · exact (emptied_blockEmptied r s).tested rfl

/-- The recovery that a row finds, with what the search asked of it. -/
theorem recov_found {p : Recovery → Bool} {r : Recovery} {s : State} (found : s.rel.recov.find? p = some r) : r ∈ s.rel.recov ∧ p r = true :=
  ⟨List.mem_of_find?_eq_some found, List.find?_some found⟩

/-! ### The result of a block's test -/

section
variable {b : Nat} {r : Recovery} {s : State}

/-- The block as its test leaves it. -/
def blockJudged (b : Nat) (pass : Bool) (r : Recovery) (s : State) : State :=
  if pass then modBlock b (fun x => { x with testing := false, inReset := false }) s else retireBlock b r.entry s

theorem blockJudged_frame (b : Nat) (pass : Bool) (r : Recovery) (s : State) : Frame [.blocks, .queues, .od] s (blockJudged b pass r s) :=
  .ite (modBlock_frame ..).mono (retireBlock_frame ..)

theorem blockAt_blockJudged_other (pass : Bool) {n : Nat} (other : n ≠ b) : blockAt (blockJudged b pass r s) n = blockAt s n := by
  refine ite_holds (fun u : State => blockAt u n = blockAt s n) ?_ ?_
  · rw [blockAt_modBlock, if_neg other]
  · rw [blockAt_retireBlock_eq, if_neg other]

theorem blockAt_blockJudged (pass : Bool) :
    (pass = true → blockAt (blockJudged b pass r s) b = { blockAt s b with testing := false, inReset := false })
    ∧ (pass = false → (blockAt (blockJudged b pass r s) b).retired = true ∧ (blockAt (blockJudged b pass r s) b).gated = true) := by
  refine ⟨fun passed => ?_, fun failed => ?_⟩
  · subst passed
    unfold blockJudged
    rw [if_pos rfl, blockAt_modBlock, if_pos rfl]
  · subst failed
    show (blockAt (retireBlock b r.entry s) b).retired = true ∧ (blockAt (retireBlock b r.entry s) b).gated = true
    rw [blockAt_retireBlock_eq, if_pos rfl]
    exact ⟨rfl, rfl⟩

/-- `r` with other batches, in the place of the recovery of its unit. -/
def rebatch (r : Recovery) (bs : List (List Nat)) (q : Recovery) : Recovery :=
  if q.level = r.level && q.unit = r.unit then { q with batches := bs } else q

variable (quiet : fires 9 b s = none)
include quiet

theorem revalidated_eq {pass : Bool} {l : List Nat} {rest : List (List Nat)} (batch : r.batches = l :: rest) : revalidated r b pass s =
    if (l.filter (· != b)).isEmpty then nextBatch { r with batches := rest } (blockJudged b pass r s)
    else { blockJudged b pass r s with rel := { (blockJudged b pass r s).rel with
      recov := (blockJudged b pass r s).rel.recov.map (rebatch r (l.filter (· != b) :: rest)) } } := by
  unfold revalidated
  rw [quiet, batch]
  simp only [Option.isSome_none, Option.isNone_none, Bool.and_true]
  rfl

end

/-! ### The end of a warm reset (R446) -/

theorem mem_presentBlocks_of {s : State} {b : Nat} (present : blockPresent s b = true) : b ∈ presentBlocks s := by
  simp only [blockPresent, regionPresent, Bool.and_eq_true, decide_eq_true_eq] at present
  obtain ⟨_, small, on⟩ := present
  refine List.mem_flatMap.mpr ⟨b / 40, List.mem_filter.mpr ⟨List.mem_range.mpr small, on⟩, List.mem_map.mpr ⟨b % 40, ?_, by omega⟩⟩
  exact List.mem_range.mpr (by omega)

theorem applyRetire_recovering (ws : List RwqWrite) (s : State) : (applyRetire ws s).mgmt.recovering = s.mgmt.recovering := by
  rw [applyRetire_eq]
  have retired := retireNamed_mgmt s (odv s 0x6200 3) (presentBlocks s)
  generalize retireNamed s (odv s 0x6200 3) (presentBlocks s) = u at retired ⊢
  refine ite_holds (fun u : State => u.mgmt.recovering = s.mgmt.recovering)
    (ite_holds (fun u : State => u.mgmt.recovering = s.mgmt.recovering) ?_ ?_) rfl
  · rw [enterFault_mgmt, retired]
  · rw [retired]

theorem setSt_recovering (n : Nat) (s : State) : (setSt n s).mgmt.recovering = s.mgmt.recovering := by rw [setSt_eq]

theorem boundary_recovering (s : State) : (boundary s).mgmt.recovering = s.mgmt.recovering := by
  have stop (u : State) : (stopTaken u).mgmt.recovering = u.mgmt.recovering :=
    ite_holds (fun v : State => v.mgmt.recovering = u.mgmt.recovering) (setSt_recovering ..) rfl
  have topped (u : State) : (topUp u).mgmt.recovering = u.mgmt.recovering := congrArg Mgmt.recovering ((topUp_frame u).get State.mgmt)
  rw [boundary_eq, stop, topped, applyRetire_recovering, configured_mgmt, pendingStored_mgmt]

/-- With a block in service, the end of a warm reset is PREOP without a recovery. -/
theorem endRecovery_apex {r : Recovery} {s : State} (apex : r.level = 3) {b : Nat} (present : blockPresent s b = true)
    (serves : (blockAt s b).retired = false) : (endRecovery r s).mgmt.st = 1 ∧ (endRecovery r s).mgmt.recovering = false := by
  have frame := offList_frame r s
  have some_ : allRetired (offList r s) = false := by
    have boot : (offList r s).boot = s.boot := frame.get State.boot
    have block : blockAt (offList r s) b = blockAt s b := congrArg (tget block0 · b) (frame.get State.blocks)
    refine List.all_eq_false.mpr ⟨b, ?_, by rw [block, serves]; decide⟩
    exact mem_presentBlocks_of (by unfold blockPresent regionPresent at present ⊢; rwa [boot])
  rw [endRecovery_eq, some_, if_neg (by decide), if_pos apex]
  refine ⟨setSt_st .., ?_⟩
  rw [setSt_recovering, boundary_recovering]
  rfl

/-! ### The two rows -/

/-- Settles O55: a block's recovery empties it first; a result is handled batch by batch, and the last ends the recovery. -/
theorem blockRecoveryRows : Obligations.BlockRecoveryRows := by
  refine ⟨fun b r s runs small found => ?recovery, fun b r pass s runs found quiet => ?result⟩
  case recovery =>
    obtain ⟨mem, asked⟩ := recov_found found
    simp only [Bool.and_eq_true, decide_eq_true_eq, Bool.not_eq_true'] at asked
    obtain ⟨⟨block, rfl⟩, _⟩ := asked
    have emptied := emptied_blockRecovery block s
    have row : exec (.blockRecovery r.unit) s = .next (blockRecovery r s) := by
      show execBlockRecovery r.unit s = _
      unfold execBlockRecovery
      rw [found]
      exact event_exact runs emptied.queue
    have frame := blockEmptied_frame r s
    have asks : retireNow (blockEmptied r s) r.unit = retireNow s r.unit :=
      retireNow_of (odv_blockEmptied r s).2 (frame.get fun t => t.rel.faults) (frame.get State.clocks) r.unit
    refine ⟨_, row, emptied.mem, emptied.count, emptied.sums, fun n a bound => ?_, fun stays => ?tested, fun leaves => ?retired⟩
    · rw [← spByte_blockEmptied r s n bound]
      exact congrArg (memGet · (spKey n a)) emptied.scratch
    case tested =>
      have steps : blockRecovery r s = nextBatch { r with begun := true, batches := [[r.unit]] } (blockEmptied r s) := by
        rw [blockRecovery_eq, asks, stays, if_neg (by decide)]
      have its : blockAt (blockRecovery r s) r.unit = { clearedBlock (blockAt (workLost r s) r.unit) with testing := true } := by
        rw [steps, blockAt_nextBatch rfl, if_pos (List.mem_singleton.mpr rfl), blockAt_blockEmptied]
      have listed : ({ r with begun := true, batches := [[r.unit]] } : Recovery) ∈ (blockRecovery r s).rel.recov := by
        rw [steps]
        refine nextBatch_recov rfl (q := r) ?_ ⟨rfl, rfl⟩
        rwa [frame.get fun t => t.rel.recov]
      rw [its]
      refine ⟨rfl, rfl, rfl, rfl, rfl, rfl, fun k bank => ?_, rfl, loseWork_apart retired_apart r.unit s r.unit, _, listed, block, rfl, rfl, rfl⟩
      rw [List.eq_of_mem_replicate bank]
      rfl
    case retired =>
      have steps : blockRecovery r s = endRecovery { r with begun := true, batches := [[r.unit]] } (retireBlock r.unit r.entry (blockEmptied r s)) := by
        rw [blockRecovery_eq, asks, leaves, if_pos rfl]
      have local_ : ({ r with begun := true, batches := [[r.unit]] } : Recovery).level ≠ 3 := by
        show r.level ≠ 3
        omega
      rw [steps]
      refine ⟨?_, ?_, ?_⟩
      · rw [endRecovery_apart local_ retired_apart, blockAt_retireBlock_eq, if_pos rfl]
      · rw [endRecovery_apart local_ gated_apart, blockAt_retireBlock_eq, if_pos rfl]
      · intro q mem its
        exact endRecovery_recov local_ _ q mem ⟨its.1.trans block.symm, its.2⟩
  case result =>
    obtain ⟨mem, _⟩ := recov_found found
    have fate := blockAt_blockJudged (b := b) (r := r) (s := s) pass
    have others {n : Nat} (other : n ≠ b) : blockAt (blockJudged b pass r s) n = blockAt s n := blockAt_blockJudged_other pass other
    have listed : r ∈ (blockJudged b pass r s).rel.recov := by
      rwa [(blockJudged_frame b pass r s).get fun t => t.rel.recov]
    have boot : (blockJudged b pass r s).boot = s.boot := (blockJudged_frame b pass r s).get State.boot
    have row : exec (.revalidationDone b pass) s = .next { revalidated r b pass s with pending := s.pending } := by
      show execRevalidationDone b pass s = _
      unfold execRevalidationDone
      rw [found]
      exact event_of runs
    have alone : ([b] : List Nat).filter (· != b) = [] := by simp
    have without {c : Nat} {l : List Nat} (other : b ≠ c) (out : b ∉ l) : (c :: l).filter (· != b) = c :: l :=
      List.filter_eq_self.mpr fun x mem => by
        obtain rfl | later := List.mem_cons.mp mem
        · simp [Ne.symm other]
        · simp only [bne_iff_ne]
          rintro rfl
          exact out later
    refine ⟨_, row, fun local_ last => ?last, fun c l rest more other out => ?more, fun c l rest next other out => ?next, fun apex last passed present serves => ?apex⟩
    case last =>
      have level : ({ r with batches := [] } : Recovery).level ≠ 3 := by
        show r.level ≠ 3
        omega
      have steps : revalidated r b pass s = endRecovery { r with batches := [] } (blockJudged b pass r s) := by
        rw [revalidated_eq quiet last, alone]
        rfl
      have kept {β : Type} {g : Block → β} (apart : Apart g) : g (blockAt (revalidated r b pass s) b) = g (blockAt (blockJudged b pass r s) b) := by
        rw [steps]
        exact endRecovery_apart level apart ..
      have gone : ∀ q ∈ (revalidated r b pass s).rel.recov, ¬ (q.level = r.level ∧ q.unit = r.unit) := by
        rw [steps]
        exact endRecovery_recov level _
      refine ⟨gone, fun passed => ?_, fun failed => ?_⟩
      · refine ⟨(kept testing_apart).trans ?_, (kept inReset_apart).trans ?_, (kept retired_apart).trans ?_⟩
        all_goals rw [fate.1 passed]
      · exact ⟨(kept retired_apart).trans (fate.2 failed).1, (kept gated_apart).trans (fate.2 failed).2⟩
    case more =>
      have left : (b :: c :: l).filter (· != b) = c :: l := by
        rw [List.filter_cons_of_neg (by simp), without other out]
      have steps := revalidated_eq (s := s) (pass := pass) quiet more
      rw [left, if_neg (by simp)] at steps
      rw [steps]
      exact ⟨⟨rebatch r ((c :: l) :: rest) r, List.mem_map.mpr ⟨r, listed, rfl⟩, by simp [rebatch], by simp [rebatch], by simp [rebatch]⟩,
        others (Ne.symm other)⟩
    case next =>
      have steps := revalidated_eq (s := s) (pass := pass) quiet next
      rw [alone, if_pos (by decide)] at steps
      rw [steps]
      have batch : ({ r with batches := (c :: l) :: rest } : Recovery).batches = (c :: l) :: rest := rfl
      have goes := nextBatch_recov batch listed ⟨rfl, rfl⟩
      refine ⟨⟨_, goes, rfl, rfl, rfl⟩, fun x mem => ?_⟩
      show (blockAt (nextBatch _ _) x).testing = true
      rw [blockAt_nextBatch batch, if_pos mem]
    case apex =>
      have steps : revalidated r b pass s = endRecovery { r with batches := [] } (blockJudged b pass r s) := by
        rw [revalidated_eq quiet last, alone]
        rfl
      rw [steps]
      refine endRecovery_apex (r := { r with batches := [] }) apex (b := b) ?_ ?_
      · unfold blockPresent regionPresent at present ⊢
        rwa [boot]
      · rw [fate.1 passed]
        exact serves

end Sys2Proof.Machine
end

section
/-! Which blocks stay in service, and which commands stay decided, through the loss of a port and a warm reset (chapter 15). -/

namespace Sys2Proof.Machine

-- one proof at a time, for the memory that the check allows
set_option Elab.async false

/-- What reads only parts outside the frame is kept. The side condition is checked once over every state, so its check never
evaluates the states at hand. -/
theorem Frame.keeps {β : Type} {ps : List StatePart} {s t : State} (h : Frame ps s t) (f : State → β)
    (apart : ∀ u v, f (patch ps u v) = f u := by intro _ _; rfl) : f t = f s := (h.get f).trans (apart s t)

/-! ### Operations that retire no block -/

/-- Every block is retired in both or in neither. -/
structure SameRetired (s t : State) : Prop where
  at_ : ∀ n, (blockAt t n).retired = (blockAt s n).retired

namespace SameRetired

variable {s t u : State}

theorem refl (s : State) : SameRetired s s := ⟨fun _ => rfl⟩

theorem trans (h : SameRetired s t) (k : SameRetired t u) : SameRetired s u := ⟨fun n => (k.at_ n).trans (h.at_ n)⟩

theorem after (k : SameRetired t u) (h : SameRetired s t) : SameRetired s u := h.trans k

theorem of_blocks (h : t.blocks = s.blocks) : SameRetired s t := ⟨fun n => by unfold blockAt; rw [h]⟩

theorem foldl {β : Type} {f : State → β → State} {l : List β} (hf : ∀ t x, SameRetired t (f t x)) (h : SameRetired s t) :
    SameRetired s (l.foldl f t) := foldl_holds (SameRetired s) h fun _ x kept => kept.trans (hf _ x)

theorem ite {c : Prop} [Decidable c] (h : SameRetired s t) (k : SameRetired s u) : SameRetired s (if c then t else u) :=
  ite_holds (SameRetired s) h k

end SameRetired

theorem modBlock_sameRetired (b : Nat) (f : Block → Block) (s : State) (keeps : ∀ x, (f x).retired = x.retired := by intro; rfl) :
    SameRetired s (modBlock b f s) := by
  refine ⟨fun n => ?_⟩
  rw [blockAt_modBlock]
  split
  · next same => rw [keeps, same]
  · rfl

theorem endCmd_sameRetired (uid status detail : Nat) (s : State) : SameRetired s (endCmd uid status detail s) :=
  ⟨endCmd_apart retired_apart uid status detail s⟩

theorem resetBlock_sameRetired (b : Nat) (s : State) : SameRetired s (resetBlock b s) := by
  refine ⟨fun n => ?_⟩
  rw [blockAt_resetBlock]
  split
  · next same => rw [same]; rfl
  · rfl

theorem landTile_sameRetired (x : RxPacket) (bs : List Byte) (s : State) : SameRetired s (landTile x bs s) := by
  unfold landTile
  exact .after (modBlock_sameRetired ..) (.of_blocks ((spWrite_frame ..).get State.blocks))

theorem abortArrival_sameRetired (p k : Nat) (s : State) : SameRetired s (abortArrival p k s) := by
  unfold abortArrival
  split
  · exact .refl s
  · have released (f : LinkPort → LinkPort) : SameRetired s (modLink p f s) := .of_blocks rfl
    have spoiled (b : Option Nat) (a n : Nat) (u : State) : SameRetired u (spoil b a n u) := .of_blocks ((spoil_frame ..).get State.blocks)
    exact .ite (.after (spoiled ..) (.after (modBlock_sameRetired ..) (released _))) (released _)

theorem landFlit_sameRetired {p : Nat} {x : TxFlit} {s t : State} (h : landFlit p x s = some t) : SameRetired s t := by
  have linked (f : LinkPort → LinkPort) (u : State) : SameRetired u (modLink p f u) := .of_blocks rfl
  unfold landFlit at h
  dsimp only at h
  split at h
  · split at h
    · cases h
    · cases h
      exact .after (linked ..) (.ite (.refl s) (.after (landTile_sameRetired ..) (modBlock_sameRetired ..)))
  · split at h
    · cases h
      exact .refl s
    · split at h
      · cases h
        exact abortArrival_sameRetired ..
      · cases h
        exact .after (linked ..) (.ite (.refl s) (landTile_sameRetired ..))

theorem drainHold_sameRetired (p : Nat) (s : State) : SameRetired s (drainHold p s) := by
  have linked (q : Nat) (f : LinkPort → LinkPort) (u : State) : SameRetired u (modLink q f u) := .of_blocks rfl
  unfold drainHold
  refine .after (linked ..) ?_
  refine foldl_holds (fun a : State × List TxFlit × List Nat => SameRetired s a.1) (.refl s) fun a x kept => ?_
  dsimp only
  split
  · exact kept
  · split
    · next t flit => exact .after (.ite (linked ..) (.refl t)) (.after (landFlit_sameRetired flit) kept)
    · exact kept

theorem portDrop_sameRetired (p st : Nat) (s : State) : SameRetired s (portDrop p st s) := by
  have linked (q : Nat) (f : LinkPort → LinkPort) (u : State) : SameRetired u (modLink q f u) := .of_blocks rfl
  refine .foldl (fun _ _ => endCmd_sameRetired ..) (.foldl (fun _ _ => .of_blocks ((unreachable_frame ..).get State.blocks)) ?_)
  refine .after (drainHold_sameRetired ..) (.after (linked ..) (.foldl (fun t k => ?_) ?_))
  · exact .ite (.of_blocks rfl) (.ite (linked ..) (.ite (.of_blocks ((cutPacket_frame ..).get State.blocks)) (.refl t)))
  · exact .after (t := portCredits (linkAt s p).txq s) (.of_blocks rfl) (.foldl (fun t x => .ite (linked ..) (.refl t)) (.refl s))

theorem portLost_sameRetired (p : Nat) (s : State) : SameRetired s (portLost p s) := by
  have disarmed : SameRetired s (if (fires 0x32 p s).isSome then disarm 0x32 p s else s) := .ite (.of_blocks rfl) (.refl s)
  have reported (inj : Bool) (u : State) : SameRetired u (report 0x32 p 0 0 0 none inj u) := .of_blocks ((report_frame ..).get State.blocks)
  have counted (u : State) : SameRetired u (odBump 0x4010 (0xD0 + p) 1 u) := .of_blocks rfl
  unfold portLost
  dsimp only
  exact .after (reported ..) (.after (counted _) (.after (portDrop_sameRetired ..) disarmed))

/-! ### Operations that leave decided commands decided -/

/-- Every command in flight is decided. -/
def AllDecided (s : State) : Prop := ∀ c ∈ s.front.cmds, c.decided = true

theorem AllDecided.of_cmds {s t : State} (h : AllDecided s) (same : t.front.cmds = s.front.cmds) : AllDecided t := by
  unfold AllDecided
  rwa [same]

section
variable {s : State} (all : AllDecided s)
include all

/-- A decided command cannot end any more. -/
theorem endCmd_of_decided (uid status detail : Nat) : endCmd uid status detail s = s := by
  unfold endCmd
  cases found : cmdOf s uid with
  | none => rfl
  | some c =>
    dsimp only
    rw [if_pos (by simp [all c (mem_of_cmdOf found)])]

theorem collOf_of_decided (g : Nat) : collOf s g = none := by
  refine List.find?_eq_none.mpr fun c mem => ?_
  simp [all c mem]

theorem examine_of_decided (g : Nat) : examine g s = s := by
  have round : examineRound g s = s := by
    unfold examineRound
    rw [collOf_of_decided all]
  unfold examine
  rw [round, round]

theorem evalAcquire_of_decided (fc : Nat) {c : Cmd} (mem : c ∈ s.front.cmds) : evalAcquire fc s c = s :=
  if_neg (by simp [all c mem])

theorem portDrop_cmds (p st : Nat) : (portDrop p st s).front.cmds = s.front.cmds := by
  have ends (l : List E2e) {u : State} (same : u.front.cmds = s.front.cmds) :
      (l.foldl (fun s e => endCmd e.uid stLinkLost noDetail s) u).front.cmds = s.front.cmds :=
    foldl_holds (fun v : State => v.front.cmds = s.front.cmds) same fun v e kept => by
      rw [endCmd_of_decided (all.of_cmds kept)]
      exact kept
  have answers (l : List (Nat × Nat)) {u : State} (same : u.front.cmds = s.front.cmds) :
      (l.foldl (fun s x => unreachable x.1 x.2 s) u).front.cmds = s.front.cmds :=
    foldl_holds (fun v : State => v.front.cmds = s.front.cmds) same fun v x kept => ((unreachable_frame ..).get fun w => w.front.cmds).trans kept
  refine ends _ (answers _ (((drainHold_frame ..).get fun w => w.front.cmds).trans ?_))
  refine foldl_holds (fun v : State => v.front.cmds = s.front.cmds) (f := fun s k => ite _ _ _) ?_ fun v k kept => ?_
  · exact foldl_holds (fun v : State => v.front.cmds = s.front.cmds) rfl fun v x kept =>
      ite_holds (fun w : State => w.front.cmds = s.front.cmds) kept kept
  · refine ite_holds (fun w : State => w.front.cmds = s.front.cmds) kept (ite_holds (fun w : State => w.front.cmds = s.front.cmds) kept
      (ite_holds (fun w : State => w.front.cmds = s.front.cmds) ?_ kept))
    exact ((cutPacket_frame ..).get fun w => w.front.cmds).trans kept

theorem portLost_cmds (p : Nat) : (portLost p s).front.cmds = s.front.cmds := by
  have disarmed : (if (fires 0x32 p s).isSome then disarm 0x32 p s else s).front.cmds = s.front.cmds :=
    ite_holds (fun v : State => v.front.cmds = s.front.cmds) rfl rfl
  have reported (inj : Bool) (u : State) : (report 0x32 p 0 0 0 none inj u).front.cmds = u.front.cmds := (report_frame ..).get fun v => v.front.cmds
  have counted (u : State) : (odBump 0x4010 (0xD0 + p) 1 u).front.cmds = u.front.cmds := rfl
  unfold portLost
  dsimp only
  rw [reported, counted, portDrop_cmds (all.of_cmds disarmed), disarmed]

end

/-! ### A reset slot, with no command that could meet it (R313) -/

/-- The report of an armed point, and the mirror: what is left of an update when no command is undecided. -/
def mirrored (i : Nat) (s : State) : State :=
  let s1 := if (fires 0x21 0 s).isSome then report 0x21 0 i 0 0 none true (disarm 0x21 0 s) else s
  if odv s1 0x2400 1 = 0 then s1
  else hostWrite (odv s1 0x2400 1 + 8 * i) (toBytes 8 (flagWord (flagAt s1 i))) false .engine true s1

def mirrorParts : List StatePart := .queues :: .armed :: .od :: storeParts

theorem mirrored_frame (i : Nat) (s : State) : Frame mirrorParts s (mirrored i s) := by
  have reported : Frame mirrorParts s (if (fires 0x21 0 s).isSome then report 0x21 0 i 0 0 none true (disarm 0x21 0 s) else s) :=
    .ite (.after (report_frame ..) (disarm_frame ..).mono) (.refl s)
  exact .ite reported (.after (hostWrite_store_frame rfl ..) reported)

theorem odv_mirrored {i k l : Nat} (lost : odKey k l ≠ odKey 0x6000 4) (disarms : odKey k l ≠ odKey 0x6100 3) (s : State) :
    odv (mirrored i s) k l = odv s k l := by
  have reported : odv (if (fires 0x21 0 s).isSome then report 0x21 0 i 0 0 none true (disarm 0x21 0 s) else s) k l = odv s k l :=
    ite_holds (fun u : State => odv u k l = odv s k l) ((odv_report_other lost _).trans (odv_disarm_other disarms s)) rfl
  unfold mirrored
  dsimp only
  refine ite_holds (fun u : State => odv u k l = odv s k l) reported ?_
  exact (odv_of_od ((hostWrite_free_frame (o := .engine) rfl ..).get State.od) k l).trans reported

theorem afterUpdate_of_decided {i : Nat} {s : State} (all : AllDecided s) : afterUpdate i s = mirrored i s := by
  have decided : AllDecided (mirrored i s) := all.of_cmds ((mirrored_frame i s).get fun u => u.front.cmds)
  have acquires (l : List Cmd) (sub : ∀ c ∈ l, c ∈ (mirrored i s).front.cmds) :
      l.foldl (fun s c => if fIdx c.desc = i then evalAcquire (flagAt s i).setFc s c else s) (mirrored i s) = mirrored i s := by
    induction l with
    | nil => rfl
    | cons c l ih =>
      rw [List.foldl_cons, evalAcquire_of_decided decided _ (sub c (List.mem_cons_self ..)), ite_self]
      exact ih fun x mem => sub x (List.mem_cons_of_mem _ mem)
  have exchanges (l : List (Nat × Group)) :
      l.foldl (fun s e => if e.2.st = 1 && (e.2.sync == i || e.2.sync + 1 == i) then examine e.1 s else s) (mirrored i s) = mirrored i s :=
    foldl_holds (fun u : State => u = mirrored i s) rfl fun u e kept => by
      rw [kept, examine_of_decided decided, ite_self]
  have steps : afterUpdate i s = (((mirrored i s).front.cmds.foldl (fun s c => if fIdx c.desc = i then evalAcquire (flagAt s i).setFc s c else s)
      (mirrored i s))).groups.foldl (fun s e => if e.2.st = 1 && (e.2.sync == i || e.2.sync + 1 == i) then examine e.1 s else s)
      ((mirrored i s).front.cmds.foldl (fun s c => if fIdx c.desc = i then evalAcquire (flagAt s i).setFc s c else s) (mirrored i s)) := rfl
  rw [steps, acquires _ (fun _ mem => mem), exchanges]

/-- What resetting a slot touches when no command is undecided. -/
def slotParts : List StatePart := .flags :: mirrorParts

section
variable {s : State} (all : AllDecided s)
include all

theorem resetFlag_of_decided (i : Nat) : resetFlag i s = mirrored i (putFlag i { flag0 with setFc := s.clocks.fc } s) :=
  afterUpdate_of_decided (all.of_cmds rfl)

theorem resetFlag_decided_frame (i : Nat) : Frame slotParts s (resetFlag i s) := by
  rw [resetFlag_of_decided all]
  exact .after (mirrored_frame ..) (putFlag_frame ..).mono

theorem flagAt_resetFlag_decided (i n : Nat) :
    flagAt (resetFlag i s) n = if n = i then { flag0 with setFc := s.clocks.fc } else flagAt s n := by
  rw [resetFlag_of_decided all]
  exact (congrArg (tget flag0 · n) ((mirrored_frame ..).get State.flags)).trans (flagAt_putFlag ..)

theorem odv_resetFlag_decided {k l : Nat} (lost : odKey k l ≠ odKey 0x6000 4) (disarms : odKey k l ≠ odKey 0x6100 3) (i : Nat) :
    odv (resetFlag i s) k l = odv s k l := by
  rw [resetFlag_of_decided all]
  exact odv_mirrored lost disarms _

/-- What the reset of every slot keeps. -/
theorem resetFlags_decided : Frame slotParts s (resetFlags s) ∧ odv (resetFlags s) 0x6200 13 = odv s 0x6200 13
    ∧ ∀ f < 4096, flagAt (resetFlags s) f = { flag0 with setFc := s.clocks.fc } := by
  have kept (u : State) (i : Nat) (h : Frame slotParts s u ∧ odv u 0x6200 13 = odv s 0x6200 13) :
      Frame slotParts s (resetFlag i u) ∧ odv (resetFlag i u) 0x6200 13 = odv s 0x6200 13 := by
    have decided : AllDecided u := all.of_cmds (h.1.get fun v => v.front.cmds)
    exact ⟨.after (resetFlag_decided_frame decided i) h.1, (odv_resetFlag_decided decided (by decide) (by decide) i).trans h.2⟩
  have both := foldl_holds (l := List.range 4096) (fun u => Frame slotParts s u ∧ odv u 0x6200 13 = odv s 0x6200 13) ⟨.refl s, rfl⟩
    fun u i h => kept u i h
  refine ⟨both.1, both.2, fun f small => ?_⟩
  have slots (u : State) (i : Nat) (h : Frame slotParts s u ∧ odv u 0x6200 13 = odv s 0x6200 13) :
      flagAt (resetFlag i u) f = if f = i then { flag0 with setFc := s.clocks.fc } else flagAt u f := by
    have clocks : u.clocks = s.clocks := h.1.get State.clocks
    rw [flagAt_resetFlag_decided (all.of_cmds (h.1.get fun v => v.front.cmds)), clocks]
  refine foldl_reaches (fun u => Frame slotParts s u ∧ odv u 0x6200 13 = odv s 0x6200 13) (fun u => flagAt u f = { flag0 with setFc := s.clocks.fc })
    kept (fun u h => ?_) (fun u i h its => ?_) (List.mem_range.mpr small) ⟨.refl s, rfl⟩
  · rw [slots u f h, if_pos rfl]
  · rw [slots u i h, its, ite_self]

end

/-! ### Every command decided at once (R446) -/

theorem writeMeta_store_frame (f v : Nat) (s : State) : Frame storeParts s (writeMeta f v s) := hostWrite_store_frame rfl ..

theorem pushFrame_store_frame (f : Nat) (s : State) : Frame (.paged :: storeParts) s (pushFrame f s) := by
  unfold pushFrame
  split
  · exact .refl s
  · exact .after (dropNote_frame ..) (.after (show Frame [.paged] (writeMeta f _ s) _ from rfl) (writeMeta_store_frame ..).mono)

theorem pushLeaf_store_frame (n : Nat) (s : State) : Frame (.paged :: storeParts) s (pushLeaf n s) :=
  .after (show Frame [.paged] (hostWrite _ _ false .engine false s) _ from rfl) (hostWrite_store_frame rfl ..).mono

theorem returnFrames_store_frame (c : Cmd) (s : State) : Frame (.paged :: storeParts) s (returnFrames c s) := by
  unfold returnFrames
  split
  · exact .refl s
  · exact .foldl (fun _ _ => pushLeaf_store_frame ..) (.foldl (fun _ _ => pushFrame_store_frame ..) (.refl s))

/-- What a decision touches. -/
def decideParts : List StatePart := .cmds :: .paged :: .od :: storeParts

theorem decideCmd_frame (uid status detail : Nat) (s : State) : Frame decideParts s (decideCmd uid status detail s) := by
  unfold decideCmd
  split
  · exact .refl s
  · next c _ =>
    have put (x : Cmd) : Frame decideParts s (putCmd x (returnFrames c s)) := .after (putCmd_frame ..) (returnFrames_store_frame c s).mono
    have told (x : Cmd) (f : Cmd → Cmd) : Frame decideParts s { putCmd x (returnFrames c s) with
        front := { (putCmd x (returnFrames c s)).front with cmds := (putCmd x (returnFrames c s)).front.cmds.map f } } :=
      .after (show Frame [.cmds] _ _ from rfl) (put x)
    exact .after (trace_store_frame ..) (.ite (.after (odBump_frame ..) (told ..)) (told ..))

theorem odv_decideCmd {uid status detail k l : Nat} (traced : odKey k l ≠ odKey 0x7200 6) (counted : odKey k l ≠ odKey 0x3400 3) (s : State) :
    odv (decideCmd uid status detail s) k l = odv s k l := by
  unfold decideCmd
  split
  · rfl
  · next c _ =>
    have returned : odv (returnFrames c s) k l = odv s k l := odv_of_od ((returnFrames_store_frame c s).get State.od) k l
    dsimp only
    rw [odv_trace_other _ _ _ _ _ traced]
    exact ite_holds (fun u : State => odv u k l = odv s k l) ((odv_odBump_other _ counted).trans returned) returned

/-- Every undecided command of `t` has the number of an undecided one of `s`, and `p` holds of the number. -/
def UndecidedFrom (p : Nat → Prop) (s t : State) : Prop :=
  ∀ x ∈ t.front.cmds, x.decided = false → p x.uid ∧ ∃ y ∈ s.front.cmds, y.uid = x.uid ∧ y.decided = false

theorem endCmd_undecided (uid status detail : Nat) (s : State) : UndecidedFrom (fun _ => True) s (endCmd uid status detail s) := by
  have same : UndecidedFrom (fun _ => True) s s := fun x mem open_ => ⟨trivial, x, mem, rfl, open_⟩
  cases found : cmdOf s uid with
  | none =>
    rwa [show endCmd uid status detail s = s by unfold endCmd; rw [found]]
  | some c =>
    cases over_ : (c.decided || c.ending.isSome) with
    | true => rwa [show endCmd uid status detail s = s by unfold endCmd; rw [found]; exact if_pos over_]
    | false =>
      simp only [Bool.or_eq_false_iff, Option.isSome_eq_false_iff, Option.isNone_iff_eq_none] at over_
      unfold UndecidedFrom
      rw [endCmd_cmds found over_.1 over_.2]
      intro x mem open_
      obtain ⟨y, its, rfl⟩ := List.mem_map.mp mem
      refine ⟨trivial, ?_⟩
      by_cases here : y.uid = (endedCmd status detail c).uid
      · rw [if_pos here]
        exact ⟨c, mem_of_cmdOf found, rfl, over_.1⟩
      · rw [if_neg here] at open_ ⊢
        exact ⟨y, its, rfl, open_⟩

theorem decideCmd_undecided (uid status detail : Nat) (s : State) : UndecidedFrom (· ≠ uid) s (decideCmd uid status detail s) := by
  cases found : cmdOf s uid with
  | none =>
    rw [show decideCmd uid status detail s = s by unfold decideCmd; rw [found]]
    intro x mem open_
    refine ⟨fun its => ?_, x, mem, rfl, open_⟩
    obtain ⟨c, named⟩ := cmdOf_isSome_of_mem mem
    rw [its, found] at named
    cases named
  | some c =>
    obtain ⟨told, tells, cmds⟩ := decideCmd_cmds found status detail
    obtain rfl := uid_of_cmdOf found
    unfold UndecidedFrom
    rw [cmds]
    intro x mem open_
    obtain ⟨z, put, rfl⟩ := List.mem_map.mp mem
    obtain ⟨ready, reject, eq⟩ := tells z
    rw [eq] at open_ ⊢
    obtain ⟨y, its, rfl⟩ := List.mem_map.mp put
    by_cases here : y.uid = (decidedCmd c s.clocks.fc status detail).uid
    · rw [if_pos here] at open_
      cases open_
    · rw [if_neg here] at open_ ⊢
      exact ⟨here, y, its, rfl, open_⟩

/-- One command in flight ends and is decided. -/
def abortNow (s : State) (c : Cmd) : State :=
  let s := endCmd c.uid stResetAbort noDetail s
  let e := ((cmdOf s c.uid).bind (·.ending)).getD (stResetAbort, noDetail)
  decideCmd c.uid e.1 e.2 (modCmd c.uid (fun c => { c with writesOut := 0, acksOut := 0 }) s)

theorem endAll_eq (s : State) : endAll s = (s.front.cmds.filter fun c => !c.decided).foldl abortNow s := rfl

theorem abortNow_undecided (c : Cmd) (s : State) : UndecidedFrom (· ≠ c.uid) s (abortNow s c) := by
  intro x mem open_
  obtain ⟨other, y, its, named, open_⟩ := decideCmd_undecided _ _ _ _ x mem open_
  obtain ⟨z, before, rfl⟩ := List.mem_map.mp its
  have record (z : Cmd) : (if z.uid = c.uid then { z with writesOut := 0, acksOut := 0 } else z).uid = z.uid
      ∧ (if z.uid = c.uid then { z with writesOut := 0, acksOut := 0 } else z).decided = z.decided := by
    split <;> exact ⟨rfl, rfl⟩
  obtain ⟨_, w, start, same, undecided⟩ := endCmd_undecided _ _ _ _ z before ((record z).2.symm.trans open_)
  exact ⟨other, w, start, same.trans ((record z).1.symm.trans named), undecided⟩

theorem endAll_decided (s : State) : AllDecided (endAll s) := by
  have fold (l : List Cmd) (u : State) (rest : ∀ x ∈ u.front.cmds, x.decided = false → ∃ c ∈ l, c.uid = x.uid) : AllDecided (l.foldl abortNow u) := by
    induction l generalizing u with
    | nil =>
      intro x mem
      by_contra open_
      obtain ⟨c, none, _⟩ := rest x mem (by simpa using open_)
      cases none
    | cons c l ih =>
      refine ih _ fun x mem open_ => ?_
      obtain ⟨other, y, its, named, undecided⟩ := abortNow_undecided c u x mem open_
      obtain ⟨d, later, same⟩ := rest y its undecided
      obtain rfl | later := List.mem_cons.mp later
      · exact absurd (same.trans named).symm other
      · exact ⟨d, later, same.trans named⟩
  rw [endAll_eq]
  exact fold _ s fun x mem open_ => ⟨x, List.mem_filter.mpr ⟨mem, by simp [open_]⟩, rfl⟩

/-- What the end of every command touches. -/
def endAllParts : List StatePart := [.cmds, .items, .blocks, .regions, .e2e, .localRels, .paged, .od, .mem, .memPoison, .ports, .fresh]

theorem endAll_frame (s : State) : Frame endAllParts s (endAll s) :=
  .foldl (fun _ _ => .after (decideCmd_frame ..) (.after (modCmd_frame ..) (endCmd_frame' ..).mono)) (.refl s)

theorem abortNow_sameRetired (c : Cmd) (s : State) : SameRetired s (abortNow s c) := by
  have decides (status detail : Nat) (u : State) : SameRetired u (decideCmd c.uid status detail u) :=
    .of_blocks ((decideCmd_frame ..).get State.blocks)
  have clears (f : Cmd → Cmd) (u : State) : SameRetired u (modCmd c.uid f u) := .of_blocks rfl
  exact .after (decides ..) (.after (clears ..) (endCmd_sameRetired ..))

theorem endAll_sameRetired (s : State) : SameRetired s (endAll s) := .foldl (fun u c => abortNow_sameRetired c u) (.refl s)

theorem odv_abortNow {k l : Nat} (traced : odKey k l ≠ odKey 0x7200 6) (counted : odKey k l ≠ odKey 0x3400 3) (c : Cmd) (s : State) :
    odv (abortNow s c) k l = odv s k l := by
  have clears (f : Cmd → Cmd) (u : State) : odv (modCmd c.uid f u) k l = odv u k l := rfl
  have ended : (endCmd c.uid stResetAbort noDetail s).od = s.od := (endCmd_frame' ..).get State.od
  unfold abortNow
  dsimp only
  rw [odv_decideCmd traced counted, clears, odv_of_od ended]

theorem odv_endAll {k l : Nat} (traced : odKey k l ≠ odKey 0x7200 6) (counted : odKey k l ≠ odKey 0x3400 3) (s : State) :
    odv (endAll s) k l = odv s k l :=
  foldl_holds (fun u : State => odv u k l = odv s k l) rfl fun u c kept => (odv_abortNow traced counted c u).trans kept

end Sys2Proof.Machine
end

section
/-! The reset of a region and of the apex, and the statement on their recoveries (chapter 15). -/

namespace Sys2Proof.Machine

-- one proof at a time, for the memory that the check allows
set_option Elab.async false

/-! ### The reset of a region (R445) -/

/-- A block of the region in reset. -/
def blockIntoReset (s : State) (b : Nat) : State :=
  if (blockAt s b).retired then s else modBlock b (fun x => { x with inReset := true }) (resetBlock b s)

/-- A region without work, in reset. -/
def regionCleared (x : Region) : Region := { region0 with inReset := true, lastTest := x.lastTest, lastScrub := x.lastScrub, testNext := x.testNext }

/-- The state whose promotions of a region run again. -/
def promotionsUndone (r : Nat) (s : State) : State := { s with front := { s.front with cmds := s.front.cmds.map (undoPromotion s r) } }

theorem resetRegion_eq (r : Nat) (s : State) : resetRegion r s =
    modRegion r regionCleared (((List.range 40).map fun i => 40 * r + i).foldl blockIntoReset (promotionsUndone r s)) := rfl

theorem undoPromotion_keeps (s : State) (r : Nat) (c : Cmd) :
    (undoPromotion s r c).uid = c.uid ∧ (undoPromotion s r c).decided = c.decided ∧ (undoPromotion s r c).ending = c.ending := by
  unfold undoPromotion
  split
  · split
    · split <;> exact ⟨rfl, rfl, rfl⟩
    · exact ⟨rfl, rfl, rfl⟩
  · exact ⟨rfl, rfl, rfl⟩

/-- What the reset of blocks touches. -/
def blockResetParts : List StatePart := [.ports, .links, .sp, .spPoison, .blocks, .regions]

theorem blockIntoReset_frame (s : State) (b : Nat) : Frame blockResetParts s (blockIntoReset s b) :=
  .ite (.refl s) (.after (modBlock_frame ..) (resetBlock_frame ..))

theorem blockAt_blockIntoReset (s : State) (b n : Nat) : blockAt (blockIntoReset s b) n =
    if n = b then (if (blockAt s n).retired then blockAt s n else { clearedBlock (blockAt s n) with inReset := true }) else blockAt s n := by
  unfold blockIntoReset
  by_cases here : n = b
  · subst here
    rw [if_pos rfl]
    split
    · rfl
    · rw [blockAt_modBlock, if_pos rfl, blockAt_resetBlock, if_pos rfl]
  · rw [if_neg here]
    split
    · rfl
    · rw [blockAt_modBlock, if_neg here, blockAt_resetBlock, if_neg here]

theorem blockIntoReset_sameRetired (s : State) (b : Nat) : SameRetired s (blockIntoReset s b) :=
  .ite (.refl s) (.after (modBlock_sameRetired ..) (resetBlock_sameRetired ..))

theorem resetBlock_sameSt (b : Nat) (s : State) : SameSt s (resetBlock b s) := by
  unfold resetBlock
  dsimp only
  have stalled (l : List MemReq) (v : State) : (l.foldl (fun s q => enqueue q s) v).links = v.links :=
    (show Frame [.ports] v (l.foldl (fun s q => enqueue q s) v) from .foldl (fun _ _ => rfl) (.refl v)).get State.links
  refine ⟨fun q => ?_⟩
  refine (tget_map_of (g := LinkPort.st) (f := fun _ l => { l with packets := l.packets.map _ }) (fun _ _ => rfl) link0 _ q).trans ?_
  rw [stalled]
  rfl

theorem blockIntoReset_sameSt (s : State) (b : Nat) : SameSt s (blockIntoReset s b) :=
  .ite (.refl s) (.trans (resetBlock_sameSt b s) (.of_links rfl))

theorem resetRegion_frame (r : Nat) (s : State) : Frame (.cmds :: blockResetParts) s (resetRegion r s) := by
  rw [resetRegion_eq]
  exact .after (modRegion_frame ..) (.foldl (fun u b => (blockIntoReset_frame u b).mono) (show Frame [.cmds] s (promotionsUndone r s) from rfl).mono)

theorem resetRegion_cmds (r : Nat) (s : State) : (resetRegion r s).front.cmds = s.front.cmds.map (undoPromotion s r) := by
  have blocks (l : List Nat) (u : State) : (l.foldl blockIntoReset u).front.cmds = u.front.cmds :=
    (show Frame blockResetParts u (l.foldl blockIntoReset u) from .foldl blockIntoReset_frame (.refl u)).get fun v => v.front.cmds
  have region (u : State) : (modRegion r regionCleared u).front.cmds = u.front.cmds := rfl
  rw [resetRegion_eq, region, blocks]
  rfl

theorem resetRegion_sameRetired (r : Nat) (s : State) : SameRetired s (resetRegion r s) := by
  rw [resetRegion_eq]
  have region (u : State) : SameRetired u (modRegion r regionCleared u) := .of_blocks rfl
  have undone : SameRetired s (promotionsUndone r s) := .of_blocks rfl
  exact .after (region _) (.foldl blockIntoReset_sameRetired undone)

theorem resetRegion_sameSt (r : Nat) (s : State) : SameSt s (resetRegion r s) := by
  rw [resetRegion_eq]
  have region (u : State) : SameSt u (modRegion r regionCleared u) := .of_links rfl
  have undone : SameSt s (promotionsUndone r s) := .of_links rfl
  exact .trans undone (.trans (.foldl blockIntoReset_sameSt) (region _))

theorem regionAt_resetRegion (r : Nat) (s : State) : ∃ x, regionAt (resetRegion r s) r = regionCleared x := by
  rw [resetRegion_eq, regionAt_modRegion, if_pos rfl]
  exact ⟨_, rfl⟩

/-- The blocks of the region that are not retired hold no work and are in reset. -/
theorem blockAt_resetRegion {r j : Nat} {s : State} (small : j < 40) (serves : (blockAt s (40 * r + j)).retired = false) :
    (blockAt (resetRegion r s) (40 * r + j)).inReset = true ∧ (blockAt (resetRegion r s) (40 * r + j)).job = none
    ∧ (blockAt (resetRegion r s) (40 * r + j)).feed = [] := by
  have region (u : State) (n : Nat) : blockAt (modRegion r regionCleared u) n = blockAt u n := rfl
  rw [resetRegion_eq]
  simp only [region]
  have once (u : State) (hu : (blockAt u (40 * r + j)).retired = false) :
      blockAt (blockIntoReset u (40 * r + j)) (40 * r + j) = { clearedBlock (blockAt u (40 * r + j)) with inReset := true } := by
    rw [blockAt_blockIntoReset, if_pos rfl, hu]
    rfl
  refine foldl_reaches (fun u => (blockAt u (40 * r + j)).retired = false)
    (fun u => (blockAt u (40 * r + j)).inReset = true ∧ (blockAt u (40 * r + j)).job = none ∧ (blockAt u (40 * r + j)).feed = [])
    (fun u b hu => ((blockIntoReset_sameRetired u b).at_ _).trans hu) (fun u hu => ?_) (fun u b hu its => ?_)
    (List.mem_map.mpr ⟨j, List.mem_range.mpr small, rfl⟩) serves
  · rw [once u hu]
    exact ⟨rfl, rfl, rfl⟩
  · by_cases here : 40 * r + j = b
    · subst here
      rw [once u hu]
      exact ⟨rfl, rfl, rfl⟩
    · rw [blockAt_blockIntoReset, if_neg here]
      exact its

/-! ### Batches -/

theorem chunks_mem {α : Type} {n : Nat} (some_ : 0 < n) {l : List α} (full : l ≠ []) : ∃ c ∈ chunks n l, c ≠ [] := by
  refine ⟨(l.drop (n * 0)).take n, List.mem_map.mpr ⟨0, List.mem_range.mpr ?_, rfl⟩, ?_⟩
  · have long : 0 < l.length := List.length_pos_of_ne_nil full
    unfold ceilDiv
    exact Nat.div_pos (by omega) (by omega)
  · simp only [Nat.mul_zero, List.drop_zero]
    rw [Ne, List.take_eq_nil_iff]
    exact not_or.mpr ⟨by omega, full⟩

/-- A block in service gives a first batch. -/
theorem batchesOf_cons {s : State} {n b : Nat} {bs : List Nat} (some_ : 0 < n) (mem : b ∈ bs) (serves : (blockAt s b).retired = false) :
    ∃ l rest, batchesOf s n bs = l :: rest := by
  have full : bs.filter (fun b => !(blockAt s b).retired) ≠ [] :=
    List.ne_nil_of_mem (List.mem_filter.mpr ⟨mem, by simp [serves]⟩)
  obtain ⟨c, its, filled⟩ := chunks_mem some_ full
  refine List.exists_cons_of_ne_nil (List.ne_nil_of_mem (a := c) (List.mem_filter.mpr ⟨its, ?_⟩))
  cases c with
  | nil => exact absurd rfl filled
  | cons => rfl

/-! ### Early ends of the commands of a region -/

theorem cmdOf_endCmd_other {uid v status detail : Nat} (other : uid ≠ v) (s : State) : cmdOf (endCmd v status detail s) uid = cmdOf s uid := by
  cases found : cmdOf s v with
  | none => rw [show endCmd v status detail s = s by unfold endCmd; rw [found]]
  | some c =>
    cases over_ : (c.decided || c.ending.isSome) with
    | true => rw [show endCmd v status detail s = s by unfold endCmd; rw [found]; exact if_pos over_]
    | false =>
      simp only [Bool.or_eq_false_iff, Option.isSome_eq_false_iff, Option.isNone_iff_eq_none] at over_
      obtain rfl := uid_of_cmdOf found
      rw [cmdOf_of_cmds (endCmd_cmds found over_.1 over_.2)]
      have mapped := cmdOf_map (s := s) (t := putCmd (endedCmd status detail c) s)
        (f := fun x => if x.uid = (endedCmd status detail c).uid then { endedCmd status detail c with desc := x.desc } else x)
        (fun x => by split <;> simp_all) rfl uid
      rw [mapped]
      cases here : cmdOf s uid with
      | none => rfl
      | some x =>
        have named : x.uid ≠ (endedCmd status detail c).uid := by
          rw [uid_of_cmdOf here]
          exact other
        rw [Option.map_some, if_neg named]

/-- A plain command among those that end is ended by the reset. -/
theorem resetAbort_of_mem {s : State} {c : Cmd} {l : List Cmd} (found : cmdOf s c.uid = some c) (mem : c ∈ l) (undecided : c.decided = false)
    (going : c.ending = none) (plain : c.reject = none) :
    ∃ x, cmdOf (l.foldl (fun s c => endCmd c.uid stResetAbort noDetail s) s) c.uid = some x ∧ x.ending = some (stResetAbort, noDetail) := by
  have step (u : State) (d x : Cmd) (its : cmdOf u c.uid = some x) (open_ : x.decided = false) (clean : x.reject = none)
      (state : x.ending = none ∨ x.ending = some (stResetAbort, noDetail)) :
      ∃ y, cmdOf (endCmd d.uid stResetAbort noDetail u) c.uid = some y ∧ y.decided = false ∧ y.reject = none
        ∧ (y.ending = x.ending ∨ y.ending = some (stResetAbort, noDetail)) ∧ (d = c → y.ending = some (stResetAbort, noDetail)) := by
    by_cases same : c.uid = d.uid
    · rw [← same]
      obtain going | ended := state
      · refine ⟨_, cmdOf_endCmd its open_ going, open_, clean, .inr ?_, fun _ => ?_⟩ <;> simp [endedCmd, clean]
      · refine ⟨x, ?_, open_, clean, .inr ended, fun _ => ended⟩
        rwa [show endCmd c.uid stResetAbort noDetail u = u by unfold endCmd; rw [its]; exact if_pos (by simp [ended])]
    · refine ⟨x, by rwa [cmdOf_endCmd_other same], open_, clean, .inl rfl, ?_⟩
      rintro rfl
      exact absurd rfl same
  refine foldl_reaches (fun u => ∃ x, cmdOf u c.uid = some x ∧ x.decided = false ∧ x.reject = none
      ∧ (x.ending = none ∨ x.ending = some (stResetAbort, noDetail)))
    (fun u => ∃ x, cmdOf u c.uid = some x ∧ x.ending = some (stResetAbort, noDetail)) ?keep ?reach ?stay mem ⟨c, found, undecided, plain, .inl going⟩
  case keep =>
    rintro u d ⟨x, its, open_, clean, state⟩
    obtain ⟨y, its', open', clean', state', _⟩ := step u d x its open_ clean state
    exact ⟨y, its', open', clean', state'.elim (fun same => by rwa [same]) .inr⟩
  case reach =>
    rintro u ⟨x, its, open_, clean, state⟩
    obtain ⟨y, its', _, _, _, ended⟩ := step u c x its open_ clean state
    exact ⟨y, its', ended rfl⟩
  case stay =>
    rintro u d ⟨x, its, open_, clean, state⟩ ⟨z, same, ended⟩
    obtain rfl := Option.some.inj (its.symm.trans same)
    obtain ⟨y, its', _, _, state', _⟩ := step u d x its open_ clean state
    exact ⟨y, its', state'.elim (fun same => same.trans ended) id⟩

/-! ### The recovery of a region -/

/-- The commands that a region's recovery ends. -/
def regionUsers (s : State) (g : Nat) : List Cmd := s.front.cmds.filter fun c => !c.decided && c.ending.isNone && usesRegion s g c

/-- They end, and the region is reset and counted. -/
def regionEmptied (r : Recovery) (s : State) : State :=
  odBump 0x6200 12 1 (resetRegion r.unit (noteEnded r.entry (regionUsers s r.unit).length false
    ((regionUsers s r.unit).foldl (fun s c => endCmd c.uid stResetAbort noDetail s) s)))

theorem regionRecovery_eq (r : Recovery) (s : State) : regionRecovery r s =
    nextBatch { r with begun := true, batches := batchesOf (regionEmptied r s) 10 ((List.range 40).map fun i => 40 * r.unit + i) }
      (regionEmptied r s) := rfl

theorem usersEnded_frame (l : List Cmd) (s : State) : Frame endParts s (l.foldl (fun s c => endCmd c.uid stResetAbort noDetail s) s) :=
  .foldl (fun _ _ => endCmd_frame' ..) (.refl s)

theorem regionEmptied_frame (r : Recovery) (s : State) :
    Frame [.cmds, .items, .e2e, .localRels, .log, .od, .ports, .links, .sp, .spPoison, .blocks, .regions] s (regionEmptied r s) :=
  .after (odBump_frame ..) (.after (resetRegion_frame ..) (.after (noteEnded_frame ..) (usersEnded_frame ..).mono))

theorem regionEmptied_sameRetired (r : Recovery) (s : State) : SameRetired s (regionEmptied r s) := by
  have users : SameRetired s ((regionUsers s r.unit).foldl (fun s c => endCmd c.uid stResetAbort noDetail s) s) :=
    .foldl (fun _ _ => endCmd_sameRetired ..) (.refl s)
  have noted (n : Nat) (u : State) : SameRetired u (noteEnded r.entry n false u) := .of_blocks rfl
  have counted (u : State) : SameRetired u (odBump 0x6200 12 1 u) := .of_blocks rfl
  exact .after (counted _) (.after (resetRegion_sameRetired ..) (.after (noted ..) users))

theorem odv_regionEmptied (r : Recovery) (s : State) : odv (regionEmptied r s) 0x6200 12 = (odv s 0x6200 12 + 1) % 2 ^ 32 := by
  have counted (u : State) (same : u.od = s.od) : odv (odBump 0x6200 12 1 u) 0x6200 12 = (odv s 0x6200 12 + 1) % 2 ^ 32 := by
    rw [odv_odBump_same (w := 32) _ (by decide), odv_of_od same]
  have noted (n : Nat) (u : State) : (noteEnded r.entry n false u).od = u.od := rfl
  have reset (u : State) : (resetRegion r.unit u).od = u.od := by
    have frame := resetRegion_frame r.unit u
    generalize resetRegion r.unit u = t at frame ⊢
    exact frame.get State.od
  have users : ((regionUsers s r.unit).foldl (fun s c => endCmd c.uid stResetAbort noDetail s) s).od = s.od := (usersEnded_frame ..).get State.od
  exact counted _ ((reset _).trans ((noted ..).trans users))

/-- The commands with work in the region end, and the region is empty and in reset. -/
theorem regionRecovery_spec {g i : Nat} {r : Recovery} {s : State} (region : r.unit = g) (small : i < 40)
    (serves : (blockAt s (40 * g + i)).retired = false) :
    (regionRecovery r s).pending = s.pending ∧ (regionRecovery r s).mem = s.mem ∧ (regionRecovery r s).flags = s.flags
    ∧ odv (regionRecovery r s) 0x6200 12 = (odv s 0x6200 12 + 1) % 2 ^ 32
    ∧ (∃ x, regionAt (regionRecovery r s) g = regionCleared x)
    ∧ (∀ j < 40, (blockAt s (40 * g + j)).retired = false → (blockAt (regionRecovery r s) (40 * g + j)).inReset = true
        ∧ (blockAt (regionRecovery r s) (40 * g + j)).job = none ∧ (blockAt (regionRecovery r s) (40 * g + j)).feed = [])
    ∧ ∀ c, cmdOf s c.uid = some c → c.decided = false → c.ending = none → c.reject = none → usesRegion s g c = true →
        ∃ x, cmdOf (regionRecovery r s) c.uid = some x ∧ x.ending = some (stResetAbort, noDetail) := by
  subst region
  have remains (b : Nat) : (blockAt (regionEmptied r s) b).retired = (blockAt s b).retired := (regionEmptied_sameRetired r s).at_ b
  obtain ⟨l, rest, batches⟩ := batchesOf_cons (s := regionEmptied r s) (n := 10) (bs := (List.range 40).map fun i => 40 * r.unit + i) (by decide)
    (List.mem_map.mpr ⟨i, List.mem_range.mpr small, rfl⟩) ((remains _).trans serves)
  have steps := regionRecovery_eq r s
  rw [batches] at steps
  have first : ({ r with begun := true, batches := l :: rest } : Recovery).batches = l :: rest := rfl
  have count := odv_regionEmptied r s
  have emptied := regionEmptied_frame r s
  have next := nextBatch_frame first (regionEmptied r s)
  have blocks (b : Nat) := blockAt_nextBatch first (regionEmptied r s) b
  have region : ∃ x, regionAt (regionEmptied r s) r.unit = regionCleared x := by
    have counted (u : State) : regionAt (odBump 0x6200 12 1 u) r.unit = regionAt u r.unit := rfl
    unfold regionEmptied
    rw [counted]
    exact regionAt_resetRegion r.unit _
  have users : (∀ j < 40, (blockAt s (40 * r.unit + j)).retired = false → (blockAt (regionEmptied r s) (40 * r.unit + j)).inReset = true
      ∧ (blockAt (regionEmptied r s) (40 * r.unit + j)).job = none ∧ (blockAt (regionEmptied r s) (40 * r.unit + j)).feed = []) := by
    intro j bound alive
    have counted (u : State) (n : Nat) : blockAt (odBump 0x6200 12 1 u) n = blockAt u n := rfl
    unfold regionEmptied
    rw [counted]
    refine blockAt_resetRegion (s := noteEnded r.entry (regionUsers s r.unit).length false _) bound ?_
    exact ((SameRetired.foldl (fun _ _ => endCmd_sameRetired ..) (.refl s)).at_ _).trans alive
  have ended : ∀ c, cmdOf s c.uid = some c → c.decided = false → c.ending = none → c.reject = none → usesRegion s r.unit c = true →
      ∃ x, cmdOf (regionEmptied r s) c.uid = some x ∧ x.ending = some (stResetAbort, noDetail) := by
    intro c found undecided going plain uses
    obtain ⟨x, its, state⟩ := resetAbort_of_mem (l := regionUsers s r.unit) found
      (List.mem_filter.mpr ⟨mem_of_cmdOf found, by simp [undecided, going, uses]⟩) undecided going plain
    have mapped := cmdOf_map (fun y => (undoPromotion_keeps _ r.unit y).1)
      (resetRegion_cmds r.unit (noteEnded r.entry (regionUsers s r.unit).length false
        ((regionUsers s r.unit).foldl (fun s c => endCmd c.uid stResetAbort noDetail s) s))) c.uid
    have counted (u : State) (n : Nat) : cmdOf (odBump 0x6200 12 1 u) n = cmdOf u n := rfl
    unfold regionEmptied
    rw [counted, mapped]
    refine ⟨_, congrArg (Option.map _) its, ?_⟩
    rw [(undoPromotion_keeps ..).2.2]
    exact state
  generalize regionEmptied r s = u at *
  rw [steps]
  refine ⟨(next.get State.pending).trans (emptied.get State.pending), (next.get State.mem).trans (emptied.get State.mem),
    (next.get State.flags).trans (emptied.get State.flags), (odv_of_od (next.get State.od) ..).trans count, ?_, fun j bound alive => ?_,
    fun c found undecided going plain uses => ?_⟩
  · obtain ⟨x, its⟩ := region
    exact ⟨x, (congrArg (tget region0 · r.unit) (next.get State.regions)).trans its⟩
  · rw [blocks]
    split
    · exact users j bound alive
    · exact users j bound alive
  · obtain ⟨x, its, state⟩ := ended c found undecided going plain uses
    exact ⟨x, (cmdOf_of_cmds (next.get fun t => t.front.cmds) _).trans its, state⟩

/-! ### The warm reset (R446) -/

/-- A port that carried traffic or trained is lost. -/
def portReset (s : State) (p : Nat) : State := if [1, 2, 4].contains (linkAt s p).st then portLost p s else s

def portsReset (s : State) : State := (List.range 6).foldl portReset s

/-- Every command decided, and its end noted. -/
def commandsGone (r : Recovery) (s : State) : State := noteEnded r.entry (s.front.cmds.filter fun c => !c.decided).length false (endAll s)

/-- The traffic, the flags and the requests of `v` dropped. -/
def slotsGone (v : State) : State := discardRequests (resetFlags (dropTraffic v))

/-- The warm reset up to the regions. -/
def trafficGone (r : Recovery) (s : State) : State := slotsGone (portsReset (commandsGone r s))

/-- The warm reset up to its tests. -/
def apexCleared (r : Recovery) (s : State) : State :=
  restartDictionary ((presentRegions (trafficGone r s)).foldl (fun s g => resetRegion g s) (trafficGone r s))

theorem warmReset_eq (r : Recovery) (s : State) : warmReset r s =
    nextBatch { r with begun := true, batches := batchesOf (apexCleared r s) 40 (presentBlocks (apexCleared r s)) } (apexCleared r s) := rfl

/-- What the loss of the ports touches. -/
def lossParts : List StatePart := .queues :: .armed :: .od :: portParts

theorem portReset_frame (s : State) (p : Nat) : Frame lossParts s (portReset s p) := .ite (portLost_frame ..) (.refl s)

theorem portsReset_frame (s : State) : Frame lossParts s (portsReset s) := .foldl portReset_frame (.refl s)

theorem portsReset_sameRetired (s : State) : SameRetired s (portsReset s) :=
  .foldl (fun u p => .ite (portLost_sameRetired p u) (.refl u)) (.refl s)

theorem portsReset_decided {s : State} (all : AllDecided s) : AllDecided (portsReset s) :=
  foldl_holds AllDecided all fun u p kept => ite_holds AllDecided (kept.of_cmds (portLost_cmds kept p)) kept

theorem st_portReset (s : State) (p q : Nat) :
    (linkAt (portReset s p) q).st = if q = p ∧ (linkAt s q).st ∈ [1, 2, 4] then 3 else (linkAt s q).st := by
  unfold portReset
  by_cases here : q = p
  · subst here
    by_cases carried : (linkAt s q).st ∈ [1, 2, 4]
    · rw [if_pos (List.contains_iff_mem.mpr carried), if_pos ⟨rfl, carried⟩, st_portLost, if_pos rfl]
    · rw [if_neg (by rwa [List.contains_iff_mem]), if_neg (by simp [carried])]
  · have apart : ¬ (q = p ∧ (linkAt s q).st ∈ [1, 2, 4]) := fun both => here both.1
    rw [if_neg apart]
    split
    · rw [st_portLost, if_neg here]
    · rfl

theorem st_portsReset {s : State} {p : Nat} (port : p < 6) (carried : (linkAt s p).st ∈ [1, 2, 4]) : (linkAt (portsReset s) p).st = 3 := by
  refine foldl_reaches (fun u => (linkAt u p).st = (linkAt s p).st ∨ (linkAt u p).st = 3) (fun u => (linkAt u p).st = 3)
    (fun u q h => ?_) (fun u h => ?_) (fun u q _ lost => ?_) (List.mem_range.mpr port) (.inl rfl)
  · rw [st_portReset]
    split
    · exact .inr rfl
    · exact h
  · rw [st_portReset]
    obtain same | lost := h
    · rw [if_pos ⟨rfl, by rwa [same]⟩]
    · rw [lost]
      exact ite_self 3
  · rw [st_portReset, lost]
    exact ite_self 3

theorem odv_portLost_other {p k l : Nat} (bound : p < 6) (lost : odKey k l ≠ odKey 0x6000 4) (disarms : odKey k l ≠ odKey 0x6100 3)
    (counted : ∀ q < 6, odKey k l ≠ odKey 0x4010 (0xD0 + q)) (s : State) : odv (portLost p s) k l = odv s k l := by
  have quiet : odv (if (fires 0x32 p s).isSome then disarm 0x32 p s else s) k l = odv s k l :=
    ite_holds (fun u : State => odv u k l = odv s k l) (odv_disarm_other disarms s) rfl
  unfold portLost
  dsimp only
  rw [odv_report_other lost, odv_odBump_other _ (counted p bound), odv_of_od (od_portDrop ..), quiet]

theorem odv_portsReset (s : State) : odv (portsReset s) 0x6200 13 = odv s 0x6200 13 := by
  have step (l : List Nat) (bound : ∀ p ∈ l, p < 6) (u : State) : odv (l.foldl portReset u) 0x6200 13 = odv u 0x6200 13 := by
    induction l generalizing u with
    | nil => rfl
    | cons p l ih =>
      rw [List.foldl_cons, ih fun q mem => bound q (List.mem_cons_of_mem _ mem)]
      exact ite_holds (fun v : State => odv v 0x6200 13 = odv u 0x6200 13)
        (odv_portLost_other (bound p (List.mem_cons_self ..)) (by decide) (by decide) (by decide) u) rfl
  exact step _ (fun p mem => List.mem_range.mp mem) s

theorem commandsGone_spec (r : Recovery) (s : State) : Frame (.log :: endAllParts) s (commandsGone r s) ∧ AllDecided (commandsGone r s)
    ∧ odv (commandsGone r s) 0x6200 13 = odv s 0x6200 13 ∧ SameRetired s (commandsGone r s) := by
  have noted (n : Nat) (u : State) : (noteEnded r.entry n false u).front = u.front ∧ (noteEnded r.entry n false u).od = u.od
      ∧ (noteEnded r.entry n false u).blocks = u.blocks := ⟨rfl, rfl, rfl⟩
  unfold commandsGone
  obtain ⟨front, od, blocks⟩ := noted (s.front.cmds.filter fun c => !c.decided).length (endAll s)
  refine ⟨.after (noteEnded_frame ..) (endAll_frame s).mono, (endAll_decided s).of_cmds (by rw [front]), ?_, .after (.of_blocks blocks) (endAll_sameRetired s)⟩
  rw [odv_of_od od, odv_endAll (by decide) (by decide)]

/-- What stands when traffic and flags are gone. -/
structure TrafficGone (s t : State) : Prop where
  decided : AllDecided t
  remote : t.remoteRels = []
  locals : t.localRels = []
  acks : t.acks = []
  e2e : t.e2e = []
  items : t.front.items = []
  boot : t.boot = s.boot
  mgmt : t.mgmt = s.mgmt
  recov : t.rel.recov = s.rel.recov
  queue : t.pending = s.pending
  count : odv t 0x6200 13 = odv s 0x6200 13
  flags : ∀ f < 4096, flagAt t f = { flag0 with setFc := s.clocks.fc }
  lost : ∀ p < 6, (linkAt s p).st ∈ [1, 2, 4] → (linkAt t p).st = 3
  retired : SameRetired s t

theorem dropTraffic_frame (s : State) : Frame [.localRels, .remoteRels, .acks, .e2e, .items] s (dropTraffic s) := rfl

theorem dropTraffic_bare (s : State) : (dropTraffic s).localRels = [] ∧ (dropTraffic s).remoteRels = [] ∧ (dropTraffic s).acks = []
    ∧ (dropTraffic s).e2e = [] ∧ (dropTraffic s).front.items = [] := ⟨rfl, rfl, rfl, rfl, rfl⟩

theorem discardRequests_frame (s : State) : Frame [.ports, .paged] s (discardRequests s) := rfl

theorem discardRequests_kept (s : State) : (discardRequests s).od = s.od ∧ (discardRequests s).flags = s.flags := ⟨rfl, rfl⟩

/-- What that touches. -/
def goneParts : List StatePart := .ports :: .paged :: .localRels :: .remoteRels :: .acks :: .e2e :: .items :: slotParts

theorem slotsGone_spec {v : State} (all : AllDecided v) : Frame goneParts v (slotsGone v)
    ∧ ((slotsGone v).localRels = [] ∧ (slotsGone v).remoteRels = [] ∧ (slotsGone v).acks = [] ∧ (slotsGone v).e2e = []
        ∧ (slotsGone v).front.items = [])
    ∧ odv (slotsGone v) 0x6200 13 = odv v 0x6200 13 ∧ ∀ f < 4096, flagAt (slotsGone v) f = { flag0 with setFc := v.clocks.fc } := by
  unfold slotsGone
  have bare := dropTraffic_bare v
  have dropped := dropTraffic_frame v
  generalize dropTraffic v = d at bare dropped ⊢
  obtain ⟨slots, bumped, flags⟩ := resetFlags_decided (all.of_cmds (dropped.get fun t => t.front.cmds))
  generalize resetFlags d = w at slots bumped flags ⊢
  have discards := discardRequests_frame w
  obtain ⟨od, same⟩ := discardRequests_kept w
  generalize discardRequests w = t at discards od same ⊢
  have frame : Frame (.ports :: .paged :: slotParts) d t := .after discards slots.mono
  obtain ⟨locals, remote, acks, e2e, items⟩ := bare
  have fc : d.clocks.fc = v.clocks.fc := dropped.get fun t => t.clocks.fc
  refine ⟨.after frame dropped.mono, ⟨(frame.get State.localRels).trans locals, (frame.get State.remoteRels).trans remote,
    (frame.get State.acks).trans acks, (frame.get State.e2e).trans e2e, (frame.get fun t => t.front.items).trans items⟩, ?_, fun f small => ?_⟩
  · have od' : d.od = v.od := dropped.get State.od
    rw [odv_of_od od, bumped, odv_of_od od']
  · rw [show flagAt t f = flagAt w f from congrArg (tget flag0 · f) same, flags f small, fc]

theorem trafficGone_spec (r : Recovery) (s : State) : TrafficGone s (trafficGone r s) := by
  obtain ⟨gone, decided, count, serves⟩ := commandsGone_spec r s
  unfold trafficGone
  generalize commandsGone r s = u at *
  have ports := portsReset_frame u
  have decided' := portsReset_decided decided
  have count' := (odv_portsReset u).trans count
  have serves' : SameRetired s (portsReset u) := .after (portsReset_sameRetired u) serves
  have links : u.links = s.links := gone.get State.links
  have lost : ∀ p < 6, (linkAt s p).st ∈ [1, 2, 4] → (linkAt (portsReset u) p).st = 3 := fun p port carried =>
    st_portsReset port (by rwa [show linkAt u p = linkAt s p from congrArg (tget link0 · p) links])
  generalize portsReset u = v at *
  have fc : v.clocks.fc = s.clocks.fc := (ports.get fun t => t.clocks.fc).trans (gone.get fun t => t.clocks.fc)
  have boot : v.boot = s.boot := (ports.get State.boot).trans (gone.get State.boot)
  have mgmt : v.mgmt = s.mgmt := (ports.get State.mgmt).trans (gone.get State.mgmt)
  have recov : v.rel.recov = s.rel.recov := (ports.get fun t => t.rel.recov).trans (gone.get fun t => t.rel.recov)
  have queue : v.pending = s.pending := (ports.get State.pending).trans (gone.get State.pending)
  obtain ⟨frame, ⟨locals, remote, acks, e2e, items⟩, bumped, flags⟩ := slotsGone_spec decided'
  generalize slotsGone v = t at *
  have blocks : t.blocks = v.blocks := frame.keeps State.blocks
  exact {
    decided := decided'.of_cmds (frame.keeps fun t => t.front.cmds)
    remote := remote
    locals := locals
    acks := acks
    e2e := e2e
    items := items
    boot := (frame.keeps State.boot).trans boot
    mgmt := (frame.keeps State.mgmt).trans mgmt
    recov := (frame.keeps fun t => t.rel.recov).trans recov
    queue := (frame.keeps State.pending).trans queue
    count := bumped.trans count'
    flags := fun f small => by rw [flags f small, fc]
    lost := fun p port carried => (frame.keeps fun t => (linkAt t p).st).trans (lost p port carried)
    retired := .after (.of_blocks blocks) serves' }

/-- What the reset of the regions keeps. -/
structure RegionsReset (s t : State) : Prop where
  frame : Frame (.cmds :: blockResetParts) s t
  decided : AllDecided s → AllDecided t
  retired : SameRetired s t
  st : SameSt s t

theorem regionsReset_spec (l : List Nat) (s : State) : RegionsReset s (l.foldl (fun s g => resetRegion g s) s) :=
  foldl_holds (RegionsReset s) ⟨.refl s, id, .refl s, .refl s⟩ fun u g h => {
    frame := .after (resetRegion_frame g u) h.frame
    decided := fun all c mem => by
      rw [resetRegion_cmds] at mem
      obtain ⟨x, its, rfl⟩ := List.mem_map.mp mem
      exact (undoPromotion_keeps u g x).2.1.trans (h.decided all x its)
    retired := .after (resetRegion_sameRetired g u) h.retired
    st := h.st.trans (resetRegion_sameSt g u) }

theorem restartDictionary_spec (s : State) : Frame [.mgmt, .od, .noAuto] s (restartDictionary s) ∧ (restartDictionary s).mgmt.st = 0
    ∧ (restartDictionary s).mgmt.recovering = true ∧ (restartDictionary s).mgmt.stopPending = false ∧ (restartDictionary s).rel.noAuto = false
    ∧ odv (restartDictionary s) 0x6200 13 = (odv s 0x6200 13 + 1) % 2 ^ 32 := by
  let u : State := { s with mgmt := { s.mgmt with stopPending := false, recovering := true }, rel := { s.rel with noAuto := false } }
  have steps : restartDictionary s = odBump 0x6200 13 1 (setSt 0 u) := rfl
  have before : Frame [.mgmt, .noAuto] s u := rfl
  have rel : (setSt 0 u).rel = u.rel := (setSt_frame ..).get State.rel
  have mgmt : (setSt 0 u).mgmt.stopPending = u.mgmt.stopPending ∧ (setSt 0 u).mgmt.recovering = u.mgmt.recovering := by
    rw [setSt_eq]
    exact ⟨rfl, rfl⟩
  rw [steps]
  refine ⟨.after (odBump_frame ..) (.after (setSt_frame ..) before.mono), setSt_st .., mgmt.2, mgmt.1, congrArg Rel.noAuto rel, ?_⟩
  rw [odv_odBump_same (w := 32) _ (by decide), odv_setSt_other _ _ (by decide)]
  rfl

/-- What stands when the warm reset is done but for its tests. -/
structure ApexCleared (s t : State) : Prop where
  decided : AllDecided t
  remote : t.remoteRels = []
  locals : t.localRels = []
  acks : t.acks = []
  e2e : t.e2e = []
  items : t.front.items = []
  boot : t.boot = s.boot
  queue : t.pending = s.pending
  stage : t.mgmt.st = 0 ∧ t.mgmt.recovering = true ∧ t.mgmt.stopPending = false ∧ t.rel.noAuto = false
  count : odv t 0x6200 13 = (odv s 0x6200 13 + 1) % 2 ^ 32
  flags : ∀ f < 4096, flagAt t f = { flag0 with setFc := s.clocks.fc }
  lost : ∀ p < 6, (linkAt s p).st ∈ [1, 2, 4] → (linkAt t p).st = 3

theorem ApexCleared.of_frame {s t u : State} (h : ApexCleared s t) (next : Frame [.blocks, .recov] t u) : ApexCleared s u where
  decided := h.decided.of_cmds (next.keeps fun t => t.front.cmds)
  remote := (next.keeps State.remoteRels).trans h.remote
  locals := (next.keeps State.localRels).trans h.locals
  acks := (next.keeps State.acks).trans h.acks
  e2e := (next.keeps State.e2e).trans h.e2e
  items := (next.keeps fun t => t.front.items).trans h.items
  boot := (next.keeps State.boot).trans h.boot
  queue := (next.keeps State.pending).trans h.queue
  stage :=
    have ⟨st, recovering, stop, auto⟩ := h.stage
    ⟨(next.keeps fun t => t.mgmt.st).trans st, (next.keeps fun t => t.mgmt.recovering).trans recovering,
      (next.keeps fun t => t.mgmt.stopPending).trans stop, (next.keeps fun t => t.rel.noAuto).trans auto⟩
  count := (next.keeps fun t => odv t 0x6200 13).trans h.count
  flags := fun f small => (next.keeps fun t => flagAt t f).trans (h.flags f small)
  lost := fun p port carried => (next.keeps fun t => (linkAt t p).st).trans (h.lost p port carried)

theorem apexCleared_spec (r : Recovery) (s : State) : ApexCleared s (apexCleared r s) ∧ SameRetired s (apexCleared r s) := by
  have gone := trafficGone_spec r s
  unfold apexCleared
  generalize trafficGone r s = u at gone ⊢
  have regions := regionsReset_spec (presentRegions u) u
  generalize (presentRegions u).foldl (fun s g => resetRegion g s) u = v at regions ⊢
  obtain ⟨frame, st, recovering, stop, auto, count⟩ := restartDictionary_spec v
  generalize restartDictionary v = t at frame st recovering stop auto count ⊢
  have both : Frame (.mgmt :: .od :: .noAuto :: .cmds :: blockResetParts) u t := .after frame regions.frame.mono
  have od : v.od = u.od := regions.frame.keeps State.od
  refine ⟨{
    decided := (regions.decided gone.decided).of_cmds (frame.keeps fun t => t.front.cmds)
    remote := (both.keeps State.remoteRels).trans gone.remote
    locals := (both.keeps State.localRels).trans gone.locals
    acks := (both.keeps State.acks).trans gone.acks
    e2e := (both.keeps State.e2e).trans gone.e2e
    items := (both.keeps fun t => t.front.items).trans gone.items
    boot := (both.keeps State.boot).trans gone.boot
    queue := (both.keeps State.pending).trans gone.queue
    stage := ⟨st, recovering, stop, auto⟩
    count := by rw [count, odv_of_od od, gone.count]
    flags := fun f small => (both.keeps fun t => flagAt t f).trans (gone.flags f small)
    lost := fun p port carried => by
      rw [show linkAt t p = linkAt v p from frame.keeps fun t => linkAt t p, regions.st.at_]
      exact gone.lost p port carried }, .after (.of_blocks (frame.keeps State.blocks)) (.after regions.retired gone.retired)⟩

theorem firstBatch_cleared {b : Nat} {r : Recovery} {s u : State} (present : blockPresent s b = true)
    (serves : (blockAt s b).retired = false) (cleared : ApexCleared s u) (retired : SameRetired s u) :
    ApexCleared s (nextBatch { r with begun := true, batches := batchesOf u 40 (presentBlocks u) } u) := by
  have mem : b ∈ presentBlocks u := mem_presentBlocks_of (by unfold blockPresent regionPresent at present ⊢; rwa [cleared.boot])
  obtain ⟨l, rest, batches⟩ := batchesOf_cons (s := u) (n := 40) (by decide) mem ((retired.at_ b).trans serves)
  rw [batches]
  exact cleared.of_frame (nextBatch_frame (l := l) (rest := rest) rfl u)

/-- The warm reset ends in its first batch. -/
theorem warmReset_spec {b : Nat} {r : Recovery} {s : State} (present : blockPresent s b = true) (serves : (blockAt s b).retired = false) :
    ApexCleared s (warmReset r s) := by
  rw [warmReset_eq]
  exact firstBatch_cleared present serves (apexCleared_spec r s).1 (apexCleared_spec r s).2

/-- Settles O56: the region's reset and the warm reset are followed part by part; each ends in its first test batch, which touches
only blocks and the list of recoveries. -/
theorem regionAndApexRecoveryRows : Obligations.RegionAndApexRecoveryRows := by
  unfold Obligations.RegionAndApexRecoveryRows
  refine ⟨fun g i r s runs found small serves => ?_, fun b r s runs found present serves => ⟨?_, ?_⟩⟩
  · have its := (recov_found found).2
    simp only [Bool.and_eq_true, decide_eq_true_eq] at its
    obtain ⟨queue, mem, flags, count, ⟨x, region⟩, blocks, users⟩ := regionRecovery_spec its.1.2 small serves
    have row : exec (.regionRecovery g) s = .next (regionRecovery r s) := by
      show execRegionRecovery g s = _
      unfold execRegionRecovery
      rw [found]
      exact event_exact runs queue
    exact ⟨_, row, mem, flags, count, by rw [region]; rfl, by rw [region]; rfl, by rw [region]; rfl, by rw [region]; rfl, by rw [region]; rfl,
      by rw [region]; rfl, by rw [region]; rfl, blocks, users⟩
  · have cleared := warmReset_spec (r := r) present serves
    have row : exec (.apexWarmReset true) s = .next (warmReset r s) := by
      show execApexWarmReset true s = _
      unfold execApexWarmReset
      rw [found]
      exact (congrArg (event (live s) s) (if_pos rfl)).trans (event_exact runs cleared.queue)
    obtain ⟨st, recovering, stop, auto⟩ := cleared.stage
    exact ⟨_, row, st, recovering, stop, auto, cleared.count, cleared.decided, cleared.remote, cleared.locals, cleared.lost,
      fun _ => ⟨cleared.acks, cleared.e2e, cleared.items, cleared.flags⟩⟩
  · obtain ⟨st, fatal, recov, _⟩ := fatalFault_spec (s := s) r.entry
    refine ⟨{ fatalFault r.entry s with pending := s.pending }, ?_, st, fatal, recov⟩
    show execApexWarmReset false s = _
    unfold execApexWarmReset
    rw [found]
    exact event_of runs

end Sys2Proof.Machine
end

section
/-! The checks on a received flit (R320 to R322): what a good flit and a failed one leave. -/

namespace Sys2Proof.Machine

-- one proof at a time, for the memory that the check allows
set_option Elab.async false

/-- No armed point at the checks of the port. -/
def Unarmed (p : Nat) (s : State) : Prop := fires 0x30 p s = none ∧ fires 0x31 p s = none ∧ fires 0x33 p s = none

theorem unarmed_of {p : Nat} {s : State} (calm : ∀ code ∈ [0x30, 0x31, 0x33], fires code p s = none) : Unarmed p s :=
  ⟨calm _ (by decide), calm _ (by decide), calm _ (by decide)⟩

section
variable {p : Nat} {f : Flit} {fec : Fec} {s : State}

/-- The corrected symbols of the codewords that end with the flit are counted. -/
def corrected (p : Nat) (fec : Fec) (s : State) : State := odBump 0x4010 (0xA0 + p) (if fec.first then fec.errs.sum else 0) s

theorem codewords_of_good (good : fecGood fec = true) (s : State) : codewords p fec false s = corrected p fec s := by
  have small : ∀ n ∈ fec.errs, n ≤ 15 := fun n mem => of_decide_eq_true (List.all_eq_true.mp good n mem)
  have all : fec.errs.filter (fun n => decide (n ≤ 15)) = fec.errs := List.filter_eq_self.mpr fun n mem => decide_eq_true (small n mem)
  have none_ : fec.errs.filter (fun n => decide (n > 15)) = [] :=
    List.filter_eq_nil_iff.mpr fun n mem => by have := small n mem; simp; omega
  unfold codewords corrected
  simp only [all, none_]
  rw [show b2n false + (if fec.first = true then ([] : List Nat).length else 0) = 0 by simp [b2n]]
  rfl

theorem odv_corrected (p i j : Nat) (fec : Fec) (s : State) (other : odKey i j ≠ odKey 0x4010 (0xA0 + p)) :
    odv (corrected p fec s) i j = odv s i j := odv_odBump_other s other

theorem encrypted_corrected (p q : Nat) (apart : 0x40 + q ≠ 0xA0 + p) (fec : Fec) (s : State) :
    encrypted (corrected p fec s) q = encrypted s q := by
  unfold encrypted
  rw [odv_corrected _ _ _ _ _ (by simp only [odKey]; omega)]

theorem openFlit_of {s t : State} (mode : encrypted t p = encrypted s p) (port : linkAt t p = linkAt s p) :
    openFlit t p f = openFlit s p f := by
  unfold openFlit
  rw [mode, port]

/-- A good flit's body, with the receive counter of its key. -/
def opened (p : Nat) (slots : List (Nat × KeySlot)) (s : State) : State := modLink p (fun l => { l with slots := slots }) s

theorem checkFlit_good {b : BitVec 1920} {slots : List (Nat × KeySlot)} (calm : Unarmed p s) (codes : fecGood fec = true)
    (good : flitGood f = true) (plain : openFlit s p f = some (b, slots)) :
    checkFlit p f fec s = (.good b, opened p slots (corrected p fec s)) := by
  obtain ⟨c0, c1, c3⟩ := calm
  have same : openFlit (corrected p fec s) p f = some (b, slots) :=
    (openFlit_of (encrypted_corrected p p (by omega) fec s) rfl).trans plain
  unfold checkFlit
  simp only [c0, c1, c3, Option.isSome_none, codes, good]
  rw [if_neg (by simp), if_neg (by simp), codewords_of_good codes, same]
  rfl

end

end Sys2Proof.Machine
end

section
/-! The statement on the reception of flits fails: an ABORT leaves the bytes that its packet wrote undefined (chapter 11). -/

namespace Sys2Proof.Machine

-- one proof at a time, for the memory that the check allows
set_option Elab.async false

/-- The port after a good flit in order, with the flit's acknowledgements and credits. -/
def inOrder (p : Nat) (f : Flit) (s : State) : State :=
  takeCredits p f (putLink p { linkAt s p with rxSeq := ((linkAt s p).rxSeq + 1) % 4096, rxAny := true, refetch := false, fails := 0 } s)

/-- A sequenced flit as it is passed on. -/
def carried (p : Nat) (f : Flit) (b : BitVec 1920) : TxFlit :=
  { ftype := fType f, vc := fVc f, dclass := fClass f, tail := fTail f, dst := fDst f, src := fSrc f, body := b, from_ := p
    inIdx := 2 * fVc f + fClass f, pkt := 0 }

section
variable {p : Nat} {f : Flit} {fec : Fec} {s : State} {b : BitVec 1920} {slots : List (Nat × KeySlot)}

theorem inOrder_packets (p : Nat) (f : Flit) (s : State) : (linkAt (inOrder p f s) p).packets = (linkAt s p).packets := by
  unfold inOrder takeCredits
  rw [linkAt_modLink, if_pos rfl, linkAt_putLink, if_pos rfl]

theorem opened_corrected_link (p : Nat) (fec : Fec) (slots : List (Nat × KeySlot)) (s : State) :
    linkAt (opened p slots (corrected p fec s)) p = { linkAt s p with slots := slots } := by
  unfold opened
  rw [linkAt_modLink, if_pos rfl]
  rfl

theorem sequenced_here (calm : Unarmed p s) (codes : fecGood fec = true) (good : flitGood f = true)
    (plain : openFlit s p f = some (b, slots)) (next : fSeq f = (linkAt s p).rxSeq) (here : fDst f = myNode s) :
    sequenced p f fec s = deliver p (carried p f b) (inOrder p f (opened p slots (corrected p fec s))) := by
  have port := opened_corrected_link p fec slots s
  have node : myNode (inOrder p f (opened p slots (corrected p fec s))) = myNode s :=
    odv_corrected p 0x4000 1 fec s (by simp only [odKey]; omega)
  unfold sequenced
  rw [checkFlit_good calm codes good plain]
  dsimp only
  rw [if_neg (by rw [port]; exact not_not.mpr next)]
  exact if_pos (here.trans node.symm)

/-- The end of a packet in host memory leaves its bytes free. -/
theorem deliverHost_abort {h : RxPacket} {x : TxFlit} {idx : Nat} (type : x.ftype = 8)
    (found : (linkAt s p).packets.find? (fun e => e.1 = idx) = some (idx, h)) (kept : h.drop = false) (here : h.outPort = 7) :
    (deliverHost p idx x s).mem = memWrite (addr52 h.addr) (freeBytes s (min h.got h.len)) s.mem := by
  unfold deliverHost
  dsimp only
  rw [if_neg (by omega), found]
  dsimp only
  rw [if_pos type]
  unfold cutPacket
  rw [if_neg (by simp [kept, here])]
  rfl

end

/-! ### A packet of one byte that has come -/

/-- A packet of one byte at address 0, all of it written. -/
def writtenPacket : RxPacket :=
  { kind := 0, src := 1, addr := 0, len := 1, got := 1, poison := false, pktId := 0, outPort := 7, drop := false }

/-- The ABORT of it: type 8, last of its packet, from node 1 to node 0. -/
def abortingFlit : Flit := flitOf 0x100000000000088 0

/-- Port 0 is up and receives the packet. -/
def receiving (m : Memory) : State :=
  { State.reset with
    boot := { Boot.atReset with pwrGood := true, resetN := true, pll := true, present := 1 }, mgmt := { Mgmt.atReset with st := 2 }
    mem := m, links := [(0, { link0 with st := 2, packets := [(0, writtenPacket)] })] }

theorem abortingFlit_good : fType abortingFlit = 8 ∧ flitGood abortingFlit = true := by decide +kernel

theorem abortingFlit_fields : fDst abortingFlit = 0 ∧ fVc abortingFlit = 0 ∧ fSeq abortingFlit = 0 ∧ fClass abortingFlit = 0 := by decide +kernel

theorem receiving_ready (m : Memory) : rxOk (receiving m) 0 abortingFlit 8 = true ∧ openFlit (receiving m) 0 abortingFlit = some (fBody abortingFlit, [])
    ∧ myNode (receiving m) = 0 := by
  have type := abortingFlit_good.1
  refine ⟨?_, rfl, rfl⟩
  unfold rxOk
  rw [type]
  rfl

theorem receiving_calm (m : Memory) : ∀ code ∈ [0x30, 0x31, 0x33], fires code 0 (receiving m) = none := fun _ _ => rfl

/-- The byte at address 0 that the ABORT leaves. -/
theorem abort_spoils (m : Memory) : ∃ t, exec (.abortFlit 0 abortingFlit ⟨[], false⟩) (receiving m) = .next t
    ∧ t.mem = memSet 0 (Config.freeByte 0) m := by
  obtain ⟨ready, plain, node⟩ := receiving_ready m
  obtain ⟨dst, vc, seq, cls⟩ := abortingFlit_fields
  have calm : Unarmed 0 (receiving m) := ⟨rfl, rfl, rfl⟩
  have steps := sequenced_here (fec := ⟨[], false⟩) calm rfl abortingFlit_good.2 plain seq (dst.trans node.symm)
  have packets : (linkAt (inOrder 0 abortingFlit (opened 0 [] (corrected 0 ⟨[], false⟩ (receiving m)))) 0).packets = [(0, writtenPacket)] := by
    rw [inOrder_packets, opened_corrected_link]
    rfl
  have kept : (inOrder 0 abortingFlit (opened 0 [] (corrected 0 ⟨[], false⟩ (receiving m)))).mem = m
      ∧ (inOrder 0 abortingFlit (opened 0 [] (corrected 0 ⟨[], false⟩ (receiving m)))).fresh = 0 := ⟨rfl, rfl⟩
  generalize inOrder 0 abortingFlit _ = u at steps packets kept
  obtain ⟨mem, fresh⟩ := kept
  have type : (carried 0 abortingFlit (fBody abortingFlit)).ftype = 8 := abortingFlit_good.1
  have idx : (carried 0 abortingFlit (fBody abortingFlit)).inIdx = 0 := by show 2 * fVc abortingFlit + fClass abortingFlit = 0; omega
  have vc' : (carried 0 abortingFlit (fBody abortingFlit)).vc = 0 := vc
  generalize carried 0 abortingFlit _ = x at steps type idx vc'
  have spoiled : (deliverHost 0 0 x u).mem = memWrite 0 (freeBytes u 1) m := by
    rw [← mem]
    exact deliverHost_abort (p := 0) (h := writtenPacket) type (by rw [packets]; rfl) rfl rfl
  have delivered : (deliver 0 x u).mem = (deliverHost 0 0 x u).mem := by
    unfold deliver
    simp only [type, vc', idx]
    rfl
  have after : (sequenced 0 abortingFlit ⟨[], false⟩ (receiving m)).mem = memSet 0 (Config.freeByte 0) m := by
    rw [steps, delivered, spoiled]
    show memWrite 0 [Config.freeByte (u.fresh * 2 ^ 20 + 0)] m = _
    rw [fresh]
    rfl
  show ∃ t, event (rxOk (receiving m) 0 abortingFlit 8) (receiving m) (sequenced 0 abortingFlit ⟨[], false⟩ (receiving m)) = .next t ∧ _
  generalize sequenced 0 abortingFlit ⟨[], false⟩ (receiving m) = t at after ⊢
  exact ⟨_, event_of ready, after⟩

/-- Refutes O50: an ABORT of a packet that had bytes in host memory makes those bytes undefined (R347), where the clause of the ABORT
says that memory stands. -/
theorem not_flitReceptionRows : ¬ Obligations.FlitReceptionRows := by
  intro h
  have same (m : Memory) : memGet m 0 = Config.freeByte 0 := by
    obtain ⟨ready, plain, node⟩ := receiving_ready m
    obtain ⟨dst, vc, seq, -⟩ := abortingFlit_fields
    obtain ⟨good, -⟩ := h 0 8 (.abortFlit 0 abortingFlit ⟨[], false⟩) abortingFlit ⟨[], false⟩ (receiving m) (by simp) ready (receiving_calm m)
    obtain ⟨t, row, -, -, -, -, -, -, here, -⟩ := good _ _ rfl abortingFlit_good.2 plain seq (by omega) (fun c mem => absurd mem List.not_mem_nil)
    obtain ⟨-, -, -, -, -, aborted⟩ := here (dst.trans node.symm)
    have stands : t.mem = m := (aborted vc rfl).2.2
    obtain ⟨u, run, spoils⟩ := abort_spoils m
    obtain rfl := Host.Outcome.next.inj (row.symm.trans run)
    rw [← stands, spoils, memGet_memSet, if_pos rfl]
  have zero : Config.freeByte 0 = 0 := (same []).symm
  have one : Config.freeByte 0 = 1 := (same (memSet 0 1 [])).symm
  rw [zero] at one
  exact absurd one (by decide)

end Sys2Proof.Machine
end

section
/-! Link-local flits, what one flit slot sends, and the statement on both (chapter 11). -/

namespace Sys2Proof.Machine

-- one proof at a time, for the memory that the check allows
set_option Elab.async false

/-- Every part of the reliability unit. -/
def relParts : List StatePart :=
  [.log, .count, .acked, .queues, .armed, .recov, .corrected, .windowOp, .faults, .noAuto, .fatal, .parity, .mire]

/-! ### A failed flit -/

section
variable {p : Nat} {f : Flit} {fec : Fec} {s : State}

theorem codewords_frame (p : Nat) (fec : Fec) (inj : Bool) (s : State) : Frame [.queues, .od] s (codewords p fec inj s) :=
  .foldl (fun _ _ => .after (report_frame ..) (odBump_frame ..).mono) (odBump_frame ..).mono

/-- A flit that fails its check counts and reports. -/
def checkFailed (p : Nat) (fec : Fec) (s : State) : State :=
  report 0x30 p 0 0 0 none false (odBump 0x4010 (0x90 + p) 1 (codewords p fec false s))

theorem checkFlit_bad (calm : Unarmed p s) (bad : fecGood fec = false ∨ flitGood f = false) :
    checkFlit p f fec s = (.bad, checkFailed p fec s) := by
  obtain ⟨c0, c1, c3⟩ := calm
  unfold checkFlit checkFailed
  simp only [c0, c1, Option.isSome_none]
  rw [if_pos (by rcases bad with bad | bad <;> simp [bad]), if_neg (by simp), if_neg (by simp)]

theorem checkFailed_frame (p : Nat) (fec : Fec) (s : State) : Frame [.queues, .od] s (checkFailed p fec s) :=
  .after (report_frame ..) (.after (odBump_frame ..) (codewords_frame ..).mono)

/-! ### A link-local flit -/

/-- A flit time of an outstanding request. -/
def aged (l : LinkPort) : LinkPort := { l with reqAge := if l.refetch then l.reqAge + 1 else l.reqAge }

/-- A good link-local flit: its acknowledgement and credits are taken. -/
def localTaken (p : Nat) (f : Flit) (slots : List (Nat × KeySlot)) (s : State) : State :=
  takeCredits p f (modLink p aged (opened p slots s))

theorem linkLocal_good {b : BitVec 1920} {slots : List (Nat × KeySlot)} (act : BitVec 1920 → State → State) (calm : Unarmed p s)
    (codes : fecGood fec = true) (good : flitGood f = true) (plain : openFlit s p f = some (b, slots)) :
    linkLocal p f fec act s = act b (localTaken p f slots (corrected p fec s)) := by
  unfold linkLocal
  rw [checkFlit_good calm codes good plain]
  rfl

theorem linkLocal_bad (act : BitVec 1920 → State → State) (calm : Unarmed p s) (bad : fecGood fec = false ∨ flitGood f = false) :
    linkLocal p f fec act s = modLink p aged (checkFailed p fec s) := by
  unfold linkLocal
  rw [checkFlit_bad calm bad]
  rfl

/-- The port after a good link-local flit. -/
theorem linkAt_localTaken (p q : Nat) (f : Flit) (slots : List (Nat × KeySlot)) (s : State) :
    linkAt (localTaken p f slots s) q = if q = p then
      { aged { linkAt s p with slots := slots } with
        retry := if fld f 32 1 = 1 then
            (linkAt s p).retry.filter fun x => (x.seq + 4096 - fld f 20 12) % 4096 ≠ 0 && (x.seq + 4096 - fld f 20 12) % 4096 < 2048
          else (linkAt s p).retry
        used := tput (fld f 72 3) (tget 0 (linkAt s p).used (fld f 72 3) - fld f 75 5) (linkAt s p).used }
    else linkAt s q := by
  unfold localTaken takeCredits opened
  rw [linkAt_modLink]
  split
  · rw [linkAt_modLink, if_pos rfl, linkAt_modLink, if_pos rfl]
    rfl
  · next other => rw [linkAt_modLink, if_neg other, linkAt_modLink, if_neg other]

theorem localTaken_frame (p : Nat) (f : Flit) (slots : List (Nat × KeySlot)) (s : State) : Frame [.links] s (localTaken p f slots s) := rfl

theorem failedLocal_frame (p : Nat) (fec : Fec) (s : State) : Frame (.links :: .od :: relParts) s (modLink p aged (checkFailed p fec s)) :=
  .after (modLink_frame ..) (checkFailed_frame ..).mono

theorem linkAt_failedLocal (p : Nat) (fec : Fec) (s : State) : linkAt (modLink p aged (checkFailed p fec s)) p = aged (linkAt s p) := by
  rw [linkAt_modLink, if_pos rfl, show linkAt (checkFailed p fec s) p = linkAt s p from (checkFailed_frame ..).keeps fun t => linkAt t p]

end

/-! ### A heartbeat (R341) -/

/-- The fields of a heartbeat that are kept. -/
def beatStored (p : Nat) (b : BitVec 1920) (s : State) : State :=
  modLink p (fun l => { l with hbRef := refNow s }) (odPut 0x4010 (0x70 + p) (fld b 32 32) (odPut 0x4010 (0x60 + p) (fld b 16 4) s))

theorem heartbeat_eq (p : Nat) (b : BitVec 1920) (s : State) : heartbeat p b s =
    trace 3 0 p (pack [(8, p), (32, fld b 32 32), (16, odv (beatStored p b s) 0x4010 (0x50 + p))]) (beatStored p b s) := rfl

theorem heartbeat_spec (p : Nat) (small : p < 6) (b : BitVec 1920) (s : State) :
    Frame (.links :: .od :: storeParts) s (heartbeat p b s) ∧ odv (heartbeat p b s) 0x4010 (0x60 + p) = fld b 16 4
    ∧ odv (heartbeat p b s) 0x4010 (0x70 + p) = fld b 32 32
    ∧ linkAt (heartbeat p b s) p = { linkAt s p with hbRef := refNow s } := by
  rw [heartbeat_eq]
  have stored : Frame [.links, .od] s (beatStored p b s) := rfl
  have port : linkAt (beatStored p b s) p = { linkAt s p with hbRef := refNow s } := (linkAt_modLink ..).trans (if_pos rfl)
  have first : odv (beatStored p b s) 0x4010 (0x60 + p) = fld b 16 4 :=
    (odv_odPut_other _ _ (by simp only [odKey]; omega)).trans (odv_odPut_same ..)
  have second : odv (beatStored p b s) 0x4010 (0x70 + p) = fld b 32 32 := odv_odPut_same ..
  generalize beatStored p b s = u at *
  have traced := trace_store_frame 3 0 p (pack [(8, p), (32, fld b 32 32), (16, odv u 0x4010 (0x50 + p))]) u
  refine ⟨.after traced stored.mono, (odv_trace_other _ _ _ _ _ (by simp only [odKey]; omega)).trans first,
    (odv_trace_other _ _ _ _ _ (by simp only [odKey]; omega)).trans second, (traced.keeps fun t => linkAt t p).trans port⟩

/-! ### What a flit slot sends -/

section
variable {p : Nat} {s : State}

/-- A flit on the wire changes only its port: the credits that it returns, the counter of its key, and what was sent. -/
theorem wireFlit_eq (p : Nat) (x : TxFlit) (seq : Nat) (plain : Bool) (s : State) :
    ∃ owed slots, (wireFlit p x seq plain s).2 =
      putLink p { linkAt s p with owed := owed, slots := slots, sent := some (wireFlit p x seq plain s).1 } s := ⟨_, _, rfl⟩

theorem wireFlit_frame (p : Nat) (x : TxFlit) (seq : Nat) (plain : Bool) (s : State) : Frame [.links] s (wireFlit p x seq plain s).2 := rfl

theorem linkAt_wireFlit (p : Nat) (x : TxFlit) (seq : Nat) (plain : Bool) (s : State) :
    ∃ owed slots, linkAt (wireFlit p x seq plain s).2 p =
      { linkAt s p with owed := owed, slots := slots, sent := some (wireFlit p x seq plain s).1 } := by
  obtain ⟨owed, slots, its⟩ := wireFlit_eq p x seq plain s
  exact ⟨owed, slots, by rw [its, linkAt_putLink, if_pos rfl]⟩

/-- The slot watches the apex when a flit waits for it. -/
def slotWatched (p : Nat) (s : State) : State := if (List.range 4).any fun vc => (nextOf s p vc).isSome then apexProgress s else s

theorem slotWatched_frame (p : Nat) (s : State) : Frame [.mire] s (slotWatched p s) := .ite rfl (.refl s)

theorem nextOf_slotWatched (p : Nat) (s : State) : nextOf (slotWatched p s) p = nextOf s p := by
  unfold slotWatched
  split <;> rfl

/-- A port that sends, sends. -/
theorem flitSlot_runs (runs : live s = true) (small : p < 6) (sends : (linkAt s p).st = 1 ∨ (linkAt s p).st = 2)
    (queue : (flitSlot p (slotWatched p s)).pending = s.pending) : exec (.flitSlot p) s = .next (flitSlot p (slotWatched p s)) :=
  event_exact (by simp only [Bool.and_eq_true, Bool.or_eq_true, decide_eq_true_eq]; exact ⟨⟨runs, small⟩, .inl sends⟩) queue

theorem flitSlot_training (st : (linkAt s p).st = 1) : ∃ x, flitSlot p s = (wireFlit p x 0 true s).2 :=
  ⟨_, if_pos st⟩

/-- The request that is sent is no longer owed. -/
def requestSent (l : LinkPort) : LinkPort := { l with retryReq := false, reqAge := 0 }

/-- The heartbeat that is sent is no longer due. -/
def beatSent (l : LinkPort) : LinkPort := { l with hbDue := false, hbNum := (l.hbNum + 1) % 2 ^ 32 }

section
variable (up : (linkAt s p).st = 2) (quiet : (linkAt s p).acked = false)
include up quiet

theorem flitSlot_request (owes : (linkAt s p).retryReq = true) :
    ∃ x, flitSlot p s = odBump 0x4010 (0x80 + p) 1 (wireFlit p x 0 false (modLink p requestSent s)).2 := by
  unfold flitSlot
  dsimp only
  rw [if_neg (by omega), if_neg (by omega), if_neg (by simp [quiet]), if_pos owes]
  exact ⟨_, rfl⟩

variable (clear : (linkAt s p).retryReq = false)
include clear

theorem flitSlot_heartbeat (due : (linkAt s p).hbDue = true) : ∃ x, flitSlot p s = (wireFlit p x 0 false (modLink p beatSent s)).2 := by
  unfold flitSlot
  dsimp only
  rw [if_neg (by omega), if_neg (by omega), if_neg (by simp [quiet]), if_neg (by simp [clear]), if_pos due]
  exact ⟨_, rfl⟩

variable (idle : (linkAt s p).hbDue = false)
include idle

theorem flitSlot_resend {x : SentFlit} {r : List SentFlit} (again : (linkAt s p).resend = x :: r) : flitSlot p s = resendFlit p x s := by
  unfold flitSlot
  dsimp only
  rw [if_neg (by omega), if_neg (by omega), if_neg (by simp [quiet]), if_neg (by simp [clear]), if_neg (by simp [idle]), again]

variable (none_ : (linkAt s p).resend = [])
include none_

theorem flitSlot_queued {x : TxFlit} (room : (linkAt s p).retry.length < 512)
    (next : (if (linkAt s p).bulk3 then [2, 1, 0, 3] else [2, 1, 3, 0]).findSome? (nextOf s p) = some x) :
    flitSlot p s = sendSequenced p x s := by
  unfold flitSlot
  dsimp only
  rw [if_neg (by omega), if_neg (by omega), if_neg (by simp [quiet]), if_neg (by simp [clear]), if_neg (by simp [idle]), none_, if_pos room, next]

theorem flitSlot_idle (full : (linkAt s p).retry.length ≥ 512
    ∨ (if (linkAt s p).bulk3 then [2, 1, 0, 3] else [2, 1, 3, 0]).findSome? (nextOf s p) = none) :
    ∃ x, flitSlot p s = (wireFlit p x 0 false s).2 := by
  have nothing : (if (linkAt s p).retry.length < 512 then (if (linkAt s p).bulk3 then [2, 1, 0, 3] else [2, 1, 3, 0]).findSome? (nextOf s p)
      else none) = none := by
    split
    · next room => exact full.resolve_left (by omega)
    · rfl
  unfold flitSlot
  dsimp only
  rw [if_neg (by omega), if_neg (by omega), if_neg (by simp [quiet]), if_neg (by simp [clear]), if_neg (by simp [idle]), none_, nothing]
  exact ⟨_, rfl⟩

end

/-! ### A queued flit -/

/-- The flit of a source that a channel would send. -/
def channelHead (s : State) (p vc src : Nat) : Option TxFlit :=
  match (linkAt s p).txq.find? (fun x => x.vc = vc && x.from_ = src) with
  | some x => some x
  | none => if vc = 2 ∧ src = 6 then ackFlit s p else none

theorem channelHead_vc {vc src : Nat} {x : TxFlit} (head : channelHead s p vc src = some x) : x.vc = vc := by
  unfold channelHead at head
  split at head
  · next queued =>
    obtain rfl := Option.some.inj head
    have fits := List.find?_some queued
    simp only [Bool.and_eq_true, decide_eq_true_eq] at fits
    exact fits.1
  · split at head
    · next acks =>
      unfold ackFlit at head
      split at head
      · cases head
      · obtain rfl := Option.some.inj head
        exact acks.1.symm
    · cases head

/-- The flit that a channel sends next comes from one of its sources and holds a credit. -/
theorem nextOf_credit {vc : Nat} {x : TxFlit} (next : nextOf s p vc = some x) :
    x.vc = vc ∧ tget 0 (linkAt s p).used (2 * vc + x.dclass) < bufferDepth vc := by
  have source {src : Nat} (head : (channelHead s p vc src).filter
      (fun x => decide (tget 0 (linkAt s p).used (2 * vc + x.dclass) < bufferDepth vc)) = some x) :
      x.vc = vc ∧ tget 0 (linkAt s p).used (2 * vc + x.dclass) < bufferDepth vc := by
    obtain ⟨its, credit⟩ := Option.filter_eq_some_iff.mp head
    exact ⟨channelHead_vc its, of_decide_eq_true credit⟩
  unfold nextOf at next
  dsimp only at next
  split at next
  · exact source next
  · obtain ⟨src, -, head⟩ := List.exists_of_findSome?_eq_some next
    exact source head

theorem freeBuffer_link (q i n : Nat) (s : State) : ∃ owed, linkAt (freeBuffer q i s) n = { linkAt s n with owed := owed } := by
  unfold freeBuffer
  rw [linkAt_modLink]
  split
  · next same => exact ⟨_, by rw [same]⟩
  · exact ⟨_, rfl⟩

/-- The acknowledgements that a flit of this node carries are no longer waiting. -/
def acksTaken (p : Nat) (x : TxFlit) (s : State) : State :=
  let es := if x.ftype = 5 ∧ x.from_ = 6 then (s.acks.filter fun a => a.dst = x.dst).take (if encrypted s p then 14 else 15) else []
  if es.isEmpty then s else { s with acks := es.foldl (fun l a => l.erase a) s.acks }

/-- A sequenced flit is numbered and kept for retry, and uses a credit. -/
def numbered (x : TxFlit) (seq : Nat) (f : Flit) (l : LinkPort) : LinkPort :=
  { l with
    txSeq := (seq + 1) % 4096
    retry := l.retry ++ [{ seq := seq, tx := x, flit := f }]
    txq := dropFirst x.vc x.from_ l.txq
    used := tput (2 * x.vc + x.dclass) (tget 0 l.used (2 * x.vc + x.dclass) + 1) l.used
    lock := if x.tail then tdel x.vc l.lock else if x.ftype = 1 then tput x.vc x.from_ l.lock else l.lock
    turn := tput x.vc x.from_ l.turn
    bulk3 := if x.vc = 3 then true else if x.vc = 0 then false else l.bulk3 }

/-- A sequenced flit on the wire. -/
def sequencedSent (p : Nat) (x : TxFlit) (seq : Nat) (s : State) : State :=
  modLink p (numbered x seq (wireFlit p x seq false s).1) (wireFlit p x seq false s).2

theorem sendSequenced_eq (p : Nat) (x : TxFlit) (s : State) : sendSequenced p x s =
    if x.from_ < 6 then odBump 0x4010 (0xE0 + p) 1
      (freeBuffer x.from_ x.inIdx (sequencedSent p x (linkAt s p).txSeq (acksTaken p x s)))
    else sequencedSent p x (linkAt s p).txSeq (acksTaken p x s) := rfl

theorem acksTaken_frame (p : Nat) (x : TxFlit) (s : State) : Frame [.acks] s (acksTaken p x s) := .ite (.refl s) rfl

theorem sequencedSent_frame (p : Nat) (x : TxFlit) (seq : Nat) (s : State) : Frame [.links] s (sequencedSent p x seq s) :=
  .after (modLink_frame ..) (wireFlit_frame ..)

theorem linkAt_sequencedSent (p : Nat) (x : TxFlit) (seq : Nat) (s : State) :
    ∃ owed slots f, linkAt (sequencedSent p x seq s) p =
      numbered x seq f { linkAt s p with owed := owed, slots := slots, sent := some f } := by
  obtain ⟨owed, slots, its⟩ := linkAt_wireFlit p x seq false s
  exact ⟨owed, slots, _, by rw [sequencedSent, linkAt_modLink, if_pos rfl, its]⟩

/-- The port after a sequenced flit: numbered, kept for retry, a credit used. -/
theorem sendSequenced_spec (p : Nat) (x : TxFlit) (s : State) : (sendSequenced p x s).pending = s.pending
    ∧ ∃ g, (linkAt (sendSequenced p x s) p).txSeq = ((linkAt s p).txSeq + 1) % 4096
      ∧ (linkAt (sendSequenced p x s) p).retry = (linkAt s p).retry ++ [{ seq := (linkAt s p).txSeq, tx := x, flit := g }]
      ∧ (linkAt (sendSequenced p x s) p).sent = some g
      ∧ tget 0 (linkAt (sendSequenced p x s) p).used (2 * x.vc + x.dclass) = tget 0 (linkAt s p).used (2 * x.vc + x.dclass) + 1 := by
  have frame : Frame [.links, .acks, .od] s (sendSequenced p x s) := by
    have sent : Frame [.links, .acks, .od] s (sequencedSent p x (linkAt s p).txSeq (acksTaken p x s)) :=
      .after (sequencedSent_frame ..) (acksTaken_frame p x s).mono
    rw [sendSequenced_eq]
    exact .ite (.after (odBump_frame ..) (.after (modLink_frame ..) sent)) sent
  have port : ∃ owed slots f, linkAt (sendSequenced p x s) p =
      { numbered x (linkAt s p).txSeq f (linkAt s p) with owed := owed, slots := slots, sent := some f } := by
    obtain ⟨owed, slots, f, its⟩ := linkAt_sequencedSent p x (linkAt s p).txSeq (acksTaken p x s)
    rw [show linkAt (acksTaken p x s) p = linkAt s p from (acksTaken_frame p x s).keeps fun t => linkAt t p] at its
    rw [sendSequenced_eq]
    split
    · obtain ⟨back, freed⟩ := freeBuffer_link x.from_ x.inIdx p (sequencedSent p x (linkAt s p).txSeq (acksTaken p x s))
      exact ⟨back, slots, f, freed.trans (by rw [its]; rfl)⟩
    · exact ⟨owed, slots, f, its⟩
  obtain ⟨owed, slots, f, its⟩ := port
  rw [its]
  exact ⟨frame.keeps State.pending, f, rfl, rfl, rfl, tget_tput_same ..⟩

end

/-! ### The rows -/

section
variable {p : Nat} {f : Flit} {fec : Fec} {s : State}

theorem nullFlit_good {b : BitVec 1920} {slots : List (Nat × KeySlot)} (calm : Unarmed p s) (codes : fecGood fec = true)
    (good : flitGood f = true) (plain : openFlit s p f = some (b, slots)) (may : rxOk s p f 0 = true) :
    exec (.nullFlit p f fec) s = .next (localTaken p f slots (corrected p fec s)) := by
  show event (rxOk s p f 0) s (linkLocal p f fec (fun _ s => s) s) = _
  rw [linkLocal_good _ calm codes good plain]
  exact event_exact may rfl

theorem heartbeatFlit_good {b : BitVec 1920} {slots : List (Nat × KeySlot)} (calm : Unarmed p s) (small : p < 6) (codes : fecGood fec = true)
    (good : flitGood f = true) (plain : openFlit s p f = some (b, slots)) (may : rxOk s p f 6 = true) :
    exec (.heartbeatFlit p f fec) s = .next (heartbeat p b (localTaken p f slots (corrected p fec s))) := by
  show event (rxOk s p f 6) s (linkLocal p f fec (heartbeat p) s) = _
  rw [linkLocal_good _ calm codes good plain]
  exact event_exact may ((heartbeat_spec p small b _).1.keeps State.pending)

theorem local_failed {act : BitVec 1920 → State → State} {ok : Bool} (calm : Unarmed p s) (bad : fecGood fec = false ∨ flitGood f = false)
    (may : ok = true) : ∃ t, event ok s (linkLocal p f fec act s) = .next t ∧ t = { s with links := t.links, od := t.od, rel := t.rel }
      ∧ (linkAt t p).hbRef = (linkAt s p).hbRef ∧ (linkAt t p).retry = (linkAt s p).retry := by
  have frame := failedLocal_frame p fec s
  have port := linkAt_failedLocal p fec s
  rw [linkLocal_bad act calm bad]
  generalize modLink p aged (checkFailed p fec s) = t at frame port ⊢
  exact ⟨t, event_exact may (frame.get State.pending), frame, by rw [port]; rfl, by rw [port]; rfl⟩

theorem rxOk_port {n : Nat} (may : rxOk s p f n = true) : p < 6 := by
  simp only [rxOk, Bool.and_eq_true, decide_eq_true_eq] at may
  exact may.1.1.2

/-- What a good NULL flit leaves. -/
theorem nullFlit_spec (small : p < 6) (slots : List (Nat × KeySlot)) :
    odv (localTaken p f slots (corrected p fec s)) 0x4010 (0xA0 + p) =
        (odv s 0x4010 (0xA0 + p) + (if fec.first then fec.errs.sum else 0)) % 2 ^ 64
    ∧ ∀ q, q ≠ p → linkAt (localTaken p f slots (corrected p fec s)) q = linkAt s q := by
  refine ⟨?_, fun q other => (linkAt_localTaken ..).trans (if_neg other)⟩
  rw [odv_of_od ((localTaken_frame ..).get State.od)]
  refine odv_odBump_same (w := 64) s ?_
  interval_cases p <;> decide

end

theorem mem_retry_kept (l : List SentFlit) (ack : Nat) (x : SentFlit) :
    x ∈ l.filter (fun x => (x.seq + 4096 - ack) % 4096 ≠ 0 && (x.seq + 4096 - ack) % 4096 < 2048)
      ↔ x ∈ l ∧ (x.seq + 4096 - ack) % 4096 ≠ 0 ∧ (x.seq + 4096 - ack) % 4096 < 2048 := by
  rw [List.mem_filter, Bool.and_eq_true, decide_eq_true_eq, decide_eq_true_eq]

/-- What a port keeps when a flit of this node goes on the wire after a change of the port. -/
theorem sentLocal_spec (p : Nat) (x : TxFlit) (plain : Bool) (g : LinkPort → LinkPort) (s : State) :
    Frame [.links] s (wireFlit p x 0 plain (modLink p g s)).2
    ∧ ∃ owed slots f, linkAt (wireFlit p x 0 plain (modLink p g s)).2 p = { g (linkAt s p) with owed := owed, slots := slots, sent := some f } := by
  obtain ⟨owed, slots, its⟩ := linkAt_wireFlit p x 0 plain (modLink p g s)
  rw [linkAt_modLink, if_pos rfl] at its
  exact ⟨.after (wireFlit_frame ..) (modLink_frame ..), owed, slots, _, its⟩

theorem heartbeatSend_runs {p : Nat} {s : State} (runs : live s = true) (small : p < 6) (up : (linkAt s p).st = 2)
    (due : s.clocks.fc ≥ (linkAt s p).hbFc + 4096) : exec (.heartbeatSend p) s =
      .next { s with links := tput p { linkAt s p with hbDue := true, hbFc := s.clocks.fc } s.links } := by
  show execHeartbeatSend p s = _
  unfold execHeartbeatSend
  exact event_exact (by simp [runs, small, up, due]) rfl

theorem retryRequestResend_runs {p : Nat} {s : State} (runs : live s = true) (small : p < 6) (up : (linkAt s p).st = 2)
    (waits : (linkAt s p).refetch = true) (old : (linkAt s p).reqAge ≥ 64) : exec (.retryRequestResend p) s =
      .next { s with links := tput p { linkAt s p with retryReq := true, reqAge := 0 } s.links } := by
  show execRetryRequestResend p s = _
  unfold execRetryRequestResend
  exact event_exact (by simp [runs, small, up, waits, old]) rfl

/-- Settles O51: a link-local flit by its check, and a flit slot by the first of the five things that it may send. -/
theorem linkLocalAndSendRows : Obligations.LinkLocalAndSendRows := by
  unfold Obligations.LinkLocalAndSendRows
  refine ⟨fun p f fec s calms => ?_, fun p s runs small => ?_⟩
  · have calm := unarmed_of calms
    refine ⟨fun b slots codes good plain => ⟨fun may => ?_, fun may => ?_⟩, fun bad => ⟨fun may => ?_, fun may => ?_⟩⟩
    · obtain ⟨symbols, others⟩ := nullFlit_spec (f := f) (fec := fec) (s := s) (rxOk_port may) slots
      have port := (linkAt_localTaken p p f slots (corrected p fec s)).trans (if_pos rfl)
      rw [show linkAt (corrected p fec s) p = linkAt s p from rfl] at port
      refine ⟨_, nullFlit_good calm codes good plain may, rfl, symbols, by rw [port]; rfl, by rw [port]; rfl, others, ?_, fun none_ => ?_,
        fun acks x => ?_⟩
      · rw [port]
        exact tget_tput_same ..
      · rw [port]
        exact if_neg (by omega)
      · rw [port, ← mem_retry_kept]
        dsimp only
        rw [if_pos acks]
    · have small := rxOk_port may
      obtain ⟨frame, throttle, number, port⟩ := heartbeat_spec p small b (localTaken p f slots (corrected p fec s))
      have kept := (linkAt_localTaken p p f slots (corrected p fec s)).trans (if_pos rfl)
      refine ⟨_, heartbeatFlit_good calm small codes good plain may, throttle, number, by rw [port]; rfl, by rw [port, kept]; rfl,
        frame.keeps State.flags, frame.keeps State.sp, frame.keeps State.front⟩
    · obtain ⟨t, row, frame, beat, retry⟩ := local_failed (act := fun _ s => s) calm bad may
      exact ⟨t, row, frame, beat, retry⟩
    · obtain ⟨t, row, frame, beat, -⟩ := local_failed (act := heartbeat p) calm bad may
      exact ⟨t, row, frame, beat⟩
  · have watch := slotWatched_frame p s
    have same : linkAt (slotWatched p s) p = linkAt s p := watch.keeps fun t => linkAt t p
    have row := @flitSlot_runs p s runs small
    have next := nextOf_slotWatched p s
    have od : (slotWatched p s).od = s.od := watch.keeps State.od
    have queue : (slotWatched p s).pending = s.pending := watch.keeps State.pending
    have mem : (slotWatched p s).mem = s.mem := watch.keeps State.mem
    have acks : (slotWatched p s).acks = s.acks := watch.keeps State.acks
    have beat := heartbeatSend_runs runs small
    have request := retryRequestResend_runs runs small
    generalize slotWatched p s = u at *
    dsimp only
    rw [← same] at row
    rw [← same, ← next]
    refine ⟨fun st => ?_, fun up quiet => ⟨fun owes => ?_, fun clear due => ?_, fun x r clear idle again => ?_,
      fun x clear idle none_ room found => ?_, fun clear idle none_ full => ?_⟩, fun up due => ?_, fun up waits old => ?_⟩
    · obtain ⟨x, its⟩ := flitSlot_training st
      obtain ⟨owed, slots, port⟩ := linkAt_wireFlit p x 0 true u
      rw [← its] at port
      have frame : Frame [.links] u (flitSlot p u) := its ▸ wireFlit_frame p x 0 true u
      exact ⟨_, row (.inl st) ((frame.keeps State.pending).trans queue), by rw [port]; rfl, by rw [port]; exact st, by rw [port], by rw [port],
        (frame.keeps State.mem).trans mem⟩
    · obtain ⟨x, its⟩ := flitSlot_request up quiet owes
      obtain ⟨frame, owed, slots, f, port⟩ := sentLocal_spec p x false requestSent u
      generalize (wireFlit p x 0 false (modLink p requestSent u)).2 = v at its frame port
      have port' : linkAt (flitSlot p u) p = linkAt v p := by rw [its]; rfl
      have counted : odv (flitSlot p u) 0x4010 (0x80 + p) = (odv s 0x4010 (0x80 + p) + 1) % 2 ^ 32 := by
        rw [its, odv_odBump_same (w := 32) v (by interval_cases p <;> decide), odv_of_od ((frame.keeps State.od).trans od)]
      have queue' : (flitSlot p u).pending = s.pending := by rw [its]; exact (frame.keeps State.pending).trans queue
      refine ⟨_, row (.inr up) queue', ?_, ?_, ?_, counted, ?_⟩ <;> rw [port', port] <;> rfl
    · obtain ⟨x, its⟩ := flitSlot_heartbeat up quiet clear due
      obtain ⟨frame, owed, slots, f, port⟩ := sentLocal_spec p x false beatSent u
      rw [← its] at frame port
      refine ⟨_, row (.inr up) ((frame.keeps State.pending).trans queue), ?_, ?_, ?_, ?_, (frame.keeps State.od).trans od⟩ <;> rw [port] <;> rfl
    · have its := flitSlot_resend up quiet clear idle again
      have frame : Frame [.links] u (flitSlot p u) := its ▸ rfl
      have port : ∃ f, linkAt (flitSlot p u) p = { linkAt u p with resend := (linkAt u p).resend.drop 1, sent := some f } :=
        ⟨_, by rw [its, resendFlit, linkAt_putLink, if_pos rfl]⟩
      obtain ⟨f, port⟩ := port
      refine ⟨_, row (.inr up) ((frame.keeps State.pending).trans queue), ?_, ?_, ?_, ?_, (frame.keeps State.od).trans od⟩ <;> rw [port]
      · rfl
      · rw [again]; rfl
    · obtain ⟨vc, -, credit⟩ := List.exists_of_findSome?_eq_some found
      obtain ⟨rfl, room'⟩ := nextOf_credit credit
      have its := flitSlot_queued up quiet clear idle none_ room found
      obtain ⟨kept, g, spec⟩ := sendSequenced_spec p x u
      rw [← its] at kept spec
      exact ⟨room', _, g, row (.inr up) (kept.trans queue), spec⟩
    · obtain ⟨x, its⟩ := flitSlot_idle up quiet clear idle none_ full
      obtain ⟨owed, slots, port⟩ := linkAt_wireFlit p x 0 false u
      rw [← its] at port
      have frame : Frame [.links] u (flitSlot p u) := its ▸ wireFlit_frame p x 0 false u
      exact ⟨_, row (.inr up) ((frame.keeps State.pending).trans queue), by rw [port]; rfl, by rw [port], by rw [port], by rw [port],
        (frame.keeps State.acks).trans acks, (frame.keeps State.od).trans od⟩
    · rw [same] at up due ⊢
      exact beat up due
    · rw [same] at up waits old ⊢
      exact request up waits old

end Sys2Proof.Machine
end

section
/-! The MCTP messages (R393, R394) and SPDM requests (R489 to R491), and the statement on them. -/

namespace Sys2Proof.Machine

-- one proof at a time, for the memory that the check allows
set_option Elab.async false

/-! ### A packet that is a whole message -/

theorem frameCheck_calm {ws : List Word} {s : State} (calm : fires 0x26 0 s = none) (fits : frameFault ws false = 0) : frameCheck ws s = (0, s) := by
  unfold frameCheck
  simp only [calm, Option.isSome_none, fits, Bool.and_false]
  rfl

theorem byteN_drop (bs : List Byte) (n i : Nat) : byteN (bs.drop n) i = byteN bs (n + i) := by
  simp [byteN, List.getD_eq_getElem?_getD, List.getElem?_drop]

/-- A message of a served type joins the messages waiting while fewer than four do (R387). -/
theorem takeMessage_queued {m : McMsg} {s : State} (room : s.mgmt.inbox.length < 4)
    (served : byteN m.body 0 = 5 ∨ byteN m.body 0 = 0x7F ∨ byteN m.body 0 = 0 ∧ byteN m.body 2 ∈ [1, 2, 4, 5, 6]) :
    takeMessage m s = { s with mgmt := { s.mgmt with inbox := s.mgmt.inbox ++ [m] } } := by
  unfold takeMessage
  dsimp only
  have known : ¬ (byteN m.body 0 = 0 ∧ (!([1, 2, 4, 5, 6].contains (byteN m.body 2))) = true) := by
    rintro ⟨control, unknown⟩
    rcases served with type | type | ⟨-, listed⟩
    · omega
    · omega
    · rw [List.contains_iff_mem.mpr listed] at unknown
      exact absurd unknown (by decide)
  rw [if_neg known, if_pos (by tauto), if_neg (by omega)]

/-- Nothing is being assembled. -/
def unassembled (s : State) : State := { s with mgmt := { s.mgmt with asmOn := false, asmBody := [] } }

theorem takePacket_whole {ps : List Byte} {s : State} (version : byteN ps 0 % 16 = 1) (mine : byteN ps 1 = 0)
    (own : (byteN ps 3).testBit 3 = true) (last : (byteN ps 3).testBit 6 = true) (first : (byteN ps 3).testBit 7 = true) (short : ps.length ≤ 255) :
    takePacket ps s = takeMessage { src := byteN ps 2, tag := byteN ps 3 % 8, body := ps.drop 4 } (unassembled s) := by
  have fits : ¬ ((!(byteN ps 3).testBit 6) = true ∧ (ps.drop 4).length ≠ 64 ∨ (ps.drop 4).length > 1050) := by
    simp only [last, List.length_drop]
    rintro (⟨absurd_, -⟩ | long)
    · cases absurd_
    · omega
  have ours : ¬ (!decide (byteN ps 0 % 16 = 1 ∧ (byteN ps 1 = 0 ∨ s.mgmt.eid ≠ 0 ∧ byteN ps 1 = s.mgmt.eid) ∧ bit (byteN ps 3) 3 = true)) = true := by
    simp [version, mine, bit, own]
  unfold takePacket
  dsimp only
  rw [if_neg ours, if_neg (by simp [bit, first])]
  simp only [bit, first, last] at fits ⊢
  rw [if_pos trivial, if_neg fits, if_pos trivial]
  rfl

/-! ### A message served -/

/-- The message at the head is taken off. -/
def taken (rest : List McMsg) (s : State) : State := { s with mgmt := { s.mgmt with inbox := rest } }

section
variable {m : McMsg} {rest : List McMsg} {s u : State} {body : List Byte}

/-- The answer to a message, by its type. -/
def answerOf (bs : List Byte) (s : State) : List Byte × State :=
  if byteN bs 0 = 0 then serveControl bs s else if byteN bs 0 = 5 then serveSpdm bs s else serveDictionary bs s

theorem serveMsg_of (answer : answerOf m.body s = (body, u)) (some_ : body ≠ []) : serveMsg m s = sendMessage m body u := by
  have its : serveMsg m s = if (answerOf m.body s).1 = [] then (answerOf m.body s).2
      else sendMessage m (answerOf m.body s).1 (answerOf m.body s).2 := rfl
  rw [its, answer]
  exact if_neg some_

theorem serveMsg_silent (answer : answerOf m.body s = ([], u)) : serveMsg m s = u := by
  have its : serveMsg m s = if (answerOf m.body s).1 = [] then (answerOf m.body s).2
      else sendMessage m (answerOf m.body s).1 (answerOf m.body s).2 := rfl
  rw [its, answer]
  exact if_pos rfl

/-- The row of a kind of message serves the message at the head. -/
theorem messageRow_runs {kind : Nat → Bool} (runs : live s = true) (head : s.mgmt.inbox = m :: rest) (fits : kind (msgKind m.body) = true) :
    messageRow kind s = .next { serveMsg m (taken rest s) with pending := s.pending } := by
  unfold messageRow serveFront
  rw [head]
  exact event_of (by simp [runs, fits])

/-- What a message leaves when its answer is sent, with the endpoint id `eid` and the SPDM stage `stage`. -/
def answered (m : McMsg) (rest : List McMsg) (eid stage : Nat) (body : List Byte) (s : State) : State :=
  { s with mgmt := { s.mgmt with
    eid := eid, inbox := rest, spdm := stage, outbox := s.mgmt.outbox ++ packetsOf eid m.src m.tag body } }

/-- The row of a message whose answer changes the endpoint id and the SPDM stage at most. -/
theorem messageRow_answered {kind : Nat → Bool} {eid stage : Nat} (runs : live s = true) (head : s.mgmt.inbox = m :: rest)
    (fits : kind (msgKind m.body) = true) (some_ : body ≠ [])
    (answer : answerOf m.body (taken rest s) = (body, { s with mgmt := { s.mgmt with eid := eid, inbox := rest, spdm := stage } })) :
    messageRow kind s = .next (answered m rest eid stage body s) := by
  rw [messageRow_runs runs head fits, serveMsg_of answer some_]
  rfl

end

theorem answerOf_control {bs : List Byte} {s : State} (type : byteN bs 0 = 0) : answerOf bs s = serveControl bs s := if_pos type

theorem answerOf_spdm {bs : List Byte} {s : State} (type : byteN bs 0 = 5) : answerOf bs s = serveSpdm bs s :=
  (if_neg (by omega)).trans (if_pos type)

theorem answerOf_dictionary {bs : List Byte} {s : State} (type : byteN bs 0 = 0x7F) : answerOf bs s = serveDictionary bs s :=
  (if_neg (by omega)).trans (if_neg (by omega))

theorem msgKind_control {bs : List Byte} (type : byteN bs 0 = 0) : msgKind bs = byteN bs 2 := if_pos type

theorem msgKind_spdm {bs : List Byte} (type : byteN bs 0 = 5) : msgKind bs = 0x500 + byteN bs 2 :=
  (if_neg (by omega)).trans (if_pos type)

/-- The enterprise of the dictionary's messages is that of the identity object (R394). -/
theorem vendor : odDefault (odKey 0x1018 1) = 0x0F4A2C11 := by decide

section
variable {m : McMsg} {rest : List McMsg} {s : State}

/-- The row of an SPDM request whose answer changes the stage at most. -/
theorem spdmRow_answered {code stage : Nat} {body : List Byte} (runs : live s = true) (head : s.mgmt.inbox = m :: rest) (type : byteN m.body 0 = 5)
    (its : msgKind m.body = code) (some_ : body ≠ [])
    (answer : serveSpdm m.body (taken rest s) = (body, { s with mgmt := { s.mgmt with inbox := rest, spdm := stage } })) :
    messageRow (· == code) s = .next (answered m rest s.mgmt.eid stage body s) :=
  messageRow_answered runs head (by simp [its]) some_ ((answerOf_spdm type).trans answer)

theorem spdmReply_some (code p1 p2 : Nat) (data : List Byte) : spdmReply code p1 p2 data ≠ [] := by simp [spdmReply]

end

/-! ### The answer to each SPDM request (R490) -/

section
variable {bs : List Byte} {s : State}

/-- The connection has come to stage `n`. -/
def staged (n : Nat) (s : State) : State := { s with mgmt := { s.mgmt with spdm := n } }

theorem serveSpdm_version (code : byteN bs 2 = 0x84) : serveSpdm bs s = (spdmReply 0x04 0 0 (spdmData 0x04 bs []), staged 1 s) := by
  unfold serveSpdm
  rw [code]
  rfl

theorem serveSpdm_capabilities (code : byteN bs 2 = 0xE1) : serveSpdm bs s =
    if s.mgmt.spdm < 1 then (spdmError 4, s) else (spdmReply 0x61 0 0 (spdmData 0x61 bs []), staged 2 s) := by
  unfold serveSpdm
  rw [code]
  rfl

theorem serveSpdm_algorithms (code : byteN bs 2 = 0xE3) : serveSpdm bs s =
    if s.mgmt.spdm < 2 then (spdmError 4, s) else (spdmReply 0x63 0 0 (spdmData 0x63 bs []), staged 3 s) := by
  unfold serveSpdm
  rw [code]
  rfl

theorem serveSpdm_digests (code : byteN bs 2 = 0x81) : serveSpdm bs s =
    if s.mgmt.spdm < 3 then (spdmError 4, s)
    else (if s.sec.cert = [] then spdmReply 0x01 0 0 [] else spdmReply 0x01 0 1 (spdmData 0x01 bs s.sec.cert), s) := by
  unfold serveSpdm
  rw [code]
  by_cases cert : s.sec.cert = [] <;> simp [cert, b2n]

theorem serveSpdm_certificate (code : byteN bs 2 = 0x82) : serveSpdm bs s =
    if s.mgmt.spdm < 3 then (spdmError 4, s)
    else (if s.sec.cert = [] then spdmError 5 else spdmReply 0x02 0 0 (spdmData 0x02 bs s.sec.cert), s) := by
  unfold serveSpdm
  rw [code]
  by_cases cert : s.sec.cert = [] <;> simp [cert]

theorem serveSpdm_challenge (code : byteN bs 2 = 0x83) : serveSpdm bs s =
    if s.mgmt.spdm < 3 then (spdmError 4, s)
    else if s.sec.cert = [] then (spdmError 5, s) else spdmSigned 0x03 0 1 bs (s.sec.cert ++ measurements s) s := by
  unfold serveSpdm
  rw [code]
  by_cases cert : s.sec.cert = [] <;> simp [cert]

theorem serveSpdm_measurements_early (code : byteN bs 2 = 0xE0) (early : s.mgmt.spdm < 3) : serveSpdm bs s = (spdmError 4, s) := by
  unfold serveSpdm
  rw [code]
  exact if_pos early

theorem serveSpdm_measurements (code : byteN bs 2 = 0xE0) (plain : byteN bs 3 % 2 = 0) : serveSpdm bs s =
    if s.mgmt.spdm < 3 then (spdmError 4, s) else (spdmReply 0x60 (odv s 0x8100 1) 0 (spdmData 0x60 bs (measurements s)), s) := by
  unfold serveSpdm
  rw [code]
  simp [plain]

theorem serveSpdm_unsupported (code : byteN bs 2 ∉ [0x84, 0xE1, 0xE3, 0x81, 0x82, 0x83, 0xE0]) : serveSpdm bs s = (spdmError 7, s) := by
  unfold serveSpdm
  simp only [List.mem_cons, List.not_mem_nil, or_false, not_or] at code
  split
  case h_8 => rfl
  all_goals omega

end

theorem packetsOf_some (own dst tag : Nat) (body : List Byte) : packetsOf own dst tag body ≠ [] := by
  rw [← List.length_pos_iff, packetsOf, List.length_map, List.length_range]
  exact Nat.le_max_left ..

theorem longer {α : Type} (l : List α) {r : List α} (some_ : r ≠ []) : (l ++ r).length > l.length := by
  have := List.length_pos_iff.mpr some_
  rw [List.length_append]
  omega

/-- Settles O49: each message row serves the message at the head, and its answer is the one of its type and code. -/
theorem messageRows : Obligations.MessageRows := by
  unfold Obligations.MessageRows
  refine ⟨fun ws s runs calm fits cs version mine own last first served room => ?_, fun m rest s runs head => ⟨fun type => ?_, fun type => ?_, fun type => ?_⟩⟩
  · have short : ((wordBytes (frPay ws)).take (frAux ws)).length ≤ 255 := by
      have aux : frAux ws < 256 := Nat.mod_lt _ (by decide)
      rw [List.length_take]
      omega
    show execMctp ws s = _
    unfold execMctp
    rw [frameCheck_calm calm fits]
    dsimp only
    rw [if_neg (by simp), takePacket_whole version mine own last first short, takeMessage_queued (s := unassembled s) room (by simpa only [byteN_drop] using served)]
    exact event_exact (by simp [runs, cs]) rfl
  · have kind := msgKind_control type
    refine ⟨fun k valid some_ small => ?_, fun k => ?_, fun k version => ?_, fun k => ?_, fun k first => ?_⟩
    all_goals rw [kind] at k
    · refine messageRow_answered (kind := (· == 1)) runs head (by simp [kind, k]) (by simp [controlReply]) ?_
      rw [answerOf_control type]
      unfold serveControl
      rw [k]
      exact if_pos ⟨valid, some_, small⟩
    · refine messageRow_answered (kind := (· == 2)) runs head (by simp [kind, k]) (by simp [controlReply]) ?_
      rw [answerOf_control type]
      unfold serveControl
      rw [k]
      rfl
    · refine messageRow_answered (kind := (· == 4)) runs head (by simp [kind, k]) (by simp [controlReply]) ?_
      rw [answerOf_control type]
      unfold serveControl
      rw [k]
      exact if_pos (List.contains_iff_mem.mpr version)
    · refine messageRow_answered (kind := (· == 5)) runs head (by simp [kind, k]) (by simp [controlReply]) ?_
      rw [answerOf_control type]
      unfold serveControl
      rw [k]
      rfl
    · refine messageRow_answered (kind := (· == 6)) runs head (by simp [kind, k]) (by simp [controlReply]) ?_
      rw [answerOf_control type]
      unfold serveControl
      rw [k]
      exact if_pos first
  · have kind : (msgKind m.body == 0x7F00) = true := by simp [msgKind, type]
    refine ⟨fun foreign => ?_, fun ours op whole => ?_⟩
    · have silent : answerOf m.body (taken rest s) = ([], taken rest s) := (answerOf_dictionary type).trans (if_pos foreign)
      show messageRow (· == 0x7F00) s = _
      rw [messageRow_runs runs head kind, serveMsg_silent silent]
      rfl
    · have answer : answerOf m.body (taken rest s) =
          (m.body.take 5 ++ [1] ++ wordBytes (serveFrame .mctp (bytesWords (m.body.drop 6)) (taken rest s)).1,
            (serveFrame .mctp (bytesWords (m.body.drop 6)) (taken rest s)).2) := by
        rw [answerOf_dictionary type]
        unfold serveDictionary
        dsimp only
        rw [vendor, if_neg (not_not.mpr ours), if_neg (by omega)]
      have row : exec .dictionaryMessage s = _ := messageRow_runs (kind := (· == 0x7F00)) runs head kind
      rw [serveMsg_of answer (by simp)] at row
      exact ⟨_, row, rfl, rfl⟩
  · have kind := msgKind_spdm type
    have code {n : Nat} (k : msgKind m.body = 0x500 + n) : byteN m.body 2 = n := by omega
    refine ⟨fun k => ?_, fun k => ?_, fun k => ?_, fun early => ⟨fun k => ?_, fun k => ?_, fun k => ?_, fun k => ?_⟩,
      fun late => ⟨fun k => ?_, fun k => ?_, fun k none_ => ?_, fun k some_ => ?_, fun k plain => ?_⟩, fun other => ?_⟩
    · exact spdmRow_answered runs head type k (spdmReply_some _ _ _ _) (serveSpdm_version (code k))
    · split
      · next early => exact spdmRow_answered runs head type k (spdmReply_some _ _ _ _) ((serveSpdm_capabilities (code k)).trans (if_pos early))
      · next late => exact spdmRow_answered runs head type k (spdmReply_some _ _ _ _) ((serveSpdm_capabilities (code k)).trans (if_neg late))
    · split
      · next early => exact spdmRow_answered runs head type k (spdmReply_some _ _ _ _) ((serveSpdm_algorithms (code k)).trans (if_pos early))
      · next late => exact spdmRow_answered runs head type k (spdmReply_some _ _ _ _) ((serveSpdm_algorithms (code k)).trans (if_neg late))
    · exact spdmRow_answered runs head type k (spdmReply_some _ _ _ _) ((serveSpdm_digests (code k)).trans (if_pos early))
    · exact spdmRow_answered runs head type k (spdmReply_some _ _ _ _) ((serveSpdm_certificate (code k)).trans (if_pos early))
    · exact spdmRow_answered runs head type k (spdmReply_some _ _ _ _) ((serveSpdm_challenge (code k)).trans (if_pos early))
    · exact spdmRow_answered runs head type k (spdmReply_some _ _ _ _) (serveSpdm_measurements_early (code k) early)
    · exact spdmRow_answered runs head type k (by split <;> exact spdmReply_some _ _ _ _) ((serveSpdm_digests (code k)).trans (if_neg (by exact not_lt.mpr late)))
    · exact spdmRow_answered runs head type k (by split <;> exact spdmReply_some _ _ _ _) ((serveSpdm_certificate (code k)).trans (if_neg (by exact not_lt.mpr late)))
    · exact spdmRow_answered runs head type k (spdmReply_some _ _ _ _)
        ((serveSpdm_challenge (code k)).trans ((if_neg (by exact not_lt.mpr late)).trans (if_pos none_)))
    · have answer : answerOf m.body (taken rest s) = spdmSigned 0x03 0 1 m.body ((taken rest s).sec.cert ++ measurements (taken rest s)) (taken rest s) :=
        (answerOf_spdm type).trans ((serveSpdm_challenge (code k)).trans ((if_neg (by exact not_lt.mpr late)).trans (if_neg some_)))
      have row : exec .challenge s = _ := messageRow_runs (kind := (· == 0x583)) runs head (by simp [k])
      rw [serveMsg_of answer (by simp [spdmReply])] at row
      refine ⟨_, row, rfl, rfl, ?_, rfl⟩
      exact longer _ (packetsOf_some _ _ _ _)
    · exact spdmRow_answered runs head type k (spdmReply_some _ _ _ _)
        ((serveSpdm_measurements (code k) plain).trans (if_neg (by exact not_lt.mpr late)))
    · have unlisted : byteN m.body 2 ∉ [0x84, 0xE1, 0xE3, 0x81, 0x82, 0x83, 0xE0] := by
        simp only [kind, List.mem_cons, List.not_mem_nil, or_false] at other ⊢
        omega
      have small : byteN m.body 2 < 256 := (m.body.getD 2 0).isLt
      show execSpdmUnsupportedRequest s = _
      unfold execSpdmUnsupportedRequest
      refine messageRow_answered runs head ?_ (spdmReply_some _ _ _ _) ((answerOf_spdm type).trans (serveSpdm_unsupported unlisted))
      simp only [Bool.and_eq_true, decide_eq_true_eq, Bool.not_eq_true', kind]
      exact ⟨by omega, by rwa [List.contains_eq_mem, decide_eq_false_iff_not, ← kind]⟩

end Sys2Proof.Machine
end

section
/-! The Dictionary Transfer Protocol (R385 to R392, R498), and the statement on its requests. -/

namespace Sys2Proof.Machine

-- one proof at a time, for the memory that the check allows
set_option Elab.async false

/-! ### A frame answered -/

/-- A response sent on its transport. -/
def sentOn (tr : Transport) (fr : List Word) (s : State) : State :=
  { s with mgmt := { s.mgmt with replies := s.mgmt.replies ++ [(tr, fr)], lastAbort := replyCode fr } }

section
variable {tr : Transport} {ws : List Word} {s : State} {cs : Nat}

theorem serveAll_quiet (quiet : s.mgmt.inbox = []) : serveAll s = s := by
  unfold serveAll
  rw [quiet]
  rfl

theorem frameCheck_fault {e : Nat} (calm : fires 0x26 0 s = none) (fault : frameFault ws false = e) :
    frameCheck ws s = (e, if e = abFrameCrc then report 0x26 0 0 0 0 none false s else s) := by
  unfold frameCheck
  simp only [calm, Option.isSome_none, fault, Bool.and_false]
  rfl

/-- A frame that fails R388 is refused with its code, whatever row brings it. -/
theorem requestRow_fault {e : Nat} (runs : live s = true) (quiet : s.mgmt.inbox = []) (calm : fires 0x26 0 s = none)
    (fault : frameFault ws false = e) (bad : e ≠ 0) : requestRow cs tr ws s =
      .next (sentOn tr (abortFrame ws (wordN ws 1) e) (if e = abFrameCrc then report 0x26 0 0 0 0 none false s else s)) := by
  unfold requestRow serveFrame
  rw [serveAll_quiet quiet, frameCheck_fault calm fault, calm]
  dsimp only
  rw [if_pos bad]
  refine event_exact (by simp [runs, fault, bad]) ?_
  split
  · exact (report_frame ..).keeps State.pending
  · rfl

/-- A frame that passes is answered by its row. -/
theorem requestRow_served {fr : List Word} {u : State} (runs : live s = true) (quiet : s.mgmt.inbox = []) (calm : fires 0x26 0 s = none)
    (fits : frameFault ws false = 0) (its : frCs ws = cs) (answer : serveRequest tr ws s = (fr, u)) :
    requestRow cs tr ws s = .next { sentOn tr fr u with pending := s.pending } := by
  unfold requestRow serveFrame
  rw [serveAll_quiet quiet, frameCheck_calm calm fits]
  dsimp only
  rw [if_neg (by simp), answer]
  exact event_of (by simp [runs, its])

theorem requestRow_kept {fr : List Word} {u : State} (runs : live s = true) (quiet : s.mgmt.inbox = []) (calm : fires 0x26 0 s = none)
    (fits : frameFault ws false = 0) (its : frCs ws = cs) (answer : serveRequest tr ws s = (fr, u)) (queue : u.pending = s.pending) :
    requestRow cs tr ws s = .next (sentOn tr fr u) := by
  rw [requestRow_served runs quiet calm fits its answer, ← queue]
  rfl

/-- The rows that bring a request. -/
theorem exec_request {row : Instr} (mem : row ∈ [Instr.read tr ws, .write tr ws, .segRead tr ws, .segWrite tr ws, .snapshot tr ws, .describe tr ws,
    .cancel tr ws]) (s : State) : ∃ cs, exec row s = requestRow cs tr ws s := by
  simp only [List.mem_cons, List.not_mem_nil, or_false] at mem
  rcases mem with rfl | rfl | rfl | rfl | rfl | rfl | rfl
  · exact ⟨1, rfl⟩
  · exact ⟨2, rfl⟩
  · exact ⟨3, rfl⟩
  · exact ⟨4, rfl⟩
  · exact ⟨5, rfl⟩
  · exact ⟨6, rfl⟩
  · exact ⟨0x0F, rfl⟩

/-! ### Each request (R386 to R392) -/

theorem serveRequest_read (its : frCs ws = 1) : serveRequest tr ws s = serveRead ws s := by
  unfold serveRequest
  rw [its]
  rfl

theorem serveRequest_write (its : frCs ws = 2) : serveRequest tr ws s = serveWrite ws s := by
  unfold serveRequest
  rw [its]
  rfl

theorem serveRequest_segRead (its : frCs ws = 3) : serveRequest tr ws s = serveSegRead tr ws s := by
  unfold serveRequest
  rw [its]
  rfl

theorem serveRequest_segWrite (its : frCs ws = 4) : serveRequest tr ws s = serveSegWrite tr ws s := by
  unfold serveRequest
  rw [its]
  rfl

theorem serveRequest_snapshot (its : frCs ws = 5) : serveRequest tr ws s = serveSnapshot ws s := by
  unfold serveRequest
  rw [its]
  rfl

theorem serveRequest_describe (its : frCs ws = 6) : serveRequest tr ws s = serveDescribe ws s := by
  unfold serveRequest
  rw [its]
  rfl

theorem serveRequest_cancel (its : frCs ws = 0x0F) : serveRequest tr ws s = serveCancel tr ws s := by
  unfold serveRequest
  rw [its]
  rfl

theorem serveDescribe_state (ws : List Word) (s : State) : (serveDescribe ws s).2 = s := by
  unfold serveDescribe
  dsimp only
  split
  · rfl
  · split
    · rfl
    · split <;> rfl

theorem serveDescribe_missing {e : Nat} (missing : odExists (frIndex ws) (frSub ws) = .inl e) :
    (serveDescribe ws s).1 = abortFrame ws (wordN ws 1) e := by
  unfold serveDescribe
  dsimp only
  rw [missing]

/-! ### Snapshots (R392) -/

/-- A checked entry exists. -/
theorem odFind_of_readCheck {long : Bool} {i j : Nat} {r : OdRow} (good : readCheck s long i j = .inr r) : (odFind i j).isSome = true := by
  unfold readCheck odExists at good
  split at good
  · cases good
  · next found =>
    split at found
    · next row => simp [row]
    · cases found

/-- The check of an entry of a snapshot: its word and code when it fails. -/
def snapshotFault (s : State) (w : Word) : Option (Nat × Nat) :=
  match readCheck s false (bits w.toNat 0 16) (bits w.toNat 16 8) with
  | .inl e => some (w.toNat, e)
  | .inr _ => none

/-- What a snapshot says of an entry. -/
def snapshotEntry (s : State) (w : Word) : List Word :=
  match odFind (bits w.toNat 0 16) (bits w.toNat 16 8) with
  | some r =>
    let bs := odBytes s r (bits w.toNat 0 16) (bits w.toNat 16 8)
    BitVec.ofNat 32 bs.length :: twoWords (ofBytes bs)
  | none => []

theorem serveSnapshot_eq (ws : List Word) (s : State) : serveSnapshot ws s =
    if (frPay ws).length = 0 ∨ (frPay ws).length > 64 then (abortFrame ws 0 abSnapshotSize, s)
    else match (frPay ws).findSome? (snapshotFault s) with
      | some (w, e) => (abortFrame ws w e, s)
      | none => (okFrame ws 0 ((frPay ws).flatMap (snapshotEntry s)), s) := by
  unfold serveSnapshot snapshotFault snapshotEntry
  rfl

theorem snapshotFault_good {w : Word} {r : OdRow} (good : readCheck s false (bits w.toNat 0 16) (bits w.toNat 16 8) = .inr r) :
    snapshotFault s w = none := by
  unfold snapshotFault
  rw [good]

theorem snapshotFault_bad {w : Word} {e : Nat} (bad : readCheck s false (bits w.toNat 0 16) (bits w.toNat 16 8) = .inl e) :
    snapshotFault s w = some (w.toNat, e) := by
  unfold snapshotFault
  rw [bad]

theorem snapshotEntry_length {w : Word} {r : OdRow} (good : readCheck s false (bits w.toNat 0 16) (bits w.toNat 16 8) = .inr r) :
    (snapshotEntry s w).length = 3 := by
  obtain ⟨row, found⟩ := Option.isSome_iff_exists.mp (odFind_of_readCheck good)
  unfold snapshotEntry
  rw [found]
  rfl

/-- Every entry of a snapshot passes its check. -/
def AllReadable (s : State) (es : List Word) : Prop := ∀ w ∈ es, ∃ r, readCheck s false (bits w.toNat 0 16) (bits w.toNat 16 8) = .inr r

theorem findSome_snapshotFault {es : List Word} (good : AllReadable s es) : es.findSome? (snapshotFault s) = none :=
  List.findSome?_eq_none_iff.mpr fun w mem => have ⟨_, its⟩ := good w mem; snapshotFault_good its

theorem serveSnapshot_first {good rest : List Word} {w : Word} {e : Nat} (short : (frPay ws).length ≤ 64) (es : frPay ws = good ++ w :: rest)
    (pass : AllReadable s good) (bad : readCheck s false (bits w.toNat 0 16) (bits w.toNat 16 8) = .inl e) :
    serveSnapshot ws s = (abortFrame ws w.toNat e, s) := by
  have size : ¬ ((frPay ws).length = 0 ∨ (frPay ws).length > 64) := by
    have long : (frPay ws).length = good.length + (rest.length + 1) := by rw [es, List.length_append, List.length_cons]
    omega
  have first : (frPay ws).findSome? (snapshotFault s) = some (w.toNat, e) := by
    rw [es, List.findSome?_append, findSome_snapshotFault pass, Option.none_or, List.findSome?_cons, snapshotFault_bad bad]
  rw [serveSnapshot_eq, if_neg size, first]

theorem serveSnapshot_all (some_ : frPay ws ≠ []) (short : (frPay ws).length ≤ 64) (good : AllReadable s (frPay ws)) :
    serveSnapshot ws s = (okFrame ws 0 ((frPay ws).flatMap (snapshotEntry s)), s)
    ∧ ((frPay ws).flatMap (snapshotEntry s)).length = 3 * (frPay ws).length := by
  have size : ¬ ((frPay ws).length = 0 ∨ (frPay ws).length > 64) := by
    have := List.length_pos_iff.mpr some_
    omega
  refine ⟨by rw [serveSnapshot_eq, if_neg size, findSome_snapshotFault good], ?_⟩
  have each : ∀ w ∈ frPay ws, (snapshotEntry s w).length = 3 := fun w mem => have ⟨_, its⟩ := good w mem; snapshotEntry_length its
  rw [List.length_flatMap, List.map_congr_left each, List.map_const', List.sum_replicate, smul_eq_mul, Nat.mul_comm]

/-! ### Segmented sessions (R390, R391) -/

theorem readCheck_putSession (tr : Transport) (x : Option Session) (s : State) (long : Bool) (i j : Nat) :
    readCheck (putSession tr x s) long i j = readCheck s long i j := by
  cases tr <;> rfl

theorem odBytes_putSession (tr : Transport) (x : Option Session) (s : State) (r : OdRow) (i j : Nat) :
    odBytes (putSession tr x s) r i j = odBytes s r i j := by
  cases tr <;> rfl

theorem sessionOf_putSession (tr : Transport) (x : Option Session) (s : State) : sessionOf (putSession tr x s) tr = x := by
  cases tr <;> rfl

theorem putSession_putSession (tr : Transport) (x y : Option Session) (s : State) : putSession tr x (putSession tr y s) = putSession tr x s := by
  cases tr <;> rfl

theorem putSession_frame (tr : Transport) (x : Option Session) (s : State) : Frame [.mgmt] s (putSession tr x s) := by
  cases tr <;> rfl

/-- The number of a segment. -/
def segNo (ws : List Word) : Nat := bits (wordN (frPay ws) 0) 0 16

/-- The session of a captured entry. -/
def captured (bs : List Byte) (i j : Nat) (s : State) : Session :=
  { write := false, key := odKey i j, next := 0, total := bs.length, data := bs, lastMc := mcNow s, expired := false }

/-- What the first segment of a captured entry leaves of its session. -/
def captureLeft (bs : List Byte) (i j : Nat) (s : State) : Option Session :=
  if bs.length ≤ 1024 then none else some { captured bs i j s with next := 1 }

theorem readSegment_first {x : Session} (first : segNo ws = 0) : readSegment tr ws x s =
    (okFrame ws 0 (BitVec.ofNat 32 (if x.total ≤ 1024 then 65536 else 0) :: BitVec.ofNat 32 x.total :: bytesWords (x.data.take 1024)),
      putSession tr (if x.total ≤ 1024 then none else some { x with next := 1, lastMc := mcNow s }) s) := by
  unfold segNo at first
  unfold readSegment
  rw [first]
  by_cases short : x.total ≤ 1024 <;> simp [short, b2n]

theorem serveSegRead_first {r : OdRow} (first : segNo ws = 0) (check : readCheck s true (frIndex ws) (frSub ws) = .inr r) :
    serveSegRead tr ws s = readSegment tr ws (captured (odBytes s r (frIndex ws) (frSub ws)) (frIndex ws) (frSub ws) s)
      (afterRead (frIndex ws) (frSub ws) (putSession tr none s)) := by
  unfold segNo at first
  unfold serveSegRead
  dsimp only
  rw [if_pos first, readCheck_putSession, check]
  dsimp only
  rw [odBytes_putSession]
  cases tr <;> rfl

theorem serveSegRead_answer {r : OdRow} (first : segNo ws = 0) (check : readCheck s true (frIndex ws) (frSub ws) = .inr r)
    (other : frIndex ws ≠ 0x9000) (bs : List Byte) (its : odBytes s r (frIndex ws) (frSub ws) = bs) : serveSegRead tr ws s =
      (okFrame ws 0 (BitVec.ofNat 32 (if bs.length ≤ 1024 then 65536 else 0) :: BitVec.ofNat 32 bs.length :: bytesWords (bs.take 1024)),
        putSession tr (captureLeft bs (frIndex ws) (frSub ws) s) s) := by
  have plain (u : State) : afterRead (frIndex ws) (frSub ws) u = u := if_neg fun both => other both.1
  rw [serveSegRead_first first check, its, plain, readSegment_first first, putSession_putSession]
  cases tr <;> rfl

theorem serveSegRead_refused {e : Nat} (first : segNo ws = 0) (check : readCheck s true (frIndex ws) (frSub ws) = .inl e) :
    serveSegRead tr ws s = (abortFrame ws (wordN ws 1) e, putSession tr none s) := by
  unfold segNo at first
  unfold serveSegRead
  dsimp only
  rw [if_pos first, readCheck_putSession, check]

/-- The total length that a segment of a write announces. -/
def segTotal (ws : List Word) : Nat := wordN (frPay ws) 1

/-- The words of data of a segment of a write. -/
def segData (ws : List Word) : List Word := (frPay ws).drop 2

/-- The session of a write that starts. -/
def starting (ws : List Word) (s : State) : Session :=
  { write := true, key := odKey (frIndex ws) (frSub ws), next := 0, total := segTotal ws, data := [], lastMc := mcNow s, expired := false }

theorem serveSegWrite_first (normal : s.mgmt.recovering = false) (state : s.mgmt.st ≠ 0) (first : segNo ws = 0) (fits : segTotal ws ≤ 65536) :
    serveSegWrite tr ws s = writeSegment tr ws (starting ws s) (putSession tr (some (starting ws s)) s) := by
  unfold segNo at first
  unfold segTotal at fits
  unfold serveSegWrite
  dsimp only
  rw [if_neg (by simp [normal]), if_neg state, if_pos first, if_neg (by omega), putSession_putSession]
  cases tr <;> rfl

/-- A full first segment of a write is kept. -/
theorem writeSegment_kept (more : bit (wordN (frPay ws) 0) 16 = false) (long : 1024 ≤ segTotal ws) (full : (segData ws).length = 256) :
    writeSegment tr ws (starting ws s) (putSession tr (some (starting ws s)) s) =
      (okFrame ws 0 [], putSession tr (some { starting ws s with next := 1, data := wordBytes (segData ws) }) s) := by
  have fits : ¬ (segTotal ws ≠ (starting ws s).total ∨ (segData ws).length ≠ 256 ∨ (starting ws s).total - (starting ws s).data.length < 1024) := by
    simp only [starting, List.length_nil]
    omega
  unfold segData segTotal at fits
  unfold writeSegment
  dsimp only
  rw [if_neg (by simp [more]), if_neg fits, putSession_putSession]
  cases tr <;> rfl

/-- A write whole in its first segment writes the entry. -/
theorem writeSegment_whole (last : bit (wordN (frPay ws) 0) 16 = true) (whole : (segData ws).length = (segTotal ws + 3) / 4)
    (padded : ∀ b ∈ (wordBytes (segData ws)).drop (segTotal ws), b = 0) :
    writeSegment tr ws (starting ws s) (putSession tr (some (starting ws s)) s) =
      (codeFrame ws (odWrite (frIndex ws) (frSub ws) ((wordBytes (segData ws)).take (segTotal ws)) (putSession tr none s)).1,
        (odWrite (frIndex ws) (frSub ws) ((wordBytes (segData ws)).take (segTotal ws)) (putSession tr none s)).2) := by
  have fits : ¬ (segTotal ws ≠ (starting ws s).total ∨ (segData ws).length ≠ ceilDiv ((starting ws s).total - (starting ws s).data.length) 4) := by
    simp only [starting, List.length_nil, ceilDiv]
    omega
  have zeros : ((wordBytes (segData ws)).drop (segTotal ws)).any (· != 0) = false := by
    rw [List.any_eq_false]
    intro b mem
    simp [padded b mem]
  unfold segData segTotal at fits zeros
  unfold writeSegment
  dsimp only
  rw [if_pos last, if_neg fits, if_neg (by rw [show (starting ws s).total - (starting ws s).data.length = wordN (frPay ws) 1 from rfl, zeros]; simp),
    putSession_putSession]
  rfl

end

theorem bit_eq (n i : Nat) : bit n i = decide (bits n i 1 = 1) := Nat.testBit_eq_decide_div_mod_eq

theorem words_of_bytes {ws : List Word} {n : Nat} (bytes : (wordBytes ws).length = 4 * n) : ws.length = n := by
  have each : ∀ w ∈ ws, (toBytes 4 w.toNat).length = 4 := fun w _ => length_toBytes ..
  rw [wordBytes, List.length_flatMap, List.map_congr_left each, List.map_const', List.sum_replicate, smul_eq_mul] at bytes
  omega

/-! ### The accumulator window (R498) -/

section
variable {s : State}

/-- The segmented read of the accumulator window. -/
def windowFrame : List Word := mkFrame 3 0 0x00029000 [0]

theorem windowFrame_fits : frameFault windowFrame false = 0 ∧ frCs windowFrame = 3 ∧ frIndex windowFrame = 0x9000 ∧ frSub windowFrame = 2
    ∧ segNo windowFrame = 0 := by decide +kernel

theorem windowFrame_words : wordN windowFrame 1 = 0x29000 ∧ frTxn windowFrame = 0 := by decide +kernel

/-- The dictionary's row of the accumulator window. -/
def windowRow : OdRow := odDom 0x9000 2 1 1 128 128

theorem odFind_window : odFind 0x9000 2 = some windowRow := by decide +kernel

theorem readCheck_window (opened : debugClosed s 0 = false) (normal : s.mgmt.recovering = false) (state : s.mgmt.st ≠ 0) :
    readCheck s true 0x9000 2 = .inr windowRow := by
  unfold readCheck odExists readState
  rw [odFind_window]
  simp [windowRow, odDom, odRow, opened, normal, state]

theorem readCheck_window_closed (closed : debugClosed s 0 = true) : readCheck s true 0x9000 2 = .inl abLocked := by
  unfold readCheck odExists
  rw [odFind_window]
  simp [windowRow, odDom, odRow, closed]

theorem odBytes_window (s : State) : odBytes s windowRow 0x9000 2 = accWindowBytes s := rfl

/-- The window has 128 bytes, whatever it shows. -/
theorem accWindowBytes_length (s : State) : (accWindowBytes s).length = 128 := by
  unfold accWindowBytes
  split
  · rfl
  · split
    · next ws outputs =>
      have words : ws.length = 16 := by
        unfold winOutputs at outputs
        split at outputs
        · cases outputs
        · split at outputs
          · cases outputs
          · split at outputs
            · cases outputs
            · rw [← Option.some.inj outputs, List.length_map, List.length_range]
      have each : ∀ w ∈ ws, (toBytes 8 w.toNat).length = 8 := fun w _ => length_toBytes ..
      rw [List.length_flatMap, List.map_congr_left each, List.map_const', List.sum_replicate, words]
      rfl
    · rw [freeBytes, List.length_map, List.length_range]

theorem bytesWords_length (bs : List Byte) : (bytesWords bs).length = (bs.length + 3) / 4 := by
  rw [bytesWords, List.length_map, List.length_range]
  rfl

/-- The frame that carries the window. -/
theorem windowReply (bs : List Byte) (size : bs.length = 128) :
    (okFrame windowFrame 0 (BitVec.ofNat 32 65536 :: BitVec.ofNat 32 128 :: bytesWords bs)).take 4 =
      [BitVec.ofNat 32 (0x83 + 34 * 65536), 0x00029000, 65536, 128]
    ∧ ((okFrame windowFrame 0 (BitVec.ofNat 32 65536 :: BitVec.ofNat 32 128 :: bytesWords bs)).drop 4).take 32 = bytesWords bs := by
  have words : (bytesWords bs).length = 32 := by rw [bytesWords_length, size]
  obtain ⟨-, cs, -, -, -⟩ := windowFrame_fits
  obtain ⟨word1, txn⟩ := windowFrame_words
  unfold okFrame mkFrame
  rw [cs, word1, txn, List.length_cons, List.length_cons, words]
  refine ⟨rfl, ?_⟩
  show (bytesWords bs ++ _).take 32 = _
  rw [List.take_append_of_le_length (by omega), List.take_of_length_le (by omega)]

/-- The row of the window answers its frame. -/
theorem accWindow_served {fr : List Word} {u : State} (runs : live s = true) (quiet : s.mgmt.inbox = []) (calm : fires 0x26 0 s = none)
    (answer : serveSegRead .ring windowFrame s = (fr, u)) : exec .accWindow s = .next { sentOn .ring fr u with pending := s.pending } := by
  obtain ⟨fits, cs, -⟩ := windowFrame_fits
  show event (live s) s (reply .ring (serveFrame .ring windowFrame (serveAll s))) = _
  unfold serveFrame
  rw [serveAll_quiet quiet, frameCheck_calm calm fits]
  dsimp only
  rw [if_neg (by simp), serveRequest_segRead cs, answer]
  exact event_of runs

theorem accWindow_open (opened : debugClosed s 0 = false) (normal : s.mgmt.recovering = false) (state : s.mgmt.st ≠ 0) :
    serveSegRead .ring windowFrame s =
      (okFrame windowFrame 0 (BitVec.ofNat 32 65536 :: BitVec.ofNat 32 128 :: bytesWords (accWindowBytes s)),
        putSession .ring none (drawn (putSession .ring none s))) := by
  obtain ⟨-, -, index, sub, first⟩ := windowFrame_fits
  have size := accWindowBytes_length s
  have check : readCheck s true (frIndex windowFrame) (frSub windowFrame) = .inr windowRow := by
    rw [index, sub]
    exact readCheck_window opened normal state
  rw [serveSegRead_first first check, readSegment_first first, index, sub, odBytes_window]
  have total : (captured (accWindowBytes s) 0x9000 2 s).total = 128 := size
  have data : (captured (accWindowBytes s) 0x9000 2 s).data = accWindowBytes s := rfl
  rw [if_pos (by omega), if_pos (by omega), total, data, List.take_of_length_le (by omega)]
  rfl

theorem accWindow_closed (closed : debugClosed s 0 = true) :
    serveSegRead .ring windowFrame s = (abortFrame windowFrame 0x29000 abLocked, putSession .ring none s) := by
  obtain ⟨-, -, index, sub, first⟩ := windowFrame_fits
  have check : readCheck s true (frIndex windowFrame) (frSub windowFrame) = .inl abLocked := by
    rw [index, sub]
    exact readCheck_window_closed closed
  rw [serveSegRead_refused first check, windowFrame_words.1]

end

theorem windowRefused : replyCode (abortFrame windowFrame 0x29000 abLocked) = 0x05000001 := by decide +kernel

theorem sentOn_putSession (tr : Transport) (fr : List Word) (x : Option Session) (s : State) :
    sentOn tr fr (putSession tr x s) = { s with mgmt := (sentOn tr fr (putSession tr x s)).mgmt }
    ∧ (sentOn tr fr (putSession tr x s)).mgmt.replies = s.mgmt.replies ++ [(tr, fr)] ∧ sessionOf (sentOn tr fr (putSession tr x s)) tr = x := by
  cases tr <;> exact ⟨rfl, rfl, rfl⟩

/-- Settles O48: a frame that fails R388 is refused before its row reads it, and a frame that passes is answered by the request that its
specifier names. -/
theorem dictionaryRequestRows : Obligations.DictionaryRequestRows := by
  unfold Obligations.DictionaryRequestRows
  intro tr ws s runs quiet calm
  refine ⟨⟨fun row mem => ⟨fun fault => ?_, fun fault => ?_⟩, fun fits => ⟨fun cs => ⟨fun e bad => ?_, fun r good => ?_⟩,
    fun cs => ⟨fun size => ?_, fun short good w rest e es pass bad => ?_, fun some_ short good => ?_⟩, fun cs => ?_, fun cs large => ?_,
    fun cs small eight => ?_, fun cs first r check other => ?_, fun cs first normal state => ⟨fun more long fits' full => ?_, fun last fits' whole padded => ?_⟩,
    fun cs normal => ?_⟩⟩, fun x open_ idle => ?_, fun life normal state => ?_, fun life closed => ?_⟩
  · obtain ⟨cs, its⟩ := exec_request mem s
    exact its.trans (requestRow_fault runs quiet calm fault (by decide))
  · obtain ⟨cs, its⟩ := exec_request mem s
    have row := its.trans (requestRow_fault runs quiet calm fault (by decide))
    rw [if_pos (show (0x01000001 : Nat) = abFrameCrc from rfl)] at row
    have frame := report_frame 0x26 0 0 0 0 none false s
    generalize report 0x26 0 0 0 0 none false s = t at row frame
    exact ⟨t, row, (frame.mono : Frame (.od :: relParts) s t)⟩
  · exact requestRow_served runs quiet calm fits cs ((serveRequest_read cs).trans (by unfold serveRead; rw [bad]))
  · exact requestRow_served runs quiet calm fits cs ((serveRequest_read cs).trans (by unfold serveRead; rw [good]))
  · exact requestRow_served runs quiet calm fits cs ((serveRequest_snapshot cs).trans ((serveSnapshot_eq ..).trans (if_pos size)))
  · exact requestRow_served runs quiet calm fits cs ((serveRequest_snapshot cs).trans (serveSnapshot_first short es pass bad))
  · obtain ⟨all, length⟩ := serveSnapshot_all some_ short good
    exact ⟨_, requestRow_served runs quiet calm fits cs ((serveRequest_snapshot cs).trans all), length⟩
  · have answer : serveRequest tr ws s = ((serveDescribe ws s).1, s) := (serveRequest_describe cs).trans (Prod.ext rfl (serveDescribe_state ws s))
    exact ⟨_, requestRow_served runs quiet calm fits cs answer, fun e missing => serveDescribe_missing missing⟩
  · exact requestRow_served runs quiet calm fits cs ((serveRequest_write cs).trans (if_pos large))
  · have answer : serveRequest tr ws s = (codeFrame ws (odWrite (frIndex ws) (frSub ws) ((wordBytes (frPay ws)).take (frAux ws)) s).1,
        (odWrite (frIndex ws) (frSub ws) ((wordBytes (frPay ws)).take (frAux ws)) s).2) := by
      rw [serveRequest_write cs]
      unfold serveWrite
      dsimp only
      rw [if_neg (by simp [small]), Nat.sub_eq_zero_of_le eight, List.replicate_zero, List.append_nil]
    exact ⟨_, event_of runs, _, requestRow_served runs quiet calm fits cs answer, rfl, rfl⟩
  · obtain ⟨frame, replies, session⟩ := sentOn_putSession tr _ (captureLeft (odBytes s r (frIndex ws) (frSub ws)) (frIndex ws) (frSub ws) s) s
    refine ⟨_, requestRow_kept runs quiet calm fits cs ((serveRequest_segRead cs).trans (serveSegRead_answer first check other _ rfl))
      ((putSession_frame ..).keeps State.pending), frame, replies, fun short => ?_, fun long => ?_⟩
    · exact session.trans (if_pos short)
    · exact ⟨_, session.trans (if_neg (by exact not_le.mpr long)), rfl, rfl, rfl, rfl⟩
  · have answer := (serveRequest_segWrite (tr := tr) cs).trans ((serveSegWrite_first normal state first fits').trans
      (writeSegment_kept (by rw [bit_eq]; exact decide_eq_false (by rw [show bits (wordN (frPay ws) 0) 16 1 = 0 from more]; decide)) long (words_of_bytes full)))
    obtain ⟨frame, replies, session⟩ := sentOn_putSession tr (okFrame ws 0 []) (some { starting ws s with next := 1, data := wordBytes (segData ws) }) s
    exact ⟨_, _, requestRow_kept runs quiet calm fits cs answer ((putSession_frame ..).keeps State.pending), frame, session, rfl, rfl, rfl, rfl, rfl, replies⟩
  · have answer := (serveRequest_segWrite (tr := tr) cs).trans ((serveSegWrite_first normal state first fits').trans
      (writeSegment_whole ((bit_eq ..).trans (decide_eq_true last)) whole padded))
    have queue : (putSession tr none s).pending = s.pending := (putSession_frame ..).keeps State.pending
    have awake : live (putSession tr none s) = true := ((putSession_frame ..).keeps live).trans runs
    refine ⟨_, event_of awake, _, requestRow_served runs quiet calm fits cs answer, rfl, ?_⟩
    rw [queue]
    rfl
  · exact requestRow_kept runs quiet calm fits cs ((serveRequest_cancel cs).trans (if_neg (by simp [normal]))) ((putSession_frame ..).keeps State.pending)
  · show execSessionTimeout tr s = _
    unfold execSessionTimeout
    rw [open_]
    exact event_exact (by simp [runs, idle]) ((putSession_frame ..).keeps State.pending)
  · have row := accWindow_served runs quiet calm (accWindow_open (by simp [debugClosed, life]) normal state)
    obtain ⟨head, data⟩ := windowReply (accWindowBytes s) (accWindowBytes_length s)
    exact ⟨_, _, row, rfl, head, data, rfl⟩
  · have row := accWindow_served runs quiet calm (accWindow_closed (by simp [debugClosed, life, bit, closed]))
    exact ⟨_, _, row, rfl, windowRefused, rfl⟩

end Sys2Proof.Machine
end

section
/-! The statement on array steps fails: it asks nothing of the bank to which the second product of a backward sweep is bound, which is the
number of second products done (chapters 03 and 06). -/

namespace Sys2Proof.Machine

-- one proof at a time, for the memory that the check allows
set_option Elab.async false

section
variable {b i : Nat} {c : Cmd} {j : Job} {p : Prod} {s : State}

/-- No armed point strikes a step. -/
theorem stepFaults_calm (held : Bool) (calm : ∀ code ∈ [1, 2, 4, 8], fires code b s = none) : stepFaults b held s = (false, s) := by
  unfold stepFaults
  simp [calm 1 (by decide), calm 2 (by decide), calm 4 (by decide), calm 8 (by decide)]

/-- A step in the middle of a product, without a fault, sets one bank of its block. -/
theorem arrayStep_banks (bank : bankFor (blockAt s b) j p = some i) (began : 0 < j.step) (more : j.step + 1 < p.steps)
    (calm : ∀ code ∈ [1, 2, 4, 8], fires code b s = none) :
    ∃ y, (blockAt (arrayStep b c j p s) b).banks = (blockAt s b).banks.set i y := by
  have later : ¬ j.step = 0 := by omega
  unfold arrayStep
  cases p.scale
  all_goals
    simp only [bank, later, if_false, stepFaults_calm _ calm, Bool.or_self, Bool.false_eq_true, false_and, and_false, more, if_true]
    split
    all_goals
      split
      all_goals exact ⟨_, congrArg Block.banks (tget_tput_same ..)⟩

/-- Inside a product whose operands are at hand, the row is one step. -/
theorem exec_arrayStep {second : Bool} (runs : blockRuns s b = true) (job : (blockAt s b).job = some j) (cmd : cmdOf s j.uid = some c)
    (fetched : j.fetched = true) (next : nextProd s b c j = some (second, p)) (ready : stepReady s b j p = true) :
    exec (.arrayStep b) s = .next { arrayStep b c j p s with pending := s.pending } := by
  have work : jobOf b s = some (c, j, s) := by
    unfold jobOf
    rw [job]
    show (cmdOf s j.uid).map _ = _
    rw [cmd]
    rfl
  have acts : arrayEvent b s = some (arrayStep b c j p s) := by
    unfold arrayEvent
    rw [work]
    dsimp only
    rw [next]
    dsimp only
    rw [if_pos fetched, if_pos ready]
  show execArrayStep b s = _
  unfold execArrayStep
  rw [acts]
  exact event_of runs

end

/-- The operand buffer of a pair that the BVU has treated. -/
def treatedPair : PBuf := { tile := 0, bufs := [], scale := [] }

/-- A backward item within its second product number 7, at its second step. -/
def farJob : Job :=
  { uid := 1, item := 0, todo := [], firsts := 0, flight := [], pq := [treatedPair], seconds := 7, second := true, step := 1, wait := []
    fetched := true, outs := [], parked := [], bufs := [], rows := [], rescale := [], hurt := 0 }

/-- Block 0 runs that job; all its banks are free. -/
def farBare : State :=
  { State.reset with
    boot := { Boot.atReset with pwrGood := true, resetN := true, pll := true, present := 1 }, mgmt := { Mgmt.atReset with st := 2 }
    blocks := [(0, { block0 with job := some farJob })] }

/-- Its command: ATTENTION_BWD. -/
def farCmd : Cmd := { newCmd farBare (BitVec.ofNat 1024 0x11) with uid := 1, dispatched := true }

def farState : State := { farBare with front := { farBare.front with cmds := [farCmd], nextUid := 2 } }

/-- What the array needs to know of its next product. -/
def farFacts (q : Bool × Prod) : Bool :=
  q.1 && bankFor (blockAt farState 0) farJob q.2 == some 7 && stepReady farState 0 farJob q.2 && decide (2 < q.2.steps) && decide (0 < q.2.group)

theorem farState_runs : blockRuns farState 0 = true := by decide +kernel

theorem farState_product : (nextProd farState 0 farCmd farJob).any farFacts = true := by decide +kernel

/-- Refutes O34: a backward item that stands before its second product number 7 has it bound to bank 7, which no block has, so the row
leaves no group behind. -/
theorem not_arrayStepRow : ¬ Obligations.ArrayStepRow := by
  intro h
  have facts := farState_product
  rcases next : nextProd farState 0 farCmd farJob with _ | ⟨second, p⟩
  · rw [next] at facts
    cases facts
  rw [next] at facts
  simp only [Option.any_some, farFacts, Bool.and_eq_true, beq_iff_eq, decide_eq_true_eq] at facts
  obtain ⟨⟨⟨⟨-, bank⟩, ready⟩, steps⟩, group⟩ := facts
  have calm : ∀ code ∈ [1, 2, 4, 8], fires code 0 farState = none := fun _ _ => rfl
  have cmd : cmdOf farState farJob.uid = some farCmd := by decide +kernel
  obtain ⟨t, j', row, -, -, -, -, -, -, -, its, -⟩ :=
    h 0 7 second farCmd farJob p farState farState_runs rfl cmd rfl next bank ready (by decide) steps rfl calm
  obtain rfl := Host.Outcome.next.inj ((exec_arrayStep farState_runs rfl cmd rfl next ready).symm.trans row)
  obtain ⟨y, banks⟩ := arrayStep_banks (c := farCmd) bank (by decide) steps calm
  have none_ : ((blockAt (arrayStep 0 farCmd farJob p farState) 0).banks.getD 7 bank0).group = 0 := by
    rw [banks]
    rfl
  have its' : ((blockAt (arrayStep 0 farCmd farJob p farState) 0).banks.getD 7 bank0).group = p.group := its
  omega

end Sys2Proof.Machine
end

section
/-! The block's pipeline: stationary loads, drains, prologues, epilogues (R86 to R100, R133 to R137), and the statement on them. -/

namespace Sys2Proof.Machine

-- one proof at a time, for the memory that the check allows
set_option Elab.async false

/-! ### Stationary loads (R86) -/

section
variable {b n : Nat} {second : Bool} {c : Cmd} {j : Job} {p : Prod} {h : Held} {s : State}

theorem loadDue_of (job : (blockAt s b).job = some j) (cmd : cmdOf s j.uid = some c) (fetched : j.fetched = true)
    (next : nextProd s b c j = some (second, p)) (held : p.held = some h) (due : sliceDue (blockAt s b) p j.step = some n) :
    loadDue b s = some (h.key n, sliceLoad h p.len n) := by
  unfold loadDue
  simp only [job, cmd, fetched, next, held, due]
  rfl

theorem feedFrozen_of (job : (blockAt s b).job = some j) (wait : j.wait = []) : feedFrozen (blockAt s b) = false := by
  simp [feedFrozen, job, wait]

theorem stationaryLoadDone_runs (runs : blockRuns s b = true) (job : (blockAt s b).job = some j) (cmd : cmdOf s j.uid = some c)
    (fetched : j.fetched = true) (wait : j.wait = []) (next : nextProd s b c j = some (second, p)) (held : p.held = some h)
    (due : sliceDue (blockAt s b) p j.step = some n) (free : drainStuck s b = false) :
    exec (.stationaryLoadDone b) s = .next { s with blocks := tput b { blockAt s b with
      stat := (blockAt s b).stat.set (1 - (blockAt s b).active)
        { key := h.key n, elems := sliceLoad h p.len n, badParity := [] } } s.blocks } := by
  show execStationaryLoadDone b s = _
  unfold execStationaryLoadDone
  rw [loadDue_of job cmd fetched next held due]
  exact event_exact (by simp [runs, feedFrozen_of job wait, free]) rfl

end

/-! ### The start of a drain (R89, R91) -/

/-- The earlier-closed of two banks, the first of equals. -/
def earlier (x : Block) (m : Option Nat) (i : Nat) : Option Nat :=
  match m with
  | none => some i
  | some k => if (x.banks.getD i bank0).order < (x.banks.getD k bank0).order then some i else some k

theorem drainNext_eq (x : Block) : drainNext x = ((List.range 4).filter fun i => (x.banks.getD i bank0).st = 2).foldl (earlier x) none := rfl

/-- The bank that a scan picks is one of them or the one at hand, and none of them closed before it. -/
theorem foldl_earlier {x : Block} {l : List Nat} {m : Option Nat} {i : Nat} (picked : l.foldl (earlier x) m = some i) :
    (i ∈ l ∨ m = some i) ∧ (∀ k ∈ l, (x.banks.getD i bank0).order ≤ (x.banks.getD k bank0).order)
    ∧ ∀ k, m = some k → (x.banks.getD i bank0).order ≤ (x.banks.getD k bank0).order := by
  induction l generalizing m with
  | nil => exact ⟨.inr picked, by simp, fun k its => by rw [show m = some i from picked] at its; rw [Option.some.inj its]⟩
  | cons a l ih =>
    obtain ⟨from_, least, before⟩ := ih picked
    cases m with
    | none =>
      have bound := before a rfl
      refine ⟨.inl ?_, fun k mem => ?_, fun k its => by cases its⟩
      · rcases from_ with mem | its
        · exact List.mem_cons_of_mem _ mem
        · rw [← Option.some.inj its]
          exact List.mem_cons_self
      · rcases List.mem_cons.mp mem with rfl | mem
        · exact bound
        · exact least k mem
    | some v =>
      by_cases sooner : (x.banks.getD a bank0).order < (x.banks.getD v bank0).order
      · have step : earlier x (some v) a = some a := if_pos sooner
        have bound := before a step
        refine ⟨.inl ?_, fun k mem => ?_, fun k its => ?_⟩
        · rcases from_ with mem | its
          · exact List.mem_cons_of_mem _ mem
          · rw [← Option.some.inj (step.symm.trans its)]
            exact List.mem_cons_self
        · rcases List.mem_cons.mp mem with rfl | mem
          · exact bound
          · exact least k mem
        · rw [← Option.some.inj its]
          omega
      · have step : earlier x (some v) a = some v := if_neg sooner
        have bound := before v step
        refine ⟨?_, fun k mem => ?_, fun k its => ?_⟩
        · rcases from_ with mem | its
          · exact .inl (List.mem_cons_of_mem _ mem)
          · exact .inr (by rw [← its, step])
        · rcases List.mem_cons.mp mem with rfl | mem
          · omega
          · exact least k mem
        · rw [← Option.some.inj its]
          exact bound

theorem drainNext_spec {x : Block} {i : Nat} (next : drainNext x = some i) : (x.banks.getD i bank0).st = 2
    ∧ ∀ k < 4, (x.banks.getD k bank0).st = 2 → (x.banks.getD i bank0).order ≤ (x.banks.getD k bank0).order := by
  obtain ⟨from_, least, -⟩ := foldl_earlier ((drainNext_eq x).symm.trans next)
  refine ⟨?_, fun k small closed => least k (List.mem_filter.mpr ⟨List.mem_range.mpr small, by simpa using closed⟩)⟩
  rcases from_ with mem | its
  · simpa using (List.mem_filter.mp mem).2
  · cases its

/-- The bank of a block as its drain starts. -/
def draining (x : Block) (i : Nat) : Bank :=
  { x.banks.getD i bank0 with st := 3, bypass := (x.banks.getD i bank0).way = 0 && bypassOpen x }

theorem tileDrain_runs {b i : Nat} {s : State} (runs : blockRuns s b = true) (next : drainNext (blockAt s b) = some i)
    (idle : ∀ k ∈ (blockAt s b).banks, k.st ≠ 3) (fed : feedFrozen (blockAt s b) = false)
    (room : drainRoom s b ((blockAt s b).banks.getD i bank0) = true) :
    exec (.tileDrain b) s = .next { s with
      blocks := tput b { blockAt s b with banks := (blockAt s b).banks.set i (draining (blockAt s b) i) } s.blocks } := by
  have none_ : (blockAt s b).banks.any (fun k => k.st = 3) = false := List.any_eq_false.mpr fun k mem => by simp [idle k mem]
  show execTileDrain b s = _
  unfold execTileDrain
  dsimp only
  rw [next]
  exact event_exact (by rw [runs, none_, fed, room]; rfl) rfl

/-! ### The end of a drain (R89, R91, R100) -/

theorem stackPush_some (np : Nat) (l : List (TileV × Nat)) (t : TileV) (n : Nat) : stackPush np l t n ≠ [] := by
  induction l generalizing t n with
  | nil => exact List.cons_ne_nil _ _
  | cons a l ih =>
    unfold stackPush
    split
    · exact ih _ _
    · exact List.cons_ne_nil _ _

/-- The block's fields that the end of its idleness sets: a falling ramp, and its watch. -/
structure Settled (x y : Block) : Prop where
  banks : y.banks = x.banks
  epi : y.epi = x.epi
  bvu : y.bvu = x.bvu
  job : y.job = x.job

/-- What ends the drain's step: a falling ramp where the block has become idle. -/
def rampDown (b : Nat) (s : State) : State :=
  if blockIdle (blockAt s b) && !bit (odv s 0x5010 2) (idleCause s b) && !hintHolds s then startFall b s else s

/-- The bank after its tile has drained. -/
def bankAfter (x : Block) (i : Nat) : Bank :=
  match (x.banks.getD i bank0).next with
  | some (st, way, a) =>
    { x.banks.getD i bank0 with st := st, way := way, bypass := false, order := x.closes, acc := a, next := none }
  | none => bank0

/-- The bank freed, or taken up by the group that follows. -/
def bankFreed (b i : Nat) (s : State) : State :=
  modBlock b (fun x => { x with banks := x.banks.set i (bankAfter (blockAt s b) i)
                              , closes := x.closes + b2n ((blockAt s b).banks.getD i bank0).next.isSome }) s

theorem drainEnd_eq (b i : Nat) (s : State) :
    drainEnd b i s = rampDown b (drainTo b ((blockAt s b).banks.getD i bank0) (bankFreed b i s)) := by
  unfold drainEnd rampDown bankFreed bankAfter
  rfl

theorem blockAt_settled (b n : Nat) (s : State) : if n = b then Settled (blockAt s n) (blockAt (blockProgress b (rampDown b s)) n)
    else blockAt (blockProgress b (rampDown b s)) n = blockAt s n := by
  have ramp : if n = b then Settled (blockAt s n) (blockAt (rampDown b s) n) else blockAt (rampDown b s) n = blockAt s n := by
    unfold rampDown startFall
    split
    · next here =>
      subst here
      split
      · rw [blockAt_modBlock, if_pos rfl]
        exact ⟨rfl, rfl, rfl, rfl⟩
      · exact ⟨rfl, rfl, rfl, rfl⟩
    · next other =>
      split
      · rw [blockAt_modBlock, if_neg other]
      · rfl
  unfold blockProgress
  rw [blockAt_modBlock]
  split
  · next here =>
    subst here
    rw [if_pos rfl] at ramp
    exact ⟨ramp.banks, ramp.epi, ramp.bvu, ramp.job⟩
  · next other =>
    rw [if_neg other] at ramp
    exact ramp

theorem rampDown_frame (b : Nat) (s : State) : Frame [.blocks] s (blockProgress b (rampDown b s)) :=
  .after (modBlock_frame ..) (.ite (modBlock_frame ..) (.refl s))

section
variable {b : Nat} {k : Bank} {s : State}

/-- The tile of a bank as an entry of the epilogue. -/
def drained (k : Bank) : Epi := { uid := k.uid, item := k.item, group := k.group, acc := k.acc }

theorem drainTo_epilogue (b : Nat) (way : k.way = 0) (s : State) : drainTo b k s =
    modBlock b (fun x => if k.bypass then { x with bvu := some (drained k) } else { x with epi := x.epi ++ [drained k] }) s := by
  unfold drainTo
  rw [if_neg (by omega), if_neg (by omega)]
  rfl

/-- A parked tile is back with its item. -/
def parkedAt (b : Nat) (k : Bank) (s : State) : State :=
  modBlock b (fun x => { x with job := x.job.map fun (j : Job) =>
    { j with outs := j.outs.set (k.group - 2 ^ 32) k.acc, parked := (k.group - 2 ^ 32) :: j.parked.filter (· != k.group - 2 ^ 32) } }) s

theorem drainTo_parked (b : Nat) (way : k.way = 1) (s : State) : Frame [.cmds] (parkedAt b k s) (drainTo b k s) := by
  unfold drainTo
  rw [if_pos way]
  show Frame [.cmds] (parkedAt b k s) (match cmdOf (parkedAt b k s) k.uid with | some c => _ | none => _)
  split
  · exact .ite (.ite (flagCmd_frame ..) (.refl _)) (.refl _)
  · exact .refl _

theorem drainTo_segment (b : Nat) (way : k.way = 2) (s : State) : ∃ np, drainTo b k s = psumPut b k.uid k.item k.group np k.acc.tile s := by
  unfold drainTo
  rw [if_neg (by omega), if_pos way]
  exact ⟨_, rfl⟩

theorem drainTo_frame (b : Nat) (k : Bank) (s : State) : Frame [.blocks, .regions, .cmds] s (drainTo b k s) := by
  by_cases parked : k.way = 1
  · exact .after (drainTo_parked b parked s) (show Frame [.blocks] s (parkedAt b k s) from modBlock_frame ..).mono
  · by_cases segment : k.way = 2
    · obtain ⟨np, its⟩ := drainTo_segment b segment s
      rw [its]
      exact (show Frame [.regions] s (psumPut b k.uid k.item k.group np k.acc.tile s) from rfl).mono
    · unfold drainTo
      rw [if_neg parked, if_neg segment]
      exact (show Frame [.blocks] s (modBlock b _ s) from modBlock_frame ..).mono

/-- Other blocks, and the regions of other blocks, are as they were. -/
theorem drainTo_others (b : Nat) (k : Bank) (s : State) : (∀ n, n ≠ b → blockAt (drainTo b k s) n = blockAt s n)
    ∧ ∀ r, r ≠ b / 40 → regionAt (drainTo b k s) r = regionAt s r := by
  by_cases parked : k.way = 1
  · have frame := drainTo_parked b parked s
    refine ⟨fun n other => ?_, fun r _ => frame.keeps fun t => regionAt t r⟩
    rw [show blockAt (drainTo b k s) n = blockAt (parkedAt b k s) n from frame.keeps fun t => blockAt t n, parkedAt, blockAt_modBlock, if_neg other]
  · by_cases segment : k.way = 2
    · obtain ⟨np, its⟩ := drainTo_segment b segment s
      rw [its]
      exact ⟨fun _ _ => rfl, fun r other => (regionAt_modRegion ..).trans (if_neg other)⟩
    · unfold drainTo
      rw [if_neg parked, if_neg segment]
      exact ⟨fun n other => (blockAt_modBlock ..).trans (if_neg other), fun _ _ => rfl⟩

theorem drainTo_banks (b : Nat) (k : Bank) (s : State) : (blockAt (drainTo b k s) b).banks = (blockAt s b).banks := by
  by_cases parked : k.way = 1
  · rw [show blockAt (drainTo b k s) b = blockAt (parkedAt b k s) b from (drainTo_parked b parked s).keeps fun t => blockAt t b, parkedAt,
      blockAt_modBlock, if_pos rfl]
  · by_cases segment : k.way = 2
    · obtain ⟨np, its⟩ := drainTo_segment b segment s
      rw [its]
      rfl
    · unfold drainTo
      rw [if_neg parked, if_neg segment, blockAt_modBlock, if_pos rfl]
      split <;> rfl

end

section
variable {b i : Nat} {s : State}

/-- The drain port's block and region after a drain's end. -/
def drainDone (b i : Nat) (s : State) : State := blockProgress b (drainEnd b i s)

theorem blockAt_bankFreed (b i : Nat) (s : State) : blockAt (bankFreed b i s) b = { blockAt s b with
    banks := (blockAt s b).banks.set i (bankAfter (blockAt s b) i)
    closes := (blockAt s b).closes + b2n ((blockAt s b).banks.getD i bank0).next.isSome } := (blockAt_modBlock ..).trans (if_pos rfl)

theorem drainDone_block (b i : Nat) (s : State) : Settled (blockAt (drainTo b ((blockAt s b).banks.getD i bank0) (bankFreed b i s)) b)
    (blockAt (drainDone b i s) b) := by
  have settled := blockAt_settled b b (drainTo b ((blockAt s b).banks.getD i bank0) (bankFreed b i s))
  rw [if_pos rfl] at settled
  unfold drainDone
  rwa [drainEnd_eq]

theorem drainDone_frame (b i : Nat) (s : State) : Frame [.blocks, .regions, .cmds] s (drainDone b i s) := by
  unfold drainDone
  rw [drainEnd_eq]
  exact .after (rampDown_frame ..) (.after (drainTo_frame ..) (show Frame [.blocks] s (bankFreed b i s) from modBlock_frame ..).mono)

theorem drainDone_others (b i : Nat) (s : State) : (∀ n, n ≠ b → blockAt (drainDone b i s) n = blockAt s n)
    ∧ ∀ r, r ≠ b / 40 → regionAt (drainDone b i s) r = regionAt s r := by
  obtain ⟨blocks, regions⟩ := drainTo_others b ((blockAt s b).banks.getD i bank0) (bankFreed b i s)
  unfold drainDone
  rw [drainEnd_eq]
  refine ⟨fun n other => ?_, fun r other => ?_⟩
  · have settled := blockAt_settled b n (drainTo b ((blockAt s b).banks.getD i bank0) (bankFreed b i s))
    rw [if_neg other] at settled
    rw [settled, blocks n other, bankFreed, blockAt_modBlock, if_neg other]
  · rw [show regionAt (blockProgress b (rampDown b _)) r = regionAt (drainTo b ((blockAt s b).banks.getD i bank0) (bankFreed b i s)) r from
      (rampDown_frame ..).keeps fun t => regionAt t r]
    exact regions r other

theorem drainDone_banks (b i : Nat) (s : State) :
    (blockAt (drainDone b i s) b).banks = (blockAt s b).banks.set i (bankAfter (blockAt s b) i) := by
  rw [(drainDone_block b i s).banks, drainTo_banks, blockAt_bankFreed]

theorem drainDone_epilogue (way : ((blockAt s b).banks.getD i bank0).way = 0) :
    (blockAt (drainDone b i s) b).epi = (if ((blockAt s b).banks.getD i bank0).bypass then (blockAt s b).epi
        else (blockAt s b).epi ++ [drained ((blockAt s b).banks.getD i bank0)])
    ∧ (blockAt (drainDone b i s) b).bvu = (if ((blockAt s b).banks.getD i bank0).bypass then some (drained ((blockAt s b).banks.getD i bank0))
        else (blockAt s b).bvu)
    ∧ Frame [.blocks] s (drainDone b i s) := by
  have settled := drainDone_block b i s
  rw [drainTo_epilogue b way, blockAt_modBlock, if_pos rfl, blockAt_bankFreed] at settled
  refine ⟨?_, ?_, ?_⟩
  · rw [settled.epi]
    split <;> rfl
  · rw [settled.bvu]
    split <;> rfl
  · unfold drainDone
    rw [drainEnd_eq, drainTo_epilogue b way]
    exact .after (rampDown_frame ..) (.after (modBlock_frame ..) (show Frame [.blocks] s (bankFreed b i s) from modBlock_frame ..))

theorem drainDone_parked (way : ((blockAt s b).banks.getD i bank0).way = 1) :
    (blockAt (drainDone b i s) b).epi = (blockAt s b).epi ∧ (blockAt (drainDone b i s) b).bvu = (blockAt s b).bvu
    ∧ (blockAt (drainDone b i s) b).job = (blockAt s b).job.map fun (j : Job) =>
        { j with outs := j.outs.set (((blockAt s b).banks.getD i bank0).group - 2 ^ 32) ((blockAt s b).banks.getD i bank0).acc
                 parked := (((blockAt s b).banks.getD i bank0).group - 2 ^ 32) ::
                  j.parked.filter (· != ((blockAt s b).banks.getD i bank0).group - 2 ^ 32) } := by
  have settled := drainDone_block b i s
  rw [show blockAt (drainTo b _ (bankFreed b i s)) b = blockAt (parkedAt b ((blockAt s b).banks.getD i bank0) (bankFreed b i s)) b from
    (drainTo_parked b way _).keeps fun t => blockAt t b, parkedAt, blockAt_modBlock, if_pos rfl, blockAt_bankFreed] at settled
  exact ⟨settled.epi, settled.bvu, settled.job⟩

theorem drainDone_segment (way : ((blockAt s b).banks.getD i bank0).way = 2) :
    (blockAt (drainDone b i s) b).epi = (blockAt s b).epi ∧ (blockAt (drainDone b i s) b).bvu = (blockAt s b).bvu
    ∧ (blockAt (drainDone b i s) b).job = (blockAt s b).job
    ∧ (regionAt (drainDone b i s) (b / 40)).psum = (regionAt s (b / 40)).psum
    ∧ ∃ q ∈ (regionAt (drainDone b i s) (b / 40)).parts, q.1 = ((blockAt s b).banks.getD i bank0).uid
        ∧ q.2.1 = ((blockAt s b).banks.getD i bank0).item ∧ q.2.2.1 = ((blockAt s b).banks.getD i bank0).group ∧ q.2.2.2 ≠ [] := by
  obtain ⟨np, its⟩ := drainTo_segment b way (bankFreed b i s)
  have settled := drainDone_block b i s
  rw [its, show blockAt (psumPut b _ _ _ np _ (bankFreed b i s)) b = blockAt (bankFreed b i s) b from rfl, blockAt_bankFreed] at settled
  have region : regionAt (drainDone b i s) (b / 40) = regionAt (drainTo b ((blockAt s b).banks.getD i bank0) (bankFreed b i s)) (b / 40) := by
    unfold drainDone
    rw [drainEnd_eq]
    exact (rampDown_frame ..).keeps fun t => regionAt t (b / 40)
  rw [its, psumPut, regionAt_modRegion, if_pos rfl] at region
  rw [region]
  exact ⟨settled.epi, settled.bvu, settled.job, rfl, _, List.mem_append_right _ List.mem_cons_self, rfl, rfl, rfl, stackPush_some _ _ _ _⟩

end

/-! ### Prologues (R135 to R137) -/

section
variable {b item part : Nat} {c : Cmd} {s : State}

theorem proNext_spec (next : proNext s b = some (c, item, part)) :
    part ∈ proParts s b c item ∧ proDone s b c.uid item part = false := by
  obtain ⟨⟨uid, it⟩, -, its⟩ := List.exists_of_findSome?_eq_some next
  dsimp only at its
  split at its
  · cases its
  · next found =>
    split at its
    · obtain ⟨k, here, rest⟩ := Option.map_eq_some_iff.mp its
      obtain ⟨rfl, rfl, rfl⟩ : _ ∧ _ ∧ _ := by simpa using rest
      rw [uid_of_cmdOf found]
      exact ⟨List.mem_of_find?_eq_some here, by simpa using List.find?_some here⟩
    · cases its

/-- What forming operand tiles touches. -/
def formParts : List StatePart := [.sp, .spPoison, .fresh, .cmds]

theorem scramble_frame (b a n : Nat) (s : State) : Frame [.sp, .spPoison, .fresh] s (scramble b a n s) :=
  .after (drawn_frame ..) (spWrite_frame ..).mono

theorem formedTiles_frame (b : Nat) (c : Cmd) (item part : Nat) (s : State) : Frame formParts s (formedTiles b c item part s).2 := by
  have area (a n uid : Nat) (sat : Bool) : Frame formParts s (markSat uid sat (scramble b a n s)) :=
    .after (markSat_frame ..) (scramble_frame ..).mono
  unfold formedTiles
  dsimp only
  split
  · exact area ..
  · exact area ..
  · exact (show Frame [.cmds] s (markSat _ _ s) from markSat_frame ..).mono
  · exact area ..
  · exact area ..

/-- The formed tiles, with their poison noted. -/
def tilesFormed (b : Nat) (c : Cmd) (item part : Nat) (s : State) : State :=
  if (formedTiles b c item part s).1.any (fun x => x.poison != 0) then flagCmd c.uid 3 (formedTiles b c item part s).2 else (formedTiles b c item part s).2

/-- The block with a prologue's result, and its watch started again. -/
def withPrologue (r : ProRes) (x : Block) : Block := { x with pro := x.pro ++ [r], mire := 0 }

theorem prologueTile_runs (runs : blockRuns s b = true) (next : proNext s b = some (c, item, part)) : ∃ t, exec (.prologueTile b) s = .next t
    ∧ Frame (.blocks :: formParts) s t ∧ ∀ n, blockAt t n = if n = b then
        withPrologue { uid := c.uid, item := item, part := part, bufs := (formedTiles b c item part s).1 } (blockAt s n) else blockAt s n := by
  have formed : Frame formParts s (tilesFormed b c item part s) := .ite (.after (flagCmd_frame ..) (formedTiles_frame ..)) (formedTiles_frame ..)
  have same (n : Nat) : blockAt (tilesFormed b c item part s) n = blockAt s n := formed.keeps fun t => blockAt t n
  have acts : prologueTile b s = some (modBlock b (fun x => { x with
      pro := x.pro ++ [{ uid := c.uid, item := item, part := part, bufs := (formedTiles b c item part s).1 }] }) (tilesFormed b c item part s)) := by
    unfold prologueTile
    rw [next]
    rfl
  have frame : Frame (.blocks :: formParts) s (blockProgress b (modBlock b (fun x => { x with
      pro := x.pro ++ [{ uid := c.uid, item := item, part := part, bufs := (formedTiles b c item part s).1 }] }) (tilesFormed b c item part s))) :=
    .after (modBlock_frame ..) (.after (modBlock_frame ..) formed.mono)
  refine ⟨_, ?_, frame, fun n => ?_⟩
  · show execPrologueTile b s = _
    unfold execPrologueTile
    rw [acts]
    exact event_exact runs (frame.keeps State.pending)
  · unfold blockProgress
    rw [blockAt_modBlock]
    split
    · next here =>
      subst here
      rw [blockAt_modBlock, if_pos rfl, same]
      rfl
    · next other => rw [blockAt_modBlock, if_neg other, same]

end

/-! ### Epilogues (R133, R134, R137) -/

section
variable {b : Nat} {c : Cmd} {e : Epi} {rest : List Epi} {s : State}

theorem nextTiles_head (free : (blockAt s b).bvu = none) (head : (blockAt s b).epi = e :: rest) (cmd : cmdOf s e.uid = some c)
    (single : gatePairs c.desc = false) (room : tileWaits (blockAt s b) c e = false) :
    nextTiles s b = some (true, [e], { blockAt s b with epi := rest }) := by
  unfold nextTiles
  dsimp only
  rw [free, head]
  dsimp only
  rw [List.findSome?_cons, cmd]
  simp [single, room]

/-- No armed point strikes the BVU. -/
theorem bvuFaults_calm (read : Bool) (calm : ∀ code ∈ [5, 6, 7], fires code b s = none) : bvuFaults b read s = (false, s) := by
  unfold bvuFaults
  simp [calm 5 (by decide), calm 6 (by decide), calm 7 (by decide)]

theorem workOn_calm {read : Bool} (cmd : cmdOf s e.uid = some c) (calm : ∀ code ∈ [5, 6, 7], fires code b s = none) :
    workOn b read e s = tileWork b c e s := by
  unfold workOn
  rw [cmd]
  dsimp only
  rw [bvuFaults_calm read calm]
  rfl

theorem epilogueTile_runs (runs : blockRuns s b = true) (room : writeFull s b = false) (idle : proNext s b = none)
    (free : (blockAt s b).bvu = none) (head : (blockAt s b).epi = e :: rest) (cmd : cmdOf s e.uid = some c) (single : gatePairs c.desc = false)
    (waits : tileWaits (blockAt s b) c e = false) (calm : ∀ code ∈ [5, 6, 7], fires code b s = none) :
    exec (.epilogueTile b) s = .next { blockProgress b (tileWork b c e { s with
      blocks := tput b { blockAt s b with epi := rest } s.blocks }) with pending := s.pending } := by
  have acts : epilogueTile b s = some (tileWork b c e (putBlock b { blockAt s b with epi := rest } s)) := by
    unfold epilogueTile
    dsimp only
    rw [idle, if_neg (by simp), nextTiles_head free head cmd single waits]
    exact congrArg some (workOn_calm (s := putBlock b { blockAt s b with epi := rest } s) cmd calm)
  show execEpilogueTile b s = _
  unfold execEpilogueTile
  rw [acts]
  exact event_of (by simp [runs, room])

end

/-! ### Arrived tiles (R152) -/

theorem arrivalTilePresent_runs {b e : Nat} {a : Arrival} {s : State} (runs : live s = true)
    (found : (blockAt s b).arrivals.find? (fun x => x.1 = e) = some (e, a)) (absent : a.present = false) (whole : a.got ≥ a.want) :
    exec (.arrivalTilePresent b e) s = .next { s with blocks := tput b { blockAt s b with
      arrivals := tput e { a with present := true } (blockAt s b).arrivals } s.blocks } := by
  show execArrivalTilePresent b e s = _
  unfold execArrivalTilePresent
  rw [found]
  exact event_exact (by simp [runs, absent, whole]) rfl

theorem drainEnd_runs {b i : Nat} {s : State} (runs : blockRuns s b = true) (fed : feedFrozen (blockAt s b) = false)
    (port : (List.range 4).find? (fun i => ((blockAt s b).banks.getD i bank0).st = 3) = some i) :
    exec (.drainEnd b) s = .next (drainDone b i s) := by
  show execDrainEnd b s = _
  unfold execDrainEnd
  dsimp only
  rw [port]
  exact event_exact (by simp [runs, fed]) ((drainDone_frame b i s).keeps State.pending)

/-- Settles O35: each row of the pipeline in turn; the end of a drain by the way that its bank's tile goes. -/
theorem arrayPipelineRows : Obligations.ArrayPipelineRows := by
  unfold Obligations.ArrayPipelineRows
  refine ⟨fun b n second c j p h s runs job cmd fetched wait next held due free =>
      stationaryLoadDone_runs runs job cmd fetched wait next held due free,
    fun b i s runs next idle fed room => ?_, fun b i s runs fed port => ?_, fun b item part c s runs next => ⟨proNext_spec next, ?_⟩,
    fun b c e rest s runs room idle free head cmd single waits calm => epilogueTile_runs runs room idle free head cmd single waits calm,
    fun b e a s runs found absent whole => arrivalTilePresent_runs runs found absent whole⟩
  · obtain ⟨closed, least⟩ := drainNext_spec next
    refine ⟨closed, least, draining (blockAt s b) i, tileDrain_runs runs next idle fed room, rfl, ?_⟩
    simp [draining, bypassOpen]
  · obtain ⟨blocks, regions⟩ := drainDone_others b i s
    have banks := drainDone_banks b i s
    refine ⟨_, drainEnd_runs runs fed port, drainDone_frame b i s, blocks, regions, fun last => ?_, fun st way a more => ?_, fun way plain => ?_,
      fun way past => ?_, fun way => ?_, fun way => ?_⟩
    · rw [banks, bankAfter, last]
    · rw [banks, bankAfter, more]
    · obtain ⟨epi, bvu, frame⟩ := drainDone_epilogue way
      rw [plain] at epi bvu
      exact ⟨epi, bvu, frame⟩
    · obtain ⟨epi, bvu, frame⟩ := drainDone_epilogue way
      rw [past] at epi bvu
      exact ⟨epi, bvu, frame⟩
    · obtain ⟨epi, bvu, job⟩ := drainDone_parked way
      refine ⟨epi, bvu, fun j j' old new => ?_⟩
      rw [old, new] at job
      rw [Option.some.inj job]
      exact ⟨rfl, List.mem_cons_self⟩
    · exact drainDone_segment way
  · obtain ⟨t, row, frame, block⟩ := prologueTile_runs runs next
    have own := (block b).trans (if_pos rfl)
    refine ⟨t, row, ?_, by rw [own]; rfl, by rw [own]; rfl, by rw [own]; rfl, by rw [own]; rfl, fun n other => (block n).trans (if_neg other),
      frame.keeps State.mem, frame.keeps State.flags, frame.keeps State.regions⟩
    unfold proDone
    rw [own]
    simp [withPrologue]

end Sys2Proof.Machine
end
